-- ==== Sys2Proof/Word.lean ====
section
/-!
DEFINITION. The machine's words: the 32-bit register, the 64-bit value of a register pair, the byte, the lane mask,
and their plainest arithmetic over numbers (R6, R10 to R12, R186).
-/

namespace Sys2Proof

/-- One vector, scalar or mask register: 32 bits (R60). -/
abbrev Word := BitVec 32

/-- A 64-bit value, as a register pair holds it (R61): addresses, program counters, 64-bit special registers. -/
abbrev Dword := BitVec 64

/-- The smallest addressable unit of every memory (R6). -/
abbrev Byte := BitVec 8

/-- One bit per lane, bit l for lane l (R63). -/
abbrev Mask := BitVec 32

/-- bits(x, hi, lo) of the spec, over the number x (R186). -/
def bits (x hi lo : Nat) : Nat := x / 2 ^ lo % 2 ^ (hi + 1 - lo)

/-- Bit i of the number x. -/
def bit (x i : Nat) : Bool := x / 2 ^ i % 2 == 1

/-- 1 for true, 0 for false. -/
def b2n (b : Bool) : Nat := if b then 1 else 0

/-- The number x read as an n-bit two's-complement value; only the low n bits count. -/
def sext (n x : Nat) : Int :=
  if x % 2 ^ n < 2 ^ (n - 1) then (x % 2 ^ n : Nat) else ((x % 2 ^ n : Nat) : Int) - (2 ^ n : Nat)

/-- The n-bit pattern of an integer: wrap(x, n) of the spec. -/
def wrap (n : Nat) (x : Int) : Nat := (x % ((2 ^ n : Nat) : Int)).toNat

/-- ceil(a / b) for b > 0. -/
def ceilDiv (a b : Nat) : Nat := (a + b - 1) / b

/-- The pattern of 2^n - 1. -/
def ones (n : Nat) : Nat := 2 ^ n - 1

/-- The lane numbers 0 to 31, in ascending order. -/
def lanes : List Nat := List.range 32

/-- The lanes a mask holds, in ascending order. -/
def lanesOf (m : Mask) : List Nat := lanes.filter (fun l => m.getLsbD l)

/-- The mask of the lanes that satisfy a test. -/
def maskOf (f : Nat → Bool) : Mask := (BitVec.ofBoolListLE (lanes.map f)).setWidth 32

end Sys2Proof
end

