-- ==== Sys2Proof/Syntax.lean ====
section
/-!
DEFINITION. The instructions of the AQF-160: every row of the opcode table is one constructor of `Instr`. Instruction
words (F, P, I and C, R186) come first, then the events that the spec lists as whole indivisible steps of the part
(spec/95). Fields of a word are typed here once; register numbers are numbers with the width of their field, and
`WellFormed` says which values an instruction accepts.
-/

namespace Sys2Proof

/-! ### Fields shared by the word formats -/

/-- TY codes 0 to 15, in order (R191). -/
inductive Ty where
  | i32 | n32 | i64 | n64 | f32 | f64 | f16x2 | bf16x2 | i16x2 | n16x2 | i8x4 | n8x4 | e4m3x4 | e5m2x4
  | reserved14 | reserved15
  deriving DecidableEq, Repr

/-- Rounding modes, codes 0 to 3 in order (R82). -/
inductive Rm where
  | rne | rz | rdn | rup
  deriving DecidableEq, Repr

/-- Widths W, codes 0 to 7 in order (R192). -/
inductive Width where
  | n8 | i8 | n16 | i16 | w32 | w64 | w128 | reserved
  deriving DecidableEq, Repr

/-- Ordering codes, 0 to 7 in order (R115). -/
inductive Order where
  | plain | strong | acq | rel | ar | reserved5 | reserved6 | reserved7
  deriving DecidableEq, Repr

/-- Cache hints, codes 0 to 7 in order (R192). -/
inductive Hint where
  | normal | stream | keep | bypass | reserved4 | reserved5 | reserved6 | reserved7
  deriving DecidableEq, Repr

/-- Observer mask: one Bool per class (R115, R192). -/
structure Obs where
  k : Bool
  d : Bool
  e : Bool
  y : Bool
  x : Bool
  f : Bool
  h : Bool
  deriving DecidableEq, Repr

/-- Barrier scopes, codes 0 to 3 in order (R266). -/
inductive Scope where
  | core | cluster | die | pkg
  deriving DecidableEq, Repr

/-- MSEL and MINV (R63). -/
structure Pred where
  msel : Nat
  minv : Bool
  deriving DecidableEq, Repr

/-- A source operand field by class (R188): `nb dir k` is v(112+k) of the neighbour in direction dir. -/
inductive Src where
  | v (n : Nat)
  | s (n : Nat)
  | nb (dir k : Nat)
  | imm (i : Int)
  deriving DecidableEq, Repr

/-- A destination operand field by class (R188). `m 0` is null; class 10 is accepted nowhere. -/
inductive Dst where
  | v (n : Nat)
  | s (n : Nat)
  | nb (raw : Nat)
  | m (n : Nat)
  deriving DecidableEq, Repr

/-- The register XREAD and XWRITE name in X16 bits 9:0 (R295); `m 0` is the trapped split's Mask. -/
inductive RReg where
  | v (n : Nat)
  | s (n : Nat)
  | reserved (raw : Nat)
  | m (n : Nat)
  deriving DecidableEq, Repr

/-! ### Modifiers: X16 and X8 by word -/

/-- X16 of an arithmetic word (R190). The four NA bits: neg and abs of A and of B. -/
structure XArith where
  ty : Ty
  rm : Rm
  sat : Bool
  cc : Bool
  negA : Bool
  absA : Bool
  negB : Bool
  absB : Bool
  opx : Nat
  deriving DecidableEq, Repr

/-- X16 of CVT: bits 7:4 hold the source type (R231). -/
structure XCvt where
  ty : Ty
  rm : Rm
  sat : Bool
  cc : Bool
  sty : Ty
  opx : Nat
  deriving DecidableEq, Repr

/-- X16 of a memory word (R192). -/
structure XMem where
  w : Width
  ord : Order
  obs : Obs
  hint : Hint
  deriving DecidableEq, Repr

/-- X16 of BAR, BARA and BARW (R266). -/
structure XBar where
  scope : Scope
  ord : Order
  obs : Obs
  deriving DecidableEq, Repr

/-- X16 of the transaction-barrier words (R273). -/
structure XTb where
  ord : Order
  obs : Obs
  deriving DecidableEq, Repr

/-- X16 of MMA, MMAQ and MMAS (R313). -/
structure XMma where
  afmt : Nat
  bfmt : Nat
  tag : Nat
  z : Bool
  deriving DecidableEq, Repr

/-- X16 of CPY (R323). -/
structure XCpy where
  dir : Nat
  hint : Nat
  deriving DecidableEq, Repr

/-- X16 of CPYT (R324). -/
structure XCpyt where
  cv : Bool
  dfmt : Nat
  dkind : Nat
  deriving DecidableEq, Repr

/-- X16 of GPOOL (R328). -/
structure XGpool where
  ofmt : Nat
  okind : Nat
  mode : Nat
  deriving DecidableEq, Repr

/-- X8 bits 39:34 of MOVI, ADDI, ANDI, ORI, XORI and MULI (R244). -/
structure XImm where
  ty : Ty
  sat : Bool
  cc : Bool
  deriving DecidableEq, Repr

/-! ### Operand records of the word formats -/

/-- An F word without its opcode (R187); χ is its X16. A field the instruction does not use holds `.v 0`, the typed
form of 0. -/
structure FWord (χ : Type) where
  p : Pred
  la : Nat
  d : Dst
  a : Src
  b : Src
  x : χ
  deriving DecidableEq, Repr

/-- An F word whose D field names a tile (R188). -/
structure TWord (χ : Type) where
  p : Pred
  la : Nat
  t : Nat
  a : Src
  b : Src
  x : χ
  deriving DecidableEq, Repr

/-- An I word without its opcode (R195); χ is its X8. -/
structure IWord (χ : Type) where
  p : Pred
  d : Dst
  x : χ
  imm : Nat
  deriving DecidableEq, Repr

/-- S9 of a P slot (R193). -/
inductive PSrc where
  | v (n : Nat)
  | s (n : Nat)
  | imm (i : Int)
  | reserved (n : Nat)
  deriving DecidableEq, Repr

/-- The operations of a P slot, POP6 0x00 to 0x12 in order (R206). -/
inductive POp where
  | nop | mov | iadd | isub | imul | and | or | xor | andn | shl | shr | sar | imin | imax | fadd | fsub | fmul
  | fmin | fmax
  deriving DecidableEq, Repr

/-- The operands of a P slot (R193). -/
structure PArgs where
  d7 : Nat
  s9 : PSrc
  msel : Nat
  sat : Bool
  deriving DecidableEq, Repr

/-- One slot of a P word: operation and operands. -/
structure PSlot where
  op : POp
  args : PArgs
  deriving DecidableEq, Repr

/-- COND6 of a C word (R197): `cc` codes 0 to 15, `mask sense n`, `reserved` for kind 11. -/
inductive CCond where
  | always
  | cc (code : Nat)
  | mask (sense : Bool) (n : Nat)
  | reserved (n : Nat)
  deriving DecidableEq, Repr

/-! ### What events carry: the choices and inputs that the spec leaves to agents outside the step -/

/-- A halo push that arrives: the i-th push in transit on this device, or one sent by a core of a peer (R51). Values
are (key of the halo store, value) pairs. -/
inductive PushIn where
  | transit (i : Nat)
  | peer (launch core : Nat) (src step : Nat) (final : Bool) (vals : List (Nat × Nat))
  deriving DecidableEq, Repr

/-- A packet that lands (R272, R333): of an FGET or GPOOL thread of this device, or of an FPUT of peer `dev` to `parts`
of exports, each an export index, an offset and a length, with its remote barrier named as an export and an offset.
`bad` lists the data's poisoned bytes by place (R420). `refused` are n bytes of an FGET that its target refuses (R433). -/
inductive Landing where
  | fget (thread : Nat) (off : Nat) (data : List Byte) (bad : List Nat)
  | refused (thread : Nat) (off n : Nat)
  | fput (dev tag : Nat) (parts : List (Nat × Nat × Nat)) (data : List Byte) (bad : List Nat) (bar : Option (Nat × Nat))
  deriving DecidableEq, Repr

/-- What a peer asks of this device's memory (R129, R330, R332). `atomic` carries the code of R263, the operand and
the expected value. -/
inductive PeerOp where
  | read (bytes : Nat)
  | write (data : List Byte)
  | spoil (data : List Byte)
  | atomic (code bytes operand expected : Nat)
  deriving DecidableEq, Repr

/-- A request of a peer device, through one of this device's exports. -/
structure PeerReq where
  dev : Nat
  tag : Nat
  xidx : Nat
  off : Nat
  op : PeerOp
  /-- Its write is a release of the peer's agent with f (R121, R129). -/
  rel : Bool
  deriving DecidableEq, Repr

/-- Where a parcel comes from: a transit thread of this device, or a peer's with its length in lines and the inbox it
names (R136). -/
inductive ParcelIn where
  | own (thread : Nat)
  | peer (dev id len inbox : Nat)
  deriving DecidableEq, Repr

/-- A link of the package (R436): between two compute dies, to a weight die, or to the I/O die. -/
inductive Link where
  | die (d1 d2 : Nat)
  | ucie (d : Nat)
  | io (d : Nat)
  deriving DecidableEq, Repr

/-- How the host link trained (R342). -/
inductive LinkMode where
  | pcie | cxlIo
  deriving DecidableEq, Repr

/-- What the boot ROM's checks of a bundle find (R353): its two signatures, and the hashes of their keys. -/
structure BundleCheck where
  rsa : Bool
  slh : Bool
  keys : Bool
  deriving DecidableEq, Repr

/-- Whether all three hold. -/
def BundleCheck.holds (b : BundleCheck) : Bool := b.rsa && b.slh && b.keys

/-- A host access to BAR2 (R342, R174). -/
inductive Bar2 where
  | read (off bytes : Nat)
  | write (off : Nat) (data : List Byte)
  deriving DecidableEq, Repr

/-- Every instruction and every event of the opcode table, one constructor each. Log 33: DESIGN CHOICE, safe. -/
inductive Instr where
  -- F words: moves and integer arithmetic (R212 to R222)
  | nop
  | mov (w : FWord XArith)
  | sel (w : FWord XArith)
  | iadd (w : FWord XArith)
  | isub (w : FWord XArith)
  | imul (w : FWord XArith)
  | imulh (w : FWord XArith)
  | imad (w : FWord XArith)
  | idiv (w : FWord XArith)
  | imin (w : FWord XArith)
  | imax (w : FWord XArith)
  | iabs (w : FWord XArith)
  | lea (w : FWord XArith)
  | and (w : FWord XArith)
  | or (w : FWord XArith)
  | xor (w : FWord XArith)
  | andn (w : FWord XArith)
  | shl (w : FWord XArith)
  | shr (w : FWord XArith)
  | sar (w : FWord XArith)
  | rot (w : FWord XArith)
  | popc (w : FWord XArith)
  | clz (w : FWord XArith)
  | brev (w : FWord XArith)
  | bfe (w : FWord XArith)
  | bfi (w : FWord XArith)
  | icmp (w : FWord XArith)
  -- F words: floating point (R223 to R230)
  | fadd (w : FWord XArith)
  | fsub (w : FWord XArith)
  | fmul (w : FWord XArith)
  | ffma (w : FWord XArith)
  | fmin (w : FWord XArith)
  | fmax (w : FWord XArith)
  | fcmp (w : FWord XArith)
  | frnd (w : FWord XArith)
  | frcp (w : FWord XArith)
  | frsq (w : FWord XArith)
  | fsqrt (w : FWord XArith)
  | fdiv (w : FWord XArith)
  | fexp2 (w : FWord XArith)
  | flog2 (w : FWord XArith)
  | fsin (w : FWord XArith)
  | fcos (w : FWord XArith)
  | fclass (w : FWord XArith)
  | fdot2 (w : FWord XArith)
  -- F words: conversions (R231 to R235)
  | cvt (w : FWord XCvt)
  | cvtq (w : FWord XArith)
  | cvtqd (w : FWord XArith)
  | pack (w : FWord XArith)
  | unpack (w : FWord XArith)
  -- F words: lane operations (R236 to R243)
  | shfl (w : FWord XArith)
  | shflx (w : FWord XArith)
  | bcst (w : FWord XArith)
  | vote (w : FWord XArith)
  | matchl (w : FWord XArith)
  | redl (w : FWord XArith)
  | scanl (w : FWord XArith)
  | firstl (w : FWord XArith)
  | mtos (w : FWord XArith)
  | stom (w : FWord XArith)
  -- F words: cells and system (R292 to R307)
  | step
  | stepq (w : FWord Bool)
  | sread (w : FWord Nat)
  | swrite (w : FWord Nat)
  | xread (w : FWord RReg)
  | xwrite (w : FWord RReg)
  | sprint (w : FWord Bool)
  | sprel (w : FWord Unit)
  | assertw (w : FWord Unit)
  | bkpt (w : FWord Nat)
  | yieldw (w : FWord Nat)
  | tdset (w : FWord Unit)
  | tdget (w : FWord Unit)
  -- F words: memory (R256 to R261)
  | ld (w : FWord XMem)
  | st (w : FWord XMem)
  | lds (w : FWord XMem)
  | sts (w : FWord XMem)
  | ldl (w : FWord XMem)
  | stl (w : FWord XMem)
  | ldu (w : FWord XMem)
  | stu (w : FWord XMem)
  | ldt (w : FWord XMem)
  | stt (w : FWord XMem)
  | pref (w : FWord XMem)
  | fence (w : FWord XMem)
  -- F words: atomics (R262)
  | atom (w : FWord XMem)
  | atomn (w : FWord XMem)
  | atoms (w : FWord XMem)
  | atomsn (w : FWord XMem)
  | atomu (w : FWord XMem)
  -- F words: barriers (R266 to R279)
  | bar (w : FWord XBar)
  | bara (w : FWord XBar)
  | barw (w : FWord XBar)
  | tbinit (w : FWord XTb)
  | tbarr (w : FWord XTb)
  | tbexp (w : FWord XTb)
  | tbwait (w : FWord XTb)
  | tbtest (w : FWord XTb)
  -- F words: engines and fabric (R323 to R333)
  | cpy (w : FWord XCpy)
  | cpyc (w : FWord Unit)
  | cpyt (w : FWord XCpyt)
  | stage (w : FWord Unit)
  | gpool (w : FWord XGpool)
  | scata (w : FWord Unit)
  | fld (w : FWord XMem)
  | fst (w : FWord XMem)
  | fput (w : FWord Unit)
  | fget (w : FWord Unit)
  | fatom (w : FWord XMem)
  | fatomn (w : FWord XMem)
  -- F words: parcels (R335 to R340)
  | palloc (w : FWord Unit)
  | pfree (w : FWord Unit)
  | paddr (w : FWord Unit)
  | ldp (w : FWord XMem)
  | stp (w : FWord XMem)
  | stpr (w : FWord XMem)
  | post (w : FWord XMem)
  | precv (w : FWord XMem)
  | pstat (w : FWord Unit)
  -- F words: matrix units and weight dies (R312 to R322)
  | mma (w : TWord XMma)
  | mmaq (w : TWord XMma)
  | mmas (w : TWord XMma)
  | mzero (w : TWord Unit)
  | mld (w : TWord Unit)
  | mst (w : TWord Unit)
  | mrd (w : TWord Unit)
  | wmv (w : FWord Nat)
  | wload (w : FWord Unit)
  -- I words (R204, R244 to R249, R308)
  | movi (w : IWord XImm)
  | addi (w : IWord XImm)
  | andi (w : IWord XImm)
  | ori (w : IWord XImm)
  | xori (w : IWord XImm)
  | muli (w : IWord XImm)
  | cmpi (w : IWord (Ty × Nat))
  | movhi (w : IWord Ty)
  | ldc (w : IWord (Ty × Int))
  | sigchk (imm : Nat)
  -- C words (R198, R281 to R297): register numbers, displacements in words
  | bra (c : CCond) (disp : Int)
  | call (c : CCond) (link : Nat) (disp : Int)
  | ret (c : CCond) (r : Nat)
  | jmps (c : CCond) (r : Nat)
  | loop (r : Nat) (disp : Int)
  | split (sense : Bool) (n : Nat) (els join : Int)
  | jtab (x len : Nat) (disp : Int)
  | exit (c : CCond)
  | trap (c : CCond) (code : Nat)
  | rft
  | contain (id : Nat) (disp : Int)
  | uncontain
  -- P words (R193, R194, R250): the constructor names slot 0's operation, `a` its operands and `t` slot 1
  | pairNop (a : PArgs) (t : PSlot)
  | pairMov (a : PArgs) (t : PSlot)
  | pairIadd (a : PArgs) (t : PSlot)
  | pairIsub (a : PArgs) (t : PSlot)
  | pairImul (a : PArgs) (t : PSlot)
  | pairAnd (a : PArgs) (t : PSlot)
  | pairOr (a : PArgs) (t : PSlot)
  | pairXor (a : PArgs) (t : PSlot)
  | pairAndn (a : PArgs) (t : PSlot)
  | pairShl (a : PArgs) (t : PSlot)
  | pairShr (a : PArgs) (t : PSlot)
  | pairSar (a : PArgs) (t : PSlot)
  | pairImin (a : PArgs) (t : PSlot)
  | pairImax (a : PArgs) (t : PSlot)
  | pairFadd (a : PArgs) (t : PSlot)
  | pairFsub (a : PArgs) (t : PSlot)
  | pairFmul (a : PArgs) (t : PSlot)
  | pairFmin (a : PArgs) (t : PSlot)
  | pairFmax (a : PArgs) (t : PSlot)
  -- Events of barriers, traps, timers and cells
  | barrierReleaseDelivery (launch core id island : Nat)
  | trapDelivery (launch core : Nat)
  | runTimer (g : Nat)
  | stepWatchdog (g : Nat)
  | mmaqRendezvousTimeout (g sp : Nat)
  | stepEnter (g : Nat)
  | haloPushArrival (p : PushIn)
  | cellSetSwap (launch core : Nat)
  -- Events of the memory system, containment, matrix units and engines
  | longLatencyResultLand (g sp i : Nat)
  | translationWalkComplete (core page : Nat)
  | storePerformedAtHome (i : Nat)
  | containmentUnwind (g : Nat)
  | matrixGrant (island : Nat)
  | matrixOpEnd (core unit : Nat)
  | engineCompletion (thread : Nat)
  | engineLineLanded (thread line : Nat)
  -- Events of the fabric and of parcels
  | sectorLanding (p : Landing)
  | fabricRequestAtTarget (r : PeerReq)
  | fabricResponse (id : Nat) (data : List Byte) (bad : Bool)
  | fabricTimeout (id : Nat)
  | fabricRefusal (id : Nat)
  | escapeDiversion (id : Nat)
  | parcelTransitStart (thread : Nat)
  | parcelFirstPacket (p : ParcelIn)
  | parcelLanded (p : ParcelIn) (data : List Byte) (tags bad : List Nat)
  | parcelAck (thread : Nat)
  | parcelReturn (thread cause : Nat)
  -- Events of the scheduler
  | admission (queue : Nat) (cores : List Nat)
  | teamStart (launch : Nat)
  | launchCompletion (launch : Nat)
  | preemption (launch core : Nat)
  | lowestTeamSwapBack (launch core : Nat)
  | pageMigration (page pa : Nat)
  -- Events of power, failures and maintenance
  | meltUpdate (melt : Nat)
  | leaseExpiry (island : Nat)
  | fllStep (island : Nat)
  | thermalGateBegin
  | thermalGateEnd
  | linkFailure (l : Link)
  | dieFence (die : Nat)
  | cxlPortFailure (port : Nat)
  | dynamicCapacityRelease (base bytes : Nat)
  | duplicateDeviceNumber (planes : Nat)
  | patrolScrub (addr : Nat) (bad : Bool) (cost : Nat)
  | matrixSelfTest (core unit sub : Nat) (fail : Bool) (cost : Nat)
  | deviceReset (verified : BundleCheck) (version : Nat)
  | readyBitRise (reg bit : Nat)
  | hostLinkTraining (mode : LinkMode)
  | powerLossWarning
  -- Writes and commands of the host
  | qtailWrite (queue val : Nat)
  | qbaseWrite (queue val : Nat)
  | qctlWrite (queue val : Nat)
  | tbaseWrite (val : Nat)
  | arenaCommand (tcmd : Nat)
  | exportCommand (tcmd : Nat)
  | importCommand (tcmd : Nat)
  | fabidWrite (val : Nat)
  | ftlimitWrite (val : Nat)
  | islctlWrite (island val : Nat)
  | checkpointTake
  | checkpointRestore
  | attestationRequest
  | attestationComplete (report rsa slh : List Byte)
  -- Commands of the debug monitor, read from a core's mailbox
  | halt (core : Nat)
  | resume (core : Nat)
  | rdreg (core : Nat)
  | wrreg (core : Nat)
  | rdmem (core : Nat)
  | wrmem (core : Nat)
  | oneword (core : Nat)
  | endLaunch (core : Nat)
  -- Other accesses of the host, and the island's clock
  | hostBar2Access (a : Bar2)
  | registerWrite (off bytes val : Nat)
  | islandCoreCycle (island : Nat) (wallTick : Bool)
  | hostWriteCompletedAtMemory (i : Nat)
  deriving DecidableEq, Repr

end Sys2Proof
end

