-- ==== Sys2Proof/WellFormed.lean ====
section
/-!
DEFINITION. Which values of its fields an instruction accepts. `Instr.bad` collects, in `.one`, what raises cause 0x01 and, in `.two`,
what raises cause 0x02 when the word is looked at alone (R207, R406); an instruction is well formed when
neither holds and every field fits its width. What depends on the group (a neighbour outside a field launch, k ≥ E,
STEP outside a field launch) is checked at issue.
-/

namespace Sys2Proof

/-! ### Codes of the enumerated fields -/

/-- TY code of a type (R191). -/
def Ty.code : Ty → Nat
  | .i32 => 0 | .n32 => 1 | .i64 => 2 | .n64 => 3 | .f32 => 4 | .f64 => 5 | .f16x2 => 6 | .bf16x2 => 7
  | .i16x2 => 8 | .n16x2 => 9 | .i8x4 => 10 | .n8x4 => 11 | .e4m3x4 => 12 | .e5m2x4 => 13
  | .reserved14 => 14 | .reserved15 => 15

/-- Whether the type is 64 bits wide (R61): i64, n64, f64. -/
def Ty.is64 : Ty → Bool
  | .i64 | .n64 | .f64 => true
  | _ => false

/-- Whether the elements are floating point. -/
def Ty.isFloat : Ty → Bool
  | .f32 | .f64 | .f16x2 | .bf16x2 | .e4m3x4 | .e5m2x4 => true
  | _ => false

/-- Whether the type packs several elements in a register (R87). -/
def Ty.isPacked : Ty → Bool
  | .f16x2 | .bf16x2 | .i16x2 | .n16x2 | .i8x4 | .n8x4 | .e4m3x4 | .e5m2x4 => true
  | _ => false

/-- W code (R192). -/
def Width.code : Width → Nat
  | .n8 => 0 | .i8 => 1 | .n16 => 2 | .i16 => 3 | .w32 => 4 | .w64 => 5 | .w128 => 6 | .reserved => 7

/-- ORD code (R115). -/
def Order.code : Order → Nat
  | .plain => 0 | .strong => 1 | .acq => 2 | .rel => 3 | .ar => 4 | .reserved5 => 5 | .reserved6 => 6
  | .reserved7 => 7

/-- HINT code (R192). -/
def Hint.code : Hint → Nat
  | .normal => 0 | .stream => 1 | .keep => 2 | .bypass => 3 | .reserved4 => 4 | .reserved5 => 5 | .reserved6 => 6
  | .reserved7 => 7

/-- The empty observer mask. -/
def Obs.none : Obs := ⟨false, false, false, false, false, false, false⟩

/-- Registers a value of this width takes, each 32 bits (R252). -/
def Width.regs : Width → Nat
  | .w64 => 2 | .w128 => 4 | _ => 1

/-! ### Operand classes -/

/-- Classes a source field may accept (R188). -/
inductive SrcClass where
  | v | s | i | n
  deriving DecidableEq, Repr

/-- Classes a destination field may accept; `null` is a class-11 D of value 0 (R188). -/
inductive DstClass where
  | v | s | m | null
  deriving DecidableEq, Repr

/-- Cause 0x01 of a source field: a class it does not accept, a value that names no register or direction, or a
register that is not a multiple of `al`. An unused field (no class) never raises it. -/
def Src.bad1 (acc : List SrcClass) (al : Nat) : Src → Bool
  | .v n => !acc.isEmpty && (!acc.contains .v || n % al != 0)
  | .s n => !acc.isEmpty && (!acc.contains .s || decide (192 ≤ n) || n % al != 0)
  | .nb dir k => !acc.isEmpty && (!acc.contains .n || decide (6 ≤ dir) || k % al != 0)
  | .imm _ => !acc.isEmpty && !acc.contains .i

/-- Cause 0x02 of a source field: bit 7 of a vector, bit 4 of a neighbour, or an unused field that is not 0. -/
def Src.bad2 (acc : List SrcClass) : Src → Bool
  | .v n => if acc.isEmpty then n != 0 else decide (128 ≤ n)
  | .s _ => acc.isEmpty
  | .nb _ k => acc.isEmpty || decide (16 ≤ k)
  | .imm _ => acc.isEmpty

/-- Cause 0x01 of a destination field. -/
def Dst.bad1 (acc : List DstClass) (al : Nat) : Dst → Bool
  | .v n => !acc.isEmpty && (!acc.contains .v || n % al != 0)
  | .s n => !acc.isEmpty && (!acc.contains .s || decide (192 ≤ n) || n % al != 0)
  | .nb _ => !acc.isEmpty
  | .m n => !acc.isEmpty && (if n = 0 then !acc.contains .null else (!acc.contains .m || decide (8 ≤ n)))

/-- Cause 0x02 of a destination field. -/
def Dst.bad2 (acc : List DstClass) : Dst → Bool
  | .v n => if acc.isEmpty then n != 0 else decide (128 ≤ n)
  | .s _ | .nb _ | .m _ => acc.isEmpty

/-- Whether a source makes its word a vector word (R189). -/
def Src.isVec : Src → Bool
  | .v _ | .nb _ _ => true
  | _ => false

def Src.isNb : Src → Bool
  | .nb _ _ => true
  | _ => false

def Src.isImm : Src → Bool
  | .imm _ => true
  | _ => false

def Dst.isVec : Dst → Bool
  | .v _ => true
  | _ => false

def Dst.isScalar : Dst → Bool
  | .s _ => true
  | _ => false

def Dst.isNull : Dst → Bool
  | .m 0 => true
  | _ => false

def Dst.isMask : Dst → Bool
  | .m (_ + 1) => true
  | _ => false

/-- MSEL = 0 with MINV = 1 is reserved (R63). -/
def Pred.bad2 (p : Pred) : Bool := p.msel == 0 && p.minv

/-- Field widths of MSEL. -/
def Pred.fits (p : Pred) : Bool := decide (p.msel < 8)

/-- Whether a field value fits its ten bits. -/
def Src.fits : Src → Bool
  | .v n | .s n => decide (n < 256)
  | .nb dir k => decide (dir < 8) && decide (k < 32)
  | .imm i => decide (-128 ≤ i) && decide (i < 128)

def Dst.fits : Dst → Bool
  | .v n | .s n | .nb n | .m n => decide (n < 256)

/-! ### Whole-word checks -/

/-- A pair of checks: `one` for cause 0x01, `two` for cause 0x02. -/
structure Bad where
  one : Bool
  two : Bool
  deriving DecidableEq, Repr

def Bad.ok : Bad := ⟨false, false⟩

def Bad.or (x y : Bad) : Bad := ⟨x.one || y.one, x.two || y.two⟩

/-- Operands of an F word against their classes and alignments, MSEL/MINV, and LA (R202). -/
def FWord.ops {χ : Type} (w : FWord χ) (d : List DstClass) (da : Nat) (a : List SrcClass) (aa : Nat)
    (b : List SrcClass) (ba : Nat) (long : Bool) : Bad :=
  ⟨w.d.bad1 d da || w.a.bad1 a aa || w.b.bad1 b ba,
   w.d.bad2 d || w.a.bad2 a || w.b.bad2 b || w.p.bad2 || (!long && w.la != 0)⟩

/-- How an arithmetic instruction uses its fields (chapter 10's entries). -/
structure AForm where
  d : List DstClass
  a : List SrcClass
  b : List SrcClass
  tys : List Nat
  /-- RM is read (else it must be 00). -/
  rm : Bool := false
  sat : Bool := false
  /-- CC is accepted on scalar words of an unpacked type (R208). -/
  cc : Bool := true
  /-- CC is accepted on its vector form with a D that is not a vector (BCST, FIRSTL, REDL, VOTE). -/
  ccVec : Bool := false
  naA : Bool := false
  naB : Bool := false
  /-- Accepted OPX values, by type. -/
  opx : Ty → Nat → Bool := fun _ n => n == 0
  /-- D, A or B is one 32-bit register even under a 64-bit type (R208). -/
  d32 : Bool := false
  a32 : Bool := false
  b32 : Bool := false
  /-- A scalar D may take a vector source (R189). -/
  vToS : Bool := false
  long : Bool := false

/-- Whether a float immediate is exact in the 8-bit formats (R208): four or three significant bits. -/
def immExact (ty : Ty) (i : Int) : Bool :=
  let n := i.natAbs
  let sig (k : Nat) : Bool := (List.range 8).any fun e => n % 2 ^ e == 0 && decide (n / 2 ^ e < 2 ^ k)
  match ty with
  | .e4m3x4 => sig 4
  | .e5m2x4 => sig 3
  | _ => true

/-- An immediate source against `immExact`. -/
def Src.immBad (ty : Ty) : Src → Bool
  | .imm i => !immExact ty i
  | _ => false

/-- Whether a used source is a vector (R189); a field the instruction does not use is none. -/
def AForm.srcVec (f : AForm) (w : FWord XArith) : Bool :=
  (!f.a.isEmpty && w.a.isVec) || (!f.b.isEmpty && w.b.isVec)

/-- The checks every arithmetic word shares (R189, R190, R191, R207, R208). A word with a mask D is a vector word,
whatever its sources are, so that CC is refused on it. Log 27: DEDUCED, unsafe. -/
def AForm.check (f : AForm) (w : FWord XArith) : Bad :=
  let al := if w.x.ty.is64 then 2 else 1
  let vec := f.srcVec w || w.d.isVec || w.d.isMask
  let ops := w.ops f.d (if f.d32 then 1 else al) f.a (if f.a32 then 1 else al) f.b (if f.b32 then 1 else al) f.long
  let ccOk := !w.x.ty.isPacked && (if vec then f.ccVec && !w.d.isVec else f.cc)
  ops.or
    ⟨!f.vToS && w.d.isScalar && f.srcVec w,
     !f.tys.contains w.x.ty.code
     || (w.x.rm != .rne && !(f.rm && w.x.ty.isFloat))
     || (w.x.sat && !f.sat)
     || (w.x.cc && !ccOk)
     || ((w.x.negA || w.x.absA) && !(f.naA && w.x.ty.isFloat))
     || ((w.x.negB || w.x.absB) && !(f.naB && w.x.ty.isFloat))
     || !f.opx w.x.ty w.x.opx⟩

/-- The type lists of chapter 10. -/
def tyInt : List Nat := [0, 1, 2, 3, 8, 9, 10, 11]
def tyInt4 : List Nat := [0, 1, 2, 3]
def tyFloat4 : List Nat := [4, 5, 6, 7]
def tyAll : List Nat := [0, 1, 2, 3, 4, 5, 6, 7, 8, 9, 10, 11, 12, 13]
def tySix : List Nat := [0, 1, 2, 3, 4, 5]

/-- Two sources, integer types (R215, R219, R220). -/
def formInt : AForm := { d := [.v, .s], a := [.v, .s, .i, .n], b := [.v, .s, .i, .n], tys := tyInt }
/-- One source, integer types (R221). -/
def formInt1 : AForm := { d := [.v, .s], a := [.v, .s, .i, .n], b := [], tys := tyInt }
/-- Two sources, float types, rounded (R225). -/
def formFloat : AForm :=
  { d := [.v, .s], a := [.v, .s, .i, .n], b := [.v, .s, .i, .n], tys := tyFloat4, rm := true, sat := true,
    naA := true, naB := true }
/-- The function words (R229). -/
def formFunc (tys : List Nat) : AForm :=
  { d := [.v, .s], a := [.v, .s, .i, .n], b := [], tys := tys, sat := true, naA := true, long := true }

/-- A reserved reduction code, by type (R241). -/
def redOk (ty : Ty) (n : Nat) : Bool := decide (n < 3) || (decide (n < 6) && !ty.isFloat)

/-- How a memory word uses its fields (R192, R251 to R254, R330, R338). -/
structure MForm where
  d : List DstClass
  a : List SrcClass
  aa : Nat
  b : List SrcClass
  ords : List Nat
  hint : Bool := false
  widths : List Nat := [0, 1, 2, 3, 4, 5, 6]
  /-- A load: a scalar D takes no vector address. -/
  load : Bool := false
  long : Bool := false

/-- The checks of a memory word's X16 (R115, R192, R254). -/
def XMem.bad2 (x : XMem) (ords widths : List Nat) (hint : Bool) : Bool :=
  !widths.contains x.w.code || !ords.contains x.ord.code
  || (x.ord == .plain && x.obs != .none)
  || (if hint then decide (4 ≤ x.hint.code) else x.hint != .normal)

def MForm.check (f : MForm) (w : FWord XMem) : Bad :=
  (w.ops f.d w.x.w.regs f.a f.aa f.b 1 f.long).or
    ⟨f.load && w.d.isScalar && (w.a.isVec || w.b.isVec), w.x.bad2 f.ords f.widths f.hint⟩

/-- Loads and stores of one address space. -/
def formLoad (aa : Nat) (ords : List Nat) (hint : Bool) : MForm :=
  { d := [.v, .s, .null], a := [.v, .s], aa := aa, b := [.v, .s, .i], ords := ords, hint := hint, load := true,
    long := true }
def formStore (aa : Nat) (ords : List Nat) (hint : Bool) : MForm :=
  { d := [.v, .s], a := [.v, .s], aa := aa, b := [.v, .s, .i], ords := ords, hint := hint }

/-- The code an atomic's B holds, if it is an immediate in range (R263). -/
def atomCode (b : Src) : Option Nat :=
  match b with
  | .imm i => if 0 ≤ i ∧ i ≤ 16 then some i.toNat else none
  | _ => none

/-- The atomics (R262, R263). `ret`: it returns the old value. -/
def atomCheck (w : FWord XMem) (aAcc : List SrcClass) (aa : Nat) (ret hint : Bool) (ords : List Nat)
    (long : Bool) : Bad :=
  let al := if atomCode w.b = some 9 then 2 * w.x.w.regs else w.x.w.regs
  (w.ops [.v, .s] al aAcc aa [.i] 1 long).or
    ⟨ret && w.d.isScalar && w.a.isVec,
     w.x.bad2 ords [4, 5] hint || (w.b.isImm && atomCode w.b = none)
     || ((atomCode w.b = some 15 || atomCode w.b = some 16) && w.x.w == .w64)⟩

/-- The named-barrier words (R254, R266). -/
def barCheck (w : FWord XBar) (d : List DstClass) (ords : List Nat) : Bad :=
  (w.ops d 1 [.s, .i] 1 [.s, .i] 1 false).or
    ⟨false, !ords.contains w.x.ord.code || (w.x.ord == .plain && w.x.obs != .none)⟩

/-- The transaction-barrier words (R254, R273). -/
def tbCheck (w : FWord XTb) (d : List DstClass) (ords : List Nat) : Bad :=
  (w.ops d 1 [.s] 1 [.s, .i] 1 false).or
    ⟨false, !ords.contains w.x.ord.code || (w.x.ord == .plain && w.x.obs != .none)⟩

/-- A command block of n registers at A, a multiple of al (R310). -/
def blockBad (a : Src) (n : Nat) : Bool :=
  match a with
  | .s k => decide (191 < k + n - 1)
  | _ => false

/-- An engine word with a local barrier and a command block. -/
def engCheck {χ : Type} (w : FWord χ) (d : List DstClass) (al n : Nat) (b : List SrcClass) (two : Bool) : Bad :=
  (w.ops d 1 [.s] al b 1 false).or ⟨blockBad w.a n, two⟩

/-- A vector fragment of n registers that runs past v127 (R314); bit 7 of the operand is refused by itself (R207). -/
def fragBad (a : Src) (n : Nat) : Bool :=
  match a with
  | .v k => decide (127 < k % 128 + n - 1)
  | _ => false

/-- Accepted pairs of AFMT and BFMT (R313). -/
def mmaPair (a b : Nat) : Bool :=
  (a == 0 && b == 0) || (a == 1 && b == 1) || ((a == 2 || a == 3) && (b == 2 || b == 3))
  || ((a == 4 || a == 5) && (b == 4 || b == 5)) || (a == 6 && b == 6)

/-- The tile field, operands and MSEL/MINV of a matrix word (R188, R312). -/
def TWord.ops {χ : Type} (w : TWord χ) (a : List SrcClass) (aa : Nat) (b : List SrcClass) (ba : Nat)
    (long : Bool) : Bad :=
  ⟨decide (8 ≤ w.t % 16) || w.a.bad1 a aa || w.b.bad1 b ba,
   decide (16 ≤ w.t) || w.a.bad2 a || w.b.bad2 b || w.p.msel != 0 || w.p.minv || (!long && w.la != 0)⟩

/-- MMA, MMAQ and MMAS (R313 to R317): the fragments of A and of B, n registers of B. -/
def mmaCheck (w : TWord XMma) (b : List SrcClass) (ba : Nat) (tag : Bool) (nB : Nat) : Bad :=
  let q := if w.x.afmt = 6 then 1 else 0
  (w.ops [.v] 1 b ba false).or
    ⟨fragBad w.a (16 + q) || fragBad w.b (nB + q) || blockBad w.b 4,
     !mmaPair w.x.afmt w.x.bfmt || (!tag && w.x.tag != 0)⟩

/-- Selectors of R72 and how each is read. -/
def sregOk (n : Nat) : Bool :=
  [0x00, 0x01, 0x02, 0x03, 0x04, 0x05, 0x10, 0x11, 0x12, 0x13, 0x14, 0x20, 0x21, 0x22, 0x23, 0x30, 0x31, 0x32, 0x33,
   0x40, 0x41, 0x42, 0x50, 0x51, 0x52].contains n
def sregLane (n : Nat) : Bool := [0x00, 0x10, 0x11, 0x12, 0x13].contains n
def sreg64 (n : Nat) : Bool := [0x30, 0x31, 0x32, 0x33, 0x51].contains n
def sregLong (n : Nat) : Bool := [0x30, 0x31, 0x32].contains n

/-- The remote register of XREAD and XWRITE (R295). -/
def RReg.bad1 : RReg → Bool
  | .v _ => false
  | .s n => decide (192 ≤ n)
  | .m n => decide (8 ≤ n)
  | .reserved _ => true

def RReg.bad2 : RReg → Bool
  | .v n => decide (128 ≤ n)
  | _ => false

def RReg.isVec : RReg → Bool
  | .v _ => true
  | _ => false

def RReg.fits : RReg → Bool
  | .v n | .s n | .m n | .reserved n => decide (n < 256)

/-- A P slot on its own (R193, R206, R250): a reserved S9, SAT where the slot has none, a NOP slot not all 0. -/
def PSrc.isVec : PSrc → Bool
  | .v _ => true
  | _ => false

def PSrc.bad1 : PSrc → Bool
  | .reserved _ => true
  | _ => false

def PSrc.fits : PSrc → Bool
  | .v n => decide (n < 128)
  | .s n => decide (n < 192)
  | .imm i => decide (-16 ≤ i) && decide (i < 16)
  | .reserved n => decide (352 ≤ n) && decide (n < 512)

def POp.sat : POp → Bool
  | .iadd | .isub | .imul | .shl | .fadd | .fsub | .fmul => true
  | _ => false

def PSlot.check (t : PSlot) : Bad :=
  ⟨t.args.s9.bad1,
   (t.args.sat && !t.op.sat)
   || (t.op == .nop && (t.args.d7 != 0 || t.args.s9 != .v 0 || t.args.msel != 0 || t.args.sat))⟩

def PSlot.fits (t : PSlot) : Bool := decide (t.args.d7 < 128) && t.args.s9.fits && decide (t.args.msel < 8)

/-- The bank of S9 when it is a vector register (R194). -/
def PSrc.bank : PSrc → Option Nat
  | .v n => some (n % 4)
  | _ => none

/-- R194: with no NOP slot, D7s differ in bank, and so do two vector S9s. -/
def pairBanksBad (x y : PSlot) : Bool :=
  x.op != .nop && y.op != .nop
  && (x.args.d7 % 4 == y.args.d7 % 4
      || (x.args.s9.isVec && y.args.s9.isVec && x.args.s9.bank == y.args.s9.bank))

def pairCheck (x y : PSlot) : Bad := (x.check.or y.check).or ⟨pairBanksBad x y, false⟩

/-- COND6 (R197): kind 11, or a code 14 or 15. -/
def CCond.bad2 : CCond → Bool
  | .always => false
  | .cc n => decide (14 ≤ n)
  | .mask _ _ => false
  | .reserved _ => true

def CCond.fits : CCond → Bool
  | .always => true
  | .cc n => decide (n < 16)
  | .mask _ n => decide (n < 8)
  | .reserved n => decide (n < 16)

/-- A scalar register field of a C word: 192 to 255 reserved, even where al = 2 (R198). -/
def cregBad (n al : Nat) : Bool := decide (192 ≤ n) || n % al != 0

/-- An I word's D and MSEL/MINV (R195, R244): al is 2 under a 64-bit type. -/
def IWord.ops {χ : Type} (w : IWord χ) (d : List DstClass) (al : Nat) : Bad :=
  ⟨w.d.bad1 d al, w.d.bad2 d || w.p.bad2⟩

/-- MOVI, ADDI, MULI, ANDI, ORI, XORI (R244 to R246). -/
def immCheck (w : IWord XImm) (tys : List Nat) (sat : Bool) : Bad :=
  (w.ops [.v, .s] (if w.x.ty.is64 then 2 else 1)).or
    ⟨false, !tys.contains w.x.ty.code || (w.x.sat && !sat) || (w.x.cc && (w.d.isVec || w.x.ty.isPacked))⟩

/-- CVT's groups of types (R231). -/
def cvtGroup (t : Ty) : Nat :=
  if t.code < 6 then 0 else if t.code < 10 then 1 else if t.code < 14 then 2 else 3

/-- Log 5: DEDUCED, unsafe. -/
def cvtCheck (w : FWord XCvt) : Bad :=
  let al (t : Ty) := if t.is64 then 2 else 1
  let vec := w.a.isVec || w.d.isVec
  (w.ops [.v, .s] (al w.x.ty) [.v, .s, .i, .n] (al w.x.sty) [] 1 false).or
    ⟨w.d.isScalar && w.a.isVec,
     cvtGroup w.x.ty != cvtGroup w.x.sty || cvtGroup w.x.ty == 3
     || (w.x.rm != .rne && !w.x.ty.isFloat && !w.x.sty.isFloat)
     || (w.x.cc && (vec || w.x.ty.isPacked)) || w.x.opx != 0 || w.a.immBad w.x.sty⟩

/-- Both checks of one instruction, by its entry in chapters 10 to 13. Events carry no word and raise nothing.
A negative immediate B of LDT and STT raises cause 0x02, and LDT, STT, FLD, FST and PRECV accept the hints of R192
(log 17). CC of MOVHI follows R244 (log 27).
Log 15: DEDUCED, unsafe. Log 17: DEDUCED, unsafe. Log 27: DEDUCED, unsafe. -/
def Instr.bad : Instr → Bad
  | .nop | .step | .rft | .uncontain => .ok
  -- 10: moves, integers, bits
  | .mov w => ({ d := [.v, .s], a := [.v, .s, .i, .n], b := [], tys := tyAll, naA := true } : AForm).check w
              |>.or ⟨false, w.a.immBad w.x.ty⟩
  | .sel w => ({ d := [.v, .s], a := [.v, .s, .i, .n], b := [.v, .s, .i, .n], tys := tyAll, opx := fun _ _ => true } :
                AForm).check w |>.or ⟨false, w.a.immBad w.x.ty || w.b.immBad w.x.ty⟩
  | .iadd w | .isub w | .imul w | .imad w => { formInt with sat := true }.check w
  | .imulh w | .imin w | .imax w | .and w | .or w | .xor w | .andn w | .shr w | .sar w | .rot w => formInt.check w
  | .shl w => { formInt with sat := true }.check w
  | .idiv w => { formInt with tys := tyInt4, sat := true, opx := fun _ n => decide (n < 2), long := true }.check w
  | .iabs w => { formInt1 with tys := [0, 2, 8, 10], sat := true }.check w
  | .lea w => { formInt with a := [.v, .s, .n], tys := tyInt4, cc := false, opx := fun _ _ => true, b32 := true }.check w
  | .popc w | .clz w => { formInt1 with d32 := true }.check w
  | .brev w => formInt1.check w
  | .bfe w | .bfi w => { formInt with tys := tyInt4, b32 := true }.check w
  | .icmp w => { formInt with d := [.v, .s, .m, .null], opx := fun _ n => decide (n < 6), d32 := true }.check w
               |>.or ⟨false, w.x.ty.isPacked && w.d.isMask⟩
  -- 10: floating point
  | .fadd w | .fsub w | .fmul w | .ffma w => formFloat.check w
  | .fmin w | .fmax w => { formFloat with rm := false, sat := false }.check w
  | .fcmp w => { formFloat with d := [.v, .s, .m, .null], rm := false, sat := false,
                                opx := fun _ n => decide (n < 8), d32 := true }.check w
               |>.or ⟨false, w.x.ty.isPacked && w.d.isMask⟩
  | .frnd w => { formFloat with b := [], sat := false, naB := false }.check w
  | .frcp w | .frsq w => (formFunc [4, 5]).check w
  | .fsqrt w => { formFunc [4, 5] with rm := true }.check w
  | .fdiv w => { formFloat with tys := [4, 5], long := true }.check w
  | .fexp2 w | .flog2 w | .fsin w | .fcos w => (formFunc [4]).check w
  | .fclass w => { formFloat with b := [], rm := false, sat := false, naB := false, d32 := true }.check w
  | .fdot2 w => { formFloat with a := [.v, .s, .n], b := [.v, .s, .n], tys := [6, 7] }.check w
  -- 10: conversions
  | .cvt w => cvtCheck w
  | .cvtq w => ({ d := [.v], a := [.v], b := [], tys := [4],
                  opx := fun _ n => decide (n < 4) || n == 4 || n == 8 } : AForm).check w
  | .cvtqd w => ({ d := [.v], a := [.v], b := [], tys := [4], opx := fun _ n => n == 0 || n == 4 || n == 8 } :
                  AForm).check w
  | .pack w => { formInt with tys := [6, 7, 8, 9, 10, 11, 12, 13], rm := true, sat := true,
                              opx := fun t n => n == 0 || (n == 1 && decide (10 ≤ t.code)) }.check w
  | .unpack w => { formInt1 with a := [.v, .s, .n], tys := [6, 7, 8, 9, 10, 11, 12, 13],
                                 opx := fun t n => decide (n < 2) || (decide (n < 4) && decide (10 ≤ t.code)) }.check w
  -- 10: lane operations
  | .shfl w => ({ d := [.v], a := [.v], b := [.v, .s, .i], tys := tyAll, b32 := true,
                  opx := fun _ n => decide (n < 4) || n == 5 } : AForm).check w
  | .shflx w => ({ d := [.v], a := [.v], b := [.v], tys := [0, 1, 4, 6, 7, 8, 9, 10, 11, 12, 13] } : AForm).check w
  | .bcst w => ({ d := [.v, .s], a := [.v], b := [.s, .i], tys := tyAll, b32 := true, ccVec := true, vToS := true } :
                 AForm).check w
  | .firstl w => ({ d := [.v, .s], a := [.v], b := [], tys := tyAll, ccVec := true, vToS := true } : AForm).check w
  | .vote w => ({ d := [.v, .s, .m, .null], a := [.v], b := [], tys := tySix, ccVec := true, vToS := true, d32 := true,
                  opx := fun _ n => decide (n < 12) } : AForm).check w
               |>.or ⟨false, w.d.isMask && w.x.opx % 4 == 3⟩
  | .matchl w => ({ d := [.v], a := [.v], b := [], tys := tySix, d32 := true, opx := fun _ n => decide (n < 3) } :
                   AForm).check w
  | .redl w => ({ d := [.v, .s], a := [.v], b := [], tys := tySix, ccVec := true, vToS := true, opx := redOk } :
                 AForm).check w
  | .scanl w => ({ d := [.v], a := [.v], b := [], tys := tySix, opx := fun t n => redOk t (n % 8) } : AForm).check w
  | .mtos w => ({ d := [.v, .s], a := [], b := [], tys := [1], opx := fun _ n => decide (n < 8) } : AForm).check w
  | .stom w => ({ d := [.m], a := [.v, .s, .i], b := [], tys := [0, 1], cc := false } : AForm).check w
  -- 12: cells and system
  | .stepq w => w.ops [.s, .null] 1 [] 1 [] 1 false
  | .sread w => (w.ops [.v, .s] (if sreg64 w.x then 2 else 1) [] 1 [] 1 (sregLong w.x)).or
                  ⟨w.d.isScalar && sregLane w.x, !sregOk w.x⟩
  | .swrite w => (w.ops [] 1 [.s, .i] (if w.x = 0x33 then 2 else 1) [] 1 false).or
                  ⟨false, !(w.x == 0x33 || w.x == 0x40 || w.x == 0x41)⟩
  | .xread w => (w.ops [.v, .s] 1 [] 1 (if w.x.isVec && w.d.isScalar then [.s, .i] else []) 1 true).or
                  ⟨w.x.bad1, w.x.bad2⟩
  | .xwrite w => (w.ops [] 1 [.v, .s, .i] 1 (if w.x.isVec && !w.a.isVec then [.s, .i] else []) 1 false).or
                  ⟨w.x.bad1 || w.x == .m 0, w.x.bad2⟩
  | .sprint w => w.ops [.s, .null] 1 [.s] 1 [.s] 2 false
  | .sprel w => w.ops [.s, .null] 1 [] 1 [] 1 false
  | .assertw w => w.ops [] 1 [.v, .s] 1 [.s] 2 false
  | .bkpt w => w.ops [] 1 [] 1 [] 1 false
  | .yieldw w => w.ops [] 1 [] 1 [] 1 false
  | .tdset w => w.ops [] 1 [.s] 8 [.s, .i] 1 false
  | .tdget w => w.ops [.s] 8 [] 1 [.s, .i] 1 true
  -- 11: memory
  | .ld w => (formLoad 2 [0, 1, 2] true).check w
  | .st w => (formStore 2 [0, 1, 3] true).check w
  | .lds w => (formLoad 1 [0, 1, 2] false).check w
  | .sts w => (formStore 1 [0, 1, 3] false).check w
  | .ldl w => (formLoad 1 [0] false).check w
  | .stl w => (formStore 1 [0] false).check w
  | .ldu w => { formLoad 2 [0, 1, 2] true with a := [.s], b := [.s, .i], load := false }.check w
  | .stu w => { formStore 2 [0, 1, 3] true with a := [.s], b := [.s, .i] }.check w
  | .ldt w => { formLoad 1 [0, 1, 2] true with b := [.s, .i] }.check w
              |>.or ⟨false, match w.b with | .imm i => decide (i < 0) | _ => false⟩
  | .stt w => { formStore 1 [0, 1, 3] true with b := [.s, .i] }.check w
              |>.or ⟨false, match w.b with | .imm i => decide (i < 0) | _ => false⟩
  | .pref w => (w.ops [] 1 [.v, .s] 2 [.v, .s, .i] 1 false).or
                 ⟨false, w.x.bad2 [0] [0, 1, 2, 3, 4, 5, 6] true⟩
  | .fence w => (w.ops [] 1 [] 1 [] 1 false).or ⟨false, w.x.bad2 [2, 3, 4] [0] false⟩
  | .atom w => atomCheck w [.v, .s] 2 true true [1, 2, 3, 4] true
  | .atomn w => atomCheck w [.v, .s] 2 false true [1, 3] false
  | .atoms w => atomCheck w [.v, .s] 1 true false [1, 2, 3, 4] true
  | .atomsn w => atomCheck w [.v, .s] 1 false false [1, 3] false
  | .atomu w => atomCheck w [.s] 2 true true [1, 2, 3, 4] true
  -- 11: barriers
  | .bar w => barCheck w [] [0, 4]
  | .bara w => barCheck w [.s, .null] [0, 3]
  | .barw w => barCheck w [] [0, 2]
  | .tbinit w => tbCheck w [] [0]
  | .tbarr w => tbCheck w [.s, .null] [0, 3]
  | .tbexp w => tbCheck w [] [0]
  | .tbwait w => tbCheck w [] [0, 2]
  | .tbtest w => tbCheck w [.s, .null] [0, 2]
  -- 13: engines and fabric
  | .cpy w => engCheck w [.s] 4 4 [.s] (w.x.dir ≥ 4 || decide (4 ≤ w.x.hint))
  | .cpyc w => engCheck w [.s] 8 8 [] false
  | .cpyt w => engCheck w [.s] 4 4 [] false
  | .stage w => w.ops [.s, .null] 1 [] 1 [] 1 false
  | .gpool w => engCheck w [.s] 8 8 [] (decide (5 ≤ w.x.mode) || !(decide (6 ≤ w.x.ofmt) && decide (w.x.ofmt ≤ 11)))
  | .scata w => engCheck w [.s] 2 6 [] false
  | .fld w => { formLoad 2 [0, 1, 2] true with widths := [0, 1, 2, 3, 4, 5] }.check w
  | .fst w => { formStore 2 [0, 1, 3] true with widths := [0, 1, 2, 3, 4, 5] }.check w
  | .fput w => engCheck w [.s, .null] 2 6 [] false
  | .fget w => engCheck w [.s] 2 6 [] false
  | .fatom w => atomCheck w [.v, .s] 2 true false [1, 2, 3, 4] true
  | .fatomn w => atomCheck w [.v, .s] 2 false false [1, 3] false
  -- 13: parcels
  | .palloc w => w.ops [.s] 2 [.s, .i] 1 [.s, .i] 1 true
  | .pfree w => w.ops [] 1 [.s] 2 [] 1 false
  | .paddr w => w.ops [.s] 2 [.s] 2 [] 1 false
  | .ldp w => { formLoad 2 [0, 1, 2] false with a := [.s] }.check w
  | .stp w => { formStore 2 [0, 1, 3] false with a := [.s] }.check w
  | .stpr w => { formStore 2 [0, 1, 3] false with a := [.s], widths := [4] }.check w
  | .post w => (w.ops [.s, .null] 1 [.s] 2 [.s] 1 false).or ⟨false, w.x.bad2 [3] [0] false⟩
  | .precv w => (w.ops [.s] 2 [] 1 [.s, .i] 1 true).or ⟨false, w.x.bad2 [2] [0] true⟩
  | .pstat w => w.ops [.s] 2 [.s] 2 [] 1 true
  -- 13: matrix units and weight dies
  | .mma w => mmaCheck w [.v] 1 false 16
  | .mmaq w => mmaCheck w [.v] 1 true 4
  | .mmas w => mmaCheck w [.s] 4 false 0
  | .mzero w => w.ops [] 1 [] 1 false
  | .mld w | .mst w => w.ops [.s] 1 [] 1 false
  | .mrd w => w.ops [.v] 2 [.s, .i] 1 true
  | .wmv w => engCheck w [.s] 8 8 [] (decide (2 ≤ w.x))
  | .wload w => engCheck w [.s] 4 4 [] false
  -- I words
  | .movi w => immCheck w tyAll false
  | .addi w | .muli w => immCheck w tySix true
  | .andi w | .ori w | .xori w => immCheck w tyInt4 false
  | .cmpi w => (w.ops [.s] (if w.x.1.is64 then 2 else 1)).or
                 ⟨false, !tySix.contains w.x.1.code || decide ((if w.x.1.isFloat then 8 else 6) ≤ w.x.2)⟩
  | .movhi w => (w.ops [.v, .s] 2).or ⟨false, !(w.x == .i64 || w.x == .n64)⟩
  | .ldc w => (w.ops [.v] 1).or ⟨false, !(w.x.1 == .i32 || w.x.1 == .n32)⟩
  | .sigchk _ => .ok
  -- C words
  | .bra c _ | .exit c | .trap c _ => ⟨false, c.bad2⟩
  | .call c r _ | .ret c r | .jmps c r => ⟨cregBad r 2, c.bad2⟩
  | .loop r _ => ⟨cregBad r 1, false⟩
  | .split _ _ _ _ | .contain _ _ => .ok
  | .jtab x _ _ => ⟨decide (128 ≤ x), false⟩
  -- P words
  | .pairNop a t => pairCheck ⟨.nop, a⟩ t
  | .pairMov a t => pairCheck ⟨.mov, a⟩ t
  | .pairIadd a t => pairCheck ⟨.iadd, a⟩ t
  | .pairIsub a t => pairCheck ⟨.isub, a⟩ t
  | .pairImul a t => pairCheck ⟨.imul, a⟩ t
  | .pairAnd a t => pairCheck ⟨.and, a⟩ t
  | .pairOr a t => pairCheck ⟨.or, a⟩ t
  | .pairXor a t => pairCheck ⟨.xor, a⟩ t
  | .pairAndn a t => pairCheck ⟨.andn, a⟩ t
  | .pairShl a t => pairCheck ⟨.shl, a⟩ t
  | .pairShr a t => pairCheck ⟨.shr, a⟩ t
  | .pairSar a t => pairCheck ⟨.sar, a⟩ t
  | .pairImin a t => pairCheck ⟨.imin, a⟩ t
  | .pairImax a t => pairCheck ⟨.imax, a⟩ t
  | .pairFadd a t => pairCheck ⟨.fadd, a⟩ t
  | .pairFsub a t => pairCheck ⟨.fsub, a⟩ t
  | .pairFmul a t => pairCheck ⟨.fmul, a⟩ t
  | .pairFmin a t => pairCheck ⟨.fmin, a⟩ t
  | .pairFmax a t => pairCheck ⟨.fmax, a⟩ t
  | _ => .ok

/-- Whether an F word's operand fields fit their bits; the X16 of the records is checked by `Instr.fits`. -/
def FWord.fits {χ : Type} (w : FWord χ) : Bool :=
  w.p.fits && decide (w.la < 16) && w.d.fits && w.a.fits && w.b.fits

def TWord.fits {χ : Type} (w : TWord χ) : Bool :=
  w.p.fits && decide (w.la < 16) && decide (w.t < 1024) && w.a.fits && w.b.fits

def IWord.fits {χ : Type} (w : IWord χ) : Bool := w.p.fits && w.d.fits && decide (w.imm < 2 ^ 32)

def XMma.fits (x : XMma) : Bool := decide (x.afmt < 16) && decide (x.bfmt < 16) && decide (x.tag < 16)

/-- A displacement of n bits, signed. -/
def dispFits (n : Nat) (d : Int) : Bool :=
  decide (-((2 ^ (n - 1) : Nat) : Int) ≤ d) && decide (d < ((2 ^ (n - 1) : Nat) : Int))

/-- Whether every number of an instruction fits its field: the operands of the F and I words, then what the records
hold as plain numbers. Events carry no fields. -/
def Instr.fits : Instr → Bool
  | .mov w | .sel w | .iadd w | .isub w | .imul w | .imulh w | .imad w | .idiv w | .imin w | .imax w | .iabs w
  | .lea w | .and w | .or w | .xor w | .andn w | .shl w | .shr w | .sar w | .rot w | .popc w | .clz w | .brev w
  | .bfe w | .bfi w | .icmp w | .fadd w | .fsub w | .fmul w | .ffma w | .fmin w | .fmax w | .fcmp w | .frnd w
  | .frcp w | .frsq w | .fsqrt w | .fdiv w | .fexp2 w | .flog2 w | .fsin w | .fcos w | .fclass w | .fdot2 w
  | .cvtq w | .cvtqd w | .pack w | .unpack w | .shfl w | .shflx w | .bcst w | .vote w | .matchl w | .redl w
  | .scanl w | .firstl w | .mtos w | .stom w => w.fits && decide (w.x.opx < 16)
  | .cvt w => w.fits && decide (w.x.opx < 16)
  | .stepq w | .sprint w => w.fits
  | .sread w | .swrite w | .yieldw w => w.fits && decide (w.x < 256)
  | .xread w | .xwrite w => w.fits && w.x.fits
  | .bkpt w => w.fits && decide (w.x < 65536)
  | .sprel w | .assertw w | .tdset w | .tdget w | .cpyc w | .stage w | .scata w | .fput w | .fget w | .palloc w
  | .pfree w | .paddr w | .pstat w | .wload w => w.fits
  | .ld w | .st w | .lds w | .sts w | .ldl w | .stl w | .ldu w | .stu w | .ldt w | .stt w | .pref w | .fence w
  | .atom w | .atomn w | .atoms w | .atomsn w | .atomu w | .fld w | .fst w | .fatom w | .fatomn w | .ldp w | .stp w
  | .stpr w | .post w | .precv w => w.fits
  | .bar w | .bara w | .barw w => w.fits
  | .tbinit w | .tbarr w | .tbexp w | .tbwait w | .tbtest w => w.fits
  | .cpy w => w.fits && decide (w.x.dir < 4) && decide (w.x.hint < 8)
  | .cpyt w => w.fits && decide (w.x.dfmt < 16) && decide (w.x.dkind < 4)
  | .gpool w => w.fits && decide (w.x.ofmt < 16) && decide (w.x.okind < 4) && decide (w.x.mode < 8)
  | .wmv w => w.fits && decide (w.x < 4)
  | .mma w | .mmaq w | .mmas w => w.fits && w.x.fits
  | .mzero w | .mld w | .mst w | .mrd w => w.fits
  | .movi w | .addi w | .andi w | .ori w | .xori w | .muli w => w.fits
  | .cmpi w => w.fits && decide (w.x.2 < 16)
  | .movhi w => w.fits
  | .ldc w => w.fits && dispFits 4 w.x.2
  | .sigchk imm => decide (imm < 2 ^ 32)
  | .bra c d => c.fits && dispFits 32 d
  | .call c r d => c.fits && decide (r < 256) && dispFits 32 d
  | .ret c r | .jmps c r => c.fits && decide (r < 256)
  | .loop r d => decide (r < 256) && dispFits 32 d
  | .split _ n e j => decide (n < 8) && dispFits 18 e && dispFits 32 j
  | .jtab x len d => decide (x < 256) && decide (1 ≤ len) && decide (len ≤ 1024) && dispFits 32 d
  | .exit c => c.fits
  | .trap c code => c.fits && decide (code < 65536)
  | .contain id d => decide (id < 65536) && dispFits 32 d
  | .pairNop a t | .pairMov a t | .pairIadd a t | .pairIsub a t | .pairImul a t | .pairAnd a t | .pairOr a t
  | .pairXor a t | .pairAndn a t | .pairShl a t | .pairShr a t | .pairSar a t | .pairImin a t | .pairImax a t
  | .pairFadd a t | .pairFsub a t | .pairFmul a t | .pairFmin a t | .pairFmax a t =>
    (⟨.nop, a⟩ : PSlot).fits && t.fits
  | _ => true

/-- A well-formed instruction: every field fits and no rule of R207 is broken. -/
def Instr.wellFormed (i : Instr) : Bool := i.fits && !i.bad.one && !i.bad.two

/-- Whether the constructor is an event of the part (spec/95) and not an instruction word.
Log 33: DESIGN CHOICE, safe. -/
def Instr.isEvent : Instr → Bool
  | .barrierReleaseDelivery .. | .trapDelivery .. | .runTimer .. | .stepWatchdog .. | .mmaqRendezvousTimeout ..
  | .stepEnter .. | .haloPushArrival .. | .cellSetSwap .. | .longLatencyResultLand .. | .translationWalkComplete ..
  | .storePerformedAtHome .. | .containmentUnwind .. | .matrixGrant .. | .matrixOpEnd .. | .engineCompletion ..
  | .engineLineLanded .. | .sectorLanding .. | .fabricRequestAtTarget .. | .fabricResponse .. | .fabricTimeout ..
  | .fabricRefusal .. | .escapeDiversion .. | .parcelTransitStart .. | .parcelFirstPacket .. | .parcelLanded ..
  | .parcelAck .. | .parcelReturn .. | .admission .. | .teamStart .. | .launchCompletion .. | .preemption ..
  | .lowestTeamSwapBack .. | .pageMigration .. | .meltUpdate .. | .leaseExpiry .. | .fllStep .. | .thermalGateBegin
  | .thermalGateEnd | .linkFailure .. | .dieFence .. | .cxlPortFailure .. | .dynamicCapacityRelease ..
  | .duplicateDeviceNumber .. | .patrolScrub .. | .matrixSelfTest .. | .deviceReset .. | .readyBitRise ..
  | .hostLinkTraining .. | .powerLossWarning | .qtailWrite .. | .qbaseWrite .. | .qctlWrite .. | .tbaseWrite ..
  | .arenaCommand .. | .exportCommand .. | .importCommand .. | .fabidWrite .. | .ftlimitWrite .. | .islctlWrite ..
  | .checkpointTake | .checkpointRestore | .attestationRequest | .attestationComplete .. | .halt .. | .resume ..
  | .rdreg .. | .wrreg .. | .rdmem .. | .wrmem .. | .oneword .. | .endLaunch .. | .hostBar2Access ..
  | .registerWrite .. | .islandCoreCycle .. | .hostWriteCompletedAtMemory .. => true
  | _ => false

end Sys2Proof
end

