-- ==== Sys2Proof/Machine/Float.lean ====
section
/-!
DEFINITION. Floating point to the bit (R78 to R86): formats, exact values, one rounding function, and the arithmetic
that rounds an exact result once. Values are exact dyadic numbers, so nothing rounds before `roundTo` does. Every
function is structurally recursive or plain arithmetic over numbers.
-/

namespace Sys2Proof.Machine

open Sys2Proof

/-- A floating-point format (R78). `ieee` is false for f8e4m3, whose top exponent holds finite values. -/
structure Fmt where
  ebits : Nat
  fbits : Nat
  ieee : Bool := true
  deriving DecidableEq, Repr

def Fmt.f64 : Fmt := ⟨11, 52, true⟩
def Fmt.f32 : Fmt := ⟨8, 23, true⟩
def Fmt.f16 : Fmt := ⟨5, 10, true⟩
def Fmt.bf16 : Fmt := ⟨8, 7, true⟩
def Fmt.e4m3 : Fmt := ⟨4, 3, false⟩
def Fmt.e5m2 : Fmt := ⟨5, 2, true⟩

def Fmt.bias (f : Fmt) : Int := 2 ^ (f.ebits - 1) - 1
def Fmt.width (f : Fmt) : Nat := f.ebits + f.fbits + 1
def Fmt.signBit (f : Fmt) : Nat := 2 ^ (f.ebits + f.fbits)
/-- The pattern above the largest finite value: infinity, or f8e4m3's NaN. -/
def Fmt.top (f : Fmt) : Nat := if f.ieee then (2 ^ f.ebits - 1) * 2 ^ f.fbits else 2 ^ (f.ebits + f.fbits) - 1
/-- The canonical NaN (R78, R79). -/
def Fmt.nan (f : Fmt) : Nat := if f.ieee then f.top + 2 ^ (f.fbits - 1) else f.top

/-- The value of a pattern: NaN, an infinity, or (-1)^neg × m × 2^e exactly, zeros with their sign. -/
inductive FVal where
  | nan
  | inf (neg : Bool)
  | num (neg : Bool) (m : Nat) (e : Int)
  deriving DecidableEq, Repr

/-- Read a pattern (R78, R80). -/
def Fmt.read (f : Fmt) (x : Nat) : FVal :=
  let neg := bit x (f.ebits + f.fbits)
  let ex := x / 2 ^ f.fbits % 2 ^ f.ebits
  let fr := x % 2 ^ f.fbits
  if f.ieee && ex == 2 ^ f.ebits - 1 then (if fr = 0 then .inf neg else .nan)
  else if !f.ieee && x % f.signBit == f.top then .nan
  else if ex = 0 then .num neg fr (1 - f.bias - (f.fbits : Int))
  else .num neg (2 ^ f.fbits + fr) ((ex : Int) - f.bias - (f.fbits : Int))

/-- The overflow result (R83): infinity, or the largest finite value, by mode, sign and SAT. -/
def Fmt.overflow (f : Fmt) (rm : Rm) (sat neg : Bool) : Nat :=
  let s := if neg then f.signBit else 0
  let largest := s + f.top - 1
  let infinite := if f.ieee then s + f.top else f.nan
  if sat then largest
  else match rm with
    | .rne => infinite
    | .rz => largest
    | .rdn => if neg then infinite else largest
    | .rup => if neg then largest else infinite

/-- Whether a quotient with this last bit, remainder and half unit rounds up in magnitude (R82). -/
def roundsUp (rm : Rm) (neg : Bool) (odd : Bool) (rem half : Nat) : Bool :=
  match rm with
  | .rne => decide (half < rem) || (rem == half && odd)
  | .rz => false
  | .rdn => neg && rem != 0
  | .rup => !neg && rem != 0

/-- Round the exact value (-1)^neg × m × 2^e, m > 0, to a format (R82, R83). `sticky` says that the exact value lies
strictly between m and m + 1 units. -/
def Fmt.round (f : Fmt) (rm : Rm) (sat neg : Bool) (m0 : Nat) (e0 : Int) (sticky : Bool := false) : Nat :=
  -- four extra bits carry the sticky information below every bit that rounding looks at
  let m := 16 * m0 + b2n sticky
  let e := e0 - 4
  if m = 0 then (if neg then f.signBit else 0)
  else
    let top : Int := (Nat.log2 m : Int) + e
    let emin : Int := 1 - f.bias
    let ex : Int := if top < emin then emin else top
    let q : Int := ex - (f.fbits : Int)
    let mant : Nat :=
      if q ≤ e then m * 2 ^ (e - q).toNat
      else
        let sh := (q - e).toNat
        let d := m / 2 ^ sh
        let r := m % 2 ^ sh
        d + b2n (roundsUp rm neg (d % 2 == 1) r (2 ^ (sh - 1)))
    let pat := ((ex - emin).toNat) * 2 ^ f.fbits + mant
    if f.top ≤ pat then f.overflow rm sat neg else (if neg then f.signBit else 0) + pat

/-- An infinite result: clamped under SAT; f8e4m3 has none (R83). -/
def Fmt.infResult (f : Fmt) (sat neg : Bool) : Nat :=
  let s := if neg then f.signBit else 0
  if sat then s + f.top - 1 else if f.ieee then s + f.top else f.nan

def Fmt.zero (f : Fmt) (neg : Bool) : Nat := if neg then f.signBit else 0

/-- Deliver an exact value in a format. -/
def Fmt.deliver (f : Fmt) (rm : Rm) (sat : Bool) : FVal → Nat
  | .nan => f.nan
  | .inf n => f.infResult sat n
  | .num n m e => f.round rm sat n m e

/-! ### Exact sums and products -/

def FVal.neg : FVal → FVal
  | .nan => .nan
  | .inf n => .inf (!n)
  | .num n m e => .num (!n) m e

def FVal.abs : FVal → FVal
  | .nan => .nan
  | .inf _ => .inf false
  | .num _ m e => .num false m e

def FVal.isNan : FVal → Bool
  | .nan => true
  | _ => false

def FVal.isInf : FVal → Bool
  | .inf _ => true
  | _ => false

def FVal.isZero : FVal → Bool
  | .num _ 0 _ => true
  | _ => false

def FVal.sign : FVal → Bool
  | .nan => false
  | .inf n | .num n _ _ => n

/-- The exact product (R84, case 2 for 0 × ∞). -/
def FVal.mul : FVal → FVal → FVal
  | .nan, _ | _, .nan => .nan
  | .inf n, y => if y.isZero then .nan else .inf (n != y.sign)
  | x, .inf n => if x.isZero then .nan else .inf (n != x.sign)
  | .num n1 m1 e1, .num n2 m2 e2 => .num (n1 != n2) (m1 * m2) (e1 + e2)

/-- A signed magnitude at a common exponent. -/
def signedAt (neg : Bool) (m : Nat) (e e0 : Int) : Int :=
  let x : Int := ((m * 2 ^ (e - e0).toNat : Nat) : Int)
  if neg then -x else x

/-- The exact sum of a list of exact values (R95): NaN, an infinity, or the number. An exact zero is +0, and −0 where
every term is −0; `zneg` is the sign of other exact zeros (R82: set under RDN). Log 6: DEDUCED, unsafe. -/
def FVal.sum (zneg : Bool) (l : List FVal) : FVal :=
  let infs := l.filter FVal.isInf
  if l.any FVal.isNan then .nan
  else if infs.any FVal.sign && infs.any (fun x => !x.sign) then .nan
  else match infs with
    | x :: _ => .inf x.sign
    | [] =>
      let e0 := l.foldl (fun acc x => match x with | .num _ _ e => min acc e | _ => acc) (0 : Int)
      let t := l.foldl (fun acc x => match x with | .num n m e => acc + signedAt n m e e0 | _ => acc) (0 : Int)
      if t = 0 then
        .num (if l.all (fun x => x.isZero && x.sign) && !l.isEmpty then true else zneg) 0 0
      else .num (decide (t < 0)) t.natAbs e0

def isRdn : Rm → Bool
  | .rdn => true
  | _ => false

/-- round(a + b) (R82, R84). Log 6: DEDUCED, unsafe. -/
def Fmt.add (f : Fmt) (rm : Rm) (sat : Bool) (a b : FVal) : Nat := f.deliver rm sat (.sum (isRdn rm) [a, b])

/-- round(a × b). -/
def Fmt.mul (f : Fmt) (rm : Rm) (sat : Bool) (a b : FVal) : Nat := f.deliver rm sat (FVal.mul a b)

/-- round(a × b + d), one rounding; 0 × ∞ is NaN whatever d is (R226). Log 6: DEDUCED, unsafe. -/
def Fmt.fma (f : Fmt) (rm : Rm) (sat : Bool) (a b d : FVal) : Nat :=
  f.deliver rm sat (.sum (isRdn rm) [FVal.mul a b, d])

/-- Compare two numbers that are not NaN: a < b; zeros are equal. -/
def FVal.lt : FVal → FVal → Bool
  | .nan, _ | _, .nan => false
  | .inf n, .inf m => n && !m
  | .inf n, .num _ _ _ => n
  | .num _ _ _, .inf n => !n
  | .num n1 m1 e1, .num n2 m2 e2 =>
    let e0 := min e1 e2
    decide (signedAt n1 m1 e1 e0 < signedAt n2 m2 e2 e0)

def FVal.eq (a b : FVal) : Bool := !a.isNan && !b.isNan && !a.lt b && !b.lt a

/-- minimumNumber and maximumNumber over patterns (R84, case 3): −0 orders below +0. -/
def Fmt.minNum (f : Fmt) (x y : Nat) : Nat :=
  let a := f.read x
  let b := f.read y
  if a.isNan && b.isNan then f.nan
  else if a.isNan then y else if b.isNan then x
  else if a.lt b then x else if b.lt a then y else if a.sign then x else y

def Fmt.maxNum (f : Fmt) (x y : Nat) : Nat :=
  let a := f.read x
  let b := f.read y
  if a.isNan && b.isNan then f.nan
  else if a.isNan then y else if b.isNan then x
  else if a.lt b then y else if b.lt a then x else if a.sign then y else x

/-! ### Division and roots, correctly rounded (R85) -/

/-- Quotient of two positive numbers with more bits than any format, and whether it is inexact. -/
def divBits (m1 m2 : Nat) : Nat × Int × Bool :=
  let k := 120 + Nat.log2 m2 - Nat.log2 m1
  (m1 * 2 ^ k / m2, -(k : Int), m1 * 2 ^ k % m2 != 0)

def Fmt.div (f : Fmt) (rm : Rm) (sat : Bool) (a b : FVal) : Nat :=
  match a, b with
  | .nan, _ | _, .nan => f.nan
  | .inf _, .inf _ => f.nan
  | .inf n, y => f.infResult sat (n != y.sign)
  | x, .inf n => f.zero (n != x.sign)
  | .num n1 m1 e1, .num n2 m2 e2 =>
    if m1 = 0 && m2 = 0 then f.nan
    else if m2 = 0 then f.infResult sat (n1 != n2)
    else if m1 = 0 then f.zero (n1 != n2)
    else
      let (q, e, st) := divBits m1 m2
      f.round rm sat (n1 != n2) q (e1 - e2 + e) st

/-- One bit of the integer square root from the top: r is the root so far. -/
def isqrtGo : Nat → Nat → Nat → Nat
  | 0, _, r => r
  | k + 1, n, r =>
    let r' := r + 2 ^ k
    isqrtGo k n (if r' * r' ≤ n then r' else r)

/-- ⌊√n⌋. -/
def isqrt (n : Nat) : Nat := isqrtGo (Nat.log2 n / 2 + 1) n 0

def Fmt.sqrt (f : Fmt) (rm : Rm) (sat : Bool) (a : FVal) : Nat :=
  match a with
  | .nan => f.nan
  | .inf n => if n then f.nan else f.infResult sat false
  | .num n m e =>
    if m = 0 then f.zero n
    else if n then f.nan
    else
      -- m × 2^e = M × 2^E with E even and M of at least 240 bits
      let k : Nat := 240 + (if (e - 240) % 2 = 0 then 0 else 1)
      let mm := m * 2 ^ k
      let ee := e - (k : Int)
      let r := isqrt mm
      f.round rm sat false r (ee / 2) (r * r != mm)

/-- 1 ÷ √a, RNE (R229). -/
def Fmt.rsqrt (f : Fmt) (sat : Bool) (a : FVal) : Nat :=
  match a with
  | .nan => f.nan
  | .inf n => if n then f.nan else f.zero false
  | .num n m e =>
    if m = 0 then f.infResult sat n
    else if n then f.nan
    else
      -- 1 ÷ (m × 2^e) = (2^k ÷ m) × 2^(−e−k), with e + k even
      let k0 := 360 + Nat.log2 m
      let k : Nat := k0 + (if (e + (k0 : Int)) % 2 = 0 then 0 else 1)
      let q := 2 ^ k / m
      let r := isqrt q
      f.round .rne sat false r (-(e + (k : Int)) / 2) (r * r * m != 2 ^ k)

/-- 1 ÷ a, RNE. -/
def Fmt.rcp (f : Fmt) (sat : Bool) (a : FVal) : Nat := f.div .rne sat (.num false 1 0) a

/-! ### Rounding to integers, classes, conversions -/

/-- An exact value rounded to an integer under RM (R86, R228). -/
def roundInt (rm : Rm) (neg : Bool) (m : Nat) (e : Int) : Int :=
  let mag : Nat :=
    if 0 ≤ e then m * 2 ^ e.toNat
    else
      let sh := (-e).toNat
      let d := m / 2 ^ sh
      d + b2n (roundsUp rm neg (d % 2 == 1) (m % 2 ^ sh) (2 ^ (sh - 1)))
  if neg then -(mag : Int) else mag

/-- FRND: an integral value in the same format, the sign kept (R228). -/
def Fmt.toIntegral (f : Fmt) (rm : Rm) (x : Nat) : Nat :=
  match f.read x with
  | .nan => f.nan
  | .inf n => f.infResult false n
  | .num n m e => f.round .rne false n (roundInt rm n m e).natAbs 0

/-- The one-hot class code (R230). -/
def Fmt.classOf (f : Fmt) (x : Nat) : Nat :=
  match f.read x with
  | .nan => 256
  | .inf n => if n then 1 else 128
  | .num n m _ =>
    if m = 0 then (if n then 8 else 16)
    else
      let sub := decide (x / 2 ^ f.fbits % 2 ^ f.ebits = 0)
      if n then (if sub then 4 else 2) else (if sub then 32 else 64)

/-- Clamp an integer to a type's range: sat(x, T) (R77). -/
def satInt (w : Nat) (signed : Bool) (x : Int) : Int :=
  let lo : Int := if signed then -((2 ^ (w - 1) : Nat) : Int) else 0
  let hi : Int := if signed then ((2 ^ (w - 1) : Nat) : Int) - 1 else ((2 ^ w : Nat) : Int) - 1
  if x < lo then lo else if hi < x then hi else x

/-- Float to integer: rounded, then always clamped; NaN gives 0 (R86). -/
def toIntClamp (w : Nat) (signed : Bool) (rm : Rm) : FVal → Nat
  | .nan => 0
  | .inf n => wrap w (satInt w signed (if n then -((2 ^ 64 : Nat) : Int) else ((2 ^ 64 : Nat) : Int)))
  | .num n m e => wrap w (satInt w signed (roundInt rm n m e))

/-- An integer as an exact value: zero is +0. -/
def FVal.ofInt (x : Int) : FVal := .num (decide (x < 0)) x.natAbs 0

end Sys2Proof.Machine
end

