-- ==== Sys2Proof/Machine/Elem.lean ====
section
/-!
DEFINITION. Elements of a register under a TY code (R76, R87, R191), the integer operations of chapter 10 on one
element (R215 to R222), and the conversions between element types (R86).
-/

namespace Sys2Proof.Machine

open Sys2Proof

/-- Element width in bits. -/
def tyWidth : Ty → Nat
  | .i32 | .n32 | .f32 => 32
  | .i64 | .n64 | .f64 => 64
  | .f16x2 | .bf16x2 | .i16x2 | .n16x2 => 16
  | .i8x4 | .n8x4 | .e4m3x4 | .e5m2x4 => 8
  | .reserved14 | .reserved15 => 32

/-- Elements in a value. -/
def tyCount : Ty → Nat
  | .f16x2 | .bf16x2 | .i16x2 | .n16x2 => 2
  | .i8x4 | .n8x4 | .e4m3x4 | .e5m2x4 => 4
  | _ => 1

/-- Whether an integer type is signed. -/
def tySigned : Ty → Bool
  | .i32 | .i64 | .i16x2 | .i8x4 => true
  | _ => false

/-- The format of a float type. -/
def tyFmt : Ty → Fmt
  | .f64 => .f64 | .f16x2 => .f16 | .bf16x2 => .bf16 | .e4m3x4 => .e4m3 | .e5m2x4 => .e5m2 | _ => .f32

/-- Registers a value of the type takes. -/
def tyRegs (t : Ty) : Nat := if t.is64 then 2 else 1

/-- Element i of a value. -/
def elem (w i x : Nat) : Nat := x / 2 ^ (w * i) % 2 ^ w

/-- A value from its elements. -/
def mkElems (w n : Nat) (f : Nat → Nat) : Nat :=
  ((List.range n).map fun i => f i % 2 ^ w * 2 ^ (w * i)).sum

/-- Apply an operation element by element. -/
def byElem (t : Ty) (f : Nat → Nat) : Nat := mkElems (tyWidth t) (tyCount t) f

/-- An integer element as a number, by the type's signedness (R76). -/
def intOf (t : Ty) (x : Nat) : Int :=
  if tySigned t then sext (tyWidth t) x else ((x % 2 ^ tyWidth t : Nat) : Int)

/-- sat or wrap of an exact result (R77). -/
def intResult (t : Ty) (sat : Bool) (x : Int) : Nat :=
  wrap (tyWidth t) (if sat then satInt (tyWidth t) (tySigned t) x else x)

/-- Whether an exact result lies outside the type (R210). -/
def outside (t : Ty) (x : Int) : Bool := satInt (tyWidth t) (tySigned t) x != x

/-! ### Bits (R219 to R222) -/

/-- Number of 1 bits among the low w. -/
def popcount (w x : Nat) : Nat := ((List.range w).map fun i => b2n (bit x i)).sum

/-- Zero bits above the highest 1 bit; w for 0. -/
def clz (w x : Nat) : Nat := if x % 2 ^ w = 0 then w else w - 1 - Nat.log2 (x % 2 ^ w)

/-- Bit i of the result is bit w − 1 − i. -/
def brev (w x : Nat) : Nat := ((List.range w).map fun i => b2n (bit x (w - 1 - i)) * 2 ^ i).sum

/-- A shift's result for one element of amount a (R220). -/
def shlElem (t : Ty) (sat : Bool) (x a : Nat) : Nat :=
  let w := tyWidth t
  if sat then
    -- beyond w every nonzero value is outside the type
    intResult t true (intOf t x * ((2 ^ min a (2 * w) : Nat) : Int))
  else if w ≤ a then 0 else x % 2 ^ w * 2 ^ a % 2 ^ w

def shrElem (t : Ty) (x a : Nat) : Nat :=
  let w := tyWidth t
  if w ≤ a then 0 else x % 2 ^ w / 2 ^ a

def sarElem (t : Ty) (x a : Nat) : Nat :=
  let w := tyWidth t
  wrap w (sext w x / ((2 ^ min a w : Nat) : Int))

def rotElem (t : Ty) (x a : Nat) : Nat :=
  let w := tyWidth t
  let k := a % w
  let y := x % 2 ^ w
  (y * 2 ^ k % 2 ^ w) + y / 2 ^ (w - k) % 2 ^ k

/-- The last bit a shift moved out (R210): bit w − a for SHL, bit a − 1 for SHR and SAR. -/
def shiftCarry (left arith : Bool) (w x a : Nat) : Bool :=
  if a = 0 then false
  else if a ≤ w then bit x (if left then w - a else a - 1)
  else arith && bit x (w - 1)

/-- BFE and BFI on one element (R222). -/
def bfeElem (t : Ty) (a b : Nat) : Nat :=
  let w := tyWidth t
  let p := bits b 7 0
  let n := if w ≤ p then 0 else min (bits b 15 8) (w - p)
  if n = 0 then 0
  else if tySigned t then wrap w (sext n (a / 2 ^ p)) else a / 2 ^ p % 2 ^ n

def bfiElem (t : Ty) (d a b : Nat) : Nat :=
  let w := tyWidth t
  let p := bits b 7 0
  let n := if w ≤ p then 0 else min (bits b 15 8) (w - p)
  if n = 0 then d
  else d % 2 ^ p + a % 2 ^ n * 2 ^ p + d / 2 ^ (p + n) % 2 ^ (w - p - n) * 2 ^ (p + n)

/-- Quotient and remainder of IDIV (R217). -/
def idivElem (t : Ty) (sat : Bool) (a b : Nat) : Nat × Nat :=
  let w := tyWidth t
  let x := intOf t a
  let y := intOf t b
  if y = 0 then (2 ^ w - 1, a % 2 ^ w)
  else if tySigned t && x == -((2 ^ (w - 1) : Nat) : Int) && y == -1 then
    (if sat then 2 ^ (w - 1) - 1 else 2 ^ (w - 1), 0)
  else (wrap w (Int.tdiv x y), wrap w (Int.tmod x y))

/-! ### Compares (R223) -/

/-- ICMP's condition; codes 0 to 5. -/
def icmpCond (c : Nat) (a b : Int) : Bool :=
  match c with
  | 0 => a == b | 1 => a != b | 2 => decide (a < b) | 3 => decide (a ≤ b) | 4 => decide (b < a) | _ => decide (b ≤ a)

/-- FCMP's condition; codes 0 to 7. -/
def fcmpCond (c : Nat) (a b : FVal) : Bool :=
  let un := a.isNan || b.isNan
  match c with
  | 0 => a.eq b | 1 => un || !a.eq b | 2 => a.lt b | 3 => !un && !b.lt a | 4 => b.lt a | 5 => !un && !a.lt b
  | 6 => un | _ => !un

/-! ### Operands -/

/-- An immediate in the element type (R189): sign-extended, or converted exactly. -/
def immElem (t : Ty) (i : Int) : Nat :=
  if t.isFloat then (tyFmt t).deliver .rne false (FVal.ofInt i) else wrap (tyWidth t) i

/-- An immediate in every element. -/
def immValue (t : Ty) (i : Int) : Nat := byElem t fun _ => immElem t i

/-- abs, then neg, on one element's sign bit (R79, R190). -/
def modSign (w : Nat) (neg abs : Bool) (x : Nat) : Nat :=
  let y := if abs then x % 2 ^ (w - 1) else x % 2 ^ w
  if neg then (y + 2 ^ (w - 1)) % 2 ^ w else y

/-! ### Conversions (R86) -/

/-- Whether a float type holds fewer values than another, or others of the same width: what R231 narrows. -/
def narrows (t s : Ty) : Bool := t != s && decide (tyWidth t ≤ tyWidth s)

/-- Convert one element from type s to type t (R86, R231). SAT clamps an integer that is not widened; a widened one is
extended. Between float types it counts where the value is narrowed. Log 5: DEDUCED, unsafe. -/
def convElem (t s : Ty) (rm : Rm) (sat : Bool) (x : Nat) : Nat :=
  if s.isFloat then
    let v := (tyFmt s).read x
    if t.isFloat then (tyFmt t).deliver rm (sat && narrows t s) v else toIntClamp (tyWidth t) (tySigned t) rm v
  else
    let i := intOf s x
    if t.isFloat then (tyFmt t).deliver rm sat (FVal.ofInt i) else intResult t (sat && decide (tyWidth t ≤ tyWidth s)) i

/-- The 32-bit type PACK reads and UNPACK writes for an element type (R232, R233). -/
def wideOf (t : Ty) : Ty := if t.isFloat then .f32 else if tySigned t then .i32 else .n32

/-! ### Reductions (R99, R241, R242) -/

/-- Combine two values under a reduction code: add, min, max, and, or, xor. -/
def redOp (t : Ty) (op : Nat) (x y : Nat) : Nat :=
  let f := tyFmt t
  match op with
  | 0 => if t.isFloat then f.add .rne false (f.read x) (f.read y) else intResult t false (intOf t x + intOf t y)
  | 1 => if t.isFloat then f.minNum x y else if intOf t x ≤ intOf t y then x else y
  | 2 => if t.isFloat then f.maxNum x y else if intOf t x ≤ intOf t y then y else x
  | 3 => Nat.land x y
  | 4 => Nat.lor x y
  | _ => Nat.xor x y

/-- The identity of a scan's operator (R242). -/
def redIdentity (t : Ty) (op : Nat) : Nat :=
  let w := tyWidth t
  let f := tyFmt t
  match op with
  | 1 => if t.isFloat then f.top else if tySigned t then 2 ^ (w - 1) - 1 else 2 ^ w - 1
  | 2 => if t.isFloat then f.signBit + f.top else if tySigned t then 2 ^ (w - 1) else 0
  | 3 => 2 ^ w - 1
  | _ => 0

/-- One level of the tree: neighbours combine in pairs; one alone passes unchanged (R99). -/
def redLevel (f : Nat → Nat → Nat) : List (Option Nat) → List (Option Nat)
  | x :: y :: l =>
    (match x, y with
      | some a, some b => some (f a b)
      | some a, none => some a
      | none, o => o) :: redLevel f l
  | l => l

/-- REDL's five levels over 32 positions (R99). -/
def redTree (f : Nat → Nat → Nat) (xs : List (Option Nat)) : Option Nat :=
  ((redLevel f (redLevel f (redLevel f (redLevel f (redLevel f xs))))).head?).join

/-- SCANL over the active lanes in ascending order: (lane, value) pairs to (lane, result) (R242). -/
def scanGo (f : Nat → Nat → Nat) (ex : Bool) (ident : Nat) : Option Nat → List (Nat × Nat) → List (Nat × Nat)
  | _, [] => []
  | acc, (l, x) :: rest =>
    let inc := match acc with | none => x | some a => f a x
    (l, if ex then acc.getD ident else inc) :: scanGo f ex ident (some inc) rest

end Sys2Proof.Machine
end

