-- ==== Sys2Proof/Config.lean ====
section
/-!
DEFINITION. What is fixed for the machine and no program changes: the sizes of the package (R15 to R27), and the free
values, constants with no body for what the spec leaves open.
-/

namespace Sys2Proof

/-- Cores of the package (R17). -/
def Config.cores : Nat := 160

/-- Cores of one die (R17). -/
def Config.coresPerDie : Nat := 40

/-- Islands of the package (R20). -/
def Config.islands : Nat := 40

/-- Partitions of a core, and slots of one partition in one bank (R30). -/
def Config.partitions : Nat := 16
def Config.slotsPerPartition : Nat := 4

/-- Entries of a core's outstanding transaction table (R311). -/
def Config.ottEntries : Nat := 256

/-- Operations a matrix unit queues (R312). -/
def Config.unitQueue : Nat := 8

/-- Outstanding long-latency words of a split (R201). -/
def Config.scoreboard : Nat := 16

/-- Lines a containment version may hold (R424). -/
def Config.versionLines : Nat := 1024

/-- Version bytes one die's LLC reserves for all open regions (R424). -/
def Config.versionDieLines : Nat := 131072

/-- Free bytes: nothing constrains them. The first argument is State's counter `free`, so each use is a fresh one; the
second tells the bytes of one use apart. Log 21: DESIGN CHOICE, safe. -/
opaque Config.freeByte : Nat → Nat → Byte

/-- A free 32-bit value, likewise. Log 21: DESIGN CHOICE, safe. -/
opaque Config.freeWord : Nat → Word

/-- A free 64-bit value, likewise. Log 11: DESIGN CHOICE, safe. Log 21: DESIGN CHOICE, safe. -/
opaque Config.freeDword : Nat → Dword

/-- Where the HDM decoders of a CXL port begin among its component registers (R351): the CXL specification has a pointer
there, which this spec does not give. Log 20: PRESUMED, unsafe. -/
opaque Config.hdmAt : Nat

/-- Where in its slice's halo part a value of the halo store lies, as a number of words: the spec gives H bytes and no
places (R56). Log 19: DESIGN CHOICE, safe. -/
opaque Config.haloPlace : Nat → Nat

/-- Whether a device of the fabric exists, by its number (R168). Log 8: DESIGN CHOICE, safe. -/
opaque Config.devicePresent : Nat → Bool

/-- The hash of a core and a transfer by which packets are sprayed over the planes (R349). Log 29: DESIGN CHOICE, safe. -/
opaque Config.sprayHash : Nat → Nat → Nat

/-- N of a conversion of an infinity to an integer: a function of the destination's and the source's type, by their codes,
the rounding mode, SAT and the operand (R101). Log 5: DESIGN CHOICE, safe. -/
opaque Config.cvtNegative : Nat → Nat → Nat → Bool → Nat → Bool

/-- The version that the fuses of the I/O die ask a firmware bundle to have (R353). Log 28: DESIGN CHOICE, safe. -/
opaque Config.rollback : Nat

end Sys2Proof
end

