-- ==== Sys2Proof/Machine/State.lean ====
section
/-!
DEFINITION. The state of one AQF-160 module: everything the spec gives the machine (INVENTORY.md, '## State'), as plain
data. Sparse parts are lists of (key, value) pairs in one canonical form: keys strictly rising, and no pair whose value
is what an unlisted key reads as. The functions over such lists are in Machine/Maps.lean.
-/

namespace Sys2Proof.Machine

open Sys2Proof

/-- A sparse map in canonical form: keys strictly rising. -/
abbrev Map (α : Type) := List (Nat × α)

/-! ### The order of memory (R115 to R130) -/

/-- Who makes an access, as R116 sorts agents: a lane, by its launch and core; an engine thread of class y or x; a fabric
or parcel thread, or an agent of another device; the host; another host of the pooled memory; the part itself (scheduler,
spills, trap records), whose writes every agent sees. -/
inductive Agent where
  | lane (launch core : Nat)
  | copier | matrix | fabric | host | pool | part
  deriving DecidableEq, Repr

/-- Where a byte lies: physical memory, a launch's slice on a core, or the weight die of a die. -/
inductive Space where
  | mem
  | scr (launch core : Nat)
  | wd (die : Nat)
  deriving DecidableEq, Repr

/-- A release (R121, R122): who made it, its observer mask, and the writes it carries, by number. -/
structure Rel where
  maker : Agent
  mask : Obs
  writes : List Nat
  deriving DecidableEq, Repr

/-- A write in coherence order (R119): its number, its place, the bytes it replaced, who made it, whether it is the write
of a read-modify-write, and the releases it makes; the word of a group that made it (R117); whether nothing may come
between it and the write that its bytes were formed from (R94, R119); and whether its data was poisoned (R420). -/
structure Wr where
  id : Nat
  space : Space
  addr : Nat
  old : List Byte
  maker : Agent
  rmw : Bool
  rels : List Rel
  word : Nat := 0
  tight : Bool := false
  bad : Bool := false
  deriving DecidableEq, Repr

/-- A write that has issued and is not yet performed at its home (R119): its number, group, the lanes in whose program
order it stands (R117), physical address, bytes, whether it sets the tag of its word (R135), the word that made it, the
writes to common bytes that come before it, the releases it makes, and whether its data is poisoned (R420). -/
structure Store where
  id : Nat := 0
  group : Nat
  lanes : Mask
  addr : Nat
  data : List Byte
  tag : Bool := false
  word : Nat := 0
  after : List Nat := []
  rels : List Rel := []
  bad : Bool := false
  deriving DecidableEq, Repr

/-- The releases that a barrier has counted: towards its open phase, and towards completed ones (R269, R279). -/
structure Counted where
  opened : List Rel := []
  done : List Rel := []
  deriving DecidableEq, Repr

/-! ### Splits and groups (R33 to R37, R60 to R66) -/

/-- State field of a split-table entry (R34). -/
inductive SplitState where
  | free | run | joinWait | serial
  deriving DecidableEq, Repr

/-- The six condition codes (R65). -/
structure Flags where
  z : Bool := false
  n : Bool := false
  c : Bool := false
  v : Bool := false
  e : Bool := false
  g : Bool := false
  deriving DecidableEq, Repr

/-- New values for some of the flags; `none` keeps a flag (R65). -/
structure FlagUpd where
  z : Option Bool := none
  n : Option Bool := none
  c : Option Bool := none
  v : Option Bool := none
  e : Option Bool := none
  g : Option Bool := none
  deriving DecidableEq, Repr

/-- What a parked split waits for (R33): `trapped` until RFT (R397); `bar` names the barrier's core and id, whether the
word's scope is wider than a core, the phase that must pass, and whether its completion has come and only the delivery
is due (R268, R270, R440); `tb` a transaction barrier by scratchpad address, and the phase (R277), each with the
observers of its acquire, if it is one; `step` the rendezvous of R46; `mmaq` a set not yet complete, by its place in the
order of issue, its word and the fragments it read (R316); `lines` absent scratchpad lines as (core, line), the word
being performed when they are present (R112); `ports` CXL ports that are not ready, likewise (R352); `fence` the
conditions of R261, by its order and observers. -/
inductive Wait where
  | none
  | trapped
  | bar (core id : Nat) (wide phase released : Bool) (acq : Option Obs)
  | tb (addr phase : Nat) (acq : Option Obs)
  | step
  | mmaq (id : Nat) (w : TWord XMma) (a aScale b bScale : List Nat)
  | lines (ls : List (Nat × Nat))
  | ports (ps : List Nat)
  | fence (ord : Order) (obs : Obs)
  deriving DecidableEq, Repr

/-- A register written by a result: a vector register of one lane, a scalar or a mask register. -/
inductive RegId where
  | v (n lane : Nat)
  | s (n : Nat)
  | m (n : Nat)
  deriving DecidableEq, Repr

/-- An outstanding long-latency result (R199, R201): what it writes when it lands, its flags (R281), whether it sets
FTO with it (R434), how many words its window still holds, and the requests it still waits for. `shown` holds once its
split has passed a barrier after it: other splits' cross-lane reads then see it (R211). `lat` counts the cycles until it
lands, where its word has a latency of its own (R209). -/
structure Pend where
  id : Nat
  writes : List (RegId × Word)
  flags : FlagUpd
  fto : Bool
  left : Nat
  waits : List Nat
  shown : Bool := false
  lat : Option Nat := none
  deriving DecidableEq, Repr

/-- A word whose access waits for a line or a port (R112, R352): the word, and the registers as it read them when it
issued (R199). -/
structure Held where
  word : Nat
  v : Map Word
  vx : Map Word
  s : Map Word
  m : Map Word
  bad : List Nat := []
  deriving DecidableEq, Repr

/-- One record of the serial stack (R287): its split, join address, full mask and the paths still to run; `formed` holds
the lanes of the paths that have completed (R288). -/
structure SerialRec where
  owner : Nat
  join : Dword
  full : Mask
  queue : List (Dword × Mask)
  /-- What the lanes had seen at the division (R117). -/
  before : Map Mask := []
  formed : Mask := 0
  deriving DecidableEq, Repr

/-- One entry of the split table (R34), with what the rules keep beside it: the paths of Pending in order with the CC
and signature they start from (R290), what the split waits for, the mask of one re-issue after RFT (R294), the next word
where it was issued before and only its access is still due (R112), the cycles of %run parked at the current MMAQ (R316),
and the outstanding results (R201). -/
structure Split where
  st : SplitState := .free
  pc : Dword := 0
  mask : Mask := 0
  cc : Flags := {}
  sig : Word := 0
  join : Dword := 0
  /-- The mask before the division: the merge gives it back, less the lanes that exited (R36). -/
  full : Mask := 0
  /-- The lanes of the paths that have completed, and the lane of a mismatch that its merge has found (R288). -/
  formed : Mask := 0
  wrong : Option Nat := none
  parent : Option Nat := none
  children : Nat := 0
  pending : Mask := 0
  snapshot : List Nat := []
  paths : List (Dword × Mask) := []
  pathCc : Flags := {}
  pathSig : Word := 0
  /-- What the lanes had seen at the division (R117). -/
  before : Map Mask := []
  wait : Wait := .none
  once : Option Mask := none
  held : Option Held := none
  mmaqWait : Nat := 0
  pend : List Pend := []
  /-- The outstanding result that its next word waits for: the oldest of a full sixteen (R201). -/
  oldest : Option Nat := none
  /-- Cycles until its next word may issue (R282), or until a barrier that has completed releases it (R270), in
  millionths of a cycle at 850 MHz; and the latency of its last word, where the spec gives one (R209). -/
  stall : Nat := 0
  lat : Option Nat := none
  deriving DecidableEq, Repr

/-! ### Engine threads (R127, R128, R311) -/

/-- Where bytes lie: a virtual address (R102), or an offset of the launch's slice on a core (R111). -/
inductive Loc where
  | mem (va : Nat)
  | scr (core off : Nat)
  deriving DecidableEq, Repr

/-- The work of an engine thread, with its operands as read at issue (chapter 13). -/
inductive EngCmd where
  /-- CPY, and a CPY schedule entry (R323, R172). -/
  | copy (src dst : Loc) (bytes : Nat)
  /-- CPYT, and a CPYT schedule entry (R324): descriptor, origin, destination, conversion. -/
  | tile (td : BitVec 256) (i0 i1 i2 i3 : Nat) (core dst : Nat) (x : XCpyt)
  /-- CPYC (R325). -/
  | commit (core src bytes dst ver expected : Nat)
  /-- GPOOL (R328). -/
  | gpool (td : BitVec 256) (core : Nat) (idx lens weights count dst stride : Nat) (x : XGpool)
  /-- SCATA (R329). -/
  | scata (td : BitVec 256) (core : Nat) (src idx rows stride : Nat)
  /-- WMV (R321). -/
  | wmv (core : Nat) (act actStride out outStride region m k n : Nat) (int8 : Bool)
  /-- WLOAD (R322). -/
  | wload (die src off bytes : Nat)
  /-- FPUT (R333): remote virtual address, and that of the remote barrier, 0 for none. -/
  | fput (va core src bytes rbar : Nat)
  /-- FGET (R333): remote virtual address. -/
  | fget (va core dst bytes : Nat)
  /-- The transit of a parcel (R136 to R139): arena, slot, destination device and inbox, and the receiving slot once
  the parcel is landing on this device. -/
  | post (arena slot dev inbox : Nat) (recv : Option (Nat × Nat))
  /-- MMAS's reader of B and of its scales (R317): core, offset, stride and bytes of a column, and of its scales. -/
  | mmas (core b stride colBytes sCore scales sStride sBytes : Nat)
  /-- Parcel words held by a containment region until its commit (R296): STP and STPR with the writes they make, at
  virtual addresses, PALLOC with its arena, length, destination pair and pending result, PFREE with its handle. -/
  | heldStores (ws : List Store)
  | heldAlloc (arena len : Nat) (split pend reg : Nat)
  | heldFree (handle : Nat)
  deriving DecidableEq, Repr

/-- An engine thread: its launch, the core whose table entry it holds, the group that forked it, its local barrier (an
offset of that core's slice), the units of work already landed, bytes it captured, whether it met an error, and
whether it is held by an open containment region (R296). -/
structure Thread where
  launch : Nat
  core : Nat
  group : Nat
  cmd : EngCmd
  bar : Option Nat
  done : List Nat := []
  captured : Map Byte := []
  err : Bool := false
  held : Bool := false
  /-- Writes visible to its accesses, its own among them (R128), writes that it has read (R122), and the writes that its
  one read of each source line comes after (R118). -/
  vis : List Nat := []
  met : List Nat := []
  readAt : Map (List Nat) := []
  /-- It has read its lists (R328). -/
  started : Bool := false
  /-- Packets sent to a peer for an FPUT or a SCATA, and how many of them were answered. -/
  asked : Nat := 0
  answered : Nat := 0
  deriving DecidableEq, Repr

/-! ### Containment (R296 to R298, R424) -/

/-- An open containment region: id, handler, mask at CONTAIN, the version's bytes by physical address, its writes in the
order of their words, the lines touched, the held threads in order of issue, and the cause of an unwind that is due. -/
structure Region where
  id : Nat
  handler : Dword
  mask : Mask
  bytes : Map Byte
  writes : List Store
  lines : List Nat
  held : List Nat
  due : Option Nat
  deriving DecidableEq, Repr

/-! ### Groups -/

/-- A resident group (R30, R54, R60): placement and identity, registers, split table, counters. Vector registers are
keyed 32 × n + lane; `vx` is copy 1 of the export registers (R42), keyed 32 × j + lane; `pub` holds the published
values, keyed 32 × (16 × parity + j) + lane (R46, R48). -/
structure Group where
  launch : Nat
  team : Nat
  gid : Nat
  core : Nat
  set : Nat := 0
  slot : Nat
  handler : Bool := false
  /-- Export width of its launch; 0 in an ordinary launch (R38). -/
  e : Nat := 0
  origin : List Nat := []
  cellMask : Mask := 0
  exited : Mask := 0
  /-- Steps that the group had published when each exited lane left (R48). -/
  left : Map Nat := []
  v : Map Word := []
  vx : Map Word := []
  s : Map Word := []
  m : Map Word := []
  pub : Map Word := []
  /-- Steps published so far; the group has executed the STEP that ends step k once this is above k (R46). -/
  published : Nat := 0
  /-- The current step, not wrapped (R46); %step reads it modulo 2^32. -/
  step : Nat := 0
  splits : List Split := []
  stack : List SerialRec := []
  run : Dword := 0
  tcmp : Dword := 0
  /-- %tcmp counts from the next cycle of %run on, and FTO was set in this cycle (R73). -/
  armed : Bool := true
  fto : Bool := false
  ftoNow : Bool := false
  /-- Cycles of %run parked at the current STEP (R409). -/
  stepWait : Nat := 0
  /-- A lease-expiry trap that has fallen due and not been raised, with its auxiliary (R155). -/
  due : Option Nat := none
  /-- An operation of its has met a fence as it was to start: a trap falls due (R432). -/
  fenced : Bool := false
  /-- What its lanes have to do with writes, each with those lanes (R119, R122, R124): under `seenKey` a write that is
  visible to them, under `metKey` a byte at which they have read one, under `sharedKey` one that was visible to an access
  that several of them had in common. -/
  seen : Map Mask := []
  /-- `.rel` and `.ar` fences with their lanes and masks: later writes that are not plain release (R121). -/
  relFences : List (Mask × Obs) := []
  /-- Releases that strong reads have met: a later `.acq` or `.ar` fence makes them acquires (R121). -/
  strongReads : List (Mask × Rel) := []
  /-- Poison that an atomic of its has met as it was performed: the atomic's PC and the address (R420). -/
  ate : Option (Dword × Nat) := none
  /-- Cycles until words may read a result (R209): of a register by its number, of a flag of a split from 768 on. -/
  lat : Map Nat := []
  /-- Poisoned registers and split-table entries (R419), by the keys of `RegId.key` and `splitKey`. -/
  bad : List Nat := []
  region : Option Region := none
  /-- Private bytes, keyed 2^32 × lane + offset (R113). -/
  priv : Map Byte := []
  yieldLeft : Nat := 0
  passed : Nat := 0
  /-- Every lane has exited; a field launch's group stays for its neighbours' reads (R48). -/
  gone : Bool := false
  deriving DecidableEq, Repr

/-! ### Contexts: one launch on one core (R60, R71, R399) -/

/-- A named barrier (R71). -/
structure Barrier where
  phase : Bool := false
  arrived : Nat := 0
  expected : Nat := 0
  rels : Counted := {}
  deriving DecidableEq, Repr

/-- A trap record (R400), with the group it came from and %cyc of the core when it was raised: traps of one cycle have an
order of their own (R399). -/
structure TrapRec where
  cause : Nat
  lane : Nat
  pc : Dword
  tmask : Mask
  aux : Nat
  msg : Nat
  group : Nat
  split : Nat
  cyc : Dword := 0
  deriving DecidableEq, Repr

/-- A tile (R67): elements keyed 64 × row + column as f32 patterns, the registers c_i and a_i by row, and the elements
whose parity is wrong (R419). -/
structure Tile where
  elems : Map Word := []
  odd : List Nat := []
  c : Map Word := []
  a : Map Word := []
  deriving DecidableEq, Repr

/-- Whether a context holds the active bank of its core, has been switched out and still lies in the shadow bank, or
lies in its save area (R33, R179). -/
inductive Residency where
  | active | shadow | saved
  deriving DecidableEq, Repr

/-- A launch on a core: its scratchpad slice with presence counts and poison, barriers, descriptors, stage counter,
trap handler and queue, halo store, cell sets and tiles. -/
structure Ctx where
  launch : Nat
  core : Nat
  /-- The core's index in the launch's list (R182). -/
  index : Nat
  res : Residency := .active
  /-- Cycles since it was switched out, and cycles that it still keeps the active bank for its lowest team (R183). -/
  away : Nat := 0
  guard : Nat := 0
  guardTeam : Nat := 0
  /-- Where its slice and its block of barriers begin in the bank (R71, R111). -/
  scrBase : Nat := 0
  barBase : Nat := 0
  sliceBytes : Nat := 0
  scr : Map Byte := []
  /-- Engine writes pending on a line; a line is absent while its count is not 0 (R112). -/
  counts : Map Nat := []
  /-- Poisoned 32-byte granules of the slice. -/
  bad : List Nat := []
  bars : Map Barrier := []
  tds : Map (BitVec 256) := []
  stage : Nat := 0
  handler : Dword := 0
  trapq : List TrapRec := []
  /-- The trap being served by the handler group. -/
  serving : Option TrapRec := none
  hscr : Map Byte := []
  /-- Halo store: published values of neighbours not resident here, keyed by parity, cell and register (R55). -/
  halo : Map Word := []
  /-- Arrived pushes as (sending group, step, final) (R51, R47). -/
  arrived : List (Nat × Nat × Bool) := []
  /-- Running cell set, the number of sets, and a set whose spill has still to be made (R53, R58). -/
  set : Nat := 0
  sets : Nat := 1
  spilling : Option Nat := none
  tiles : Map Tile := []
  deriving DecidableEq, Repr

/-! ### Cores, islands, dies (R19, R20, R142 to R156) -/

/-- One group's part in a matrix operation: its tile, Z, its A fragment with qx4's scales, and the registers that the
operation reads once it is granted (R315). -/
structure MatPart where
  group : Nat
  tile : Nat
  z : Bool
  a : List Nat
  aScale : List Nat
  regs : List Nat
  deriving DecidableEq, Repr

/-- One queued or running matrix operation (R312 to R317): its parts in ascending partition order, and B; elements as
numbers in their format. -/
structure MatOp where
  launch : Nat
  parts : List MatPart
  b : List Nat
  bScale : List Nat
  afmt : Nat
  bfmt : Nat
  cycles : Nat
  /-- The MMAS thread that reads B, if any. -/
  thread : Option Nat := none
  /-- Its B or a scale was poisoned (R422). -/
  bad : Bool := false
  deriving DecidableEq, Repr

/-- A matrix unit (R147, R312, R431): waiting operations, the one under way with its cycles left, filler, fenced
sub-arrays and those whose last test failed; the sub-arrays whose test a failed row check has made due (R430). -/
structure MatUnit where
  queue : List MatOp := []
  busy : Option (MatOp × Nat) := none
  /-- It was busy until this cycle: the next operation needs no grant (R147). -/
  warm : Bool := false
  filler : Bool := false
  fenced : List Nat := []
  failed : List Nat := []
  testDue : List Nat := []
  deriving DecidableEq, Repr

/-- A core: %cyc, the active bank, the TLB's pages by context (R107), the mailbox (R413), and the cycles for which words
still take the issue slots of its partitions (R209).
Log 18: DESIGN CHOICE, unsafe. -/
structure CoreSt where
  cyc : Dword := 0
  bank : Nat := 0
  tlb : List (Nat × Nat) := []
  mailbox : Map Byte := []
  slots : Map Nat := []
  deriving DecidableEq, Repr

/-- The slew limiter of an island (R148 to R150): the cycle within the step, grants left, the level of the step before,
and the fillers of this one. `on` is false while the island is idle. -/
structure Slew where
  on : Bool := false
  cycle : Nat := 0
  grants : Nat := 0
  last : Nat := 0
  deriving DecidableEq, Repr

/-- An island (R142 to R156): control register, what has been written to it in this cycle (R343), allowance counter, the
first class that is withheld in this cycle (R146), this cycle's charges, clock and FLL target in
MHz, lease with its taking group and launch, and charges of this cycle that moved images bring (R154).
Log 18: DESIGN CHOICE, unsafe. -/
structure Island where
  ctl : Dword := 18
  ctlNext : Option Dword := none
  a : Int := 0
  level : Nat := 4
  charges : Nat := 0
  mhz : Nat := 850
  target : Nat := 850
  lease : Nat := 0
  holder : Option (Nat × Nat) := none
  /-- %lease has reached zero, or refreeze has begun: the lease ends and the trap is due, with its auxiliary. -/
  ending : Option Nat := none
  owed : Nat := 0
  /-- In this cycle: a SPRINT was considered that refreeze would have refused; a lease ended, which counts as held until
  the cycle's end (R156); and one more than the last partition, 16 × core + partition, that has issued (R175). -/
  granted : Bool := false
  ended : Bool := false
  reached : Nat := 0
  slew : Slew := {}
  deriving DecidableEq, Repr

/-- A die: %wall, its weight die's bytes (R320) and poisoned units, and whether it is fenced (R439).
Log 18: DESIGN CHOICE, unsafe. -/
structure Die where
  wall : Dword := 0
  weights : Map Byte := []
  badUnits : List Nat := []
  fenced : Bool := false
  deriving DecidableEq, Repr

/-! ### Memory in flight -/

/-- An atomic that has issued and is not yet performed (R119, R262, R264): its number, which its write will have, its
group and split, the lanes in whose program order it stands, its place and width in bytes, operation, operand and expected
value, the registers that take the old value and the request that its result waits for, the observers of its acquire and
its releases, its PC (R420), the word that made it, and the atomics of common bytes that come before it. -/
structure Atom where
  id : Nat
  group : Nat
  split : Nat
  lanes : Mask
  space : Space
  addr : Nat
  bytes : Nat
  op : Nat
  arg : Nat
  expected : Nat
  outs : List RegId
  req : Option Nat
  acq : Option Obs
  rels : List Rel
  pc : Dword
  word : Nat
  after : List Nat
  deriving DecidableEq, Repr

/-- A write to a Host location not yet completed at its memory (R122, R130): its number, physical address and bytes. -/
structure HostWrite where
  id : Nat := 0
  addr : Nat
  data : List Byte
  deriving DecidableEq, Repr

/-- A halo push in transit (R51): sending group (`srcKey`), receiving core-list entry, step, whether it is final (R48),
and the values for the receiving core's halo store. -/
structure Push where
  launch : Nat
  src : Nat
  dst : Nat
  step : Nat
  final : Bool
  vals : List (Nat × Word)
  deriving DecidableEq, Repr

/-- A returning or posted access to a peer (R330 to R332): the group, split, pending result, lane and destination
registers, the width as extension and bytes, %wall at issue and the limit it was issued with, and whether it has moved
to the escape channel (R435). -/
structure FabReq where
  group : Nat
  split : Nat
  pend : Nat
  regs : List RegId
  bytes : Nat
  signed : Bool
  returns : Bool
  /-- It writes at the target (R122); and the observers of its acquire, if it is one (R120, R332). -/
  writes : Bool
  acq : Option Obs
  strong : Bool
  lanes : Mask
  issued : Dword
  limit : Nat
  die : Nat
  /-- The word's PC and the physical address, for poison that its answer brings (R420). -/
  pc : Dword
  pa : Nat
  escaped : Bool := false
  /-- With no plane it never leaves the device, and nothing answers it (R349). -/
  sent : Bool := true
  /-- The late response of a request that timed out is discarded (R331). -/
  timedOut : Bool := false
  deriving DecidableEq, Repr

/-- A packet sent to the fabric: requests, responses and refusals, bulk data, parcels and acknowledgements, halo pushes.
`tag` is the request, thread or parcel it belongs to, `bad` its poison (R420), `plane` where a packet of a transfer goes,
and `parts` the export entries, offsets and lengths that it covers: two, where it crosses a page (R349). `lines` and
`refusedLines` answer a peer's FGET of which some lines are refused (R433), each from a byte of its request on. -/
inductive Packet where
  | request (dev tag xidx off : Nat) (op : PeerOp)
  | response (dev tag : Nat) (data : List Byte) (bad : Bool)
  | refusal (dev tag : Nat)
  | lines (dev tag off : Nat) (data : List Byte) (bad : List Nat)
  | refusedLines (dev tag off n : Nat)
  | bulk (dev tag : Nat) (plane : Option Nat) (parts : List (Nat × Nat × Nat)) (data : List Byte) (bad : List Nat) (bar : Option (Nat × Nat × Nat))
  | fetch (dev tag : Nat) (plane : Option Nat) (parts : List (Nat × Nat × Nat))
  | parcel (dev tag inbox len : Nat) (data : List Byte) (tags bad : List Nat)
  | parcelAck (dev tag : Nat)
  | parcelReturn (dev tag cause : Nat)
  | halo (dev : Nat) (p : Push)
  deriving DecidableEq, Repr

/-- The traffic classes of the fabric, each with a virtual channel of its own (R349). -/
inductive Channel where
  | request | response | halo | parcel
  deriving DecidableEq, Repr

/-- The class of a packet; what answers a packet is a response (R433). -/
def Packet.channel : Packet → Channel
  | .request .. | .bulk .. | .fetch .. => .request
  | .response .. | .refusal .. | .lines .. | .refusedLines .. => .response
  | .parcel .. | .parcelAck .. | .parcelReturn .. => .parcel
  | .halo .. => .halo

/-! ### Launches, queues, tables (chapters 8, 14) -/

/-- A pinned range (R162): first byte, length in 64 KiB units, writable. -/
structure Pin where
  base : Nat
  len : Nat
  wr : Bool
  deriving DecidableEq, Repr

/-- A kept translation of one 64 KiB page (R109): physical page address and W of its entry. -/
structure Kept where
  pa : Nat
  w : Bool
  deriving DecidableEq, Repr

/-- A core-list entry (R163). -/
structure CoreEntry where
  core : Nat
  dev : Nat
  cluster : Nat
  deriving DecidableEq, Repr

/-- The fields of a launch record (R159, R160). -/
structure Record where
  kind : Nat
  prio : Nat
  ndep : Nat
  npin : Nat
  tdn : Nat
  tiles : Nat
  tsize : Nat
  cw : Nat
  ch : Nat
  nteam : Nat
  scratch : Nat
  deps : List Nat
  pins : Nat
  save : Nat
  pbase : Nat
  psize : Nat
  savez : Nat
  handler : Nat
  compl : Nat
  tdpre : Nat
  sched : Nat
  nsched : Nat
  nbar : Nat
  entry : Nat
  args : List Nat
  ext : List Nat
  bmode : List Nat
  patch : List Nat
  e : Nat
  v : Nat
  ctile : List Nat
  face : List Nat
  clist : Nat
  ncore : Nat
  /-- A reserved field holds a nonzero bit (R168). -/
  reserved : Bool
  deriving DecidableEq, Repr

/-- A launch that has been admitted and has not completed (R169 to R174). -/
structure Launch where
  r : Record
  queue : Nat
  rslot : Nat
  /-- Physical address of the record, for STATUS. -/
  addr : Nat
  cores : List CoreEntry
  pins : List Pin
  pages : Map Kept
  started : Nat := 0
  ended : List Nat := []
  /-- Writes visible to every access of the launch from its admission on (R167, R344), and those it has made (R174). -/
  seen : List Nat := []
  made : List Nat := []
  /-- Tiles allotted to teams that have not ended: team, core, unit (R68). -/
  allots : List (Nat × Nat × Nat) := []
  /-- A fault was seen: STATUS takes STATE 4 (R403, R415, R440). -/
  faulted : Bool := false
  /-- It has lost a die: its barriers of a scope above core are degraded (R440). -/
  degraded : Bool := false
  /-- Ended by fault: no group issues any more. -/
  stopped : Bool := false
  /-- Failed assertions not yet answered by RFT (R412), and HALT of the monitor (R414). -/
  asserts : Nat := 0
  halted : Bool := false
  /-- ONEWORD lets one split issue one word (R414): group, split, and whether the word has issued. -/
  oneword : Option (Nat × Nat × Bool) := none
  deriving DecidableEq, Repr

/-- What the checks of admission find for the head of a queue (R168): the reason that refuses it, or its core list, pins
and translations. -/
structure Checked where
  reason : Option Nat
  cores : Option (List CoreEntry)
  pins : List Pin
  pages : Map Kept
  deriving DecidableEq, Repr

/-- A launch queue (R344): the registers of its block, and the head record's copy (R157). -/
structure Queue where
  base : Nat := 0
  en : Bool := false
  irq : Bool := false
  err : Bool := false
  log : Nat := 0
  head : Nat := 0
  tail : Nat := 0
  copied : Option (List Byte) := none
  /-- Host writes made before the last tail write (R344). -/
  told : List Nat := []
  deriving DecidableEq, Repr

/-- A slot's state word (R133). -/
structure Slot where
  gen : Nat := 1
  st : Nat := 0
  cause : Nat := 0
  len : Nat := 0
  deriving DecidableEq, Repr

/-- The host-visible registers of BAR0 that have no other home (R343, R346, R349, R350, R352, R447).
Log 18: DESIGN CHOICE, unsafe. -/
structure Regs where
  devid : Nat := 0x5E1F0160
  fwver : Nat := 0
  rdy : List Nat := [0, 0, 0, 0]
  tbase : Nat := 0
  apbase : Nat := 0
  devno : Nat := 0
  fabEn : Bool := false
  fabDup : Bool := false
  /-- Planes that refused the device number (R349). -/
  fabRefused : Nat := 0
  ftlimit : Nat := 0xF4240
  hkacct : Nat := 0
  ckctl : Nat := 0
  ckcount : Nat := 0
  tent : Nat := 0
  tcmd : Nat := 0
  tstat : Nat := 0
  /-- The nonce, 32 bytes; the start word; the nonce that the report being formed uses; report and signatures, bytes by
  offset in the block (R354). -/
  nonce : Map Byte := []
  attStart : Bool := false
  attNonce : List Byte := []
  report : Map Byte := []
  cxl : Map Byte := []
  link : Option LinkMode := none
  deriving DecidableEq, Repr

/-! ### The machine -/

/-- What a word's meaning sees: group key and entry, the group as it stands and as the word reads it, the split as it
stands, its launch and context. -/
structure Iss where
  key : Nat
  j : Nat
  own : Group
  g : Group
  sp : Split
  l : Launch
  c : Ctx
  deriving DecidableEq, Repr

/-- A load whose read may still be made later than its word issued, for nothing after it in its lanes' program order comes
after it (R120): the number of its result, the word, what the word saw, and the places it reads. -/
structure Late where
  id : Nat
  i : Instr
  it : Iss
  places : List (Space × Nat × Nat)
  deriving DecidableEq, Repr

/-- Where an error that cannot be corrected befalls data (R419): a register of a group, an entry of its split table, an
element of a tile, a granule of a slice, a private line in L1, a granule of memory of any kind, a unit of a weight die. -/
inductive Damage where
  | reg (g : Nat) (r : RegId)
  | split (g sp : Nat)
  | elem (launch core tile i : Nat)
  | scr (launch core off : Nat)
  | line (g word : Nat)
  | mem (pa : Nat)
  | weights (die unit : Nat)
  deriving DecidableEq, Repr

/-- What moves next (DESIGN CHOICE, log 3, unsafe for one run): a word of a split, or an event. -/
inductive Turn where
  | issue (g sp : Nat)
  | event (i : Instr)
  /-- Which writes the reads and the writes of the turns after this one go behind (R119, R124). -/
  | reads (older : Map (List Nat))
  /-- The read of an outstanding load, by the number of its result, is made only now (R120). -/
  | late (id : Nat)
  /-- A line of a group's private memory, by its first word, is evicted (R113). -/
  | evict (g word : Nat)
  /-- The host reads n bytes of BAR0 (R343). -/
  | register (off n : Nat)
  /-- A CXL device returns poison on reads of a line (R443). -/
  | poison (pa : Nat)
  /-- Another host that shares the pool pushes a write to it (R130). -/
  | pool (pa : Nat) (data : List Byte)
  /-- A peer takes back a parcel that is landing here, which its sender returns with cause 5 (R136, R440). -/
  | abandon (dev tag : Nat)
  /-- Firmware maps a virtual die on other cores, whose counters then read these values (R184, R185). -/
  | remap (die : Nat) (cyc : List Nat) (wall : Nat)
  /-- A soft error befalls the safe region (R449). -/
  | regionError
  /-- An error that cannot be corrected befalls a store of data (R419). -/
  | softError (p : Damage)
  /-- The last word of a split, whose timing the spec leaves open, holds the split up for n more cycles (R255). -/
  | stall (g sp n : Nat)
  deriving DecidableEq, Repr

/-- What a checkpoint keeps in the safe region (R448). -/
structure Saved where
  mem : List Host.Cell
  tags : List Nat
  bad : List Nat
  groups : Map Group
  ctxs : Map Ctx
  launches : Map Launch
  threads : Map Thread
  queues : Map Queue
  arenas : Map (BitVec 128)
  exports : Map (BitVec 128)
  exportPages : Map Kept
  imports : Map Dword
  slots : Map Slot
  inboxes : Map (List Nat)
  islands : Map Island
  units : Map MatUnit
  tbase : Nat
  dies : Nat
  /-- There is a soft error in the region, which a restore finds (R449). -/
  softError : Bool := false
  deriving DecidableEq, Repr

/-- The state of the module. -/
structure State where
  groups : Map Group := []
  ctxs : Map Ctx := []
  cores : Map CoreSt := []
  /-- Matrix units keyed 4 × core + unit. -/
  units : Map MatUnit := []
  islands : Map Island := []
  dies : Map Die := []
  launches : Map Launch := []
  threads : Map Thread := []
  /-- Physical memory (R103): what an unlisted address reads as is `memDefault`. -/
  mem : List Host.Cell := []
  /-- Addresses of the tagged 32-bit words of HBM (R135), and poisoned 32-byte granules (R419), rising. -/
  tags : List Nat := []
  bad : List Nat := []
  stores : List Store := []
  atoms : List Atom := []
  /-- Every write performed since reset, newest first: the coherence order (R119); and the next write's number. -/
  hist : List Wr := []
  nextWrite : Nat := 0
  /-- The `.ar` fences so far, with the writes visible to them (R123); the releases that transaction barriers have
  counted, by place (R279); those that popped handles bring, by handle (R139). -/
  fences : List Rel := []
  tbRels : List (Space × Nat × Counted) := []
  handleRels : Map Rel := []
  hostWrites : List HostWrite := []
  pushes : List Push := []
  fabReqs : Map FabReq := []
  /-- Accesses of the host through BAR2 to a peer that are not answered: the bytes that a read asked for, 0 for a write
  (R342). -/
  hostReqs : Map Nat := []
  fabricOut : List Packet := []
  arenas : Map (BitVec 128) := []
  exports : Map (BitVec 128) := []
  exportPages : Map Kept := []
  imports : Map Dword := []
  /-- Slot states keyed 2^32 × arena + index. -/
  slots : Map Slot := []
  /-- Receiving slots that a peer's parcel is landing in: (device, parcel, arena, slot). -/
  landings : List (Nat × Nat × Nat × Nat) := []
  inboxes : Map (List Nat) := []
  queues : Map Queue := []
  regs : Regs := {}
  msix : List Nat := []
  /-- What the last BAR2 or BAR0 read returned to the host. -/
  hostRead : List Byte := []
  melt : Nat := 0
  refreeze : Bool := false
  gate : Bool := false
  /-- %wall of die 0 at which the interval began whose end ends a thermal gate (R445). -/
  coolFrom : Dword := 0
  failedLinks : List Link := []
  /-- CXL ports that have failed since they were last ready (R443). -/
  cxlDown : List Nat := []
  heldExtents : List (Nat × Nat) := []
  saved : Option Saved := none
  /-- Since the last device reset, no restore has been made yet (R449). -/
  fresh : Bool := true
  /-- The model's own fields: what moves next, the split that issues, the island whose cycle is next, the next launch
  number, the next number of a thread, request or pending result, and the counter of free values (log 3, log 21). -/
  agenda : List Turn := []
  /-- The writes that the reads and the writes of the next steps go behind, where R119 and R124 let them, by lane, line or
  write (log 2). -/
  older : Map (List Nat) := []
  /-- Loads whose reads may still be made later (log 2). -/
  loads : List Late := []
  cur : Nat := 0
  curSplit : Nat := 0
  turn : Nat := 0
  nextLaunch : Nat := 0
  nextId : Nat := 0
  free : Nat := 0
  deriving DecidableEq, Repr

/-- The machine right after reset (R9, R21, R62, R142, R344, R350): every sparse part lists nothing, which reads as the
part's reset value, and every register of `regs` and of the queues has the value of its Reset column.
Log 13: DESIGN CHOICE, safe. Log 18: DESIGN CHOICE, unsafe. -/
def State.reset : State := {}

/-- What a byte of physical memory that nothing has written reads as: no value is stated (log 1).
Log 1: DESIGN CHOICE, unsafe. -/
def memDefault : Byte := 0

/-- Why a step can stop without a next state. Log 3: DESIGN CHOICE, unsafe. -/
inductive Fault where
  /-- A host access to a physical address that R103 does not map. Raised by HOST_BAR2_ACCESS. Safe. -/
  | noMemory
  deriving DecidableEq, Repr

/-- Why an instruction has no meaning. -/
inductive Refusal where
  /-- Rejected by name, in an arm of `exec`. Raised by nothing once every arm has its meaning. Safe. -/
  | notModelled (mnemonic : String)
  deriving DecidableEq, Repr

end Sys2Proof.Machine
end

