-- ==== Sys2Proof/Machine/Flags.lean ====
section
/-!
DEFINITION. Every flag computation of the spec (R65, R210) and the tests of C words (R197).
-/

namespace Sys2Proof.Machine

open Sys2Proof

/-- Z and N of an integer result of w bits (R210). -/
def flagsZN (w r : Nat) : FlagUpd := { z := some (r % 2 ^ w == 0), n := some (bit r (w - 1)) }

/-- Integer add: carry out of the top bit, signed overflow (R65), Z and N of the sum before any clamp (R77). -/
def flagsAdd (w a b : Nat) : FlagUpd :=
  { flagsZN w (a + b) with
    c := some (decide (2 ^ w ≤ a % 2 ^ w + b % 2 ^ w))
    v := some (satInt w true (sext w a + sext w b) != sext w a + sext w b) }

/-- Integer subtract, a + ~b + 1: C = 1 means no borrow (R65); Z and N of the difference before any clamp (R77). -/
def flagsSub (w a b : Nat) : FlagUpd :=
  { flagsZN w (a % 2 ^ w + (2 ^ w - 1 - b % 2 ^ w) + 1) with
    c := some (decide (2 ^ w ≤ a % 2 ^ w + (2 ^ w - 1 - b % 2 ^ w) + 1))
    v := some (satInt w true (sext w a - sext w b) != sext w a - sext w b) }

/-- IMUL, IMAD, MULI: C and V when the exact value x lies outside the type (R210); Z and N of x before any clamp
(R77). -/
def flagsMul (t : Ty) (x : Int) : FlagUpd :=
  { flagsZN (tyWidth t) (wrap (tyWidth t) x) with c := some (outside t x), v := some (outside t x) }

/-- IDIV: C = 0, V for B = 0 or the lowest value ÷ −1 (R210). -/
def flagsDiv (t : Ty) (a b r : Nat) : FlagUpd :=
  { flagsZN (tyWidth t) r with
    c := some false
    v := some (intOf t b == 0
      || (tySigned t && intOf t b == -1 && intOf t a == -((2 ^ (tyWidth t - 1) : Nat) : Int))) }

/-- SHL, SHR, SAR: the last bit shifted out (R210). -/
def flagsShift (left arith : Bool) (w x a r : Nat) : FlagUpd :=
  { flagsZN w r with c := some (shiftCarry left arith w x a) }

/-- ROT: bit 0 of the result, 0 when the amount is a multiple of w (R210). -/
def flagsRot (w a r : Nat) : FlagUpd := { flagsZN w r with c := some (a % w != 0 && bit r 0) }

/-- A float result: ±0, sign, NaN (R210). -/
def flagsFloat (f : Fmt) (r : Nat) : FlagUpd :=
  { z := some (f.read r).isZero, n := some (bit r (f.ebits + f.fbits)), v := some (f.read r).isNan }

/-- The flags of a result by its type: float types as floats, the others as integers (R210). -/
def flagsOf (t : Ty) (r : Nat) : FlagUpd := if t.isFloat then flagsFloat (tyFmt t) r else flagsZN (tyWidth t) r

/-- A condition-code test of a C word, codes 0 to 13 (R65, R197, R283). -/
def ccTest (f : Flags) (code : Nat) : Bool :=
  match code with
  | 0 => f.z | 1 => !f.z | 2 => f.n | 3 => !f.n | 4 => f.c | 5 => !f.c | 6 => f.v | 7 => !f.v
  | 8 => f.n != f.v | 9 => f.n == f.v | 10 => f.z || f.n != f.v | 11 => !f.z && f.n == f.v | 12 => f.e | _ => !f.e

end Sys2Proof.Machine
end

