-- ==== Sys2Proof/Decode.lean ====
section
/-!
DEFINITION. Decoding and encoding of the four word formats (R186 to R206). `decodeWord` is total on 64-bit words: it
reads the fields of the word's format, builds the instruction, and refuses by the cause of R207, 0x01 before 0x02. A
bit that a word must hold at 0 has no place in the typed instruction; a word that sets one is not what `encode` gives
back, and that is how such bits are refused (cause 0x02).
-/

namespace Sys2Proof

/-! ### Fields -/

def Ty.ofCode (n : Nat) : Ty :=
  match n with
  | 0 => .i32 | 1 => .n32 | 2 => .i64 | 3 => .n64 | 4 => .f32 | 5 => .f64 | 6 => .f16x2 | 7 => .bf16x2
  | 8 => .i16x2 | 9 => .n16x2 | 10 => .i8x4 | 11 => .n8x4 | 12 => .e4m3x4 | 13 => .e5m2x4 | 14 => .reserved14
  | _ => .reserved15

def Rm.code : Rm → Nat
  | .rne => 0 | .rz => 1 | .rdn => 2 | .rup => 3

def Rm.ofCode (n : Nat) : Rm :=
  match n with
  | 0 => .rne | 1 => .rz | 2 => .rdn | _ => .rup

def Width.ofCode (n : Nat) : Width :=
  match n with
  | 0 => .n8 | 1 => .i8 | 2 => .n16 | 3 => .i16 | 4 => .w32 | 5 => .w64 | 6 => .w128 | _ => .reserved

def Order.ofCode (n : Nat) : Order :=
  match n with
  | 0 => .plain | 1 => .strong | 2 => .acq | 3 => .rel | 4 => .ar | 5 => .reserved5 | 6 => .reserved6
  | _ => .reserved7

def Hint.ofCode (n : Nat) : Hint :=
  match n with
  | 0 => .normal | 1 => .stream | 2 => .keep | 3 => .bypass | 4 => .reserved4 | 5 => .reserved5 | 6 => .reserved6
  | _ => .reserved7

def Scope.code : Scope → Nat
  | .core => 0 | .cluster => 1 | .die => 2 | .pkg => 3

def Scope.ofCode (n : Nat) : Scope :=
  match n with
  | 0 => .core | 1 => .cluster | 2 => .die | _ => .pkg

/-- OBS in seven bits: bit 6 is k, then d, e, y, x, f and h (R192). -/
def Obs.code (o : Obs) : Nat :=
  64 * b2n o.k + 32 * b2n o.d + 16 * b2n o.e + 8 * b2n o.y + 4 * b2n o.x + 2 * b2n o.f + b2n o.h

def Obs.ofCode (n : Nat) : Obs := ⟨bit n 6, bit n 5, bit n 4, bit n 3, bit n 2, bit n 1, bit n 0⟩

/-- The n-bit field of a signed number, and back. -/
def sfield (n : Nat) (x : Int) : Nat := wrap n x

def Src.code : Src → Nat
  | .v n => n
  | .s n => 256 + n
  | .nb dir k => 512 + 32 * dir + k
  | .imm i => 768 + sfield 8 i

def Src.ofCode (x : Nat) : Src :=
  match bits x 9 8 with
  | 0 => .v (bits x 7 0)
  | 1 => .s (bits x 7 0)
  | 2 => .nb (bits x 7 5) (bits x 4 0)
  | _ => .imm (sext 8 x)

def Dst.code : Dst → Nat
  | .v n => n
  | .s n => 256 + n
  | .nb n => 512 + n
  | .m n => 768 + n

def Dst.ofCode (x : Nat) : Dst :=
  match bits x 9 8 with
  | 0 => .v (bits x 7 0)
  | 1 => .s (bits x 7 0)
  | 2 => .nb (bits x 7 0)
  | _ => .m (bits x 7 0)

def RReg.code : RReg → Nat
  | .v n => n
  | .s n => 256 + n
  | .reserved n => 512 + n
  | .m n => 768 + n

def RReg.ofCode (x : Nat) : RReg :=
  match bits x 9 8 with
  | 0 => .v (bits x 7 0)
  | 1 => .s (bits x 7 0)
  | 2 => .reserved (bits x 7 0)
  | _ => .m (bits x 7 0)

/-! ### X16 and X8 layouts -/

def XArith.code (x : XArith) : Nat :=
  4096 * x.ty.code + 1024 * x.rm.code + 512 * b2n x.sat + 256 * b2n x.cc + 128 * b2n x.negA + 64 * b2n x.absA
  + 32 * b2n x.negB + 16 * b2n x.absB + x.opx

def XArith.ofCode (n : Nat) : XArith :=
  ⟨.ofCode (bits n 15 12), .ofCode (bits n 11 10), bit n 9, bit n 8, bit n 7, bit n 6, bit n 5, bit n 4, bits n 3 0⟩

def XCvt.code (x : XCvt) : Nat :=
  4096 * x.ty.code + 1024 * x.rm.code + 512 * b2n x.sat + 256 * b2n x.cc + 16 * x.sty.code + x.opx

def XCvt.ofCode (n : Nat) : XCvt :=
  ⟨.ofCode (bits n 15 12), .ofCode (bits n 11 10), bit n 9, bit n 8, .ofCode (bits n 7 4), bits n 3 0⟩

def XMem.code (x : XMem) : Nat := 8192 * x.w.code + 1024 * x.ord.code + 8 * x.obs.code + x.hint.code

def XMem.ofCode (n : Nat) : XMem :=
  ⟨.ofCode (bits n 15 13), .ofCode (bits n 12 10), .ofCode (bits n 9 3), .ofCode (bits n 2 0)⟩

def XBar.code (x : XBar) : Nat := 16384 * x.scope.code + 1024 * x.ord.code + 8 * x.obs.code

def XBar.ofCode (n : Nat) : XBar := ⟨.ofCode (bits n 15 14), .ofCode (bits n 12 10), .ofCode (bits n 9 3)⟩

def XTb.code (x : XTb) : Nat := 1024 * x.ord.code + 8 * x.obs.code

def XTb.ofCode (n : Nat) : XTb := ⟨.ofCode (bits n 12 10), .ofCode (bits n 9 3)⟩

def XMma.code (x : XMma) : Nat := 4096 * x.afmt + 256 * x.bfmt + 16 * x.tag + b2n x.z

def XMma.ofCode (n : Nat) : XMma := ⟨bits n 15 12, bits n 11 8, bits n 7 4, bit n 0⟩

def XCpy.code (x : XCpy) : Nat := 16384 * x.dir + x.hint

def XCpy.ofCode (n : Nat) : XCpy := ⟨bits n 15 14, bits n 2 0⟩

def XCpyt.code (x : XCpyt) : Nat := 32768 * b2n x.cv + 2048 * x.dfmt + 512 * x.dkind

def XCpyt.ofCode (n : Nat) : XCpyt := ⟨bit n 15, bits n 14 11, bits n 10 9⟩

def XGpool.code (x : XGpool) : Nat := 4096 * x.ofmt + 1024 * x.okind + x.mode

def XGpool.ofCode (n : Nat) : XGpool := ⟨bits n 15 12, bits n 11 10, bits n 2 0⟩

def XImm.code (x : XImm) : Nat := 16 * x.ty.code + 8 * b2n x.sat + 4 * b2n x.cc

def XImm.ofCode (n : Nat) : XImm := ⟨.ofCode (bits n 7 4), bit n 3, bit n 2⟩

/-! ### Words from fields -/

/-- An F word of opcode `op` with X16 `x` (R187). -/
def encF {χ : Type} (op : Nat) (w : FWord χ) (x : Nat) : Nat :=
  2 ^ 54 * op + 2 ^ 51 * w.p.msel + 2 ^ 50 * b2n w.p.minv + 2 ^ 46 * w.la + 2 ^ 36 * w.d.code + 2 ^ 26 * w.a.code
  + 2 ^ 16 * w.b.code + x

/-- The same with a tile in D (R188). -/
def encT {χ : Type} (op : Nat) (w : TWord χ) (x : Nat) : Nat :=
  2 ^ 54 * op + 2 ^ 51 * w.p.msel + 2 ^ 50 * b2n w.p.minv + 2 ^ 46 * w.la + 2 ^ 36 * w.t + 2 ^ 26 * w.a.code
  + 2 ^ 16 * w.b.code + x

/-- An I word (R195). -/
def encI {χ : Type} (op : Nat) (w : IWord χ) (x : Nat) : Nat :=
  2 ^ 63 + 2 ^ 54 * op + 2 ^ 51 * w.p.msel + 2 ^ 50 * b2n w.p.minv + 2 ^ 40 * w.d.code + 2 ^ 32 * x + w.imm

/-- A C word (R196): COND6, AUX18, DISP32. -/
def encC (cop cond aux : Nat) (disp : Int) : Nat :=
  2 ^ 63 + 2 ^ 62 + 2 ^ 56 * cop + 2 ^ 50 * cond + 2 ^ 32 * aux + sfield 32 disp

def CCond.code : CCond → Nat
  | .always => 0
  | .cc n => 16 + n
  | .mask s n => 32 + 8 * b2n s + n
  | .reserved n => 48 + n

def CCond.ofCode (x : Nat) : CCond :=
  match bits x 5 4 with
  | 0 => .always
  | 1 => .cc (bits x 3 0)
  | 2 => .mask (bit x 3) (bits x 2 0)
  | _ => .reserved (bits x 3 0)

def POp.code : POp → Nat
  | .nop => 0 | .mov => 1 | .iadd => 2 | .isub => 3 | .imul => 4 | .and => 5 | .or => 6 | .xor => 7 | .andn => 8
  | .shl => 9 | .shr => 10 | .sar => 11 | .imin => 12 | .imax => 13 | .fadd => 14 | .fsub => 15 | .fmul => 16
  | .fmin => 17 | .fmax => 18

def POp.ofCode (n : Nat) : Option POp :=
  match n with
  | 0 => some .nop | 1 => some .mov | 2 => some .iadd | 3 => some .isub | 4 => some .imul | 5 => some .and
  | 6 => some .or | 7 => some .xor | 8 => some .andn | 9 => some .shl | 10 => some .shr | 11 => some .sar
  | 12 => some .imin | 13 => some .imax | 14 => some .fadd | 15 => some .fsub | 16 => some .fmul | 17 => some .fmin
  | 18 => some .fmax
  | _ => none

def PSrc.code : PSrc → Nat
  | .v n => n
  | .s n => 128 + n
  | .imm i => (i + 336).toNat
  | .reserved n => n

def PSrc.ofCode (x : Nat) : PSrc :=
  if x < 128 then .v x else if x < 320 then .s (x - 128) else if x < 352 then .imm ((x : Int) - 336) else .reserved x

/-- A P slot of 31 bits (R193). -/
def PSlot.code (t : PSlot) : Nat :=
  2 ^ 25 * t.op.code + 2 ^ 18 * t.args.d7 + 2 ^ 9 * t.args.s9.code + 2 ^ 6 * t.args.msel + 2 ^ 5 * b2n t.args.sat

def PArgs.ofCode (x : Nat) : PArgs := ⟨bits x 24 18, .ofCode (bits x 17 9), bits x 8 6, bit x 5⟩

/-- A P word of two slots (R193). -/
def encP (op : POp) (a : PArgs) (t : PSlot) : Nat := 2 ^ 62 + 2 ^ 31 * (⟨op, a⟩ : PSlot).code + t.code

/-! ### Fields of a word -/

def fwOf {χ : Type} (w : Nat) (x : χ) : FWord χ :=
  ⟨⟨bits w 53 51, bit w 50⟩, bits w 49 46, .ofCode (bits w 45 36), .ofCode (bits w 35 26), .ofCode (bits w 25 16), x⟩

def twOf {χ : Type} (w : Nat) (x : χ) : TWord χ :=
  ⟨⟨bits w 53 51, bit w 50⟩, bits w 49 46, bits w 45 36, .ofCode (bits w 35 26), .ofCode (bits w 25 16), x⟩

def iwOf {χ : Type} (w : Nat) (x : χ) : IWord χ :=
  ⟨⟨bits w 53 51, bit w 50⟩, .ofCode (bits w 49 40), x, bits w 31 0⟩

/-! ### Opcode maps -/

/-- The F map (R203): OP8 to the instruction with the word's fields; a reserved value gives none. -/
def decodeF (op w : Nat) : Option Instr :=
  match op with
  | 0x01 => some .nop
  | 0x02 => some (.mov (fwOf w (.ofCode (bits w 15 0))))
  | 0x03 => some (.sel (fwOf w (.ofCode (bits w 15 0))))
  | 0x04 => some (.iadd (fwOf w (.ofCode (bits w 15 0))))
  | 0x05 => some (.isub (fwOf w (.ofCode (bits w 15 0))))
  | 0x06 => some (.imul (fwOf w (.ofCode (bits w 15 0))))
  | 0x07 => some (.imulh (fwOf w (.ofCode (bits w 15 0))))
  | 0x08 => some (.imad (fwOf w (.ofCode (bits w 15 0))))
  | 0x09 => some (.idiv (fwOf w (.ofCode (bits w 15 0))))
  | 0x0A => some (.imin (fwOf w (.ofCode (bits w 15 0))))
  | 0x0B => some (.imax (fwOf w (.ofCode (bits w 15 0))))
  | 0x0C => some (.iabs (fwOf w (.ofCode (bits w 15 0))))
  | 0x0D => some (.lea (fwOf w (.ofCode (bits w 15 0))))
  | 0x0E => some (.and (fwOf w (.ofCode (bits w 15 0))))
  | 0x0F => some (.or (fwOf w (.ofCode (bits w 15 0))))
  | 0x10 => some (.xor (fwOf w (.ofCode (bits w 15 0))))
  | 0x11 => some (.andn (fwOf w (.ofCode (bits w 15 0))))
  | 0x12 => some (.shl (fwOf w (.ofCode (bits w 15 0))))
  | 0x13 => some (.shr (fwOf w (.ofCode (bits w 15 0))))
  | 0x14 => some (.sar (fwOf w (.ofCode (bits w 15 0))))
  | 0x15 => some (.rot (fwOf w (.ofCode (bits w 15 0))))
  | 0x16 => some (.popc (fwOf w (.ofCode (bits w 15 0))))
  | 0x17 => some (.clz (fwOf w (.ofCode (bits w 15 0))))
  | 0x18 => some (.brev (fwOf w (.ofCode (bits w 15 0))))
  | 0x19 => some (.bfe (fwOf w (.ofCode (bits w 15 0))))
  | 0x1A => some (.bfi (fwOf w (.ofCode (bits w 15 0))))
  | 0x1B => some (.icmp (fwOf w (.ofCode (bits w 15 0))))
  | 0x20 => some (.fadd (fwOf w (.ofCode (bits w 15 0))))
  | 0x21 => some (.fsub (fwOf w (.ofCode (bits w 15 0))))
  | 0x22 => some (.fmul (fwOf w (.ofCode (bits w 15 0))))
  | 0x23 => some (.ffma (fwOf w (.ofCode (bits w 15 0))))
  | 0x24 => some (.fmin (fwOf w (.ofCode (bits w 15 0))))
  | 0x25 => some (.fmax (fwOf w (.ofCode (bits w 15 0))))
  | 0x26 => some (.fcmp (fwOf w (.ofCode (bits w 15 0))))
  | 0x27 => some (.frnd (fwOf w (.ofCode (bits w 15 0))))
  | 0x28 => some (.frcp (fwOf w (.ofCode (bits w 15 0))))
  | 0x29 => some (.frsq (fwOf w (.ofCode (bits w 15 0))))
  | 0x2A => some (.fsqrt (fwOf w (.ofCode (bits w 15 0))))
  | 0x2B => some (.fdiv (fwOf w (.ofCode (bits w 15 0))))
  | 0x2C => some (.fexp2 (fwOf w (.ofCode (bits w 15 0))))
  | 0x2D => some (.flog2 (fwOf w (.ofCode (bits w 15 0))))
  | 0x2E => some (.fsin (fwOf w (.ofCode (bits w 15 0))))
  | 0x2F => some (.fcos (fwOf w (.ofCode (bits w 15 0))))
  | 0x30 => some (.fclass (fwOf w (.ofCode (bits w 15 0))))
  | 0x31 => some (.fdot2 (fwOf w (.ofCode (bits w 15 0))))
  | 0x38 => some (.cvt (fwOf w (.ofCode (bits w 15 0))))
  | 0x39 => some (.cvtq (fwOf w (.ofCode (bits w 15 0))))
  | 0x3A => some (.cvtqd (fwOf w (.ofCode (bits w 15 0))))
  | 0x3B => some (.pack (fwOf w (.ofCode (bits w 15 0))))
  | 0x3C => some (.unpack (fwOf w (.ofCode (bits w 15 0))))
  | 0x40 => some (.shfl (fwOf w (.ofCode (bits w 15 0))))
  | 0x41 => some (.shflx (fwOf w (.ofCode (bits w 15 0))))
  | 0x42 => some (.bcst (fwOf w (.ofCode (bits w 15 0))))
  | 0x43 => some (.vote (fwOf w (.ofCode (bits w 15 0))))
  | 0x44 => some (.matchl (fwOf w (.ofCode (bits w 15 0))))
  | 0x45 => some (.redl (fwOf w (.ofCode (bits w 15 0))))
  | 0x46 => some (.scanl (fwOf w (.ofCode (bits w 15 0))))
  | 0x47 => some (.firstl (fwOf w (.ofCode (bits w 15 0))))
  | 0x48 => some (.mtos (fwOf w (.ofCode (bits w 15 0))))
  | 0x49 => some (.stom (fwOf w (.ofCode (bits w 15 0))))
  | 0x50 => some .step
  | 0x51 => some (.stepq (fwOf w (bit w 8)))
  | 0x58 => some (.sread (fwOf w (bits w 7 0)))
  | 0x59 => some (.swrite (fwOf w (bits w 7 0)))
  | 0x5A => some (.xread (fwOf w (.ofCode (bits w 9 0))))
  | 0x5B => some (.xwrite (fwOf w (.ofCode (bits w 9 0))))
  | 0x5C => some (.sprint (fwOf w (bit w 8)))
  | 0x5D => some (.sprel (fwOf w ()))
  | 0x5E => some (.assertw (fwOf w ()))
  | 0x5F => some (.bkpt (fwOf w (bits w 15 0)))
  | 0x60 => some (.yieldw (fwOf w (bits w 7 0)))
  | 0x61 => some (.tdset (fwOf w ()))
  | 0x62 => some (.tdget (fwOf w ()))
  | 0x80 => some (.ld (fwOf w (.ofCode (bits w 15 0))))
  | 0x81 => some (.st (fwOf w (.ofCode (bits w 15 0))))
  | 0x82 => some (.lds (fwOf w (.ofCode (bits w 15 0))))
  | 0x83 => some (.sts (fwOf w (.ofCode (bits w 15 0))))
  | 0x84 => some (.ldl (fwOf w (.ofCode (bits w 15 0))))
  | 0x85 => some (.stl (fwOf w (.ofCode (bits w 15 0))))
  | 0x86 => some (.ldu (fwOf w (.ofCode (bits w 15 0))))
  | 0x87 => some (.stu (fwOf w (.ofCode (bits w 15 0))))
  | 0x88 => some (.ldt (fwOf w (.ofCode (bits w 15 0))))
  | 0x89 => some (.stt (fwOf w (.ofCode (bits w 15 0))))
  | 0x8A => some (.pref (fwOf w (.ofCode (bits w 15 0))))
  | 0x8B => some (.fence (fwOf w (.ofCode (bits w 15 0))))
  | 0x90 => some (.atom (fwOf w (.ofCode (bits w 15 0))))
  | 0x91 => some (.atomn (fwOf w (.ofCode (bits w 15 0))))
  | 0x92 => some (.atoms (fwOf w (.ofCode (bits w 15 0))))
  | 0x93 => some (.atomsn (fwOf w (.ofCode (bits w 15 0))))
  | 0x94 => some (.atomu (fwOf w (.ofCode (bits w 15 0))))
  | 0xA0 => some (.bar (fwOf w (.ofCode (bits w 15 0))))
  | 0xA1 => some (.bara (fwOf w (.ofCode (bits w 15 0))))
  | 0xA2 => some (.barw (fwOf w (.ofCode (bits w 15 0))))
  | 0xA3 => some (.tbinit (fwOf w (.ofCode (bits w 15 0))))
  | 0xA4 => some (.tbarr (fwOf w (.ofCode (bits w 15 0))))
  | 0xA5 => some (.tbexp (fwOf w (.ofCode (bits w 15 0))))
  | 0xA6 => some (.tbwait (fwOf w (.ofCode (bits w 15 0))))
  | 0xA7 => some (.tbtest (fwOf w (.ofCode (bits w 15 0))))
  | 0xB0 => some (.cpy (fwOf w (.ofCode (bits w 15 0))))
  | 0xB1 => some (.cpyc (fwOf w ()))
  | 0xB2 => some (.cpyt (fwOf w (.ofCode (bits w 15 0))))
  | 0xB3 => some (.stage (fwOf w ()))
  | 0xB4 => some (.gpool (fwOf w (.ofCode (bits w 15 0))))
  | 0xB5 => some (.scata (fwOf w ()))
  | 0xB8 => some (.fld (fwOf w (.ofCode (bits w 15 0))))
  | 0xB9 => some (.fst (fwOf w (.ofCode (bits w 15 0))))
  | 0xBA => some (.fput (fwOf w ()))
  | 0xBB => some (.fget (fwOf w ()))
  | 0xBC => some (.fatom (fwOf w (.ofCode (bits w 15 0))))
  | 0xBD => some (.fatomn (fwOf w (.ofCode (bits w 15 0))))
  | 0xC0 => some (.palloc (fwOf w ()))
  | 0xC1 => some (.pfree (fwOf w ()))
  | 0xC2 => some (.paddr (fwOf w ()))
  | 0xC3 => some (.ldp (fwOf w (.ofCode (bits w 15 0))))
  | 0xC4 => some (.stp (fwOf w (.ofCode (bits w 15 0))))
  | 0xC5 => some (.stpr (fwOf w (.ofCode (bits w 15 0))))
  | 0xC6 => some (.post (fwOf w (.ofCode (bits w 15 0))))
  | 0xC7 => some (.precv (fwOf w (.ofCode (bits w 15 0))))
  | 0xC8 => some (.pstat (fwOf w ()))
  | 0xD0 => some (.mma (twOf w (.ofCode (bits w 15 0))))
  | 0xD1 => some (.mmaq (twOf w (.ofCode (bits w 15 0))))
  | 0xD2 => some (.mmas (twOf w (.ofCode (bits w 15 0))))
  | 0xD3 => some (.mzero (twOf w ()))
  | 0xD4 => some (.mld (twOf w ()))
  | 0xD5 => some (.mst (twOf w ()))
  | 0xD6 => some (.mrd (twOf w ()))
  | 0xD8 => some (.wmv (fwOf w (bits w 1 0)))
  | 0xD9 => some (.wload (fwOf w ()))
  | _ => none

/-- The I map (R204). -/
def decodeI (op w : Nat) : Option Instr :=
  match op with
  | 0x01 => some (.movi (iwOf w (.ofCode (bits w 39 32))))
  | 0x02 => some (.addi (iwOf w (.ofCode (bits w 39 32))))
  | 0x03 => some (.andi (iwOf w (.ofCode (bits w 39 32))))
  | 0x04 => some (.ori (iwOf w (.ofCode (bits w 39 32))))
  | 0x05 => some (.xori (iwOf w (.ofCode (bits w 39 32))))
  | 0x06 => some (.muli (iwOf w (.ofCode (bits w 39 32))))
  | 0x07 => some (.cmpi (iwOf w (.ofCode (bits w 39 36), bits w 35 32)))
  | 0x08 => some (.movhi (iwOf w (.ofCode (bits w 39 36))))
  | 0x09 => some (.ldc (iwOf w (.ofCode (bits w 39 36), sext 4 (bits w 35 32))))
  | 0x0A => some (.sigchk (bits w 31 0))
  | _ => none

/-- The C map (R198, R205). -/
def decodeC (op w : Nat) : Option Instr :=
  let c := CCond.ofCode (bits w 55 50)
  let r := bits w 49 42
  let d := sext 32 w
  match op with
  | 0x01 => some (.bra c d)
  | 0x02 => some (.call c r d)
  | 0x03 => some (.ret c r)
  | 0x04 => some (.jmps c r)
  | 0x05 => some (.loop r d)
  | 0x06 => some (.split (bit w 53) (bits w 52 50) (sext 18 (bits w 49 32)) d)
  | 0x07 => some (.jtab r (bits w 41 32 + 1) d)
  | 0x08 => some (.exit c)
  | 0x09 => some (.trap c (bits w 47 32))
  | 0x0A => some .rft
  | 0x0B => some (.contain (bits w 47 32) d)
  | 0x0C => some .uncontain
  | _ => none

/-- The P map (R206): slot 0's operation chooses the constructor; a reserved POP6 in either slot gives none. -/
def decodeP (w : Nat) : Option Instr :=
  let a := PArgs.ofCode (bits w 61 31)
  match POp.ofCode (bits w 61 56), POp.ofCode (bits w 30 25) with
  | some op, some op1 =>
    let t : PSlot := ⟨op1, .ofCode (bits w 30 0)⟩
    some (match op with
      | .nop => .pairNop a t
      | .mov => .pairMov a t
      | .iadd => .pairIadd a t
      | .isub => .pairIsub a t
      | .imul => .pairImul a t
      | .and => .pairAnd a t
      | .or => .pairOr a t
      | .xor => .pairXor a t
      | .andn => .pairAndn a t
      | .shl => .pairShl a t
      | .shr => .pairShr a t
      | .sar => .pairSar a t
      | .imin => .pairImin a t
      | .imax => .pairImax a t
      | .fadd => .pairFadd a t
      | .fsub => .pairFsub a t
      | .fmul => .pairFmul a t
      | .fmin => .pairFmin a t
      | .fmax => .pairFmax a t)
  | _, _ => none

/-- The instruction a word's fields name, before any check but the opcode's. -/
def buildWord (w : Nat) : Option Instr :=
  match bits w 63 62 with
  | 0 => decodeF (bits w 61 54) w
  | 1 => decodeP w
  | 2 => decodeI (bits w 61 54) w
  | _ => decodeC (bits w 61 56) w

/-- The word of an instruction, from the encoding tables of spec/09 to spec/13. An event has no word: 0, which is
reserved (R203). Log 27: DEDUCED, unsafe. -/
def encode : Instr → Nat
  | .nop => 2 ^ 54 * 0x01
  | .mov w => encF 0x02 w w.x.code
  | .sel w => encF 0x03 w w.x.code
  | .iadd w => encF 0x04 w w.x.code
  | .isub w => encF 0x05 w w.x.code
  | .imul w => encF 0x06 w w.x.code
  | .imulh w => encF 0x07 w w.x.code
  | .imad w => encF 0x08 w w.x.code
  | .idiv w => encF 0x09 w w.x.code
  | .imin w => encF 0x0A w w.x.code
  | .imax w => encF 0x0B w w.x.code
  | .iabs w => encF 0x0C w w.x.code
  | .lea w => encF 0x0D w w.x.code
  | .and w => encF 0x0E w w.x.code
  | .or w => encF 0x0F w w.x.code
  | .xor w => encF 0x10 w w.x.code
  | .andn w => encF 0x11 w w.x.code
  | .shl w => encF 0x12 w w.x.code
  | .shr w => encF 0x13 w w.x.code
  | .sar w => encF 0x14 w w.x.code
  | .rot w => encF 0x15 w w.x.code
  | .popc w => encF 0x16 w w.x.code
  | .clz w => encF 0x17 w w.x.code
  | .brev w => encF 0x18 w w.x.code
  | .bfe w => encF 0x19 w w.x.code
  | .bfi w => encF 0x1A w w.x.code
  | .icmp w => encF 0x1B w w.x.code
  | .fadd w => encF 0x20 w w.x.code
  | .fsub w => encF 0x21 w w.x.code
  | .fmul w => encF 0x22 w w.x.code
  | .ffma w => encF 0x23 w w.x.code
  | .fmin w => encF 0x24 w w.x.code
  | .fmax w => encF 0x25 w w.x.code
  | .fcmp w => encF 0x26 w w.x.code
  | .frnd w => encF 0x27 w w.x.code
  | .frcp w => encF 0x28 w w.x.code
  | .frsq w => encF 0x29 w w.x.code
  | .fsqrt w => encF 0x2A w w.x.code
  | .fdiv w => encF 0x2B w w.x.code
  | .fexp2 w => encF 0x2C w w.x.code
  | .flog2 w => encF 0x2D w w.x.code
  | .fsin w => encF 0x2E w w.x.code
  | .fcos w => encF 0x2F w w.x.code
  | .fclass w => encF 0x30 w w.x.code
  | .fdot2 w => encF 0x31 w w.x.code
  | .cvt w => encF 0x38 w w.x.code
  | .cvtq w => encF 0x39 w w.x.code
  | .cvtqd w => encF 0x3A w w.x.code
  | .pack w => encF 0x3B w w.x.code
  | .unpack w => encF 0x3C w w.x.code
  | .shfl w => encF 0x40 w w.x.code
  | .shflx w => encF 0x41 w w.x.code
  | .bcst w => encF 0x42 w w.x.code
  | .vote w => encF 0x43 w w.x.code
  | .matchl w => encF 0x44 w w.x.code
  | .redl w => encF 0x45 w w.x.code
  | .scanl w => encF 0x46 w w.x.code
  | .firstl w => encF 0x47 w w.x.code
  | .mtos w => encF 0x48 w w.x.code
  | .stom w => encF 0x49 w w.x.code
  | .step => 2 ^ 54 * 0x50
  | .stepq w => encF 0x51 w (256 * b2n w.x)
  | .sread w => encF 0x58 w w.x
  | .swrite w => encF 0x59 w w.x
  | .xread w => encF 0x5A w w.x.code
  | .xwrite w => encF 0x5B w w.x.code
  | .sprint w => encF 0x5C w (256 * b2n w.x)
  | .sprel w => encF 0x5D w 0
  | .assertw w => encF 0x5E w 0
  | .bkpt w => encF 0x5F w w.x
  | .yieldw w => encF 0x60 w w.x
  | .tdset w => encF 0x61 w 0
  | .tdget w => encF 0x62 w 0
  | .ld w => encF 0x80 w w.x.code
  | .st w => encF 0x81 w w.x.code
  | .lds w => encF 0x82 w w.x.code
  | .sts w => encF 0x83 w w.x.code
  | .ldl w => encF 0x84 w w.x.code
  | .stl w => encF 0x85 w w.x.code
  | .ldu w => encF 0x86 w w.x.code
  | .stu w => encF 0x87 w w.x.code
  | .ldt w => encF 0x88 w w.x.code
  | .stt w => encF 0x89 w w.x.code
  | .pref w => encF 0x8A w w.x.code
  | .fence w => encF 0x8B w w.x.code
  | .atom w => encF 0x90 w w.x.code
  | .atomn w => encF 0x91 w w.x.code
  | .atoms w => encF 0x92 w w.x.code
  | .atomsn w => encF 0x93 w w.x.code
  | .atomu w => encF 0x94 w w.x.code
  | .bar w => encF 0xA0 w w.x.code
  | .bara w => encF 0xA1 w w.x.code
  | .barw w => encF 0xA2 w w.x.code
  | .tbinit w => encF 0xA3 w w.x.code
  | .tbarr w => encF 0xA4 w w.x.code
  | .tbexp w => encF 0xA5 w w.x.code
  | .tbwait w => encF 0xA6 w w.x.code
  | .tbtest w => encF 0xA7 w w.x.code
  | .cpy w => encF 0xB0 w w.x.code
  | .cpyc w => encF 0xB1 w 0
  | .cpyt w => encF 0xB2 w w.x.code
  | .stage w => encF 0xB3 w 0
  | .gpool w => encF 0xB4 w w.x.code
  | .scata w => encF 0xB5 w 0
  | .fld w => encF 0xB8 w w.x.code
  | .fst w => encF 0xB9 w w.x.code
  | .fput w => encF 0xBA w 0
  | .fget w => encF 0xBB w 0
  | .fatom w => encF 0xBC w w.x.code
  | .fatomn w => encF 0xBD w w.x.code
  | .palloc w => encF 0xC0 w 0
  | .pfree w => encF 0xC1 w 0
  | .paddr w => encF 0xC2 w 0
  | .ldp w => encF 0xC3 w w.x.code
  | .stp w => encF 0xC4 w w.x.code
  | .stpr w => encF 0xC5 w w.x.code
  | .post w => encF 0xC6 w w.x.code
  | .precv w => encF 0xC7 w w.x.code
  | .pstat w => encF 0xC8 w 0
  | .mma w => encT 0xD0 w w.x.code
  | .mmaq w => encT 0xD1 w w.x.code
  | .mmas w => encT 0xD2 w w.x.code
  | .mzero w => encT 0xD3 w 0
  | .mld w => encT 0xD4 w 0
  | .mst w => encT 0xD5 w 0
  | .mrd w => encT 0xD6 w 0
  | .wmv w => encF 0xD8 w w.x
  | .wload w => encF 0xD9 w 0
  | .movi w => encI 0x01 w w.x.code
  | .addi w => encI 0x02 w w.x.code
  | .andi w => encI 0x03 w w.x.code
  | .ori w => encI 0x04 w w.x.code
  | .xori w => encI 0x05 w w.x.code
  | .muli w => encI 0x06 w w.x.code
  | .cmpi w => encI 0x07 w (16 * w.x.1.code + w.x.2)
  | .movhi w => encI 0x08 w (16 * w.x.code)
  | .ldc w => encI 0x09 w (16 * w.x.1.code + sfield 4 w.x.2)
  | .sigchk imm => 2 ^ 63 + 2 ^ 54 * 0x0A + imm
  | .bra c d => encC 0x01 c.code 0 d
  | .call c r d => encC 0x02 c.code (1024 * r) d
  | .ret c r => encC 0x03 c.code (1024 * r) 0
  | .jmps c r => encC 0x04 c.code (1024 * r) 0
  | .loop r d => encC 0x05 0 (1024 * r) d
  | .split s n e j => encC 0x06 (32 + 8 * b2n s + n) (sfield 18 e) j
  | .jtab x len d => encC 0x07 0 (1024 * x + (len - 1)) d
  | .exit c => encC 0x08 c.code 0 0
  | .trap c code => encC 0x09 c.code code 0
  | .rft => encC 0x0A 0 0 0
  | .contain id d => encC 0x0B 0 id d
  | .uncontain => encC 0x0C 0 0 0
  | .pairNop a t => encP .nop a t
  | .pairMov a t => encP .mov a t
  | .pairIadd a t => encP .iadd a t
  | .pairIsub a t => encP .isub a t
  | .pairImul a t => encP .imul a t
  | .pairAnd a t => encP .and a t
  | .pairOr a t => encP .or a t
  | .pairXor a t => encP .xor a t
  | .pairAndn a t => encP .andn a t
  | .pairShl a t => encP .shl a t
  | .pairShr a t => encP .shr a t
  | .pairSar a t => encP .sar a t
  | .pairImin a t => encP .imin a t
  | .pairImax a t => encP .imax a t
  | .pairFadd a t => encP .fadd a t
  | .pairFsub a t => encP .fsub a t
  | .pairFmul a t => encP .fmul a t
  | .pairFmin a t => encP .fmin a t
  | .pairFmax a t => encP .fmax a t
  | _ => 0

/-- Why a word is not an instruction (R207). -/
inductive Refused where
  /-- Cause 0x01: a reserved opcode, an operand that names nothing, or a class its field does not accept. -/
  | cause01
  /-- Cause 0x02: a nonzero bit in a field that must be 0, or a reserved or refused modifier. -/
  | cause02
  deriving DecidableEq, Repr

/-- Decode a 64-bit word: the instruction, or the cause R207 gives. Log 12: DEDUCED, unsafe. -/
def decodeWord (w : Nat) : Except Refused Instr :=
  match buildWord w with
  | none => .error .cause01
  | some i =>
    if i.bad.one then .error .cause01
    else if i.bad.two || encode i != w then .error .cause02
    else .ok i

/-- Decode the eight bytes at a PC, lowest address first (R6). -/
def decodeBytes (bs : List Byte) : Except Refused Instr :=
  decodeWord (bs.foldr (fun b acc => b.toNat + 256 * acc) 0)

/-- The eight bytes of a word, lowest address first. -/
def wordBytes (w : Nat) : List Byte := (List.range 8).map fun i => BitVec.ofNat 8 (w / 256 ^ i)

/-- What the decoder reads from an instruction whose bits are w, numbered from the least significant bit of its one
64-bit word; bits at and above `nbits` are 0. -/
def decodeTableWord (nbits w : Nat) : Option Instr :=
  match decodeBytes (wordBytes (w % 2 ^ min nbits 64)) with
  | .ok i => some i
  | .error _ => none

end Sys2Proof
end

