-- ==== Sys2Proof/Machine/Maps.lean ====
section
/-!
DEFINITION. The functions over sparse maps and over sorted lists of numbers: the one canonical form in which State holds
memory, registers and tables. `Map.put` with a default removes the entry when the value is what an unlisted key reads
as, so equal contents are equal data.
-/

namespace Sys2Proof.Machine

/-- The entry of a key. -/
def Map.find? {α : Type} : Map α → Nat → Option α
  | [], _ => none
  | (k, a) :: m, key => if key = k then some a else Map.find? m key

/-- The value of a key; an unlisted key reads as `d`. -/
def Map.get {α : Type} (m : Map α) (d : α) (key : Nat) : α := (Map.find? m key).getD d

/-- Set the entry of a key. -/
def Map.ins {α : Type} : Map α → Nat → α → Map α
  | [], key, a => [(key, a)]
  | (k, x) :: m, key, a =>
    if key < k then (key, a) :: (k, x) :: m
    else if key = k then (key, a) :: m
    else (k, x) :: Map.ins m key a

/-- Drop the entry of a key. -/
def Map.del {α : Type} : Map α → Nat → Map α
  | [], _ => []
  | (k, x) :: m, key => if key = k then Map.del m key else (k, x) :: Map.del m key

/-- Write a value: an entry equal to what an unlisted key reads as is dropped. -/
def Map.put {α : Type} [DecidableEq α] (m : Map α) (d : α) (key : Nat) (a : α) : Map α :=
  if a = d then Map.del m key else Map.ins m key a

/-- Write bytes from a key on; an unlisted byte reads as 0. -/
def Map.putBytes : Map (BitVec 8) → Nat → List (BitVec 8) → Map (BitVec 8)
  | m, _, [] => m
  | m, k, b :: bs => Map.putBytes (Map.put m 0 k b) (k + 1) bs

/-- Change a listed entry; nothing happens where the key is not listed. -/
def Map.adjust {α : Type} (m : Map α) (key : Nat) (f : α → α) : Map α :=
  match Map.find? m key with
  | some a => Map.ins m key (f a)
  | none => m

/-- Every key above a bound, rising. -/
def Map.sortedFrom {α : Type} : Nat → Map α → Bool
  | _, [] => true
  | lo, (k, _) :: m => decide (lo ≤ k) && Map.sortedFrom (k + 1) m

/-- The canonical form: keys strictly rising and no entry equal to the default. -/
def Map.wf {α : Type} [DecidableEq α] (m : Map α) (d : α) : Bool :=
  Map.sortedFrom 0 m && m.all fun p => decide (p.2 ≠ d)

/-- Membership in a rising list of numbers, insertion and removal. -/
def Nats.ins : List Nat → Nat → List Nat
  | [], x => [x]
  | y :: l, x => if x < y then x :: y :: l else if x = y then y :: l else y :: Nats.ins l x

def Nats.del (l : List Nat) (x : Nat) : List Nat := l.filter (· ≠ x)

/-- Change the i-th entry of a list. -/
def modifyAt {α : Type} : List α → Nat → (α → α) → List α
  | [], _, _ => []
  | a :: l, 0, f => f a :: l
  | a :: l, i + 1, f => a :: modifyAt l i f

/-! ### Memory as cells -/

/-- Memory reads of one byte: what an unlisted address reads as is `memDefault`. Log 1: DESIGN CHOICE, unsafe. -/
def Memory.read (m : List Host.Cell) (a : Nat) : BitVec 8 := Map.get m memDefault a

/-- Memory writes of one byte, keeping the canonical form. -/
def Memory.write (m : List Host.Cell) (a : Nat) (b : BitVec 8) : List Host.Cell := Map.put m memDefault a b

/-- The canonical form of memory. Log 1: DESIGN CHOICE, unsafe. -/
def Memory.wf (m : List Host.Cell) : Bool := Map.wf m memDefault

/-- Bytes from an address on, in ascending order. -/
def Memory.writeAll : List Host.Cell → Nat → List (BitVec 8) → List Host.Cell
  | m, _, [] => m
  | m, a, b :: bs => Memory.writeAll (Memory.write m a b) (a + 1) bs

/-- A little-endian number from bytes, and the low n bytes of a number (R6). -/
def leNat (bs : List (BitVec 8)) : Nat := bs.foldr (fun b acc => b.toNat + 256 * acc) 0

def leBytes : Nat → Nat → List (BitVec 8)
  | 0, _ => []
  | n + 1, x => BitVec.ofNat 8 x :: leBytes n (x / 256)

end Sys2Proof.Machine
end

