-- ==== Sys2Proof/Machine/Blocks.lean ====
section
/-!
DEFINITION. QX4 and MX blocks (R88 to R94) and tensor descriptors (R69, R70): codes to values, values to codes, and where
an element and its scale lie.
-/

namespace Sys2Proof.Machine

open Sys2Proof

/-- The kinds of block: QX4 with its type T, MXFP4, MXINT8. -/
inductive BlockKind where
  | qx4 (t : Nat)
  | mxfp4
  | mxint8
  deriving DecidableEq, Repr

/-- Magnitudes of codes 0 to 7, in eighths (R89). -/
def codeMag8 (t : Nat) : List Nat :=
  match t with
  | 0 => [0, 8, 16, 24, 32, 40, 48, 56]
  | 1 => [0, 4, 8, 12, 16, 24, 32, 48]
  | 2 => [0, 1, 2, 4, 8, 16, 32, 64]
  | _ => [0, 8, 16, 24, 32, 48, 64, 96]

/-- The value of a 4-bit code of type T without its scale (R89). -/
def codeVal (t code : Nat) : FVal :=
  if t = 0 && 8 ≤ code then .num true (8 * (16 - code)) (-3)
  else .num (decide (8 ≤ code)) ((codeMag8 t).getD (code % 8) 0) (-3)

/-- The value of a code of a block kind without its scale: MXINT8 codes are bytes (R91). -/
def BlockKind.val (k : BlockKind) (code : Nat) : FVal :=
  match k with
  | .qx4 t => codeVal t code
  | .mxfp4 => codeVal 1 code
  | .mxint8 => let i := sext 8 code; .num (decide (i < 0)) i.natAbs (-6)

/-- The exponent a scale byte stands for, if the block is valid (R88, R91). -/
def BlockKind.scaleExp (k : BlockKind) (s : Nat) : Option Int :=
  match k with
  | .qx4 _ => if s % 64 = 63 then none else some ((s % 64 : Nat) - 32)
  | _ => if s % 256 = 255 then none else some ((s % 256 : Nat) - 127)

def FVal.scale (e : Int) : FVal → FVal
  | .num n m e0 => .num n m (e0 + e)
  | x => x

/-- The kind of a QX4 block comes from bits 7:6 of its scale byte (R88). -/
def qx4Kind (s : Nat) : BlockKind := .qx4 (bits s 7 6)

/-- A decoded element (R89, R91): NaN in an invalid block. -/
def BlockKind.decode (k : BlockKind) (s code : Nat) : FVal :=
  match k.scaleExp s with
  | none => .nan
  | some e => FVal.scale e (k.val code)

/-- The scale limit M, as an exact value (R90, R92). -/
def BlockKind.limit : BlockKind → FVal
  | .qx4 0 => .num false 7 0
  | .qx4 1 => .num false 6 0
  | .qx4 2 => .num false 8 0
  | .qx4 _ => .num false 12 0
  | .mxfp4 => .num false 6 0
  | .mxint8 => .num false 127 (-6)

/-- Distance of two exact numbers at a common exponent. -/
def dist (a b : FVal) (e0 : Int) : Nat :=
  match a, b with
  | .num n1 m1 e1, .num n2 m2 e2 => (signedAt n1 m1 e1 e0 - signedAt n2 m2 e2 e0).natAbs
  | _, _ => 0

/-- The better of two codes: nearer to q, and on a tie the one whose bit 0 is 0 (R90, step 4). -/
def nearer (val : Nat → FVal) (q : FVal) (e0 : Int) (x y : Nat) : Nat :=
  let dx := dist (val x) q e0
  let dy := dist (val y) q e0
  if dy < dx then y else if dx < dy then x else if y % 2 = 0 && x % 2 = 1 then y else x

/-- The code of a finite quotient (R90, steps 4 to 6; R92): nearest, saturating, zero as 0x0. -/
def BlockKind.pick (k : BlockKind) (q : FVal) : Nat :=
  match k, q with
  | .mxint8, .num n m e => wrap 8 (satInt 8 true (roundInt .rne n m (e + 6)))
  | .qx4 0, .num _ _ e =>
    ((List.range 16).foldl (fun best c => nearer (codeVal 0) q (min e (-3)) best c) 0)
  | .qx4 t, .num _ _ e =>
    ((List.range 16).foldl (fun best c => if c = 8 then best else nearer (codeVal t) q (min e (-3)) best c) 0)
  | .mxfp4, .num _ _ e =>
    ((List.range 16).foldl (fun best c => if c = 8 then best else nearer (codeVal 1) q (min e (-3)) best c) 0)
  | .mxint8, .inf n => if n then 128 else 127
  | .qx4 0, .inf n => if n then 8 else 7
  | _, .inf n => if n then 15 else 7
  | _, .nan => 0

/-- The scale byte of an exponent code, and the greatest exponent code (R90, R92). -/
def BlockKind.maxScale : BlockKind → Nat
  | .qx4 _ => 62
  | _ => 254

def BlockKind.bias : BlockKind → Int
  | .qx4 _ => 32
  | _ => 127

def BlockKind.scaleByte (k : BlockKind) (e : Nat) : Nat :=
  match k with
  | .qx4 t => 64 * t + e
  | _ => e

def BlockKind.invalidByte (k : BlockKind) : Nat :=
  match k with
  | .qx4 t => 64 * t + 63
  | _ => 255

/-- The least scale code that holds every magnitude, or the clamp (R90, step 2). -/
def BlockKind.scaleFor (k : BlockKind) (xs : List FVal) : Nat :=
  ((List.range (k.maxScale + 1)).find? fun (e : Nat) =>
    xs.all fun x => !(FVal.scale ((e : Int) - k.bias) k.limit).lt x.abs).getD k.maxScale

/-- Encode a block of 32 values: scale byte and codes (R90, R92). -/
def BlockKind.encode (k : BlockKind) (xs : List FVal) : Nat × List Nat :=
  if xs.any (fun x => x.isNan || x.isInf) then (k.invalidByte, xs.map fun _ => 0)
  else
    let e := k.scaleFor xs
    (k.scaleByte e, xs.map fun x => k.pick (FVal.scale (k.bias - (e : Int)) x))

/-- Code bytes of a block: two 4-bit codes a byte, low first (R88), or a byte each (R91). -/
def packNibbles : List Nat → List Nat
  | a :: b :: l => (a + 16 * b) :: packNibbles l
  | [a] => [a]
  | [] => []

def BlockKind.codeBytes (k : BlockKind) (codes : List Nat) : List Nat :=
  match k with
  | .mxint8 => codes
  | _ => packNibbles codes

/-- Code i of a block's code bytes. -/
def BlockKind.codeAt (k : BlockKind) (bytes : Nat → Nat) (i : Nat) : Nat :=
  match k with
  | .mxint8 => bytes i % 256
  | _ => if i % 2 = 0 then bytes (i / 2) % 16 else bytes (i / 2) / 16 % 16

/-! ### Descriptors (R69, R70) -/

/-- A descriptor's fields. -/
structure Desc where
  base : Nat
  sbase : Nat
  str : List Nat
  ext : List Nat
  window : Nat
  rank : Nat
  kind : Nat
  fmt : Nat
  valid : Bool
  reserved : Bool
  deriving DecidableEq, Repr

/-- Read the 256-bit layout of R69: strides of dimensions 1 to 3, extents of dimensions 0 to 3 (as counts), the rank. -/
def Desc.of (d : BitVec 256) : Desc :=
  let x := d.toNat
  { base := bits x 255 204 * 32, sbase := bits x 203 152 * 32,
    str := [bits x 111 92, bits x 131 112, bits x 151 132],
    ext := [bits x 31 12 + 1, bits x 51 32 + 1, bits x 71 52 + 1, bits x 91 72 + 1],
    window := bits x 10 9, rank := bits x 8 7 + 1, kind := bits x 6 5, fmt := bits x 4 1, valid := bit x 0,
    reserved := bit x 11 }

def Desc.extent (d : Desc) (i : Nat) : Nat := d.ext.getD i 1
def Desc.stride (d : Desc) (i : Nat) : Nat := if i = 0 then 0 else d.str.getD (i - 1) 0

/-- A format with blocks and scales. -/
def Desc.isBlock (d : Desc) : Bool := d.fmt == 11 || d.fmt == 12

/-- R70: whether a word may use the descriptor. -/
def Desc.ok (d : Desc) : Bool :=
  d.valid && d.fmt != 15 && d.window != 3
  && (if d.fmt = 11 then true else if d.fmt = 12 then decide (d.kind ≤ 1) else d.kind == 0)
  && (d.window == 0 || d.isBlock)
  && (List.range 4).all (fun i => decide (i < d.rank) || d.extent i == 1)
  && (!d.isBlock || d.extent 0 % 32 == 0)

/-- The block kind of a tensor; a QX4 block's own type is in its scale byte. -/
def Desc.blockKind (d : Desc) : BlockKind :=
  if d.fmt = 12 then (if d.kind = 0 then .mxfp4 else .mxint8) else .qx4 d.kind

/-- Element size in half bytes (R69). -/
def Desc.halfBytes (d : Desc) : Nat :=
  match d.fmt with
  | 0 | 1 | 9 | 10 => 2
  | 2 | 3 | 7 | 8 => 4
  | 4 | 5 | 6 => 8
  | 13 | 14 => 16
  | 11 => 1
  | _ => if d.kind = 0 then 1 else 2

/-- Byte offset of a row, and of element i0 in it (R69). -/
def Desc.rowOff (d : Desc) (i1 i2 i3 : Nat) : Nat := 16 * (i1 * d.stride 1 + i2 * d.stride 2 + i3 * d.stride 3)

/-- Virtual address of the byte that holds the element (its low byte). -/
def Desc.elemAddr (d : Desc) (i0 i1 i2 i3 : Nat) : Nat := d.base + d.rowOff i1 i2 i3 + i0 * d.halfBytes / 2

/-- Virtual address of the scale byte of the element's block (R69). -/
def Desc.scaleAddr (d : Desc) (i0 i1 i2 i3 : Nat) : Nat :=
  let perRow := ceilDiv (d.extent 0) 32
  d.sbase + perRow * (i1 + d.extent 1 * (i2 + d.extent 2 * i3)) + i0 / 32

/-- The float format of an element format, if it is one. -/
def fmtFloat (fmt : Nat) : Option Fmt :=
  match fmt with
  | 6 => some .f32 | 7 => some .f16 | 8 => some .bf16 | 9 => some .e4m3 | 10 => some .e5m2 | 13 => some .f64
  | _ => none

/-- Width and signedness of an integer format. -/
def fmtInt (fmt : Nat) : Nat × Bool :=
  match fmt with
  | 0 => (8, true) | 1 => (8, false) | 2 => (16, true) | 3 => (16, false) | 4 => (32, true) | 5 => (32, false)
  | _ => (64, true)

end Sys2Proof.Machine
end

