-- ==== Sys2Proof/Machine/Bits.lean ====
section
/-!
DEFINITION. Places of the package and small codes: keys of groups, contexts, units and tiles; dies and islands of cores
(R17, R20); the signature fold (R66).
-/

namespace Sys2Proof.Machine

open Sys2Proof

/-- Key of a context: a launch on a core. -/
def ckey (launch core : Nat) : Nat := launch * 160 + core

/-- Key of a group: launch, core, cell set, slot (4 × partition + slot). -/
def gkey (launch core set slot : Nat) : Nat := ((launch * 160 + core) * 16 + set) * 64 + slot

/-- Slot of the handler group: slot 3 of partition 15 (R171). -/
def handlerSlot : Nat := 63

/-- Key of a matrix unit, and of a tile within a context (R67). -/
def ukey (core unit : Nat) : Nat := 4 * core + unit
def tkey (set unit t : Nat) : Nat := set * 32 + unit * 8 + t

/-- Die of a core (R17). -/
def dieOf (core : Nat) : Nat := core / 40

/-- Mesh coordinates of a core (R17). -/
def coreX (core : Nat) : Nat := 5 * (dieOf core % 2) + core % 40 % 5
def coreY (core : Nat) : Nat := 8 * (dieOf core / 2) + core % 40 / 5

/-- Island of a core (R20). -/
def islandOf (core : Nat) : Nat :=
  let d := dieOf core
  let ly := core % 40 / 5
  let lx := core % 40 % 5
  let outer := if d % 2 = 0 then 0 else 4
  let pair := if d % 2 = 0 then (lx - 1) / 2 else lx / 2
  10 * d + (if lx = outer then (if ly < 4 then 8 else 9) else 2 * (ly / 2) + pair)

/-- The cores of an island, ascending. -/
def coresOf (island : Nat) : List Nat := (List.range Config.cores).filter fun c => islandOf c == island

/-- Die that homes a physical address (R103, R104). -/
def homeDie (pa : Nat) : Nat := if pa < 2 ^ 39 then pa / 2 ^ 37 else bits pa 13 12

/-- One bit of the CRC-32C register, reflected (R66). -/
def crcBit (c : Nat) : Nat := if c % 2 = 1 then Nat.xor (c / 2) 0x82F63B78 else c / 2

/-- Fold one byte. -/
def crcByte (c b : Nat) : Nat :=
  crcBit (crcBit (crcBit (crcBit (crcBit (crcBit (crcBit (crcBit (Nat.xor c (b % 256)))))))))

/-- Fold a record of two bytes, low byte first (R66). -/
def crcRecord (c : Word) (b0 b1 : Nat) : Word := BitVec.ofNat 32 (crcByte (crcByte c.toNat b0) b1)

/-- The records an issued word folds, from the word itself (R66): OP8, COP6 or POP6, then format, MSEL and MINV. -/
def sigRecords (w : Nat) : List (Nat × Nat) :=
  match bits w 63 62 with
  | 1 => [(bits w 61 56, 64 + 8 * bits w 39 37), (bits w 30 25, 64 + 8 * bits w 8 6)]
  | 3 => [(bits w 61 56, 192)]
  | f => [(bits w 61 54, 64 * f + 8 * bits w 53 51 + 4 * bits w 50 50)]

/-- A signature at the start of a group and of the handler (R66). -/
def sigStart : Word := 0xFFFFFFFF

/-- The mask of all lanes. -/
def allLanes : Mask := 0xFFFFFFFF

def foldWord (c : Word) (w : Nat) : Word := (sigRecords w).foldl (fun c r => crcRecord c r.1 r.2) c

/-- The split, merge and JTAB events (R66). -/
def foldSplit (c : Word) : Word := crcRecord c 0xF1 0xFF
def foldMerge (c : Word) : Word := crcRecord c 0xF2 0xFF
def foldJtab (c : Word) (n : Nat) : Word := crcRecord c 0xF3 n

end Sys2Proof.Machine
end

