-- ==== Sys2Proof/Machine/Uses.lean ====
section
/-!
DEFINITION. What an instruction word reads and writes among registers and flags (R199), and how long it takes (R209, R282,
R309, R341).
-/

namespace Sys2Proof.Machine

open Sys2Proof

/-! ### Registers by number -/

/-- Scoreboard numbers: vn is n, sn is 256 + n, mn is 512 + n; the flags Z, N, C, V, E and G follow from 768 on. -/
def flagZ : Nat := 768
def flagN : Nat := 769
def flagC : Nat := 770
def flagV : Nat := 771
def flagE' : Nat := 772
def flagG : Nat := 773

/-- The flags that some words write: a test, and what results write (R210). -/
def testNos : List Nat := [flagZ, flagG]
def znNos : List Nat := [flagZ, flagN]
def zncNos : List Nat := [flagZ, flagN, flagC]
def znvNos : List Nat := [flagZ, flagN, flagV]
def allNos : List Nat := [flagZ, flagN, flagC, flagV]

/-- The flags of new values. -/
def FlagUpd.nos (f : FlagUpd) : List Nat :=
  [(f.z, flagZ), (f.n, flagN), (f.c, flagC), (f.v, flagV), (f.e, flagE'), (f.g, flagG)].filterMap fun (x : Option Bool × Nat) =>
    x.1.map fun _ => x.2

/-- The flags that a condition code tests (R65, R197). -/
def codeNos (code : Nat) : List Nat :=
  match code with
  | 0 | 1 => [flagZ]
  | 2 | 3 => [flagN]
  | 4 | 5 => [flagC]
  | 6 | 7 => [flagV]
  | 8 | 9 => [flagN, flagV]
  | 10 | 11 => [flagZ, flagN, flagV]
  | _ => [flagE']

def RegId.no : RegId → Nat
  | .v n _ => n
  | .s n => 256 + n
  | .m n => 512 + n

/-- n registers from a number on. -/
def regRun (first n : Nat) : List Nat := (List.range n).map fun i => first + i

/-- A mask register's number; m0 is no register (R63). -/
def maskNos (n : Nat) : List Nat := if n = 0 then [] else [512 + n]

/-- The n registers of an operand; a neighbour operand reads published values (R44). -/
def srcNos (n : Nat) : Src → List Nat
  | .v k => regRun k n
  | .s k => regRun (256 + k) n
  | _ => []

/-- The n scalar registers of a command word's operand (R310). -/
def scalNos (n : Nat) : Src → List Nat
  | .s k => regRun (256 + k) n
  | _ => []

def dstNos (n : Nat) : Dst → List Nat
  | .v k => regRun k n
  | .s k => regRun (256 + k) n
  | .m k => if n = 0 then [] else maskNos k
  | .nb _ => []

/-- The mask register of MSEL. -/
def predNos (p : Pred) : List Nat := maskNos p.msel

/-- What an F word reads: its predicate, and d, a and b registers of its fields. -/
def fReads {χ : Type} (w : FWord χ) (d a b : Nat) : List Nat :=
  predNos w.p ++ dstNos d w.d ++ srcNos a w.a ++ srcNos b w.b

/-- The same of a command word, whose operands are scalar. -/
def cReads {χ : Type} (w : FWord χ) (d a b : Nat) : List Nat :=
  predNos w.p ++ dstNos d w.d ++ scalNos a w.a ++ scalNos b w.b

/-- A mask register that a word writes in the lanes of its execution mask keeps its other bits (R64). -/
def keptNos : Dst → List Nat
  | .m k => maskNos k
  | _ => []

/-- Registers of an element type, and of the fragment and of the quarter of B of a format (R314, R316). -/
def Ty.regs (t : Ty) : Nat := if t.is64 then 2 else 1
def fragRegs (fmt : Nat) : Nat := if fmt = 6 then 17 else 16
def quarterRegs (fmt : Nat) : Nat := if fmt = 6 then 5 else 4

def condNos : CCond → List Nat
  | .mask _ n => maskNos n
  | .cc code => codeNos code
  | _ => []

/-- S9 of a pair word's slot, and what a slot reads and writes (R193, R250). -/
def pSrcNos : PSrc → List Nat
  | .v n => [n]
  | .s n => [256 + n]
  | _ => []

def slotReads (op : POp) (x : PArgs) : List Nat :=
  match op with
  | .nop => []
  | .mov => maskNos x.msel ++ pSrcNos x.s9
  | _ => maskNos x.msel ++ x.d7 :: pSrcNos x.s9

def slotNos (op : POp) (x : PArgs) : List Nat := if op = .nop then [] else [x.d7]

/-! ### The slots of pair words -/

/-- Whether a slot's operation is a float one. -/
def POp.float : POp → Bool
  | .fadd | .fsub | .fmul | .fmin | .fmax => true
  | _ => false

/-- The first slot of a pair word, and the second. -/
def Instr.slots : Instr → Option (PSlot × PSlot)
  | .pairNop a t => some (⟨.nop, a⟩, t)
  | .pairMov a t => some (⟨.mov, a⟩, t)
  | .pairIadd a t => some (⟨.iadd, a⟩, t)
  | .pairIsub a t => some (⟨.isub, a⟩, t)
  | .pairImul a t => some (⟨.imul, a⟩, t)
  | .pairAnd a t => some (⟨.and, a⟩, t)
  | .pairOr a t => some (⟨.or, a⟩, t)
  | .pairXor a t => some (⟨.xor, a⟩, t)
  | .pairAndn a t => some (⟨.andn, a⟩, t)
  | .pairShl a t => some (⟨.shl, a⟩, t)
  | .pairShr a t => some (⟨.shr, a⟩, t)
  | .pairSar a t => some (⟨.sar, a⟩, t)
  | .pairImin a t => some (⟨.imin, a⟩, t)
  | .pairImax a t => some (⟨.imax, a⟩, t)
  | .pairFadd a t => some (⟨.fadd, a⟩, t)
  | .pairFsub a t => some (⟨.fsub, a⟩, t)
  | .pairFmul a t => some (⟨.fmul, a⟩, t)
  | .pairFmin a t => some (⟨.fmin, a⟩, t)
  | .pairFmax a t => some (⟨.fmax, a⟩, t)
  | _ => none

/-! ### What words read and write -/

/-- Registers a special register takes (R72). -/
def specialRegs (sel : Nat) : Nat := if (0x30 ≤ sel && sel ≤ 0x33) || sel = 0x51 then 2 else 1

/-- The code of an atomic: the immediate in B (R263). -/
def atomCode (w : FWord XMem) : Nat := match w.b with | .imm i => i.toNat | _ => 0

/-- Registers of an atomic's operand in D; `.cas` has the expected value above it (R262). -/
def atomRegs (w : FWord XMem) : Nat := (if atomCode w = 9 then 2 else 1) * Width.regs w.x.w

/-- The registers and flags that a word reads; `rank` is the number of index registers of LDT and STT. STEP reads the
export registers, which are the group's matter. -/
def Instr.reads (rank : Nat) (i : Instr) : List Nat :=
  match i with
  | .mov w | .iabs w | .popc w | .clz w | .brev w | .frnd w | .frcp w | .frsq w | .fsqrt w | .fexp2 w | .flog2 w | .fsin w
  | .fcos w | .matchl w | .redl w | .scanl w | .firstl w => fReads w 0 (Ty.regs w.x.ty) 0
  | .fclass w | .vote w => keptNos w.d ++ fReads w 0 (Ty.regs w.x.ty) 0
  | .iadd w | .isub w | .imul w | .imulh w | .idiv w | .imin w | .imax w | .and w | .or w | .xor w | .andn w | .shl w
  | .shr w | .sar w | .rot w | .fadd w | .fsub w | .fmul w | .fmin w | .fmax w | .fdiv w =>
    fReads w 0 (Ty.regs w.x.ty) (Ty.regs w.x.ty)
  | .icmp w | .fcmp w => keptNos w.d ++ fReads w 0 (Ty.regs w.x.ty) (Ty.regs w.x.ty)
  | .sel w => maskNos (w.x.opx % 8) ++ fReads w 0 (Ty.regs w.x.ty) (Ty.regs w.x.ty)
  | .imad w | .ffma w | .shflx w => fReads w (Ty.regs w.x.ty) (Ty.regs w.x.ty) (Ty.regs w.x.ty)
  | .lea w | .bfe w | .shfl w | .bcst w => fReads w 0 (Ty.regs w.x.ty) 1
  | .bfi w => fReads w (Ty.regs w.x.ty) (Ty.regs w.x.ty) 1
  | .fdot2 w => fReads w 1 1 1
  | .cvt w => fReads w 0 (Ty.regs w.x.sty) 0
  | .cvtq w | .cvtqd w | .unpack w => fReads w 0 1 0
  | .pack w => fReads w (if tyWidth w.x.ty = 16 then 0 else 1) 1 1
  | .mtos w => predNos w.p ++ maskNos (w.x.opx % 8)
  | .stom w => keptNos w.d ++ fReads w 0 1 0
  | .sread w => predNos w.p
  | .stepq w | .sprel w | .bkpt w | .yieldw w => predNos w.p
  | .swrite w => cReads w 0 (specialRegs w.x) 0
  | .xread w => cReads w 0 0 1
  | .xwrite w => predNos w.p ++ srcNos 1 w.a ++ scalNos 1 w.b
  | .sprint w => cReads w 0 1 2
  | .assertw w => predNos w.p ++ srcNos 1 w.a ++ scalNos 2 w.b
  | .tdset w => cReads w 0 8 1
  | .tdget w => cReads w 0 0 1
  | .ld w | .ldu w | .pref w | .fld w | .ldp w => fReads w 0 2 1
  | .lds w | .ldl w => fReads w 0 1 1
  | .st w | .stu w | .fst w | .stp w | .stpr w => fReads w (Width.regs w.x.w) 2 1
  | .sts w | .stl w => fReads w (Width.regs w.x.w) 1 1
  | .ldt w => predNos w.p ++ srcNos rank w.a ++ scalNos 1 w.b
  | .stt w => predNos w.p ++ dstNos (Width.regs w.x.w) w.d ++ srcNos rank w.a ++ scalNos 1 w.b
  | .atom w | .atomn w | .atomu w | .fatom w | .fatomn w => fReads w (atomRegs w) 2 0
  | .atoms w | .atomsn w => fReads w (atomRegs w) 1 0
  | .fence w => predNos w.p
  | .bar w | .bara w | .barw w => cReads w 0 1 1
  | .tbinit w | .tbarr w | .tbexp w | .tbwait w | .tbtest w => cReads w 0 1 1
  | .cpy w => cReads w 1 4 1
  | .cpyt w => cReads w 1 4 0
  | .gpool w => cReads w 1 8 0
  | .cpyc w => cReads w 1 8 0
  | .scata w | .fput w | .fget w => cReads w 1 6 0
  | .wmv w => cReads w 1 8 0
  | .wload w => cReads w 1 4 0
  | .stage w => predNos w.p
  | .palloc w => cReads w 0 1 1
  | .pfree w | .paddr w | .pstat w => cReads w 0 2 0
  | .post w => cReads w 1 2 1
  | .precv w => cReads w 0 1 0
  | .mma w => predNos w.p ++ srcNos (fragRegs w.x.afmt) w.a ++ srcNos (fragRegs w.x.bfmt) w.b
  | .mmaq w => predNos w.p ++ srcNos (fragRegs w.x.afmt) w.a ++ srcNos (quarterRegs w.x.bfmt) w.b
  | .mmas w => predNos w.p ++ srcNos (fragRegs w.x.afmt) w.a ++ scalNos 4 w.b
  | .mzero w => predNos w.p
  | .mld w | .mst w => predNos w.p ++ scalNos 1 w.a
  | .mrd w => predNos w.p ++ scalNos 1 w.b
  | .movi w => predNos w.p
  | .addi w | .andi w | .ori w | .xori w | .muli w => predNos w.p ++ dstNos (Ty.regs w.x.ty) w.d
  | .cmpi w => predNos w.p ++ dstNos (Ty.regs w.x.1) w.d
  | .movhi w => predNos w.p
  | .ldc w => predNos w.p
  | .bra c _ | .exit c | .trap c _ | .call c _ _ => condNos c
  | .ret c r | .jmps c r => condNos c ++ regRun (256 + r) 2
  | .loop r _ => [256 + r]
  | .split _ n _ _ => maskNos n
  | .jtab x _ _ => [x]
  | i => match Instr.slots i with
    | some (x, y) => slotReads x.op x.args ++ slotReads y.op y.args
    | none => []

/-- The flags of a result of a type (R210). -/
def resultNos (t : Ty) : List Nat := if t.isFloat then znvNos else znNos

/-- The flags that a word writes: with CC those of R210, else those its entry names (R65). -/
def flagNos : Instr → List Nat
  | .iadd w | .isub w | .imul w | .imad w | .idiv w => if w.x.cc then allNos else []
  | .shl w | .shr w | .sar w | .rot w => if w.x.cc then zncNos else []
  | .icmp w | .fcmp w => if w.x.cc then testNos else []
  | .vote w => if !w.x.cc then [] else if w.x.opx % 4 = 1 ∨ w.x.opx % 4 = 2 then testNos else znNos
  | .fclass w | .mtos w => if w.x.cc then znNos else []
  | .cvt w => if w.x.cc then resultNos w.x.ty else []
  | .mov w | .sel w | .imulh w | .imin w | .imax w | .iabs w | .lea w | .and w | .or w | .xor w | .andn w | .popc w | .clz w
  | .brev w | .bfe w | .bfi w | .fadd w | .fsub w | .fmul w | .ffma w | .fmin w | .fmax w | .frnd w | .frcp w | .frsq w
  | .fsqrt w | .fdiv w | .fexp2 w | .flog2 w | .fsin w | .fcos w | .fdot2 w | .bcst w | .redl w | .firstl w =>
    if w.x.cc then resultNos w.x.ty else []
  | .addi w | .muli w => if !w.x.cc then [] else if w.x.ty.isFloat then znvNos else allNos
  | .movi w | .andi w | .ori w | .xori w => if w.x.cc then znNos else []
  | .cmpi _ | .stepq _ | .sprint _ | .sprel _ | .tbtest _ | .palloc _ | .precv _ => testNos
  | .bar _ | .bara _ | .barw _ | .mst _ | .mrd _ => [flagE']
  | _ => []

/-- The registers that a word writes. -/
def regNos (i : Instr) : List Nat :=
  match i with
  | .mov w | .sel w | .iadd w | .isub w | .imul w | .imulh w | .imad w | .idiv w | .imin w | .imax w | .iabs w | .lea w
  | .and w | .or w | .xor w | .andn w | .shl w | .shr w | .sar w | .rot w | .brev w | .bfe w | .bfi w | .fadd w | .fsub w
  | .fmul w | .ffma w | .fmin w | .fmax w | .frnd w | .frcp w | .frsq w | .fsqrt w | .fdiv w | .fexp2 w | .flog2 w
  | .fsin w | .fcos w | .shfl w | .shflx w | .bcst w | .redl w | .scanl w | .firstl w => dstNos (Ty.regs w.x.ty) w.d
  | .popc w | .clz w | .icmp w | .fcmp w | .fclass w | .fdot2 w | .cvtq w | .cvtqd w | .pack w | .unpack w | .vote w
  | .matchl w | .mtos w | .stom w => dstNos 1 w.d
  | .cvt w => dstNos (Ty.regs w.x.ty) w.d
  | .sread w => dstNos (specialRegs w.x) w.d
  | .stepq w | .sprint w => dstNos 1 w.d
  | .xread w => dstNos 1 w.d
  | .sprel w => dstNos 1 w.d
  | .tdget w => dstNos 8 w.d
  | .ld w | .lds w | .ldl w | .ldu w | .ldt w | .fld w | .ldp w | .atom w | .atoms w | .atomu w | .fatom w =>
    dstNos (Width.regs w.x.w) w.d
  | .bara w => dstNos 1 w.d
  | .tbarr w | .tbtest w => dstNos 1 w.d
  | .stage w => dstNos 1 w.d
  | .palloc w | .paddr w | .pstat w => dstNos 2 w.d
  | .precv w => dstNos 2 w.d
  | .mrd w => srcNos 2 w.a
  | .movi w | .addi w | .andi w | .ori w | .xori w | .muli w => dstNos (Ty.regs w.x.ty) w.d
  | .movhi w => (dstNos 2 w.d).drop 1
  | .ldc w => dstNos 1 w.d
  | .call _ r _ => regRun (256 + r) 2
  | .loop r _ => [256 + r]
  | i => match Instr.slots i with
    | some (x, y) => slotNos x.op x.args ++ slotNos y.op y.args
    | none => []

/-- The registers and flags that a word writes. -/
def Instr.writes (i : Instr) : List Nat := regNos i ++ flagNos i

/-- Words that carry a window (R199, R202). -/
def Instr.long : Instr → Bool
  | .idiv .. | .frcp .. | .frsq .. | .fsqrt .. | .fdiv .. | .fexp2 .. | .flog2 .. | .fsin .. | .fcos .. | .xread ..
  | .tdget .. | .ld .. | .lds .. | .ldl .. | .ldu .. | .ldt .. | .fld .. | .ldp .. | .atom .. | .atoms .. | .atomu ..
  | .fatom .. | .palloc .. | .precv .. | .pstat .. | .mrd .. => true
  | .sread w => 0x30 ≤ w.x && w.x ≤ 0x32
  | _ => false

/-! ### Time (R209, R282, R309, R341) -/

/-- Figures of a class under a type (R209): 64-bit integer types double both, f64 has four times the issue cycles and
twice the latency. -/
def timeOf (t : Ty) (issue lat : Nat) : Nat × Option Nat :=
  if t = .f64 then (4 * issue, some (2 * lat)) else if t.is64 then (2 * issue, some (2 * lat)) else (issue, some lat)

/-- Issue cycles and latency of a word (R209, R301, R309, R341); no latency where it is a matter of traffic (R255), or
none is stated. -/
def Instr.time (i : Instr) : Nat × Option Nat :=
  match i with
  | .nop => (1, some 2)
  | .mov w | .sel w | .iadd w | .isub w | .imin w | .imax w | .iabs w | .lea w | .and w | .or w | .xor w | .andn w | .shl w
  | .shr w | .sar w | .rot w | .popc w | .clz w | .brev w | .bfe w | .bfi w | .icmp w | .vote w | .firstl w | .mtos w
  | .stom w => timeOf w.x.ty 1 2
  | .imul w | .imulh w | .imad w => timeOf w.x.ty 1 4
  | .fadd w | .fsub w | .fmul w | .ffma w | .fmin w | .fmax w | .fcmp w | .frnd w | .fclass w | .fdot2 w | .pack w
  | .unpack w => timeOf w.x.ty 1 4
  | .cvt w => if w.x.ty.is64 then timeOf w.x.ty 1 4 else timeOf w.x.sty 1 4
  | .shfl w | .shflx w | .bcst w => timeOf w.x.ty 1 4
  | .matchl w => timeOf w.x.ty 2 8
  | .redl w | .scanl w => timeOf w.x.ty 2 10
  | .cvtq _ | .cvtqd _ => (2, some 8)
  | .idiv w => timeOf w.x.ty 1 20
  | .fdiv w | .fsqrt w => timeOf w.x.ty 1 16
  | .frcp w | .frsq w => timeOf w.x.ty 1 8
  | .fexp2 w | .flog2 w => timeOf w.x.ty 1 10
  | .fsin w | .fcos w => timeOf w.x.ty 1 14
  | .movi w | .andi w | .ori w | .xori w => timeOf w.x.ty 1 2
  | .addi w => timeOf w.x.ty 1 (if w.x.ty.isFloat then 4 else 2)
  | .muli w => timeOf w.x.ty 1 4
  | .cmpi w => timeOf w.x.1 1 2
  | .movhi w => timeOf w.x 1 2
  | .ldc w => timeOf w.x.1 1 2
  | .stepq _ | .sprel _ | .tdset _ => (1, some 4)
  | .sread w => (1, some (if w.x = 0x32 then 40 else if w.x = 0x30 || w.x = 0x31 then 12 else 2))
  | .swrite _ | .xwrite _ | .assertw _ | .bkpt _ | .yieldw _ => (1, some 2)
  | .xread _ => (1, some 16)
  | .sprint _ => (1, some 8)
  | .tdget _ => (1, some 6)
  | .paddr _ | .pfree _ => (1, some 8)
  | .mrd _ => (1, some 12)
  | .mst _ => (1, some 32)
  | .step | .bra .. | .call .. | .ret .. | .jmps .. | .loop .. | .split .. | .jtab .. | .exit .. | .trap .. | .contain ..
  | .uncontain | .rft | .sigchk .. | .fence .. | .mma .. | .mmaq .. | .mmas .. | .mzero .. | .mld .. | .cpy .. | .cpyc ..
  | .cpyt .. | .gpool .. | .scata .. | .wmv .. | .wload .. | .fput .. | .fget .. | .post .. => (1, some 1)
  | i => match Instr.slots i with
    | some (x, y) =>
      (1, some (if POp.float x.op || POp.float y.op then 4 else 2))
    | none => (1, none)

/-! ### Source lanes (R235 to R238) -/

/-- The lane that SHFL reads in lane l for an operand b; none where it takes 0 (R236). -/
def shflLane (opx l b : Nat) : Option Nat :=
  match opx % 4 with
  | 0 => some (b % 32)
  | 1 =>
    let j : Int := (l : Int) + sext 32 b
    if j < 0 ∨ 31 < j then (if bit opx 2 then none else some l) else some j.toNat
  | 2 => some ((l + b) % 32)
  | _ => some (Nat.xor l (b % 32))

/-- Lanes that hold the block of a CVTQD (R235). -/
def blockLanes (opx : Nat) : Nat := if opx / 4 = 0 ∨ opx / 4 = 1 then 5 else 9

/-! ### Keys of poisoned registers (R419) -/

/-- Key of a register, and of the copy 1 of an export register; key of an entry of the split table. -/
def RegId.key : RegId → Nat
  | .v n l => 32 * n + l
  | .s n => 4096 + n
  | .m n => 8192 + n

def copyKey (n l : Nat) : Nat := 12288 + 32 * n + l
def splitKey (j : Nat) : Nat := 16384 + j

end Sys2Proof.Machine
end

