-- ==== Sys2Proof/Machine/Access.lean ====
section
/-!
DEFINITION. Access to the parts of the state: groups, splits and registers (R42, R60 to R65), path completion and merges
(R36, R287, R288), and the charge of a word (R145).
-/

namespace Sys2Proof.Machine

open Sys2Proof

/-! ### Reading and changing parts of the state -/

def State.group? (s : State) (k : Nat) : Option Group := Map.find? s.groups k
def State.launch? (s : State) (l : Nat) : Option Launch := Map.find? s.launches l
def State.ctx? (s : State) (launch core : Nat) : Option Ctx := Map.find? s.ctxs (ckey launch core)
def State.coreOf (s : State) (c : Nat) : CoreSt := Map.get s.cores {} c
def State.unitOf (s : State) (core u : Nat) : MatUnit := Map.get s.units {} (ukey core u)
def State.island (s : State) (i : Nat) : Island := Map.get s.islands {} i
def State.die (s : State) (d : Nat) : Die := Map.get s.dies {} d

def State.setGroup (s : State) (k : Nat) (g : Group) : State := { s with groups := Map.ins s.groups k g }
def State.modGroup (s : State) (k : Nat) (f : Group → Group) : State := { s with groups := Map.adjust s.groups k f }
def State.modLaunch (s : State) (l : Nat) (f : Launch → Launch) : State :=
  { s with launches := Map.adjust s.launches l f }
def State.modCtx (s : State) (launch core : Nat) (f : Ctx → Ctx) : State :=
  { s with ctxs := Map.adjust s.ctxs (ckey launch core) f }
def State.modCore (s : State) (c : Nat) (f : CoreSt → CoreSt) : State :=
  { s with cores := Map.put s.cores {} c (f (s.coreOf c)) }
def State.modUnit (s : State) (core u : Nat) (f : MatUnit → MatUnit) : State :=
  { s with units := Map.put s.units {} (ukey core u) (f (s.unitOf core u)) }
def State.mapUnits (s : State) (f : MatUnit → MatUnit) : State :=
  { s with units := (s.units.map fun (p : Nat × MatUnit) => (p.1, f p.2)).filter fun (p : Nat × MatUnit) => p.2 ≠ {} }
def State.modIsland (s : State) (i : Nat) (f : Island → Island) : State :=
  { s with islands := Map.put s.islands {} i (f (s.island i)) }
def State.modDie (s : State) (d : Nat) (f : Die → Die) : State :=
  { s with dies := Map.put s.dies {} d (f (s.die d)) }
def State.modThread (s : State) (t : Nat) (f : Thread → Thread) : State :=
  { s with threads := Map.adjust s.threads t f }

/-- Entry j of the split table; an entry that is not there is Free. -/
def Group.split (g : Group) (j : Nat) : Split := g.splits.getD j {}
def Group.modSplit (g : Group) (j : Nat) (f : Split → Split) : Group := { g with splits := modifyAt g.splits j f }
def State.modSplit (s : State) (k j : Nat) (f : Split → Split) : State := s.modGroup k fun g => g.modSplit j f

/-- Whether an entry is in use. -/
def Split.inUse (sp : Split) : Bool := sp.st != .free

/-- Whether an entry can issue words: Run or Serial (R175). -/
def Split.live (sp : Split) : Bool := sp.st == .run || sp.st == .serial

/-- Entries in use by index (R34). -/
def Group.used (g : Group) : List Nat := (List.range g.splits.length).filter fun j => (g.split j).inUse
def Group.liveSplits (g : Group) : List Nat := (List.range g.splits.length).filter fun j => (g.split j).live

/-- The union of the masks of all live splits (R72). A split is live in Run or Serial, as R46 says for STEP; the rule
names no other sense for %smask, and a parent in Join-wait does not count. Log 7: DESIGN CHOICE, unsafe. -/
def Group.smask (g : Group) : Mask := g.splits.foldl (fun m sp => if sp.live then m ||| sp.mask else m) 0

/-- Whether every peer is unreachable: the ports are off or no plane is ready (R349). -/
def State.noPlane (s : State) : Bool := !s.regs.fabEn || s.regs.rdy.getD 1 0 == 0

/-- A result of a PALLOC that an open region holds: it comes after the commit (R296). -/
def State.heldPend (s : State) (p : Pend) : Bool :=
  p.waits.any fun t => match Map.find? s.threads t with | some th => th.held | none => false

/-! ### Registers (R42, R60 to R64) -/

/-- Whether register vn is in the export window, and the current copy is copy 1 (R42). -/
def Group.inVx (g : Group) (n : Nat) : Bool := decide (112 ≤ n) && decide (n < 112 + g.e) && g.step % 2 == 1

/-- vn of a lane: the current copy where it is exported. -/
def Group.readV (g : Group) (n l : Nat) : Word :=
  if g.inVx n then Map.get g.vx 0 (32 * (n - 112) + l) else Map.get g.v 0 (32 * n + l)

def Group.readS (g : Group) (n : Nat) : Word := Map.get g.s 0 n

/-- m1 to m7; m0 is the split's Mask (R63). -/
def Group.readM (g : Group) (sp : Split) (n : Nat) : Mask := if n = 0 then sp.mask else Map.get g.m 0 n

/-- The pair sn, sn+1 (R61). -/
def Group.readS64 (g : Group) (n : Nat) : Dword := (g.readS (n + 1)) ++ (g.readS n)

/-- Key of the poison of a register, in its current copy (R42, R419). -/
def Group.badKey (g : Group) : RegId → Nat
  | .v n l => if g.inVx n then copyKey (n - 112) l else RegId.key (.v n l)
  | r => r.key

/-- Write one register (R42, R63: m0 is never written); what is written is not poisoned (R420). -/
def Group.writeReg (g : Group) (r : RegId) (x : Word) : Group :=
  let bad := Nats.del g.bad (g.badKey r)
  match r with
  | .v n l =>
    if g.inVx n then { g with vx := Map.put g.vx 0 (32 * (n - 112) + l) x, bad := bad }
    else { g with v := Map.put g.v 0 (32 * n + l) x, bad := bad }
  | .s n => { g with s := Map.put g.s 0 n x, bad := bad }
  | .m n => if n = 0 then g else { g with m := Map.put g.m 0 n x, bad := bad }

def Group.writeRegs (g : Group) (ws : List (RegId × Word)) : Group := ws.foldl (fun g w => g.writeReg w.1 w.2) g

/-- Set the flags an instruction names and keep the others (R65). -/
def Flags.upd (f : Flags) (u : FlagUpd) : Flags :=
  ⟨u.z.getD f.z, u.n.getD f.n, u.c.getD f.c, u.v.getD f.v, u.e.getD f.e, u.g.getD f.g⟩

/-- G and its complement Z (R65). -/
def FlagUpd.test (b : Bool) : FlagUpd := { z := some !b, g := some b }

/-- The execution mask (R63), less what RFT left out for one re-issue (R294). -/
def execMask (g : Group) (sp : Split) (p : Pred) : Mask :=
  let m := g.readM sp p.msel
  let e := sp.mask &&& (if p.minv then ~~~m else m)
  match sp.once with
  | some r => e &&& r
  | none => e

/-! ### Path completion (R36, R287, R288) -/

/-- P's top record on the serial stack. -/
def Group.topRec (g : Group) (j : Nat) : Option SerialRec := (g.stack.reverse).find? fun r => r.owner == j

/-- Replace or drop P's top record. -/
def setTop (j : Nat) (r : Option SerialRec) : List SerialRec → List SerialRec
  | [] => []
  | x :: l =>
    if x.owner == j && !(l.any fun y => y.owner == j) then r.toList ++ l else x :: setTop j r l

/-- A split is busy while its Children or its Pending field is nonzero (R287). Log 7: DEDUCED, unsafe. -/
def Group.busy (g : Group) (j : Nat) : Bool := (g.split j).children != 0 || (g.split j).pending != 0

/-- Lanes whose path has not yet started leave P's Pending as their path starts (R34, R36); P is Serial while some are
left. -/
def Split.start (sp : Split) (ls : Mask) : Split :=
  let p := sp.pending &&& ~~~ls
  { sp with pending := p, st := if p = 0 then .run else .serial, snapshot := if p = 0 then [] else sp.snapshot }

/-- Whether an entry in use is a child of P. -/
def Group.hasChild (g : Group) (j : Nat) : Bool := g.splits.any fun sp => sp.inUse && sp.parent == some j

/-- The address at which a split completes its path: the first rule of R288 that applies. Log 7: DEDUCED, unsafe. -/
def Group.joinOf (g : Group) (j : Nat) : Option Dword :=
  let sp := g.split j
  match g.topRec j with
  | some r => some r.join
  | none =>
    if sp.join != 0 then some sp.join
    else match sp.parent with
      | some p => some (g.split p).join
      | none => none

/-- Whether a split stands at the end of its path: its PC is that address, or no lane is left (R288, R291). -/
def Group.standsAtJoin (g : Group) (j : Nat) : Bool :=
  (g.split j).live && ((g.split j).mask == 0 || g.joinOf j == some (g.split j).pc)

/-- Whether a split completes its path now: its outstanding results have landed (R200), and it is not trapped there for a
mismatch (R407). -/
def Group.atJoin (g : Group) (j : Nat) : Bool :=
  g.standsAtJoin j && (g.split j).pend.isEmpty && (g.split j).wrong.isNone && (g.split j).wait != .trapped

/-- At a merge every word of the merged paths comes before every later word (R117): what any lane of the merged mask has
seen since the division all of them have, and a fence or a strong read of one of them is one of all. -/
def Group.joinSeen (g : Group) (before : Map Mask) (full : Mask) : Group :=
  let wide (m : Mask) : Mask := if m &&& full = 0 then m else m ||| full
  { g with
    seen := g.seen.map fun (p : Nat × Mask) =>
      if (p.2 &&& full &&& ~~~Map.get before 0 p.1) = 0 then p else (p.1, p.2 ||| full)
    relFences := g.relFences.map fun f => (wide f.1, f.2)
    strongReads := g.strongReads.map fun r => (wide r.1, r.2) }

/-- The check at a merge and at a serial pop (R288): the lowest lane present in exactly one of the formed mask and the
mask before the division, each less the lanes that have exited. Log 7: DEDUCED, unsafe. -/
def Group.mismatch (g : Group) (formed full : Mask) : Option Nat := (lanesOf ((formed ^^^ full) &&& ~~~g.exited)).head?

/-- The merge (R36): the union of the path masks less the exited lanes, the merge event folded, Join and Children cleared;
the parent continues at the join address, no earlier than 2 cycles later (R282). A mismatch is found here (R288).
Log 7: DEDUCED, unsafe. -/
def Group.merge (g : Group) (j : Nat) : Group :=
  (g.joinSeen (g.split j).before (g.split j).full).modSplit j fun sp =>
    { sp with st := .run, mask := sp.formed &&& ~~~g.exited, sig := foldMerge sp.sig, pc := sp.join, join := 0,
              children := 0, full := 0, formed := 0, wrong := g.mismatch sp.formed sp.full, snapshot := [], before := [],
              stall := 2 }

/-- The lowest-numbered Free entry. -/
def Group.freeEntry (g : Group) : Option Nat := (List.range g.splits.length).find? fun j => !(g.split j).inUse

/-- Take the next pending path into entry k for parent P; when P takes it itself it keeps its CC and signature
(R36, R290). An entry made at the division waits as P does (R282). -/
def Group.takePath (g : Group) (p k : Nat) : Group :=
  let pp := g.split p
  match pp.paths with
  | [] => g
  | (pc, ls) :: rest =>
    let g := g.modSplit p fun sp =>
      let sp := if sp.live then sp.start ls else { sp with pending := sp.pending &&& ~~~ls }
      { sp with paths := rest, children := if k = p then sp.children else Nat.lor sp.children (2 ^ k) }
    if k = p then g.modSplit k fun sp => { sp with pc := pc, mask := ls &&& ~~~g.exited }
    else
      { g with bad := Nats.del g.bad (splitKey k), lat := g.lat.filter fun x => x.1 < 768 || (x.1 - 768) / 8 != k : Group }.modSplit
        k fun _ =>
        { st := .run, pc := pc, mask := ls &&& ~~~g.exited, cc := pp.pathCc, sig := pp.pathSig, parent := some p,
          stall := pp.stall }

/-- The next pending path goes to the lowest Free entry while there is one (R35, step 3; R36).
Log 7: DEDUCED, unsafe. -/
def Group.fill : Nat → Group → Nat → Group
  | 0, g, _ => g
  | n + 1, g, p =>
    match (g.split p).paths, g.freeEntry with
    | _ :: _, some k => Group.fill n (g.takePath p k) p
    | _, _ => g

/-- What the completion of entry j's path leads to (R36, R287, R288). Log 7: DEDUCED, unsafe. -/
def Group.complete (g : Group) (j : Nat) : Group :=
  let sp := g.split j
  match g.topRec j with
  | some r =>
    let formed := r.formed ||| sp.mask
    match r.queue with
    | (pc, ls) :: rest =>
      { g.modSplit j (fun sp => { sp.start ls with pc := pc, mask := ls &&& ~~~g.exited }) with
          stack := setTop j (some { r with queue := rest, formed := formed }) g.stack }
    | [] =>
      { (g.joinSeen r.before r.full).modSplit j (fun sp =>
          { sp with mask := formed &&& ~~~g.exited, sig := foldMerge sp.sig, pc := r.join,
                    wrong := g.mismatch formed r.full, stall := 2 }) with
          stack := setTop j none g.stack }
  | none =>
    if sp.join != 0 then
      let g := Group.fill 4 (g.modSplit j fun sp => { sp with formed := sp.formed ||| sp.mask }) j
      if (g.split j).paths != [] then g.takePath j j
      else if g.hasChild j then g.modSplit j fun sp => { sp with st := .joinWait, pc := sp.join }
      else g.merge j
    else match sp.parent with
      | none => g.modSplit j fun _ => {}
      | some p =>
        let g := (g.modSplit p fun pp => { pp with formed := pp.formed ||| sp.mask }).modSplit j fun _ => {}
        if (g.split p).paths != [] then g.takePath p j
        else if (g.split p).st == .joinWait && !g.hasChild p then g.merge p
        else g

/-- Completions follow one another while an entry stands at its join with nothing outstanding (R288). -/
def Group.settle : Nat → Group → Group
  | 0, g => g
  | n + 1, g =>
    match (List.range g.splits.length).find? g.atJoin with
    | some j => Group.settle n (g.complete j)
    | none => g

/-- Enough completions for every entry, record and path of a group. -/
def settleFuel : Nat := 1024

/-- A split's PC takes a new value, and the path test is made (R288): a split that reaches its join with results
outstanding closes their windows and waits there (R200). -/
def Group.moveTo (g : Group) (j : Nat) (pc : Dword) : Group :=
  let g := g.modSplit j fun sp => { sp with pc := pc }
  let g := if g.standsAtJoin j then
      g.modSplit j fun sp => { sp with pend := sp.pend.map fun p => { p with left := 0 } }
    else g
  Group.settle settleFuel g

/-- Lanes leave every mask of the group (R291, R294); a split left with none completes its path. -/
def Group.leave (g : Group) (ls : Mask) : Group :=
  { g with exited := g.exited ||| ls, splits := g.splits.map fun sp =>
      { sp with mask := sp.mask &&& ~~~ls, pending := sp.pending &&& ~~~ls } }

/-! ### Charges (R144, R145) -/

/-- Class bits of an operand field: vector or neighbour. -/
def fieldVec (w hi : Nat) : Bool := bits w hi (hi - 1) == 0 || bits w hi (hi - 1) == 2

/-- Opcodes of chapter 10 with no second source (R213 to R243). -/
def unaryOp (op : Nat) : Bool :=
  [0x02, 0x0C, 0x16, 0x17, 0x18, 0x27, 0x28, 0x29, 0x2A, 0x2C, 0x2D, 0x2E, 0x2F, 0x30, 0x38, 0x39, 0x3A, 0x3C, 0x43,
   0x44, 0x45, 0x46, 0x47, 0x48, 0x49].contains op

/-- Whether a type code is 64 bits wide. -/
def code64 (c : Nat) : Bool := c == 2 || c == 3 || c == 5

/-- Memory words of a code with an order, at bits 12:10: loads, stores and PREF, atomics, barrier words, the per-lane
words of peers and parcels, PRECV. -/
def orderedOp (op : Nat) : Bool :=
  (decide (0x80 ≤ op) && decide (op ≤ 0x94) && op != 0x8B) || (decide (0xA0 ≤ op) && decide (op ≤ 0xA7))
  || [0xB8, 0xB9, 0xBC, 0xBD, 0xC3, 0xC4, 0xC5, 0xC7].contains op

/-- Whether what a split has issued may still be performed after a word of it (R120): reads that are late and atomics.
That is so of every word but a release, a fence, a word that forks a thread or hands a parcel over, and those that end
lanes, trap, or open or close a region, which are taken to come after them. Log 2: DEDUCED, unsafe. -/
def staysLate (w : Nat) : Bool :=
  let op := bits w 61 54
  match bits w 63 62 with
  | 0 =>
    if orderedOp op then decide (bits w 12 10 ≤ 2)
    else decide (op < 0x80) || [0xC2, 0xC8, 0xD0, 0xD1, 0xD3, 0xD4, 0xD5, 0xD6].contains op
  | 3 => decide (1 ≤ bits w 61 56) && decide (bits w 61 56 ≤ 7)
  | _ => true

/-- The charge of a word (R145): the highest row it belongs to, vector classes doubled for 64-bit types. The rows of float
and long words name their words whatever their operands are; the row of simple words asks for a vector word (R189). No row
names PREF, which counts as a load, and none says which of CVT's types decides the doubling: either does. CMPI of a float
type is the simple word that R209 calls it, and no float word, which the row of float words leaves open.
Log 4: DESIGN CHOICE, unsafe. -/
def chargeOf (w : Nat) : Nat :=
  let op := bits w 61 54
  match bits w 63 62 with
  | 1 => 2
  | 3 => 1
  | 2 =>
    let ty := bits w 39 36
    let float := (op = 0x02 || op = 0x06) && (ty = 4 || ty = 5)
    if op = 0x0A then 1
    else if float || fieldVec w 49 then (if float then 3 else 2) * (if code64 ty then 2 else 1)
    else 1
  | _ =>
    if op ≤ 0x49 then
      let aUsed := op != 0x48
      let bUsed := !unaryOp op
      let nb := (aUsed && bits w 35 34 == 2) || (bUsed && bits w 25 24 == 2)
      let mask := bits w 45 44 == 3 && bits w 43 36 != 0
      let vec := op != 1 && (fieldVec w 45 || mask || op = 0x48 || (aUsed && fieldVec w 35) || (bUsed && fieldVec w 25))
      let ty := bits w 15 12
      let long := op = 0x09 || op = 0x28 || op = 0x29 || op = 0x2A || op = 0x2B || (0x2C ≤ op && op ≤ 0x2F)
      let float := (0x20 ≤ op && op ≤ 0x3C) || ((op = 0x45 || op = 0x46) && (ty = 4 || ty = 5))
      if long || float || nb || vec then
        (if long then 4 else if float || nb then 3 else 2)
          * (if code64 ty || (op = 0x38 && code64 (bits w 7 4)) then 2 else 1)
      else 1
    else if op = 0x5E then (if fieldVec w 35 then 2 else 1)
    else if 0x58 ≤ op && op ≤ 0x5B then 3
    else if op < 0x80 then 1
    else if op < 0xB0 || op = 0xB8 || op = 0xB9 || op = 0xBC || op = 0xBD then 3
    else if 0xD0 ≤ op && op ≤ 0xD2 then 64
    else if 0xD3 ≤ op && op ≤ 0xD6 then 8
    else 4

end Sys2Proof.Machine
end

