-- ==== Sys2Proof/Machine/Field.lean ====
section
/-!
DEFINITION. The geometry of a field launch (R38 to R44): which patch, core, set, group and lane hold a cell, what lies
across each face, and what a neighbour operand reads.
-/

namespace Sys2Proof.Machine

open Sys2Proof

/-- Extent, patch size, blocks and boundary mode of an axis (0 x, 1 y, 2 z). -/
def Record.extent (r : Record) (a : Nat) : Nat := r.ext.getD a 1
def Record.patchLen (r : Record) (a : Nat) : Nat := r.patch.getD a 1
def Record.blocks (r : Record) (a : Nat) : Nat := r.ctile.getD a 1
def Record.mode (r : Record) (a : Nat) : Nat := r.bmode.getD a 0

/-- Patches along an axis. -/
def Record.patches (r : Record) (a : Nat) : Nat := ceilDiv (r.extent a) (r.patchLen a)

/-- Start and size of block i along an axis of Q patches cut into C blocks (R40, step 2). -/
def blockStart (q c i : Nat) : Nat := i * (q / c) + min i (q % c)
def blockSize (q c i : Nat) : Nat := q / c + (if i < q % c then 1 else 0)

/-- The block that holds patch x of an axis. -/
def blockOf (q c x : Nat) : Nat :=
  let big := q / c + 1
  if x < (q % c) * big then x / big else q % c + (x - (q % c) * big) / max 1 (q / c)

/-- Coordinates of block b, x fastest. -/
def Record.blockCoord (r : Record) (b a : Nat) : Nat :=
  if a = 0 then b % r.blocks 0 else if a = 1 then b / r.blocks 0 % r.blocks 1 else b / (r.blocks 0 * r.blocks 1)

/-- Size of block b along an axis, its patches, G and V′ (R40, step 3). -/
def Record.blockLen (r : Record) (b a : Nat) : Nat := blockSize (r.patches a) (r.blocks a) (r.blockCoord b a)
def Record.blockPatches (r : Record) (b : Nat) : Nat := r.blockLen b 0 * r.blockLen b 1 * r.blockLen b 2
def Record.groupsPerSet (r : Record) (b : Nat) : Nat := ceilDiv (r.blockPatches b) r.v
def Record.setsOf (r : Record) (b : Nat) : Nat := ceilDiv (r.blockPatches b) (max 1 (r.groupsPerSet b))

/-- Slot of patch j′ of a set: partition j′ mod 16, slot j′ ÷ 16 (R40, step 4). -/
def patchSlot (j : Nat) : Nat := 4 * (j % 16) + j / 16

/-- Groups of set i of block b. -/
def Record.setGroups (r : Record) (b i : Nat) : Nat :=
  let g := r.groupsPerSet b
  min ((i + 1) * g) (r.blockPatches b) - i * g

/-- Origin, in cells, of patch j of block b along an axis. -/
def Record.patchOrigin (r : Record) (b j a : Nat) : Nat :=
  let s0 := r.blockLen b 0
  let s1 := r.blockLen b 1
  let off := if a = 0 then j % s0 else if a = 1 then j / s0 % s1 else j / (s0 * s1)
  (blockStart (r.patches a) (r.blocks a) (r.blockCoord b a) + off) * r.patchLen a

/-- Lane offsets within a patch (R39). -/
def Record.laneOff (r : Record) (l a : Nat) : Nat :=
  if a = 0 then l % r.patchLen 0
  else if a = 1 then l / r.patchLen 0 % r.patchLen 1 else l / (r.patchLen 0 * r.patchLen 1)

/-- Whether lane l of a patch at an origin holds a cell (R39). -/
def Record.holdsCell (r : Record) (origin : List Nat) (l : Nat) : Bool :=
  decide (l < r.patchLen 0 * r.patchLen 1 * r.patchLen 2)
  && (List.range 3).all fun a => decide (origin.getD a 0 + r.laneOff l a < r.extent a)

/-- Coordinate of lane l's cell (R39): %cx, %cy, %cz. -/
def Group.cellCoord (g : Group) (r : Record) (l a : Nat) : Nat := g.origin.getD a 0 + r.laneOff l a

/-- A cell's number, x fastest. -/
def Record.cellId (r : Record) (x y z : Nat) : Nat := x + r.extent 0 * (y + r.extent 1 * z)

/-- Where a cell is held: core-list entry, set, slot and lane (R39, R40). -/
def Record.place (r : Record) (x y z : Nat) : Nat × Nat × Nat × Nat :=
  let c (a : Nat) := if a = 0 then x else if a = 1 then y else z
  let q (a : Nat) := c a / r.patchLen a
  let bc (a : Nat) := blockOf (r.patches a) (r.blocks a) (q a)
  let b := bc 0 + r.blocks 0 * (bc 1 + r.blocks 1 * bc 2)
  let o (a : Nat) := q a - blockStart (r.patches a) (r.blocks a) (bc a)
  let j := o 0 + r.blockLen b 0 * (o 1 + r.blockLen b 1 * o 2)
  let g := max 1 (r.groupsPerSet b)
  let lane := c 0 % r.patchLen 0 + r.patchLen 0 * (c 1 % r.patchLen 1 + r.patchLen 1 * (c 2 % r.patchLen 2))
  (b, j / g, patchSlot (j % g), lane)

/-- What lies across a face: a constant, or a cell (R44, cases 2 to 4). -/
inductive Across where
  | const (w : Word)
  | cell (x y z : Nat)
  deriving DecidableEq, Repr

/-- Step one cell in direction dir (R43): the axis is dir ÷ 2, the sense + for even codes. -/
def Record.across (r : Record) (x y z dir : Nat) : Across :=
  let a := dir / 2
  let c := if a = 0 then x else if a = 1 then y else z
  let n := r.extent a
  let go (v : Nat) : Across := if a = 0 then .cell v y z else if a = 1 then .cell x v z else .cell x y v
  let face := if dir % 2 = 0 then 2 * a + 1 else 2 * a
  let edge := if dir % 2 = 0 then c + 1 == n else c == 0
  if edge then
    match r.mode a with
    | 2 => .const 0
    | 1 => .const (BitVec.ofNat 32 (r.face.getD face 0))
    | _ => go (if dir % 2 = 0 then 0 else n - 1)
  else go (if dir % 2 = 0 then c + 1 else c - 1)

/-- Key of a published value in a halo store (R55). -/
def haloKey (parity cell j : Nat) : Nat := (2 * cell + parity) * 16 + j

/-- Number of a group within its launch, as pushes name their sender: core-list entry, set, slot. -/
def srcKey (b set slot : Nat) : Nat := (b * 16 + set) * 64 + slot

/-- Core-list entry of a sender. -/
def srcEntry (src : Nat) : Nat := src / 1024

/-- A group's published value of export register j in lane l: zero before anything was published (R44, R48). -/
def Group.published1 (g : Group) (parity j l : Nat) : Word := Map.get g.pub 0 (32 * (16 * parity + j) + l)

/-- The parity that holds a cell's value of a step, where the cell stopped publishing after `n` steps (R48): its last
value stands for every later step, and nothing where it never published. -/
def parityOf (n : Option Nat) (step : Nat) : Option Nat :=
  match n with
  | some n => if n ≤ step then (if n = 0 then none else some ((n - 1) % 2)) else some (step % 2)
  | none => some (step % 2)

/-- The value of export register j that lane l published in a step (R46, R48). -/
def Group.publishedAt (g : Group) (step j l : Nat) : Word :=
  match parityOf (Map.find? g.left l) step with
  | some p => g.published1 p j l
  | none => 0

/-- The steps that a sender published, once its final push has arrived (R48). -/
def Ctx.final? (c : Ctx) (src : Nat) : Option Nat := (c.arrived.find? fun a => a.1 == src && a.2.2).map fun a => a.2.1

/-- What a neighbour operand `v(112+j).dir` reads in lane l of group `g` (R44, R48, R55). -/
def nbRead (s : State) (g : Group) (c : Ctx) (r : Record) (l dir j : Nat) : Word :=
  if g.step = 0 then 0
  else
    match r.across (g.cellCoord r l 0) (g.cellCoord r l 1) (g.cellCoord r l 2) dir with
    | .const w => w
    | .cell x y z =>
      let step := g.step - 1
      let (b, set, slot, lane) := r.place x y z
      let near := s.group? (gkey g.launch g.core set slot)
      if b = c.index && set = g.set then (near.map fun n => n.publishedAt step j lane).getD 0
      else
        let last := if b = c.index then near.bind fun n => if n.gone then Map.find? n.left lane else none
          else c.final? (srcKey b set slot)
        match parityOf last step with
        | some p => Map.get c.halo 0 (haloKey p (r.cellId x y z) j)
        | none => 0

/-- Cycles that a neighbour operand adds in lane l (R50): by where the neighbour's value comes from. -/
def nbCost (g : Group) (c : Ctx) (r : Record) (l dir : Nat) : Nat :=
  match r.across (g.cellCoord r l 0) (g.cellCoord r l 1) (g.cellCoord r l 2) dir with
  | .const _ => 1
  | .cell x y z =>
    let (b, set, slot, _) := r.place x y z
    if b ≠ c.index ∨ set ≠ g.set then 4 else if slot = g.slot then 1 else if slot / 4 = g.slot / 4 then 2 else 4

/-! ### Publication, pushes and the step-phase rule (R46 to R48, R51, R55) -/

/-- The neighbours of lane l's cell that lie in the lattice: core-list entry, set, slot, lane. -/
def Group.neighbours (g : Group) (r : Record) (l : Nat) : List (Nat × Nat × Nat × Nat) :=
  (List.range 6).filterMap fun dir =>
    match r.across (g.cellCoord r l 0) (g.cellCoord r l 1) (g.cellCoord r l 2) dir with
    | .const _ => none
    | .cell x y z => some (r.place x y z)

/-- Cell number of lane l. -/
def Group.cellNo (g : Group) (r : Record) (l : Nat) : Nat :=
  r.cellId (g.cellCoord r l 0) (g.cellCoord r l 1) (g.cellCoord r l 2)

/-- Copy values into the published store of one parity: `f j l` for the lanes of a mask. -/
def Group.setPub (g : Group) (parity : Nat) (ls : Mask) (f : Nat → Nat → Word) : Group :=
  { g with pub := (lanesOf ls).foldl (fun m l =>
      (List.range g.e).foldl (fun m j => Map.put m 0 (32 * (16 * parity + j) + l) (f j l)) m) g.pub }

/-- Freeze the current copies as the published values of the current step; exited cells keep theirs (R46, R48). -/
def Group.freeze (g : Group) : Group :=
  { g.setPub (g.step % 2) (g.cellMask &&& ~~~g.exited) (fun j l => g.readV (112 + j) l) with
    published := g.published + 1 }

/-- Lanes leave their cells: what they published last stands for every later step (R48). -/
def Group.leaveCells (g : Group) (ls : Mask) : Group :=
  { g with left := (lanesOf (ls &&& g.cellMask)).foldl (fun m l => Map.ins m l g.published) g.left }

/-- Values of a step of the lanes that satisfy a test, as entries of a halo store in the step's parity (R48, R55). -/
def Group.haloVals (g : Group) (r : Record) (step : Nat) (f : Nat → Bool) : List (Nat × Word) :=
  ((lanesOf g.cellMask).filter f).flatMap fun l =>
    (List.range g.e).map fun j => (haloKey (step % 2) (g.cellNo r l) j, g.publishedAt step j l)

/-- Write entries into a halo store. -/
def haloPut (h : Map Word) (vals : List (Nat × Word)) : Map Word := vals.foldl (fun h v => Map.put h 0 v.1 v.2) h

/-- The own part of the halo store: values of cells with a neighbour in another set of this core (R55). -/
def Group.ownVals (g : Group) (r : Record) (b step : Nat) : List (Nat × Word) :=
  g.haloVals r step fun l => (g.neighbours r l).any fun n => n.1 == b && n.2.1 != g.set
def State.haloOwn (s : State) (g : Group) (r : Record) (b step : Nat) : State :=
  s.modCtx g.launch g.core fun c => { c with halo := haloPut c.halo (g.ownVals r b step) }

/-- Slice lines that a halo fill covers (R112): the place of a value in the halo store is not stated.
Log 19: DESIGN CHOICE, safe. -/
def Ctx.haloLines (c : Ctx) (r : Record) (vals : List (Nat × Word)) : List Nat :=
  let base := 128 * r.scratch
  let n := (c.sliceBytes - base) / 4
  if n = 0 then [] else vals.foldl (fun ls v => Nats.ins ls ((base + 4 * (Config.haloPlace v.1 % n)) / 128)) []

/-- Add to the pending counts of lines of a slice (R112). -/
def Ctx.pend (c : Ctx) (ls : List Nat) (f : Nat → Nat) : Ctx :=
  { c with counts := ls.foldl (fun m x => Map.put m 0 x (f (Map.get m 0 x))) c.counts }

/-- A push on its way to another core of this device: the lines it fills are absent (R51, R112). -/
def State.sendPush (s : State) (l : Launch) (p : Push) (core : Nat) : State :=
  ({ s with pushes := s.pushes ++ [p] }).modCtx p.launch core fun c => c.pend (c.haloLines l.r p.vals) (· + 1)

/-- A push to a core of another device: it waits here while no plane is ready (R349). -/
def State.sendAway (s : State) (p : Push) (dev : Nat) : State :=
  if s.noPlane then { s with pushes := s.pushes ++ [p] } else { s with fabricOut := s.fabricOut ++ [.halo dev p] }

/-- Send a step's values to every other core that holds a neighbour of a cell of the group (R51); the final push carries
the token alone (R376). A core of another device is reached through the fabric. -/
def State.pushStep (s : State) (g : Group) (l : Launch) (b step : Nat) (final : Bool) : State :=
  let near (d : Nat) (ln : Nat) : Bool := (g.neighbours l.r ln).any fun n => n.1 == d
  let dsts := (List.range l.cores.length).filter fun d => d != b && (lanesOf g.cellMask).any (near d)
  dsts.foldl (fun s d =>
    let p : Push := ⟨g.launch, srcKey b g.set g.slot, d, step, final, if final then [] else g.haloVals l.r step (near d)⟩
    let e := l.cores.getD d ⟨0, 0, 0⟩
    if e.dev = s.regs.devno then s.sendPush l p e.core else s.sendAway p e.dev) s

/-- Whether a group's splits have all met at STEP: every Run or Serial split waits there, and nothing was published for
this step yet (R46). -/
def Group.atRendezvous (g : Group) : Bool :=
  g.published == g.step && !g.liveSplits.isEmpty && g.liveSplits.all fun j => (g.split j).wait == .step

/-- Publication and pushes of the step a group ends (R46, steps 1 and 2). -/
def State.publish (s : State) (k : Nat) : State :=
  match s.group? k with
  | none => s
  | some g =>
    match s.launch? g.launch, s.ctx? g.launch g.core with
    | some l, some c =>
      let g' := g.freeze
      let s := s.setGroup k g'
      let s := if 1 < c.sets then s.haloOwn g' l.r c.index g.step else s
      s.pushStep g' l c.index g.step false
    | _, _ => s

/-- Lanes exit their cells (R48). -/
def State.exitCells (s : State) (k : Nat) (ls : Mask) : State :=
  s.modGroup k fun g => if g.e = 0 then g else g.leaveCells ls

/-- The final push of a group that has exited (R48): it names the steps the group published. -/
def State.finalPush (s : State) (k : Nat) : State :=
  match s.group? k with
  | none => s
  | some g =>
    match s.launch? g.launch, s.ctx? g.launch g.core with
    | some l, some c => s.pushStep g l c.index g.published true
    | _, _ => s

/-- Whether one neighbour lets the group enter step k + 1 (R47): on the same core it has executed the STEP that ends
step k or has exited; on another core its push for step k has arrived, or its final push where the sender published no
step k. -/
def neighbourReady (s : State) (g : Group) (c : Ctx) (k : Nat) (n : Nat × Nat × Nat × Nat) : Bool :=
  let (b, set, slot, lane) := n
  if b = c.index then
    if set = g.set && slot = g.slot then true
    else match s.group? (gkey g.launch g.core set slot) with
      | some x => decide (k < x.published) || x.gone || x.exited.getLsbD lane
      | none => false
  else c.arrived.any fun a => a.1 == srcKey b set slot && (if a.2.2 then decide (a.2.1 ≤ k) else a.2.1 == k)

/-- The step-phase rule (R47). Log 32: DEDUCED, unsafe. -/
def mayEnter (s : State) (g : Group) (c : Ctx) (r : Record) : Bool :=
  (lanesOf g.cellMask).all fun l => (g.neighbours r l).all (neighbourReady s g c g.step)

/-- STEPQ's count (R300): each sending core whose push of this step is awaited, and each group of the same set and core
that has not published it. -/
def stepqCount (s : State) (g : Group) (c : Ctx) (r : Record) : Nat :=
  let ns := ((lanesOf g.cellMask).flatMap fun l => g.neighbours r l).filter fun (n : Nat × Nat × Nat × Nat) =>
    !neighbourReady s g c g.step n && (n.1 != c.index || n.2.1 == g.set)
  ((ns.map fun (n : Nat × Nat × Nat × Nat) => if n.1 = c.index then (0, n.2.2.1) else (1, n.1)).eraseDups).length

end Sys2Proof.Machine
end

