-- ==== Sys2Proof/Machine/Mem.lean ====
section
/-!
DEFINITION. Physical memory (R103): what kind of location an address is, writes that are performed at their home with
their effect on parcel tags and poison (R135, R420) and their place in coherence order (R119); which writes an agent sees
(R116 to R124), what a read may return, and where a write takes its place.
-/

namespace Sys2Proof.Machine

open Sys2Proof

/-- The location kinds of the physical map (R103). -/
inductive LocKind where
  | hbm | tier2 | host | cxl | peer | reserved
  deriving DecidableEq, Repr

/-- The kind of a physical address (R103). -/
def kindOf (pa : Nat) : LocKind :=
  if pa < 0x8000000000 then .hbm
  else if pa < 0x1F000000000 then .tier2
  else if 0x80000000000 ≤ pa && pa < 0xC0000000000 then .host
  else if 0x100000000000 ≤ pa && pa < 0x500000000000 then .cxl
  else if 0x1000000000000 ≤ pa && pa < 0x2000000000000 then .peer
  else .reserved

/-- Device and Host kind: what loads and stores reach (R253). -/
def LocKind.plain : LocKind → Bool
  | .hbm | .tier2 | .host | .cxl => true
  | _ => false

/-- Host kind (R103). -/
def LocKind.isHost : LocKind → Bool
  | .host | .cxl => true
  | _ => false

/-- A granule of 32 bytes, and a 32-bit word, by number. -/
def granule (pa : Nat) : Nat := pa / 32

/-- Poison after a write of n bytes at pa (R420): clean data over a whole granule clears it, poisoned data sets it. -/
def poisonAfter (bad : List Nat) (pa n : Nat) (poisoned : Bool) : List Nat :=
  (List.range (n / 32 + 2)).foldl (fun bad i =>
    let g := granule pa + i
    if 32 * g < pa + n then
      if poisoned then Nats.ins bad g
      else if pa ≤ 32 * g && 32 * g + 32 ≤ pa + n then Nats.del bad g else bad
    else bad) bad

/-- Tags after a write of n bytes at pa (R135): each 32-bit word it changes loses its tag; a write that sets one names
a whole word. Tags exist in HBM only. Log 17: DEDUCED, unsafe. -/
def tagsAfter (tags : List Nat) (pa n : Nat) (tag : Bool) : List Nat :=
  if kindOf pa != .hbm || n == 0 then tags
  else
    let ws := tags.filter fun w => !(decide (pa / 4 ≤ w) && decide (w ≤ (pa + n - 1) / 4))
    if tag then Nats.ins ws (pa / 4) else ws

/-- A 32-bit word among a port's component registers. -/
def cxlReg (cxl : Map Byte) (port off : Nat) : Nat :=
  leNat ((List.range 4).map fun i => Map.get cxl 0 (65536 * port + off + i))

/-- Whether one of a port's 8 decoders claims an offset of the CXL window (R351): it is committed, the offset lies in its
range, and its turn in the interleave of 1, 2 or 4 ports at 256 bytes to 16 KiB is the port's.
Log 20: PRESUMED, unsafe. -/
def hdmClaims (cxl : Map Byte) (port o : Nat) : Bool :=
  (List.range 8).any fun i =>
    let r (x : Nat) : Nat := cxlReg cxl port (Config.hdmAt + 16 + 32 * i + x)
    let base := bits (r 0) 31 28 * 2 ^ 28 + r 4 * 2 ^ 32
    let size := bits (r 8) 31 28 * 2 ^ 28 + r 12 * 2 ^ 32
    let ig := bits (r 16) 3 0
    let iw := bits (r 16) 7 4
    let turn := o / (256 * 2 ^ ig) % 2 ^ iw
    bit (r 16) 10 && decide (iw ≤ 2) && decide (ig ≤ 6) && decide (base ≤ o) && decide (o < base + size)
      && bits (r 20) (8 * turn + 7) (8 * turn) == port

/-- The CXL port that claims an address of the CXL window (R351). Log 20: PRESUMED, unsafe. -/
def State.cxlPort (s : State) (pa : Nat) : Option Nat :=
  (List.range 4).find? fun p => hdmClaims s.regs.cxl p (pa - 0x100000000000)

/-- A location behind a CXL port that has failed (R443). -/
def State.behindDown (s : State) (pa : Nat) : Bool :=
  kindOf pa == .cxl && match s.cxlPort pa with | some p => s.cxlDown.contains p | none => false

/-- A location whose contents are lost: homed on a fenced die, or behind a failed CXL port. Reads consume poison and
writes are dropped (R439, R443). -/
def State.lost (s : State) (pa : Nat) : Bool := (s.die (homeDie pa)).fenced || s.behindDown pa

/-- Whether a write covers a byte, and the byte that it replaced there. -/
def Wr.covers (w : Wr) (a : Nat) : Bool := decide (w.addr ≤ a) && decide (a < w.addr + w.old.length)
def Wr.was (w : Wr) (a : Nat) : Byte := w.old.getD (a - w.addr) 0

/-- The bytes of physical memory from an address on. -/
def State.physBytes (s : State) (pa n : Nat) : List Byte := (List.range n).map fun i => Memory.read s.mem (pa + i)

/-- The bytes of a place now. -/
def State.bytesAt (s : State) (sp : Space) (a n : Nat) : List Byte :=
  match sp with
  | .mem => s.physBytes a n
  | .scr launch core =>
    match s.ctx? launch core with
    | some c => (List.range n).map fun i => Map.get c.scr 0 (a + i)
    | none => List.replicate n 0
  | .wd die => (List.range n).map fun i => Map.get (s.die die).weights 0 (a + i)

/-- The writes to any of n bytes, the last in coherence order first. -/
def State.writesTo (s : State) (sp : Space) (a n : Nat) : List Wr :=
  s.hist.filter fun w => w.space == sp && decide (w.addr < a + n) && decide (a < w.addr + w.old.length)

/-- Byte a behind some writes, from what it is now and the writes to it, the last first (R119): the byte, and the writes
from the one that made it on. -/
def lookBack (gone : List Nat) (a : Nat) : Byte → List Wr → Byte × List Wr
  | b, [] => (b, [])
  | b, w :: ws =>
    if !w.covers a then lookBack gone a b ws
    else if gone.contains w.id then lookBack gone a (w.was a) ws
    else (b, w :: ws.filter fun x => x.covers a)

/-- n bytes of a place behind some writes. -/
def State.bytesBehind (s : State) (sp : Space) (a n : Nat) (gone : List Nat) : List Byte :=
  if gone.isEmpty then s.bytesAt sp a n
  else (s.bytesAt sp a n).mapIdx fun i b => (lookBack gone (a + i) b (s.writesTo sp a n)).1

/-- What the history keeps of a write beside its place: its number, its maker, whether it is the write of a
read-modify-write, its releases, its word, whether it stands next to what it was formed from, whether its data is
poisoned; and the writes that it goes behind (R119). -/
structure Stamp where
  id : Nat
  maker : Agent
  rmw : Bool := false
  rels : List Rel := []
  word : Nat := 0
  tight : Bool := false
  bad : Bool := false
  behind : List Nat := []
  deriving DecidableEq, Repr

/-- A write stands in the history behind the last of those that it goes behind. -/
def insertBehind (gone : List Nat) (w : Wr) : List Wr → List Wr
  | [] => [w]
  | x :: l => if (x :: l).any fun y => gone.contains y.id then x :: insertBehind gone w l else w :: x :: l

/-- What a write goes behind now replaces its bytes, where it comes directly after it. -/
def patchOld (gone : List Nat) (sp : Space) (a : Nat) (bs : List Byte) : List Wr → List Wr
  | [] => []
  | x :: l =>
    let below (c : Nat) : Bool := l.any fun y => y.space == sp && gone.contains y.id && y.covers c
    (if x.space == sp && gone.contains x.id then
      { x with old := x.old.mapIdx fun i b =>
          if a ≤ x.addr + i ∧ x.addr + i < a + bs.length ∧ !below (x.addr + i) then bs.getD (x.addr + i - a) 0 else b }
    else x) :: patchOld gone sp a bs l

/-- The place in coherence order of a write that is performed now: after all others, or behind some of them (R119).
Log 2: DESIGN CHOICE, unsafe. -/
def State.record (s : State) (w : Stamp) (sp : Space) (a : Nat) (bs : List Byte) : State :=
  let x : Wr :=
    { id := w.id, space := sp, addr := a, old := s.bytesBehind sp a bs.length w.behind, maker := w.maker, rmw := w.rmw,
      rels := w.rels, word := w.word, tight := w.tight, bad := w.bad }
  { s with hist := if w.behind.isEmpty then x :: s.hist
                   else insertBehind w.behind x (patchOld w.behind sp a bs s.hist) }

/-- The bytes that a place takes as a write is performed: where it goes behind another, that other's stay. -/
def State.bytesAfter (s : State) (w : Stamp) (sp : Space) (a : Nat) (bs : List Byte) : List Byte :=
  if w.behind.isEmpty then bs
  else
    let now := s.bytesAt sp a bs.length
    bs.mapIdx fun i b =>
      if (s.writesTo sp a bs.length).any fun x => w.behind.contains x.id && x.covers (a + i) then now.getD i 0 else b

/-- Whether one word of a group has written every byte of a granule last, with clean data (R420): a word writes in parts
that are single-copy atomic (R118), and is one write of what it covers. Log 17: DEDUCED, unsafe. -/
def State.filled (s : State) (sp : Space) (word g : Nat) : Bool :=
  word != 0 && (List.range 32).all fun i => match (s.writesTo sp (32 * g + i) 1).head? with
    | some w => w.word == word && !w.bad
    | none => false

/-- Poisoned granules after a word's write of n bytes: those that the word has filled are clean. -/
def State.cleared (s : State) (sp : Space) (word : Nat) (bad : List Nat) (a n : Nat) : List Nat :=
  bad.filter fun g => !(decide (granule a ≤ g) && decide (32 * g < a + n) && s.filled sp word g)

/-- A write whose home stands: bytes, tags, poison, its place in coherence order; a write to a Host location has still to
complete at its memory (R122). -/
def State.writeKept (s : State) (w : Stamp) (pa : Nat) (bs : List Byte) (tag poisoned : Bool) : State :=
  let s' := s.record { w with bad := poisoned } .mem pa bs
  { s' with
    mem := Memory.writeAll s.mem pa (s.bytesAfter w .mem pa bs)
    tags := if w.behind.isEmpty then tagsAfter s.tags pa bs.length tag else s.tags
    bad := if w.behind.isEmpty then s'.cleared .mem w.word (poisonAfter s.bad pa bs.length poisoned) pa bs.length else s.bad
    hostWrites := if (kindOf pa).isHost then s.hostWrites ++ [⟨w.id, pa, bs⟩] else s.hostWrites }

/-- A write dropped on its way: a line behind a failed CXL port stays poisoned at its home (R443). -/
def State.writeLost (s : State) (pa : Nat) : State :=
  if s.behindDown pa then { s with bad := poisonAfter s.bad (pa / 128 * 128) 128 true } else s

/-- A write performed at its home (R119, R439, R443), byte by byte where part of it is lost. -/
def State.writeAs (s : State) (w : Stamp) (pa : Nat) (bs : List Byte) (tag poisoned : Bool) : State :=
  if s.lost pa || s.lost (pa + bs.length - 1) then
    (List.range bs.length).foldl (fun s i =>
      if s.lost (pa + i) then s.writeLost (pa + i) else s.writeKept w (pa + i) [bs.getD i 0] tag poisoned) s
  else s.writeKept w pa bs tag poisoned

/-- The next write of an agent, performed at its home. -/
def State.writeBy (s : State) (a : Agent) (pa : Nat) (bs : List Byte) (tag poisoned : Bool) : State :=
  { s with nextWrite := s.nextWrite + 1 }.writeAs { id := s.nextWrite, maker := a } pa bs tag poisoned

/-- A write of the part itself, which every agent sees. -/
def State.writePhys (s : State) (pa : Nat) (bs : List Byte) (tag poisoned : Bool) : State :=
  s.writeBy .part pa bs tag poisoned

/-- Whether a byte reads as poison. -/
def State.badByte (s : State) (pa : Nat) : Bool := s.bad.contains (granule pa) || s.lost pa

/-- Whether any of n bytes at pa is poisoned. -/
def State.physBad (s : State) (pa n : Nat) : Bool := (List.range n).any fun i => s.badByte (pa + i)

/-! ### Classes of agents (R116) -/

/-- Whether two cores are in one cluster of a launch (R30, R116). -/
def Launch.together (l : Launch) (c c' : Nat) : Bool :=
  l.cores.any fun x => x.core == c && l.cores.any fun y => y.core == c' && y.cluster == x.cluster

/-- Whether the class of agent Y, as a lane of `launch` on core c sees it, is in a mask or is own (R116). Lanes of two
launches are in no common cluster. A thread sees every lane in its own class, and its releases hold every class.
Log 2: DEDUCED, unsafe. -/
def State.inClass (s : State) (launch c : Nat) (m : Obs) : Agent → Bool
  | .lane l' c' =>
    c' == c || (if l' == launch && (match s.launch? launch with | some l => l.together c c' | none => false) then m.k
      else if dieOf c' == dieOf c then m.d else m.e)
  | .copier => m.y
  | .matrix => m.x
  | .fabric => m.f
  | .host | .pool => m.h
  | .part => true

/-- Every class (R128, R174). -/
def Obs.all : Obs := ⟨true, true, true, true, true, true, true⟩

/-- Whether a release meets an acquire of a lane with mask n: the classes hold both ways (R121). -/
def State.classesHold (s : State) (launch c : Nat) (n : Obs) (r : Rel) : Bool :=
  s.inClass launch c n r.maker
  && match r.maker with
    | .lane l' c' => s.inClass l' c' r.mask (.lane launch c)
    | _ => true

/-! ### What lanes have to do with writes (R119, R122, R124) -/

/-- Keys of `Group.seen`: write id is visible; byte a was read from write id; write id was visible to a read, or to a
write, that several lanes had in common; the lanes made write id. -/
def seenKey (id : Nat) : Nat := 2 ^ 64 * id
def metKey (id a : Nat) : Nat := 2 ^ 64 * id + 1 + a
def sharedKey (id : Nat) (write : Bool) : Nat := 2 ^ 64 * id + 2 ^ 63 + b2n write
def madeKey (id : Nat) : Nat := 2 ^ 64 * id + 2 ^ 63 + 2

/-- The write that a key names, and what the key says of it. -/
def keyId (key : Nat) : Nat := key / 2 ^ 64
def keyIsSeen (key : Nat) : Bool := key % 2 ^ 64 == 0
def keyIsMade (key : Nat) : Bool := key % 2 ^ 64 == 2 ^ 63 + 2
def keyIsShared (both : Bool) (key : Nat) : Bool := key % 2 ^ 64 == 2 ^ 63 || (both && key % 2 ^ 64 == 2 ^ 63 + 1)

/-- Whether a write is visible to lanes of a group (R124). -/
def Group.sees (g : Group) (lanes : Mask) (id : Nat) : Bool := (Map.get g.seen 0 (seenKey id) &&& lanes) != 0

/-- Whether lanes of a group have read any of n bytes from a write (R119). -/
def Group.met (g : Group) (lanes : Mask) (id a n : Nat) : Bool :=
  (List.range n).any fun i => (Map.get g.seen 0 (metKey id (a + i)) &&& lanes) != 0

/-- Lanes stand under some keys from now on. -/
def markSeen (m : Map Mask) (lanes : Mask) (keys : List Nat) : Map Mask :=
  keys.foldl (fun m i => Map.put m 0 i (Map.get m 0 i ||| lanes)) m

/-- Writes become visible to lanes; lanes have read bytes from writes. -/
def Group.see (g : Group) (lanes : Mask) (ids : List Nat) : Group := { g with seen := markSeen g.seen lanes (ids.map seenKey) }
def Group.note (g : Group) (lanes : Mask) (srcs : List (Nat × Nat)) : Group :=
  { g with seen := markSeen g.seen lanes (srcs.map fun x => metKey x.1 x.2) }

/-- Keys of writes that some of several lanes see and others do not. -/
def Group.unequal (g : Group) (lanes : Mask) : List Nat :=
  (g.seen.filter fun (p : Nat × Mask) => keyIsSeen p.1 && p.2 &&& lanes != 0 && p.2 &&& lanes != lanes).map Prod.fst

/-- An access that several lanes have in common: what is visible to one of them is visible to it (R117, R124). -/
def Group.share (g : Group) (lanes : Mask) (write : Bool) : Group :=
  { g with seen := markSeen g.seen lanes ((g.unequal lanes).map fun key => sharedKey (keyId key) write) }

/-- The same where the access comes before all that its lanes do later (R120, R124): it is visible to all of them. -/
def Group.unite (g : Group) (lanes : Mask) : Group := { g with seen := markSeen g.seen lanes (g.unequal lanes) }

/-- What was visible to accesses that lanes had in common is visible to what comes after a fence: to reads, or with `both`
to reads and writes (R120, R124). -/
def Group.promote (g : Group) (lanes : Mask) (both : Bool) : Group :=
  { g with seen := (g.seen.filter fun (p : Nat × Mask) => keyIsShared both p.1).foldl (fun m (p : Nat × Mask) =>
      markSeen m (p.2 &&& lanes) [seenKey (keyId p.1)]) g.seen }

def State.see (s : State) (k : Nat) (lanes : Mask) (ids : List Nat) : State :=
  if ids.isEmpty then s else s.modGroup k fun g => g.see lanes ids

/-! ### Versions of a place (R119, R124) -/

/-- Whether a read of n bytes by some lanes cannot go back behind a write: it is visible to them, or they have read one of
the bytes from it (R119, R124); or the read is not plain and the write is performed at a home of the package (R379),
unless another host made it (R130); or an engine wrote a scratchpad line (R112). Log 2: DEDUCED, unsafe. -/
def Group.holdsTo (g : Group) (lanes : Mask) (strong : Bool) (a n : Nat) (w : Wr) : Bool :=
  g.sees lanes w.id || g.met lanes w.id a n || w.maker == .part
  || match w.space with
    | .mem => strong && w.maker != .pool
    | .scr _ _ => w.maker == .copier || w.maker == .matrix || w.maker == .fabric
    | .wd _ => true

/-- Whether two writes cover a common byte among n bytes. -/
def Wr.meetIn (x y : Wr) (a n : Nat) : Bool := (List.range n).any fun i => x.covers (a + i) && y.covers (a + i)

/-- The writes that an indivisible read of n bytes goes back behind, by number (R118, R124): those that it wants to and
may, unless it reads a later write to one of their bytes. `kept` are the later ones that it reads. -/
def goesBack (holds : Wr → Bool) (want : List Nat) (a n : Nat) : List Wr → List Wr → List Nat
  | _, [] => []
  | kept, w :: ws =>
    if want.contains w.id && !holds w && !kept.any (fun x => x.meetIn w a n) then
      w.id :: goesBack holds want a n kept ws
    else goesBack holds want a n (w :: kept) ws

/-- The releases that a read of a write meets: its own, and along a chain of read-modify-writes those before it (R121). -/
def chainRels : List Wr → List Rel
  | [] => []
  | w :: ws => w.rels ++ if w.rmw then chainRels ws else []

/-- What a single-copy atomic read returns (R118, R119, R124): its bytes, the writes that they come from, each with its
byte, and the releases that it meets. -/
structure Got where
  bytes : List Byte
  srcs : List (Nat × Nat)
  rels : List Rel
  deriving DecidableEq, Repr

/-- A read of n bytes of a place behind some writes; `own` gives bytes that the reader has from elsewhere. -/
def State.readBehind (s : State) (sp : Space) (a n : Nat) (gone : List Nat) (own : Nat → Option Byte) : Got :=
  let ws := s.writesTo sp a n
  let xs : List (Nat × Byte × List Wr) := (s.bytesAt sp a n).mapIdx fun i b => (a + i, lookBack gone (a + i) b ws)
  let out := xs.filter fun x => (own x.1).isNone
  { bytes := xs.map fun x => (own x.1).getD x.2.1
    srcs := out.filterMap fun x => x.2.2.head?.map fun w => (w.id, x.1)
    rels := (out.flatMap fun x => chainRels x.2.2).eraseDups }

/-- The byte of an open region's version (R296). -/
def State.versionByte (s : State) (k pa : Nat) : Option Byte :=
  (s.group? k).bind fun g => g.region.bind fun r => Map.find? r.bytes pa

/-- No byte from elsewhere. -/
def noOwn : Nat → Option Byte := fun _ => none

/-- A read of n bytes of a place by lanes of a group, indivisible; `key` names it among the choices of `older`. -/
def State.readPart (s : State) (k : Nat) (readers : Mask) (strong : Bool) (key : Nat) (sp : Space) (a n : Nat) : Got :=
  let own : Nat → Option Byte := match sp with | .mem => s.versionByte k | _ => noOwn
  match s.group? k with
  | none => s.readBehind sp a n [] own
  | some g =>
    s.readBehind sp a n (goesBack (g.holdsTo readers strong a n) (Map.get s.older [] key) a n [] (s.writesTo sp a n)) own

/-- Key of a write among the choices of `older`. -/
def writeKey (id : Nat) : Nat := 2 ^ 64 + id

/-- A write cannot come between a write and the one that it was formed from: from the oldest on, those are no longer gone
behind that it would part from theirs (R94, R119). -/
def untight (a n : Nat) : List Wr → List Wr
  | [] => []
  | w :: ws =>
    if (List.range n).all fun i => match (w :: ws).find? (fun x => x.covers (a + i)) with
        | some x => !x.tight
        | none => true
    then w :: ws else untight a n ws

/-- The writes that a write of lanes of a group to n bytes goes behind as it is performed, by number (R119): the newest
ones, as far as it wants to, its lanes have not seen them and no other lane of its word made them (R117).
Log 2: DESIGN CHOICE, unsafe. -/
def State.goesBehind (s : State) (k : Nat) (lanes : Mask) (id word : Nat) (sp : Space) (a n : Nat) : List Nat :=
  match Map.find? s.older (writeKey id), s.group? k with
  | some want, some g =>
    let free (w : Wr) : Bool := want.contains w.id && !g.holdsTo lanes false a n w && w.maker != .pool && w.word != word
    let marked := match sp with
      | .mem => s.physBad a n || s.tags.any fun t => decide (a < 4 * t + 4) && decide (4 * t < a + n)
      | .scr launch core => match s.ctx? launch core with
        | some c => (List.range n).any fun i => c.bad.contains (granule (a + i))
        | none => false
      | .wd _ => true
    if marked then [] else (untight a n ((s.writesTo sp a n).takeWhile free).reverse).map (·.id)
  | _, _ => []

/-- Whether a byte reads as poison in a region's version, where memory under it does or does not (R296, R420): a poisoned
write to its granule poisons it, and one word that fills the granule clears what lies under it. -/
def Region.badAt (r : Region) (pa : Nat) (under : Bool) : Bool :=
  let g := granule pa
  let ws := (r.writes.filter fun st => decide (32 * g < st.addr + st.data.length) && decide (st.addr < 32 * g + 32)).reverse
  let last (i : Nat) : Option Nat := (ws.find? fun st => decide (st.addr ≤ 32 * g + i)
    && decide (32 * g + i < st.addr + st.data.length)).map (·.word)
  ws.any (·.bad) || (under && !(match ws with
    | [] => false
    | st :: _ => st.word != 0 && (List.range 32).all fun i => last i == some st.word))

/-- Whether the byte comes from poisoned memory (R420). -/
def State.seenBad (s : State) (k : Nat) (pa : Nat) : Bool :=
  match (s.group? k).bind (·.region) with
  | some r => r.badAt pa (s.badByte pa)
  | none => s.badByte pa

/-! ### Addresses (R102, R105, R109) -/

/-- Pages of 64 KiB. -/
def pageOf (va : Nat) : Nat := va / 65536

/-- The parts of n bytes at a virtual address that lie in one page each, as address and length. -/
def pagesIn (va n : Nat) : List (Nat × Nat) :=
  (List.range (ceilDiv (va % 65536 + n) 65536)).map fun i =>
    let a := max va (65536 * (pageOf va + i))
    (a, min (va + n) (65536 * (pageOf va + i + 1)) - a)

/-- Whether a page lies in a pin of the launch (R415). -/
def Launch.pinned (l : Launch) (va : Nat) : Bool :=
  l.pins.any (fun p => decide (p.base ≤ va) && decide (va < p.base + p.len * 65536))
  && (Map.find? l.pages (pageOf va)).isSome

/-- Physical address of a pinned virtual address, by the kept translation (R109). -/
def Launch.phys (l : Launch) (va : Nat) : Nat :=
  match Map.find? l.pages (pageOf va) with
  | some k => k.pa + va % 65536
  | none => 0

/-- Whether a write is permitted (R416): W of the page, and WR of a pin that covers it. -/
def Launch.writable (l : Launch) (va : Nat) : Bool :=
  (match Map.find? l.pages (pageOf va) with | some k => k.w | none => false)
  && l.pins.any fun p => decide (p.base ≤ va) && decide (va < p.base + p.len * 65536) && p.wr

/-- The launch's private area (R113): its first byte and its length. -/
def Launch.teams (l : Launch) : Nat := if l.r.kind = 1 then l.r.ncore * l.r.v else l.r.nteam

def Launch.inPrivate (l : Launch) (va : Nat) : Bool :=
  decide (l.r.pbase ≤ va) && decide (va < l.r.pbase + 2048 * l.r.psize * l.teams)

/-- What an instruction fetch finds at a virtual address (R352, R405, R415): the eight bytes, cause 0x31, a page outside
the pins, poison at a physical address, or ports that are not ready. -/
inductive Fetch where
  | word (w : Nat)
  | cause31
  | outside
  | poison (pa : Nat)
  | ports (ps : List Nat)
  deriving DecidableEq, Repr

/-- CXL ports, not ready and not failed, that n bytes at physical addresses wait for (R352). -/
def State.portsAt (s : State) (pas : List Nat) : List Nat :=
  (pas.filterMap fun pa =>
    if kindOf pa == .cxl then
      match s.cxlPort pa with
      | some p => if bit (s.regs.rdy.getD 0 0) (28 + p) || s.cxlDown.contains p then none else some p
      | none => none
    else none).eraseDups

/-- The ports that n bytes at a virtual address wait for. -/
def portsOf (s : State) (l : Launch) (va n : Nat) : List Nat := s.portsAt [l.phys va, l.phys (va + n - 1)]

/-- Read n bytes through a split's instruction fetch (R290, R405). -/
def State.fetchBytes (s : State) (l : Launch) (va n : Nat) : Fetch :=
  if 2 ^ 56 ≤ va + n - 1 then .cause31
  else if !(l.pinned va && l.pinned (va + n - 1)) then .outside
  else if (kindOf (l.phys va)) == .peer then .cause31
  else if kindOf (l.phys va) == .cxl && (s.cxlPort (l.phys va)).isNone then .cause31
  else if !(portsOf s l va n).isEmpty then .ports (portsOf s l va n)
  else
    match ((List.range n).map fun i => l.phys (va + i)).find? s.badByte with
    | some pa => .poison pa
    | none => .word (leNat ((List.range n).map fun i => Memory.read s.mem (l.phys (va + i))))

end Sys2Proof.Machine
end

