-- ==== Sys2Proof/Machine/Image.lean ====
section
/-!
DEFINITION. The figures of save areas (R53, R54, R56, R182), and what of a switched-out context changes in its saved image
while it is away (R180): bytes of its slice with their poison, its named barriers, and traps that are queued.
-/

namespace Sys2Proof.Machine

open Sys2Proof

/-- Bytes of the halo store of block b (R56). -/
def Record.haloBytes (r : Record) (b : Nat) : Nat :=
  if r.kind != 1 then 0
  else
    let face (a : Nat) : Nat := if r.extent a = 1 then 0 else 2 * (r.patchLen ((a + 1) % 3) * r.patchLen ((a + 2) % 3))
    let nf := face 0 + face 1 + face 2
    ceilDiv ((if r.v = 1 then 8 else 16 * r.v) * r.e * r.groupsPerSet b * nf) 128 * 128

/-- Bytes of a slice, for placed-core index b (R111). -/
def Record.sliceBytes (r : Record) (b : Nat) : Nat := 128 * r.scratch + r.haloBytes b

/-- Tiles that TILES names. -/
def Record.tileCount (r : Record) : Nat := ((List.range 8).filter fun j => bit r.tiles j).length

/-- Bytes of an image of g groups and t tiles (R54). -/
def imageBytes (g e t : Nat) : Nat := g * (128 * (128 + e) + 2048) + t * 16896

/-- Bytes of the core state, and of the handler area (R182). -/
def coreStateBytes : Nat := 24576
def handlerBytes : Nat := 56320

/-- I, the size of one image slot for placed-core index b (R182). Log 9: DEDUCED, unsafe. -/
def Record.imageSlot (r : Record) (b : Nat) : Nat :=
  if r.kind = 1 then
    imageBytes (r.groupsPerSet b) r.e (r.tileCount * min 4 (ceilDiv (min 16 (r.groupsPerSet b)) 4))
  else imageBytes 64 0 32

/-- SAVEZ's figure for placed-core index b (R182). Log 8: DEDUCED, unsafe. -/
def Record.saveBytes (r : Record) (b : Nat) : Nat :=
  r.v * r.imageSlot b + r.sliceBytes b + coreStateBytes + (if r.handler = 0 then 0 else handlerBytes)

/-- The bytes of a trap record. -/
def TrapRec.bytes (t : TrapRec) : List Byte :=
  leBytes 4 t.cause ++ leBytes 4 t.lane ++ leBytes 8 t.pc.toNat ++ leBytes 4 t.tmask.toNat ++ leBytes 4 t.tmask.toNat
    ++ leBytes 8 t.aux ++ leBytes 8 t.msg ++ leBytes 4 (t.group % 64) ++ leBytes 4 t.split ++ leBytes 16 0

/-- First byte of the save area of placed-core index b, and the offset of the slice in it (R182). -/
def Record.saveAt (r : Record) (b : Nat) : Nat := r.save + b * (r.savez * 65536)
def Record.sliceAt (r : Record) (b : Nat) : Nat := r.v * r.imageSlot b

/-- One piece of an image: its virtual address, its bytes, and whether they are poisoned (R420). -/
structure Piece where
  va : Nat
  bytes : List Byte
  bad : Bool := false
  deriving DecidableEq, Repr

/-- A named barrier as one 32-bit value (R71). -/
def Barrier.word (b : Barrier) : Nat := (if b.phase then 2 ^ 24 else 0) + b.arrived * 4096 + b.expected

/-- Poison the granules that poisoned bytes of a run fill (R422). -/
def poisonRun (bad : List Nat) (a : Nat) (xs : List (Byte × Bool)) : List Nat :=
  (xs.mapIdx fun i (x : Byte × Bool) => (granule (a + i), x.2)).foldl (fun bad (p : Nat × Bool) =>
    if p.2 then Nats.ins bad p.1 else bad) bad

/-- The launch of a context that lies in its save area (R179), with the context. -/
def State.away? (s : State) (n core : Nat) : Option (Launch × Ctx) :=
  match s.launch? n, s.ctx? n core with
  | some l, some c => if c.res = .saved then some (l, c) else none
  | _, _ => none

/-- First byte of the slice, and of the core state, in a context's save area (R182). -/
def Record.sliceVa (r : Record) (c : Ctx) : Nat := r.saveAt c.index + r.sliceAt c.index
def Record.stateVa (r : Record) (c : Ctx) : Nat := r.sliceVa c + c.sliceBytes

/-- Bytes written to the slice of a context that is away are written into its saved image (R180). -/
def State.imageStore (s : State) (n core off : Nat) (bs : List Byte) : State :=
  match s.away? n core with
  | none => s
  | some (l, c) =>
    let va := l.r.sliceVa c + off
    (pagesIn va bs.length).foldl (fun s (p : Nat × Nat) =>
      s.writePhys (l.phys p.1) ((bs.drop (p.1 - va)).take p.2) false false) s

/-- The granules of some bytes of its slice are poisoned in its saved image as they are in the slice (R420). -/
def State.imageBad (s : State) (n core off len : Nat) : State :=
  match s.away? n core with
  | none => s
  | some (l, c) =>
    if len = 0 then s
    else
      (List.range ((off + len - 1) / 32 - off / 32 + 1)).foldl (fun s i =>
        let g := off / 32 + i
        let pg := granule (l.phys (l.r.sliceVa c + 32 * g))
        { s with bad := if c.bad.contains g then Nats.ins s.bad pg else Nats.del s.bad pg }) s

/-- Barrier id of a context that is away takes its value in the saved image. -/
def State.imageBar (s : State) (n core id : Nat) (b : Barrier) : State :=
  match s.away? n core with
  | none => s
  | some (l, c) => s.writePhys (l.phys (l.r.stateVa c + 4 * id)) (leBytes 4 b.word) false false

/-- The queued traps of a context that is away stand in its saved image, the first 256 of them. -/
def State.imageQueue (s : State) (n core : Nat) : State :=
  match s.away? n core with
  | none => s
  | some (l, c) => ((c.trapq.take 256).mapIdx fun i t => (i, t)).foldl (fun s (x : Nat × TrapRec) =>
      s.writePhys (l.phys (l.r.stateVa c + 8192 + 64 * x.1)) x.2.bytes false false) s

end Sys2Proof.Machine
end

