-- ==== Sys2Proof/Machine/Perform.lean ====
section
/-!
DEFINITION. Writes and atomics that have issued and are performed later (R119, R264), in memory and in scratchpad; host
writes still to complete (R122); what a release carries and what an acquire makes visible (R121 to R124).
-/

namespace Sys2Proof.Machine

open Sys2Proof

/-! ### Writes into a slice -/

/-- Write bytes into a slice. -/
def Ctx.write (c : Ctx) (off : Nat) (bs : List Byte) (poisoned : Bool) : Ctx :=
  { c with
    scr := Map.putBytes c.scr off bs
    bad := poisonAfter c.bad off bs.length poisoned }

/-- A write into a slice, with its place in coherence order (R119); where its context is away, into its saved image too
(R180). -/
def State.slicePut (s : State) (w : Stamp) (launch core off : Nat) (bs : List Byte) : State :=
  let now := s.bytesAfter w (.scr launch core) off bs
  let s := (s.record w (.scr launch core) off bs).modCtx launch core fun c => c.write off now w.bad
  ((s.modCtx launch core fun c => { c with bad := s.cleared (.scr launch core) w.word c.bad off bs.length }).imageStore launch
    core off now).imageBad launch core off bs.length

/-- Poisoned bytes of a run poison the granules of a slice that they fill (R422). -/
def State.slicePoison (s : State) (launch core off : Nat) (xs : List (Byte × Bool)) : State :=
  (s.modCtx launch core fun c => { c with bad := poisonRun c.bad off xs }).imageBad launch core off xs.length

/-- An agent's next write into a slice. -/
def State.sliceBy (s : State) (a : Agent) (launch core off : Nat) (bs : List Byte) : State :=
  { s with nextWrite := s.nextWrite + 1 }.slicePut { id := s.nextWrite, maker := a } launch core off bs

/-! ### Stores that have issued and are not yet performed -/

/-- Whether two runs of bytes have one in common. -/
def overlap (a n b m : Nat) : Bool := decide (a < b + m) && decide (b < a + n)

/-- Whether a store covers a byte. -/
def Store.covers (st : Store) (pa : Nat) : Bool := decide (st.addr ≤ pa) && decide (pa < st.addr + st.data.length)

/-- Who made a group's accesses. -/
def State.laneOf (s : State) (k : Nat) : Agent :=
  match s.group? k with
  | some g => .lane g.launch g.core
  | none => .part

/-- The writes that releases carry, and those of the releases that hold h. -/
def carriedBy (rels : List Rel) : List Nat := rels.flatMap (·.writes)
def carriedHost (rels : List Rel) : List Nat := carriedBy (rels.filter fun r => r.mask.h)

/-- Host writes of some numbers have completed at their memory (R122). -/
def State.hostDone (s : State) (ids : List Nat) : State :=
  { s with hostWrites := s.hostWrites.filter fun w => !ids.contains w.id }

/-- A pending store's write, performed at its home: the Host writes that it carries with h have completed (R122). -/
def State.performOne (s : State) (st : Store) : State :=
  (s.hostDone (carriedHost st.rels)).writeAs
    { id := st.id, maker := s.laneOf st.group, rels := st.rels, word := st.word,
      behind := if st.bad then [] else s.goesBehind st.group st.lanes st.id st.word .mem st.addr st.data.length }
    st.addr st.data st.tag st.bad

/-- What is performed where some of a list are, from what each comes after; the newest first. -/
def wanted (need : List Nat) : List (Nat × List Nat) → List Nat
  | [] => []
  | (id, before) :: older => if need.contains id then id :: wanted (need ++ before) older else wanted need older

/-- What a pending store comes after: stores to common bytes, and what its releases carry (R119, R122). -/
def Store.needs (st : Store) : Nat × List Nat := (st.id, st.after ++ carriedBy st.rels)

/-- Perform the pending stores that satisfy a test, with those that come before them, oldest first (R119). -/
def State.drainIf (s : State) (f : Store → Bool) : State :=
  let go := wanted ((s.stores.filter f).map (·.id)) (s.stores.reverse.map Store.needs)
  let now (st : Store) : Bool := go.contains st.id
  (s.stores.filter now).foldl State.performOne { s with stores := s.stores.filter fun st => !now st }

def State.drainIds (s : State) (ids : List Nat) : State := s.drainIf fun st => ids.contains st.id

/-- Perform every pending store of a group: what its end waits for. Log 2: DESIGN CHOICE, unsafe. -/
def State.drain (s : State) (k : Nat) : State := s.drainIf fun st => st.group == k

/-- Whether a write goes to a Host location (R122). -/
def State.toHost (s : State) (id : Nat) : Bool :=
  (s.hist.any fun w => w.id == id && w.space == .mem && (kindOf w.addr).isHost)
  || s.stores.any (fun st => st.id == id && (kindOf st.addr).isHost)
  || s.atoms.any fun a => a.id == id && a.space == .mem && (kindOf a.addr).isHost

/-- Host writes of some numbers are performed and complete at their memory (R122, R128). -/
def State.completeHost (s : State) (ids : List Nat) : State :=
  (s.drainIf fun st => ids.contains st.id && (kindOf st.addr).isHost).hostDone ids

/-- Perform a pending store at its home, after what its releases carry (R122). -/
def State.perform (s : State) (st : Store) : State := (s.drainIds (carriedBy st.rels)).performOne st

/-! ### What releases carry and acquires bring (R121 to R124) -/

/-- Writes without those to Host locations, unless a mask holds h (R122). -/
def State.hostFilter (s : State) (m : Obs) (ids : List Nat) : List Nat := ids.filter fun i => m.h || !s.toHost i

/-- The writes that lanes of a group see, have read, or had in common: what a release of theirs carries (R122). -/
def State.carried (s : State) (g : Group) (lanes : Mask) (m : Obs) : List Nat :=
  s.hostFilter m ((g.seen.filter fun (p : Nat × Mask) => (p.2 &&& lanes) != 0).map fun p => keyId p.1).eraseDups

/-- What a trap, or the return from one, makes visible (R294): what lanes of a group release, and all that the group has
written. -/
def State.trapWrites (s : State) (g : Group) (lanes : Mask) : List Nat :=
  (s.carried g lanes Obs.none ++ ((g.seen.map Prod.fst).filter keyIsMade).map keyId).eraseDups

/-- The writes that are visible to lanes of a group (R124). -/
def State.visible (s : State) (g : Group) (lanes : Mask) (m : Obs) : List Nat :=
  s.hostFilter m ((g.seen.filter fun (p : Nat × Mask) => keyIsSeen p.1 && (p.2 &&& lanes) != 0).map fun p => keyId p.1)

/-- A release of lanes of a group. -/
def State.relOf (s : State) (g : Group) (lanes : Mask) (m : Obs) : Rel :=
  { maker := .lane g.launch g.core, mask := m, writes := s.carried g lanes m }

/-- The releases that a write makes: its own, and that of each earlier `.rel` or `.ar` fence where it is not plain (R121).
Log 2: DEDUCED, unsafe. -/
def State.relsOf (s : State) (g : Group) (lanes : Mask) (own : Option Obs) (strong : Bool) : List Rel :=
  (match own with | some m => [s.relOf g lanes m] | none => [])
  ++ (if strong then (g.relFences.filter fun f => (f.1 &&& lanes) != 0).map fun f => s.relOf g lanes f.2 else [])

/-- A release joins others: those of one maker and mask count as one. -/
def Rels.add : List Rel → Rel → List Rel
  | [], r => [r]
  | x :: l, r =>
    if x.maker = r.maker ∧ x.mask = r.mask then { x with writes := r.writes.foldl Nats.ins x.writes } :: l
    else x :: Rels.add l r

/-- Releases count towards a barrier's open phase, and towards a completed one where `done` says so (R269, R279). -/
def Counted.count (c : Counted) (rels : List Rel) (done : Bool) : Counted :=
  let o := rels.foldl Rels.add c.opened
  if done then { opened := [], done := o.foldl Rels.add c.done } else { c with opened := o }

/-- The releases of a word that is no write but releases: an arrival, a POST. What they carry is performed first, and Host
writes that they carry with h complete (R122). -/
def State.released (s : State) (k : Nat) (lanes : Mask) (own : Option Obs) (strong : Bool) : State × List Rel :=
  match s.group? k with
  | none => (s, [])
  | some g =>
    let rs := s.relsOf g lanes own strong
    ((s.drainIds (carriedBy rs)).hostDone (carriedHost rs), rs)

/-- Writes become visible to lanes of a group: those still pending are performed first. -/
def State.reveal (s : State) (k : Nat) (lanes : Mask) (ids : List Nat) : State :=
  if ids.isEmpty then s else (s.drainIds ids).see k lanes ids

/-- An acquire of lanes of a group with mask n over the releases it meets (R121, R124); with h the writes that other hosts
have pushed are seen from here on (R130). What a release carries was performed before it. -/
def State.acquire (s : State) (k : Nat) (lanes : Mask) (n : Obs) (rels : List Rel) : State :=
  match s.group? k with
  | none => s
  | some g =>
    let ids := (rels.filter (s.classesHold g.launch g.core n)).flatMap (·.writes)
    let pool := if n.h then (s.hist.filter fun w => w.maker == .pool).map (·.id) else []
    s.see k lanes (ids ++ pool).eraseDups

/-- The same of an access that acquires: what is visible to one of its lanes is visible to all of them after it (R124). -/
def State.acquired (s : State) (k : Nat) (lanes : Mask) (n : Obs) (rels : List Rel) : State :=
  (s.modGroup k fun g => g.unite lanes).acquire k lanes n rels

/-- What lanes have read (R119, R122): an acquire takes the releases that it meets, and a strong read keeps them for a
later fence (R121). -/
def State.didRead (s : State) (k : Nat) (lanes : Mask) (acq : Option Obs) (strong : Bool) (srcs : List (Nat × Nat))
    (rels : List Rel) : State :=
  let s := s.modGroup k fun g => (g.note lanes srcs).share lanes false
  match acq with
  | some n => s.acquired k lanes n rels
  | none =>
    if strong && !rels.isEmpty then
      s.modGroup k fun g => { g with strongReads := (g.strongReads ++ rels.map fun r => (lanes, r)).eraseDups }
    else s

/-! ### Atomics (R262 to R265) -/

/-- The new value of a location of w bits under operation `op`: o the old value, v the operand, c the expected value
(R263). -/
def atomOp (op w o v c : Nat) : Nat :=
  let f : Fmt := if w = 64 then .f64 else .f32
  let each (g : Fmt) : Nat := mkElems 16 (w / 16) fun i => g.add .rne false (g.read (elem 16 i o)) (g.read (elem 16 i v))
  match op with
  | 0 => (o + v) % 2 ^ w
  | 1 => if sext w v < sext w o then v else o
  | 2 => if sext w o < sext w v then v else o
  | 3 => min o v
  | 4 => max o v
  | 5 => Nat.land o v
  | 6 => Nat.lor o v
  | 7 => Nat.xor o v
  | 8 => v
  | 9 => if o = c then v else o
  | 10 => if v ≤ o then 0 else o + 1
  | 11 => if o = 0 || v < o then v else o - 1
  | 12 => f.add .rne false (f.read o) (f.read v)
  | 13 => f.minNum o v
  | 14 => f.maxNum o v
  | 15 => each .f16
  | _ => each .bf16

/-- Whether an atomic meets poison at its place (R420). -/
def State.atomBad (s : State) (a : Atom) : Bool :=
  match a.space with
  | .mem => s.physBad a.addr a.bytes
  | .scr launch core =>
    match s.ctx? launch core with
    | some c => (List.range a.bytes).any fun i => c.bad.contains (granule (a.addr + i))
    | none => false
  | .wd _ => false

/-- A value that an outstanding result waited for has come: its registers take the words of a value of n bytes. -/
def State.deliver (s : State) (k j req : Nat) (outs : List RegId) (n x : Nat) : State :=
  let ws := outs.mapIdx fun i r => (r, BitVec.ofNat 32 (x / 2 ^ (32 * (i % max 1 (n / 4)))))
  let got (p : Pend) : Pend :=
    if p.waits.contains req then { p with writes := p.writes ++ ws, waits := p.waits.filter (· ≠ req) } else p
  s.modSplit k j fun sp => { sp with pend := sp.pend.map got }

/-- The pending stores of some lanes that touch n bytes of memory are performed: what an access of theirs to those bytes
comes after. -/
def State.drainAt (s : State) (k : Nat) (lanes : Mask) (pa n : Nat) : State :=
  match s.group? k with
  | none => s
  | some g => s.drainIf fun st => st.group == k && g.sees lanes st.id && overlap st.addr st.data.length pa n

/-- The write of an indivisible read-modify-write of an agent, with its number, in memory or in a slice. -/
def State.rmwWrite (s : State) (w : Stamp) (sp : Space) (a : Nat) (bs : List Byte) : State :=
  match sp with
  | .mem => s.writeAs w a bs false false
  | .scr launch core => s.slicePut w launch core a bs
  | .wd _ => s

/-- An atomic is performed (R119, R262): after the stores of its lanes there, it reads the write before its own, writes,
and its result comes. One without a result completes no synchronisation (R265). Poison has no effect but that its group
meets it (R420). -/
def State.performAtom (s : State) (a : Atom) : State :=
  let s := match a.space with | .mem => s.drainAt a.group a.lanes a.addr a.bytes | _ => s
  if s.atomBad a then s.modGroup a.group fun g => { g with ate := some (a.pc, a.addr) }
  else
    let s := (s.drainIds (carriedBy a.rels)).hostDone (carriedHost a.rels)
    let gone := s.goesBehind a.group a.lanes a.id a.word a.space a.addr a.bytes
    let got := s.readBehind a.space a.addr a.bytes gone noOwn
    let o := leNat got.bytes
    let s := s.rmwWrite
      { id := a.id, maker := s.laneOf a.group, rmw := true, rels := a.rels, word := a.word, tight := true, behind := gone }
      a.space a.addr (leBytes a.bytes (atomOp a.op (8 * a.bytes) o a.arg a.expected))
    match a.req with
    | some req => (s.didRead a.group a.lanes a.acq true got.srcs got.rels).deliver a.group a.split req a.outs a.bytes o
    | none => s.didRead a.group a.lanes none false got.srcs []

/-- Perform the pending atomics that satisfy a test, with those that come before them, oldest first. -/
def State.drainAtoms (s : State) (f : Atom → Bool) : State :=
  let go := wanted ((s.atoms.filter f).map (·.id)) (s.atoms.reverse.map fun a => (a.id, a.after))
  let now (a : Atom) : Bool := go.contains a.id
  (s.atoms.filter now).foldl State.performAtom { s with atoms := s.atoms.filter fun a => !now a }

/-- Pending atomics of some lanes that touch n bytes of a place. -/
def State.atomsAt (s : State) (k : Nat) (lanes : Mask) (sp : Space) (a n : Nat) : List Atom :=
  match s.group? k with
  | none => []
  | some g => s.atoms.filter fun x => x.group == k && g.sees lanes x.id && x.space == sp && overlap x.addr x.bytes a n

/-- What an access of some lanes to n bytes of a place comes after is performed: their atomics and their stores there
(R119, R120), and their stores to a granule that is poisoned as a whole, which they may fill (R420). -/
def State.comeAfter (s : State) (k : Nat) (lanes : Mask) (sp : Space) (a n : Nat) : State :=
  let ids := (s.atomsAt k lanes sp a n).map (·.id)
  let s := if ids.isEmpty then s else s.drainAtoms fun x => ids.contains x.id
  match sp with
  | .mem =>
    if s.physBad a n then s.drainAt k lanes (32 * granule a) (32 * (granule (a + n - 1) + 1 - granule a))
    else s.drainAt k lanes a n
  | _ => s

/-- Whether lanes of a group have atomics that are not yet performed. -/
def State.atomsOpen (s : State) (k : Nat) (lanes : Mask) : Bool :=
  s.atoms.any fun a => a.group == k && (a.lanes &&& lanes) != 0

end Sys2Proof.Machine
end

