-- ==== Sys2Proof/Machine/Ops.lean ====
section
/-!
DEFINITION. The named operations over the state that every meaning shares: how lanes, groups, teams and launches end
(R48, R291, R403, R415); taking a trap and returning from one (R294, R397 to R403); consuming poison (R420); and the one
wrapper that issues a word, with its charge and signature (R66, R144), and the results it leaves outstanding (R199,
R201).
-/

namespace Sys2Proof.Machine

open Sys2Proof

/-- What a word raises at issue (R397, R400, R401): cause, lowest offending lane, trapped mask, auxiliary, message, and
the resume PC. -/
structure Trap where
  cause : Nat
  lane : Nat
  tmask : Mask
  aux : Nat
  msg : Nat := 0
  pc : Dword
  deriving DecidableEq, Repr

/-- The lowest lane of a mask; 0 where none is set. -/
def lowest (m : Mask) : Nat := ((lanesOf m).head?).getD 0

/-- Write bytes of a core's mailbox (R413); a device write of bytes 32 to 63 sends vector 65. -/
def State.mailWrite (s : State) (core off n x : Nat) : State :=
  s.modCore core fun c =>
    { c with mailbox := Map.putBytes c.mailbox off (leBytes n x) }

def State.vector (s : State) (v : Nat) : State := { s with msix := s.msix ++ [v] }

/-- A field of a core's mailbox. -/
def State.mail (s : State) (core off n : Nat) : Nat :=
  leNat ((List.range n).map fun i => Map.get (s.coreOf core).mailbox 0 (off + i))

/-- An event in a core's mailbox: EVENT, RSTAT, WHERE, DATA0 to DATA2 (R413). -/
def State.mailEvent (s : State) (core ev rstat wher d0 d1 d2 : Nat) : State :=
  ((((((s.mailWrite core 32 1 ev).mailWrite core 33 1 rstat).mailWrite core 36 4 wher).mailWrite core 40 8 d0).mailWrite
    core 48 8 d1).mailWrite core 56 8 d2).vector 65

/-- WHERE of a mailbox event: lane, group, split. -/
def whereField (lane group split : Nat) : Nat := lane + 256 * group + 65536 * split

/-- A checkpoint take is under way: admission stops, no word issues, and incoming packets are held (R448). -/
def State.taking (s : State) : Bool := bit s.regs.ckctl 31

/-- Keys of the groups that satisfy a test. -/
def State.groupKeys (s : State) (f : Group → Bool) : List Nat := (s.groups.filter fun p => f p.2).map Prod.fst

/-- The sustained clock of an island's control register (R142). -/
def Island.sustained (x : Island) : Nat := 400 + 25 * min (bits x.ctl.toNat 4 0) 18

/-- An island's lease ends (R155): nothing is left of it and the clock returns to the sustained one; in the cycle of its
end it still counts as held (R156). -/
def Island.endLease (x : Island) : Island :=
  { x with holder := none, lease := 0, owed := 0, ending := none, target := x.sustained, ended := true }

/-- Commands that a region holds are given up (R425, step 2): their table entries, and the operations of held MMASs. -/
def State.dropHeld (s : State) (ts : List Nat) : State :=
  { s with threads := s.threads.filter fun p => !ts.contains p.1 }.mapUnits fun u =>
    { u with queue := u.queue.filter fun op =>
        match op.thread with
        | some t => !ts.contains t
        | none => true }

/-- A group is gone (R33, R291): its private lines, its open region with the commands it held, its lease and its queued
traps are dropped (R113, R155, R426), and what it has seen is the launch's (R174). In a field launch it stays for its
neighbours' reads and makes its final push (R48). -/
def State.dropGroup (s : State) (k : Nat) : State :=
  match s.group? k with
  | none => s
  | some g =>
    let i := islandOf g.core
    let s := if (s.island i).holder.map Prod.fst == some k then s.modIsland i Island.endLease else s
    let s := match g.region with
      | some r => s.dropHeld r.held
      | none => s
    let s := ((s.drainAtoms fun a => a.group == k).drain k).modLaunch g.launch fun l =>
      { l with made := (g.seen.map fun p => keyId p.1).foldl Nats.ins l.made }
    let s := (s.modCtx g.launch g.core fun c => { c with trapq := c.trapq.filter fun t => t.group != k }).imageQueue g.launch
      g.core
    if g.e = 0 then { s with groups := Map.del s.groups k }
    else
      let s := s.exitCells k (g.cellMask &&& ~~~g.exited)
      let s := s.modGroup k fun g =>
        { g with splits := [], stack := [], exited := g.exited ||| g.cellMask, gone := true, priv := [], region := none }
      s.finalPush k

def State.dropGroups (s : State) (ks : List Nat) : State := ks.foldl State.dropGroup s

/-- The launch is ended by fault (R403): every group stops and its lanes retire; forked threads run on. -/
def State.endByFault (s : State) (launch : Nat) : State :=
  let s := s.dropGroups (s.groupKeys fun g => g.launch == launch)
  let s := { s with groups := s.groups.filter fun p => p.2.launch != launch }
  s.modLaunch launch fun l => { l with faulted := true, stopped := true, asserts := 0, halted := false }

/-- Where a trap of a group stands among those of its cycle: by partition, slot and split (R399). -/
def TrapRec.place (t : TrapRec) : Nat := 4 * (t.group % 64) + t.split

/-- A trap joins the queue of a core, after those of earlier cycles (R399). -/
def trapIns (r : TrapRec) : List TrapRec → List TrapRec
  | [] => [r]
  | t :: q => if t.cyc = r.cyc ∧ r.place < t.place then r :: t :: q else t :: trapIns r q

/-- Raise a trap on a split (R397, R399, R403): queued on the core's context with the split parked, or the launch ends
by fault where no handler is armed or the handler itself trapped. Log 10: DEDUCED, unsafe. -/
def State.raise (s : State) (k j : Nat) (t : Trap) : State :=
  match s.group? k with
  | none => s
  | some g =>
    match s.ctx? g.launch g.core with
    | none => s
    | some c =>
      if c.handler = 0 || g.handler then
        (s.mailEvent g.core 2 t.cause (whereField t.lane g.slot j) t.pc.toNat t.aux t.msg).endByFault g.launch
      else
        let r : TrapRec := ⟨t.cause, t.lane, t.pc, t.tmask, t.aux, t.msg, k, j, (s.coreOf g.core).cyc⟩
        let s := s.modSplit k j fun sp => { sp with wait := .trapped, once := none, held := none }
        let s := if t.cause = 0x20 then s.modLaunch g.launch fun l => { l with asserts := l.asserts + 1 } else s
        (s.modCtx g.launch g.core fun c => { c with trapq := trapIns r c.trapq }).imageQueue g.launch g.core

/-- Whether partition p of a core holds a group of the launch that is resident with its context and has not exited (R316):
a context that is switched out takes all its groups along, and its parked groups go on waiting after it (R181). -/
def State.partitionHeld (s : State) (launch core p : Nat) : Bool :=
  match s.ctx? launch core with
  | none => false
  | some c => s.groups.any fun x =>
      x.2.launch == launch && x.2.core == core && x.2.slot / 4 == p && !x.2.gone
      && (x.2.handler || x.2.set == c.set)

/-- Whether a rendezvous of quarter q can still form (R316). -/
def State.quarterHeld (s : State) (launch core q : Nat) : Bool :=
  (List.range 4).all fun i => s.partitionHeld launch core (4 * q + i)

/-- Parked MMAQs whose rendezvous has become impossible trap with auxiliary 3 (R316). -/
def State.mmaqCheck (s : State) (launch core : Nat) : State :=
  let hit := s.groups.flatMap fun x =>
    if x.2.launch = launch ∧ x.2.core = core then
      (x.2.liveSplits.filter fun j => match (x.2.split j).wait with
        | .mmaq .. => !s.quarterHeld launch core (x.2.slot / 16)
        | _ => false).map fun j => (x.1, j)
    else []
  hit.foldl (fun s h =>
    match s.group? h.1 with
    | none => s
    | some g =>
      let sp := g.split h.2
      s.raise h.1 h.2 { cause := 0x31, lane := lowest sp.mask, tmask := sp.mask, aux := 3, pc := sp.pc }) s

/-- A word of the handler group has touched a page outside the pins (R415): the handler is of no team, and is all that
stops. What it was serving stays unanswered. Log 10: DESIGN CHOICE, unsafe. -/
def State.stopHandler (s : State) (k launch : Nat) : State :=
  (s.modGroup k fun g => { g with splits := g.splits.map fun _ => {}, stack := [], exited := allLanes }).modLaunch launch
    fun l => { l with faulted := true }

/-- A team of which no group is left has ended (R174). -/
def State.teamCheck (s : State) (launch team : Nat) : State :=
  if s.groups.any fun x => x.2.launch == launch && x.2.team == team && !x.2.handler && !x.2.gone then s
  else s.modLaunch launch fun l => { l with ended := Nats.ins l.ended team }

/-- A team ends (R415, R440): its groups stop, its lanes retire, the launch will read STATE 4. -/
def State.endTeam (s : State) (launch team : Nat) : State :=
  let ks := s.groupKeys fun g => g.launch == launch && g.team == team && !g.handler && !g.gone
  let cores := ks.filterMap fun k => (s.group? k).map (·.core)
  let s := s.dropGroups ks
  let s := s.modLaunch launch fun l => { l with ended := Nats.ins l.ended team, faulted := true }
  cores.eraseDups.foldl (fun s c => s.mmaqCheck launch c) s

/-- A split at whose merge the masks differ traps there (R288, R401, R407): cause 0x61 with auxiliary 0, under the mask
that was formed. -/
def State.raiseWrong (s : State) (k j : Nat) : State :=
  match (s.group? k).map fun g => g.split j with
  | none => s
  | some sp =>
    match sp.wrong with
    | none => s
    | some l => (s.modSplit k j fun sp => { sp with wrong := none }).raise k j
        { cause := 0x61, lane := l, tmask := sp.mask, aux := 0, pc := sp.pc }

/-- The bytes of values of the halo store take their places in the slice (R55, R111), wherever those lie.
Log 19: DESIGN CHOICE, safe. -/
def State.haloBytes (s : State) (launch core : Nat) (r : Record) (vals : List (Nat × Word)) : State :=
  match s.ctx? launch core with
  | none => s
  | some c =>
    let base := 128 * r.scratch
    let n := (c.sliceBytes - base) / 4
    if n = 0 then s
    else vals.foldl (fun s (v : Nat × Word) =>
      s.sliceBy .part launch core (base + 4 * (Config.haloPlace v.1 % n)) (leBytes 4 v.2.toNat)) s

/-- A group publishes (R46), and the own part of its core's halo store takes its values, in the slice too (R55). -/
def State.publishStep (s : State) (k : Nat) : State :=
  let s' := s.publish k
  match s'.group? k with
  | none => s'
  | some g =>
    match s'.launch? g.launch, s'.ctx? g.launch g.core with
    | some l, some c =>
      if 1 < c.sets then s'.haloBytes g.launch g.core l.r (g.ownVals l.r c.index (g.published - 1)) else s'
    | _, _ => s'

/-- Key of a slot of a core among its counts of cycles: until a group may take it (R402). -/
def freeKey (set slot : Nat) : Nat := 16 + 64 * set + slot

/-- What the new state of a group's splits brings about: splits that merged wrongly trap (R407); the group has exited when
no entry is in use (R33, R291), and its slot is free 4 cycles later (R402); it publishes when its splits have met at STEP
(R46). -/
def State.after (s : State) (k : Nat) : State :=
  let wrong := ((s.group? k).map fun g => g.liveSplits.filter fun j => (g.split j).wrong.isSome).getD []
  let s := wrong.foldl (fun s j => s.raiseWrong k j) s
  match s.group? k with
  | none => s
  | some g =>
    if g.handler || g.gone then s
    else if g.used.isEmpty then
      (((s.dropGroup k).teamCheck g.launch g.team).mmaqCheck g.launch g.core).modCore g.core fun c =>
        { c with slots := Map.put c.slots 0 (freeKey g.set g.slot) 4 }
    else if g.e != 0 && g.atRendezvous then s.publishStep k
    else s

/-- Lanes of a group exit or are retired (R48, R291, R294). -/
def State.leaveLanes (s : State) (k : Nat) (ls : Mask) : State := (s.exitCells k ls).modGroup k fun g => g.leave ls

/-- Completions that are due in a group, and what they bring about. -/
def State.settle (s : State) (k : Nat) : State := (s.modGroup k (Group.settle settleFuel)).after k

/-- Poison consumed by a group word (R420): an open region unwinds, else the launch ends by fault with mailbox event 2
and vector 66. -/
def State.consume (s : State) (k : Nat) (pc : Dword) (pa : Nat) : State :=
  match s.group? k with
  | none => s
  | some g =>
    match g.region with
    | some _ => s.modGroup k fun g => { g with region := g.region.map fun r => { r with due := some 1 } }
    | none => ((s.mailEvent g.core 2 0xE0 (whereField 0 g.slot 0) pc.toNat pa 0).vector 66).endByFault g.launch

/-- The poison that an atomic of a group has met is consumed (R420). -/
def State.consumeEaten (s : State) (k : Nat) : State :=
  match (s.group? k).bind (·.ate) with
  | some (pc, pa) => (s.modGroup k fun g => { g with ate := none }).consume k pc pa
  | none => s

/-! ### Return from a trap (R294, R409, R412) -/

/-- The trapping word of a record, where there is one (R401); cause 0 is the boundary trap of ONEWORD (R414).
Log 10: DEDUCED, unsafe. Log 14: DESIGN CHOICE, unsafe. -/
def TrapRec.word (t : TrapRec) : Option Dword :=
  if t.cause = 0 ∨ t.cause = 0x71 ∨ t.cause = 0x80 ∨ (t.cause = 0x61 ∧ t.aux = 0) then none
  else if t.cause = 0x20 ∨ t.cause = 0x60 ∨ t.cause = 0x90 ∨ t.cause = 0x91 then some (t.pc - 8)
  else some t.pc

/-- What RFT of the handler group of a core makes visible to the split that resumes (R294). -/
def State.handlerSeen (s : State) (launch core : Nat) : List Nat :=
  match s.group? (gkey launch core 0 handlerSlot) with
  | some h => s.trapWrites h allLanes
  | none => []

/-- RFT's effect on the trapped split, with a resume PC and a resume mask (R294): lanes of the trapped mask outside the
resume mask retire, and the split issues again, at the trapping word under the mask that is left. A split trapped by the
step watchdog returns to its STEP wait (R409). It may issue 8 cycles after RFT (R402). Log 10: DEDUCED, unsafe. -/
def State.trapReturn (s : State) (launch core : Nat) (pc : Dword) (rmask : Mask) : State :=
  match (s.ctx? launch core).bind (·.serving) with
  | none => s
  | some t =>
    let rm := rmask &&& t.tmask
    let pc := pc &&& ~~~(7 : Dword)
    let s := s.modCtx launch core fun c => { c with serving := none }
    let s := if t.cause = 0x20 then s.modLaunch launch fun l => { l with asserts := l.asserts - 1 } else s
    match s.group? t.group with
    | none => s
    | some g =>
      if (g.split t.split).wait != .trapped then s
      else
        let s := s.reveal t.group (g.split t.split).mask (s.handlerSeen launch core)
        let s := s.leaveLanes t.group (t.tmask &&& ~~~rm)
        let s := s.modGroup t.group fun g =>
          let g := { g with stepWait := 0 }
          if t.cause = 0x70 then g.modSplit t.split fun sp => { sp with wait := .step }
          else
            (g.modSplit t.split fun sp =>
              { sp with wait := .none, once := if t.word = some pc then some rm else none, stall := 8 }).moveTo t.split pc
        s.settle t.group

/-! ### Registers that are poisoned (R419, R420) -/

/-- The execution mask of an issuing word (R63, R294). -/
def Iss.exec (it : Iss) (p : Pred) : Mask := execMask it.g it.sp p

/-- COND6 of a C word, against the split's flags, m0 and the named mask (R281, R283). -/
def Iss.holds (it : Iss) : CCond → Bool
  | .always => true
  | .cc code => ccTest it.sp.cc code
  | .mask sense n => ((it.g.readM it.sp n &&& it.sp.mask) != 0) == sense
  | .reserved _ => false

/-- Keys of registers by number, vector registers in the lanes of a mask. -/
def Group.keysOf (g : Group) (m : Mask) (ns : List Nat) : List Nat :=
  ns.flatMap fun n =>
    if n < 256 then (lanesOf m).map fun l => g.badKey (.v n l)
    else if n < 512 then [g.badKey (.s (n - 256))] else if n < 768 then [g.badKey (.m (n - 512))] else []

/-- Keys of an operand of n registers in one lane. -/
def Group.laneKeys (g : Group) (n : Nat) (o : Src) (l : Nat) : List Nat := g.keysOf (BitVec.twoPow 32 l) (srcNos n o)

/-- The predicate of a word, where it has one. -/
def Instr.pred (i : Instr) : Pred := ⟨bits (encode i) 53 51, bit (encode i) 50⟩

/-- The data of a store, whose poison it moves (R420). -/
def Instr.moved : Instr → List Nat
  | .st w | .stu w | .sts w | .stl w | .stt w | .stp w | .fst w => dstNos (Width.regs w.x.w) w.d
  | _ => []

/-- Index registers of LDT and STT: the rank of the descriptor that B names (R259). -/
def wordRank (g : Group) (c : Ctx) : Instr → Nat
  | .ldt w | .stt w => (Desc.of (Map.get c.tds 0 ((match w.b with
    | .s n => (g.readS n).toNat
    | .imm x => wrap 32 x
    | _ => 0) % 256))).rank
  | _ => 0

/-- Keys of the registers that a word reads under an execution mask (R420): a word that reads other lanes reads there, a
matrix word every lane (R314), STEP the values that it publishes (R46), a mask register written in part its other bits. -/
def Iss.readKeys (it : Iss) (i : Instr) : List Nat :=
  let g := it.g
  let m := it.exec (Instr.pred i)
  let all (ns : List Nat) : List Nat := g.keysOf allLanes ns
  let b32 (b : Src) (l : Nat) : Nat := match b with
    | .v n => (g.readV n l).toNat
    | .s n => (g.readS n).toNat
    | .imm x => wrap 32 x
    | .nb _ _ => 0
  match i with
  | .shfl w =>
    g.keysOf m (predNos w.p ++ srcNos 1 w.b) ++ (lanesOf m).flatMap fun l =>
      ((shflLane w.x.opx l (b32 w.b l)).map (g.laneKeys (Ty.regs w.x.ty) w.a)).getD []
  | .shflx w =>
    g.keysOf m (predNos w.p ++ dstNos 1 w.d) ++ (lanesOf m).flatMap fun l =>
      let k := (match w.d with | .v n => (g.readV n l).toNat | _ => 0) % 64
      if k < 32 then g.laneKeys (Ty.regs w.x.ty) w.a k else g.laneKeys (Ty.regs w.x.ty) w.b (k - 32)
  | .bcst w =>
    g.keysOf m (predNos w.p ++ srcNos 1 w.b) ++ if m = 0 then [] else g.laneKeys (Ty.regs w.x.ty) w.a (b32 w.b 0 % 32)
  | .firstl w => g.keysOf m (predNos w.p) ++ if m = 0 then [] else g.laneKeys (Ty.regs w.x.ty) w.a (lowest m)
  | .cvtqd w =>
    g.keysOf m (predNos w.p) ++ if m = 0 then [] else (List.range (blockLanes w.x.opx)).flatMap (g.laneKeys 1 w.a)
  | .mma w | .mmas w | .mmaq w => if m = 0 then g.keysOf m (predNos w.p) else all (Instr.reads 0 i)
  | .step => if g.e = 0 then [] else g.keysOf (g.cellMask &&& ~~~g.exited) (regRun 112 g.e)
  | .ldt w | .stt w =>
    g.keysOf m (if m = 0 then predNos w.p else (Instr.reads (wordRank g it.c i) i).filter fun n => !(Instr.moved i).contains n)
  | i => match Instr.slots i with
    | some (x, y) =>
      g.keysOf (it.exec ⟨x.args.msel, false⟩) (slotReads x.op x.args) ++ g.keysOf (it.exec ⟨y.args.msel, false⟩)
        (slotReads y.op y.args)
    | none =>
      if bits (encode i) 63 62 = 3 then g.keysOf it.sp.mask (Instr.reads 0 i)
      else
        let ns := (Instr.reads 0 i).filter fun n =>
          !(Instr.moved i).contains n && (n < 512 || m != allLanes || !(Instr.writes i).contains n)
        g.keysOf m (predNos (Instr.pred i) ++ if m = 0 then [] else ns)

/-- Whether a word that issues reads a register that is poisoned, or its entry of the split table is. -/
def Iss.readsBad (it : Iss) (i : Instr) : Bool :=
  !it.g.bad.isEmpty && it.sp.held.isNone
    && (it.g.bad.contains (splitKey it.j) || (it.readKeys i).any it.g.bad.contains)

/-- Whether the data that a lane stores, n registers of D, is poisoned. -/
def Iss.dataBad (it : Iss) (d : Dst) (n l : Nat) : Bool :=
  !it.g.bad.isEmpty && (it.g.keysOf (BitVec.twoPow 32 l) (dstNos n d)).any it.g.bad.contains

/-! ### Issuing a word -/

/-- What a word does: it is executed, and the split goes on at `next` or at the following word; it parks at its own PC
(at absent lines and at CXL ports not ready its access is made once the wait ends, else it goes on then); it raises a
trap; it raises the traps of a set that it completes (R316); it raises a trap after some of its lanes have completed
(R137); it touches a page outside the pins, by lane and address; it consumes poison at a physical address. -/
inductive Eff where
  | ok (s : State) (next : Option Dword)
  | park (s : State) (w : Wait)
  | trap (t : Trap)
  | trapSet (f : State → State)
  | trapAfter (f : State → State) (t : Trap)
  | outside (lane addr : Nat)
  | poison (pa : Nat)

/-- The registers that a word of a split reads: those it read when it issued, where its access was held (R199). -/
def Group.reads (g : Group) (sp : Split) : Group :=
  match sp.held with
  | some h => { g with v := h.v, vx := h.vx, s := h.s, m := h.m, bad := h.bad }
  | none => g

/-- The split that issues now. -/
def State.iss (s : State) : Option Iss :=
  match s.group? s.cur with
  | none => none
  | some g =>
    match s.launch? g.launch, s.ctx? g.launch g.core with
    | some l, some c =>
      let sp := g.split s.curSplit
      if sp.live && sp.wait == .none && !g.gone && !l.stopped then some ⟨s.cur, s.curSplit, g, g.reads sp, sp, l, c⟩ else none
    | _, _ => none

/-- The same split after the state has changed. -/
def Iss.again (it : Iss) (s : State) : Iss :=
  match s.group? it.key with
  | some g => { it with own := g, g := g.reads it.sp, sp := g.split it.j, c := (s.ctx? g.launch g.core).getD it.c,
                        l := (s.launch? g.launch).getD it.l }
  | none => it

/-- The charge of a word that issues (R144). -/
def State.pay (s : State) (it : Iss) (w : Nat) : State :=
  s.modIsland (islandOf it.g.core) fun x => { x with charges := x.charges + chargeOf w }

/-- The loads that may still be late once a word of a split has issued (R120). -/
def State.lateAfter (s : State) (it : Iss) (w : Nat) : List Late :=
  if staysLate w then s.loads else s.loads.filter fun r => !(r.it.key == it.key && r.it.j == it.j)

/-- What issue itself does, before the effect: the charge (R144), the fold into the signature (R66), one word less in
every open window (R199) and the mask RFT left (R294). A word whose access was held by an absent line was issued before
and does none of it again (R112, R144). Log 21: DESIGN CHOICE, safe. -/
def State.charged (s : State) (it : Iss) (w : Nat) (folds : Bool) : State :=
  if it.sp.held.isSome then
    { s.modSplit it.key it.j fun sp => { sp with held := none } with free := s.free + 1, loads := s.lateAfter it w }
  else
    let s := s.pay it w
    let s := s.modSplit it.key it.j fun sp =>
      { sp with oldest := none, sig := if folds then foldWord sp.sig w else sp.sig,
                pend := sp.pend.map fun p => { p with left := p.left - 1 } }
    { s with free := s.free + 1, loads := s.lateAfter it w }

/-- Neighbour operands of a word whose group has no such neighbour register (R43, R207): outside a field launch, k ≥ E,
or k + 1 ≥ E for a 64-bit type. -/
def nbBad (g : Group) (ty : Ty) : Src → Bool
  | .nb _ k => decide (g.e ≤ k % 16) || (ty.is64 && decide (g.e ≤ k % 16 + 1))
  | _ => false

/-- The operands of an instruction that may name a neighbour, with their types (R208): of the fields that its entry
uses. -/
def Instr.nbSources : Instr → List (Src × Ty)
  | .mov w | .iabs w | .popc w | .clz w | .brev w | .frnd w | .frcp w | .frsq w | .fsqrt w | .fexp2 w | .flog2 w | .fsin w
  | .fcos w | .fclass w | .unpack w => [(w.a, w.x.ty)]
  | .sel w | .iadd w | .isub w | .imul w | .imulh w | .imad w | .idiv w | .imin w | .imax w
  | .and w | .or w | .xor w | .andn w | .shl w | .shr w | .sar w | .rot w
  | .icmp w | .fadd w | .fsub w | .fmul w | .ffma w | .fmin w | .fmax w | .fcmp w | .fdiv w | .fdot2 w | .pack w =>
    [(w.a, w.x.ty), (w.b, w.x.ty)]
  | .lea w | .bfe w | .bfi w => [(w.a, w.x.ty), (w.b, .n32)]
  | .cvt w => [(w.a, w.x.sty)]
  | _ => []

/-- Cause 0x01 that depends on the group: a neighbour operand it cannot have (R43), STEP and STEPQ outside a field
launch or in the handler group (R299, R300). -/
def Instr.groupBad (i : Instr) (g : Group) : Bool :=
  (Instr.nbSources i).any (fun p => nbBad g p.2 p.1)
  || (match i with
      | .step | .stepq _ => g.e == 0 || g.handler
      | _ => false)

/-- A parked split goes on at the word after its own. -/
def State.resume (s : State) (k j : Nat) : State :=
  (s.modGroup k fun g => (g.modSplit j fun sp => { sp with wait := .none }).moveTo j ((g.split j).pc + 8)).after k

/-- The PC of the word after this one. -/
def Iss.nextPc (it : Iss) : Dword := it.sp.pc + 8

/-- A trap of the word as a whole: LANE is the lowest lane of the trapped mask (R400). -/
def Iss.trapWord (it : Iss) (cause : Nat) (m : Mask) (aux : Nat) : Trap :=
  { cause := cause, lane := lowest m, tmask := m, aux := aux, pc := it.sp.pc }

/-- The same where neither the word's entry nor R401 names the auxiliary and no lane has an address: AUX is a free value
(log 11). Log 11: DESIGN CHOICE, safe. -/
def Iss.trapOpen (it : Iss) (s : State) (cause : Nat) (m : Mask) : Trap :=
  it.trapWord cause m (Config.freeDword s.free).toNat

/-- The execution mask of the word, as far as its fields name one (R63, R400); a C or P word's trap takes the split's
Mask. Log 10: DEDUCED, unsafe. -/
def wordMask (g : Group) (sp : Split) (w : Nat) : Mask :=
  let f := bits w 63 62
  if (f = 0 || f = 2) && bits w 53 51 != 0 then execMask g sp ⟨bits w 53 51, bit w 50⟩ else execMask g sp ⟨0, false⟩

/-- The trap of cause 0x01 or 0x02 of a word (R400, R401, R406). -/
def Iss.trapBits (it : Iss) (cause w : Nat) : Trap := it.trapWord cause (wordMask it.g it.sp w) w

/-- What of issue itself stands where a word ends otherwise than by going on or parking: nothing at a trap at issue
(R144, R397); its charge where it was executed in part; all of it where it consumes poison (R66). -/
def State.leftBy (s issued : State) (it : Iss) (w : Nat) : Eff → State
  | .trapAfter .. | .outside .. => if it.sp.held.isSome then s else s.pay it w
  | .poison .. => issued
  | _ => s

/-- Words of barriers: results outstanding at them are ordered before what follows the barrier (R211). -/
def Instr.atBarrier : Instr → Bool
  | .bar .. | .bara .. | .barw .. | .tbarr .. | .tbwait .. | .tbtest .. => true
  | _ => false

/-- Words that read vector registers of lanes other than the one written (R211). -/
def Instr.crossLane : Instr → Bool
  | .shfl .. | .shflx .. | .bcst .. | .cvtqd .. => true
  | _ => false

/-- The group as a cross-lane word of a split sees it: with the results of its siblings that a barrier has ordered before
(R211). -/
def Group.withShown (g : Group) (j : Nat) : Group :=
  (List.range g.splits.length).foldl (fun g x =>
    if x = j then g
    else ((g.split x).pend.filter Pend.shown).foldl (fun g p =>
      g.writeRegs (p.writes.filter fun (w : RegId × Word) => match w.1 with | .v .. => true | _ => false)) g) g

/-- Results of a split that a barrier orders before later words of its siblings (R211). -/
def State.showPends (s : State) (it : Iss) : State :=
  s.modSplit it.key it.j fun sp => { sp with pend := sp.pend.map fun p => { p with shown := true } }

/-- What an access that waits keeps of its word (R112, R199). -/
def Iss.hold (it : Iss) (w : Nat) : Held := it.sp.held.getD ⟨w, it.g.v, it.g.vx, it.g.s, it.g.m, it.g.bad⟩

/-- What an effect comes to: the split goes on and the mask RFT left for one re-issue is spent (R294), or one of the
other ends of a word. -/
def State.apply (s : State) (it : Iss) (w : Nat) : Eff → State
  | .ok s' next => (s'.modGroup it.key fun g =>
      (g.modSplit it.j fun sp => { sp with once := none }).moveTo it.j (next.getD it.nextPc)).after it.key
  | .park s' x => (s'.modSplit it.key it.j fun sp =>
      match x with
      | .lines _ | .ports _ => { sp with wait := x, held := some (it.hold w) }
      | _ => { sp with wait := x, once := none }).after it.key
  | .trap t => s.raise it.key it.j t
  | .trapSet f => f s
  | .trapAfter f t => (f s).raise it.key it.j t
  | .outside lane addr =>
    (if it.g.handler then s.stopHandler it.key it.g.launch else s.endTeam it.g.launch it.g.team).mailEvent it.g.core 3 0x30 (whereField lane it.g.slot it.j) it.sp.pc.toNat addr 0
  | .poison pa => s.consume it.key it.sp.pc pa

/-! ### Time (R209, R282) -/

/-- Cycles that the neighbour operands of a word add to its latency (R50): the largest among the active lanes. -/
def Iss.nbTime (it : Iss) (i : Instr) : Nat :=
  ((Instr.nbSources i).flatMap fun (p : Src × Ty) => match p.1 with
    | .nb dir _ => (lanesOf (it.exec (Instr.pred i))).map fun l => nbCost it.g it.c it.l.r l dir
    | _ => []).foldl max 0

/-- Cycles from a control word to the earliest issue of the next word of its split (R282), where that is not the next
cycle. JTAB's depend on the targets that it finds. Log 4: DEDUCED, unsafe. -/
def Iss.control (it : Iss) : Instr → Nat
  | .bra c _ => if it.holds c then 3 else 0
  | .call c _ _ | .ret c _ | .jmps c _ => if it.holds c then 4 else 0
  | .loop n _ => if it.g.readS n = 1 then 0 else 3
  | .split .. => 4
  | .contain .. => 6
  | .uncontain => 6 + (match it.g.region with | some r => r.lines.length / 4 | none => 0)
  | _ => 0

/-- Words may read a register or a flag of split j from n cycles on (R209). -/
def Group.later (g : Group) (j n x : Nat) : Group :=
  { g with lat := Map.put g.lat 0 (if x < 768 then x else x + 8 * j) n }

/-- Words may read what a word writes once its latency is over (R209); a long-latency result lands when its time is
over. -/
def Iss.laterAll (it : Iss) (i : Instr) (g : Group) : Group :=
  match Instr.long i, (Instr.time i).2.map (· + it.nbTime i) with
  | false, some n => (Instr.writes i).foldl (fun g x => g.later it.j n x) g
  | _, _ => g

/-- The time that a word takes (R209): its partition's issue slot, when its next word may issue (R282), and when words may
read what it writes. -/
def State.timed (s : State) (it : Iss) (i : Instr) : State :=
  if it.sp.held.isSome then s
  else
    let t := Instr.time i
    let s := s.modGroup it.key fun g => (it.laterAll i g).modSplit it.j fun sp =>
      { sp with stall := it.control i, lat := t.2.map (· + it.nbTime i) }
    if t.1 ≤ 1 then s else s.modCore it.g.core fun c => { c with slots := Map.put c.slots 0 (it.g.slot / 4) t.1 }

/-- What issue itself does. -/
def State.begun (s : State) (it : Iss) (i : Instr) (folds : Bool) : State := (s.charged it (encode i) folds).timed it i

/-- The state as a word's effect finds it: what issue itself does is done, and a barrier has ordered what its split has
outstanding (R211). -/
def State.issuedAs (s : State) (it : Iss) (i : Instr) (folds : Bool) : State :=
  let s := s.begun it i folds
  if Instr.atBarrier i then s.showPends it else s

/-- The issuing split as a word's effect finds it; a cross-lane word reads what barriers have ordered before it (R211). -/
def Iss.issuedAs (it : Iss) (s : State) (i : Instr) (folds : Bool) : Iss :=
  let now := it.again (s.issuedAs it i folds)
  if Instr.crossLane i then { now with g := now.g.withShown now.j } else now

/-- Issue a word (R397): the group's checks of cause 0x01, then what issue does, then the effect. A word that traps
leaves no trace but the trap. One that reads a poisoned register consumes the poison (R420): it has no physical address,
and what the event names is a free value (log 11). Log 11: DESIGN CHOICE, safe. -/
def issueAs (i : Instr) (folds : Bool) (s : State) (eff : State → Iss → Eff) : Host.Outcome State Fault Refusal :=
  match s.iss with
  | none => .next s
  | some it =>
    if Instr.groupBad i it.g then .next (s.raise it.key it.j (it.trapBits 0x01 (encode i)))
    else
      let issued := s.issuedAs it i folds
      let e := if it.readsBad i then .poison (Config.freeDword s.free).toNat else eff issued (it.issuedAs s i folds)
      .next ((s.leftBy issued it (encode i) e).apply it (encode i) e)

def issue (i : Instr) (s : State) (eff : State → Iss → Eff) : Host.Outcome State Fault Refusal := issueAs i true s eff

/-! ### Results -/

/-- The launch's per-group update of registers and flags at once, for words that are not long-latency (R201). -/
def State.writeNow (s : State) (it : Iss) (ws : List (RegId × Word)) (f : FlagUpd) : State :=
  s.modGroup it.key fun g =>
    (g.writeRegs ws).modSplit it.j fun sp => { sp with cc := sp.cc.upd f }

/-- Enter a long-latency result (R199, R201): it lands no earlier than after the next `la` words of the split. -/
def State.writeLater (s : State) (it : Iss) (la : Nat) (ws : List (RegId × Word)) (f : FlagUpd) : State :=
  let s' := s.modSplit it.key it.j fun sp =>
    { sp with pend := sp.pend ++ [{ id := s.nextId, writes := ws, flags := f, fto := false, left := la, waits := [],
                                    lat := it.sp.lat }] }
  { s' with nextId := s.nextId + 1 }

/-- Both. -/
def State.result (s : State) (it : Iss) (long : Bool) (la : Nat) (ws : List (RegId × Word)) (f : FlagUpd) : State :=
  if long then s.writeLater it la ws f else s.writeNow it ws f

/-- Land one outstanding result: registers, flags, FTO (R199, R434). -/
def Group.land (g : Group) (j i : Nat) : Group :=
  match (g.split j).pend[i]? with
  | none => g
  | some p =>
    let g := g.writeRegs p.writes
    let g := if p.fto then { g with fto := true, ftoNow := true } else g
    g.modSplit j fun sp => { sp with cc := sp.cc.upd p.flags, pend := sp.pend.eraseIdx i }

end Sys2Proof.Machine
end

