-- ==== Sys2Proof/Machine/Operands.lean ====
section
/-!
DEFINITION. Every operand form of the instruction words (R61, R188, R189): what a source reads in a lane, and which
registers a destination writes.
-/

namespace Sys2Proof.Machine

open Sys2Proof

/-- The 64-bit value of two registers, low register first (R61). -/
def pairVal (lo hi : Word) : Nat := lo.toNat + 2 ^ 32 * hi.toNat

/-- A vector register, or the pair that starts at it, in a lane. -/
def Group.vVal (g : Group) (wide : Bool) (n l : Nat) : Nat :=
  if wide then pairVal (g.readV n l) (g.readV (n + 1) l) else (g.readV n l).toNat

/-- A scalar register, or the pair that starts at it. -/
def Group.sVal (g : Group) (wide : Bool) (n : Nat) : Nat :=
  if wide then pairVal (g.readS n) (g.readS (n + 1)) else (g.readS n).toNat

/-- A neighbour register or pair (R44, R189). -/
def nbVal (s : State) (it : Iss) (wide : Bool) (l dir k : Nat) : Nat :=
  let rd (j : Nat) := nbRead s it.g it.c it.l.r l dir j
  if wide then pairVal (rd k) (rd (k + 1)) else (rd k).toNat

/-- The value of a source of a typed word in lane l (R189): an immediate is converted to the element type. -/
def srcVal (s : State) (it : Iss) (t : Ty) (o : Src) (l : Nat) : Nat :=
  match o with
  | .v n => it.g.vVal t.is64 n l
  | .s n => it.g.sVal t.is64 n
  | .nb dir k => nbVal s it t.is64 l dir k
  | .imm i => immValue t i

/-- A 32-bit integer source in lane l; immediates are sign-extended. -/
def src32 (s : State) (it : Iss) (o : Src) (l : Nat) : Nat := srcVal s it .i32 o l

/-- A destination's own value in lane l, read before it is written. -/
def dstVal (it : Iss) (t : Ty) (d : Dst) (l : Nat) : Nat :=
  match d with
  | .v n => it.g.vVal t.is64 n l
  | .s n => it.g.sVal t.is64 n
  | _ => 0

/-- The register writes of a value of `regs` registers in lane l: ascending registers, lowest bits first (R61, R252). -/
def dstRegs (d : Dst) (regs l : Nat) : List RegId :=
  match d with
  | .v n => (List.range regs).map fun i => .v (n + i) l
  | .s n => (List.range regs).map fun i => .s (n + i)
  | _ => []

def dstWrites (d : Dst) (regs l x : Nat) : List (RegId × Word) :=
  (dstRegs d regs l).mapIdx fun i r => (r, BitVec.ofNat 32 (x / 2 ^ (32 * i)))

/-- Write a value per active lane, or once for a scalar D. -/
def laneWrites (d : Dst) (regs : Nat) (m : Mask) (f : Nat → Nat) : List (RegId × Word) :=
  match d with
  | .v _ => (lanesOf m).flatMap fun l => dstWrites d regs l (f l)
  | .s _ => if m == 0 then [] else dstWrites d regs 0 (f (lowest m))
  | _ => []

/-- A mask register's new value: the result in the active lanes, the rest kept (R64). Log 27: DEDUCED, unsafe. -/
def maskWrite (it : Iss) (n : Nat) (m : Mask) (f : Nat → Bool) : List (RegId × Word) :=
  [(.m n, (it.g.readM it.sp n &&& ~~~m) ||| (maskOf f &&& m))]

/-- A value for the split as a whole, to a scalar once or to every active lane of a vector D (R238, R239, R241). -/
def wholeWrites (d : Dst) (regs : Nat) (m : Mask) (x : Nat) : List (RegId × Word) :=
  laneWrites d regs m fun _ => x

/-- A scalar or immediate operand of a command word, as an n32. -/
def Iss.scalar (it : Iss) (o : Src) : Nat :=
  match o with
  | .s n => (it.g.readS n).toNat
  | .imm i => wrap 32 i
  | _ => 0

/-- A scalar pair as an n64. -/
def Iss.pair (it : Iss) (o : Src) : Nat :=
  match o with
  | .s n => it.g.sVal true n
  | _ => 0

/-- Register i of the command block at A (R310). -/
def Iss.block (it : Iss) (o : Src) (i : Nat) : Nat :=
  match o with
  | .s n => (it.g.readS (n + i)).toNat
  | _ => 0

/-- An n64 of the command block, from two registers. -/
def Iss.block64 (it : Iss) (o : Src) (i : Nat) : Nat := it.block o i + 2 ^ 32 * it.block o (i + 1)

/-- Write an n32 to a scalar D, or discard it when D is null. -/
def scalarWrites (d : Dst) (x : Nat) : List (RegId × Word) :=
  match d with
  | .s n => [(.s n, BitVec.ofNat 32 x)]
  | _ => []

/-- Write an n64 to the pair of a scalar D. -/
def pairWrites (d : Dst) (x : Nat) : List (RegId × Word) :=
  match d with
  | .s n => [(.s n, BitVec.ofNat 32 x), (.s (n + 1), BitVec.ofNat 32 (x / 2 ^ 32))]
  | _ => []

end Sys2Proof.Machine
end

