-- ==== Sys2Proof/Machine/IntAlu.lean ====
section
/-!
DEFINITION. Moves, integer arithmetic, logic, bits and integer compares (R212 to R224), and the one shape every
arithmetic F word has: a value per lane, written to D, and flags from the lowest active lane's value where CC is set.
-/

namespace Sys2Proof.Machine

open Sys2Proof

/-- An arithmetic word: D takes `val l` in every active lane, `regs` registers wide, and CC takes `fl` of the lowest
active lane and its value (R208, R210). Nothing is written where the mask is empty. -/
def arith (i : Instr) (w : FWord XArith) (long : Bool) (regs : Nat) (val : State → Iss → Nat → Nat)
    (fl : State → Iss → Nat → Nat → FlagUpd) (s : State) : Host.Outcome State Fault Refusal :=
  issue i s fun s it =>
    let m := it.exec w.p
    let f := if w.x.cc && m != 0 then fl s it (lowest m) (val s it (lowest m)) else {}
    .ok (s.result it long w.la (laneWrites w.d regs m (val s it)) f) none

/-- Sources A and B of a word in lane l, with their sign modifiers (R79, R190). -/
def srcA (w : FWord XArith) (s : State) (it : Iss) (l : Nat) : Nat :=
  let x := srcVal s it w.x.ty w.a l
  if w.x.negA || w.x.absA then byElem w.x.ty fun i => modSign (tyWidth w.x.ty) w.x.negA w.x.absA (elem (tyWidth w.x.ty) i x)
  else x

def srcB (w : FWord XArith) (s : State) (it : Iss) (l : Nat) : Nat :=
  let x := srcVal s it w.x.ty w.b l
  if w.x.negB || w.x.absB then byElem w.x.ty fun i => modSign (tyWidth w.x.ty) w.x.negB w.x.absB (elem (tyWidth w.x.ty) i x)
  else x

/-- Apply a function of one element, or of two, element by element. -/
def map1 (t : Ty) (f : Nat → Nat) (a : Nat) : Nat := byElem t fun i => f (elem (tyWidth t) i a)
def map2 (t : Ty) (f : Nat → Nat → Nat) (a b : Nat) : Nat :=
  byElem t fun i => f (elem (tyWidth t) i a) (elem (tyWidth t) i b)

/-- A two-source word whose flags depend on the two values and the result. -/
def arith2 (i : Instr) (w : FWord XArith) (f : Nat → Nat → Nat) (fl : Nat → Nat → Nat → FlagUpd) (s : State) :
    Host.Outcome State Fault Refusal :=
  arith i w false (tyRegs w.x.ty) (fun s it l => map2 w.x.ty f (srcA w s it l) (srcB w s it l))
    (fun s it l r => fl (srcA w s it l) (srcB w s it l) r) s

/-- A one-source word whose flags depend on the result. -/
def arith1 (i : Instr) (w : FWord XArith) (long : Bool) (f : Nat → Nat) (fl : Nat → FlagUpd) (s : State) :
    Host.Outcome State Fault Refusal :=
  arith i w long (tyRegs w.x.ty) (fun s it l => map1 w.x.ty f (srcA w s it l)) (fun _ _ _ r => fl r) s

/-- An integer word of an exact result (R215): wrapped, or clamped with SAT. -/
def intArith2 (i : Instr) (w : FWord XArith) (f : Int → Int → Int) (fl : Nat → Nat → FlagUpd) (s : State) :
    Host.Outcome State Fault Refusal :=
  arith2 i w (fun a b => intResult w.x.ty w.x.sat (f (intOf w.x.ty a) (intOf w.x.ty b))) (fun a b _ => fl a b) s

/-- Z and N of an integer result before any clamp (R77). -/
def flagsExact (t : Ty) (x : Int) : FlagUpd := flagsZN (tyWidth t) (intResult t false x)

/-- A logic word (R219). -/
def logic2 (i : Instr) (w : FWord XArith) (f : Nat → Nat → Nat) (s : State) : Host.Outcome State Fault Refusal :=
  arith2 i w f (fun _ _ r => flagsZN (tyWidth w.x.ty) r) s

/-! ### Moves and selection -/

/-- NOP (R212). -/
def execNop (s : State) : Host.Outcome State Fault Refusal := issue .nop s fun s _ => .ok s none

/-- MOV (R213). -/
def execMov (w : FWord XArith) (s : State) : Host.Outcome State Fault Refusal :=
  arith (.mov w) w false (tyRegs w.x.ty) (srcA w) (fun _ _ _ r => flagsOf w.x.ty r) s

/-- Whether a word of two used sources is a vector word (R189). -/
def vecWord (w : FWord XArith) : Bool := w.d.isVec || w.a.isVec || w.b.isVec

/-- SEL (R214). -/
def execSel (w : FWord XArith) (s : State) : Host.Outcome State Fault Refusal :=
  arith (.sel w) w false (tyRegs w.x.ty)
    (fun s it l =>
      let m := it.g.readM it.sp (w.x.opx % 8)
      let inv := bit w.x.opx 3
      let c := (if vecWord w then m.getLsbD l else (m &&& it.exec w.p) != 0) != inv
      if c then srcVal s it w.x.ty w.a l else srcVal s it w.x.ty w.b l)
    (fun _ _ _ r => flagsOf w.x.ty r) s

/-! ### Integer arithmetic -/

/-- IADD (R215). Log 34: DEDUCED, unsafe. -/
def execIadd (w : FWord XArith) (s : State) : Host.Outcome State Fault Refusal :=
  intArith2 (.iadd w) w (· + ·) (flagsAdd (tyWidth w.x.ty)) s

/-- ISUB (R215). Log 34: DEDUCED, unsafe. -/
def execIsub (w : FWord XArith) (s : State) : Host.Outcome State Fault Refusal :=
  intArith2 (.isub w) w (· - ·) (flagsSub (tyWidth w.x.ty)) s

/-- IMUL (R215). Log 34: DEDUCED, unsafe. -/
def execImul (w : FWord XArith) (s : State) : Host.Outcome State Fault Refusal :=
  intArith2 (.imul w) w (· * ·) (fun a b => flagsMul w.x.ty (intOf w.x.ty a * intOf w.x.ty b)) s

/-- IMULH (R215): the high half of the full product. -/
def execImulh (w : FWord XArith) (s : State) : Host.Outcome State Fault Refusal :=
  arith2 (.imulh w) w
    (fun a b => intResult w.x.ty w.x.sat (intOf w.x.ty a * intOf w.x.ty b / ((2 ^ tyWidth w.x.ty : Nat) : Int)))
    (fun _ _ r => flagsZN (tyWidth w.x.ty) r) s

/-- IMIN (R215). -/
def execImin (w : FWord XArith) (s : State) : Host.Outcome State Fault Refusal :=
  intArith2 (.imin w) w min (fun a b => flagsExact w.x.ty (min (intOf w.x.ty a) (intOf w.x.ty b))) s

/-- IMAX (R215). -/
def execImax (w : FWord XArith) (s : State) : Host.Outcome State Fault Refusal :=
  intArith2 (.imax w) w max (fun a b => flagsExact w.x.ty (max (intOf w.x.ty a) (intOf w.x.ty b))) s

/-- IABS (R215). -/
def execIabs (w : FWord XArith) (s : State) : Host.Outcome State Fault Refusal :=
  let t := w.x.ty
  arith (.iabs w) w false (tyRegs t)
    (fun s it l => map1 t (fun a => intResult t w.x.sat ((intOf t a).natAbs : Int)) (srcA w s it l))
    (fun s it l _ => flagsExact t ((intOf t (srcA w s it l)).natAbs : Int)) s

/-- The exact value of IMAD in one element (R216). -/
def imadExact (t : Ty) (a b d : Nat) : Int := intOf t a * intOf t b + intOf t d

/-- IMAD (R216): D is read as the addend. -/
def execImad (w : FWord XArith) (s : State) : Host.Outcome State Fault Refusal :=
  let t := w.x.ty
  arith (.imad w) w false (tyRegs t)
    (fun s it l =>
      let a := srcA w s it l
      let b := srcB w s it l
      let d := dstVal it t w.d l
      byElem t fun i =>
        intResult t w.x.sat (imadExact t (elem (tyWidth t) i a) (elem (tyWidth t) i b) (elem (tyWidth t) i d)))
    (fun s it l _ => flagsMul t (imadExact t (srcA w s it l) (srcB w s it l) (dstVal it t w.d l))) s

/-- IDIV (R217): quotient, or remainder with OPX bit 0. -/
def execIdiv (w : FWord XArith) (s : State) : Host.Outcome State Fault Refusal :=
  let t := w.x.ty
  let val (sat : Bool) (s : State) (it : Iss) (l : Nat) : Nat :=
    let qr := idivElem t sat (srcA w s it l) (srcB w s it l)
    if bit w.x.opx 0 then qr.2 else qr.1
  arith (.idiv w) w true (tyRegs t) (val w.x.sat)
    (fun s it l _ => flagsDiv t (srcA w s it l) (srcB w s it l) (val false s it l)) s

/-- LEA (R218): B is one 32-bit register, extended by the type's signedness. -/
def execLea (w : FWord XArith) (s : State) : Host.Outcome State Fault Refusal :=
  let t := w.x.ty
  arith (.lea w) w false (tyRegs t)
    (fun s it l =>
      let b := src32 s it w.b l
      let b : Int := if tySigned t then sext 32 b else ((b % 2 ^ 32 : Nat) : Int)
      wrap (tyWidth t) ((srcA w s it l : Int) + b * ((2 ^ w.x.opx : Nat) : Int)))
    (fun _ _ _ _ => {}) s

/-! ### Logic and bits -/

/-- AND (R219). -/
def execAnd (w : FWord XArith) (s : State) : Host.Outcome State Fault Refusal := logic2 (.and w) w Nat.land s

/-- OR (R219). -/
def execOr (w : FWord XArith) (s : State) : Host.Outcome State Fault Refusal := logic2 (.or w) w Nat.lor s

/-- XOR (R219). -/
def execXor (w : FWord XArith) (s : State) : Host.Outcome State Fault Refusal := logic2 (.xor w) w Nat.xor s

/-- A & ~B on elements of w bits. -/
def andNot (w a b : Nat) : Nat := Nat.land a (2 ^ w - 1 - b % 2 ^ w)

/-- ANDN (R219). -/
def execAndn (w : FWord XArith) (s : State) : Host.Outcome State Fault Refusal :=
  logic2 (.andn w) w (andNot (tyWidth w.x.ty)) s

/-- SHL (R220). Log 34: DEDUCED, unsafe. -/
def execShl (w : FWord XArith) (s : State) : Host.Outcome State Fault Refusal :=
  arith2 (.shl w) w (shlElem w.x.ty w.x.sat)
    (fun a b _ => flagsShift true false (tyWidth w.x.ty) a b (shlElem w.x.ty false a b)) s

/-- SHR (R220). -/
def execShr (w : FWord XArith) (s : State) : Host.Outcome State Fault Refusal :=
  arith2 (.shr w) w (shrElem w.x.ty) (fun a b => flagsShift false false (tyWidth w.x.ty) a b) s

/-- SAR (R220). -/
def execSar (w : FWord XArith) (s : State) : Host.Outcome State Fault Refusal :=
  arith2 (.sar w) w (sarElem w.x.ty) (fun a b => flagsShift false true (tyWidth w.x.ty) a b) s

/-- ROT (R220). -/
def execRot (w : FWord XArith) (s : State) : Host.Outcome State Fault Refusal :=
  arith2 (.rot w) w (rotElem w.x.ty) (fun _ b => flagsRot (tyWidth w.x.ty) b) s

/-- A bit count (R221): one 32-bit register even of a 64-bit type. -/
def bitCount (i : Instr) (w : FWord XArith) (f : Nat → Nat) (s : State) : Host.Outcome State Fault Refusal :=
  arith i w false 1 (fun s it l => map1 w.x.ty f (srcA w s it l))
    (fun _ _ _ r => flagsZN (min 32 (tyWidth w.x.ty)) r) s

/-- POPC (R221). -/
def execPopc (w : FWord XArith) (s : State) : Host.Outcome State Fault Refusal :=
  bitCount (.popc w) w (popcount (tyWidth w.x.ty)) s

/-- CLZ (R221). -/
def execClz (w : FWord XArith) (s : State) : Host.Outcome State Fault Refusal :=
  bitCount (.clz w) w (clz (tyWidth w.x.ty)) s

/-- BREV (R221). -/
def execBrev (w : FWord XArith) (s : State) : Host.Outcome State Fault Refusal :=
  arith1 (.brev w) w false (brev (tyWidth w.x.ty)) (flagsZN (tyWidth w.x.ty)) s

/-- BFE (R222). -/
def execBfe (w : FWord XArith) (s : State) : Host.Outcome State Fault Refusal :=
  arith (.bfe w) w false (tyRegs w.x.ty) (fun s it l => bfeElem w.x.ty (srcA w s it l) (src32 s it w.b l))
    (fun _ _ _ r => flagsZN (tyWidth w.x.ty) r) s

/-- BFI (R222): D is read before it is written. -/
def execBfi (w : FWord XArith) (s : State) : Host.Outcome State Fault Refusal :=
  arith (.bfi w) w false (tyRegs w.x.ty)
    (fun s it l => bfiElem w.x.ty (dstVal it w.x.ty w.d l) (srcA w s it l) (src32 s it w.b l))
    (fun _ _ _ r => flagsZN (tyWidth w.x.ty) r) s

/-! ### Compares -/

/-- A compare (R223, R224): every element of a register D all ones or zeros (one 32-bit register of a 64-bit type), the
lanes' bits of a mask D, nothing for a null D; CC writes G and Z on scalar words. Log 27: DEDUCED, unsafe. -/
def compare (i : Instr) (w : FWord XArith) (cond : Nat → Nat → Bool) (s : State) : Host.Outcome State Fault Refusal :=
  let t := w.x.ty
  let test (s : State) (it : Iss) (l : Nat) : Bool := cond (srcA w s it l) (srcB w s it l)
  issue i s fun s it =>
    let m := it.exec w.p
    let ew := if t.is64 then 32 else tyWidth t
    let value (l : Nat) : Nat :=
      if t.is64 then (if test s it l then 2 ^ 32 - 1 else 0)
      else map2 t (fun a b => if cond a b then 2 ^ ew - 1 else 0) (srcA w s it l) (srcB w s it l)
    let ws := match w.d with
      | .m (n + 1) => if m == 0 then [] else maskWrite it (n + 1) m (test s it)
      | d => laneWrites d 1 m value
    let f := if w.x.cc && m != 0 then FlagUpd.test (test s it (lowest m)) else {}
    .ok (s.writeNow it ws f) none

/-- ICMP (R223). -/
def execIcmp (w : FWord XArith) (s : State) : Host.Outcome State Fault Refusal :=
  compare (.icmp w) w (fun a b => icmpCond w.x.opx (intOf w.x.ty a) (intOf w.x.ty b)) s

end Sys2Proof.Machine
end

