-- ==== Sys2Proof/Machine/Arena.lean ====
section
/-!
DEFINITION. Arenas, slots and handles (R131 to R137): the fields of an arena entry, which slot holds an address, the
slot-state array, locked lines, and whether a handle is live.
-/

namespace Sys2Proof.Machine

open Sys2Proof

/-- The fields of an arena entry (R131). -/
structure ArenaEntry where
  base : Nat
  slog : Nat
  slots : Nat
  inbox : Bool
  inum : Nat
  sstate : Nat
  reserved : Nat
  valid : Bool
  deriving DecidableEq, Repr

def ArenaEntry.of (w : BitVec 128) : ArenaEntry :=
  let x := w.toNat
  { base := bits x 127 87 * 65536, slog := bits x 86 82, slots := bits x 81 50, inbox := bit x 49, inum := bits x 48 46,
    sstate := bits x 45 5 * 65536, reserved := bits x 4 1, valid := bit x 0 }

/-- Entry a of the arena table. -/
def State.arena (s : State) (a : Nat) : ArenaEntry := ArenaEntry.of (Map.get s.arenas 0 a)

/-- Numbers and entries of the valid arenas. -/
def State.validArenas (s : State) : List (Nat × ArenaEntry) :=
  (s.arenas.map fun p => (p.1, ArenaEntry.of p.2)).filter fun (p : Nat × ArenaEntry) => p.2.valid

/-- Virtual address of slot i, and the size of a slot. -/
def ArenaEntry.slotVa (e : ArenaEntry) (i : Nat) : Nat := e.base + i * 2 ^ e.slog
def ArenaEntry.slotBytes (e : ArenaEntry) : Nat := 2 ^ e.slog

/-- State word of slot i of arena a (R133). -/
def slotKey (a i : Nat) : Nat := a * 2 ^ 32 + i
def State.slot (s : State) (a i : Nat) : Slot := Map.get s.slots {} (slotKey a i)
def State.modSlot (s : State) (a i : Nat) (f : Slot → Slot) : State :=
  { s with slots := Map.put s.slots {} (slotKey a i) (f (s.slot a i)) }

/-- States of a slot, by number (R133). -/
def Slot.free (x : Slot) : Bool := x.st == 0
def Slot.locked (x : Slot) : Bool := x.st == 2 || x.st == 3 || x.st == 4
def Slot.atRest (x : Slot) : Bool := x.st == 1 || x.st == 5 || x.st == 6

/-- GEN's next value (R133). -/
def nextGen (g : Nat) : Nat := if g = 0xFFFF then 1 else g + 1

/-- A slot becomes FREE: GEN advances (R136, steps 2, 7, 9). -/
def Slot.release (x : Slot) : Slot := { gen := nextGen x.gen, st := 0, cause := 0, len := 0 }

/-- The state word as PSTAT reads it (R133). -/
def Slot.word (x : Slot) : Nat := x.gen * 2 ^ 48 + x.st * 2 ^ 44 + x.cause * 2 ^ 40 + x.len * 2 ^ 20

/-- The slot that holds a virtual address. -/
def State.slotAt (s : State) (va : Nat) : Option (Nat × Nat) :=
  s.validArenas.findSome? fun (p : Nat × ArenaEntry) =>
    if p.2.base ≤ va ∧ va < p.2.slotVa p.2.slots then some (p.1, (va - p.2.base) / p.2.slotBytes) else none

/-- Whether a virtual address lies in a locked slot (R137). Log 15: DEDUCED, unsafe. -/
def State.lockedAt (s : State) (va : Nat) : Bool :=
  match s.slotAt va with
  | some (a, i) => (s.slot a i).locked
  | none => false

/-- The writes to a slot that have issued are performed: what was written before a lock or a free is before it (R139,
R141). Log 36: DEDUCED, unsafe. -/
def State.drainSlot (s : State) (l : Launch) (a i : Nat) : State :=
  let e := s.arena a
  let pages := (List.range (e.slotBytes / 65536)).map fun p => l.phys (e.slotVa i + 65536 * p)
  s.drainIf fun st => pages.any fun pa => decide (st.addr < pa + 65536) && decide (pa < st.addr + st.data.length)

/-- Whether any of n bytes at a virtual address lies in a slot-state array (R132). -/
def State.inSlotStates (s : State) (va n : Nat) : Bool :=
  s.validArenas.any fun (p : Nat × ArenaEntry) =>
    decide (p.2.sstate < va + n) && decide (va < p.2.sstate + 8 * p.2.slots)

/-! ### Handles (R134) -/

structure Handle where
  dev : Nat
  arena : Nat
  index : Nat
  gen : Nat
  deriving DecidableEq, Repr

def Handle.of (x : Nat) : Handle :=
  { dev := bits x 63 55, arena := bits x 54 48, index := bits x 47 16, gen := bits x 15 0 }

def Handle.toNat (h : Handle) : Nat := h.dev * 2 ^ 55 + h.arena * 2 ^ 48 + h.index * 2 ^ 16 + h.gen

/-- Whether a handle is live (R134). -/
def State.liveHandle (s : State) (h : Handle) : Bool :=
  let e := s.arena h.arena
  let x := s.slot h.arena h.index
  h.dev == s.regs.devno && e.valid && decide (h.index < e.slots) && h.gen == x.gen && !x.free

/-- The valid arena that is inbox i of this device (R132). -/
def State.inboxArena (s : State) (i : Nat) : Option (Nat × ArenaEntry) :=
  s.validArenas.find? fun (p : Nat × ArenaEntry) => p.2.inbox && p.2.inum == i

end Sys2Proof.Machine
end

