-- ==== Sys2Proof/Machine/Reach.lean ====
section
/-!
DEFINITION. What an access of a group word reaches and what refuses it: translated addresses with residency and
protection (R102, R253, R415, R416), BF16 alias windows and tensor elements (R69, R93, R94, R114), scratchpad (R111,
R112) and private memory (R113); the reads and the writes themselves.
-/

namespace Sys2Proof.Machine

open Sys2Proof

/-- One access of a word: the lane it is charged to, the lanes in whose program order it stands, its address. -/
structure Acc where
  lane : Nat
  lanes : Mask
  addr : Nat
  deriving DecidableEq, Repr

/-- What refuses an access: cause 0x02, cause 0x31, or a page outside the pins. -/
inductive Prob where
  | c02 | c31 | out
  deriving DecidableEq, Repr

/-- Bytes of a width (R192). -/
def widthBytes : Width → Nat
  | .n8 | .i8 => 1
  | .n16 | .i16 => 2
  | .w32 => 4
  | .w64 => 8
  | .w128 => 16
  | .reserved => 4

/-- A loaded value as its registers hold it (R192). -/
def widthExtend (w : Width) (x : Nat) : Nat :=
  match w with
  | .i8 => wrap 32 (sext 8 x)
  | .i16 => wrap 32 (sext 16 x)
  | _ => x

/-- Whether an access is other than plain (R115). -/
def Order.strongly : Order → Bool
  | .plain => false
  | _ => true

/-- Whether a code releases, and whether it acquires. -/
def Order.releases : Order → Bool
  | .rel | .ar => true
  | _ => false

/-! ### Translated addresses -/

/-- What refuses the page of a virtual address once it is translated (R253, R351, R416, R443).
Log 20: DESIGN CHOICE, unsafe. -/
def pageProb (s : State) (l : Launch) (write : Bool) (va : Nat) : Option Prob :=
  let pa := l.phys va
  if !(kindOf pa).plain then some .c31
  else if kindOf pa == .cxl && (s.cxlPort pa).isNone then some .c31
  else if write && !l.writable va then some .c31
  else none

/-- What refuses n bytes at a translated address. Log 12: DEDUCED, unsafe. -/
def transProb (s : State) (l : Launch) (write : Bool) (va n : Nat) : Option Prob :=
  let last := va + n - 1
  if 2 ^ 56 ≤ last then some .c31
  else if l.inPrivate va || l.inPrivate last then some .c31
  else if s.inSlotStates va n then some .c31
  else if !(l.pinned va && l.pinned last) then some .out
  else (pageProb s l write va).or (pageProb s l write last)

/-! ### Alias windows and tensor elements -/

/-- Coordinates of the element with linear index L (R114). -/
def Desc.coords (d : Desc) (x : Nat) : List Nat :=
  let e (i : Nat) := d.extent i
  [x % e 0, x / e 0 % e 1, x / (e 0 * e 1) % e 2, x / (e 0 * e 1 * e 2)]

/-- Virtual addresses of an element's low byte and of its scale byte. -/
def Desc.elemVa (d : Desc) (c : List Nat) : Nat := d.elemAddr (c.getD 0 0) (c.getD 1 0) (c.getD 2 0) (c.getD 3 0)
def Desc.scaleVa (d : Desc) (c : List Nat) : Nat := d.scaleAddr (c.getD 0 0) (c.getD 1 0) (c.getD 2 0) (c.getD 3 0)

/-- Bytes an element takes in its own array. -/
def Desc.elemBytes (d : Desc) : Nat := ceilDiv d.halfBytes 2

/-- What refuses an element of a tensor. -/
def elemProb (s : State) (l : Launch) (write : Bool) (d : Desc) (c : List Nat) : Option Prob :=
  (transProb s l write (d.elemVa c) d.elemBytes).or
    (if d.isBlock then transProb s l write (d.scaleVa c) 1 else none)

/-- Whether an address lies in an alias window, its descriptor, and the linear index of its first element (R102,
R114). -/
def inAlias (va : Nat) : Bool := decide (2 ^ 56 ≤ va) && decide (va < 2 ^ 56 + 2 ^ 48)
def aliasDesc (c : Ctx) (va : Nat) : Desc := Desc.of (Map.get c.tds 0 ((va - 2 ^ 56) / 2 ^ 40))
def aliasIndex (va : Nat) : Nat := va % 2 ^ 40 / 2

/-- The elements an alias access of n bytes acts on. -/
def aliasElems (d : Desc) (va n : Nat) : List (List Nat) := (List.range (n / 2)).map fun i => d.coords (aliasIndex va + i)

/-- What refuses an alias access (R70, R114). One of 128 bits is 8-byte aligned: R114 lists no width above 64 bits.
Log 17: DESIGN CHOICE, unsafe. -/
def aliasProb (s : State) (it : Iss) (write : Bool) (va n : Nat) : Option Prob :=
  let d := aliasDesc it.c va
  let count := d.extent 0 * d.extent 1 * d.extent 2 * d.extent 3
  if d.window = 0 || !d.valid || !d.isBlock then some .c31
  else if !d.ok then some .c02
  else if n < 2 || va % min n 8 != 0 then some .c31
  else if min count (2 ^ 39) < aliasIndex va + n / 2 then some .c31
  else if write && d.window == 2 then some .c31
  else (aliasElems d va n).findSome? (elemProb s it.l write d)

/-- What refuses a global access of n bytes; `window` says whether the word reaches alias windows (R251 to R253).
Log 12: DEDUCED, unsafe. -/
def globalProb (s : State) (it : Iss) (write window strong : Bool) (va n : Nat) : Option Prob :=
  if 2 ^ 57 ≤ va then some .c31
  else if strong && va % n != 0 then some .c31
  else if inAlias va then (if window then aliasProb s it write va n else some .c31)
  else transProb s it.l write va n

/-- The virtual addresses of memory that an access touches, with their lengths. -/
def touched (it : Iss) (va n : Nat) : List (Nat × Nat) :=
  if inAlias va then
    let d := aliasDesc it.c va
    (aliasElems d va n).flatMap fun c => [(d.elemVa c, 1), (d.scaleVa c, 1)]
  else [(va, n)]

/-- Whether an access meets a locked parcel line (R137). -/
def State.lockedAcc (s : State) (it : Iss) (va n : Nat) : Bool :=
  (touched it va n).any fun (x : Nat × Nat) => s.lockedAt x.1 || s.lockedAt (x.1 + x.2 - 1)

/-- The first physical address of an access that reads as poison (R420). -/
def State.accPoison (s : State) (it : Iss) (va n : Nat) : Option Nat :=
  (touched it va n).findSome? fun (x : Nat × Nat) =>
    ((List.range x.2).map fun i => it.l.phys (x.1 + i)).find? fun pa => s.seenBad it.key pa

/-- The parts of an access of n bytes that are single-copy atomic (R118), as offset and length: up to 8 aligned bytes, or
each byte of a misaligned one. An access of a tile word starts at a whole line (R318). -/
def atomicParts (a n : Nat) : List (Nat × Nat) :=
  if a % min n 128 = 0 then
    if n ≤ 8 then [(0, n)] else (List.range (n / 8)).map fun i => (8 * i, 8)
  else (List.range n).map fun i => (i, 1)

/-- The key of a read among the choices of `older`: its lane, and the place of its part in the access. -/
def readKey (lane i : Nat) : Nat := 64 * lane + i

/-- Several reads in the order of their bytes. -/
def Got.join (gs : List Got) : Got :=
  { bytes := gs.flatMap (·.bytes), srcs := gs.flatMap (·.srcs), rels := (gs.flatMap (·.rels)).eraseDups }

/-- A read of n bytes at a virtual address by one lane, or by the split (R117, R118). -/
def State.vGot (s : State) (it : Iss) (a : Acc) (strong : Bool) (n : Nat) : Got :=
  Got.join ((atomicParts a.addr n).map fun (p : Nat × Nat) =>
    s.readPart it.key a.lanes strong (readKey a.lane p.1) .mem (it.l.phys (a.addr + p.1)) p.2)

/-- A read of one byte of an element: byte i of the access, at a virtual address. -/
def State.byteGot (s : State) (it : Iss) (a : Acc) (strong : Bool) (i va : Nat) : Got :=
  s.readPart it.key a.lanes strong (readKey a.lane i) .mem (it.l.phys va) 1

/-- The number that a read's bytes form. -/
def Got.nat (g : Got) : Nat := leNat g.bytes

/-- The decoded value of a block element (R89, R91). -/
def blockKindAt (d : Desc) (scale : Nat) : BlockKind := if d.fmt = 11 then qx4Kind scale else d.blockKind

/-- The code of an element whose byte is x. -/
def Desc.codeOf (d : Desc) (i0 x : Nat) : Nat := if d.halfBytes = 2 then x else if i0 % 2 = 0 then x % 16 else x / 16

/-- The reads of a block element: its code byte and its scale byte (R114, R259); `e` numbers the element in its access. -/
def State.elemGots (s : State) (it : Iss) (a : Acc) (strong : Bool) (d : Desc) (e : Nat) (c : List Nat) : Got × Got :=
  (s.byteGot it a strong (16 + 2 * e) (d.elemVa c), s.byteGot it a strong (17 + 2 * e) (d.scaleVa c))

/-- The exact value of a block element from the two reads. -/
def blockValOf (d : Desc) (c : List Nat) (code scale : Nat) : FVal :=
  (blockKindAt d scale).decode scale (d.codeOf (c.getD 0 0) code)

/-- What a global load of n bytes reads: an alias access the code and the scale of each element (R93, R114). -/
def State.gGot (s : State) (it : Iss) (a : Acc) (strong : Bool) (n : Nat) : Got :=
  if inAlias a.addr then
    let d := aliasDesc it.c a.addr
    Got.join (((aliasElems d a.addr n).mapIdx fun e c => s.elemGots it a strong d e c).flatMap fun x => [x.1, x.2])
  else s.vGot it a strong n

/-- What a global load of n bytes returns: an alias access the bf16 of each element (R93). -/
def State.gRead (s : State) (it : Iss) (a : Acc) (strong : Bool) (n : Nat) : Nat :=
  if inAlias a.addr then
    let d := aliasDesc it.c a.addr
    ((aliasElems d a.addr n).mapIdx fun e c =>
      let x := s.elemGots it a strong d e c
      Fmt.bf16.deliver .rne false (blockValOf d c x.1.nat x.2.nat) * 2 ^ (16 * e)).sum
  else (s.vGot it a strong n).nat

/-- The observers of a word's acquire, and of its release, where it is one (R115). -/
def acqObs (o : Order) (m : Obs) : Option Obs := match o with | .acq | .ar => some m | _ => none
def relObs (o : Order) (m : Obs) : Option Obs := if Order.releases o then some m else none

/-- The reads of a word's accesses have been made (R119, R121, R122). -/
def State.noteReads (s : State) (it : Iss) (x : XMem) (rs : List (Acc × Got)) : State :=
  rs.foldl (fun s (r : Acc × Got) =>
    s.didRead it.key r.1.lanes (acqObs x.ord x.obs) (Order.strongly x.ord) r.2.srcs r.2.rels) s

/-- Where a global access of n bytes reads. -/
def globalPlaces (it : Iss) (va n : Nat) : List (Space × Nat × Nat) :=
  (touched it va n).flatMap fun (x : Nat × Nat) => (pagesIn x.1 x.2).map fun (p : Nat × Nat) => (.mem, it.l.phys p.1, p.2)

/-- What the accesses of some lanes to places come after is performed (R119, R120). -/
def State.comeAfterAll (s : State) (k : Nat) (xs : List (Mask × List (Space × Nat × Nat))) : State :=
  xs.foldl (fun s x => x.2.foldl (fun s (p : Space × Nat × Nat) => s.comeAfter k x.1 p.1 p.2.1 p.2.2) s) s

/-! ### Writes of a group word -/

/-- Version lines of all open regions homed on a die (R424). -/
def State.versionLines (s : State) (die : Nat) : Nat :=
  (s.groups.map fun p => match p.2.region with
    | some r => (r.lines.filter fun x => homeDie (128 * x) == die).length
    | none => 0).sum

/-- Set an unwind that is due (R425, R426): poison comes before overflow. -/
def Region.fail (r : Region) (cause : Nat) : Region :=
  { r with due := if r.due == some 1 then some 1 else some cause }

/-- A write into the open region's version (R296, R424): over budget it is not performed and the region unwinds.
Log 23: DEDUCED, unsafe. -/
def State.versionWrite (s : State) (k : Nat) (st : Store) : State :=
  match (s.group? k).bind (·.region) with
  | none => s
  | some r =>
    let n := st.data.length
    let new := ([st.addr / 128, (st.addr + n - 1) / 128].eraseDups).filter fun x => !r.lines.contains x
    let full := Config.versionLines < r.lines.length + new.length
      || new.any fun x => decide (Config.versionDieLines ≤ s.versionLines (homeDie (128 * x)))
    let r := if full then r.fail 2
      else { r with lines := new.foldl Nats.ins r.lines,
                    bytes := (List.range n).foldl (fun m i => Map.ins m (st.addr + i) (st.data.getD i 0)) r.bytes,
                    writes := r.writes ++ [st] }
    s.modGroup k fun g => { g with region := some r }

/-- Whether a group has an open region. -/
def State.inRegion (s : State) (k : Nat) : Bool := ((s.group? k).bind (·.region)).isSome

/-- The pending stores to common bytes that come before a store of some lanes: those that are visible to them, and those
of lower lanes of the same word (R117, R119). -/
def State.storesBefore (s : State) (g : Group) (k : Nat) (lanes : Mask) (pa n : Nat) : List Nat :=
  (s.stores.filter fun st => st.group == k && overlap st.addr st.data.length pa n
    && (g.sees lanes st.id || st.word == s.free)).map (·.id)

/-- Whether a late load reads any of n bytes of a place. -/
def Late.meets (r : Late) (sp : Space) (a n : Nat) : Bool :=
  r.places.any fun (p : Space × Nat × Nat) => p.1 == sp && decide (p.2.1 < a + n) && decide (a < p.2.1 + p.2.2)

/-- Loads of some lanes that read any of n bytes of a place are late no longer: an access to a common byte comes after
them (R120). -/
def State.endLate (s : State) (k : Nat) (lanes : Mask) (sp : Space) (a n : Nat) : State :=
  { s with loads := s.loads.filter fun r => !(r.it.key == k && (r.it.sp.mask &&& lanes) != 0 && r.meets sp a n) }

/-- A write of some lanes is made: it is visible to them, and where they have it in common what one of them sees is
visible to it (R117, R124). -/
def State.wrote (s : State) (k : Nat) (lanes : Mask) (id : Nat) : State :=
  s.modGroup k fun g =>
    let g := (g.share lanes true).see lanes [id]
    { g with seen := markSeen g.seen lanes [madeKey id] }

/-- A store's write (R119): into the version, where no release carries it (R296), or issued and not yet performed; the
atomics of its lanes there are performed before. -/
def State.put (s : State) (k : Nat) (lanes : Mask) (pa : Nat) (bs : List Byte) (tag bad : Bool) (rels : List Rel) : State :=
  if s.inRegion k then
    s.versionWrite k { group := k, lanes := lanes, addr := pa, data := bs, word := s.free, rels := rels, bad := bad }
  else
    let ids := (s.atomsAt k lanes .mem pa bs.length).map (·.id)
    let s := (if ids.isEmpty then s else s.drainAtoms fun x => ids.contains x.id).endLate k lanes .mem pa bs.length
    match s.group? k with
    | none => s
    | some g =>
      { s with
        stores := s.stores ++ [{ id := s.nextWrite, group := k, lanes := lanes, addr := pa, data := bs, tag := tag,
                                 word := s.free, after := s.storesBefore g k lanes pa bs.length, rels := rels,
                                 bad := bad }]
        nextWrite := s.nextWrite + 1 : State }.wrote k lanes s.nextWrite

/-- The write of an indivisible read and write of some lanes, performed at once (R94, R119); `rmw` says whether it is an
atomic's, `bad` whether its data is poisoned, `behind` names the writes that it goes behind. -/
def State.putNow (s : State) (k : Nat) (lanes : Mask) (pa : Nat) (bs : List Byte) (rmw bad : Bool) (rels : List Rel)
    (behind : List Nat := []) : State :=
  if s.inRegion k then
    s.versionWrite k { group := k, lanes := lanes, addr := pa, data := bs, word := s.free, rels := rels, bad := bad }
  else
    let s := s.endLate k lanes .mem pa bs.length
    let s := (s.drainIds (carriedBy rels)).hostDone (carriedHost rels)
    let id := s.nextWrite
    ({ s with nextWrite := id + 1 }.writeAs
      { id := id, maker := s.laneOf k, rmw := rmw, rels := rels, word := s.free, tight := true, behind := behind }
      pa bs false bad).wrote k lanes id

/-- A store of n bytes at a virtual address (R118): each single-copy atomic part is a write of its own.
Log 2: DESIGN CHOICE, unsafe. Log 17: DEDUCED, unsafe. -/
def State.vWrite (s : State) (it : Iss) (lanes : Mask) (va : Nat) (bs : List Byte) (tag bad : Bool) (rels : List Rel) :
    State :=
  (atomicParts va bs.length).foldl (fun s (p : Nat × Nat) =>
    s.put it.key lanes (it.l.phys (va + p.1)) ((bs.drop p.1).take p.2) tag bad rels) s

/-- What a value stored to an element of a block does to its scale byte and its code (R94). -/
def requantise (k : BlockKind) (scale : Nat) (y : FVal) : Option (Nat ⊕ Nat) :=
  match k.scaleExp scale with
  | none => none
  | some e =>
    match y with
    | .nan => some (.inl k.invalidByte)
    | y => some (.inr (k.pick (FVal.scale (-e) y)))

/-- The byte that holds a new code. -/
def Desc.setCode (d : Desc) (i0 old code : Nat) : Nat :=
  if d.halfBytes = 2 then code else if i0 % 2 = 0 then old / 16 * 16 + code else old % 16 + 16 * code

/-- The byte that readers of a group see last in coherence order, with what brings it there (R94, R262). -/
def State.lastRead (s : State) (k : Nat) (sp : Space) (a n : Nat) : Got :=
  s.readBehind sp a n [] (match sp with | .mem => s.versionByte k | _ => noOwn)

/-- The writes that an alias store's write of its code byte goes behind (R119): none that is older than a write of the
scale byte, because its read of that byte and its write are indivisible (R94). Log 2: DEDUCED, unsafe. -/
def State.elemBehind (s : State) (it : Iss) (lanes : Mask) (scale code : Nat) : List Nat :=
  let gone := s.goesBehind it.key lanes s.nextWrite s.free .mem code 1
  match (s.writesTo .mem scale 1).head? with
  | none => gone
  | some w => if (s.hist.dropWhile fun x => x.id != w.id).all fun x => !gone.contains x.id then gone else []

/-- An alias store, or STT, to one element of a block: a read of the scale byte and a write of the code byte, whose nibble
is replaced, both indivisible: the scale is the last one written (R94, R114). Log 2: DESIGN CHOICE, unsafe.
Log 17: DEDUCED, unsafe. -/
def State.putElem (s : State) (it : Iss) (a : Acc) (strong : Bool) (d : Desc) (c : List Nat) (y : FVal) (bad : Bool)
    (rels : List Rel) : State :=
  let scale := it.l.phys (d.scaleVa c)
  let code := it.l.phys (d.elemVa c)
  let s := s.comeAfter it.key a.lanes .mem scale 1
  let s := if s.inRegion it.key then s else (s.drainIds (carriedBy rels)).hostDone (carriedHost rels)
  let sc := s.lastRead it.key .mem scale 1
  let s := s.didRead it.key a.lanes none strong sc.srcs sc.rels
  match requantise (blockKindAt d sc.nat) sc.nat y with
  | none => s
  | some (.inl b) => s.putNow it.key a.lanes scale [BitVec.ofNat 8 b] false bad rels
  | some (.inr x) =>
    let s := s.comeAfter it.key a.lanes .mem code 1
    let gone := if s.inRegion it.key || bad then [] else s.elemBehind it a.lanes scale code
    let old := (s.readBehind .mem code 1 gone (s.versionByte it.key)).nat
    s.putNow it.key a.lanes code [BitVec.ofNat 8 (d.setCode (c.getD 0 0) old x)] false bad rels gone

/-- The releases of one lane's write (R121): a plain write makes none. -/
def State.accRels (s : State) (it : Iss) (x : XMem) (lanes : Mask) : List Rel :=
  match s.group? it.key with
  | none => []
  | some g => s.relsOf g lanes (relObs x.ord x.obs) (Order.strongly x.ord)

/-- A global store of n bytes (R114, R256); `bad` says that its data is poisoned. -/
def State.gWrite (s : State) (it : Iss) (x : XMem) (a : Acc) (n v : Nat) (bad : Bool) : State :=
  let rels := s.accRels it x a.lanes
  if inAlias a.addr then
    let d := aliasDesc it.c a.addr
    ((aliasElems d a.addr n).mapIdx fun i c => (i, c)).foldl (fun s (e : Nat × List Nat) =>
      s.putElem it a (Order.strongly x.ord) d e.2 (Fmt.bf16.read (v / 2 ^ (16 * e.1) % 2 ^ 16)) bad rels) s
  else s.vWrite it a.lanes a.addr (leBytes n v) false bad rels

/-! ### Scratchpad (R111, R112) -/

/-- A place in scratchpad: an offset of the launch's slice on a core, or of the handler scratchpad (R399). -/
inductive Scr where
  | slice (core off : Nat)
  | hnd (off : Nat)
  deriving DecidableEq, Repr

/-- Rank of core-list entry i within its cluster's rectangle, x fastest (R30). -/
def Launch.crank (l : Launch) (i : Nat) : Nat :=
  let e := l.cores.getD i ⟨0, 0, 0⟩
  let below (o : CoreEntry) : Bool :=
    o.cluster == e.cluster
    && (decide (coreY o.core < coreY e.core) || (coreY o.core == coreY e.core && decide (coreX o.core < coreX e.core)))
  (l.cores.filter below).length

/-- The core of a cluster rank of the issuing core's cluster (R111). -/
def Iss.rankCore (it : Iss) (rank : Nat) : Option Nat :=
  let entry (i : Nat) := it.l.cores.getD i ⟨0, 0, 0⟩
  ((List.range it.l.cores.length).find? fun i =>
    (entry i).cluster == (entry it.c.index).cluster && it.l.crank i == rank).map fun i => (entry i).core

/-- What n bytes at a scratchpad address are, or nothing where cause 0x31 is raised (R111). -/
def scrAt (s : State) (it : Iss) (a n : Nat) : Option Scr :=
  let f := bits a 22 19
  let off := bits a 18 0
  let inSlice (core : Nat) : Option Scr :=
    match s.ctx? it.g.launch core with
    | some c => if off + n ≤ c.sliceBytes then some (.slice core off) else none
    | none => none
  if 2 ^ 23 ≤ a then none
  else if f = 0 then inSlice it.g.core
  else if f ≤ 12 then (it.rankCore (f - 1)).bind inSlice
  else if f = 15 && it.g.handler && off + n ≤ 4096 then some (.hnd off)
  else none

/-- Lines of n bytes from an offset, by number. -/
def linesOf (off n : Nat) : List Nat :=
  if n = 0 then [] else (List.range ((off + n - 1) / 128 + 1 - off / 128)).map fun i => off / 128 + i

/-- Absent lines that an access touches (R112). -/
def absentLines (s : State) (launch : Nat) (n : Nat) : Scr → List (Nat × Nat)
  | .slice core off =>
    match s.ctx? launch core with
    | some c => ((linesOf off n).filter fun ln => Map.get c.counts 0 ln != 0).map fun ln => (core, ln)
    | none => []
  | .hnd _ => []

/-- A read of n bytes of scratchpad by one lane, or by the split (R117, R118, R124). The handler scratchpad has one
reader, and is read as it stands. Log 2: DESIGN CHOICE, unsafe. -/
def State.scrGot (s : State) (it : Iss) (a : Acc) (strong : Bool) (p : Scr) (n : Nat) : Got :=
  match p with
  | .hnd off => ⟨(List.range n).map fun i => Map.get it.c.hscr 0 (off + i), [], []⟩
  | .slice core off =>
    Got.join ((atomicParts a.addr n).map fun (q : Nat × Nat) =>
      s.readPart it.key a.lanes strong (readKey a.lane q.1) (.scr it.g.launch core) (off + q.1) q.2)

/-- The n bytes of a place of scratchpad as they stand: what an indivisible update reads. -/
def scrRead (s : State) (it : Iss) (p : Scr) (n : Nat) : Nat :=
  match p with
  | .slice core off => leNat (s.bytesAt (.scr it.g.launch core) off n)
  | .hnd off => leNat ((List.range n).map fun i => Map.get it.c.hscr 0 (off + i))

/-- The same as a read: what last wrote each byte, and the releases that it meets. -/
def scrLast (s : State) (it : Iss) (p : Scr) (n : Nat) : Got :=
  match p with
  | .slice core off => s.lastRead it.key (.scr it.g.launch core) off n
  | .hnd off => ⟨(List.range n).map fun i => Map.get it.c.hscr 0 (off + i), [], []⟩

/-- Whether a read of n bytes meets a poisoned granule. -/
def scrBad (s : State) (it : Iss) (n : Nat) : Scr → Bool
  | .slice core off =>
    match s.ctx? it.g.launch core with
    | some c => (List.range n).any fun i => c.bad.contains (granule (off + i))
    | none => false
  | .hnd _ => false

/-- A write of some lanes to scratchpad, performed at once after the atomics of its lanes there; each single-copy atomic
part is a write of its own, an indivisible update being one as a whole (R118). `whole` says that it is such an update, and
`rmw` that it is an atomic's or a barrier's, which continues a chain (R121), `bad` that its data is poisoned. -/
def State.scrWrite (s : State) (it : Iss) (lanes : Mask) (p : Scr) (bs : List Byte) (whole rmw bad : Bool)
    (rels : List Rel) : State :=
  match p with
  | .slice core off =>
    let sp : Space := .scr it.g.launch core
    let s := (s.comeAfter it.key lanes sp off bs.length).endLate it.key lanes sp off bs.length
    let s := (s.drainIds (carriedBy rels)).hostDone (carriedHost rels)
    let parts := if whole then [(0, bs.length)] else atomicParts off bs.length
    parts.foldl (fun s (q : Nat × Nat) =>
      let id := s.nextWrite
      let gone := if whole || bad then [] else s.goesBehind it.key lanes id s.free sp (off + q.1) q.2
      ({ s with nextWrite := id + 1 }.slicePut
        { id := id, maker := .lane it.g.launch it.g.core, rmw := rmw, rels := rels, word := s.free, tight := whole,
          bad := bad, behind := gone }
        it.g.launch core (off + q.1) ((bs.drop q.1).take q.2)).wrote it.key lanes id) s
  | .hnd off => s.modCtx it.g.launch it.g.core fun c =>
      { c with hscr := Map.putBytes c.hscr off bs }

/-! ### Private memory (R113) -/

def privKey (lane off : Nat) : Nat := 2 ^ 32 * lane + off

/-- n bytes of a lane's private memory. -/
def Group.privRead (g : Group) (lane off n : Nat) : Nat :=
  ((List.range n).map fun i => (Map.get g.priv 0 (privKey lane (off + i))).toNat * 256 ^ i).sum

def Group.privWrite (g : Group) (lane off n x : Nat) : Group :=
  { g with priv := Map.putBytes g.priv (privKey lane off) (leBytes n x) }

/-- Keys of the granules of private memory that hold n bytes of a lane (R113, R420): a granule holds a word of 8 lanes. -/
def privBadKey (lane off : Nat) : Nat := 2 ^ 20 + 4 * (off / 4) + lane / 8
def privBadKeys (lane off n : Nat) : List Nat := ((List.range n).map fun i => privBadKey lane (off + i)).eraseDups

/-- Whether the accesses of a word of n bytes each cover a granule of private memory. -/
def privFilled (n : Nat) (accs : List Acc) (key : Nat) : Bool :=
  let x := key - 2 ^ 20
  (List.range 8).all fun i => (List.range 4).all fun b => accs.any fun a =>
    a.lane == 8 * (x % 4) + i && decide (a.addr ≤ 4 * (x / 4) + b) && decide (4 * (x / 4) + b < a.addr + n)

/-- Poison of private memory after a word's writes of n bytes (R420): those of `bad` poison their granules, and the clean
ones clear what they fill. -/
def Group.privPoison (g : Group) (n : Nat) (accs bad : List Acc) : Group :=
  let kept := g.bad.filter fun x => x < 2 ^ 20 || !privFilled n accs x
  { g with bad := (bad.flatMap fun a => privBadKeys a.lane a.addr n).foldl Nats.ins kept }

end Sys2Proof.Machine
end

