-- ==== Sys2Proof/Machine/Memory.lean ====
section
/-!
DEFINITION. Loads, stores, PREF and FENCE (R256 to R261).
-/

namespace Sys2Proof.Machine

open Sys2Proof

/-- The accesses of a word: one per active lane, or one for the split, in the order of its lowest active lane and in
the program order of every lane of its Mask (R117, R189). -/
def accesses (it : Iss) (m : Mask) (perLane : Bool) (addr : Nat → Nat) : List Acc :=
  if perLane then (lanesOf m).map fun l => ⟨l, BitVec.twoPow 32 l, addr l⟩
  else if m = 0 then [] else [⟨lowest m, it.sp.mask, addr (lowest m)⟩]

/-- A word's trap, or the end of its team, by the first kind of problem that any lane has (R398, R415).
Log 12: DEDUCED, unsafe. -/
def probEff (it : Iss) (m : Mask) (w : Nat) (ps : List (Acc × Option Prob)) : Option Eff :=
  let first (p : Prob) := ps.find? fun (x : Acc × Option Prob) => x.2 == some p
  match first .c02, first .c31, first .out with
  | some (a, _), _, _ => some (.trap { it.trapWord 0x02 m w with lane := a.lane })
  | none, some (a, _), _ => some (.trap { it.trapWord 0x31 m a.addr with lane := a.lane })
  | none, none, some (a, _) => some (.outside a.lane a.addr)
  | none, none, none => none

/-- Finish a word over its accesses: those that meet a locked parcel line raise 0x40 after the other lanes have
completed (R137). -/
def withLocked (it : Iss) (m : Mask) (s : State) (locked : List Acc) (f : State → State) : Eff :=
  match locked with
  | [] => .ok (f s) none
  | a :: _ => .trapAfter f { it.trapWord 0x40 m a.addr with lane := a.lane }

/-! ### Global loads and stores -/

/-- A global address in lane l: a 64-bit pair plus a sign-extended index, wrapped (R251). -/
def gAddr (s : State) (it : Iss) (a b : Src) (l : Nat) : Nat :=
  wrap 64 ((srcVal s it .n64 a l : Int) + sext 32 (src32 s it b l))

/-- A scratchpad or private address in lane l. -/
def addr32 (s : State) (it : Iss) (a b : Src) (l : Nat) : Nat := (src32 s it a l + src32 s it b l) % 2 ^ 32

/-- Whether a memory word makes one access per active lane (R189, R256). -/
def memVec (d : Dst) (a b : Src) : Bool := d.isVec || a.isVec || b.isVec

/-- The registers a load writes: per access its lane, or the one value for the whole split. -/
def loadWrites (d : Dst) (regs : Nat) (m : Mask) (perLane : Bool) (vals : List (Nat × Nat)) : List (RegId × Word) :=
  if perLane then vals.flatMap fun (x : Nat × Nat) => dstWrites d regs x.1 x.2
  else vals.flatMap fun (x : Nat × Nat) => wholeWrites d regs m x.2

/-- Whether the result of a late load is still outstanding. -/
def State.outstanding (s : State) (r : Late) : Bool :=
  match s.group? r.it.key with
  | some g => (g.split r.it.j).pend.any fun p => p.id == r.id
  | none => false

/-- A load that issues: those of its split that read a common byte are late no longer, and unless it acquires or reads a
region's version its own read may be made later (R120). Log 2: DEDUCED, unsafe. -/
def State.mayBeLate (s : State) (it : Iss) (i : Instr) (ord : Order) (places : List (Space × Nat × Nat)) : State :=
  let kept := s.loads.filter fun r => s.outstanding r
    && !(r.it.key == it.key && r.it.j == it.j && places.any fun (p : Space × Nat × Nat) => r.meets p.1 p.2.1 p.2.2)
  { s with loads := if ord == .acq || s.inRegion it.key then kept else kept ++ [⟨s.nextId, i, it, places⟩] }

/-- The end of a load whose accesses have been found: a wait for a port, poison, or the values (R352, R420). A load
with lanes at a locked line opens no window for the others. Log 12: DEDUCED, unsafe. -/
def loadEnd (s : State) (it : Iss) (i : Instr) (m : Mask) (accs : List Acc) (n la : Nat) (x : XMem) (got : Acc → Got)
    (write : List Acc → List (RegId × Word)) : Eff :=
  let ports := (accs.flatMap fun a => (touched it a.addr n).flatMap fun (x : Nat × Nat) => portsOf s it.l x.1 x.2).eraseDups
  let locked := accs.filter fun a => s.lockedAcc it a.addr n
  let free := accs.filter fun a => !s.lockedAcc it a.addr n
  if !ports.isEmpty then .park s (.ports ports)
  else match free.findSome? fun a => s.accPoison it a.addr n with
    | some pa => .poison pa
    | none =>
      let seen (s : State) : State := s.noteReads it x (free.map fun a => (a, got a))
      if locked.isEmpty then
        .ok (((seen s).mayBeLate it i x.ord (free.flatMap fun a => globalPlaces it a.addr n)).writeLater it la (write free) {})
          none
      else withLocked it m s locked fun s => (seen s).writeNow it (write free) {}

/-- What a global load does (R256, R258): `perLane` says whether each active lane reads. -/
def loadEff (i : Instr) (w : FWord XMem) (perLane : Bool) (s : State) (it : Iss) : Eff :=
  let m := it.exec w.p
  let n := widthBytes w.x.w
  let accs := accesses it m perLane (gAddr s it w.a w.b)
  match probEff it m (encode i) (accs.map fun a =>
      (a, globalProb s it false true (Order.strongly w.x.ord) a.addr n)) with
  | some e => e
  | none =>
    let strong := Order.strongly w.x.ord
    let s := s.comeAfterAll it.key (accs.map fun a => (a.lanes, globalPlaces it a.addr n))
    loadEnd s it i m accs n w.la w.x (fun a => s.gGot it a strong n) fun accs =>
      loadWrites w.d (Width.regs w.x.w) m perLane (accs.map fun a =>
        (a.lane, widthExtend w.x.w (s.gRead it a strong n)))

/-- LD (R256). -/
def execLd (w : FWord XMem) (s : State) : Host.Outcome State Fault Refusal :=
  issue (.ld w) s (loadEff (.ld w) w (memVec w.d w.a w.b))

/-- LDU (R258): one read for the split. -/
def execLdu (w : FWord XMem) (s : State) : Host.Outcome State Fault Refusal :=
  issue (.ldu w) s (loadEff (.ldu w) w false)

/-- The data register of a memory word, `regs` registers wide, in lane l (R252). -/
def dataVal (it : Iss) (d : Dst) (regs l : Nat) : Nat :=
  ((List.range regs).map fun i =>
    (match d with
      | .v n => (it.g.readV (n + i) l).toNat
      | .s n => (it.g.readS (n + i)).toNat
      | _ => 0) * 2 ^ (32 * i)).sum

/-- The end of a store: the writes of the lanes that meet no locked line, in ascending order (R257).
Log 12: DEDUCED, unsafe. -/
def storeEnd (s : State) (it : Iss) (m : Mask) (accs : List Acc) (n : Nat) (write : State → Acc → State) : Eff :=
  let ports := (accs.flatMap fun a => (touched it a.addr n).flatMap fun (x : Nat × Nat) => portsOf s it.l x.1 x.2).eraseDups
  let locked := accs.filter fun a => s.lockedAcc it a.addr n
  let free := accs.filter fun a => !s.lockedAcc it a.addr n
  if !ports.isEmpty then .park s (.ports ports)
  else withLocked it m s locked fun s => free.foldl write s

/-- Where an alias store of a word reads a poisoned scale or code (R94, R420). -/
def aliasPoison (s : State) (it : Iss) (n : Nat) (accs : List Acc) : Option Nat :=
  (accs.filter fun a => inAlias a.addr && !s.lockedAcc it a.addr n).findSome? fun a => s.accPoison it a.addr n

/-- A global store (R256, R258). -/
def storeWord (i : Instr) (w : FWord XMem) (perLane : Bool) (s : State) : Host.Outcome State Fault Refusal :=
  issue i s fun s it =>
    let m := it.exec w.p
    let n := widthBytes w.x.w
    let accs := accesses it m perLane (gAddr s it w.a w.b)
    match probEff it m (encode i) (accs.map fun a =>
        (a, globalProb s it true true (Order.strongly w.x.ord) a.addr n)) with
    | some e => e
    | none =>
      match aliasPoison s it n accs with
      | some pa => .poison pa
      | none =>
        let r := Width.regs w.x.w
        storeEnd s it m accs n fun s a => s.gWrite it w.x a n (dataVal it w.d r a.lane) (it.dataBad w.d r a.lane)

/-- ST (R256). -/
def execSt (w : FWord XMem) (s : State) : Host.Outcome State Fault Refusal :=
  storeWord (.st w) w (memVec w.d w.a w.b) s

/-- STU (R258): one write for the split; a vector D gives its lowest active lane's value. -/
def execStu (w : FWord XMem) (s : State) : Host.Outcome State Fault Refusal := storeWord (.stu w) w false s

/-! ### Scratchpad and private memory (R256) -/

/-- The scratchpad places of a word's accesses, cause 0x31 for the first that is none or breaks alignment, or a wait
for absent lines (R111, R112, R252). -/
def scrPlaces (s : State) (it : Iss) (m : Mask) (accs : List Acc) (n : Nat) (strong : Bool) (k : List (Acc × Scr) → Eff) :
    Eff :=
  let bad (a : Acc) : Bool := (strong && a.addr % n != 0) || (scrAt s it a.addr n).isNone
  match accs.find? bad with
  | some a => .trap { it.trapWord 0x31 m a.addr with lane := a.lane }
  | none =>
    let ps := accs.filterMap fun a => (scrAt s it a.addr n).map fun p => (a, p)
    let absent := (ps.flatMap fun (x : Acc × Scr) => absentLines s it.g.launch n x.2).eraseDups
    if absent.isEmpty then k ps else .park s (.lines absent)

/-- Where an access of n bytes of scratchpad reads. -/
def slicePlaces (it : Iss) (p : Scr) (n : Nat) : List (Space × Nat × Nat) :=
  match p with
  | .slice core off => [(.scr it.g.launch core, off, n)]
  | .hnd _ => []

/-- What LDS does (R256). No physical address of scratchpad is stated: the event of a poisoned granule names the lane's
address in it. Log 11: DESIGN CHOICE, unsafe. -/
def ldsEff (w : FWord XMem) (s : State) (it : Iss) : Eff :=
  let m := it.exec w.p
  let n := widthBytes w.x.w
  let perLane := memVec w.d w.a w.b
  let strong := Order.strongly w.x.ord
  scrPlaces s it m (accesses it m perLane (addr32 s it w.a w.b)) n strong fun ps =>
    let s := s.comeAfterAll it.key (ps.map fun (x : Acc × Scr) => (x.1.lanes, slicePlaces it x.2 n))
    match ps.find? fun (x : Acc × Scr) => scrBad s it n x.2 with
    | some (a, _) => .poison a.addr
    | none =>
      .ok (((s.noteReads it w.x (ps.map fun (x : Acc × Scr) => (x.1, s.scrGot it x.1 strong x.2 n))).mayBeLate it (.lds w)
        w.x.ord (ps.flatMap fun (x : Acc × Scr) => slicePlaces it x.2 n)).writeLater it w.la
        (loadWrites w.d (Width.regs w.x.w) m perLane (ps.map fun (x : Acc × Scr) =>
          (x.1.lane, widthExtend w.x.w (s.scrGot it x.1 strong x.2 n).nat))) {}) none

/-- LDS (R256). -/
def execLds (w : FWord XMem) (s : State) : Host.Outcome State Fault Refusal := issue (.lds w) s (ldsEff w)

/-- STS (R256). -/
def execSts (w : FWord XMem) (s : State) : Host.Outcome State Fault Refusal :=
  issue (.sts w) s fun s it =>
    let m := it.exec w.p
    let n := widthBytes w.x.w
    scrPlaces s it m (accesses it m (memVec w.d w.a w.b) (addr32 s it w.a w.b)) n (Order.strongly w.x.ord) fun ps =>
      .ok (ps.foldl (fun s (x : Acc × Scr) =>
        s.scrWrite it x.1.lanes x.2 (leBytes n (dataVal it w.d (Width.regs w.x.w) x.1.lane)) false false
          (it.dataBad w.d (Width.regs w.x.w) x.1.lane) (s.accRels it w.x x.1.lanes)) s) none

/-- The first access past a lane's private bytes (R113). -/
def privBad (it : Iss) (n : Nat) (accs : List Acc) : Option Acc :=
  accs.find? fun a => decide (it.l.r.psize < a.addr + n)

/-- Address of a byte of a lane's private memory (R113). -/
def privVa (it : Iss) (lane off : Nat) : Nat :=
  it.l.r.pbase + (64 * it.g.team + it.g.gid) * (32 * it.l.r.psize) + 128 * (off / 4) + 4 * lane + off % 4

/-- What refuses accesses to pages of the private area (R415, R416), at their virtual addresses: a page outside the pins,
or a write without W or WR. -/
def privPages (it : Iss) (write : Bool) (n : Nat) (accs : List Acc) : List (Acc × Option Prob) :=
  accs.map fun a =>
    let vas := (List.range n).map fun i => privVa it a.lane (a.addr + i)
    ({ a with addr := privVa it a.lane a.addr },
      if vas.any fun va => !it.l.pinned va then some Prob.out
      else if write && vas.any fun va => !it.l.writable va then some Prob.c31 else none)

/-- LDL (R256). Log 17: DEDUCED, unsafe. -/
def execLdl (w : FWord XMem) (s : State) : Host.Outcome State Fault Refusal :=
  issue (.ldl w) s fun s it =>
    let m := it.exec w.p
    let n := widthBytes w.x.w
    let perLane := memVec w.d w.a w.b
    let accs := accesses it m perLane (addr32 s it w.a w.b)
    match privBad it n accs with
    | some a => .trap { it.trapWord 0x31 m a.addr with lane := a.lane }
    | none =>
      match probEff it m (encode (.ldl w)) (privPages it false n accs),
        accs.find? fun a => (privBadKeys a.lane a.addr n).any it.g.bad.contains with
      | some e, _ => e
      | none, some a => .poison (it.l.phys (privVa it a.lane a.addr))
      | none, none =>
        .ok (s.writeLater it w.la
          (loadWrites w.d (Width.regs w.x.w) m perLane (accs.map fun a =>
            (a.lane, widthExtend w.x.w (it.g.privRead a.lane a.addr n)))) {}) none

/-- STL (R256). Log 17: DEDUCED, unsafe. -/
def execStl (w : FWord XMem) (s : State) : Host.Outcome State Fault Refusal :=
  issue (.stl w) s fun s it =>
    let m := it.exec w.p
    let n := widthBytes w.x.w
    let accs := accesses it m (memVec w.d w.a w.b) (addr32 s it w.a w.b)
    match privBad it n accs with
    | some a => .trap { it.trapWord 0x31 m a.addr with lane := a.lane }
    | none =>
      match probEff it m (encode (.stl w)) (privPages it true n accs) with
      | some e => e
      | none =>
        let r := Width.regs w.x.w
        .ok (s.modGroup it.key fun g =>
          (accs.foldl (fun g a => g.privWrite a.lane a.addr n (dataVal it w.d r a.lane)) g).privPoison n accs
            (accs.filter fun a => it.dataBad w.d r a.lane)) none

/-! ### Tensor elements (R259) -/

/-- Index i of lane l: A names RANK consecutive registers of one class. -/
def tensorIndex (it : Iss) (a : Src) (rank l i : Nat) : Nat :=
  if rank ≤ i then 0
  else match a with
    | .v n => (it.g.readV (n + i) l).toNat
    | .s n => (it.g.readS (n + i)).toNat
    | _ => 0

def tensorCoords (it : Iss) (a : Src) (d : Desc) (l : Nat) : List Nat :=
  (List.range 4).map (tensorIndex it a d.rank l)

/-- Whether the index registers run past v127 or s191. -/
def tensorRun (a : Src) (rank : Nat) : Bool :=
  match a with
  | .v n => decide (128 < n + rank)
  | .s n => decide (192 < n + rank)
  | _ => true

/-- Whether W suits the element format. -/
def tensorWidth (d : Desc) (w : Width) : Bool := Width.code w == (if d.fmt = 13 || d.fmt = 14 then 5 else 4)

/-- What refuses lane l's element: an index above its extent, a store under ALIAS 10, or its place in memory. -/
def tensorProb (s : State) (it : Iss) (write : Bool) (d : Desc) (c : List Nat) : Option Prob :=
  if (List.range d.rank).any fun i => decide (d.extent i ≤ c.getD i 0) then some .c31
  else if write && d.isBlock && d.window == 2 then some .c31
  else elemProb s it.l write d c

/-- The reads of LDT for an element (R259): its own bytes, or its code and its scale. -/
def tensorGot (s : State) (it : Iss) (a : Acc) (strong : Bool) (d : Desc) (c : List Nat) : Got :=
  if d.isBlock then
    let x := s.elemGots it a strong d 0 c
    Got.join [x.1, x.2]
  else s.vGot it { a with addr := d.elemVa c } strong d.elemBytes

/-- What LDT writes for an element (R259). -/
def tensorLoad (s : State) (it : Iss) (a : Acc) (strong : Bool) (d : Desc) (c : List Nat) : Nat :=
  if d.isBlock then
    let x := s.elemGots it a strong d 0 c
    Fmt.f32.deliver .rne false (blockValOf d c x.1.nat x.2.nat)
  else
    let x := (s.vGot it { a with addr := d.elemVa c } strong d.elemBytes).nat
    match fmtFloat d.fmt with
    | some f => if d.fmt = 6 || d.fmt = 13 then x else Fmt.f32.deliver .rne false (f.read x)
    | none =>
      let (w, sg) := fmtInt d.fmt
      if sg && w ≤ 32 then wrap 32 (sext w x) else x

/-- The bits STT stores for an element that is no block's (R259). -/
def tensorStore (d : Desc) (x : Nat) : Nat :=
  match fmtFloat d.fmt with
  | some f => if d.fmt = 6 || d.fmt = 13 then x else f.deliver .rne false (Fmt.f32.read x)
  | none =>
    let (w, sg) := fmtInt d.fmt
    if w = 64 then x else wrap w (satInt w sg (if sg then sext 32 x else ((x % 2 ^ 32 : Nat) : Int)))

/-- LDT and STT up to the element accesses: the descriptor, the word's checks, and each lane's coordinates.
Log 17: DEDUCED, unsafe. -/
def tensorWord (s : State) (it : Iss) (w : FWord XMem) (word : Nat) (write : Bool)
    (k : Desc → Mask → List (Acc × List Nat) → Eff) : Eff :=
  let m := it.exec w.p
  let d := Desc.of (Map.get it.c.tds 0 (it.scalar w.b % 256))
  if tensorRun w.a d.rank then .trap (it.trapWord 0x01 m word)
  else if !d.ok || !tensorWidth d w.x.w then .trap (it.trapWord 0x02 m word)
  else
    let accs := (accesses it m (memVec w.d w.a (.imm 0)) fun l => d.elemVa (tensorCoords it w.a d l)).map
      fun a => (a, tensorCoords it w.a d a.lane)
    match probEff it m word (accs.map fun (x : Acc × List Nat) => (x.1, tensorProb s it write d x.2)) with
    | some e => e
    | none => k d m accs

/-- Whether an element meets a locked line, and the physical address at which it reads as poison. -/
def elemLocked (s : State) (d : Desc) (c : List Nat) : Bool :=
  s.lockedAt (d.elemVa c) || (d.isBlock && s.lockedAt (d.scaleVa c))

def elemPoison (s : State) (it : Iss) (d : Desc) (c : List Nat) : Option Nat :=
  (((List.range d.elemBytes).map fun i => d.elemVa c + i) ++ (if d.isBlock then [d.scaleVa c] else [])).findSome?
    fun va => if s.seenBad it.key (it.l.phys va) then some (it.l.phys va) else none

/-- CXL ports an element waits for. -/
def elemPorts (s : State) (it : Iss) (d : Desc) (accs : List (Acc × List Nat)) : List Nat :=
  (accs.flatMap fun (x : Acc × List Nat) =>
    portsOf s it.l (d.elemVa x.2) d.elemBytes ++ (if d.isBlock then portsOf s it.l (d.scaleVa x.2) 1 else [])).eraseDups

/-- Where an element is read. -/
def elemPlaces (it : Iss) (d : Desc) (c : List Nat) : List (Space × Nat × Nat) :=
  (List.range d.elemBytes).map (fun i => (.mem, it.l.phys (d.elemVa c + i), 1))
  ++ (if d.isBlock then [(.mem, it.l.phys (d.scaleVa c), 1)] else [])

/-- What LDT does (R259). -/
def ldtEff (w : FWord XMem) (s : State) (it : Iss) : Eff :=
  tensorWord s it w (encode (.ldt w)) false fun d m accs =>
    let s := s.comeAfterAll it.key (accs.map fun (x : Acc × List Nat) => (x.1.lanes, elemPlaces it d x.2))
    let locked := accs.filter fun (x : Acc × List Nat) => elemLocked s d x.2
    let free := accs.filter fun (x : Acc × List Nat) => !elemLocked s d x.2
    let strong := Order.strongly w.x.ord
    let ws := loadWrites w.d (Width.regs w.x.w) m (memVec w.d w.a (.imm 0)) (free.map fun (x : Acc × List Nat) =>
      (x.1.lane, tensorLoad s it x.1 strong d x.2))
    let seen (s' : State) : State :=
      s'.noteReads it w.x (free.map fun (x : Acc × List Nat) => (x.1, tensorGot s it x.1 strong d x.2))
    if !(elemPorts s it d accs).isEmpty then .park s (.ports (elemPorts s it d accs))
    else match free.findSome? fun (x : Acc × List Nat) => elemPoison s it d x.2 with
      | some pa => .poison pa
      | none =>
        if locked.isEmpty then
          .ok (((seen s).mayBeLate it (.ldt w) w.x.ord (free.flatMap fun (x : Acc × List Nat) => elemPlaces it d x.2)).writeLater
            it w.la ws {}) none
        else withLocked it m s (locked.map Prod.fst) fun s => (seen s).writeNow it ws {}

/-- LDT (R259). -/
def execLdt (w : FWord XMem) (s : State) : Host.Outcome State Fault Refusal := issue (.ldt w) s (ldtEff w)

/-- STT (R259). -/
def execStt (w : FWord XMem) (s : State) : Host.Outcome State Fault Refusal :=
  issue (.stt w) s fun s it =>
    tensorWord s it w (encode (.stt w)) true fun d m accs =>
      let locked := accs.filter fun (x : Acc × List Nat) => elemLocked s d x.2
      let free := accs.filter fun (x : Acc × List Nat) => !elemLocked s d x.2
      let data (a : Acc) := dataVal it w.d (Width.regs w.x.w) a.lane
      if !(elemPorts s it d accs).isEmpty then .park s (.ports (elemPorts s it d accs))
      else match (if d.isBlock then free.findSome? fun (x : Acc × List Nat) => elemPoison s it d x.2 else none) with
        | some pa => .poison pa
        | none =>
          withLocked it m s (locked.map Prod.fst) fun s =>
            free.foldl (fun s (x : Acc × List Nat) =>
              let rels := s.accRels it w.x x.1.lanes
              let bad := it.dataBad w.d (Width.regs w.x.w) x.1.lane
              if d.isBlock then s.putElem it x.1 (Order.strongly w.x.ord) d x.2 (Fmt.f32.read (data x.1)) bad rels
              else s.vWrite it x.1.lanes (d.elemVa x.2) (leBytes d.elemBytes (tensorStore d (data x.1))) false bad rels) s

/-! ### PREF and FENCE -/

/-- PREF (R260): it reads no value, writes nothing and traps on no address; what it does is timing.
Log 4: DESIGN CHOICE, safe. -/
def execPref (w : FWord XMem) (s : State) : Host.Outcome State Fault Refusal := issue (.pref w) s fun s _ => .ok s none

/-- Whether the conditions that hold a fence of some lanes are met (R261). A release fence waits until their writes are
performed, where its mask names observers on other cores, until those to Host locations are complete with h, and until
those to a peer are with f. Every fence waits for the answers of peer reads (R120). Log 2: DEDUCED, unsafe. -/
def fenceMet (s : State) (k : Nat) (mask : Mask) (ord : Order) (obs : Obs) : Bool :=
  let of (l : Mask) : Bool := (l &&& mask) != 0
  let mine (id : Nat) : Bool := match s.group? k with | some g => g.sees mask id | none => false
  let open_ (f : FabReq → Bool) : Bool := s.fabReqs.any fun p => p.2.group == k && of p.2.lanes && !p.2.timedOut && f p.2
  (!Order.releases ord
    || ((obs == Obs.none || s.stores.all fun st => st.group != k || !mine st.id)
      && (!obs.h || s.hostWrites.all fun w => !mine w.id)
      && (!obs.f || !open_ fun r => r.writes)))
  && !open_ fun r => r.returns

/-- What a fence does to its lanes' later accesses (R121, R123, R130): a release fence stands before their later writes;
after an acquire fence all sees what an access that its lanes had in common saw, and their strong reads are acquires; an
`.ar` fence sees what earlier ones saw whose classes cross its own, and takes its place after them with what is visible to
it. Log 2: DEDUCED, unsafe. -/
def State.fenced (s : State) (k : Nat) (lanes : Mask) (ord : Order) (obs : Obs) : State :=
  let s := if Order.releases ord then s.modGroup k fun g => { g with relFences := g.relFences ++ [(lanes, obs)] } else s
  if ord == .rel then s
  else
    let s := s.modGroup k fun g => g.promote lanes (ord == .ar)
    let met := match s.group? k with
      | some g => (g.strongReads.filter fun r => (r.1 &&& lanes) != 0).map Prod.snd
      | none => []
    let s := s.acquire k lanes obs met
    if ord != .ar then s
    else
      let s := s.acquire k lanes obs s.fences
      match s.group? k with
      | none => s
      | some g =>
        let ids := s.visible g lanes obs
        let s := s.drainIds ids
        { s with fences := Rels.add s.fences { maker := .lane g.launch g.core, mask := obs, writes := ids } }

/-- FENCE (R261): a scalar word, in the program order of every lane of the split's Mask. -/
def execFence (w : FWord XMem) (s : State) : Host.Outcome State Fault Refusal :=
  issue (.fence w) s fun s it =>
    if it.exec w.p = 0 then .ok s none
    else if fenceMet s it.key it.sp.mask w.x.ord w.x.obs then
      .ok (s.fenced it.key it.sp.mask w.x.ord w.x.obs) none
    else .park s (.fence w.x.ord w.x.obs)

end Sys2Proof.Machine
end

