-- ==== Sys2Proof/Machine/Atomics.lean ====
section
/-!
DEFINITION. Atomics (R262 to R265).
-/

namespace Sys2Proof.Machine

open Sys2Proof

/-- Operand and expected value in lane l, of n bytes (R262): `.cas` has the expected value in the registers above. -/
def atomArgs (w : FWord XMem) (it : Iss) (n l : Nat) : Nat × Nat :=
  let regs := n / 4
  let x := dataVal it w.d (2 * regs) l
  if atomCode w = 9 then (x % 2 ^ (8 * n), x / 2 ^ (8 * n)) else (dataVal it w.d regs l, 0)

/-- What an indivisible read of a place brings to its lanes (R119, R121): the writes it reads, and their releases; one
whose value is not returned completes no synchronisation (R265). -/
def State.atomSees (s : State) (it : Iss) (x : XMem) (ret : Bool) (lanes : Mask) (got : Got) : State :=
  if ret then s.didRead it.key lanes (acqObs x.ord x.obs) true got.srcs got.rels
  else s.didRead it.key lanes none false got.srcs []

/-- An atomic of one access: its operand and expected value, and what it does to an old value. -/
def atomNew (w : FWord XMem) (it : Iss) (n l o : Nat) : Nat :=
  let a := atomArgs w it n l
  atomOp (atomCode w) (8 * n) o a.1 a.2

/-- An atomic of n bytes at a virtual address that is performed at once: in a region on its version (R296), and where
another lane of the word meets a locked line (R137). -/
def State.atomNow (s : State) (it : Iss) (w : FWord XMem) (ret : Bool) (n : Nat) (a : Acc) : State × Nat :=
  let pa := it.l.phys a.addr
  let s := s.comeAfter it.key a.lanes .mem pa n
  let got := s.lastRead it.key .mem pa n
  let s := s.atomSees it w.x ret a.lanes got
  (s.putNow it.key a.lanes pa (leBytes n (atomNew w it n a.lane got.nat)) true false (s.accRels it w.x a.lanes), got.nat)

/-- One after another, in ascending order of lanes; the old values by lane (R117, R264). -/
def State.atomsNow (s : State) (it : Iss) (w : FWord XMem) (ret : Bool) (n : Nat) (accs : List Acc) :
    State × List (Nat × Nat) :=
  accs.foldl (fun (r : State × List (Nat × Nat)) a =>
    let t := r.1.atomNow it w ret n a
    (t.1, r.2 ++ [(a.lane, t.2)])) (s, [])

/-- The registers of an access's result: its lane's, or every active lane's for one access of the split. -/
def resultRegs (d : Dst) (regs : Nat) (m : Mask) (perLane : Bool) (a : Acc) : List RegId :=
  if perLane then dstRegs d regs a.lane
  else match d with
    | .v _ => (lanesOf m).flatMap fun l => dstRegs d regs l
    | d => dstRegs d regs 0

/-- An atomic is issued (R119, R264): it is performed later, after those of its lanes, or of lower lanes of its word, to
common bytes; its write is visible to its lanes. -/
def State.postAtom (s : State) (it : Iss) (w : FWord XMem) (n : Nat) (sp : Space) (at' : Nat) (a : Acc) (outs : List RegId)
    (req : Option Nat) : State :=
  let s := s.endLate it.key a.lanes sp at' n
  match s.group? it.key with
  | none => s
  | some g =>
    let v := atomArgs w it n a.lane
    let before := s.atoms.filter fun x => x.group == it.key && x.space == sp && overlap x.addr x.bytes at' n
      && (g.sees a.lanes x.id || x.word == s.free)
    let x : Atom :=
      { id := s.nextWrite, group := it.key, split := it.j, lanes := a.lanes, space := sp, addr := at', bytes := n,
        op := atomCode w, arg := v.1, expected := v.2, outs := outs, req := req, acq := acqObs w.x.ord w.x.obs,
        rels := s.accRels it w.x a.lanes, pc := it.sp.pc, word := s.free, after := before.map (·.id) }
    { s with atoms := s.atoms ++ [x], nextWrite := s.nextWrite + 1 : State }.wrote it.key a.lanes s.nextWrite

/-- The atomics of a word are issued, in ascending order of lanes; those with a result wait for all of it (R199). -/
def State.postAtoms (s : State) (it : Iss) (w : FWord XMem) (ret : Bool) (n : Nat) (m : Mask) (perLane : Bool)
    (xs : List (Acc × Space × Nat)) : State :=
  if ret then
    let first := s.nextId
    let s := { s with nextId := first + 1 + xs.length }
    let s := (xs.mapIdx fun i x => (i, x)).foldl (fun s (x : Nat × Acc × Space × Nat) =>
      s.postAtom it w n x.2.2.1 x.2.2.2 x.2.1 (resultRegs w.d (n / 4) m perLane x.2.1) (some (first + 1 + x.1))) s
    let p : Pend :=
      { id := first, writes := [], flags := {}, fto := false, left := w.la,
        waits := (List.range xs.length).map fun i => first + 1 + i }
    s.modSplit it.key it.j fun sp => { sp with pend := sp.pend ++ [p] }
  else xs.foldl (fun s (x : Acc × Space × Nat) => s.postAtom it w n x.2.1 x.2.2 x.1 [] none) s

/-- ATOM, ATOMN and ATOMU (R262 to R264): `ret` says whether old values are returned, `perLane` whether each active
lane has its own atomic. Outside a region each is issued and performed later; where a lane meets a locked line, the others
complete before the trap is raised (R137). -/
def atomWord (i : Instr) (w : FWord XMem) (perLane ret : Bool) (s : State) : Host.Outcome State Fault Refusal :=
  issue i s fun s it =>
    let m := it.exec w.p
    let n := widthBytes w.x.w
    let accs := accesses it m perLane fun l => srcVal s it .n64 w.a l
    match probEff it m (encode i) (accs.map fun a => (a, globalProb s it true false true a.addr n)) with
    | some e => e
    | none =>
      let ports := (accs.flatMap fun a => portsOf s it.l a.addr n).eraseDups
      let locked := accs.filter fun a => s.lockedAcc it a.addr n
      let free := accs.filter fun a => !s.lockedAcc it a.addr n
      if !ports.isEmpty then .park s (.ports ports)
      else if locked.isEmpty && !s.inRegion it.key then
        .ok (s.postAtoms it w ret n m perLane (accs.map fun a => (a, .mem, it.l.phys a.addr))) none
      else match free.findSome? fun a => s.accPoison it a.addr n with
        | some pa => .poison pa
        | none =>
          let ws (olds : List (Nat × Nat)) := if ret then loadWrites w.d (n / 4) m perLane olds else []
          if locked.isEmpty then
            let r := s.atomsNow it w ret n free
            .ok (if ret then r.1.writeLater it w.la (ws r.2) {} else r.1) none
          else withLocked it m s locked fun s => let r := s.atomsNow it w ret n free; r.1.writeNow it (ws r.2) {}

def execAtom (w : FWord XMem) (s : State) : Host.Outcome State Fault Refusal :=
  atomWord (.atom w) w (memVec w.d w.a (.imm 0)) true s

def execAtomn (w : FWord XMem) (s : State) : Host.Outcome State Fault Refusal :=
  atomWord (.atomn w) w (memVec w.d w.a (.imm 0)) false s

def execAtomu (w : FWord XMem) (s : State) : Host.Outcome State Fault Refusal := atomWord (.atomu w) w false true s

/-- One atomic on the handler scratchpad, which has one reader and writer, performed at once (R399). -/
def State.atomHnd (s : State) (it : Iss) (w : FWord XMem) (n : Nat) (r : List (Nat × Nat)) (a : Acc) (off : Nat) :
    State × List (Nat × Nat) :=
  let c := (s.ctx? it.g.launch it.g.core).getD it.c
  let o := leNat ((List.range n).map fun i => Map.get c.hscr 0 (off + i))
  (s.scrWrite it a.lanes (.hnd off) (leBytes n (atomNew w it n a.lane o)) true true false [], r ++ [(a.lane, o)])

/-- Places of a word in slices, and in the handler scratchpad. -/
def inSlices (it : Iss) (ps : List (Acc × Scr)) : List (Acc × Space × Nat) :=
  ps.filterMap fun x => match x.2 with
    | .slice core off => some (x.1, .scr it.g.launch core, off)
    | .hnd _ => none

def inHandler (ps : List (Acc × Scr)) : List (Acc × Nat) :=
  ps.filterMap fun x => match x.2 with
    | .hnd off => some (x.1, off)
    | .slice .. => none

/-- ATOMS and ATOMSN (R262 to R264). A word of which a lane reaches the handler scratchpad is performed at once there. -/
def atomScr (i : Instr) (w : FWord XMem) (ret : Bool) (s : State) : Host.Outcome State Fault Refusal :=
  issue i s fun s it =>
    let m := it.exec w.p
    let n := widthBytes w.x.w
    let perLane := memVec w.d w.a (.imm 0)
    scrPlaces s it m (accesses it m perLane fun l => src32 s it w.a l) n true fun ps =>
      let r := (inHandler ps).foldl (fun (r : State × List (Nat × Nat)) x => r.1.atomHnd it w n r.2 x.1 x.2) (s, [])
      if (inSlices it ps).isEmpty then
        .ok (if ret then r.1.writeLater it w.la (loadWrites w.d (n / 4) m perLane r.2) {} else r.1) none
      else
        let s := r.1.postAtoms it w ret n m perLane (inSlices it ps)
        .ok (s.modSplit it.key it.j fun sp => { sp with pend := sp.pend.map fun p =>
          if ret ∧ p.id = r.1.nextId then { p with writes := loadWrites w.d (n / 4) m perLane r.2 } else p }) none

def execAtoms (w : FWord XMem) (s : State) : Host.Outcome State Fault Refusal := atomScr (.atoms w) w true s

def execAtomsn (w : FWord XMem) (s : State) : Host.Outcome State Fault Refusal := atomScr (.atomsn w) w false s

end Sys2Proof.Machine
end

