-- ==== Sys2Proof/Machine/Barriers.lean ====
section
/-!
DEFINITION. Named barriers (R266 to R270, R440) and transaction barriers (R271 to R280).
-/

namespace Sys2Proof.Machine

open Sys2Proof

/-! ### Named barriers -/

/-- Barriers the launch uses on each core (R71, R159). -/
def Launch.nbar (l : Launch) : Nat := if l.r.nbar = 0 then 1024 else l.r.nbar

/-- The cores of this device on which a launch is placed. Log 35: DESIGN CHOICE, unsafe. -/
def State.placed (s : State) (l : Launch) : List Nat :=
  (l.cores.filter fun e => e.dev == s.regs.devno).map (·.core)

/-- The lowest of some core numbers. -/
def lowestCore (cs : List Nat) : Option Nat := cs.foldl (fun m c => some (match m with | none => c | some x => min x c)) none

/-- The core whose barrier a scope names (R267). -/
def scopeCore (s : State) (it : Iss) : Scope → Option Nat
  | .core => some it.g.core
  | .cluster => it.rankCore 0
  | .die => lowestCore ((s.placed it.l).filter fun c => dieOf c == dieOf it.g.core)
  | .pkg => lowestCore (s.placed it.l)

/-- Barrier id of a context. -/
def Ctx.bar (c : Ctx) (id : Nat) : Barrier := Map.get c.bars {} id
def Ctx.setBar (c : Ctx) (id : Nat) (b : Barrier) : Ctx := { c with bars := Map.put c.bars {} id b }

/-- One arrival with the releases it makes (R268, R269): the barrier after it, and whether the phase completes. -/
def Barrier.arrive (b : Barrier) (n : Nat) (rels : List Rel) : Barrier × Bool :=
  let exp := if b.expected = 0 then n else b.expected
  if b.arrived + 1 = exp then
    ({ phase := !b.phase, arrived := 0, expected := 0, rels := b.rels.count rels true }, true)
  else ({ b with arrived := b.arrived + 1, expected := exp, rels := b.rels.count rels false }, false)

/-- Whether a split waits for a phase of a barrier to pass. -/
def Split.waitsBar (sp : Split) (core id : Nat) (old : Bool) : Bool :=
  match sp.wait with
  | .bar c i _ p false _ => decide (c = core ∧ i = id ∧ p = old)
  | _ => false

/-- The delay of a release (R270), in millionths of a cycle at 850 MHz. -/
def releaseDelay : Scope → Nat
  | .core => 6000000
  | .cluster => 40000000
  | .die => 80000000
  | .pkg => 240000000

/-- A phase of a barrier has completed: its parked splits are released, and only the delivery is due (R268, R270); those
whose wait ends as an acquire take the releases that came before the completion (R269). -/
def State.barRelease (s : State) (launch core id delay : Nat) (old : Bool) (rels : List Rel) : State :=
  let mine := s.groups.filter fun p => p.2.launch == launch
  let waiting := mine.flatMap fun (p : Nat × Group) => (p.2.splits.filter fun sp => sp.waitsBar core id old).map fun sp => (p.1, sp)
  let go (sp : Split) : Split :=
    if sp.waitsBar core id old then
      match sp.wait with
      | .bar c i wide p _ acq => { sp with wait := .bar c i wide p true acq, stall := delay }
      | _ => sp
    else sp
  let s := { s with groups := s.groups.map fun p =>
      if p.2.launch = launch then (p.1, { p.2 with splits := p.2.splits.map go }) else p }
  waiting.foldl (fun s (x : Nat × Split) => match x.2.wait with
    | .bar _ _ _ _ _ (some n) => s.acquired x.1 x.2.mask n rels
    | _ => s) s

/-- E of a word that can report an exceptional completion (R65). -/
def flagE (b : Bool) : FlagUpd := { e := some b }

/-- What BAR, BARA and BARW check and find: the barrier's core, its id and B (R266, R267), and the releases that the word
makes (R269). A word with an empty
execution mask does nothing (R268); a degraded barrier completes at once with E = 1, and BARA reads its phase, if there
is one left (R440). Log 22: DEDUCED, unsafe. -/
def barWord (i : Instr) (w : FWord XBar) (counts : Bool) (k : State → Iss → Nat → Nat → Nat → Barrier → List Rel → Eff)
    (s : State) : Host.Outcome State Fault Refusal :=
  issue i s fun s it =>
    let m := it.exec w.p
    let id := it.scalar w.a
    let n := it.scalar w.b
    if m = 0 then .ok s none
    else if it.l.nbar ≤ id || (counts && (n = 0 || 4095 < n)) then .trap (it.trapOpen s 0x31 m)
    else
      let core := (scopeCore s it w.x.scope).getD it.g.core
      let b := (s.ctx? it.g.launch core).map fun c => c.bar id
      if it.l.degraded && w.x.scope != .core then
        let phase := match b with | some b => b2n b.phase | none => (Config.freeWord s.free).toNat % 2
        .ok (s.writeNow it (scalarWrites w.d phase) (flagE true)) none
      else match b with
        | none => .trap (it.trapOpen s 0x31 m)
        | some b =>
          let r := s.released it.key it.sp.mask (relObs w.x.ord w.x.obs) (Order.releases w.x.ord)
          k r.1 it core id n b r.2

/-- A barrier of a core takes a new value (R71), in the saved image too where its context is away. -/
def State.setBar (s : State) (launch core id : Nat) (b : Barrier) : State :=
  (s.modCtx launch core fun c => c.setBar id b).imageBar launch core id b

/-- Arrive, and release the parked splits where the phase completes. -/
def State.barArrive (s : State) (launch core id n : Nat) (scope : Scope) (b : Barrier) (rels : List Rel) : State :=
  let r := b.arrive n rels
  let s := s.setBar launch core id r.1
  if r.2 then s.barRelease launch core id (releaseDelay scope) b.phase r.1.rels.done else s

/-- A wait that has ended as an acquire, where the word has one (R269, R279). -/
def State.waited (s : State) (it : Iss) (acq : Option Obs) (rels : List Rel) : State :=
  match acq with
  | some n => s.acquired it.key it.sp.mask n rels
  | none => s

/-- BAR (R268): it arrives and parks. Log 26: DEDUCED, unsafe. -/
def execBar (w : FWord XBar) (s : State) : Host.Outcome State Fault Refusal :=
  barWord (.bar w) w true (fun s it core id n b rels =>
    let acq := acqObs w.x.ord w.x.obs
    let r := b.arrive n rels
    let s := s.barArrive it.g.launch core id n w.x.scope b rels
    .park (if r.2 then (s.waited it acq r.1.rels.done).modSplit it.key it.j fun sp => { sp with stall := releaseDelay w.x.scope }
      else s) (.bar core id (w.x.scope != .core) b.phase r.2 acq)) s

/-- BARA (R268): the phase before its arrival goes to D. Log 26: DEDUCED, unsafe. -/
def execBara (w : FWord XBar) (s : State) : Host.Outcome State Fault Refusal :=
  barWord (.bara w) w true (fun s it core id n b rels =>
    .ok ((s.barArrive it.g.launch core id n w.x.scope b rels).writeNow it (scalarWrites w.d (b2n b.phase)) (flagE false)) none) s

/-- BARW (R268): it parks until PHASE is not bit 0 of B. Log 26: DEDUCED, unsafe. -/
def execBarw (w : FWord XBar) (s : State) : Host.Outcome State Fault Refusal :=
  barWord (.barw w) w false (fun s it core id n b _ =>
    let acq := acqObs w.x.ord w.x.obs
    if b.phase != bit n 0 then .ok ((s.waited it acq b.rels.done).writeNow it [] (flagE false)) none
    else .park s (.bar core id (w.x.scope != .core) b.phase false acq)) s

/-! ### Transaction barriers -/

/-- The fields of a transaction barrier (R271). -/
structure Tb where
  top : Nat
  error : Bool
  fail : Bool
  sect : Int
  reload : Nat
  arrv : Nat
  phase : Nat
  deriving DecidableEq, Repr

def Tb.of (x : Nat) : Tb :=
  { top := bits x 127 78, error := bit x 77, fail := bit x 76, sect := sext 32 (bits x 75 44), reload := bits x 43 24,
    arrv := bits x 23 4, phase := bits x 3 0 }

def Tb.toNat (b : Tb) : Nat :=
  b.top * 2 ^ 78 + b2n b.error * 2 ^ 77 + b2n b.fail * 2 ^ 76 + wrap 32 b.sect * 2 ^ 44 + b.reload * 2 ^ 24
    + b.arrv * 2 ^ 4 + b.phase

/-- A barrier that is not acted on (R273). -/
def Tb.malformed (b : Tb) : Bool := b.top != 0 || b.reload == 0

/-- The phase completes where both counts are zero (R272). -/
def Tb.settle (b : Tb) : Tb :=
  if b.arrv = 0 && b.sect == 0 then { b with phase := (b.phase + 1) % 16, arrv := b.reload, sect := 0 } else b

/-- An update of a barrier; a malformed one only has ERROR set (R273). Log 26: DEDUCED, unsafe. -/
def Tb.update (f : Tb → Tb) (b : Tb) : Tb := if b.malformed then { b with error := true } else f b

/-- The updates of R272. -/
def Tb.arrive (n : Nat) : Tb → Tb :=
  Tb.update fun b =>
    (if b.arrv < n then { b with error := true, arrv := 0 } else { b with arrv := b.arrv - n }).settle
def Tb.expect (n : Int) : Tb → Tb := Tb.update fun b => ({ b with sect := sext 32 (wrap 32 (b.sect + n)) } : Tb).settle
def Tb.land (n : Nat) : Tb → Tb := Tb.expect (-(n : Int))
def Tb.setError : Tb → Tb := Tb.update fun b => { b with error := true }
def Tb.setFail : Tb → Tb := Tb.update fun b => { b with fail := true }

/-- PHASE, FAIL and ERROR as TBTEST reads them (R278). -/
def Tb.test (b : Tb) : Nat := b.phase + 16 * b2n b.fail + 32 * b2n b.error

/-- The releases that a transaction barrier has counted, by its place (R279). -/
def State.tbCounted (s : State) (sp : Space) (off : Nat) : Counted :=
  ((s.tbRels.find? fun (x : Space × Nat × Counted) => x.1 == sp && x.2.1 == off).map fun x => x.2.2).getD {}

def State.setCounted (s : State) (sp : Space) (off : Nat) (c : Counted) : State :=
  let rest := s.tbRels.filter fun (x : Space × Nat × Counted) => !(x.1 == sp && x.2.1 == off)
  { s with tbRels := if c == {} then rest else rest ++ [(sp, off, c)] }

/-- An update of a barrier counts the releases it makes, and completes a phase where PHASE has moved (R272, R279). -/
def State.tbCount (s : State) (sp : Space) (off : Nat) (old new : Tb) (rels : List Rel) : State :=
  if rels.isEmpty && old.phase == new.phase then s
  else s.setCounted sp off ((s.tbCounted sp off).count rels (old.phase != new.phase))

/-- A place of scratchpad as a space and an offset; handler scratchpads stand beside the slices. -/
def Iss.place (it : Iss) : Scr → Space × Nat
  | .slice core off => (.scr it.g.launch core, off)
  | .hnd off => (.scr it.g.launch (160 + it.g.core), off)

/-- The split's lanes have read the 16 bytes of a barrier as they last were (R118, R119, R122). -/
def State.tbRead (s : State) (it : Iss) (p : Scr) : State :=
  s.didRead it.key it.sp.mask none false (scrLast s it p 16).srcs []

/-- A transaction-barrier word (R271, R273): its address, the range of B, absent lines and poison; then `k` gets the
place, the barrier as it stands, and the releases that the word makes (R275). The atomics of the split's lanes there are
performed before (R120). -/
def tbWord (i : Instr) (w : FWord XTb) (lo hi : Nat) (reads : Bool) (k : State → Iss → Scr → Nat → Tb → List Rel → Eff)
    (s : State) : Host.Outcome State Fault Refusal :=
  issue i s fun s it =>
    let m := it.exec w.p
    let a := it.scalar w.a
    let n := it.scalar w.b
    if m = 0 then .ok s none
    else match scrAt s it a 16 with
      | none => .trap (it.trapWord 0x31 m a)
      | some p =>
        if a % 16 != 0 || n < lo || hi < n then .trap (it.trapWord 0x31 m a)
        else
          let absent := absentLines s it.g.launch 16 p
          if !absent.isEmpty then .park s (.lines absent)
          else
            let s := s.comeAfter it.key it.sp.mask (it.place p).1 (it.place p).2 16
            if reads && scrBad s it 16 p then .poison a
            else
              let r := s.released it.key it.sp.mask (relObs w.x.ord w.x.obs) (Order.releases w.x.ord)
              let s := if reads then r.1.tbRead it p else r.1
              k s it p n (Tb.of (scrRead s it p 16)) r.2

/-- The releases that completed phases of a place have counted. -/
def State.tbDone (s : State) (it : Iss) (p : Scr) : List Rel :=
  (s.tbCounted (it.place p).1 (it.place p).2).done

/-- An indivisible write of a barrier by the split's lanes (R118); an update of it is a read-modify-write (R272). -/
def State.tbWrite (s : State) (it : Iss) (p : Scr) (old new : Tb) (update : Bool) (rels : List Rel) : State :=
  (s.scrWrite it it.sp.mask p (leBytes 16 new.toNat) true update false rels).tbCount (it.place p).1 (it.place p).2 old
    new rels

/-- TBINIT (R274): a plain write of the 16 bytes; what the barrier had counted before is no completion of it any more. -/
def execTbinit (w : FWord XTb) (s : State) : Host.Outcome State Fault Refusal :=
  tbWord (.tbinit w) w 1 (2 ^ 20 - 1) false (fun s it p n b _ =>
    let new : Tb := { top := 0, error := false, fail := false, sect := 0, reload := n, arrv := n, phase := 0 }
    .ok ((s.tbWrite it p b new false []).setCounted (it.place p).1 (it.place p).2 {}) none) s

/-- TBARR (R275). -/
def execTbarr (w : FWord XTb) (s : State) : Host.Outcome State Fault Refusal :=
  tbWord (.tbarr w) w 1 (2 ^ 20 - 1) true (fun s it p n b rels =>
    .ok ((s.tbWrite it p b (Tb.arrive n b) true rels).writeNow it (scalarWrites w.d b.phase) {}) none) s

/-- TBEXP (R276). -/
def execTbexp (w : FWord XTb) (s : State) : Host.Outcome State Fault Refusal :=
  tbWord (.tbexp w) w 1 (2 ^ 31 - 1) true (fun s it p n b _ => .ok (s.tbWrite it p b (Tb.expect n b) true []) none) s

/-- TBWAIT (R277): it parks while PHASE is p; a wait that ends, or is over at once, can be an acquire (R279).
Log 26: DEDUCED, unsafe. -/
def execTbwait (w : FWord XTb) (s : State) : Host.Outcome State Fault Refusal :=
  tbWord (.tbwait w) w 0 15 true (fun s it p n b _ =>
    let acq := acqObs w.x.ord w.x.obs
    let s := if b.malformed then s.tbWrite it p b (Tb.setError b) true [] else s
    if b.phase = n then .park s (.tb (it.scalar w.a) n acq) else .ok (s.waited it acq (s.tbDone it p)) none) s

/-- TBTEST (R278): with G = 1 it can be an acquire (R279). Log 26: DEDUCED, unsafe. -/
def execTbtest (w : FWord XTb) (s : State) : Host.Outcome State Fault Refusal :=
  tbWord (.tbtest w) w 0 15 true (fun s it p n b _ =>
    let b' := if b.malformed then Tb.setError b else b
    let s := if b.malformed then s.tbWrite it p b b' true [] else s
    let s := if b.phase = n then s else s.waited it (acqObs w.x.ord w.x.obs) (s.tbDone it p)
    .ok (s.writeNow it (scalarWrites w.d b'.test) (FlagUpd.test (b.phase != n))) none) s

end Sys2Proof.Machine
end

