-- ==== Sys2Proof/Machine/Save.lean ====
section
/-!
DEFINITION. Spills and loads of banks (R53, R54, R179, R182): the bytes that a spill writes to memory, and what a load takes
back. The order of items inside a group's image and the unused part of the trap queue's block have no stated layout: free
values stand there, and a load keeps what those items hold (log 9).
-/

namespace Sys2Proof.Machine

open Sys2Proof

/-- Pieces of 128 bytes whose contents have no stated layout: n bytes at offset o of an area (log 9: free values).
Log 9: DEDUCED, unsafe. -/
def State.openPieces (s : State) (base o n : Nat) : List Piece :=
  (List.range (n / 128)).map fun i =>
    { va := base + o + 128 * i, bytes := (List.range 128).map fun k => Config.freeByte s.free (o + 128 * i + k) }

/-- Granule g of a slice in its save area, with its poison (R180, R182). -/
def State.slicePiece (r : Record) (c : Ctx) (g : Nat) : Piece :=
  { va := r.sliceVa c + 32 * g, bytes := (List.range 32).map fun i => Map.get c.scr 0 (32 * g + i), bad := c.bad.contains g }

/-- Bytes of the block of named barriers, 4 each, and of the stage counter's block (R182). -/
def Ctx.barBytes (c : Ctx) (i : Nat) : List Byte :=
  (List.range 32).flatMap fun k => leBytes 4 (Map.get c.bars {} (32 * i + k)).word
def Ctx.stageBytes (c : Ctx) (i : Nat) : List Byte := leBytes 128 (if i = 0 then c.stage else 0)

/-- Entry i of the trap queue's block, at offset o of the save area: a record, or bytes that nothing states. -/
def State.queueBytes (s : State) (c : Ctx) (o i : Nat) : List Byte :=
  match c.trapq[i]? with
  | some t => t.bytes
  | none => (List.range 64).map fun k => Config.freeByte s.free (o + k)

/-- The core state (R182): the block of named barriers, the stage counter, and the queued trap records. -/
def State.statePieces (s : State) (r : Record) (c : Ctx) : List Piece :=
  let o := r.sliceAt c.index + c.sliceBytes
  let base := r.saveAt c.index
  (List.range 32).map (fun i => { va := base + o + 128 * i, bytes := c.barBytes i })
  ++ (List.range 32).map (fun i => { va := base + o + 4096 + 128 * i, bytes := c.stageBytes i })
  ++ (List.range 256).map fun i =>
    { va := base + o + 8192 + 64 * i, bytes := s.queueBytes c (o + 8192 + 64 * i) i }

/-- The handler area (R182): the handler group's image with its two tiles, then its scratchpad. -/
def State.handlerPieces (s : State) (r : Record) (c : Ctx) : List Piece :=
  let o := r.sliceAt c.index + c.sliceBytes + coreStateBytes
  if c.handler = 0 then []
  else s.openPieces (r.saveAt c.index) o (handlerBytes - 4096)
    ++ (List.range 32).map fun i =>
      { va := r.saveAt c.index + o + (handlerBytes - 4096) + 128 * i
        bytes := (List.range 128).map fun k => Map.get c.hscr 0 (128 * i + k) }

/-- Groups of a launch on a core, without the handler group. -/
def State.coreGroups (s : State) (launch core : Nat) : List Group :=
  (s.groups.filter fun (x : Nat × Group) => x.2.launch == launch && x.2.core == core && !x.2.handler).map Prod.snd

/-- Bytes of a set's image (R54, R182): the resident groups and the tiles allotted to their teams. -/
def State.setBytes (s : State) (l : Launch) (c : Ctx) (set : Nat) : Nat :=
  let gs := (s.coreGroups c.launch c.core).filter fun g => !g.gone && g.set == set
  let tiles := (l.allots.filter fun (a : Nat × Nat × Nat) =>
    a.2.1 == c.core && !l.ended.contains a.1 && gs.any fun g => g.team == a.1).length * l.r.tileCount
  imageBytes gs.length (if l.r.kind = 1 then l.r.e else 0) tiles

/-- The image of a set, at its slot of the save area (R182). -/
def State.setPieces (s : State) (l : Launch) (c : Ctx) (set : Nat) : List Piece :=
  s.openPieces (l.r.saveAt c.index) (set * l.r.imageSlot c.index) (s.setBytes l c set)

/-- The line of a group's private memory that holds word w of every lane, at its place in PBASE's pages (R113): its four
granules, with their poison (R420). -/
def Launch.privLine (l : Launch) (g : Group) (w : Nat) : List Piece :=
  (List.range 4).map fun q =>
    { va := l.r.pbase + (64 * g.team + g.gid) * (32 * l.r.psize) + 128 * w + 32 * q
      bytes := (List.range 32).map fun k => Map.get g.priv 0 (privKey (8 * q + k / 4) (4 * w + k % 4))
      bad := g.bad.contains (privBadKey (8 * q) (4 * w)) }

/-- A context save writes the private lines of its groups back (R113): those that hold a byte other than 0.
Log 17: DEDUCED, unsafe. -/
def State.privPieces (s : State) (l : Launch) (c : Ctx) : List Piece :=
  (s.coreGroups c.launch c.core).flatMap fun g =>
    (g.priv.foldl (fun ws (x : Nat × Byte) => Nats.ins ws (x.1 % 2 ^ 32 / 4)) []).flatMap (l.privLine g)

/-- All that a spill of a bank writes (R113, R182). -/
def State.bankPieces (s : State) (l : Launch) (c : Ctx) : List Piece :=
  s.privPieces l c ++ s.setPieces l c c.set ++ (List.range (c.sliceBytes / 32)).map (State.slicePiece l.r c) ++ s.statePieces l.r c
    ++ s.handlerPieces l.r c

/-- Write pieces through the kept translations of a launch's pins (R109). -/
def State.putPieces (s : State) (l : Launch) (ps : List Piece) : State :=
  ps.foldl (fun s p => s.writePhys (l.phys p.va) p.bytes false p.bad) s

/-- The spill of a bank to its save area (R179, R182), and of the running set of a core (R53).
Log 9: DEDUCED, unsafe. -/
def State.spill (s : State) (n core : Nat) : State :=
  match s.launch? n, s.ctx? n core with
  | some l, some c => { s.putPieces l (s.bankPieces l c) with free := s.free + 1 }
  | _, _ => s

/-- The spill of a set that has been swapped out (R53). Log 9: DEDUCED, unsafe. -/
def State.spillSet (s : State) (n core set : Nat) : State :=
  match s.launch? n, s.ctx? n core with
  | some l, some c => { s.putPieces l (s.setPieces l c set) with free := s.free + 1 }
  | _, _ => s

/-! ### Loads (R179, R182) -/

/-- What n bytes at a virtual address of a launch's save area hold, by offset; unlisted bytes of memory and of a map read
alike. -/
def State.savedBytes (s : State) (l : Launch) (va n : Nat) : Map Byte :=
  (pagesIn va n).flatMap fun (p : Nat × Nat) =>
    let pa := l.phys p.1
    (s.mem.filter fun (c : Host.Cell) => decide (pa ≤ c.1) && decide (c.1 < pa + p.2)).map fun (c : Host.Cell) =>
      (p.1 - va + (c.1 - pa), c.2)

/-- A number of n bytes among saved bytes. -/
def savedNat (m : Map Byte) (off n : Nat) : Nat := leNat ((List.range n).map fun i => Map.get m 0 (off + i))

/-- A named barrier from its 32-bit value (R71), with the releases it has counted. -/
def Barrier.ofWord (x : Nat) (rels : Counted) : Barrier :=
  { phase := bit x 24, arrived := bits x 23 12, expected := bits x 11 0, rels := rels }

/-- A queued trap from its record (R182, R400); its group and split are those the scoreboard keeps. -/
def TrapRec.load (t : TrapRec) (m : Map Byte) (off : Nat) : TrapRec :=
  { t with cause := savedNat m off 4, lane := savedNat m (off + 4) 4, pc := BitVec.ofNat 64 (savedNat m (off + 8) 8),
           tmask := BitVec.ofNat 32 (savedNat m (off + 16) 4), aux := savedNat m (off + 24) 8, msg := savedNat m (off + 32) 8 }

/-- The load of a bank from its save area (R179, R182): the slice with its poison, the named barriers, the stage
counter, the queued traps and the handler scratchpad. Log 9: DEDUCED, unsafe. -/
def State.loadBank (s : State) (n core : Nat) : State :=
  match s.launch? n, s.ctx? n core with
  | some l, some c =>
    let slice := l.r.sliceVa c
    let st := s.savedBytes l (l.r.stateVa c) coreStateBytes
    let hs := s.savedBytes l (l.r.stateVa c + coreStateBytes + (handlerBytes - 4096)) 4096
    s.modCtx n core fun c =>
      { c with
        scr := s.savedBytes l slice c.sliceBytes
        bad := (List.range (c.sliceBytes / 32)).filter fun g => s.physBad (l.phys (slice + 32 * g)) 32
        bars := (List.range 1024).foldl (fun m i =>
          Map.put m {} i (Barrier.ofWord (savedNat st (4 * i) 4) (Map.get c.bars {} i).rels)) []
        stage := savedNat st 4096 4
        trapq := c.trapq.mapIdx fun i t => if i < 256 then t.load st (8192 + 64 * i) else t
        hscr := if c.handler = 0 then c.hscr else hs }
  | _, _ => s

end Sys2Proof.Machine
end

