-- ==== Sys2Proof/Machine/Thread.lean ====
section
/-!
DEFINITION. Engine threads (R127, R128, R311, R422): the bytes a thread writes and where they come from, landing them
line by line, presence counts (R112), arrivals and errors on the local barrier (R272), fork and completion.
-/

namespace Sys2Proof.Machine

open Sys2Proof

/-! ### Bytes of an engine access -/

/-- A byte that an engine thread reads, with its poison; nothing where its line is refused (R417, R422). -/
abbrev EByte := Option (Byte × Bool)

/-- Whether an engine access to a virtual address is refused: outside the pins, no Device or Host location, a write not
permitted, a slot-state array, a locked parcel line, a CXL address with no claim or behind a failed port (R132, R137,
R417, R443). Log 15: DEDUCED, unsafe. -/
def engRefused (s : State) (l : Launch) (write : Bool) (va : Nat) : Bool :=
  let pa := l.phys va
  decide (2 ^ 56 ≤ va) || !l.pinned va || !(kindOf pa).plain || s.inSlotStates va 1 || s.lockedAt va
  || (kindOf pa == .cxl && ((s.cxlPort pa).isNone || s.behindDown pa)) || (write && !l.writable va)

/-- The agent that a command's thread is (R116). -/
def EngCmd.agent : EngCmd → Agent
  | .copy .. | .tile .. | .commit .. | .gpool .. | .scata .. => .copier
  | .wmv .. | .wload .. | .mmas .. => .matrix
  | .fput .. | .fget .. | .post .. => .fabric
  | .heldStores .. | .heldAlloc .. | .heldFree .. => .part

/-- The number of a 128-byte line among all lines of all spaces: of memory, of a slice of the thread's launch, of a weight
die. -/
def Space.lineNo : Space → Nat → Nat
  | .mem, ln => 3 * ln
  | .scr _ core, ln => 3 * (4096 * core + ln) + 1
  | .wd die, ln => 3 * (2 ^ 23 * die + ln) + 2

/-- Whether a thread's read cannot go back behind a write: it was visible at the fork, or the part made it, or an engine
wrote it to a scratchpad line (R112, R128). -/
def Thread.holdsTo (th : Thread) (w : Wr) : Bool :=
  th.vis.contains w.id || w.maker == .part
  || match w.space with
    | .scr _ _ => w.maker == .copier || w.maker == .matrix || w.maker == .fabric
    | _ => false

/-- The writes to a line that a thread's one read of it goes behind (R128): as it was when the thread read it, else as
`older` says, but no write that the thread must see. Log 2: DESIGN CHOICE, unsafe. -/
def State.lineGone (s : State) (th : Thread) (sp : Space) (ln : Nat) : List Nat :=
  let ws := s.writesTo sp (128 * ln) 128
  match Map.find? th.readAt (sp.lineNo ln) with
  | some kept => (ws.filter fun w => !kept.contains w.id).map (·.id)
  | none => goesBack th.holdsTo (Map.get s.older [] (2048 + sp.lineNo ln)) (128 * ln) 128 [] ws

/-- A byte as a thread reads it: its line as it stands at the thread's one read of it (R118, R128). -/
def State.threadByte (s : State) (th : Thread) (sp : Space) (a : Nat) : Byte :=
  (s.readBehind sp a 1 (s.lineGone th sp (a / 128)) noOwn).bytes.getD 0 0

/-- Byte i of a place, as an engine thread reads it. -/
def engByte (s : State) (th : Thread) (l : Launch) (p : Loc) (i : Nat) : EByte :=
  match p with
  | .mem va =>
    if engRefused s l false (va + i) then none
    else some (s.threadByte th .mem (l.phys (va + i)), s.badByte (l.phys (va + i)))
  | .scr core off =>
    match s.ctx? th.launch core with
    | some c => some (s.threadByte th (.scr th.launch core) (off + i), c.bad.contains (granule (off + i)))
    | none => none

/-- A range that a thread reads: its space, first byte and length. -/
structure Span where
  space : Space
  addr : Nat
  len : Nat
  deriving DecidableEq, Repr

/-- A place some bytes further. -/
def Loc.plus : Loc → Nat → Loc
  | .mem va, i => .mem (va + i)
  | .scr core off, i => .scr core (off + i)

/-- The spans of n bytes from a place on: memory page by page, as it is translated. -/
def spansOf (th : Thread) (l : Launch) (p : Loc) (n : Nat) : List Span :=
  match p with
  | .scr core off => [⟨.scr th.launch core, off, n⟩]
  | .mem va => (pagesIn va n).map fun (x : Nat × Nat) => ⟨.mem, l.phys x.1, x.2⟩

/-- What a thread writes: into a core's slice, or global memory; the lines it covers in the order of their addresses;
the byte for an address, and nothing where it does not cover the address; and whether it meets an error of its own. -/
structure Image where
  space : Option Nat
  lines : List Nat
  byte : Nat → Option EByte
  /-- What the bytes of a line are formed from. -/
  reads : Nat → List Span
  err : Bool := false

def noImage : Image := { space := none, lines := [], byte := fun _ => none, reads := fun _ => [] }

/-- The part of a line that a range covers, as first byte and length. -/
def inLine (ln a n : Nat) : Nat × Nat :=
  let lo := max a (128 * ln)
  (lo, min (a + n) (128 * ln + 128) - lo)

/-! ### Copies and tensor tiles (R323, R324) -/

/-- Log 15: DEDUCED, unsafe. -/
def copyImage (s : State) (th : Thread) (l : Launch) (src dst : Loc) (bytes : Nat) : Image :=
  let base := match dst with | .mem va => va | .scr _ off => off
  { space := match dst with | .mem _ => none | .scr core _ => some core
    lines := linesOf base bytes
    byte := fun a => if base ≤ a ∧ a < base + bytes then some (engByte s th l src (a - base)) else none
    reads := fun ln =>
      let x := inLine ln base bytes
      spansOf th l (src.plus (x.1 - base)) x.2 }

/-- Packed size of a row of n elements in a format of `half` half bytes. -/
def packedRow (half n : Nat) : Nat := ceilDiv (n * half) 2

/-- Half bytes of an element of a destination format (R69). -/
def fmtHalf (fmt kind : Nat) : Nat :=
  Desc.halfBytes { base := 0, sbase := 0, str := [], ext := [], window := 0, rank := 1, kind := kind, fmt := fmt,
                   valid := true, reserved := false }

/-- n bytes at a virtual address as one number, and whether any is poisoned; nothing where any is refused. -/
def engNat (s : State) (th : Thread) (l : Launch) (va n : Nat) : Option (Nat × Bool) :=
  (List.range n).foldl (fun acc i =>
    match acc, engByte s th l (.mem va) i with
    | some (x, p), some (b, q) => some (x + b.toNat * 256 ^ i, p || q)
    | _, _ => none) (some (0, false))

/-- The exact value of a tensor's element, and its poison. -/
def engElem (d : Desc) (rd : Nat → Nat → Option (Nat × Bool)) (c : List Nat) : Option (FVal × Bool) :=
  match rd (d.elemVa c) d.elemBytes with
  | none => none
  | some (x, p) =>
    if d.isBlock then
      match rd (d.scaleVa c) 1 with
      | none => none
      | some (sc, q) => some ((blockKindAt d sc).decode sc (d.codeOf (c.getD 0 0) x), p || q)
    else match fmtFloat d.fmt with
      | some f => some (f.read x, p)
      | none => some (FVal.ofInt (x : Int), p)

/-- Block b of a row of values, as its code bytes and its scale byte. -/
def packBlock (fmt kind : Nat) (xs : List FVal) (b : Nat) : List Nat × Nat :=
  let k : BlockKind := if fmt = 11 then .qx4 kind else if kind = 0 then .mxfp4 else .mxint8
  let x := k.encode ((xs.drop (32 * b)).take 32)
  (k.codeBytes x.2, x.1)

/-- A row of values in an output format: its packed bytes, and its scale bytes. `copied` holds the blocks that are not
encoded but copied, by their place in the row. -/
def packRow (copied : Nat → Option (List Nat × Nat)) (fmt kind : Nat) (xs : List FVal) : List Nat × List Nat :=
  if fmt = 11 || fmt = 12 then
    let blocks := (List.range (xs.length / 32)).map fun b => (copied b).getD (packBlock fmt kind xs b)
    (blocks.flatMap Prod.fst, blocks.map Prod.snd)
  else
    let n := fmtHalf fmt kind / 2
    match fmtFloat fmt with
    | some f => (xs.flatMap fun x => (leBytes n (f.deliver .rne false x)).map (·.toNat), [])
    | none => ([], [])

/-- All of a list, or nothing. -/
def allSome {α : Type} : List (Option α) → Option (List α)
  | [] => some []
  | none :: _ => none
  | some a :: l => (allSome l).map (a :: ·)

/-- A whole row of a tensor as exact values. -/
def engRow (d : Desc) (rd : Nat → Nat → Option (Nat × Bool)) (i0 n i1 i2 i3 : Nat) : Option (List FVal × Bool) :=
  (allSome ((List.range n).map fun j => engElem d rd [i0 + j, i1, i2, i3])).map fun xs =>
    (xs.map Prod.fst, xs.any fun (x : FVal × Bool) => x.2)

/-- Where CPYT's rows and scale bytes lie (R324): rows in order j1, j2, j3, each rounded up to 16 bytes, then the scale
bytes from the next 16-byte boundary. -/
def tileBytes (d : Desc) (x : XCpyt) : Nat × Nat × Nat × Nat :=
  let fmt := if x.cv then x.dfmt else d.fmt
  let kind := if x.cv then x.dkind else d.kind
  let row := packedRow (fmtHalf fmt kind) (d.extent 0)
  let rows := d.extent 1 * d.extent 2 * d.extent 3
  (row, ceilDiv row 16 * 16, rows, if fmt = 11 || fmt = 12 then rows * ceilDiv (d.extent 0) 32 else 0)

/-- Bytes the tile takes in scratchpad. -/
def tileSize (d : Desc) (x : XCpyt) : Nat :=
  let (row, pitch, rows, scales) := tileBytes d x
  if scales = 0 then (rows - 1) * pitch + row else rows * pitch + scales

/-- The scale byte of a block that converts between QX4 E2M1 and MXFP4 by a copy of its codes (R92), from its format and
kind and its scale byte. -/
def copiedScale (d : Desc) (fmt kind sc : Nat) : Option Nat :=
  match d.fmt, fmt with
  | 11, 12 => if kind = 0 && bits sc 7 6 == 1 then some (if bits sc 5 0 = 63 then 255 else bits sc 5 0 + 95) else none
  | 12, 11 => if d.kind = 0 && kind = 1 && decide (95 ≤ sc) && decide (sc ≤ 157) then some (64 + (sc - 95)) else none
  | _, _ => none

/-- A block of a tensor that is converted by a copy of its 16 code bytes (R92). -/
def copiedBlock (d : Desc) (fmt kind : Nat) (rd : Nat → Nat → Option (Nat × Bool)) (c : List Nat) : Option (List Nat × Nat) :=
  if !d.isBlock then none
  else match rd (d.scaleVa c) 1 with
    | none => none
    | some (sc, _) => match copiedScale d fmt kind sc, rd (d.elemVa c) 16 with
      | some e, some (codes, _) => some ((leBytes 16 codes).map (·.toNat), e)
      | _, _ => none

/-- CPYT's bytes (R324): unchanged with CV = 0 or between equal integer formats, else converted row by row.
Log 15: DEDUCED, unsafe. -/
def tileImage (s : State) (th : Thread) (l : Launch) (d : Desc) (i0 i1 i2 i3 core dst : Nat) (x : XCpyt) : Image :=
  let (row, pitch, rows, scales) := tileBytes d x
  let coords (r : Nat) : List Nat :=
    [i0, i1 + r % d.extent 1, i2 + r / d.extent 1 % d.extent 2, i3 + r / (d.extent 1 * d.extent 2)]
  let perRow := ceilDiv (d.extent 0) 32
  let plain := !x.cv || (!d.isBlock && (fmtFloat d.fmt).isNone)
  let conv (r : Nat) : Option ((List Nat × List Nat) × Bool) :=
    let c := coords r
    (engRow d (engNat s th l) i0 (d.extent 0) (c.getD 1 0) (c.getD 2 0) (c.getD 3 0)).map
      fun y => (packRow (fun b => copiedBlock d x.dfmt x.dkind (engNat s th l)
        [i0 + 32 * b, c.getD 1 0, c.getD 2 0, c.getD 3 0]) x.dfmt x.dkind (y.1.map fun v =>
        if d.fmt = 13 then v else Fmt.f32.read (Fmt.f32.deliver .rne false v)), y.2)
  { space := some core
    lines := linesOf dst (tileSize d x)
    byte := fun a =>
      let o := a - dst
      if a < dst then none
      else if o < rows * pitch then
        let r := o / pitch
        let b := o % pitch
        if row ≤ b then none
        else if plain then some (engByte s th l (.mem (d.elemVa (coords r))) b)
        else some ((conv r).map fun y => (BitVec.ofNat 8 (y.1.1.getD b 0), y.2))
      else if o - rows * pitch < scales then
        let b := o - rows * pitch
        let r := b / perRow
        let j := b % perRow
        if plain then
          let c := coords r
          some (engByte s th l (.mem (d.scaleVa [i0 + 32 * j, c.getD 1 0, c.getD 2 0, c.getD 3 0])) 0)
        else some ((conv r).map fun y => (BitVec.ofNat 8 (y.1.2.getD j 0), y.2))
      else none
    reads := fun ln => (List.range rows).flatMap fun r =>
      let c := coords r
      let rowVa := d.elemVa c
      let scaleVa := d.scaleVa c
      let x := inLine ln (dst + r * pitch) row
      let y := inLine ln (dst + rows * pitch + r * perRow) (if scales = 0 then 0 else perRow)
      let own := packedRow d.halfBytes (d.extent 0)
      if plain then
        spansOf th l (.mem (rowVa + (x.1 - (dst + r * pitch)))) x.2
        ++ spansOf th l (.mem (scaleVa + (y.1 - (dst + rows * pitch + r * perRow)))) y.2
      else if x.2 = 0 && y.2 = 0 then []
      else spansOf th l (.mem rowVa) own ++ (if d.isBlock then spansOf th l (.mem scaleVa) perRow else []) }

/-! ### Gather and pool (R98, R328) -/

/-- Places of what a gather thread captured: its three lists, bytes of the peer window, and marks of poisoned ones, of the
window under 4 and of the lists from 5 on. -/
def capKey (list i : Nat) : Nat := list * 2 ^ 60 + i

/-- A captured n32, if its bytes were read. -/
def Thread.cap32 (th : Thread) (list i : Nat) : Option Nat :=
  (allSome ((List.range 4).map fun j => Map.find? th.captured (capKey list (4 * i + j)))).map leNat

/-- Whether one of n captured n32 from entry i of a list on was poisoned (R422). -/
def Thread.capBad (th : Thread) (list i n : Nat) : Bool :=
  (List.range (4 * n)).any fun j => (Map.find? th.captured (capKey (5 + list) (4 * i + j))).isSome

/-- Whether any captured list was poisoned. -/
def Thread.listBad (th : Thread) : Bool := th.captured.any fun (p : Nat × Byte) => decide (5 * 2 ^ 60 ≤ p.1)

/-- Bag lengths; in mode none each index is a bag of its own. -/
def gpoolBags (th : Thread) (count : Nat) (x : XGpool) : List (Option Nat) :=
  if x.mode = 0 then (List.range count).map fun _ => some 1 else (List.range count).map (th.cap32 1)

/-- Sum of the bag lengths that are known. -/
def bagSum (bags : List (Option Nat)) : Nat := (bags.map fun b => b.getD 0).sum

/-- A byte of a table: this device's memory, or a peer's as it was captured (R328). -/
def gatherNat (s : State) (th : Thread) (l : Launch) (va n : Nat) : Option (Nat × Bool) :=
  if l.pinned va && kindOf (l.phys va) == .peer then
    (allSome ((List.range n).map fun i => Map.find? th.captured (capKey 3 (l.phys (va + i) - 0x1000000000000)))).map
      fun bs => (leNat bs, (List.range n).any fun i =>
        (Map.find? th.captured (capKey 4 (l.phys (va + i) - 0x1000000000000))).isSome)
  else engNat s th l va n

/-- One gathered row as f32 patterns: canonical NaN for an index beyond the table. An element that no f32 holds exactly is
rounded to nearest even (R98). Log 15: DEDUCED, unsafe. -/
def gatherRow (s : State) (th : Thread) (l : Launch) (d : Desc) (idx : Nat) : Option (List Nat × Bool) :=
  if d.extent 1 ≤ idx then some ((List.range (d.extent 0)).map fun _ => Fmt.f32.nan, false)
  else (engRow d (gatherNat s th l) 0 (d.extent 0) idx 0 0).map fun y =>
    (y.1.map (Fmt.f32.deliver .rne false), y.2)

/-- Pool one element of a bag's rows in list order (R98): `ws` the weights. -/
def poolElem (mode : Nat) (xs ws : List Nat) : Nat :=
  let rd := Fmt.f32.read
  let add (a b : Nat) : Nat := Fmt.f32.add .rne false (rd a) (rd b)
  match xs with
  | [] => 0
  | x :: rest =>
    match mode with
    | 0 => x
    | 1 => rest.foldl add x
    | 2 => Fmt.f32.div .rne false (rd (rest.foldl add x)) (FVal.ofInt (xs.length : Int))
    | 3 => rest.foldl Fmt.f32.maxNum x
    | _ =>
      let first := Fmt.f32.mul .rne false (rd (ws.headD 0)) (rd x)
      (rest.zip (ws.drop 1)).foldl (fun acc (p : Nat × Nat) => Fmt.f32.fma .rne false (rd p.2) (rd p.1) (rd acc)) first

/-- Indices of a bag that starts at list entry `at0`, with its weights. -/
def bagEntries (th : Thread) (at0 n : Nat) (weighted : Bool) : Option (List (Nat × Nat)) :=
  allSome ((List.range n).map fun i =>
    match th.cap32 0 (at0 + i), (if weighted then th.cap32 2 (at0 + i) else some 0) with
    | some a, some w => some (a, w)
    | _, _ => none)

/-- Pooled row g: its bytes with the scale bytes right after, and its poison; nothing where it cannot be formed. -/
def pooledRow (s : State) (th : Thread) (l : Launch) (d : Desc) (bags : List (Option Nat)) (x : XGpool) (g : Nat) :
    Option (List Nat × Bool) :=
  match allSome (bags.take (g + 1)) with
  | none => none
  | some ns =>
    match bagEntries th (ns.take g).sum (ns.getD g 0) (x.mode == 4) with
    | none => none
    | some es =>
      (allSome (es.map fun (e : Nat × Nat) => gatherRow s th l d e.1)).map fun rows =>
        let vals := (List.range (d.extent 0)).map fun j =>
          Fmt.f32.read (poolElem x.mode (rows.map fun (r : List Nat × Bool) => r.1.getD j 0) (es.map Prod.snd))
        let y := packRow (fun _ => none) x.ofmt x.okind vals
        let at0 := (ns.take g).sum
        let n := ns.getD g 0
        (y.1 ++ y.2, (rows.any fun (r : List Nat × Bool) => r.2) || th.capBad 0 at0 n
          || (x.mode != 0 && th.capBad 1 0 (g + 1)) || (x.mode == 4 && th.capBad 2 at0 n))

/-- Bytes of a pooled row (R328). -/
def pooledBytes (d : Desc) (x : XGpool) : Nat :=
  packedRow (fmtHalf x.ofmt x.okind) (d.extent 0) + (if x.ofmt = 11 then d.extent 0 / 32 else 0)

/-- GPOOL's bytes. A total above 2^20 writes nothing; an index beyond the table or a list beyond the slice is an error.
What a bag longer than 65,535 does is not stated: it is pooled like any other. Log 15: DEDUCED, unsafe. -/
def gpoolImage (s : State) (th : Thread) (l : Launch) (td : BitVec 256) (core count dst stride : Nat) (x : XGpool) :
    Image :=
  let d := Desc.of td
  let bags := gpoolBags th count x
  let n := pooledBytes d x
  let total := bagSum bags
  let bad := (List.range total).any fun i =>
    match th.cap32 0 i with | some a => decide (d.extent 1 ≤ a) | none => true
  let tooMany := decide (2 ^ 20 < total)
  { space := some core
    lines := ((List.range count).flatMap fun g => linesOf (dst + g * stride) n).eraseDups
    byte := fun a =>
      let g := (a - dst) / stride
      let b := (a - dst) % stride
      if a < dst || count ≤ g || n ≤ b then none
      else if tooMany then some none
      else some ((pooledRow s th l d bags x g).map fun y => (BitVec.ofNat 8 (y.1.getD b 0), y.2))
    reads := fun ln => (List.range count).flatMap fun g =>
      if (inLine ln (dst + g * stride) n).2 = 0 then []
      else
        let ns := bags.map fun b => b.getD 0
        ((List.range (ns.getD g 0)).filterMap fun i => th.cap32 0 ((ns.take g).sum + i)).flatMap fun i =>
          if d.extent 1 ≤ i then []
          else spansOf th l (.mem (d.elemVa [0, i, 0, 0])) (packedRow d.halfBytes (d.extent 0))
            ++ (if d.isBlock then spansOf th l (.mem (d.scaleVa [0, i, 0, 0])) (d.extent 0 / 32) else [])
    err := tooMany || th.listBad || bags.any Option.isNone || bad || (x.mode == 4 && (List.range total).any fun i => (th.cap32 2 i).isNone) }

/-! ### Weight dies (R97, R320, R321) -/

/-- A byte of a weight die, with its poison. -/
def weightByte (s : State) (th : Thread) (die a : Nat) : Nat × Bool :=
  ((s.threadByte th (.wd die) a).toNat, (s.die die).badUnits.contains (a / 128))

/-- Where the bytes and the scale bytes of weight row m lie (R320), with their lengths. -/
def weightRow (region m k mRows : Nat) (int8 : Bool) : (Nat × Nat) × (Nat × Nat) :=
  let rowBytes := if int8 then k else k / 2
  ((4096 * region + m * rowBytes, rowBytes), (4096 * region + mRows * rowBytes + m * (k / 32), k / 32))

/-- One partial sum: the blocks of weight row m against an activation vector, and poison met (R97). -/
def partialSum (s : State) (th : Thread) (die region m k mRows : Nat) (int8 : Bool) (act : Nat → Nat × Bool) :
    Nat × Bool :=
  let kind : BlockKind := if int8 then .mxint8 else .mxfp4
  let row := (weightRow region m k mRows int8).1.1
  let scales := (weightRow region m k mRows int8).2.1
  (List.range (k / 32)).foldl (fun (acc : Nat × Bool) b =>
    let sc := weightByte s th die (scales + b)
    let terms := (List.range 32).map fun i =>
      let e := 32 * b + i
      let w := weightByte s th die (if int8 then row + e else row + e / 2)
      let code := if int8 then w.1 else if e % 2 = 0 then w.1 % 16 else w.1 / 16
      let a := act e
      (FVal.mul (kind.val code) (Fmt.bf16.read a.1), w.2 || a.2)
    let sum := FVal.sum false (terms.map Prod.fst)
    let scaled := match kind.scaleExp sc.1 with | some e => FVal.scale e sum | none => .nan
    (Fmt.f32.add .rne false (Fmt.f32.read acc.1) (Fmt.f32.read (Fmt.f32.deliver .rne false scaled)),
      acc.2 || sc.2 || terms.any fun (x : FVal × Bool) => x.2)) (0, false)

/-- Whether the weight die of a compute die is cut off (R436). -/
def weightLost (s : State) (die : Nat) : Bool := s.failedLinks.contains (.ucie die)

/-- WMV's bytes; a weight die whose link has failed gives an error and no bytes (R436). -/
def wmvImage (s : State) (th : Thread) (core act actStride out outStride region m k n : Nat) (int8 : Bool) : Image :=
  let die := dieOf core
  let lost := weightLost s die
  { space := some core
    lines := ((List.range n).flatMap fun v => linesOf (out + v * outStride) (4 * m)).eraseDups
    byte := fun a =>
      let v := (a - out) / outStride
      let b := (a - out) % outStride
      if a < out || n ≤ v || 4 * m ≤ b then none
      else if lost then some none
      else
        let elem (e : Nat) : Nat × Bool :=
          match s.ctx? th.launch core with
          | some c =>
            let o := act + v * actStride + 2 * e
            ((s.threadByte th (.scr th.launch core) o).toNat + 256 * (s.threadByte th (.scr th.launch core) (o + 1)).toNat,
              c.bad.contains (granule o) || c.bad.contains (granule (o + 1)))
          | none => (0, false)
        let p := partialSum s th die region (b / 4) k m int8 elem
        some (some (BitVec.ofNat 8 (p.1 / 256 ^ (b % 4)), p.2))
    reads := fun ln => (List.range n).flatMap fun v =>
      let x := inLine ln (out + v * outStride) (4 * m)
      if x.2 = 0 then []
      else
        let first := (x.1 - (out + v * outStride)) / 4
        ⟨.scr th.launch core, act + v * actStride, 2 * k⟩ :: (List.range (x.2 / 4)).flatMap fun i =>
          let r := weightRow region (first + i) k m int8
          [⟨.wd die, r.1.1, r.1.2⟩, ⟨.wd die, r.2.1, r.2.2⟩]
    err := lost }

/-! ### A thread's image, and the scratchpad lines it reads -/

def Thread.image (s : State) (th : Thread) : Image :=
  match s.launch? th.launch with
  | none => noImage
  | some l =>
    match th.cmd with
    | .copy src dst bytes => copyImage s th l src dst bytes
    | .tile td i0 i1 i2 i3 core dst x => tileImage s th l (Desc.of td) i0 i1 i2 i3 core dst x
    | .gpool td core _ _ _ count dst stride x => gpoolImage s th l td core count dst stride x
    | .wmv core act actStride out outStride region m k n int8 =>
      wmvImage s th core act actStride out outStride region m k n int8
    | .fget _ core dst bytes => { noImage with space := some core, lines := linesOf dst bytes }
    | _ => noImage

/-- Scratchpad lines a thread's destination covers, as (core, line) (R112). -/
def Thread.dstLines (s : State) (th : Thread) : List (Nat × Nat) :=
  let im := th.image s
  match im.space with
  | some core => im.lines.map fun ln => (core, ln)
  | none => []

/-- Scratchpad ranges a thread reads, as core, offset and length. -/
def Thread.reads (th : Thread) : List (Nat × Nat × Nat) :=
  match th.cmd with
  | .copy (.scr core off) _ bytes => [(core, off, bytes)]
  | .commit core src bytes _ _ _ => [(core, src, bytes)]
  | .scata _ core src idx rows stride => [(core, src, rows * stride), (core, idx, 4 * rows)]
  | .wmv core act actStride _ _ _ _ k n _ => [(core, act, (n - 1) * actStride + 2 * k)]
  | .fput _ core src bytes _ => [(core, src, bytes)]
  | .mmas core b stride n sCore scales sStride sn =>
    (List.range 64).flatMap fun c => [(core, b + c * stride, n), (sCore, scales + c * sStride, sn)]
  | _ => []

/-- Whether a range of a slice holds an absent line (R112). -/
def State.absentIn (s : State) (launch core off n : Nat) : Bool :=
  match s.ctx? launch core with
  | some c => (linesOf off n).any fun ln => Map.get c.counts 0 ln != 0
  | none => false

/-- The part of a range that lies in the slice. -/
def State.inSlice (s : State) (launch core off n : Nat) : Nat :=
  match s.ctx? launch core with
  | some c => min n (c.sliceBytes - off)
  | none => 0

/-- Whether a thread waits for scratchpad lines it reads (R112). -/
def Thread.waits (s : State) (th : Thread) : Bool := th.reads.any fun (r : Nat × Nat × Nat) => s.absentIn th.launch r.1 r.2.1 r.2.2

/-! ### Barriers of threads -/

/-- An agent's update of a transaction barrier of a slice, with the releases that it counts (R272, R279). -/
def State.tbUpdate (s : State) (a : Agent) (launch core off : Nat) (f : Tb → Tb) (rels : List Rel) : State :=
  let old := Tb.of (leNat (s.bytesAt (.scr launch core) off 16))
  let new := f old
  let w : Stamp := { id := s.nextWrite, maker := a, rmw := true }
  ({ s with nextWrite := s.nextWrite + 1 }.slicePut w launch core off (leBytes 16 new.toNat)).tbCount (.scr launch core)
    off old new rels

/-- An update of a thread's local barrier. -/
def State.threadBar (s : State) (th : Thread) (f : Tb → Tb) (rels : List Rel) : State :=
  match th.bar with
  | some off => s.tbUpdate th.cmd.agent th.launch th.core off f rels
  | none => s

/-- An error of a thread: ERROR on its barrier (R422). -/
def State.threadErr (s : State) (t : Nat) : State :=
  match Map.find? s.threads t with
  | some th => if th.err then s else (s.threadBar th Tb.setError []).modThread t fun th => { th with err := true }
  | none => s

/-- The releases a thread's writes make up (R128, R279): every class is in the mask. -/
def Thread.rel (th : Thread) (ids : List Nat) : Rel := { maker := th.cmd.agent, mask := Obs.all, writes := ids }

/-- Writes that a thread has made: they are visible to it, and are among its launch's (R128, R174). -/
def State.threadMade (s : State) (t : Nat) (ids : List Nat) : State :=
  match Map.find? s.threads t with
  | none => s
  | some th =>
    (s.modThread t fun th => { th with vis := th.vis ++ ids }).modLaunch th.launch fun l => { l with made := l.made ++ ids }

/-- A thread has read writes: its join carries them (R122). -/
def State.threadMet (s : State) (t : Nat) (ids : List Nat) : State :=
  s.modThread t fun th => { th with met := ids.foldl Nats.ins th.met }

/-- A thread has read spans: each line as it stands now, for good (R118, R128); its join carries what it read (R122).
Log 2: DEDUCED, unsafe. -/
def State.markRead (s : State) (t : Nat) (xs : List Span) : State :=
  xs.foldl (fun s x =>
    (linesOf x.addr x.len).foldl (fun s ln =>
      match Map.find? s.threads t with
      | none => s
      | some th =>
        let gone := s.lineGone th x.space ln
        let kept := ((s.writesTo x.space (128 * ln) 128).map (·.id)).filter fun i => !gone.contains i
        let y := inLine ln x.addr x.len
        let got := (s.readBehind x.space y.1 y.2 gone noOwn).srcs.map Prod.fst
        s.modThread t fun th =>
          { th with readAt := Map.ins th.readAt (x.space.lineNo ln) kept, met := got.foldl Nats.ins th.met }) s) s

/-- The join of a thread (R128): its writes to Host locations complete, and it arrives at its barrier as a release of all
it wrote, read and saw. -/
def State.threadJoin (s : State) (th : Thread) : State :=
  (s.completeHost th.vis).threadBar th (Tb.arrive 1) [th.rel (th.vis ++ th.met)]

/-! ### Landing -/

/-- Pending counts of lines rise and fall (R112). -/
def State.countLines (s : State) (launch : Nat) (lines : List (Nat × Nat)) (up : Bool) : State :=
  lines.foldl (fun s (p : Nat × Nat) => s.modCtx launch p.1 fun c =>
    let n := Map.get c.counts 0 p.2
    { c with counts := Map.put c.counts 0 p.2 (if up then n + 1 else n - 1) }) s

/-- Runs of adjacent addresses, each with its bytes. -/
def runsOf : List (Nat × Byte × Bool) → List (Nat × List (Byte × Bool))
  | [] => []
  | (a, x) :: l =>
    match runsOf l with
    | (b, xs) :: rest => if b = a + 1 then (a, x :: xs) :: rest else (a, [x]) :: (b, xs) :: rest
    | [] => [(a, [x])]

/-- Write a run into a slice or into global memory, as part of the thread's write of the line (R118). -/
def State.engWrite (s : State) (id : Nat) (th : Thread) (l : Launch) (space : Option Nat) (a : Nat)
    (xs : List (Byte × Bool)) : State :=
  let bs := xs.map Prod.fst
  let w : Stamp := { id := id, maker := th.cmd.agent }
  match space with
  | some core => (s.slicePut w th.launch core a bs).slicePoison th.launch core a xs
  | none =>
    let s := s.writeAs w (l.phys a) bs false false
    { s with bad := poisonRun s.bad (l.phys a) xs }

/-- A line is written as one single-copy atomic write of the thread (R118). -/
def State.engLine (s : State) (t : Nat) (th : Thread) (l : Launch) (space : Option Nat) (got : List (Nat × Byte × Bool)) :
    State :=
  let id := s.nextWrite
  (({ s with nextWrite := id + 1 } : State).threadMade t [id] |> fun s =>
    (runsOf got).foldl (fun s (r : Nat × List (Byte × Bool)) => s.engWrite id th l space r.1 r.2) s)

/-- Unit k of a thread's image lands: the bytes of one destination line that can be written, errors for the rest, and
the line's pending count (R112, R311, R417, R422). -/
def State.landLine (s : State) (t k : Nat) : State :=
  match Map.find? s.threads t with
  | none => s
  | some th =>
    match s.launch? th.launch with
    | none => s
    | some l =>
      let im := th.image s
      let ln := im.lines.getD k 0
      let cover := (List.range 128).filterMap fun i => (im.byte (128 * ln + i)).map fun x => (128 * ln + i, x)
      let dstBad := im.space.isNone && cover.any fun (p : Nat × EByte) => engRefused s l true p.1
      let got := if dstBad then [] else cover.filterMap fun (p : Nat × EByte) => p.2.map fun x => (p.1, x)
      let err := dstBad || im.err || cover.any fun (p : Nat × EByte) => match p.2 with | none => true | some x => x.2
      let s := (s.markRead t (im.reads ln))
      let s := if err then s.threadErr t else s
      let s := if got.isEmpty then s else s.engLine t th l im.space got
      let s := match im.space with | some core => s.countLines th.launch [(core, ln)] false | none => s
      s.modThread t fun th => { th with done := Nats.ins th.done k }

/-- Every unit of a thread's image that has not landed yet. -/
def State.landRest (s : State) (t : Nat) : State :=
  match Map.find? s.threads t with
  | none => s
  | some th =>
    ((List.range (th.image s).lines.length).filter fun k => !th.done.contains k).foldl (fun s k => s.landLine t k) s

/-! ### Fork and start -/

/-- Device number, export index and offset that a peer-window address reaches (R103, R348): through a valid import. -/
def State.importAt (s : State) (pa : Nat) : Option (Nat × Nat × Nat) :=
  if kindOf pa != .peer then none
  else
    let o := pa - 0x1000000000000
    let e := (Map.get s.imports 0 (o / 2 ^ 36)).toNat
    if bit e 63 then some (bits e 61 53, bits e 52 43, o % 2 ^ 36) else none

/-- The pieces of a bulk transfer at a remote virtual address, as offset and length: the parts of its packets, which are
cut at every 4 KiB from its first byte (R349); where a packet crosses a page, each page has its own translation. -/
def pieces (va bytes : Nat) : List (Nat × Nat) :=
  (List.range (ceilDiv bytes 4096)).flatMap fun k =>
    let n := min 4096 (bytes - 4096 * k)
    let room := 65536 - (va + 4096 * k) % 65536
    if n ≤ room then [(4096 * k, n)] else [(4096 * k, room), (4096 * k + room, n - room)]

/-- The plane of packet k of a transfer of a core: planes that are not ready are skipped (R349). -/
def State.planeOf (s : State) (core t k : Nat) : Option Nat :=
  ((List.range 32).map fun i => (Config.sprayHash core t + k + i) % 32).find? fun p => bit (s.regs.rdy.getD 1 0) p

/-- The lines of a bulk transfer at a remote virtual address, as offset and length, packet by packet: what a target
refuses, or answers, one by one (R433). -/
def bulkLines (va bytes : Nat) : List (Nat × Nat) :=
  (List.range (ceilDiv bytes 4096)).flatMap fun k =>
    let a := va + 4096 * k
    let n := min 4096 (bytes - 4096 * k)
    (linesOf a n).map fun ln => ((inLine ln a n).1 - va, (inLine ln a n).2)

/-- The pieces of packet k of a bulk transfer. -/
def packetPieces (va bytes k : Nat) : List (Nat × Nat) := (pieces va bytes).filter fun p => p.1 / 4096 == k

/-- Where a remote virtual address leads, unless its line is refused (R417). -/
def remoteAt (s : State) (l : Launch) (write : Bool) (va : Nat) : Option (Nat × Nat × Nat) :=
  if !l.pinned va || (write && !l.writable va) then none else s.importAt (l.phys va)

/-- What becomes of a packet's pieces on the way out: by target device, the parts of exports that they cover with their
places in the transfer, and the pieces that lead nowhere. A packet goes to one device: pieces of two devices leave as two.
Log 29: DESIGN CHOICE, safe. -/
def State.route (s : State) (l : Launch) (write : Bool) (va : Nat) (ps : List (Nat × Nat)) :
    List (Nat × List ((Nat × Nat × Nat) × Nat)) × List (Nat × Nat) :=
  let at? (p : Nat × Nat) : Option (Nat × Nat × Nat) := if s.noPlane then none else remoteAt s l write (va + p.1)
  let devs := (ps.filterMap fun p => (at? p).map Prod.fst).eraseDups
  (devs.map fun d => (d, ps.filterMap fun p => match at? p with
    | some r => if r.1 = d then some ((r.2.1, r.2.2, p.2), p.1) else none
    | none => none), ps.filter fun p => (at? p).isNone)

/-- Log 29: DESIGN CHOICE, safe. -/
def State.send (s : State) (ps : List Packet) : State := { s with fabricOut := s.fabricOut ++ ps }

/-- The ranges of the peer window that a gather reads: rows its index list names, and their scale bytes (R328). -/
def gatherPeers (s : State) (th : Thread) (l : Launch) (d : Desc) (count : Nat) (x : XGpool) : List (Nat × Nat) :=
  ((List.range (min (2 ^ 20) (bagSum (gpoolBags th count x)))).filterMap (th.cap32 0)).flatMap fun i =>
    if d.extent 1 ≤ i then []
    else ((d.elemVa [0, i, 0, 0], packedRow d.halfBytes (d.extent 0))
        :: (if d.isBlock then [(d.scaleVa [0, i, 0, 0], d.extent 0 / 32)] else [])).filter fun (r : Nat × Nat) =>
      l.pinned r.1 && (s.importAt (l.phys r.1)).isSome

/-- A gather asks the peers for what it reads there; with no plane that is an error (R349). -/
def State.askRows (s : State) (t : Nat) (l : Launch) (rs : List (Nat × Nat)) : State :=
  if rs.isEmpty then s
  else if s.noPlane then s.threadErr t
  else s.send (rs.filterMap fun (r : Nat × Nat) => (s.importAt (l.phys r.1)).map fun (e : Nat × Nat × Nat) =>
    .fetch e.1 t none [(e.2.1, e.2.2, r.2)])

/-- Whether a gather still waits for rows of a peer. -/
def State.gatherWaits (s : State) (th : Thread) : Bool :=
  match th.cmd, s.launch? th.launch with
  | .gpool td _ _ _ _ count _ _ x, some l =>
    !th.started || (!th.err && (gatherPeers s th l (Desc.of td) count x).any fun (r : Nat × Nat) =>
      (List.range r.2).any fun i => (Map.find? th.captured (capKey 3 (l.phys (r.1 + i) - 0x1000000000000))).isNone)
  | _, _ => false

/-- A gather starts once the lines of its lists are present: it reads them (R328), a list that passes the slice as far
as the slice goes, and asks the peers for their rows. Log 15: DEDUCED, unsafe. -/
def State.startThread (s : State) (t : Nat) : State :=
  match Map.find? s.threads t with
  | none => s
  | some th =>
    if th.started || th.held then s
    else
      let read (th : Thread) (r : Nat × Nat × Nat) (n : Nat) : Thread :=
        match s.ctx? th.launch r.2.1 with
        | none => th
        | some c => { th with captured := (List.range (s.inSlice th.launch r.2.1 r.2.2 n)).foldl (fun m i =>
            let m := Map.ins m (capKey r.1 i) (s.threadByte th (.scr th.launch r.2.1) (r.2.2 + i))
            if c.bad.contains (granule (r.2.2 + i)) then Map.ins m (capKey (5 + r.1) i) 1 else m) th.captured }
      match th.cmd with
      | .gpool td core idx lensA weights count _ _ x =>
        let th := if x.mode = 0 then th else read th (1, core, lensA) (4 * count)
        let n := min (2 ^ 20) (bagSum (gpoolBags th count x))
        let need := [(core, idx, 4 * n), (core, weights, if x.mode = 4 then 4 * n else 0),
                     (core, lensA, if x.mode = 0 then 0 else 4 * count)]
        if need.any fun (r : Nat × Nat × Nat) => s.absentIn th.launch r.1 r.2.1 (s.inSlice th.launch r.1 r.2.1 r.2.2) then s
        else
          let th := read th (0, core, idx) (4 * n)
          let th := if x.mode = 4 then read th (2, core, weights) (4 * n) else th
          let th := { th with started := true }
          let s := ({ s with threads := Map.ins s.threads t th }).markRead t (need.map fun (r : Nat × Nat × Nat) =>
            ⟨.scr th.launch r.1, r.2.1, s.inSlice th.launch r.1 r.2.1 r.2.2⟩)
          match s.launch? th.launch with
          | some l => s.askRows t l (gatherPeers s th l (Desc.of td) count x)
          | none => s
      | _ => s

/-- Line j of an FGET's remote lines is done with: each line of the slice that has all its bytes has its count dropped
(R112). -/
def State.fgetDone (s : State) (t j : Nat) : State :=
  match Map.find? s.threads t with
  | none => s
  | some th =>
    match th.cmd with
    | .fget va core dst bytes =>
      let ps := bulkLines va bytes
      let done := Nats.ins th.done j
      let p := ps.getD j (0, 0)
      let covers (i ln : Nat) : Bool := (linesOf (dst + (ps.getD i (0, 0)).1) (ps.getD i (0, 0)).2).contains ln
      let whole := (linesOf (dst + p.1) p.2).filter fun ln =>
        (List.range ps.length).all fun i => !covers i ln || done.contains i
      (s.countLines th.launch (whole.map fun ln => (core, ln)) false).modThread t fun th => { th with done := done }
    | _ => s

/-- Line j of an FGET is refused: its bytes stay as they are, and ERROR is set (R417, R433). -/
def State.fgetRefused (s : State) (t j : Nat) : State := (s.threadErr t).fgetDone t j

/-- The remote lines of a transfer that lie in some of its pieces. -/
def linesIn (va bytes : Nat) (ps : List (Nat × Nat)) : List Nat :=
  (List.range (bulkLines va bytes).length).filter fun j =>
    let x := (bulkLines va bytes).getD j (0, 0)
    ps.any fun p => decide (p.1 ≤ x.1) && decide (x.1 + x.2 ≤ p.1 + p.2)

/-- Fork a thread (R128, R311): the presence bits of its destination lines are cleared; an FGET asks for its packets. -/
def State.forkThread (s : State) (t : Nat) : State :=
  match Map.find? s.threads t with
  | none => s
  | some th =>
    let s := s.modThread t fun th => { th with held := false }
    let s := s.countLines th.launch (th.dstLines s) true
    match th.cmd, s.launch? th.launch with
    | .fget va _ _ bytes, some l =>
      (List.range (ceilDiv bytes 4096)).foldl (fun s k =>
        let r := s.route l false va (packetPieces va bytes k)
        let s := s.send (r.1.map fun x => .fetch x.1 t (s.planeOf th.core t k) (x.2.map Prod.fst))
        (linesIn va bytes r.2).foldl (fun s j => s.fgetRefused t j) s) s
    | _, _ => s.startThread t

/-- Issue of an engine command (R128, R296, R311): it takes a table entry; every write visible to the split's lanes is
performed, and complete where it goes to a Host location, and is visible to the thread; inside a region it is held until
the commit. -/
def State.startEngine (s : State) (it : Iss) (cmd : EngCmd) (bar : Option Nat) : State :=
  let t := s.nextId
  let held := s.inRegion it.key
  let ids := match s.group? it.key with | some g => s.visible g it.sp.mask Obs.all | none => []
  let th : Thread :=
    { launch := it.g.launch, core := it.g.core, group := it.key, cmd := cmd, bar := bar, held := held, vis := ids }
  let s := (s.drainIds ids).completeHost ids
  let s := { s with threads := Map.ins s.threads t th, nextId := t + 1 }
  if held then s.modGroup it.key fun g => { g with region := g.region.map fun r => { r with held := r.held ++ [t] } }
  else s.forkThread t

end Sys2Proof.Machine
end

