-- ==== Sys2Proof/Machine/Engines.lean ====
section
/-!
DEFINITION. The engine words that start copies, gathers and weight-die work (R310, R311, R321 to R329), and what their
threads do at each landing and at completion.
-/

namespace Sys2Proof.Machine

open Sys2Proof

/-! ### The checks every engine word shares (R310) -/

/-- An engine word: nothing where its mask is empty; cause 0x31 inside a region where R296 forbids it.
Log 12: DEDUCED, unsafe. -/
def engineWord (i : Instr) (p : Pred) (inRegion : Bool) (k : State → Iss → Mask → Eff) (s : State) :
    Host.Outcome State Fault Refusal :=
  issue i s fun s it =>
    let m := it.exec p
    if m = 0 then .ok s none
    else if !inRegion && s.inRegion it.key then .trap (it.trapOpen s 0x31 m)
    else k s it m

/-- Cause 0x31 for the first value out of its limits, by its offset in the block. Log 12: DEDUCED, unsafe. -/
def blockProb (it : Iss) (m : Mask) (cs : List (Nat × Bool)) : Option Eff :=
  (cs.find? fun (c : Nat × Bool) => c.2).map fun (c : Nat × Bool) => .trap (it.trapWord 0x31 m c.1)

/-- A place in the own slice or, where `window` holds, the cluster window. -/
def slicePlace (s : State) (it : Iss) (window : Bool) (a : Nat) : Option (Nat × Nat) :=
  match scrAt s it a 1 with
  | some (.slice core off) => if window || bits a 22 19 = 0 then some (core, off) else none
  | _ => none

/-- Whether a value names no aligned place. -/
def placeBad (s : State) (it : Iss) (window : Bool) (al a : Nat) : Bool :=
  (slicePlace s it window a).isNone || a % al != 0

/-- Whether n bytes from a place pass the slice. -/
def pastSlice (s : State) (it : Iss) (a n : Nat) : Bool := (scrAt s it a n).isNone

/-- The local barrier of an engine word: cause 0x31 where it is not a 16-byte aligned place of the own slice. -/
def localBar (s : State) (it : Iss) (m : Mask) (d : Dst) (k : Option Nat → Eff) : Eff :=
  match d with
  | .s n =>
    let a := (it.g.readS n).toNat
    if placeBad s it false 16 a || pastSlice s it a 16 then .trap (it.trapWord 0x31 m a) else k (some a)
  | _ => k none

/-- Pages of a range of virtual addresses. -/
def pagesOf (va n : Nat) : List Nat :=
  if n = 0 then [] else (List.range ((va + n - 1) / 65536 + 1 - va / 65536)).map fun i => 65536 * (va / 65536 + i)

/-- Whether a global range leaves the translated addresses, meets a slot-state array (R132), or holds a pinned page of a
kind that is not accepted. -/
def rangeBad (s : State) (l : Launch) (va n : Nat) (kind : LocKind → Bool) : Bool :=
  decide (2 ^ 56 < va + n) || s.inSlotStates va n || (pagesOf va n).any fun p => l.pinned p && !kind (kindOf (l.phys p))

/-- Device kind (R103). -/
def LocKind.device : LocKind → Bool
  | .hbm | .tier2 => true
  | _ => false

/-! ### CPY (R323) -/

/-- An operand of CPY: a place in scratchpad, or a global address, of Device or Host kind where it is pinned. -/
def copyLoc (s : State) (it : Iss) (scr : Bool) (x : Nat) : Option Loc :=
  if scr then (if x < 2 ^ 32 then (slicePlace s it true x).map fun (p : Nat × Nat) => .scr p.1 p.2 else none)
  else if x < 2 ^ 56 && !(it.l.pinned x && !(kindOf (it.l.phys x)).plain) then some (.mem x) else none

/-- Whether a range of CPY is refused as a whole. -/
def copyRangeBad (s : State) (it : Iss) (p : Loc) (n : Nat) : Bool :=
  match p with
  | .mem va => rangeBad s it.l va n LocKind.plain
  | .scr core off =>
    match s.ctx? it.g.launch core with
    | some c => decide (c.sliceBytes < off + n)
    | none => true

def locsOverlap (a b : Loc) (n : Nat) : Bool :=
  match a, b with
  | .mem x, .mem y => decide (x < y + n) && decide (y < x + n)
  | .scr c x, .scr d y => c == d && decide (x < y + n) && decide (y < x + n)
  | _, _ => false

/-- CPY's checks, and its operands where they pass. -/
def copyCheck (s : State) (it : Iss) (srcScr dstScr : Bool) (src dst bytes : Nat) : Except Nat (Loc × Loc) :=
  match copyLoc s it srcScr src, copyLoc s it dstScr dst with
  | none, _ => .error 0
  | some _, none => .error 2
  | some a, some b =>
    if bytes = 0 || 2 ^ 24 < bytes then .error 4
    else if copyRangeBad s it a bytes || copyRangeBad s it b bytes || locsOverlap a b bytes then .error 4
    else .ok (a, b)

/-- CPY. -/
def execCpy (w : FWord XCpy) (s : State) : Host.Outcome State Fault Refusal :=
  engineWord (.cpy w) w.p true (fun s it m =>
    localBar s it m w.d fun bar =>
      let bytes := it.scalar w.b
      match copyCheck s it (w.x.dir == 1 || w.x.dir == 3) (w.x.dir == 0 || w.x.dir == 3) (it.block64 w.a 0)
        (it.block64 w.a 2) bytes with
      | .error i => .trap (it.trapWord 0x31 m i)
      | .ok (a, b) => .ok (s.startEngine it (.copy a b bytes) bar) none) s

/-! ### CPYT (R324) -/

/-- Whether FMT is an integer format. -/
def fmtIsInt (fmt : Nat) : Bool := decide (fmt ≤ 5) || fmt == 14

/-- Whether a conversion is one of those R324 names. -/
def cvtAllowed (d : Desc) (x : XCpyt) : Bool :=
  !x.cv
  || (if fmtIsInt d.fmt || fmtIsInt x.dfmt then x.dfmt == d.fmt
      else x.dfmt != 15 && (!(x.dfmt == 11 || x.dfmt == 12) || d.extent 0 % 32 == 0)
        && (x.dfmt != 12 || decide (x.dkind ≤ 1)))

/-- Whether a tile reads a slot-state array (R132): one of its rows, or their scale bytes. -/
def tileInStates (s : State) (d : Desc) (origin : Nat) : Bool :=
  let rows := d.extent 1 * d.extent 2 * d.extent 3
  (List.range rows).any fun r =>
    let c := [bits origin 15 0, bits origin 31 16 + r % d.extent 1, bits origin 47 32 + r / d.extent 1 % d.extent 2,
      bits origin 63 48 + r / (d.extent 1 * d.extent 2)]
    s.inSlotStates (d.elemVa c) (packedRow d.halfBytes (d.extent 0))
    || (d.isBlock && s.inSlotStates (d.scaleVa c) (ceilDiv (d.extent 0) 32))

/-- CPYT's checks on its values, by offset: origin, destination, then the ranges it writes and reads. -/
def tileCheck (s : State) (it : Iss) (d : Desc) (origin dst : Nat) (x : XCpyt) : List (Nat × Bool) :=
  [(0, d.isBlock && bits origin 15 0 % 32 != 0), (2, placeBad s it true 16 dst),
   (3, pastSlice s it dst (tileSize d x) || tileInStates s d origin)]

/-- The tile command from its origin and destination. -/
def tileCmd (s : State) (it : Iss) (td : BitVec 256) (origin dst : Nat) (x : XCpyt) : EngCmd :=
  let p := (slicePlace s it true dst).getD (0, 0)
  .tile td (bits origin 15 0) (bits origin 31 16) (bits origin 47 32) (bits origin 63 48) p.1 p.2 x

/-- Log 15: DEDUCED, unsafe. -/
def execCpyt (w : FWord XCpyt) (s : State) : Host.Outcome State Fault Refusal :=
  engineWord (.cpyt w) w.p true (fun s it m =>
    let n := it.block w.a 3
    let td := Map.get it.c.tds 0 (n % 256)
    let d := Desc.of td
    if !d.ok || !cvtAllowed d w.x then .trap (it.trapWord 0x02 m (encode (.cpyt w)))
    else
      localBar s it m w.d fun bar =>
        let origin := it.block64 w.a 0
        let dst := it.block w.a 2
        let cs := tileCheck s it d origin dst w.x
        match blockProb it m (cs.take 2 ++ [(3, decide (256 ≤ n))] ++ cs.drop 2) with
        | some e => e
        | none => .ok (s.startEngine it (tileCmd s it td origin dst w.x) bar) none) s

/-! ### CPYC (R325) -/

/-- Whether a global operand of 64 bits is not of Device kind; an address outside the pins is met by the thread. -/
def deviceBad (l : Launch) (va : Nat) : Bool := decide (2 ^ 56 ≤ va) || (l.pinned va && !LocKind.device (kindOf (l.phys va)))

def execCpyc (w : FWord Unit) (s : State) : Host.Outcome State Fault Refusal :=
  engineWord (.cpyc w) w.p true (fun s it m =>
    localBar s it m w.d fun bar =>
      let src := it.block w.a 0
      let bytes := it.block w.a 1
      let dst := it.block64 w.a 2
      let ver := it.block64 w.a 4
      match blockProb it m
        [(0, placeBad s it true 1 src), (1, bytes = 0 || 65536 < bytes), (2, deviceBad it.l dst),
         (4, deviceBad it.l ver || ver % 8 != 0 || s.inSlotStates ver 8),
         (1, pastSlice s it src bytes), (3, rangeBad s it.l dst bytes LocKind.device),
         (5, decide (dst < ver + 8) && decide (ver < dst + bytes))] with
      | some e => e
      | none =>
        let p := (slicePlace s it true src).getD (0, 0)
        .ok (s.startEngine it (.commit p.1 p.2 bytes dst ver (it.block64 w.a 6)) bar) none) s

/-! ### STAGE (R172, R173, R327) -/

/-- A copy-schedule entry's command and barrier, if it is one that its CPY or CPYT would run. -/
def stageEntry (s : State) (it : Iss) (x : Nat) : Option (EngCmd × Nat) :=
  let src := bits x 255 192
  let dst := bits x 191 160
  let size := bits x 159 128
  let bara := bits x 127 96
  if bits x 63 2 != 0 || placeBad s it false 16 bara || pastSlice s it bara 16 then none
  else match bits x 1 0 with
    | 0 =>
      match copyCheck s it false true ((src + bits x 95 64 * it.c.index) % 2 ^ 64) dst size with
      | .ok (a, b) => some (.copy a b size, bara)
      | .error _ => none
    | 1 =>
      let td := Map.get it.c.tds 0 (size % 256)
      let d := Desc.of td
      let xt : XCpyt := { cv := false, dfmt := 0, dkind := 0 }
      if 256 ≤ size || !d.ok || (tileCheck s it d src dst xt).any Prod.snd then none
      else some (tileCmd s it td src dst xt, bara)
    | _ => none

def execStage (w : FWord Unit) (s : State) : Host.Outcome State Fault Refusal :=
  engineWord (.stage w) w.p true (fun s it m =>
    let n := it.c.stage
    if it.l.r.nsched ≤ n then .ok (s.writeNow it (scalarWrites w.d 0xFFFFFFFF) {}) none
    else
      let next (s : State) : State := s.modCtx it.g.launch it.g.core fun c => { c with stage := n + 1 }
      let ports := portsOf s it.l (it.l.r.sched + 32 * n) 32
      if !ports.isEmpty then .park s (.ports ports)
      else match stageEntry s it (leNat (s.physBytes (it.l.phys (it.l.r.sched + 32 * n)) 32)) with
      | none => .trapAfter next (it.trapWord 0x31 m n)
      | some (cmd, bar) =>
        .ok (((next s).startEngine it cmd (some bar)).writeNow it (scalarWrites w.d n) {}) none) s

/-! ### GPOOL and SCATA (R328, R329) -/

/-- Formats a gather's table and SCATA's table may have. Which cause a gather's table of another rank or of an integer
format raises is not stated: 0x02, as for SCATA's. Log 15: DESIGN CHOICE, unsafe. -/
def gatherFmt (d : Desc) : Bool := d.rank == 2 && (d.isBlock || (fmtFloat d.fmt).isSome)
def scatterFmt (d : Desc) : Bool := d.rank == 2 && (d.fmt == 4 || d.fmt == 5 || d.fmt == 6 || d.fmt == 7 || d.fmt == 8)

/-- GPOOL (R328). Rows of OFMT qx4 are in blocks of 32 elements, and the cause of a row that is no whole number of them
is not stated: 0x02, as CPYT's (R324). Log 15: DESIGN CHOICE, unsafe. -/
def execGpool (w : FWord XGpool) (s : State) : Host.Outcome State Fault Refusal :=
  engineWord (.gpool w) w.p true (fun s it m =>
    let r (i : Nat) := it.block w.a i
    let x := w.x
    let td := Map.get it.c.tds 0 (r 6 % 256)
    let d := Desc.of td
    if !d.ok || !gatherFmt d || (x.ofmt == 11 && d.extent 0 % 32 != 0) then
      .trap (it.trapWord 0x02 m (encode (.gpool w)))
    else
      localBar s it m w.d fun bar =>
        let n := pooledBytes d x
        match blockProb it m
          [(0, placeBad s it false 4 (r 0)), (1, x.mode != 0 && placeBad s it false 4 (r 1)),
           (2, x.mode == 4 && placeBad s it false 4 (r 2)),
           (3, r 3 = 0 || (if x.mode = 0 then 2 ^ 20 else 65535) < r 3),
           (4, placeBad s it false 16 (r 4)), (5, r 5 % 16 != 0), (6, 256 ≤ r 6), (7, r 7 != 0),
           (6, decide (r 5 < n)), (6, pastSlice s it (r 4) ((r 3 - 1) * r 5 + n))] with
        | some e => e
        | none =>
          .ok (s.startEngine it (.gpool td it.g.core (r 0) (r 1) (r 2) (r 3) (r 4) (r 5) x) bar) none) s

def execScata (w : FWord Unit) (s : State) : Host.Outcome State Fault Refusal :=
  engineWord (.scata w) w.p true (fun s it m =>
    let r (i : Nat) := it.block w.a i
    let td := Map.get it.c.tds 0 (r 4 % 256)
    let d := Desc.of td
    if !d.ok || !scatterFmt d then .trap (it.trapWord 0x02 m (encode (.scata w)))
    else
      localBar s it m w.d fun bar =>
        match blockProb it m
          [(0, placeBad s it false 16 (r 0)), (1, placeBad s it false 4 (r 1)), (2, r 2 = 0 || 2 ^ 20 < r 2),
           (3, r 3 % 16 != 0), (4, 256 ≤ r 4), (5, r 5 != 0),
           (4, pastSlice s it (r 0) ((r 2 - 1) * r 3 + packedRow d.halfBytes (d.extent 0)))] with
        | some e => e
        | none => .ok (s.startEngine it (.scata td it.g.core (r 0) (r 1) (r 2) (r 3)) bar) none) s

/-! ### WMV and WLOAD (R321, R322) -/

def execWmv (w : FWord Nat) (s : State) : Host.Outcome State Fault Refusal :=
  engineWord (.wmv w) w.p true (fun s it m =>
    localBar s it m w.d fun bar =>
      let r (i : Nat) := it.block w.a i
      let int8 := w.x == 1
      let bytes := 4096 * r 4 + (if int8 then r 5 * r 6 else r 5 * r 6 / 2) + r 5 * r 6 / 32
      match blockProb it m
        [(0, placeBad s it false 16 (r 0)), (1, r 1 % 16 != 0), (2, placeBad s it false 16 (r 2)), (3, r 3 % 16 != 0),
         (4, 262143 < r 4), (5, r 5 = 0 || 65536 < r 5), (6, r 6 < 32 || 65536 < r 6 || r 6 % 32 != 0),
         (7, r 7 = 0 || 256 < r 7),
         (6, decide (r 1 < 2 * r 6)), (5, decide (r 3 < 4 * r 5)), (6, decide (2 ^ 30 < bytes)),
         (7, pastSlice s it (r 0) ((r 7 - 1) * r 1 + 2 * r 6)), (7, pastSlice s it (r 2) ((r 7 - 1) * r 3 + 4 * r 5))] with
      | some e => e
      | none =>
        .ok (s.startEngine it (.wmv it.g.core (r 0) (r 1) (r 2) (r 3) (r 4) (r 5) (r 6) (r 7) int8) bar) none) s

def execWload (w : FWord Unit) (s : State) : Host.Outcome State Fault Refusal :=
  engineWord (.wload w) w.p false (fun s it m =>
    if it.l.r.kind != 2 then .trap (it.trapOpen s 0x31 m)
    else
      localBar s it m w.d fun bar =>
        let src := it.block64 w.a 0
        let off := it.block w.a 2
        let bytes := it.block w.a 3
        match blockProb it m
          [(0, deviceBad it.l src || src % 128 != 0), (2, 262143 < off),
           (3, bytes < 128 || 2 ^ 30 < bytes || bytes % 128 != 0),
           (3, rangeBad s it.l src bytes LocKind.device), (3, decide (2 ^ 30 < 4096 * off + bytes))] with
        | some e => e
        | none => .ok (s.startEngine it (.wload (dieOf it.g.core) src off bytes) bar) none) s

/-! ### What the threads do (R311, R322, R325, R329) -/

/-- Unit k of a WLOAD: 128 bytes of the weight die. -/
def State.wloadUnit (s : State) (t k : Nat) : State :=
  match Map.find? s.threads t with
  | none => s
  | some th =>
    match th.cmd, s.launch? th.launch with
    | .wload die src off _, some l =>
      let bs := (List.range 128).map fun i => engByte s th l (.mem (src + 128 * k)) i
      let s := (s.markRead t (spansOf th l (.mem (src + 128 * k)) 128)).modThread t fun th =>
        { th with done := Nats.ins th.done k }
      match allSome bs with
      | none => s.threadErr t
      | some xs =>
        if weightLost s die then s.threadErr t
        else
          let bad := xs.any fun (x : Byte × Bool) => x.2
          let s := if bad then s.threadErr t else s
          let unit := 32 * off + k
          let w : Stamp := { id := s.nextWrite, maker := .matrix }
          let s := ({ s with nextWrite := s.nextWrite + 1 }.record w (.wd die) (128 * unit) (xs.map Prod.fst)).threadMade t
            [s.nextWrite]
          s.modDie die fun d =>
            { d with weights := (List.range 128).foldl (fun m i => Map.put m 0 (128 * unit + i) ((xs.getD i (0, false)).1)) d.weights
                     badUnits := if bad then Nats.ins d.badUnits unit else Nats.del d.badUnits unit }
    | _, _ => s

/-- The `.add` of SCATA for an element format (R329): operation of R263 and width. -/
def scatterOp (fmt : Nat) : Nat × Nat :=
  match fmt with
  | 6 => (12, 32)
  | 7 => (15, 16)
  | 8 => (16, 16)
  | _ => (0, 32)

/-- Row k of a SCATA: one add per element, at the line's home or at the peer that holds the row. -/
def State.scataRow (s : State) (t k : Nat) : State :=
  match Map.find? s.threads t with
  | none => s
  | some th =>
    match th.cmd, s.launch? th.launch with
    | .scata td core src idx _ stride, some l =>
      let d := Desc.of td
      let (op, w) := scatterOp d.fmt
      let n := w / 8
      let rd (off len : Nat) : Option (Nat × Bool) :=
        if s.inSlice th.launch core off len < len then none
        else (allSome ((List.range len).map fun i => engByte s th l (.scr core off) i)).map fun xs =>
          (leNat (xs.map Prod.fst), xs.any fun (x : Byte × Bool) => x.2)
      let s := (s.markRead t (spansOf th l (.scr core (idx + 4 * k)) 4
        ++ spansOf th l (.scr core (src + k * stride)) (n * d.extent 0))).modThread t fun th =>
          { th with done := Nats.ins th.done k }
      match rd (idx + 4 * k) 4, rd (src + k * stride) (n * d.extent 0) with
      | some (row, bad), some (x, bad') =>
        if d.extent 1 ≤ row || bad || bad' then s.threadErr t
        else (List.range (d.extent 0)).foldl (fun s j =>
          let va := d.elemVa [j, row, 0, 0]
          let v := x / 2 ^ (w * j) % 2 ^ w
          if l.pinned va && kindOf (l.phys va) == .peer then
            match (if s.noPlane then none else remoteAt s l true va) with
            | some (dev, xidx, off) =>
              (s.send [.request dev t xidx off (.atomic op n v 0)]).modThread t fun th => { th with asked := th.asked + 1 }
            | none => s.threadErr t
          else if engRefused s l true va then s.threadErr t
          else
            let pa := l.phys va
            let a : Stamp := { id := s.nextWrite, maker := .copier, rmw := true, tight := true }
            (({ s with nextWrite := s.nextWrite + 1 }.writeAs a pa
              (leBytes n (atomOp op w (leNat (s.physBytes pa n)) v 0)) false false)).threadMade t [s.nextWrite]) s
      | _, _ => s.threadErr t
    | _, _ => s

/-- CPYC's commit (R325, R423): all its bytes and the new version, or nothing. -/
def State.commitThread (s : State) (t : Nat) : State :=
  match Map.find? s.threads t with
  | none => s
  | some th =>
    match th.cmd, s.launch? th.launch with
    | .commit core src bytes dst ver expected, some l =>
      let data := (List.range bytes).map fun i => engByte s th l (.scr core src) i
      let old := (List.range 8).map fun i =>
        if engRefused s l false (ver + i) then none
        else some (Memory.read s.mem (l.phys (ver + i)), s.badByte (l.phys (ver + i)))
      let dstBad := (List.range bytes).any fun i => engRefused s l true (dst + i)
      match allSome data, allSome old with
      | some xs, some vs =>
        let s := s.markRead t (spansOf th l (.scr core src) bytes)
        let s := s.threadMet t ((s.readBehind .mem (l.phys ver) 8 [] noOwn).srcs.map Prod.fst)
        if dstBad || engRefused s l true ver || (xs ++ vs).any (fun (x : Byte × Bool) => x.2) then s.threadErr t
        else if leNat (vs.map Prod.fst) = expected then
          let s := (linesOf dst bytes).foldl (fun s ln =>
            let a := max dst (128 * ln)
            let b := min (dst + bytes) (128 * (ln + 1))
            (s.writeBy .copier (l.phys a) (((xs.map Prod.fst).drop (a - dst)).take (b - a)) false false).threadMade t
              [s.nextWrite]) s
          let th := (Map.find? s.threads t).getD th
          let s := s.completeHost th.vis
          let w : Stamp :=
            { id := s.nextWrite, maker := .copier, rmw := true, tight := true, rels := [th.rel (th.vis ++ th.met)] }
          ({ s with nextWrite := s.nextWrite + 1 }.writeAs w (l.phys ver) (leBytes 8 (expected + 1)) false false).threadMade t
            [s.nextWrite]
        else s.threadBar th Tb.setFail []
      | _, _ => s.threadErr t
    | _, _ => s

/-- Places of the poisoned bytes of a list. -/
def poisonedAt (bs : List (Byte × Bool)) : List Nat :=
  (List.range bs.length).filter fun i => (bs.getD i (0, false)).2

/-- Packet k of an FPUT: it is read from the slice and sent (R333, R349). A poisoned source, a refused line and a fabric
with no plane are errors (R349, R417, R422). -/
def State.fputPacket (s : State) (t k : Nat) : State :=
  match Map.find? s.threads t with
  | none => s
  | some th =>
    match th.cmd, s.launch? th.launch with
    | .fput va core src bytes rbar, some l =>
      let n := min 4096 (bytes - 4096 * k)
      let bar := if rbar = 0 then none else remoteAt s l true rbar
      let data (off n : Nat) : List (Byte × Bool) :=
        (List.range n).map fun i => (engByte s th l (.scr core (src + off)) i).getD (0, false)
      let r := s.route l true va (packetPieces va bytes k)
      let out := r.1.map fun (x : Nat × List ((Nat × Nat × Nat) × Nat)) =>
        let bs := x.2.flatMap fun p => data p.2 p.1.2.2
        Packet.bulk x.1 t (s.planeOf th.core t k) (x.2.map Prod.fst) (bs.map Prod.fst) (poisonedAt bs) bar
      let s := (s.markRead t (spansOf th l (.scr core (src + 4096 * k)) n)).modThread t fun th =>
        { th with done := Nats.ins th.done k, asked := th.asked + out.length }
      let err := (data (4096 * k) n).any (fun x => x.2) || !r.2.isEmpty || (rbar != 0 && bar.isNone)
      let s := if err then s.threadErr t else s
      s.send out
    | _, _ => s

/-- Units of a thread that land one by one. -/
def Thread.units (s : State) (th : Thread) : Nat :=
  match th.cmd with
  | .wload _ _ _ bytes => bytes / 128
  | .scata _ _ _ _ rows _ => rows
  | .fput _ _ _ bytes _ => ceilDiv bytes 4096
  | .mmas _ _ _ n _ _ _ sn => 64 * (n + sn)
  | .fget .. | .post .. | .commit .. | .heldStores .. | .heldAlloc .. | .heldFree .. => 0
  | _ => (th.image s).lines.length

/-- One byte that an MMAS thread reads (R317): the columns of B in order, then their scales. -/
def State.mmasByte (s : State) (t i : Nat) : State :=
  match Map.find? s.threads t with
  | none => s
  | some th =>
    match th.cmd with
    | .mmas core b stride n sCore scales sStride sn =>
      let j := i - 64 * n
      let (c, off) := if i < 64 * n then (core, b + i / n * stride + i % n)
        else (sCore, scales + j / sn * sStride + j % sn)
      match s.ctx? th.launch c with
      | some cx =>
        let x := s.threadByte th (.scr th.launch c) off
        let s := (s.markRead t [⟨.scr th.launch c, off, 1⟩])
        let s := if cx.bad.contains (granule off) then s.threadErr t else s
        s.modThread t fun th => { th with captured := Map.ins th.captured i x, done := Nats.ins th.done i }
      | none => s
    | _ => s

/-- Unit k of a thread lands. -/
def State.landUnit (s : State) (t k : Nat) : State :=
  match Map.find? s.threads t with
  | none => s
  | some th =>
    match th.cmd with
    | .wload .. => s.wloadUnit t k
    | .scata .. => s.scataRow t k
    | .fput .. => s.fputPacket t k
    | .mmas .. => s.mmasByte t k
    | _ => s.landLine t k

/-- Units that have not landed yet, in order. -/
def State.landUnits (s : State) (t : Nat) : State :=
  match Map.find? s.threads t with
  | none => s
  | some th => ((List.range (th.units s)).filter fun k => !th.done.contains k).foldl (fun s k => s.landUnit t k) s

end Sys2Proof.Machine
end

