-- ==== Sys2Proof/Machine/Fabric.lean ====
section
/-!
DEFINITION. The fabric words (R330 to R334): per-lane accesses to a peer and bulk transfers. What the fabric answers is
in the events of Machine/FabricEvents.lean.
-/

namespace Sys2Proof.Machine

open Sys2Proof

/-- What refuses a peer access: it must be aligned and translate into the peer window through a valid import (R330,
R348, R416). -/
def peerProb (s : State) (it : Iss) (write : Bool) (va n : Nat) : Option Prob :=
  if 2 ^ 56 ≤ va || va % n != 0 then some .c31
  else if !it.l.pinned va then some .out
  else if (s.importAt (it.l.phys va)).isNone || (write && !it.l.writable va) then some .c31
  else none

/-- The timeout of an access issued now (R331, R350). -/
def State.ftLimit (s : State) : Nat := max 1000 s.regs.ftlimit

/-- Send one access to the peer, and keep what its answer needs. With no plane nothing is sent, and a returning access
times out (R349). -/
def State.askPeer (s : State) (it : Iss) (x : XMem) (pend : Nat) (a : Acc) (bytes : Nat) (regs : List RegId)
    (signed returns : Bool) (op : PeerOp) : State :=
  let va := a.addr
  match s.importAt (it.l.phys va) with
  | none => s
  | some (dev, xidx, off) =>
    let id := s.nextId
    let die := dieOf it.g.core
    let r : FabReq :=
      { group := it.key, split := it.j, pend := pend, regs := regs, bytes := bytes, signed := signed, returns := returns,
        writes := (match op with | .read _ => false | _ => true), acq := acqObs x.ord x.obs,
        strong := Order.strongly x.ord, lanes := a.lanes,
        issued := (s.die die).wall, limit := s.ftLimit, die := die,
        pc := it.sp.pc, pa := it.l.phys va, sent := !s.noPlane }
    { s with fabReqs := Map.ins s.fabReqs id r, nextId := id + 1,
             fabricOut := s.fabricOut ++ if s.noPlane then [] else [.request dev id xidx off op] }

/-- A returning peer word: one outstanding result that waits for every lane's answer (R199, R331). -/
def State.askAll (s : State) (it : Iss) (x : XMem) (la n : Nat) (signed : Bool) (accs : List Acc)
    (regs : Acc → List RegId) (op : Acc → PeerOp) : State :=
  let pend := s.nextId
  let s := { s with nextId := pend + 1 }
  let first := s.nextId
  let s := accs.foldl (fun s a => s.askPeer it x pend a n (regs a) signed true (op a)) s
  let waits := (List.range (s.nextId - first)).map fun i => first + i
  s.modSplit it.key it.j fun sp =>
    { sp with pend := sp.pend ++ [{ id := pend, writes := [], flags := {}, fto := false, left := la, waits := waits }] }

/-- Peer writes: with no ready plane they only set FTO (R349). -/
def State.tellAll (s : State) (it : Iss) (x : XMem) (n : Nat) (accs : List Acc) (op : Acc → PeerOp) : State :=
  if accs.isEmpty then s
  else if s.noPlane then s.modGroup it.key fun g => { g with fto := true, ftoNow := true }
  else accs.foldl (fun s a => s.askPeer it x 0 a n [] false false (op a)) s

/-- A word that writes at a peer releases what its lanes see (R121, R129): Host writes that it carries with h complete
first, and an acquire that reads the place takes its releases. Log 29: DEDUCED, unsafe. -/
def State.peerReleases (s : State) (it : Iss) (x : XMem) (accs : List Acc) : State :=
  accs.foldl (fun s a =>
    let r := s.released it.key a.lanes (relObs x.ord x.obs) (Order.strongly x.ord)
    if r.2.isEmpty then r.1
    else
      let pa := it.l.phys a.addr
      r.1.setCounted .mem pa ((r.1.tbCounted .mem pa).count r.2 true)) s

/-- A per-lane peer word up to its accesses (R296, R330). -/
def peerWord (i : Instr) (w : FWord XMem) (write inRegion : Bool) (addr : State → Iss → Nat → Nat) (perLane : Bool)
    (k : State → Iss → Mask → List Acc → Eff) (s : State) : Host.Outcome State Fault Refusal :=
  issue i s fun s it =>
    let m := it.exec w.p
    let accs := accesses it m perLane (addr s it)
    if m = 0 then .ok s none
    else if !inRegion && s.inRegion it.key then .trap (it.trapOpen s 0x31 m)
    else match probEff it m (encode i) (accs.map fun a => (a, peerProb s it write a.addr (widthBytes w.x.w))) with
      | some e => e
      | none => k s it m accs

/-- Whether a width is sign-extended (R192). -/
def widthSigned : Width → Bool
  | .i8 | .i16 => true
  | _ => false

/-- FLD (R330, R331). -/
def execFld (w : FWord XMem) (s : State) : Host.Outcome State Fault Refusal :=
  let perLane := memVec w.d w.a w.b
  let n := widthBytes w.x.w
  peerWord (.fld w) w false true (fun s it => gAddr s it w.a w.b) perLane (fun s it m accs =>
    .ok (s.askAll it w.x w.la n (widthSigned w.x.w) accs (resultRegs w.d (Width.regs w.x.w) m perLane) fun _ => .read n)
      none) s

/-- FST (R330). -/
def execFst (w : FWord XMem) (s : State) : Host.Outcome State Fault Refusal :=
  let n := widthBytes w.x.w
  peerWord (.fst w) w true false (fun s it => gAddr s it w.a w.b) (memVec w.d w.a w.b) (fun s it _ accs =>
    let r := Width.regs w.x.w
    .ok ((s.peerReleases it w.x accs).tellAll it w.x n accs fun a =>
      (if it.dataBad w.d r a.lane then PeerOp.spoil else PeerOp.write) (leBytes n (dataVal it w.d r a.lane))) none) s

/-- What an atomic asks of the peer (R263, R332). -/
def peerAtomic (w : FWord XMem) (it : Iss) (n : Nat) (a : Acc) : PeerOp :=
  let x := atomArgs w it n a.lane
  .atomic (atomCode w) n x.1 x.2

/-- FATOM (R332). -/
def execFatom (w : FWord XMem) (s : State) : Host.Outcome State Fault Refusal :=
  let perLane := memVec w.d w.a (.imm 0)
  let n := widthBytes w.x.w
  peerWord (.fatom w) w true false (fun s it l => srcVal s it .n64 w.a l) perLane (fun s it m accs =>
    .ok ((s.peerReleases it w.x accs).askAll it w.x w.la n false accs (resultRegs w.d (n / 4) m perLane)
      (peerAtomic w it n)) none) s

/-- FATOMN (R332). -/
def execFatomn (w : FWord XMem) (s : State) : Host.Outcome State Fault Refusal :=
  let n := widthBytes w.x.w
  peerWord (.fatomn w) w true false (fun s it l => srcVal s it .n64 w.a l) (memVec w.d w.a (.imm 0)) (fun s it _ accs =>
    .ok ((s.peerReleases it w.x accs).tellAll it w.x n accs (peerAtomic w it n)) none) s

/-! ### Bulk transfers (R333) -/

/-- Whether an n64 names no peer-window address through a valid import. Where its page lies outside the pins, the thread
finds that when it reaches the line (R417). -/
def remoteBad (s : State) (it : Iss) (va : Nat) : Bool :=
  decide (2 ^ 56 ≤ va) || (it.l.pinned va && (s.importAt (it.l.phys va)).isNone)

/-- FPUT (R333). -/
def execFput (w : FWord Unit) (s : State) : Host.Outcome State Fault Refusal :=
  engineWord (.fput w) w.p false (fun s it m =>
    localBar s it m w.d fun bar =>
      let va := it.block64 w.a 0
      let src := it.block w.a 2
      let bytes := it.block w.a 3
      let rbar := it.block64 w.a 4
      match blockProb it m
        [(0, remoteBad s it va), (2, placeBad s it false 1 src), (3, bytes = 0 || 2 ^ 24 < bytes),
         (4, rbar != 0 && (rbar % 16 != 0 || remoteBad s it rbar)), (3, pastSlice s it src bytes)] with
      | some e => e
      | none =>
        .ok (s.startEngine it (.fput va it.g.core src bytes rbar) bar) none) s

/-- FGET (R333). -/
def execFget (w : FWord Unit) (s : State) : Host.Outcome State Fault Refusal :=
  engineWord (.fget w) w.p true (fun s it m =>
    localBar s it m w.d fun bar =>
      let va := it.block64 w.a 0
      let dst := it.block w.a 2
      let bytes := it.block w.a 3
      match blockProb it m
        [(0, remoteBad s it va), (2, placeBad s it false 1 dst), (3, bytes = 0 || 2 ^ 24 < bytes),
         (4, it.block w.a 4 != 0), (5, it.block w.a 5 != 0), (3, pastSlice s it dst bytes)] with
      | some e => e
      | none => .ok (s.startEngine it (.fget va it.g.core dst bytes) bar) none) s

end Sys2Proof.Machine
end

