-- ==== Sys2Proof/Machine/Control.lean ====
section
/-!
DEFINITION. The C words (R281 to R294) and SIGCHK (R308): branches, calls, divergence, leaving, trapping, resuming.
CONTAIN and UNCONTAIN are in Machine/Contain.lean.
-/

namespace Sys2Proof.Machine

open Sys2Proof

/-- An address by its displacement in words from the next word (R196). -/
def Iss.target (it : Iss) (disp : Int) : Dword := it.sp.pc + 8 + 8 * BitVec.ofInt 64 disp

/-- BRA (R283). -/
def execBra (c : CCond) (disp : Int) (s : State) : Host.Outcome State Fault Refusal :=
  issue (.bra c disp) s fun s it => .ok s (if it.holds c then some (it.target disp) else none)

/-- Write an n64 to the pair sn, sn+1. -/
def State.writePair (s : State) (it : Iss) (n : Nat) (x : Dword) : State :=
  s.writeNow it [(.s n, x.setWidth 32), (.s (n + 1), (x >>> 32).setWidth 32)] {}

/-- CALL (R284). -/
def execCall (c : CCond) (link : Nat) (disp : Int) (s : State) : Host.Outcome State Fault Refusal :=
  issue (.call c link disp) s fun s it =>
    if it.holds c then .ok (s.writePair it link it.nextPc) (some (it.target disp)) else .ok s none

/-- The effect RET and JMPS share (R285). -/
def jumpReg (c : CCond) (r : Nat) (s : State) (it : Iss) : Eff :=
  if it.holds c then
    let x := it.g.readS64 r
    if x >>> 57 != 0 then .trap (it.trapWord 0x31 it.sp.mask x.toNat) else .ok s (some (x &&& ~~~(7 : Dword)))
  else .ok s none

/-- RET (R285). -/
def execRet (c : CCond) (r : Nat) (s : State) : Host.Outcome State Fault Refusal := issue (.ret c r) s (jumpReg c r)

/-- JMPS (R285). -/
def execJmps (c : CCond) (r : Nat) (s : State) : Host.Outcome State Fault Refusal := issue (.jmps c r) s (jumpReg c r)

/-- LOOP (R286): the counter falls by one, and the branch is taken while it is not zero. -/
def execLoop (r : Nat) (disp : Int) (s : State) : Host.Outcome State Fault Refusal :=
  issue (.loop r disp) s fun s it =>
    let x := it.g.readS r - 1
    .ok (s.writeNow it [(.s r, x)] {}) (if x = 0 then none else some (it.target disp))

/-! ### Divergence (R35, R287 to R290) -/

/-- The index snapshot after a serialised divergence (R34): that of the lanes of a mask is new, where it is a JTAB's. -/
def keepIndices (m : Mask) (old new : List Nat) : List Nat :=
  if new.isEmpty then old else lanes.map fun l => if m.getLsbD l then new.getD l 0 else old.getD l 0

/-- What a divergence with more than one path leads to: a serial record for a busy split or, for SPLIT, when no entry
is Free; else the first path for the split itself, Free entries for the next ones and Pending for the rest (R35, R287).
The event has been folded into `g`'s split j; `first` is its lane set. Log 7: DEDUCED, unsafe. -/
def Group.divide (g : Group) (j : Nat) (join : Dword) (first : Mask) (rest : List (Dword × Mask)) (serial : Bool)
    (snapshot : List Nat) : Group :=
  let sp := g.split j
  let pend := rest.foldl (fun m x => m ||| x.2) (0 : Mask)
  if serial then
    { g.modSplit j (fun sp => { sp with mask := first, pending := sp.pending ||| pend, st := .serial,
                                        snapshot := keepIndices sp.mask sp.snapshot snapshot }) with
        stack := g.stack ++ [⟨j, join, sp.mask, rest, g.seen, 0⟩] }
  else
    let g := g.modSplit j fun sp =>
      { sp with mask := first, join := join, full := sp.mask, formed := 0, paths := rest, pending := pend, pathCc := sp.cc,
                pathSig := sp.sig, st := .serial, snapshot := snapshot, before := g.seen }
    let g := Group.fill 4 g j
    if (g.split j).paths.isEmpty then g.modSplit j fun sp => { sp with snapshot := [] } else g

/-- Fold an event into a split's signature. Log 7: DEDUCED, unsafe. -/
def Group.fold (g : Group) (j : Nat) (f : Word → Word) : Group := g.modSplit j fun sp => { sp with sig := f sp.sig }

/-- SPLIT (R289). -/
def execSplit (sense : Bool) (n : Nat) (els join : Int) (s : State) : Host.Outcome State Fault Refusal :=
  issue (.split sense n els join) s fun s it =>
    let m := it.sp.mask
    let sel := if sense then it.g.readM it.sp n else ~~~it.g.readM it.sp n
    let tm := m &&& sel
    let em := m &&& ~~~sel
    if em = 0 then .ok s none
    else if tm = 0 then .ok s (some (it.target els))
    else
      let serial := it.g.busy it.j || it.g.freeEntry.isNone
      if serial && it.g.stack.length == 16 then .trap (it.trapWord 0x61 m 1)
      else
        .ok (s.modGroup it.key fun g =>
          (g.fold it.j foldSplit).divide it.j (it.target join) tm [(it.target els, em)] serial []) none

/-- What a table word read through the fetch brings (R290, R405). -/
def jtabBad (s : State) (it : Iss) (va : Nat) : Fetch → Option Eff
  | .word _ => none
  | .ports ps => some (.park s (.ports ps))
  | .cause31 => some (.trap (it.trapWord 0x31 it.sp.mask va))
  | .outside => some (.outside (lowest it.sp.mask) va)
  | .poison pa => some (.poison pa)

/-- Value n of a JTAB table at `tb`, as fetched, and the address it stands for. -/
def jtabRead (s : State) (it : Iss) (tb : Dword) (n : Nat) : Fetch := s.fetchBytes it.l (tb.toNat + 4 * n) 4
def jtabAddr (tb : Dword) : Fetch → Dword
  | .word x => tb + 8 * BitVec.ofInt 64 (sext 32 x)
  | _ => 0

/-- Distinct addresses with their lanes, in the order they are first met. -/
def gather : List (Dword × Mask) → Dword → Mask → List (Dword × Mask)
  | [], a, m => [(a, m)]
  | (b, n) :: l, a, m => if b = a then (b, n ||| m) :: l else (b, n) :: gather l a m

/-- The paths of a JTAB by ascending index: equal addresses form one path, keyed by the lowest index (R290). -/
def jtabPaths (idx : Nat → Nat) (len : Nat) (addr : Nat → Dword) (m : Mask) : List (Dword × Mask) :=
  (List.range len).foldl (fun ps x =>
    let ls := m &&& maskOf fun l => idx l == x
    if ls = 0 then ps else gather ps (addr x) ls) []

/-- JTAB (R290). -/
def execJtab (x len : Nat) (disp : Int) (s : State) : Host.Outcome State Fault Refusal :=
  issue (.jtab x len disp) s fun s it =>
    let m := it.sp.mask
    let tb := it.target disp
    let idx (l : Nat) := (it.g.readV x l).toNat
    match (lanesOf m).find? fun l => decide (len ≤ idx l) with
    | some l => .trap { it.trapWord 0x10 m (idx l) with lane := l }
    | none =>
      let used := ((List.range len).filter fun n => (lanesOf m).any fun l => idx l == n) ++ [len]
      match used.findSome? fun n => jtabBad s it (tb.toNat + 4 * n) (jtabRead s it tb n) with
      | some e => e
      | none =>
        let paths := jtabPaths idx len (fun n => jtabAddr tb (jtabRead s it tb n)) m
        let join := jtabAddr tb (jtabRead s it tb len)
        let fold (g : Group) := (g.fold it.j fun c => foldJtab c paths.length).modSplit it.j fun sp =>
          { sp with stall := 8 + paths.length }
        match paths with
        | [] => .ok s none
        | [(pc, _)] => .ok (s.modGroup it.key fold) (some pc)
        | (pc, ls) :: rest =>
          if it.g.busy it.j && it.g.stack.length == 16 then .trap (it.trapWord 0x61 m 1)
          else .ok (s.modGroup it.key fun g =>
            (fold g).divide it.j join ls rest (it.g.busy it.j) (lanes.map idx)) (some pc)

/-! ### Leaving, trapping and resuming (R291, R292, R294) -/

/-- EXIT (R291). -/
def execExit (c : CCond) (s : State) : Host.Outcome State Fault Refusal :=
  issue (.exit c) s fun s it => if it.holds c then .ok (s.leaveLanes it.key it.sp.mask) none else .ok s none

/-- TRAP (R292). -/
def execTrap (c : CCond) (code : Nat) (s : State) : Host.Outcome State Fault Refusal :=
  issue (.trap c code) s fun s it =>
    if it.holds c then .trap { it.trapWord 0x90 it.sp.mask code with pc := it.nextPc } else .ok s none

/-- n bytes of the handler scratchpad as a number (R399). -/
def Ctx.hWord (c : Ctx) (off n : Nat) : Nat := leNat ((List.range n).map fun i => Map.get c.hscr 0 (off + i))

/-- The handler group parks: its split table holds no split until the next delivery, 4 cycles later or more (R294, R399,
R402). -/
def Group.parkHandler (g : Group) : Group := { g with splits := g.splits.map fun _ => { stall := 4 }, stack := [] }

/-- RFT (R294): a release by the handler's lanes, then the trapped split goes on under the record's resume PC and
resume mask. -/
def execRft (s : State) : Host.Outcome State Fault Refusal :=
  issue .rft s fun s it =>
    if !it.g.handler then .trap (it.trapOpen s 0x31 it.sp.mask)
    else if it.g.liveSplits.length != 1 then .trap (it.trapWord 0x61 it.sp.mask 2)
    else
      let s := s.drain it.key
      let s := s.modGroup it.key Group.parkHandler
      .ok (s.trapReturn it.g.launch it.g.core (BitVec.ofNat 64 (it.c.hWord 8 8)) (BitVec.ofNat 32 (it.c.hWord 20 4)))
        (some 0)

/-- SIGCHK (R308): it folds nothing and compares the signature as it stood before the word. -/
def execSigchk (imm : Nat) (s : State) : Host.Outcome State Fault Refusal :=
  issueAs (.sigchk imm) false s fun s it =>
    if it.sp.sig.toNat = imm then .ok s none
    else .trap { it.trapWord 0x60 it.sp.mask it.sp.sig.toNat with pc := it.nextPc }

end Sys2Proof.Machine
end

