-- ==== Sys2Proof/Machine/Parcels.lean ====
section
/-!
DEFINITION. The parcel words (R335 to R340).
-/

namespace Sys2Proof.Machine

open Sys2Proof

/-- A parcel word's handle: cause 0x42 where it is not live, 0x40 where its slot is locked and the word needs it unlocked
(R134, R137), the end of the team where its slot's state word lies outside the pins (R132, R415).
Log 12: DEDUCED, unsafe. -/
def withHandle (s : State) (it : Iss) (m : Mask) (a : Src) (unlocked : Bool) (k : Handle → ArenaEntry → Slot → Eff) : Eff :=
  let x := it.pair a
  let h := Handle.of x
  let e := s.arena h.arena
  let sl := s.slot h.arena h.index
  if !s.liveHandle h then .trap (it.trapWord 0x42 m x)
  else if unlocked && sl.locked then .trap (it.trapWord 0x40 m x)
  else if !it.l.pinned (e.sstate + 8 * h.index) then .outside (lowest m) (e.sstate + 8 * h.index)
  else k h e sl

/-- A scalar parcel word: nothing where its mask is empty. -/
def parcelWord (i : Instr) (p : Pred) (k : State → Iss → Mask → Eff) (s : State) : Host.Outcome State Fault Refusal :=
  issue i s fun s it =>
    let m := it.exec p
    if m = 0 then .ok s none else k s it m

/-! ### Allocation (R336) -/

/-- The lowest FREE slot of an arena. -/
def State.freeSlot (s : State) (a : Nat) : Option Nat :=
  (List.range (s.arena a).slots).find? fun i => (s.slot a i).free

/-- Zero a parcel's lines (R136, step 1). -/
def State.zeroLines (s : State) (l : Launch) (va lines : Nat) : State :=
  (List.range lines).foldl (fun s i => s.writePhys (l.phys (va + 128 * i)) (List.replicate 128 0) false false) s

/-- Step 1 of R136: the slot is AT-REST, its contents and tags zero. -/
def State.allocSlot (s : State) (l : Launch) (a i len : Nat) : State :=
  (s.zeroLines l ((s.arena a).slotVa i) len).modSlot a i fun x => { x with st := 1, cause := 0, len := len }

/-- The handle and the flags an allocation gives. -/
def allocResult (s : State) (a len : Nat) (l : Launch) : State × Nat × FlagUpd :=
  match s.freeSlot a with
  | some i =>
    (s.allocSlot l a i len, Handle.toNat ⟨s.regs.devno, a, i, (s.slot a i).gen⟩, FlagUpd.test true)
  | none => (s, 0, FlagUpd.test false)

/-- PALLOC: inside a region it takes a table entry and is performed at the commit (R296). -/
def execPalloc (w : FWord Unit) (s : State) : Host.Outcome State Fault Refusal :=
  parcelWord (.palloc w) w.p (fun s it m =>
    let a := it.scalar w.a
    let len := it.scalar w.b
    let e := s.arena a
    if 128 ≤ a || !e.valid || e.inbox || len = 0 || 2 ^ 19 < len || e.slotBytes < 128 * len then
      .trap (it.trapOpen s 0x31 m)
    else if !it.l.pinned e.sstate then .outside (lowest m) e.sstate
    else if s.inRegion it.key then
      match w.d with
      | .s n =>
        let t := s.nextId
        let s := { s with nextId := t + 1 }
        let pend := t
        let s := s.modSplit it.key it.j fun sp =>
          { sp with pend := sp.pend ++ [{ id := pend, writes := [], flags := {}, fto := false, left := w.la,
                                          waits := [s.nextId] }] }
        .ok (s.startEngine it (.heldAlloc a len it.j pend n) none) none
      | _ => .ok s none
    else
      match s.freeSlot a with
      | some i =>
        let va := e.slotVa i
        match (pagesOf va (128 * len)).find? fun p => !it.l.pinned p with
        | some p => .outside (lowest m) p
        | none =>
          let r := allocResult (s.drainSlot it.l a i) a len it.l
          .ok (r.1.writeLater it w.la (pairWrites w.d r.2.1) r.2.2) none
      | none => .ok (s.writeLater it w.la (pairWrites w.d 0) (FlagUpd.test false)) none) s

/-! ### PFREE, PADDR, PSTAT (R337) -/

/-- PFREE: inside a region it is held (R296). -/
def execPfree (w : FWord Unit) (s : State) : Host.Outcome State Fault Refusal :=
  parcelWord (.pfree w) w.p (fun s it m =>
    withHandle s it m w.a true fun h _ _ =>
      if s.inRegion it.key then .ok (s.startEngine it (.heldFree h.toNat) none) none
      else .ok ((s.drainSlot it.l h.arena h.index).modSlot h.arena h.index Slot.release) none) s

/-- PADDR. -/
def execPaddr (w : FWord Unit) (s : State) : Host.Outcome State Fault Refusal :=
  parcelWord (.paddr w) w.p (fun s it m =>
    withHandle s it m w.a true fun h e _ => .ok (s.writeNow it (pairWrites w.d (e.slotVa h.index)) {}) none) s

/-- PSTAT. -/
def execPstat (w : FWord Unit) (s : State) : Host.Outcome State Fault Refusal :=
  parcelWord (.pstat w) w.p (fun s it m =>
    withHandle s it m w.a false fun _ _ sl => .ok (s.writeLater it w.la (pairWrites w.d sl.word) {}) none) s

/-! ### Access through a handle (R338) -/

/-- Accesses of LDP, STP and STPR: offsets from the slot's start (R335, R338). -/
def parcelAccs (s : State) (it : Iss) (m : Mask) (w : FWord XMem) (base : Nat) : List Acc :=
  accesses it m (w.d.isVec || w.b.isVec) fun l => base + src32 s it w.b l

/-- The shared checks of LDP, STP and STPR: the handle, alignment, the parcel's length, for STPR its reference, then the
pages. `k` gets the accesses at their virtual addresses. -/
def parcelEff (i : Instr) (w : FWord XMem) (write ref : Bool) (k : State → Iss → Mask → List Acc → Eff) (s : State)
    (it : Iss) : Eff :=
  let m := it.exec w.p
  if m = 0 then .ok s none
  else
    withHandle s it m w.a true fun h e sl =>
      let n := widthBytes w.x.w
      let base := e.slotVa h.index
      let accs := parcelAccs s it m w base
      let beyond (a : Acc) : Bool := decide (sl.len * 128 < a.addr - base + n)
        || (ref && decide (sl.len * 128 ≤ dataVal it w.d 1 a.lane))
      match accs.find? fun a => a.addr % n != 0 with
      | some a => .trap { it.trapWord 0x31 m a.addr with lane := a.lane }
      | none =>
        match accs.find? beyond with
        | some a => .trap { it.trapWord 0x41 m (it.pair w.a) with lane := a.lane }
        | none =>
          match probEff it m (encode i) (accs.map fun a => (a, transProb s it.l write a.addr n)) with
          | some eff => eff
          | none => k s it m accs

/-- A word that accesses a parcel through its handle. -/
def parcelAccess (i : Instr) (w : FWord XMem) (write ref : Bool) (k : State → Iss → Mask → List Acc → Eff) (s : State) :
    Host.Outcome State Fault Refusal := issue i s (parcelEff i w write ref k)

/-- What LDP does. -/
def ldpEff (w : FWord XMem) : State → Iss → Eff :=
  parcelEff (.ldp w) w false false fun s it m accs =>
    let n := widthBytes w.x.w
    let s := s.comeAfterAll it.key (accs.map fun a => (a.lanes, globalPlaces it a.addr n))
    let got (a : Acc) : Got := s.vGot it a (Order.strongly w.x.ord) n
    loadEnd s it (.ldp w) m accs n w.la w.x got fun accs =>
      loadWrites w.d (Width.regs w.x.w) m (w.d.isVec || w.b.isVec) (accs.map fun a =>
        (a.lane, widthExtend w.x.w (got a).nat))

/-- LDP. -/
def execLdp (w : FWord XMem) (s : State) : Host.Outcome State Fault Refusal := issue (.ldp w) s (ldpEff w)

/-- The stores of STP and STPR: held inside a region (R296), else issued with their tag (R135). -/
def State.parcelStores (s : State) (it : Iss) (w : FWord XMem) (tag : Bool) (accs : List Acc) : State :=
  let bytes (a : Acc) : List Byte := leBytes (widthBytes w.x.w) (dataVal it w.d (Width.regs w.x.w) a.lane)
  let bad (a : Acc) : Bool := it.dataBad w.d (Width.regs w.x.w) a.lane
  if s.inRegion it.key then
    s.startEngine it (.heldStores (accs.flatMap fun a =>
      (atomicParts a.addr (bytes a).length).map fun (p : Nat × Nat) =>
        { group := it.key, lanes := a.lanes, addr := a.addr + p.1, data := ((bytes a).drop p.1).take p.2, tag := tag,
          word := s.free, rels := s.accRels it w.x a.lanes, bad := bad a })) none
  else
    accs.foldl (fun s a => s.vWrite it a.lanes a.addr (bytes a) tag (bad a) (s.accRels it w.x a.lanes)) s

/-- STP. -/
def execStp (w : FWord XMem) (s : State) : Host.Outcome State Fault Refusal :=
  parcelAccess (.stp w) w true false (fun s it _ accs => .ok (s.parcelStores it w false accs) none) s

/-- STPR. -/
def execStpr (w : FWord XMem) (s : State) : Host.Outcome State Fault Refusal :=
  parcelAccess (.stpr w) w true true (fun s it _ accs => .ok (s.parcelStores it w true accs) none) s

/-! ### POST and PRECV (R339, R340) -/

/-- The release that a POST is (R139): every class but h as its word says, f added, and both classes of its acquire f. -/
def State.postRel (s : State) (it : Iss) (m : Obs) : Rel :=
  let n : Obs := { m with f := true }
  match s.group? it.key with
  | some g => { maker := .fabric, mask := n, writes := s.carried g it.sp.mask n }
  | none => { maker := .fabric, mask := n, writes := [] }

/-- POST: a release, the lock of step 3, and the transit thread (R136, R138, R139). -/
def execPost (w : FWord XMem) (s : State) : Host.Outcome State Fault Refusal :=
  engineWord (.post w) w.p false (fun s it m =>
    localBar s it m w.d fun bar =>
      withHandle s it m w.a true fun h _ _ =>
        let b := it.scalar w.b
        if bits b 15 9 != 0 || bits b 31 19 != 0 then .trap (it.trapOpen s 0x31 m)
        else
          let rel := s.postRel it w.x.obs
          let s := { s.drainIds rel.writes with handleRels := Map.ins s.handleRels h.toNat rel }
          let s := s.startEngine it (.post h.arena h.index (bits b 8 0) (bits b 18 16) none) bar
          .ok ((s.drainSlot it.l h.arena h.index).modSlot h.arena h.index fun x => { x with st := 2, cause := 0 }) none) s

/-- A popped handle is an acquire with f of its parcel's POST (R139). -/
def State.popped (s : State) (it : Iss) (m : Obs) (h : Nat) : State :=
  match Map.find? s.handleRels h with
  | some r => ({ s with handleRels := Map.del s.handleRels h }).acquired it.key it.sp.mask { m with f := true } [r]
  | none => s

/-- PRECV: it pops the oldest handle of the inbox (R139). -/
def execPrecv (w : FWord XMem) (s : State) : Host.Outcome State Fault Refusal :=
  parcelWord (.precv w) w.p (fun s it m =>
    let n := it.scalar w.b
    if 7 < n then .trap (it.trapOpen s 0x31 m)
    else match (if (s.inboxArena n).isSome then Map.get s.inboxes [] n else []) with
      | h :: rest =>
        let s := { s with inboxes := Map.put s.inboxes [] n rest }.popped it w.x.obs h
        .ok (s.writeLater it w.la (pairWrites w.d h) (FlagUpd.test true)) none
      | [] => .ok (s.writeLater it w.la (pairWrites w.d 0) (FlagUpd.test false)) none) s

/-! ### Late reads (R120) -/

/-- What a load does, as its word saw it. -/
def lateEff (s : State) (it : Iss) : Instr → Option Eff
  | .ld w => some (loadEff (.ld w) w (memVec w.d w.a w.b) s it)
  | .ldu w => some (loadEff (.ldu w) w false s it)
  | .lds w => some (ldsEff w s it)
  | .ldt w => some (ldtEff w s it)
  | .ldp w => some (ldpEff w s it)
  | _ => none

/-- The read of an outstanding load is made only now, where nothing after it in its lanes' program order comes after it:
the result takes what a read finds now. What the read at issue has made seen stays seen. Where the access would now wait
or stop, the value read at issue stands. Log 2: DEDUCED, unsafe. -/
def State.readLate (s : State) (id : Nat) : State :=
  match s.loads.find? fun r => r.id == id with
  | none => s
  | some r =>
    if s.gate || !s.outstanding r then s
    else match lateEff s r.it r.i with
      | some (.ok t _) =>
        let new := ((t.group? r.it.key).map fun g => (g.split r.it.j).pend.filter fun p => p.id == s.nextId).getD []
        { t with loads := s.loads, nextId := s.nextId : State }.modSplit r.it.key r.it.j fun sp =>
          { sp with pend := (sp.pend.filter fun p => p.id != s.nextId).map fun p =>
              if p.id = id then { p with writes := new.flatMap (·.writes) } else p }
      | _ => s

end Sys2Proof.Machine
end

