-- ==== Sys2Proof/Machine/Translate.lean ====
section
/-!
DEFINITION. The page tables (R105, R106, R345): the walk of a virtual address, and which pages are pinned (R109, R347).
-/

namespace Sys2Proof.Machine

open Sys2Proof

/-- The leaf a walk ends at: its entry's address, the page's first byte and size, and W. -/
structure Leaf where
  entry : Nat
  pa : Nat
  size : Nat
  w : Bool
  deriving DecidableEq, Repr

/-- Lowest virtual bit that a level indexes, and the size of the page a leaf there maps. -/
def levelShift (level : Nat) : Nat := if level = 4 then 16 else 48 - 9 * level

/-- Entries of a table of a level. -/
def levelEntries (level : Nat) : Nat := if level = 0 then 256 else if level = 4 then 32 else 512

/-- Whether a valid entry of a level breaks R106. -/
def entryBad (level e : Nat) : Bool :=
  let leaf := bit e 62
  let pa := bits e 51 16
  (leaf && decide (level ≤ 1)) || (!leaf && level == 4)
  || bits e 56 52 != 0 || bits e 7 0 != 0 || (leaf && bits e 15 8 != 0)
  || (leaf && level == 2 && pa % 2 ^ 14 != 0) || (leaf && level == 3 && pa % 2 ^ 5 != 0)
  || (!leaf && level != 3 && bits e 11 8 != 0)

/-- Walk from a table of a level, `fuel` levels deep; an entry that reads as poison is no valid entry. -/
def walkFrom (s : State) (va : Nat) : Nat → Nat → Nat → Option Leaf
  | 0, _, _ => none
  | fuel + 1, level, table =>
    let a := table + 8 * (va / 2 ^ levelShift level % levelEntries level)
    let e := leNat (s.physBytes a 8)
    if s.physBad a 8 || !bit e 63 || entryBad level e then none
    else if bit e 62 then
      some { entry := a, pa := bits e 51 16 * 65536, size := 2 ^ levelShift level, w := bit e 61 }
    else walkFrom s va fuel (level + 1) (bits e 51 16 * 65536 + bits e 15 8 * 256)

/-- The entries that a walk reads, by address. -/
def walkReads (s : State) (va : Nat) : Nat → Nat → Nat → List Nat
  | 0, _, _ => []
  | fuel + 1, level, table =>
    let a := table + 8 * (va / 2 ^ levelShift level % levelEntries level)
    let e := leNat (s.physBytes a 8)
    if s.physBad a 8 || !bit e 63 || entryBad level e || bit e 62 then [a]
    else a :: walkReads s va fuel (level + 1) (bits e 51 16 * 65536 + bits e 15 8 * 256)

/-- The walk of a virtual address; a TBASE of 0 maps nothing (R345). -/
def State.walk (s : State) (va : Nat) : Option Leaf :=
  let t := bits s.regs.tbase 51 11 * 2048
  if t = 0 || 2 ^ 56 ≤ va then none else walkFrom s va 5 0 t

/-- The translation of a 64 KiB page by its number. -/
def State.walkPage (s : State) (page : Nat) : Option Kept :=
  (s.walk (65536 * page)).map fun l => { pa := l.pa + 65536 * page % l.size, w := l.w }

/-- The kept translation of a page that a launch or an export pins (R109). -/
def State.keptPage (s : State) (page : Nat) : Option Kept :=
  match Map.find? s.exportPages page with
  | some k => some k
  | none => s.launches.findSome? fun (x : Nat × Launch) => Map.find? x.2.pages page

/-- CXL ports, not ready, that the translation of a page waits for (R352): a kept one reads nothing (R109). -/
def State.walkPorts (s : State) (page : Nat) : List Nat :=
  if (s.keptPage page).isSome || s.regs.tbase = 0 then []
  else s.portsAt (walkReads s (65536 * page) 5 0 (bits s.regs.tbase 51 11 * 2048))

/-- Physical address of a byte of an arena: by the kept translation of its page, else by the tables. -/
def State.arenaPa (s : State) (va : Nat) : Option Nat :=
  ((s.keptPage (pageOf va)).or (s.walkPage (pageOf va))).map fun k => k.pa + va % 65536

/-- CXL ports that a read of n bytes at a virtual address waits for, its translation included (R352). -/
def State.readPorts (s : State) (va n : Nat) : List Nat :=
  ((pagesIn va n).flatMap fun (p : Nat × Nat) => s.walkPorts (pageOf p.1)
    ++ match s.arenaPa p.1 with | some pa => s.portsAt [pa, pa + p.2 - 1] | none => []).eraseDups

/-- Whether a physical address lies in a locked slot: what a write that names no virtual address meets (R137, R141).
Log 36: DEDUCED, unsafe. -/
def State.lockedPa (s : State) (pa : Nat) : Bool :=
  s.slots.any fun (x : Nat × Slot) =>
    let e := s.arena (x.1 / 2 ^ 32)
    x.2.locked && (List.range (e.slotBytes / 65536)).any fun i =>
      match s.arenaPa (e.slotVa (x.1 % 2 ^ 32) + 65536 * i) with
      | some a => decide (a ≤ pa) && decide (pa < a + 65536)
      | none => false

/-- Whether the physical map holds an address (R103). -/
def mapped (pa : Nat) : Bool := kindOf pa != .reserved

end Sys2Proof.Machine
end

