-- ==== Sys2Proof/Machine/Contain.lean ====
section
/-!
DEFINITION. Containment regions (R296 to R298, R424 to R426): opening, committing and unwinding.
-/

namespace Sys2Proof.Machine

open Sys2Proof

/-- CONTAIN (R296). Log 23: DEDUCED, unsafe. -/
def execContain (id : Nat) (disp : Int) (s : State) : Host.Outcome State Fault Refusal :=
  issue (.contain id disp) s fun s it =>
    if it.g.liveSplits.length != 1 || !it.g.stack.isEmpty then .trap (it.trapWord 0x61 it.sp.mask 2)
    else if it.g.region.isSome then .trap (it.trapOpen s 0x31 it.sp.mask)
    else
      let r : Region :=
        { id := id, handler := it.target disp, mask := it.sp.mask, bytes := [], writes := [], lines := [], held := [], due := none }
      .ok (s.modGroup it.key fun g => { g with region := some r }) none

/-- The result of a held PALLOC comes to its split. -/
def State.heldResult (s : State) (k j pend t reg handle : Nat) (f : FlagUpd) : State :=
  s.modSplit k j fun sp => { sp with pend := sp.pend.map fun p =>
    if p.id = pend then { p with writes := pairWrites (.s reg) handle, flags := f, waits := p.waits.filter (· ≠ t) } else p }

/-- A held PALLOC is performed: a slot whose pages are not all pinned is not given. -/
def State.heldPalloc (s : State) (l : Launch) (k a len j pend t reg : Nat) : State :=
  let ok := match s.freeSlot a with
    | some i => (pagesOf ((s.arena a).slotVa i) (128 * len)).all l.pinned
    | none => false
  let r := if ok then allocResult s a len l else (s, 0, FlagUpd.test false)
  r.1.heldResult k j pend t reg r.2.1 r.2.2

/-- A write that a region held is performed as though its word had been the UNCONTAIN (R297): a release carries with it
those before it of its lanes that the commit has performed, which `done` names. -/
def State.commitWrite (k : Nat) (r : State × List (Mask × Nat)) (st : Store) : State × List (Mask × Nat) :=
  let id := r.1.nextWrite
  let own := (r.2.filter fun x => (x.1 &&& st.lanes) != 0).map Prod.snd
  let rels := st.rels.map fun x => { x with writes := x.writes ++ r.1.hostFilter x.mask own }
  ((({ r.1 with nextWrite := id + 1 } : State).performOne { st with id := id, rels := rels }).wrote k st.lanes id,
    r.2 ++ [(st.lanes, id)])

/-- A held store of a parcel word is performed, unless its line is locked by now (R137). Log 17: DEDUCED, unsafe. -/
def State.heldStore (k : Nat) (l : Launch) (r : State × List (Mask × Nat)) (st : Store) : State × List (Mask × Nat) :=
  if r.1.lockedAt st.addr then r else State.commitWrite k r { st with addr := l.phys st.addr }

/-- A held PFREE is performed, unless its handle is dead or its slot locked by now. -/
def State.heldRelease (s : State) (l : Launch) (handle : Nat) : State :=
  let h := Handle.of handle
  if s.liveHandle h && !(s.slot h.arena h.index).locked then
    (s.drainSlot l h.arena h.index).modSlot h.arena h.index Slot.release
  else s

/-- One held command at the commit (R297, step 2): parcel words are performed and give their entry back; an MMAS takes
its place at its unit behind the operations already there; the others are forked, and see what their lanes see now (R128).
`done` names the version's writes by lanes. Log 23: DEDUCED, unsafe. -/
def State.commitHeld (s : State) (k : Nat) (lanes : Mask) (l : Launch) (done : List (Mask × Nat)) (t : Nat) : State :=
  match Map.find? s.threads t, s.group? k with
  | some th, some g =>
    let gone (s : State) : State := { s with threads := Map.del s.threads t }
    let ids := s.visible g lanes Obs.all
    match th.cmd with
    | .heldStores ws => gone (ws.foldl (State.heldStore k l) (s, done)).1
    | .heldAlloc a len j pend reg => gone (s.heldPalloc l k a len j pend t reg)
    | .heldFree h => gone (s.heldRelease l h)
    | .mmas .. =>
      ((s.modThread t fun th => { th with vis := ids }).mapUnits fun u =>
        { u with queue := (u.queue.filter fun op => op.thread != some t) ++ u.queue.filter fun op => op.thread == some t }
        ).forkThread t
    | _ => ((s.completeHost ids).modThread t fun th => { th with vis := ids }).forkThread t
  | _, _ => s

/-- The version's writes reach memory in the order of their words, each with its place in coherence order (R119, R297); a
line locked since has nothing written (R137). Log 23: DEDUCED, unsafe. -/
def State.commitVersion (s : State) (k : Nat) (writes : List Store) : State × List (Mask × Nat) :=
  writes.foldl (fun r st =>
    if r.1.lockedPa st.addr || r.1.lockedPa (st.addr + st.data.length - 1) then r else State.commitWrite k r st) (s, [])

/-- UNCONTAIN (R297). Log 23: DEDUCED, unsafe. -/
def execUncontain (s : State) : Host.Outcome State Fault Refusal :=
  issue .uncontain s fun s it =>
    if it.g.liveSplits.length != 1 then .trap (it.trapWord 0x61 it.sp.mask 2)
    else match it.g.region with
      | none => .trap (it.trapOpen s 0x31 it.sp.mask)
      | some r =>
        let v := (s.drain it.key).commitVersion it.key r.writes
        let s := r.held.foldl (fun s t => s.commitHeld it.key it.sp.mask it.l v.2 t) v.1
        .ok (s.modGroup it.key fun g => { g with region := none }) none

/-- Whether a result is one that a held command still has to give. -/
def Region.heldPend (r : Region) (p : Pend) : Bool := p.waits.any r.held.contains

/-- Whether a region's unwind can take place: it is due, and every outstanding result of the group has landed, but for
those of held commands; a split in the hands of the trap handler comes back first (R425, R426).
Log 23: DEDUCED, unsafe. -/
def Group.unwindReady (g : Group) (r : Region) : Bool :=
  r.due.isSome && g.splits.all fun sp => (sp.pend.all r.heldPend) && sp.wait != .trapped

/-- Unwinding (R425). Log 23: DEDUCED, unsafe. -/
def State.unwind (s : State) (k : Nat) : State :=
  match s.group? k with
  | none => s
  | some g =>
    match g.region with
    | none => s
    | some r =>
      let old := g.split ((g.liveSplits.head?).getD 0)
      let entry : Split :=
        { st := .run, pc := r.handler, mask := r.mask &&& ~~~g.exited, cc := { old.cc with e := true }, sig := old.sig }
      let s := (s.dropHeld r.held).modGroup k fun g =>
        let g := { g with region := none, splits := entry :: (g.splits.drop 1).map fun _ => {}, stack := [],
                          bad := g.bad.filter fun x => !(List.range 4).any fun j => x == splitKey j }
        g.writeRegs [(.s 190, BitVec.ofNat 32 r.id), (.s 191, BitVec.ofNat 32 (r.due.getD 0))]
      s.settle k

end Sys2Proof.Machine
end

