-- ==== Sys2Proof/Machine/Matrix.lean ====
section
/-!
DEFINITION. The matrix words (R312 to R319): fragments, tiles with their row registers (R67, R96, R429, R430), the queue
of a unit, the quarter rendezvous, and moving tiles. Grants and the ends of operations are events
(Machine/IslandEvents.lean).
-/

namespace Sys2Proof.Machine

open Sys2Proof

/-! ### Fragments (R313, R314) -/

/-- Elements per register of a format, and k of its shape. -/
def fmtPer (fmt : Nat) : Nat := if fmt ≤ 1 then 2 else if fmt ≤ 5 then 4 else 8
def fmtK (fmt : Nat) : Nat := 8 * fmtPer fmt

/-- Element i of a register that holds e elements. -/
def regElem (e i : Nat) (x : Word) : Nat := x.toNat / 2 ^ (32 / e * i) % 2 ^ (32 / e)

/-- A fragment as numbers keyed k × row + element (of B: column), and its scales, two a row. -/
def Group.fragment (g : Group) (fmt n : Nat) : List Nat :=
  let e := fmtPer fmt
  (List.range (64 * fmtK fmt)).map fun i =>
    let row := i / fmtK fmt
    let k := i % fmtK fmt
    regElem e (k % e) (g.readV (n + 8 * (row % 2) + k / e) (row / 2))

def Group.fragScales (g : Group) (fmt n : Nat) : List Nat :=
  if fmt != 6 then []
  else (List.range 128).map fun i =>
    let row := i / 2
    (g.readV (n + 16) (row / 2)).toNat / 256 ^ (2 * (row % 2) + i % 2) % 256

/-- A group's quarter of B: its 16 columns, and their scales (R316). -/
def Group.quarterB (g : Group) (fmt n : Nat) : List Nat :=
  let e := fmtPer fmt
  (List.range (16 * fmtK fmt)).map fun i =>
    let c := i / fmtK fmt
    let k := i % fmtK fmt
    regElem e (k % e) (g.readV (n + k / e % 4) (2 * c + k / e / 4))

def Group.quarterScales (g : Group) (fmt n : Nat) : List Nat :=
  if fmt != 6 then [] else (List.range 32).map fun i => (g.readV (n + 4) i).toNat % 256

/-- First register of a fragment operand. -/
def fragReg : Src → Nat
  | .v n => n
  | _ => 0

/-! ### Products (R96, R429) -/

/-- The exact value of an element; a qx4 element has its block's scale applied. -/
def matElem (fmt scale x : Nat) : FVal :=
  match fmt with
  | 0 => Fmt.bf16.read x
  | 1 => Fmt.f16.read x
  | 2 => Fmt.e4m3.read x
  | 3 => Fmt.e5m2.read x
  | 4 => FVal.ofInt (sext 8 x)
  | 5 => FVal.ofInt (x : Int)
  | _ => (qx4Kind scale).decode scale x

/-- Element k of row (or column) r of a list of fragments. -/
def fragVal (fmt : Nat) (xs scales : List Nat) (r k : Nat) : FVal :=
  matElem fmt (scales.getD (2 * r + k / 32) 0) (xs.getD (fmtK fmt * r + k) 0)

/-- Chunks of R96, as first k and length. -/
def fmtChunks (fmt : Nat) : List (Nat × Nat) :=
  if fmt ≤ 1 then [(0, 16)] else if fmt ≤ 3 then [(0, 16), (16, 16)] else if fmt ≤ 5 then [(0, 32)] else [(0, 32), (32, 32)]

def rne32 (x : FVal) : Nat := Fmt.f32.deliver .rne false x
def Tile.elem (t : Tile) (i j : Nat) : FVal := Fmt.f32.read (Map.get t.elems 0 (64 * i + j)).toNat
def Tile.cReg (t : Tile) (i : Nat) : FVal := Fmt.f32.read (Map.get t.c 0 i).toNat
def Tile.aReg (t : Tile) (i : Nat) : FVal := Fmt.f32.read (Map.get t.a 0 i).toNat

/-- Write rows of f32 patterns. -/
def putRows (m : Map Word) (n : Nat) (f : Nat → Nat) : Map Word :=
  (List.range n).foldl (fun m i => Map.put m 0 i (BitVec.ofNat 32 (f i))) m

/-- One chunk added to a tile: elements, absolute sums, checksums. `d i j` is what it adds to an element. What parity has
found stays until the tile is written anew. Log 31: DEDUCED, unsafe. -/
def Tile.addChunk (t : Tile) (d : Nat → Nat → FVal) (check : Nat → FVal) : Tile :=
  { t with
    elems := putRows t.elems 4096 fun x => rne32 (.sum false [t.elem (x / 64) (x % 64), d (x / 64) (x % 64)])
    a := putRows t.a 64 fun i => rne32 (.sum false (t.aReg i :: (List.range 64).map fun j => (d i j).abs))
    c := putRows t.c 64 fun i => rne32 (.sum false [t.cReg i, Fmt.f32.read (rne32 (check i))]) }

/-- C + A × B for one part of an operation, with its row registers. A sum of integer products is an integer, whose zero
has no sign. -/
def Tile.multiply (t : Tile) (afmt bfmt : Nat) (a as b bs : List Nat) : Tile :=
  let int := afmt = 4 || afmt = 5
  let zero : List FVal := if int then [FVal.ofInt 0] else []
  let va := fragVal afmt a as
  let vb := fragVal bfmt b bs
  (fmtChunks afmt).foldl (fun t (ch : Nat × Nat) =>
    let ks := (List.range ch.2).map fun k => ch.1 + k
    let d (i j : Nat) : FVal :=
      let s := FVal.sum false (zero ++ ks.map fun k => FVal.mul (va i k) (vb j k))
      if int then s else Fmt.f32.read (rne32 s)
    let check (i : Nat) : FVal :=
      FVal.sum false (zero ++ ks.map fun k => FVal.mul (va i k) (FVal.sum false ((List.range 64).map fun j => vb j k)))
    t.addChunk d check) t

/-- Every element canonical NaN (R422). -/
def Tile.allNan : Tile :=
  let nan (_ : Nat) : Nat := Fmt.f32.nan
  { elems := putRows [] 4096 nan, c := putRows [] 64 nan, a := putRows [] 64 nan }

/-! ### Tiles of a group -/

/-- Whether a tile is allotted to the group's team (R68); the handler group has t6 and t7. -/
def Iss.tileOk (it : Iss) (t : Nat) : Bool := if it.g.handler then t == 6 || t == 7 else bit it.l.r.tiles t

/-- Unit of a group, and the key of one of its tiles. -/
def Group.quarter (g : Group) : Nat := g.slot / 16
def Group.tileKey (g : Group) (t : Nat) : Nat := tkey (if g.handler then 0 else g.set) g.quarter t

def Ctx.tile (c : Ctx) (k : Nat) : Tile := Map.get c.tiles {} k
def Ctx.setTile (c : Ctx) (k : Nat) (t : Tile) : Ctx := { c with tiles := Map.put c.tiles {} k t }

/-- A matrix word: nothing with an empty Mask, cause 0x31 for a tile not allotted (R312). -/
def matWord {χ : Type} (i : Instr) (w : TWord χ) (k : State → Iss → Mask → Eff) (s : State) :
    Host.Outcome State Fault Refusal :=
  issue i s fun s it =>
    let m := it.exec w.p
    if m = 0 then .ok s none
    else if !it.tileOk w.t then .trap (it.trapOpen s 0x31 m)
    else k s it m

/-! ### MMA, MMAQ, MMAS (R315 to R317) -/

/-- The part a group takes in an operation. -/
def Group.part (g : Group) (key : Nat) (w : TWord XMma) : MatPart :=
  { group := key, tile := g.tileKey w.t, z := w.x.z, a := g.fragment w.x.afmt (fragReg w.a),
    aScale := g.fragScales w.x.afmt (fragReg w.a), regs := Instr.reads 0 (.mma w) }

/-- Cycles of an operation (R341, R432). -/
def unitCycles (u : MatUnit) : Nat := if u.fenced.isEmpty then 8 else 10

/-- Queue an operation at a unit (R312). -/
def State.enqueue (s : State) (core q : Nat) (op : MatOp) : State :=
  s.modUnit core q fun u => { u with queue := u.queue ++ [op] }

/-- MMA. Log 15: DEDUCED, unsafe. -/
def execMma (w : TWord XMma) (s : State) : Host.Outcome State Fault Refusal :=
  matWord (.mma w) w (fun s it m =>
    let q := it.g.quarter
    let u := s.unitOf it.g.core q
    if 2 ≤ u.fenced.length then .trap (it.trapWord 0x31 m 2)
    else
      .ok (s.enqueue it.g.core q
        { launch := it.g.launch, parts := [it.g.part it.key w], b := it.g.fragment w.x.bfmt (fragReg w.b),
          bScale := it.g.fragScales w.x.bfmt (fragReg w.b), afmt := w.x.afmt, bfmt := w.x.bfmt,
          cycles := unitCycles u }) none) s

/-- An MMAQ that waits for its set: the order it issued in, its group and split, its word, its part and its quarter
of B. -/
structure Waiter where
  id : Nat
  key : Nat
  j : Nat
  w : TWord XMma
  part : MatPart
  b : List Nat
  bScale : List Nat
  deriving DecidableEq, Repr

/-- The MMAQ that issues now. -/
def Iss.waiter (it : Iss) (id : Nat) (w : TWord XMma) : Waiter :=
  { id := id, key := it.key, j := it.j, w := w, part := { it.g.part it.key w with regs := Instr.reads 0 (.mmaq w) },
    b := it.g.quarterB w.x.bfmt (fragReg w.b), bScale := it.g.quarterScales w.x.bfmt (fragReg w.b) }

def Waiter.wait (w : Waiter) : Wait := .mmaq w.id w.w w.part.a w.part.aScale w.b w.bScale

/-- MMAQs with a tag that wait in a partition, of groups of one launch. -/
def State.waiters (s : State) (launch core p tag : Nat) : List Waiter :=
  s.groups.flatMap fun (x : Nat × Group) =>
    if x.2.launch = launch ∧ x.2.core = core ∧ x.2.slot / 4 = p then
      x.2.liveSplits.filterMap fun j => match (x.2.split j).wait with
        | .mmaq id w a as b bs =>
          if w.x.tag = tag then
            some ⟨id, x.1, j, w, ⟨x.1, x.2.tileKey w.t, w.x.z, a, as, Instr.reads 0 (.mmaq w)⟩, b, bs⟩
          else none
        | _ => none
    else []

/-- The earliest of some waiters. -/
def earliest (ws : List Waiter) : Option Waiter :=
  ws.foldl (fun (b : Option Waiter) w => match b with
    | none => some w
    | some x => if w.id < x.id then some w else b) none

/-- The set that an MMAQ completes, in ascending partition order. -/
def State.mmaqSet (s : State) (it : Iss) (me : Waiter) : Option (List Waiter) :=
  allSome ((List.range 4).map fun i =>
    let p := 4 * it.g.quarter + i
    let ws := s.waiters it.g.launch it.g.core p me.w.x.tag
    if it.g.slot / 4 = p then (if ws.isEmpty then some me else none) else earliest ws)

/-- One operation of a complete set: its four parts and the joined B. -/
def setOp (launch : Nat) (ws : List Waiter) (x : XMma) : MatOp :=
  { launch := launch, parts := ws.map Waiter.part, b := ws.flatMap Waiter.b, bScale := ws.flatMap Waiter.bScale,
    afmt := x.afmt, bfmt := x.bfmt, cycles := 32 }

/-- Every group of a set raises cause 0x31 (R316). -/
def State.raiseSet (s : State) (ws : List Waiter) (aux : Nat) : State :=
  ws.foldl (fun s w =>
    match s.group? w.key with
    | none => s
    | some g =>
      let sp := g.split w.j
      s.raise w.key w.j { cause := 0x31, lane := lowest sp.mask, tmask := sp.mask, aux := aux, pc := sp.pc }) s

/-- MMAQ: it parks until its set is complete, and completes it as the fourth; where it is the one that completes a set
that traps, it traps at issue as the others do in their wait (R316, R397). -/
def execMmaq (w : TWord XMma) (s : State) : Host.Outcome State Fault Refusal :=
  matWord (.mmaq w) w (fun s it m =>
    let q := it.g.quarter
    if !s.quarterHeld it.g.launch it.g.core q then .trap (it.trapWord 0x31 m 3)
    else
      let me := it.waiter s.nextId w
      let s := { s with nextId := s.nextId + 1 }.modSplit it.key it.j fun sp => { sp with mmaqWait := 0 }
      match s.mmaqSet it me with
      | none => .park s me.wait
      | some ws =>
        if ws.any fun x => x.w.x.afmt != w.x.afmt || x.w.x.bfmt != w.x.bfmt then .trapSet fun s => s.raiseSet ws 1
        else if !(s.unitOf it.g.core q).fenced.isEmpty then .trapSet fun s => s.raiseSet ws 2
        else
          let s := s.enqueue it.g.core q (setOp it.g.launch ws w.x)
          let others := ws.filter fun x => x.key != it.key || x.j != it.j
          .ok (others.foldl (fun s x => s.resume x.key x.j) s) none) s

/-- FMT that names a format of R313. -/
def mmaFmt (f : Nat) : Nat :=
  match f with
  | 0 => 8 | 1 => 7 | 2 => 9 | 3 => 10 | 4 => 0 | 5 => 1 | _ => 11

/-- Whether a descriptor fits MMAS (R317). -/
def mmasDesc (d : Desc) (bfmt : Nat) : Bool :=
  d.ok && d.fmt == mmaFmt bfmt && d.rank == 2 && decide (fmtK bfmt ≤ d.extent 0) && decide (64 ≤ d.extent 1)

/-- MMAS: its thread reads B and makes the consumed arrival (R317). -/
def execMmas (w : TWord XMma) (s : State) : Host.Outcome State Fault Refusal :=
  matWord (.mmas w) w (fun s it m =>
    let r (i : Nat) := it.block w.b i
    let x := w.x
    let d := Desc.of (Map.get it.c.tds 0 (r 2 % 256))
    let q := it.g.quarter
    let u := s.unitOf it.g.core q
    let qx := x.bfmt == 6
    let n := fmtK x.bfmt * d.halfBytes / 2
    let stride := 16 * d.stride 1
    let sStride := d.extent 0 / 32
    if !mmasDesc d x.bfmt then .trap (it.trapWord 0x02 m (encode (.mmas w)))
    else if 2 ≤ u.fenced.length then .trap (it.trapWord 0x31 m 2)
    else match blockProb it m
      [(0, placeBad s it true 16 (r 0)), (1, placeBad s it false 16 (r 1) || pastSlice s it (r 1) 16), (2, 256 ≤ r 2),
       (3, if qx then placeBad s it true 16 (r 3) else r 3 != 0), (2, pastSlice s it (r 0) (63 * stride + n)),
       (3, qx && pastSlice s it (r 3) (63 * sStride + 2))] with
    | some e => e
    | none =>
      let p := (slicePlace s it true (r 0)).getD (0, 0)
      let ps := if qx then (slicePlace s it true (r 3)).getD (0, 0) else (it.g.core, 0)
      let t := s.nextId
      let s := s.enqueue it.g.core q
        { launch := it.g.launch, parts := [{ it.g.part it.key w with regs := Instr.reads 0 (.mmas w) }], b := [], bScale := [], afmt := x.afmt, bfmt := x.bfmt,
          cycles := unitCycles u, thread := some t }
      .ok (s.startEngine it (.mmas p.1 p.2 stride n ps.1 ps.2 sStride (if qx then 2 else 0)) (some (r 1))) none) s

/-- What an MMAS thread has read, as its operation takes it: B by column, and the scales. -/
def mmasOperand (th : Thread) (bfmt : Nat) : List Nat × List Nat :=
  let rd (i : Nat) : Nat := (Map.get th.captured 0 i).toNat
  match th.cmd with
  | .mmas _ _ _ n _ _ _ sn =>
    let elem (c k : Nat) : Nat :=
      match fmtPer bfmt with
      | 2 => rd (c * n + 2 * k) + 256 * rd (c * n + 2 * k + 1)
      | 4 => rd (c * n + k)
      | _ => if k % 2 = 0 then rd (c * n + k / 2) % 16 else rd (c * n + k / 2) / 16
    ((List.range (64 * fmtK bfmt)).map fun i => elem (i / fmtK bfmt) (i % fmtK bfmt),
      (List.range (64 * sn)).map fun i => rd (64 * n + i))
  | _ => ([], [])

/-- The consumed signal: the operation has its B and waits for its thread no longer. -/
def State.mmasReady (s : State) (t : Nat) (th : Thread) : State :=
  let give (op : MatOp) : MatOp :=
    if op.thread = some t then
      let y := mmasOperand th op.bfmt
      { op with b := y.1, bScale := y.2, thread := none, bad := th.err }
    else op
  s.mapUnits fun u =>
    { u with queue := u.queue.map give, busy := u.busy.map fun (b : MatOp × Nat) => (give b.1, b.2) }

/-- An operation's effect on the tiles of its parts, in ascending partition order (R315, R316). A set is one operation:
Z in any of its words clears the tile that it names once, before the products of all that name it are added.
Log 31: DEDUCED, unsafe. -/
def State.matEffect (s : State) (core : Nat) (op : MatOp) : State :=
  let clears := (op.parts.filter MatPart.z).map MatPart.tile
  s.modCtx op.launch core fun c =>
    op.parts.foldl (fun c p =>
      c.setTile p.tile
        (if op.bad then Tile.allNan else (c.tile p.tile).multiply op.afmt op.bfmt p.a p.aScale op.b op.bScale))
      (clears.foldl (fun c t => c.setTile t {}) c)

/-! ### Moving tiles (R318, R319, R429, R430) -/

/-- MZERO. -/
def execMzero (w : TWord Unit) (s : State) : Host.Outcome State Fault Refusal :=
  matWord (.mzero w) w (fun s it _ =>
    .ok (s.modCtx it.g.launch it.g.core fun c => c.setTile (it.g.tileKey w.t) {}) none) s

/-- The image of MLD and MST: cause 0x31 where it is no aligned place of the slice, a wait for absent lines. -/
def tileImageAt (s : State) (it : Iss) (m : Mask) (a : Src) (k : Nat → Nat → Eff) : Eff :=
  let x := it.scalar a
  match scrAt s it x 16384 with
  | some (.slice core off) =>
    if x % 128 != 0 then .trap (it.trapWord 0x31 m x)
    else
      let absent := absentLines s it.g.launch 16384 (.slice core off)
      if absent.isEmpty then k core off else .park s (.lines absent)
  | _ => .trap (it.trapWord 0x31 m x)

/-- A tile from an image, with fresh row registers. -/
def Tile.load (f : Nat → Nat) : Tile :=
  let e (i j : Nat) : FVal := Fmt.f32.read (f (64 * i + j))
  { elems := putRows [] 4096 f
    a := putRows [] 64 fun i => (List.range 64).foldl (fun acc j =>
      Fmt.f32.add .rne false (Fmt.f32.read acc) (e i j).abs) 0
    c := putRows [] 64 fun i => rne32 (.sum false ((List.range 64).map (e i))) }

/-- Whether row i passes its check (R430). -/
def Tile.rowOk (t : Tile) (i : Nat) : Bool :=
  let xs := (List.range 64).map (t.elem i)
  let special (x : FVal) : Bool := x.isNan || x.isInf
  if t.odd.any fun x => x / 64 == i then false
  else if xs.any special || special (t.cReg i) || special (t.aReg i) then true
  else !(FVal.scale (-18) (t.aReg i)).lt (FVal.sum false [FVal.sum false xs, (t.cReg i).neg]).abs

/-- The lane whose access of a tile's image holds rows 2r and 2r + 1 (R318), as a mask. -/
def tileLane (m : Mask) (r : Nat) : Mask := BitVec.twoPow 32 (if bit m.toNat r then r else lowest m)

/-- The rows 2r and 2r + 1 of an image in a slice, as the lane that accesses them reads them: 8 bytes at a time (R318). -/
def State.tileGot (s : State) (it : Iss) (core off r : Nat) : Got :=
  Got.join ((List.range 64).map fun i =>
    s.readPart it.key (tileLane it.sp.mask r) false (readKey r i) (.scr it.g.launch core) (off + 512 * r + 8 * i) 8)

/-- MLD. -/
def execMld (w : TWord Unit) (s : State) : Host.Outcome State Fault Refusal :=
  matWord (.mld w) w (fun s it m =>
    tileImageAt s it m w.a fun core off =>
      let lane (r : Nat) : Mask := tileLane it.sp.mask r
      let s := s.comeAfterAll it.key ((List.range 32).map fun r =>
        (lane r, [(.scr it.g.launch core, off + 512 * r, 512)]))
      if scrBad s it 16384 (.slice core off) then .poison (it.scalar w.a)
      else
        let gots := (List.range 32).map (s.tileGot it core off)
        let bytes := gots.flatMap (·.bytes)
        let seen := (gots.mapIdx fun r g => (r, g)).foldl (fun s (x : Nat × Got) =>
          s.didRead it.key (lane x.1) none false x.2.srcs []) s
        .ok (seen.modCtx it.g.launch it.g.core fun c =>
          c.setTile (it.g.tileKey w.t) (Tile.load fun x => leNat ((bytes.drop (4 * x)).take 4))) none) s

/-- A failed row check: vector 66, and the self-test of the unit's sub-arrays is due (R430, R431). -/
def State.checked (s : State) (it : Iss) (ok : Bool) : State :=
  if ok then s
  else (s.vector 66).modUnit it.g.core it.g.quarter fun u => { u with testDue := List.range 8 }

/-- MST. -/
def execMst (w : TWord Unit) (s : State) : Host.Outcome State Fault Refusal :=
  matWord (.mst w) w (fun s it m =>
    tileImageAt s it m w.a fun core off =>
      let t := it.c.tile (it.g.tileKey w.t)
      let ok := (List.range 64).all t.rowOk
      let row (r : Nat) := (List.range 128).flatMap fun x => leBytes 4 (Map.get t.elems 0 (128 * r + x)).toNat
      let s := (List.range 32).foldl (fun s r =>
        s.scrWrite it (tileLane it.sp.mask r) (.slice core (off + 512 * r)) (row r) false false false []) s
      .ok ((s.checked it ok).writeNow it [] (flagE !ok)) none) s

/-- MRD. -/
def execMrd (w : TWord Unit) (s : State) : Host.Outcome State Fault Refusal :=
  matWord (.mrd w) w (fun s it m =>
    let r := it.scalar w.b
    if 64 ≤ r then .trap (it.trapOpen s 0x31 m)
    else
      let t := it.c.tile (it.g.tileKey w.t)
      let ok := t.rowOk r
      let n := fragReg w.a
      let ws := (lanesOf m).flatMap fun l =>
        [(RegId.v n l, Map.get t.elems 0 (64 * r + 2 * l)), (RegId.v (n + 1) l, Map.get t.elems 0 (64 * r + 2 * l + 1))]
      .ok (((s.writeNow it [] (flagE false)).checked it ok).writeLater it w.la ws (flagE !ok)) none) s

end Sys2Proof.Machine
end

