-- ==== Sys2Proof/Machine/Hold.lean ====
section
/-!
DEFINITION. What holds a word at issue: the scoreboard and the lookahead windows (R199 to R201), the fragment and tile
scoreboard of the matrix words (R312, R315, R318), the outstanding transaction table (R311), posted fabric writes that a
release or a fork waits for (R122, R128, R330), and time (R209, R282).
-/

namespace Sys2Proof.Machine

open Sys2Proof

/-- Words that wait for every outstanding result of their split (R200); RFT ends its split, and waits likewise. -/
def drains : Instr → Bool
  | .split .. | .jtab .. | .call .. | .ret .. | .jmps .. | .exit .. | .trap .. | .contain .. | .uncontain | .step
  | .stepq .. | .rft => true
  | _ => false

/-! ### Outstanding results -/

/-- The destination of an outstanding result: what it writes, and what the atomics and answers it waits for will write. -/
def State.pendNos (s : State) (p : Pend) : List Nat :=
  (p.writes.map fun (w : RegId × Word) => RegId.no w.1)
  ++ p.flags.nos
  ++ p.waits.flatMap fun t =>
      ((s.atoms.filter fun a => a.req == some t).flatMap fun a => a.outs.map RegId.no)
      ++ match Map.find? s.fabReqs t with
        | some r => r.regs.map RegId.no
        | none => match Map.find? s.threads t with
          | some th => match th.cmd with
            | .heldAlloc _ _ _ _ reg => regRun (256 + reg) 2 ++ testNos
            | _ => []
          | none => []

/-- Whether a result lands before its time would be over: it waits for what the word in hand of its split still writes,
which it overwrites (R199): a word whose access is held, or the E of a barrier that has not released it (R268). -/
def State.underWay (s : State) (sp : Split) (p : Pend) : Bool :=
  let owes : List Nat :=
    (match sp.held with
      | some h => match decodeWord h.word with | .ok i => Instr.writes i | .error _ => []
      | none => [])
    ++ (match sp.wait with | .bar .. => [flagE'] | _ => [])
  (s.pendNos p).any owes.contains

/-- Whether two lists of registers meet. -/
def meets (x y : List Nat) : Bool := x.any y.contains

/-- The registers and flags that a word of a group reads, and those that it reads or writes (R199). -/
def State.readsOf (s : State) (g : Group) (i : Instr) : List Nat :=
  Instr.reads (match s.ctx? g.launch g.core with | some c => wordRank g c i | none => 0) i
def State.usesOf (s : State) (g : Group) (i : Instr) : List Nat := s.readsOf g i ++ Instr.writes i

/-- The word that a split would issue next, where its fetch finds one. -/
def State.nextWord (s : State) (k j : Nat) : Option Instr :=
  match s.group? k with
  | none => none
  | some g =>
    match s.launch? g.launch with
    | none => none
    | some l =>
      match s.fetchBytes l (g.split j).pc.toNat 8 with
      | .word w => (decodeWord w).toOption
      | _ => none

/-- The windows that a split's next word closes (R199, R200). -/
def State.closes (s : State) (i : Instr) (p : Pend) : Bool :=
  drains i || (Instr.long i && meets (Instr.writes i) (s.pendNos p))

/-- Windows of a split that its next word closes are closed; a long-latency word that finds sixteen results outstanding
waits for the oldest of them (R201). Log 30: DEDUCED, unsafe. -/
def State.closeWindows (s : State) (k j : Nat) : State :=
  match s.nextWord k j with
  | none => s
  | some i => s.modSplit k j fun sp =>
      { sp with
        pend := sp.pend.map fun p => if s.closes i p then { p with left := 0 } else p
        oldest := if sp.oldest.isNone && Instr.long i && decide (Config.scoreboard ≤ sp.pend.length) then
            sp.pend.head?.map (·.id)
          else sp.oldest }

/-- Whether a cross-lane word reads a register that a sibling's result will write, which a barrier has ordered before it
and whose value is not there yet (R211). -/
def State.awaitsShown (s : State) (g : Group) (j : Nat) (i : Instr) : Bool :=
  Instr.crossLane i && (List.range g.splits.length).any fun x => x != j && (g.split x).pend.any fun p =>
    p.shown && !p.waits.isEmpty && meets (s.pendNos p) (s.readsOf g i)

/-- Whether the scoreboard lets a word of a split issue (R199 to R201): it touches no register or flag of a result whose
window is over, closes no window (it waits until that result has landed), and finds an entry where it is long-latency.
UNCONTAIN does not wait for what its commit brings (R296). Log 30: DEDUCED, unsafe. -/
def State.scoreboardLets (s : State) (g : Group) (sp : Split) (i : Instr) : Bool :=
  sp.pend.all (fun p => ((p.left != 0 || !meets (s.pendNos p) (s.usesOf g i)) && !s.closes i p)
    || (i == .uncontain && s.heldPend p))
  && (!Instr.long i || decide (sp.pend.length < Config.scoreboard))
  && (match sp.oldest with | some id => sp.pend.all fun p => p.id != id | none => true)

/-! ### Engines, matrix units and the fabric -/

/-- Words that take an entry of the core's outstanding transaction table (R296, R311). -/
def takesEntry (inRegion : Bool) : Instr → Bool
  | .cpy .. | .cpyc .. | .cpyt .. | .stage .. | .gpool .. | .scata .. | .fput .. | .fget .. | .wmv .. | .wload .. | .post ..
  | .mmas .. => true
  | .stp .. | .stpr .. | .palloc .. | .pfree .. => inRegion
  | _ => false

/-- Engine threads whose entry a core holds. -/
def State.entries (s : State) (core : Nat) : Nat := (s.threads.filter fun (x : Nat × Thread) => x.2.core == core).length

/-- Words that queue an operation at their matrix unit (R312). -/
def queuesOp : Instr → Bool
  | .mma .. | .mmaq .. | .mmas .. => true
  | _ => false

/-- The tile of a word that waits for the operations on it (R318, R319). -/
def waitsTile : Instr → Option Nat
  | .mzero w | .mld w | .mst w | .mrd w => some w.t
  | _ => none

/-- Whether a unit has an operation of a launch under way or queued on a tile. -/
def MatUnit.holdsTile (u : MatUnit) (launch tile : Nat) : Bool :=
  let on (op : MatOp) : Bool := op.launch == launch && op.parts.any fun p => p.tile == tile
  u.queue.any on || (match u.busy with | some (op, _) => on op | none => false)

/-- Whether a word of a group is to write one of the fragment registers that an operation at its unit has still to read,
in the 2 cycles after its grant (R315, R316). -/
def State.fragmentsDue (s : State) (k : Nat) (g : Group) (i : Instr) : Bool :=
  let ws := Instr.writes i
  let due (op : MatOp) : Bool := op.parts.any fun p => p.group == k && meets p.regs ws
  let u := s.unitOf g.core g.quarter
  !ws.isEmpty
  && (u.queue.any due || (match u.busy with | some (op, n) => decide (op.cycles ≤ n + 2) && due op | none => false)
    || g.liveSplits.any fun j => match (g.split j).wait with
      | .mmaq _ w _ _ _ _ => meets (Instr.reads 0 (.mmaq w)) ws
      | _ => false)

/-- Order and observers of the words that may release: writes, atomics and arrivals (R121, R269, R279). -/
def Instr.releasing : Instr → Option (Order × Obs)
  | .st w | .sts w | .stu w | .stt w | .atom w | .atomn w | .atoms w | .atomsn w | .atomu w | .fst w | .fatom w
  | .fatomn w | .stp w | .stpr w | .post w => some (w.x.ord, w.x.obs)
  | .bar w | .bara w | .barw w => some (w.x.ord, w.x.obs)
  | .tbarr w => some (w.x.ord, w.x.obs)
  | _ => none

/-- Words that wait for their group's posted fabric writes: a release with f, its own or by an earlier fence of its lanes
(R121, R122), a fork, and the commit of a region, which forks what the region held (R128, R330). -/
def waitsFabric (g : Group) (lanes : Mask) (i : Instr) : Bool :=
  takesEntry false i || i == .uncontain
  || match Instr.releasing i with
    | some (ord, obs) => (Order.releases ord && obs.f)
        || (Order.strongly ord && g.relFences.any fun f => (f.1 &&& lanes) != 0 && f.2.f)
    | none => false

/-- Releases that wait for the answers to the peer reads of their lanes (R120): POST releases whatever its order
(R139). -/
def waitsAnswers (i : Instr) : Bool :=
  (match i with | .post .. => true | _ => false)
  || match Instr.releasing i with | some (ord, _) => Order.releases ord | none => false

/-- Whether a group has writes at a peer that are not complete (R122): FST, FATOM and FATOMN. -/
def State.postedOpen (s : State) (k : Nat) : Bool :=
  s.fabReqs.any fun (x : Nat × FabReq) => x.2.group == k && x.2.writes && !x.2.timedOut

/-- Words that access memory: what an acquire at a peer comes before (R120). -/
def reachesMemory : Instr → Bool
  | .ld .. | .st .. | .lds .. | .sts .. | .ldu .. | .stu .. | .ldt .. | .stt .. | .atom .. | .atomn .. | .atoms ..
  | .atomsn .. | .atomu .. | .fld .. | .fst .. | .fatom .. | .fatomn .. | .ldp .. | .stp .. | .stpr .. | .palloc ..
  | .pfree .. | .precv .. | .bar .. | .bara .. | .barw .. | .tbinit .. | .tbarr .. | .tbexp .. | .tbwait .. | .tbtest ..
  | .fence .. | .mld .. | .mst .. | .uncontain => true
  | i => takesEntry false i

/-- Whether peer accesses of some lanes have not been answered. -/
def State.asking (s : State) (k : Nat) (lanes : Mask) (f : FabReq → Bool) : Bool :=
  s.fabReqs.any fun (x : Nat × FabReq) =>
    x.2.group == k && (x.2.lanes &&& lanes) != 0 && x.2.returns && !x.2.timedOut && f x.2

/-- Whether an acquire of some lanes is outstanding: at a peer, or an atomic still to be performed (R120, R332). -/
def State.acquiring (s : State) (k : Nat) (lanes : Mask) : Bool :=
  s.asking k lanes (fun r => r.acq.isSome)
  || s.atoms.any fun a => a.group == k && (a.lanes &&& lanes) != 0 && a.acq.isSome

/-- Whether everything but time and the scheduler lets a split's next word issue. A word whose access was held by an
absent line was issued before, and one that comes after all its lanes have issued waits until their atomics are
performed (R120).
Log 30: DEDUCED, unsafe. -/
def State.lets (s : State) (k j : Nat) (i : Instr) : Bool :=
  match s.group? k with
  | none => false
  | some g =>
    let sp := g.split j
    sp.held.isSome
    || (s.scoreboardLets g sp i && !s.awaitsShown g j i && !s.fragmentsDue k g i
      && (!takesEntry g.region.isSome i || s.entries g.core < Config.ottEntries)
      && (!queuesOp i || (s.unitOf g.core g.quarter).queue.length < Config.unitQueue)
      && (match waitsTile i with
          | some t => !(s.unitOf g.core g.quarter).holdsTile g.launch (g.tileKey t)
          | none => true)
      && !(waitsFabric g sp.mask i && s.postedOpen k)
      && !(waitsAnswers i && s.asking k sp.mask fun _ => true)
      && !(reachesMemory i && s.acquiring k sp.mask)
      && (staysLate (encode i) || !s.atomsOpen k sp.mask))

/-- Whether the time of a split's next word has come (R209, R282): its split goes on, its partition's issue slot is
free, and what it reads may be read. -/
def State.inTime (s : State) (k j : Nat) (i : Instr) : Bool :=
  match s.group? k with
  | none => false
  | some g =>
    let sp := g.split j
    sp.held.isSome
    || (sp.stall == 0 && Map.get (s.coreOf g.core).slots 0 (g.slot / 4) == 0
      && (g.lat.isEmpty || (s.readsOf g i).all fun n => Map.get g.lat 0 (if n < 768 then n else n + 8 * j) == 0))

end Sys2Proof.Machine
end

