-- ==== Sys2Proof/Machine/Ready.lean ====
section
/-!
DEFINITION. Which splits are ready (R33, R146, R175), and which of them a partition takes (R176, R177, R307).
-/

namespace Sys2Proof.Machine

open Sys2Proof

/-- Whether a group's context holds the active bank of its core, and its cell set runs there (R33, R53, R179). -/
def State.running (s : State) (g : Group) : Bool :=
  match s.ctx? g.launch g.core with
  | some c => c.res == .active && (g.handler || g.set == c.set)
  | none => false

/-! ### The cycle of an island -/

/-- RLEASE, RSUST, CAP and WSTEP of an island (R142). -/
def Island.rlease (x : Island) : Nat := bits x.ctl.toNat 63 52
def Island.rsust (x : Island) : Nat := bits x.ctl.toNat 51 40
def Island.cap (x : Island) : Nat := bits x.ctl.toNat 39 24
def Island.wstep (x : Island) : Nat := max 1 (bits x.ctl.toNat 23 12)

/-- The first priority class that is withheld (R146); 4 where none is. -/
def Island.withheld (x : Island) : Nat :=
  let w : Int := x.wstep
  if 0 ≤ x.a then 4 else if -w ≤ x.a then 3 else if -(2 * w) ≤ x.a then 2 else if -(3 * w) ≤ x.a then 1 else 0

/-- The units of an island in grant order: unit-major, then core. -/
def grantOrder (island : Nat) : List (Nat × Nat) := (List.range 4).flatMap fun u => (coresOf island).map fun c => (c, u)

/-- Whether an operation of a unit ends in this cycle: its cycles are over, and B has come (R317). -/
def MatUnit.endsNow (u : MatUnit) : Bool :=
  match u.busy with
  | some (op, 0) => op.thread.isNone
  | _ => false

/-- Whether an operation of an island's units ends in this cycle. -/
def State.endsDue (s : State) (island : Nat) : Bool := (grantOrder island).any fun c => (s.unitOf c.1 c.2).endsNow

/-- Whether the run timer has run out (R75): a value written to %tcmp counts from the next cycle of %run on (R73). -/
def Group.timerDue (g : Group) : Bool := g.armed && g.tcmp != 0 && decide (g.tcmp ≤ g.run)

/-! ### The fetch of a split -/

/-- What a word of a split sees, for a split that waits. -/
def State.issAt (s : State) (k j : Nat) : Option Iss :=
  match s.group? k with
  | none => none
  | some g =>
    match s.launch? g.launch, s.ctx? g.launch g.core with
    | some l, some c => some ⟨k, j, g, g, g.split j, l, c⟩
    | _, _ => none

/-- The word that a split issues: the one whose access was held (R112), or the one it fetches. -/
def Iss.fetch (s : State) (it : Iss) : Fetch :=
  match it.sp.held with
  | some h => .word h.word
  | none => s.fetchBytes it.l it.sp.pc.toNat 8

/-! ### Ready splits (R33, R146, R175) -/

/-- The lowest team that has not ended (R32). -/
def Launch.lowest (l : Launch) : Nat := (l.ended.foldl (fun (n : Nat) t => if t = n then n + 1 else n) 0)

/-- Whether a group is withheld in this cycle (R146): not the handler group, nor one of the lowest unfinished team
(R32). -/
def State.isWithheld (s : State) (g : Group) (l : Launch) : Bool :=
  !g.handler && g.team != l.lowest && decide ((s.island (islandOf g.core)).level ≤ l.r.prio)

/-- Whether the monitor and failed assertions let a split issue (R412, R414): ONEWORD lets one through. -/
def Launch.freeToIssue (l : Launch) (g : Group) (k j : Nat) : Bool :=
  l.oneword == some (k, j, false)
  || (l.oneword != some (k, j, true) && !l.halted && (g.handler || l.asserts == 0))

/-- Whether an island's cycle has begun: a lease that has ended and operations that end come before its words (R147,
R155). -/
def State.cycleBegun (s : State) (island : Nat) : Bool :=
  !((s.island island).ending.isSome && (s.island island).holder.isSome) && !s.endsDue island

/-- Whether nothing outside the word itself keeps a split from issuing: the clocks run and no checkpoint is taken, its
context is active and its group goes on, it waits for nothing, and no event comes first at its boundary (R397). A word
whose access was held has issued already (R112). -/
def State.mayIssue (s : State) (k j : Nat) : Bool :=
  match s.group? k with
  | none => false
  | some g =>
    match s.launch? g.launch with
    | none => false
    | some l =>
      let sp := g.split j
      !s.gate && !s.taking && s.running g && !g.gone && !l.stopped && sp.live && sp.wait == .none
      && (match g.region with | some r => r.due.isNone | none => true)
      && (sp.held.isSome
        || (!g.standsAtJoin j && s.cycleBegun (islandOf g.core) && !g.timerDue && !s.isWithheld g l && l.freeToIssue g k j))

/-- Whether a split's next word lies behind a CXL port that is not ready (R352). -/
def State.fetchWaits (s : State) (k j : Nat) : Bool :=
  match s.issAt k j with
  | some it => match it.fetch s with | .ports _ => true | _ => false
  | none => false

/-- Whether a split is ready (R175). A split whose fetch finds no instruction traps when it is taken.
Log 30: DEDUCED, unsafe. -/
def State.ready (s : State) (k j : Nat) : Bool :=
  s.mayIssue k j && !s.fetchWaits k j
  && (match s.nextWord k j with | some i => s.lets k j i && s.inTime k j i | none => ((s.group? k).map fun g => (g.split j).stall == 0).getD true)

/-- The split of a group that would issue next (R176, R410): the lowest live split that waits for nothing and whose next
word passes the scoreboard in this cycle. -/
def State.nextSplit (s : State) (k : Nat) : Option Nat :=
  match s.group? k with
  | none => none
  | some g => g.liveSplits.find? fun j =>
      (g.split j).wait == .none && (g.split j).held.isNone && !g.standsAtJoin j && (g.split j).stall == 0
      && (match s.nextWord k j with | some i => s.lets k j i && s.inTime k j i | none => true)

/-- Ready splits of the groups that satisfy a test. -/
def State.readyIn (s : State) (f : Nat → Bool) : List (Nat × Nat) :=
  s.groups.flatMap fun (x : Nat × Group) =>
    if f x.1 then (x.2.liveSplits.filter fun j => s.ready x.1 j).map fun j => (x.1, j) else []

/-- Whether a split's next issue is the access of a word that issued before (R112). -/
def State.heldAt (s : State) (k j : Nat) : Bool := match s.group? k with | some g => (g.split j).held.isSome | none => false

/-! ### The partition's pick (R176, R177, R307) -/

/-- Skipped picks that promote a group (R177). -/
def promoteAt : Nat := 256

/-- The rank of a split; the lowest number is taken. Log 30: DEDUCED, unsafe. -/
def State.rank (s : State) (k j : Nat) : Nat :=
  match s.group? k with
  | none => 0
  | some g =>
    let prio := match s.launch? g.launch with | some l => l.r.prio | none => 3
    let no (b : Bool) : Nat := if b then 0 else 1
    ((((((b2n (g.yieldLeft != 0) * 2 + no g.handler) * 2 + no (promoteAt ≤ g.passed)) * 4 + prio) * 2 ^ 40 + g.launch)
      * 2 ^ 32 + g.team) * 64 + g.gid) * 4 + j

/-- The partition of a group, over the package. -/
def State.partitionOf (s : State) (k : Nat) : Nat :=
  match s.group? k with
  | some g => 16 * g.core + g.slot / 4
  | none => 0

/-- Whether a split is the one that its partition takes among some ready ones (R176). Log 30: DEDUCED, unsafe. -/
def State.isPick (s : State) (rs : List (Nat × Nat)) (x : Nat × Nat) : Bool :=
  rs.all fun (y : Nat × Nat) =>
    s.heldAt y.1 y.2 || s.partitionOf y.1 != s.partitionOf x.1 || decide (s.rank x.1 x.2 ≤ s.rank y.1 y.2)

/-- Whether a partition has still to issue in this cycle of its island: each issues at most one word (R175), and they do
so in ascending order of core and partition, which settles what comes first in one cycle (R152, R173).
Log 3: DEDUCED, unsafe. -/
def State.stillIssues (s : State) (k : Nat) : Bool :=
  decide ((s.island (islandOf (s.partitionOf k / 16))).reached ≤ s.partitionOf k)

/-- Whether one of some ready splits may issue now: an access that was held is made (R112); else its partition has still
to issue in this cycle, and takes it. -/
def State.mayTake (s : State) (rs : List (Nat × Nat)) (x : Nat × Nat) : Bool :=
  s.heldAt x.1 x.2 || (s.stillIssues x.1 && s.isPick rs x)

end Sys2Proof.Machine
end

