-- ==== Sys2Proof/Machine/CellEvents.lean ====
section
/-!
DEFINITION. Events of barriers, traps, timers and cells (R46, R51, R53, R75, R270, R316, R399, R409), and results that
land (R199). An event has its effect where its condition holds, and none elsewhere.
-/

namespace Sys2Proof.Machine

open Sys2Proof

/-- An event: its effect where its condition holds. -/
@[inline] def event (ok : Bool) (s : State) : Option State := if ok then some s else none

/-- What an event comes to: its effect, or nothing where its condition does not hold. Log 33: DESIGN CHOICE, safe. -/
def occurs (o : Option State) (s : State) : Host.Outcome State Fault Refusal := .next (o.getD s)

/-- Whether the release of a split has reached it: the delay is over (R270). -/
def Split.releaseDue (sp : Split) : Bool := sp.stall == 0 && match sp.wait with | .bar _ _ _ _ true _ => true | _ => false

/-- BARRIER_RELEASE_DELIVERY (R268, R270): the splits of one island that the completion released, and whose delay is
over, go on from the next cycle, with E clear. Log 26: DEDUCED, unsafe. -/
def happensBarrierReleaseDelivery (launch core id island : Nat) (s : State) : Option State :=
  let waits (sp : Split) : Bool := sp.releaseDue && match sp.wait with
    | .bar c i _ _ _ _ => c == core && i == id
    | _ => false
  let hit := s.groups.flatMap fun (x : Nat × Group) =>
    if x.2.launch = launch ∧ islandOf x.2.core = island then
      ((x.2.liveSplits.filter fun j => waits (x.2.split j)).map fun j => (x.1, j))
    else []
  event (!s.gate && !hit.isEmpty) (hit.foldl (fun s (h : Nat × Nat) =>
    (s.modSplit h.1 h.2 fun sp => { sp with cc := { sp.cc with e := false }, stall := 1 }).resume h.1 h.2) s)

/-- BARRIER_RELEASE_DELIVERY, where its condition holds. -/
def execBarrierReleaseDelivery (launch core id island : Nat) (s : State) : Host.Outcome State Fault Refusal :=
  occurs (happensBarrierReleaseDelivery launch core id island s) s

/-! ### Traps (R399, R400) -/

/-- The handler group starts from HANDLER (R399), as a PC with bits 2:0 clear (R6); its first word issues `stall` cycles
later (R402). -/
def Group.startHandler (g : Group) (pc : Dword) (stall : Nat) : Group :=
  { g with splits := { st := .run, pc := pc &&& ~~~(7 : Dword), mask := allLanes, sig := sigStart, stall := stall }
                       :: List.replicate 3 {},
           stack := [] }

/-- What a group's trap makes visible (R294): its writes, and what lanes of the trapped mask release. Its atomics are
performed before, and reads of those lanes are late no longer. -/
def State.trapRelease (s : State) (k : Nat) (m : Mask) : State × List Nat :=
  let s := s.drainAtoms fun a => a.group == k
  let s := { s with loads := s.loads.filter fun r => !(r.it.key == k && (r.it.sp.mask &&& m) != 0) }
  match s.group? k with
  | none => (s, [])
  | some g => (s, s.trapWrites g m)

/-- The monitor answers a trap with event 1 in the mailbox (R412, R413); for the split of a ONEWORD that is its reply, and
RSEQ takes SEQ (R414). The boundary trap of ONEWORD has no stated cause, and RSTAT is a free value.
Log 14: DESIGN CHOICE, unsafe. Log 25: DEDUCED, unsafe. -/
def State.monitorAnswer (s : State) (launch core : Nat) (t : TrapRec) : State :=
  let rstat := if t.cause = 0 then (Config.freeWord s.free).toNat % 256 else t.cause
  let one := (s.launch? launch).bind (·.oneword) == some (t.group, t.split, true)
  let s := if one then (s.mailWrite core 34 2 (s.mail core 2 2)).modLaunch launch fun l => { l with oneword := none } else s
  { s.mailEvent core 1 rstat (whereField t.lane (t.group % 64) t.split) t.pc.toNat t.aux t.msg with free := s.free + 1 }

/-- Whether the oldest trap of a context can be delivered (R399, R402): the handler group is parked, 4 cycles have passed
since its RFT, and the cycle of the trap is over, whose traps have an order of their own. -/
def State.trapReady (s : State) (launch core : Nat) : Bool :=
  match s.ctx? launch core, s.group? (gkey launch core 0 handlerSlot) with
  | some c, some h => c.res == .active && c.serving.isNone && h.used.isEmpty && h.exited == 0 && (h.split 0).stall == 0
      && (match c.trapq with | t :: _ => t.cyc != (s.coreOf core).cyc | [] => false)
  | _, _ => false

/-- TRAP_DELIVERY: the oldest trap's record is written and the handler starts, so that its first word issues 12 cycles
after the trap at the earliest (R399, R402); what the trapped group has written and what the trapped lanes have seen is
visible to it (R294). The monitor, armed by HANDLER = 1, is a firmware routine. Log 14: DESIGN CHOICE, unsafe. Log 25:
DEDUCED, unsafe. -/
def happensTrapDelivery (launch core : Nat) (s : State) : Option State :=
  match s.ctx? launch core with
  | none => none
  | some c =>
    let k := gkey launch core 0 handlerSlot
    match c.trapq, s.group? k with
    | t :: rest, some _ =>
      let r := s.trapRelease t.group t.tmask
      let s' := (r.1.reveal k allLanes r.2).modCtx launch core fun c =>
        { c with trapq := rest, serving := some t, hscr := Map.putBytes c.hscr 0 t.bytes }
      let s' := if c.handler = 1 then s'.monitorAnswer launch core t
        else s'.modGroup k fun g => g.startHandler c.handler (12 - ((s.coreOf core).cyc - t.cyc).toNat)
      event (!s.gate && s.trapReady launch core) s'
    | _, _ => none

/-- TRAP_DELIVERY, where its condition holds. -/
def execTrapDelivery (launch core : Nat) (s : State) : Host.Outcome State Fault Refusal :=
  occurs (happensTrapDelivery launch core s) s

/-- A boundary trap on a split (R397, R400): the trapped mask is its Mask. -/
def boundaryTrap (sp : Split) (cause aux : Nat) : Trap :=
  { cause := cause, lane := lowest sp.mask, tmask := sp.mask, aux := aux, pc := sp.pc }

/-- RUN_TIMER: cause 0x71 at the boundary of the split that would issue next (R75, R410). -/
def happensRunTimer (k : Nat) (s : State) : Option State :=
  match s.group? k with
  | none => none
  | some g =>
    match s.nextSplit k with
    | none => none
    | some j =>
      event (!s.gate && s.running g && g.timerDue)
        ((s.modGroup k fun g => { g with tcmp := 0 }).raise k j (boundaryTrap (g.split j) 0x71 g.run.toNat))

/-- RUN_TIMER, where its condition holds. -/
def execRunTimer (k : Nat) (s : State) : Host.Outcome State Fault Refusal :=
  occurs (happensRunTimer k s) s

/-- Limit of the step watchdog and of a parked MMAQ (R316, R409). -/
def watchLimit : Nat := 2 ^ 24

/-- STEP_WATCHDOG: the split with the lowest index that waits at STEP raises cause 0x70 (R401, R409).
Log 32: DEDUCED, unsafe. -/
def happensStepWatchdog (k : Nat) (s : State) : Option State :=
  match s.group? k with
  | none => none
  | some g =>
    match g.liveSplits.find? fun j => (g.split j).wait == .step, s.launch? g.launch, s.ctx? g.launch g.core with
    | some j, some l, some c =>
      let aux := g.step % 2 ^ 32 + 2 ^ 32 * stepqCount s g c l.r
      event (!s.gate && s.running g && decide (watchLimit ≤ g.stepWait))
        ((s.modGroup k fun g => { g with stepWait := 0 }).raise k j (boundaryTrap (g.split j) 0x70 aux))
    | _, _, _ => none

/-- STEP_WATCHDOG, where its condition holds. -/
def execStepWatchdog (k : Nat) (s : State) : Host.Outcome State Fault Refusal :=
  occurs (happensStepWatchdog k s) s

/-- MMAQ_RENDEZVOUS_TIMEOUT (R316). Log 32: DEDUCED, unsafe. -/
def happensMmaqRendezvousTimeout (k j : Nat) (s : State) : Option State :=
  match s.group? k with
  | none => none
  | some g =>
    match (g.split j).wait with
    | .mmaq .. =>
      event (!s.gate && s.running g && (g.split j).live && decide (watchLimit ≤ (g.split j).mmaqWait))
        ((s.modSplit k j fun sp => { sp with mmaqWait := 0 }).raise k j (boundaryTrap (g.split j) 0x31 4))
    | _ => none

/-- MMAQ_RENDEZVOUS_TIMEOUT, where its condition holds. -/
def execMmaqRendezvousTimeout (k j : Nat) (s : State) : Host.Outcome State Fault Refusal :=
  occurs (happensMmaqRendezvousTimeout k j s) s

/-! ### Cells (R46, R47, R51, R53) -/

/-- Whether the sets of a core let a group enter its next step (R53): every set has published this step, and every
earlier set the next one. -/
def setsLet (s : State) (g : Group) : Bool :=
  (s.coreGroups g.launch g.core).all fun x =>
    x.gone || decide (g.step + (if x.set < g.set then 2 else 1) ≤ x.published)

/-- The next copy is loaded from the current one in every lane that holds a cell (R46, step 4). -/
def Group.carry (g : Group) : Group :=
  let n : Group := { g with step := g.step + 1 }
  (lanesOf g.cellMask).foldl (fun x l =>
    (List.range g.e).foldl (fun x j => x.writeReg (.v (112 + j) l) (g.readV (112 + j) l)) x) n

/-- Each split that waited at STEP continues at the word after it. -/
def Group.stepOn (g : Group) : Group :=
  g.liveSplits.foldl (fun g j =>
    if (g.split j).wait = .step then g.modSplit j fun sp => { sp with wait := .none, pc := sp.pc + 8 } else g) g

/-- STEP_ENTER (R46, R47, R53). -/
def happensStepEnter (k : Nat) (s : State) : Option State :=
  match s.group? k with
  | none => none
  | some g =>
    match s.launch? g.launch, s.ctx? g.launch g.core with
    | some l, some c =>
      let met := g.published == g.step + 1 && !g.liveSplits.isEmpty
        && g.liveSplits.all fun j => (g.split j).wait == .step
      event (!s.gate && s.running g && met && (c.sets == 1 || setsLet s g) && mayEnter s g c l.r)
        ((s.modGroup k fun g => ({ g.carry with stepWait := 0 } : Group).stepOn).settle k)
    | _, _ => none

/-- STEP_ENTER, where its condition holds. -/
def execStepEnter (k : Nat) (s : State) : Host.Outcome State Fault Refusal :=
  occurs (happensStepEnter k s) s

/-- A push reaches the receiving core's halo store (R51, R55); older tokens of its sender are spent, and a final one names
how many steps its sender published (R48). Log 32: DEDUCED, unsafe. -/
def Ctx.receive (c : Ctx) (src step : Nat) (final : Bool) (vals : List (Nat × Word)) : Ctx :=
  { c with
    halo := haloPut c.halo (if final then [] else vals)
    arrived := (c.arrived.filter fun (a : Nat × Nat × Bool) => a.1 != src || a.2.2 || final || decide (step ≤ a.2.1 + 1))
      ++ [(src, step, final)] }

/-- A push has arrived: the values, their bytes, and one pending fill less on the lines it covers (R112); `sent` says
whether the lines were counted when it was sent. -/
def State.receivePush (s : State) (launch core : Nat) (r : Record) (src step : Nat) (final : Bool)
    (vals : List (Nat × Word)) (sent : Bool) : State :=
  let s := s.modCtx launch core fun c => c.receive src step final vals
  if final then s
  else
    let s := if sent then s.modCtx launch core fun c => c.pend (c.haloLines r vals) (· - 1) else s
    s.haloBytes launch core r vals

/-- HALO_PUSH_ARRIVAL (R51): a push of this device, or one of a peer's core; one that waits for a plane is sent when there
is one (R349). Log 35: DESIGN CHOICE, unsafe. -/
def happensHaloPushArrival (p : PushIn) (s : State) : Option State :=
  match p with
  | .transit i =>
    match s.pushes[i]? with
    | none => none
    | some p =>
      let s' := { s with pushes := s.pushes.eraseIdx i }
      match s.launch? p.launch with
      | none => event (!s.gate) s'
      | some l =>
        let e := l.cores.getD p.dst ⟨0, 0, 0⟩
        if e.dev = s.regs.devno then
          event (!s.gate) (s'.receivePush p.launch e.core l.r p.src p.step p.final p.vals true)
        else event (!s.gate && !s.noPlane) { s' with fabricOut := s'.fabricOut ++ [.halo e.dev p] }
  | .peer launch core src step final vals =>
    match s.launch? launch with
    | none => none
    | some l =>
      event (!s.gate && (s.ctx? launch core).isSome && s.regs.fabEn)
        (s.receivePush launch core l.r src step final (vals.map fun (v : Nat × Nat) => (v.1, BitVec.ofNat 32 v.2)) false)

/-- HALO_PUSH_ARRIVAL, where its condition holds. -/
def execHaloPushArrival (p : PushIn) (s : State) : Host.Outcome State Fault Refusal :=
  occurs (happensHaloPushArrival p s) s

/-- Whether a set of a core still has a group that has not exited, and how often its groups have published. -/
def setLive (gs : List Group) (i : Nat) : Bool := gs.any fun g => g.set == i && !g.gone
def setPublished (gs : List Group) (i : Nat) : Nat :=
  ((gs.filter fun g => g.set == i && !g.gone).map (·.published)).foldl max 0

/-- The set that runs after set i: the next one in order, cyclically, that still has a group.
Log 32: DEDUCED, unsafe. -/
def nextSet (gs : List Group) (i sets : Nat) : Option Nat :=
  ((List.range (sets - 1)).map fun d => (i + 1 + d) % sets).find? (setLive gs)

/-- The swap of one core (R179, R181): the banks change over. -/
def State.swapBank (s : State) (core : Nat) : State := s.modCore core fun c => { c with bank := 1 - c.bank }

/-- CELL_SET_SWAP (R53): the running set has executed its STEP, or has exited, and the next one is behind it in the
order of sets and steps; the banks swap. The set that went out is spilled after the swap, and holds the shadow bank
until then (R58).
Log 32: DEDUCED, unsafe. -/
def happensCellSetSwap (launch core : Nat) (s : State) : Option State :=
  match s.ctx? launch core with
  | none => none
  | some c =>
    let gs := s.coreGroups launch core
    match c.spilling, nextSet gs c.set c.sets with
    | some i, _ => event (!s.gate) ((s.spillSet launch core i).modCtx launch core fun c => { c with spilling := none })
    | none, none => none
    | none, some n =>
      let own := gs.filter fun g => g.set == c.set && !g.gone
      let done := own.all fun g => g.published == g.step + 1
      let behind := own.isEmpty
        || (if c.set < n then decide (setPublished gs n < setPublished gs c.set)
            else decide (setPublished gs n ≤ setPublished gs c.set))
      event (!s.gate && c.res == .active && done && behind)
        ((s.swapBank core).modCtx launch core fun c => { c with set := n, spilling := some c.set })

/-- CELL_SET_SWAP, where its condition holds. -/
def execCellSetSwap (launch core : Nat) (s : State) : Host.Outcome State Fault Refusal :=
  occurs (happensCellSetSwap launch core s) s

/-- Whether a result may land (R199, R209): its window is over, its value is there, its time has come where its word has a
latency, and its split's word in hand writes none of its registers any more. -/
def State.mayLand (s : State) (sp : Split) (p : Pend) : Bool :=
  p.left == 0 && p.waits.isEmpty && (match p.lat with | some n => n == 0 | none => true) && !s.underWay sp p

/-- LONG_LATENCY_RESULT_LAND (R199, R201): a result whose window is over and whose value is there is written. -/
def happensLongLatencyResultLand (k j i : Nat) (s : State) : Option State :=
  match s.group? k with
  | none => none
  | some g =>
    match (g.split j).pend[i]? with
    | none => none
    | some p => event (!s.gate && s.mayLand (g.split j) p) ((s.modGroup k fun g => g.land j i).settle k)

/-- LONG_LATENCY_RESULT_LAND, where its condition holds. -/
def execLongLatencyResultLand (k j i : Nat) (s : State) : Host.Outcome State Fault Refusal :=
  occurs (happensLongLatencyResultLand k j i s) s

end Sys2Proof.Machine
end

