-- ==== Sys2Proof/Machine/MemEvents.lean ====
section
/-!
DEFINITION. Events of the memory system and of engine threads (R108, R110, R112, R119, R122, R311, R351, R421, R425).
-/

namespace Sys2Proof.Machine

open Sys2Proof

/-! ### Translations -/

/-- Entries of a core's TLB (R107). -/
def tlbEntries : Nat := 2048

/-- TRANSLATION_WALK_COMPLETE (R108): the walk of a pinned page returns its kept translation (R109), so that it confirms
or replays an access without effect on values; the TLB gains the page, tagged by its context.
Log 4: DESIGN CHOICE, safe. -/
def happensTranslationWalkComplete (core page : Nat) (s : State) : Option State :=
  let own := s.ctxs.filterMap fun (x : Nat × Ctx) =>
    if x.2.core = core && x.2.res == .active
      && (match s.launch? x.2.launch with | some l => (Map.find? l.pages page).isSome | none => false)
    then some (x.2.launch, page) else none
  event (!s.gate && !own.isEmpty)
    (s.modCore core fun c => { c with tlb := (own ++ c.tlb.filter fun e => !own.contains e).take tlbEntries })

/-- TRANSLATION_WALK_COMPLETE, where its condition holds. -/
def execTranslationWalkComplete (core page : Nat) (s : State) : Host.Outcome State Fault Refusal :=
  occurs (happensTranslationWalkComplete core page s) s

/-- Cells of memory moved from one range to another of the same length. Log 17: DEDUCED, unsafe. -/
def moveCells (m : List Host.Cell) (src dst n : Nat) : List Host.Cell :=
  let moved := m.filter fun (c : Nat × BitVec 8) => decide (src ≤ c.1) && decide (c.1 < src + n)
  let kept := m.filter fun (c : Nat × BitVec 8) => !(decide (dst ≤ c.1) && decide (c.1 < dst + n))
  moved.foldl (fun m (c : Nat × BitVec 8) => Memory.write m (dst + (c.1 - src)) c.2) kept

/-- Numbers of words or granules moved likewise, `u` bytes each. -/
def moveMarks (l : List Nat) (src dst n u : Nat) : List Nat :=
  let moved := l.filter fun x => decide (src ≤ u * x) && decide (u * x < src + n)
  let kept := l.filter fun x => !(decide (dst ≤ u * x) && decide (u * x < dst + n))
  moved.foldl (fun l x => Nats.ins l ((dst + (u * x - src)) / u)) kept

/-- The history of a page moves with it, and that of the place it takes is over. -/
def moveHist (h : List Wr) (src dst n : Nat) : List Wr :=
  h.filterMap fun w =>
    if w.space != .mem then some w
    else if src ≤ w.addr ∧ w.addr < src + n then some { w with addr := dst + (w.addr - src) }
    else if dst ≤ w.addr ∧ w.addr < dst + n then none
    else some w

/-- Whether a range of virtual addresses holds a slot or a slot state of a valid arena, which must lie in HBM (R132). -/
def State.holdsArena (s : State) (va n : Nat) : Bool :=
  s.inSlotStates va n || s.validArenas.any fun (p : Nat × ArenaEntry) =>
    decide (p.2.base < va + n) && decide (va < p.2.base + p.2.slots * p.2.slotBytes)

/-- PAGE_MIGRATION (R110): a page that no launch and no export pins moves to another place of its size, with its tags and
poison and with the writes that made its bytes, and its table entry names the new place. The thread's fork, its copy and
its join are this one event, between launches. Log 17: DEDUCED, unsafe. -/
def happensPageMigration (page pa : Nat) (s : State) : Option State :=
  match s.walk (65536 * page) with
  | none => none
  | some l =>
    let first := 65536 * page / l.size * l.size / 65536
    let held := (List.range (l.size / 65536)).any fun i => (s.keptPage (first + i)).isSome
    let ok := pa % l.size == 0 && (kindOf pa).plain && (kindOf (pa + l.size - 1)).plain
      && decide (pa + l.size ≤ l.pa ∨ l.pa + l.size ≤ pa)
    let ok := ok && (!s.holdsArena (65536 * first) l.size || (kindOf pa == .hbm && kindOf (pa + l.size - 1) == .hbm))
    let e := leNat (s.physBytes l.entry 8)
    let s' := { s with
      mem := moveCells s.mem l.pa pa l.size
      hist := moveHist s.hist l.pa pa l.size
      tags := (moveMarks s.tags l.pa pa l.size 4).filter fun w => kindOf (4 * w) == LocKind.hbm
      bad := moveMarks s.bad l.pa pa l.size 32 }
    event (!s.gate && ok && !held && (s.walkPorts page).isEmpty)
      (s'.writePhys l.entry (leBytes 8 (e - bits e 51 16 * 65536 + pa / 65536 * 65536)) false false)

/-- PAGE_MIGRATION, where its condition holds. -/
def execPageMigration (page pa : Nat) (s : State) : Host.Outcome State Fault Refusal :=
  occurs (happensPageMigration page pa s) s

/-! ### Writes in flight -/

/-- STORE_PERFORMED_AT_HOME (R119, R379): writes of one lane to a common byte are performed in program order, those of one
word in the order of its lanes (R117). The numbers from that of the last pending store on name pending atomics (R264).
Log 2: DESIGN CHOICE, unsafe. -/
def happensStorePerformedAtHome (i : Nat) (s : State) : Option State :=
  match s.stores[i]?, s.atoms[i - s.stores.length]? with
  | some st, _ =>
    let before := s.stores.any fun x => st.after.contains x.id
    event (!s.gate && !before) ({ s with stores := s.stores.eraseIdx i }.perform st)
  | none, some a =>
    let before := s.atoms.any fun x => a.after.contains x.id
    event (!s.gate && !before) ({ s with atoms := s.atoms.filter fun x => x.id != a.id }.performAtom a)
  | none, none => none

/-- STORE_PERFORMED_AT_HOME, where its condition holds. -/
def execStorePerformedAtHome (i : Nat) (s : State) : Host.Outcome State Fault Refusal :=
  occurs (happensStorePerformedAtHome i s) s

/-- HOST_WRITE_COMPLETED_AT_MEMORY (R122, R130). Log 2: DESIGN CHOICE, unsafe. -/
def happensHostWriteCompletedAtMemory (i : Nat) (s : State) : Option State :=
  event (decide (i < s.hostWrites.length)) { s with hostWrites := s.hostWrites.eraseIdx i }

/-- HOST_WRITE_COMPLETED_AT_MEMORY, where its condition holds. -/
def execHostWriteCompletedAtMemory (i : Nat) (s : State) : Host.Outcome State Fault Refusal :=
  occurs (happensHostWriteCompletedAtMemory i s) s

/-- CONTAINMENT_UNWIND (R425). -/
def happensContainmentUnwind (k : Nat) (s : State) : Option State :=
  match s.group? k with
  | none => none
  | some g =>
    match g.region with
    | none => none
    | some r => event (!s.gate && s.running g && g.unwindReady r) (s.unwind k)

/-- CONTAINMENT_UNWIND, where its condition holds. -/
def execContainmentUnwind (k : Nat) (s : State) : Host.Outcome State Fault Refusal :=
  occurs (happensContainmentUnwind k s) s

/-- A granule of memory, or of a line of the LLC, cannot be corrected, with its tags (R419). -/
def State.spoil (s : State) (pa : Nat) : State :=
  { s with bad := Nats.ins s.bad (granule pa), tags := s.tags.filter fun w => granule (4 * w) != granule pa }

/-- A unit of 128 bytes of a weight die cannot be corrected (R419). -/
def State.spoilWeights (s : State) (die unit : Nat) : State :=
  s.modDie die fun d => { d with badUnits := Nats.ins d.badUnits unit }

/-- Where PATROL_SCRUB names the bytes of the weight dies, which no physical address reaches (R103, R320): above the
physical addresses, 1 GiB for each die. Log 33: DESIGN CHOICE, safe. -/
def weightsAt : Nat := 2 ^ 52

/-- PATROL_SCRUB (R419, R421): a granule of a memory or of a line of the LLC, or a unit of a weight die, is read and
corrected, or poisoned; its energy goes to the housekeeping account. Scrubbing stops while the clocks are gated (R445).
Log 4: DESIGN CHOICE, safe. -/
def happensPatrolScrub (addr : Nat) (bad : Bool) (cost : Nat) (s : State) : Option State :=
  let w := addr - weightsAt
  let weights := decide (weightsAt ≤ addr) && decide (w < 2 ^ 32)
  let s' := if !bad then s else if weights then s.spoilWeights (w / 2 ^ 30) (w % 2 ^ 30 / 128) else s.spoil addr
  event (!s.gate && (weights || (kindOf addr).plain))
    { s' with regs := { s.regs with hkacct := (s.regs.hkacct + cost) % 2 ^ 64 } }

/-- PATROL_SCRUB, where its condition holds. -/
def execPatrolScrub (addr : Nat) (bad : Bool) (cost : Nat) (s : State) : Host.Outcome State Fault Refusal :=
  occurs (happensPatrolScrub addr bad cost s) s

/-! ### Engine threads (R112, R311, R317) -/

/-- Global ranges that a thread touches. -/
def Thread.ranges (th : Thread) : List (Nat × Nat) :=
  let tensor (td : BitVec 256) : List (Nat × Nat) :=
    let d := Desc.of td
    let last := [d.extent 0 - 1, d.extent 1 - 1, d.extent 2 - 1, d.extent 3 - 1]
    (d.base, d.elemVa last + d.elemBytes - d.base)
      :: (if d.isBlock then [(d.sbase, d.scaleVa last + 1 - d.sbase)] else [])
  match th.cmd with
  | .copy src dst n =>
    (match src with | .mem va => [(va, n)] | _ => []) ++ (match dst with | .mem va => [(va, n)] | _ => [])
  | .tile td .. | .gpool td .. | .scata td .. => tensor td
  | .commit _ _ n dst ver _ => [(dst, n), (ver, 8)]
  | .wload _ src _ n => [(src, n)]
  | _ => []

/-- Whether a thread waits for a CXL port that is not ready (R352). -/
def State.threadPorts (s : State) (th : Thread) : Bool :=
  match s.launch? th.launch with
  | some l => th.ranges.any fun (r : Nat × Nat) => (pagesOf r.1 r.2).any fun p =>
      l.pinned p && kindOf (l.phys p) == .cxl && !(portsOf s l p 1).isEmpty
  | none => false

/-- Whether a thread waits for its weight die (R352); one whose link has failed does not (R436). -/
def State.threadWeights (s : State) (th : Thread) : Bool :=
  match th.cmd with
  | .wmv .. => !bit (s.regs.rdy.getD 0 0) (24 + dieOf th.core) && !weightLost s (dieOf th.core)
  | .wload die .. => !bit (s.regs.rdy.getD 0 0) (24 + die) && !weightLost s die
  | _ => false

/-- Whether an MMAS thread's operation has been granted (R317). -/
def State.mmasGranted (s : State) (t : Nat) : Bool :=
  s.units.any fun (x : Nat × MatUnit) => match x.2.busy with
    | some (op, _) => op.thread == some t
    | none => false

/-- Whether a thread can go on: it is not held, its operands are there and what it reaches is ready. -/
def State.threadMoves (s : State) (t : Nat) (th : Thread) : Bool :=
  !th.held && !th.waits s && !s.threadPorts th && !s.threadWeights th
  && (match th.cmd with
      | .gpool .. => !s.gatherWaits th
      | .mmas .. => s.mmasGranted t
      | .post .. | .heldStores .. | .heldAlloc .. | .heldFree .. => false
      | _ => true)

/-- ENGINE_LINE_LANDED (R112, R311): unit k of a thread lands. -/
def happensEngineLineLanded (t k : Nat) (s : State) : Option State :=
  match Map.find? s.threads t with
  | none => none
  | some th =>
    event (!s.gate && s.threadMoves t th && decide (k < th.units s) && !th.done.contains k) (s.landUnit t k)

/-- ENGINE_LINE_LANDED, where its condition holds. -/
def execEngineLineLanded (t k : Nat) (s : State) : Host.Outcome State Fault Refusal :=
  occurs (happensEngineLineLanded t k s) s

/-- A thread ends: what is left of it lands, a CPYC commits, an MMAS hands its B over; then its arrival and its table
entry (R311, R317, R325). An FGET makes no arrival: its sectors stand for it (R333). -/
def State.endThread (s : State) (t : Nat) (cmd : EngCmd) : State :=
  let s := s.landUnits t
  let s := match cmd with | .commit .. => s.commitThread t | _ => s
  match Map.find? s.threads t with
  | none => s
  | some th =>
    let s := match cmd with | .mmas .. => s.mmasReady t th | _ => s
    let s := match cmd with | .fget .. => s | _ => s.threadJoin th
    { s with threads := Map.del s.threads t }

/-- ENGINE_COMPLETION (R311). An FGET ends when all its packets have come, an FPUT when all were sent; what went to a
peer has been answered (R333). -/
def happensEngineCompletion (t : Nat) (s : State) : Option State :=
  match Map.find? s.threads t with
  | none => none
  | some th =>
    let all := match th.cmd with
      | .fget va _ _ n => decide ((bulkLines va n).length ≤ th.done.length)
      | .fput _ _ _ n _ => decide (ceilDiv n 4096 ≤ th.done.length)
      | .scata _ _ _ _ rows _ => decide (rows ≤ th.done.length)
      | _ => true
    event (!s.gate && s.threadMoves t th && all && decide (th.asked ≤ th.answered)) (s.endThread t th.cmd)

/-- ENGINE_COMPLETION, where its condition holds. -/
def execEngineCompletion (t : Nat) (s : State) : Host.Outcome State Fault Refusal :=
  occurs (happensEngineCompletion t s) s

end Sys2Proof.Machine
end

