-- ==== Sys2Proof/Machine/IslandEvents.lean ====
section
/-!
DEFINITION. Events of the power islands and matrix units (R142 to R156, R312, R315, R431, R432, R444 to R446): the core
cycle, grants and ends of matrix operations, self-tests, the Chinook store, leases, the FLL and the thermal gate.
-/

namespace Sys2Proof.Machine

open Sys2Proof

/-! ### Leases that end (R155, R156) -/

/-- A trap of a lease's end, or of an operation that met a fence, is raised at the boundary of the split that would issue
next; the run timer's comes first, and a trap of the group that is being served comes back first (R397, R398, R432).
Log 31: DESIGN CHOICE, unsafe. -/
def State.raiseDue (s : State) (k : Nat) : State :=
  match s.group? k, s.nextSplit k with
  | some g, some j =>
    if s.running g && !g.timerDue && !(g.splits.any fun sp => sp.wait == .trapped) then
      match g.due with
      | some aux => (s.modGroup k fun g => { g with due := none }).raise k j (boundaryTrap (g.split j) 0x80 aux)
      | none =>
        if g.fenced then (s.modGroup k fun g => { g with fenced := false }).raise k j (boundaryTrap (g.split j) 0x31 2) else s
    else s
  | _, _ => s

/-- A lease ends with the trap of its taking group (R155). -/
def State.expire (s : State) (i aux : Nat) : State :=
  match (s.island i).holder with
  | none => s
  | some (k, _) =>
    ((s.modIsland i Island.endLease).modGroup k fun g => { g with due := some aux }).raiseDue k

/-- LEASE_EXPIRY (R155). A lease that the charges of a cycle have used up ended in that cycle (R156). -/
def happensLeaseExpiry (i : Nat) (s : State) : Option State :=
  match (s.island i).ending with
  | none => none
  | some aux => event (!s.gate && (s.island i).holder.isSome)
      ((s.expire i aux).modIsland i fun x => { x with ended := aux == 1 })

/-- LEASE_EXPIRY, where its condition holds. -/
def execLeaseExpiry (i : Nat) (s : State) : Host.Outcome State Fault Refusal :=
  occurs (happensLeaseExpiry i s) s

/-- Islands that hold a lease. -/
def State.leased (s : State) : List Nat :=
  (s.islands.filter fun (x : Nat × Island) => x.2.holder.isSome).map Prod.fst

/-- Whether an island on a die that stands has considered, in its cycle, a SPRINT that refreeze would have refused. -/
def State.grantedNow (s : State) : Bool :=
  s.islands.any fun (x : Nat × Island) => x.2.granted && !(s.die (x.1 / 10)).fenced

/-- An island's lease ends where refreeze begins (R155); one that charges have used up ended in the cycle before (R156).
While the clocks are gated that waits for the gate's end (R446). -/
def State.freeze (s : State) (i : Nat) : State :=
  match (s.island i).ending with
  | some aux => if s.gate then s else (s.expire i aux).modIsland i fun x => { x with ended := aux == 1 }
  | none => if s.gate then s.modIsland i fun x => { x with ending := some 1 } else s.expire i 1

/-- MELT_UPDATE (R151): every lease ends where refreeze begins, which is in no cycle that has considered a SPRINT which
refreeze refuses (R156). An update that shows the store melted whole begins a thermal gate, and one that breaks its
condition restarts its interval (R445). Log 4: DESIGN CHOICE, safe. -/
def happensMeltUpdate (melt : Nat) (s : State) : Option State :=
  let enter := !s.refreeze && decide (0xC000 ≤ melt)
  let s' := { s with melt := melt, refreeze := if enter then true else s.refreeze && decide (0x1999 < melt) }
  let s' := if enter then s.leased.foldl State.freeze s' else s'
  event (decide (melt ≤ 0x10000) && !(enter && !s.gate && s.grantedNow))
    { s' with gate := s.gate || melt == 0x10000, coolFrom := if 0xF000 ≤ melt then (s.die 0).wall else s.coolFrom }

/-- MELT_UPDATE, where its condition holds. -/
def execMeltUpdate (melt : Nat) (s : State) : Host.Outcome State Fault Refusal :=
  occurs (happensMeltUpdate melt s) s

/-- FLL_STEP (R143): one step of 25 MHz towards the target. -/
def happensFllStep (i : Nat) (s : State) : Option State :=
  let x := s.island i
  event (!s.gate && x.mhz != x.target) (s.modIsland i fun x =>
    { x with mhz := if x.mhz < x.target then min x.target (x.mhz + 25) else max x.target (x.mhz - 25) })

/-- FLL_STEP, where its condition holds. -/
def execFllStep (i : Nat) (s : State) : Host.Outcome State Fault Refusal :=
  occurs (happensFllStep i s) s

/-- THERMAL_GATE_BEGIN (R445): a junction sensor passes its limit; while clocks are gated, one breaks the condition of the
gate's end, whose interval starts anew. -/
def happensThermalGateBegin (s : State) : Option State := event true { s with gate := true, coolFrom := (s.die 0).wall }

/-- THERMAL_GATE_BEGIN, where its condition holds. -/
def execThermalGateBegin (s : State) : Host.Outcome State Fault Refusal :=
  occurs (happensThermalGateBegin s) s

/-! ### Matrix units (R147 to R150, R315, R431, R432) -/

/-- The operation a unit would start: the earliest queued one that no region holds and whose context is active. -/
def State.nextOp (s : State) (core u : Nat) : Option Nat :=
  let q := (s.unitOf core u).queue
  (List.range q.length).find? fun i => match q[i]? with
    | none => false
    | some op =>
      (match op.thread with
        | some t => match Map.find? s.threads t with | some th => !th.held | none => true
        | none => true)
      && (match s.ctx? op.launch core with | some c => c.res == .active | none => true)

/-- A unit starts an operation; one that a fence forbids is not performed, its thread only makes its arrival, and a trap
is due in its groups (R432). Log 31: DESIGN CHOICE, unsafe. -/
def State.startOp (s : State) (core u i : Nat) : State :=
  let un := s.unitOf core u
  match un.queue[i]? with
  | none => s
  | some op =>
    let joint := op.parts.length != 1
    let s := s.modUnit core u fun x => { x with queue := x.queue.eraseIdx i }
    if 2 ≤ un.fenced.length || (joint && !un.fenced.isEmpty) then
      let s := op.parts.foldl (fun s p => s.modGroup p.group fun g => { g with fenced := true }) s
      match op.thread with
      | none => s
      | some t =>
        match Map.find? s.threads t with
        | some th => { (s.threadErr t).threadJoin th with threads := Map.del s.threads t }
        | none => s
    else
      s.modUnit core u fun x =>
        { x with busy := some (op, if joint then op.cycles else unitCycles un), warm := false, filler := false }

/-- Whether a unit runs an operation in this cycle. -/
def MatUnit.running (u : MatUnit) : Bool := match u.busy with | some (_, n) => n != 0 | none => false

/-- One unit's request in a cycle: it goes on without a grant where it was busy or is filler, else it takes one of the
step's four grants (R147, R149). Log 31: DEDUCED, unsafe. -/
def State.grantUnit (s : State) (island : Nat) (c : Nat × Nat) : State :=
  let u := s.unitOf c.1 c.2
  let sl := (s.island island).slew
  match u.busy, s.nextOp c.1 c.2 with
  | none, some i =>
    if u.warm || u.filler then s.startOp c.1 c.2 i
    else if sl.on && 4 ≤ sl.grants then s
    else
      let sl := if sl.on then { sl with grants := sl.grants + 1 } else { on := true, cycle := 0, grants := 1, last := 0 }
      (s.modIsland island fun x => { x with slew := sl }).startOp c.1 c.2 i
  | _, _ => s

/-- Whether a unit has a request that this cycle can serve. -/
def State.canGrant (s : State) (island : Nat) (c : Nat × Nat) : Bool :=
  let u := s.unitOf c.1 c.2
  let sl := (s.island island).slew
  u.busy.isNone && (s.nextOp c.1 c.2).isSome && (u.warm || u.filler || !sl.on || decide (sl.grants < 4))

/-- One more than the last partition of the package: no word issues any more in this cycle. -/
def noPartition : Nat := Config.cores * Config.partitions

/-- MATRIX_GRANT (R149): the requests of a cycle are those of all the words that issue in it. Log 31: DEDUCED, unsafe. -/
def happensMatrixGrant (island : Nat) (s : State) : Option State :=
  event (!s.gate && (grantOrder island).any (s.canGrant island))
    (((grantOrder island).foldl (fun s c => s.grantUnit island c) s).modIsland island fun x =>
      { x with reached := noPartition })

/-- MATRIX_GRANT, where its condition holds. -/
def execMatrixGrant (island : Nat) (s : State) : Host.Outcome State Fault Refusal :=
  occurs (happensMatrixGrant island s) s

/-- MATRIX_OP_END (R315): the tile and its row registers are written; a unit whose operation ends inside a step is filler
for the rest of it (R150). Log 31: DEDUCED, unsafe. -/
def happensMatrixOpEnd (core u : Nat) (s : State) : Option State :=
  match (s.unitOf core u).busy with
  | some (op, 0) =>
    let sl := (s.island (islandOf core)).slew
    event (!s.gate && op.thread.isNone) ((s.matEffect core op).modUnit core u fun x =>
      { x with busy := none, warm := true, filler := sl.on && sl.cycle != 0 })
  | _ => none

/-- MATRIX_OP_END, where its condition holds. -/
def execMatrixOpEnd (core u : Nat) (s : State) : Host.Outcome State Fault Refusal :=
  occurs (happensMatrixOpEnd core u s) s

/-- MATRIX_SELF_TEST (R431): a sub-array that fails twice in a row is fenced; the test is charged to housekeeping, and one
that was due is made. Log 4: DESIGN CHOICE, safe. Log 31: DEDUCED, unsafe. -/
def happensMatrixSelfTest (core u sub : Nat) (fail : Bool) (cost : Nat) (s : State) : Option State :=
  let un := s.unitOf core u
  let fence := fail && un.failed.contains sub
  let s' := s.modUnit core u fun x =>
    { x with failed := if fail && !fence then Nats.ins x.failed sub else Nats.del x.failed sub
             fenced := if fence then Nats.ins x.fenced sub else x.fenced
             testDue := Nats.del x.testDue sub }
  let s' := { s' with regs := { s'.regs with hkacct := (s'.regs.hkacct + cost) % 2 ^ 64 } }
  event (!s.gate && decide (core < Config.cores) && decide (u < 4) && decide (sub < 8) && un.busy.isNone
    && !un.fenced.contains sub) (if fence then s'.vector 66 else s')

/-- MATRIX_SELF_TEST, where its condition holds. -/
def execMatrixSelfTest (core u sub : Nat) (fail : Bool) (cost : Nat) (s : State) : Host.Outcome State Fault Refusal :=
  occurs (happensMatrixSelfTest core u sub fail cost s) s

/-! ### The core cycle (R144 to R150, R154) -/

/-- The fillers of a step, found in its first cycle: its level is at least that of the step before less 2 (R150).
Log 31: DEDUCED, unsafe. -/
def State.setFillers (s : State) (island : Nat) : State :=
  let sl := (s.island island).slew
  if !sl.on || sl.cycle != 0 then s
  else
    let order := grantOrder island
    let unit (c : Nat × Nat) : MatUnit := s.unitOf c.1 c.2
    let b := (order.filter fun c => (unit c).running).length
    let able := order.filter fun c => !(unit c).running && ((unit c).filler || (unit c).warm || (unit c).busy.isSome)
    let fill := able.take (sl.last - 2 - b)
    let s := order.foldl (fun s c => s.modUnit c.1 c.2 fun x => { x with filler := fill.contains c }) s
    s.modIsland island fun x => { x with slew := if b + fill.length = 0 then {} else { sl with last := b + fill.length } }

/-- Busy and filler unit-cycles of a cycle (R154). -/
def State.unitCycleCount (s : State) (island : Nat) : Nat :=
  ((grantOrder island).filter fun c => let u := s.unitOf c.1 c.2; u.running || u.filler).length

/-- A number as a signed counter of 32 bits holds it (R144). Log 4: DEDUCED, unsafe. -/
def signed32 (x : Int) : Int := sext 32 (wrap 32 x)

/-- What has been written to an island's control register takes effect (R142, R343): a new FSUST moves the FLL, unless the
island holds a lease. -/
def Island.control (x : Island) : Island :=
  match x.ctlNext with
  | none => x
  | some v =>
    let y := { x with ctl := v, ctlNext := none }
    if x.holder.isSome || bits x.ctl.toNat 4 0 = bits v.toNat 4 0 then y else { y with target := y.sustained }

/-- What a cycle does to the island's counters: refill, then charges (R144), a lease that ended in it being held until its
end (R156); then the lease's charges (R154). -/
def Island.count (x : Island) (n : Nat) : Island :=
  let refill : Int := if x.holder.isSome || x.ended then x.rlease else x.rsust
  let lease := if x.holder.isSome then x.lease - (n + x.owed) else x.lease
  { x with
    a := signed32 (min (x.a + refill) x.cap - x.charges)
    charges := 0
    owed := 0
    granted := false
    ended := false
    reached := 0
    lease := lease
    ending := if x.holder.isSome && lease == 0 && x.ending.isNone then some 0 else x.ending
    slew := if x.slew.on then
        (if x.slew.cycle = 3 then { x.slew with cycle := 0, grants := 0 } else { x.slew with cycle := x.slew.cycle + 1 })
      else x.slew }

/-- The end of a cycle, and the start of the next, whose level of withholding is found first (R146). -/
def Island.tick (x : Island) (n : Nat) : Island :=
  let y := (x.count n).control
  { y with level := y.withheld }

/-- A unit's cycle: an MMAS whose B has not come keeps its unit busy (R317). Log 31: DEDUCED, unsafe. -/
def MatUnit.tick (u : MatUnit) : MatUnit :=
  { u with
    warm := false
    busy := u.busy.map fun (b : MatOp × Nat) => (b.1, if b.2 = 1 && b.1.thread.isSome then 1 else b.2 - 1) }

/-- A cycle of a split parked at MMAQ (R316). -/
def Split.tick (sp : Split) : Split :=
  match sp.live, sp.wait with
  | true, .mmaq .. => { sp with mmaqWait := sp.mmaqWait + 1 }
  | _, _ => sp

/-- A group's cycle while its bank is active: %run, and the counts that cycles of %run drive (R73, R74, R307, R316, R409).
Log 32: DEDUCED, unsafe. -/
def Group.tick (g : Group) : Group :=
  let live := g.liveSplits
  { g with
    run := g.run + 1
    armed := true
    yieldLeft := g.yieldLeft - 1
    stepWait := if !live.isEmpty && live.all (fun j => (g.split j).wait == .step) then g.stepWait + 1 else g.stepWait
    splits := g.splits.map Split.tick }

/-- A cycle less to wait, of numbers by key. -/
def countDown (m : Map Nat) : Map Nat := (m.map fun (x : Nat × Nat) => (x.1, x.2 - 1)).filter fun x => x.2 != 0

/-- A cycle less to wait for a split and its results (R209, R282); the delay of a barrier's release is time, and its
island may run at another clock (R270). -/
def Split.pass (mhz : Nat) (sp : Split) : Split :=
  { sp with
    stall := match sp.wait with
      | .bar _ _ _ _ true _ => sp.stall - ceilDiv 850000000 (max 1 mhz)
      | _ => sp.stall - 1
    pend := sp.pend.map fun p => { p with lat := p.lat.map (· - 1) } }

/-- A core cycle passes for a group, whether it runs or not. -/
def Group.pass (mhz : Nat) (g : Group) : Group :=
  { g with lat := countDown g.lat, splits := g.splits.map (Split.pass mhz), ftoNow := false }

/-- A context's cycle: how long it has been away, or still keeps its bank (R183). -/
def Ctx.tick (c : Ctx) : Ctx := if c.res = .active then { c with guard := c.guard - 1 } else { c with away := c.away + 1 }

/-- Whether something is due in a group before a cycle of its island is over: a release that has reached it (R270), a
result whose time has come (R209), the trap of its run timer (R75). -/
def State.groupDue (s : State) (k : Nat) (g : Group) : Bool :=
  g.liveSplits.any (fun j =>
    (g.split j).releaseDue || (g.split j).pend.any fun p => p.lat == some 0 && s.mayLand (g.split j) p)
  || (g.timerDue && s.running g && (s.nextSplit k).isSome)

/-- Whether a partition of an island has still to issue in this cycle, and has a ready split (R175). -/
def State.issueDue (s : State) (island : Nat) : Bool :=
  (s.readyIn fun k => islandOf (s.partitionOf k / 16) == island && s.stillIssues k).any fun x => !s.heldAt x.1 x.2

/-- What has still to take place in an island's cycle before it is over: a lease that has ended, an operation that ends,
a request that can be granted (R147, R149, R155), a trap that can be delivered (R402), what is due in a group, and the
word of a partition that has a ready split (R175). -/
def State.cycleOpen (s : State) (island : Nat) : Bool :=
  ((s.island island).ending.isSome && (s.island island).holder.isSome) || s.endsDue island
  || (grantOrder island).any (s.canGrant island)
  || (s.ctxs.any fun (x : Nat × Ctx) => islandOf x.2.core == island && s.trapReady x.2.launch x.2.core)
  || (s.groups.any fun (x : Nat × Group) => islandOf x.2.core == island && s.groupDue x.1 x.2)
  || s.issueDue island

/-- ISLAND_CORE_CYCLE (R144): the end of a core cycle of an island; `wallTick` says that the die's reference ticks in it
(R74), once all that the cycle holds has taken place. While clocks are gated, and on a fenced die, only the reference
runs.
Log 4: DESIGN CHOICE, safe. -/
def happensIslandCoreCycle (island : Nat) (wallTick : Bool) (s : State) : Option State :=
  let die := island / 10
  let s0 := if wallTick then s.modDie die fun d => { d with wall := d.wall + 1 } else s
  let cores := coresOf island
  let stopped := s.gate || (s.die die).fenced
  event (decide (island < 40) && (stopped || !s.cycleOpen island))
    (if stopped then s0
     else
      let s1 := s0.setFillers island
      let s2 := s1.modIsland island fun x => x.tick (s1.unitCycleCount island)
      let s3 := (grantOrder island).foldl (fun s c => s.modUnit c.1 c.2 MatUnit.tick) s2
      let s4 := cores.foldl (fun s c => s.modCore c fun x => { x with cyc := x.cyc + 1, slots := countDown x.slots }) s3
      let mhz := (s.island island).mhz
      { s4 with
          groups := s4.groups.map fun (x : Nat × Group) =>
            (x.1, if !cores.contains x.2.core then x.2
              else if s.running x.2 && !x.2.gone then (x.2.pass mhz).tick else x.2.pass mhz)
          ctxs := s4.ctxs.map fun (x : Nat × Ctx) => (x.1, if cores.contains x.2.core then x.2.tick else x.2) })

/-- ISLAND_CORE_CYCLE, where its condition holds. -/
def execIslandCoreCycle (island : Nat) (wallTick : Bool) (s : State) : Host.Outcome State Fault Refusal :=
  occurs (happensIslandCoreCycle island wallTick s) s

end Sys2Proof.Machine
end

