-- ==== Sys2Proof/Machine/FabricEvents.lean ====
section
/-!
DEFINITION. Events of the fabric (R129, R272, R330 to R335, R347, R433 to R435): what peers ask of this device through
its exports, and what they answer.
-/

namespace Sys2Proof.Machine

open Sys2Proof

/-! ### Exports (R347) -/

/-- The fields of an export entry. -/
structure ExportEntry where
  base : Nat
  bytes : Nat
  core : Nat
  queue : Nat
  rslot : Nat
  w : Bool
  kind : Nat
  v : Bool
  deriving DecidableEq, Repr

def ExportEntry.of (e : BitVec 128) : ExportEntry :=
  let x := e.toNat
  { base := bits x 127 87 * 65536, bytes := (bits x 83 64 + 1) * 65536, core := bits x 63 56, queue := bits x 55 50,
    rslot := bits x 49 34, w := bit x 4, kind := bits x 3 2, v := bit x 0 }

/-- Where an export leads: memory at a virtual address of kept pages, or a slice of a launch. -/
inductive Target where
  | mem (va : Nat)
  | scr (launch core off : Nat)
  deriving DecidableEq, Repr

/-- The physical address of an exported virtual address. -/
def State.exportPa (s : State) (va : Nat) : Option Nat :=
  (Map.find? s.exportPages (pageOf va)).map fun k => k.pa + va % 65536

/-- Whether a context's slice is resident (R347). -/
def Ctx.resident (c : Ctx) : Bool := c.res != .saved

/-- What n bytes at offset `off` of an export are; nothing where the access is refused. An access that meets a locked
parcel line or a slot-state array is refused too, which R433 does not name. Log 36: DESIGN CHOICE, unsafe. -/
def State.exportAt (s : State) (xidx off n : Nat) (write : Bool) : Option Target :=
  let e := ExportEntry.of (Map.get s.exports 0 xidx)
  if !e.v || (write && !e.w) then none
  else if e.kind = 0 then
    let va := e.base + off
    let ok (i : Nat) : Bool := match s.exportPa (va + i) with
      | some pa => (kindOf pa).plain && !s.lockedAt (va + i) && !s.inSlotStates (va + i) 1
      | none => false
    if off + n ≤ e.bytes && (List.range n).all ok then some (.mem va) else none
  else if e.kind = 1 then
    match List.find? (fun (x : Nat × Launch) => x.2.queue == e.queue && x.2.rslot == e.rslot) s.launches with
    | some (k, _) =>
      match s.ctx? k e.core with
      | some c => if c.resident && off + n ≤ c.sliceBytes then some (.scr k e.core off) else none
      | none => none
    | none => none
  else none

/-- What a release of an agent of another device carries, as far as this device knows (R122): the writes that came over
the fabric, and those that this device's releases with f sent there. Log 29: DEDUCED, unsafe. -/
def State.fabricCarried (s : State) : List Nat :=
  ((s.hist.filter fun w => w.maker == .fabric).map (·.id)
    ++ s.tbRels.flatMap fun (x : Space × Nat × Counted) =>
      if x.1 == .mem && kindOf x.2.1 == .peer then (x.2.2.done.filter fun r => r.mask.f).flatMap (·.writes) else []).eraseDups

/-- The release of a peer's write, where it is one. -/
def State.peerRels (s : State) (rel : Bool) : List Rel := if rel then [⟨.fabric, Obs.all, s.fabricCarried⟩] else []

/-- Whether an access through an export waits for a CXL port that is not ready (R352). -/
def State.exportWaits (s : State) (xidx off n : Nat) : Bool :=
  let e := ExportEntry.of (Map.get s.exports 0 xidx)
  e.v && e.kind == 0 && !(s.portsAt ([e.base + off, e.base + off + n - 1].filterMap s.exportPa)).isEmpty

/-- n bytes of a target, and whether any is poisoned. -/
def State.targetRead (s : State) (t : Target) (n : Nat) : List Byte × Bool :=
  match t with
  | .mem va =>
    let pas := (List.range n).map fun i => (s.exportPa (va + i)).getD 0
    (pas.map fun pa => Memory.read s.mem pa, pas.any s.badByte)
  | .scr k core off =>
    match s.ctx? k core with
    | some c => ((List.range n).map fun i => Map.get c.scr 0 (off + i),
        (List.range n).any fun i => c.bad.contains (granule (off + i)))
    | none => ([], false)

/-- Write bytes of one line to a target, byte i poisoned where `bad` holds i (R118). -/
def State.targetWrite (s : State) (t : Target) (bs : List Byte) (bad : List Nat) (rmw : Bool) (rels : List Rel) : State :=
  let run := bs.mapIdx fun i b => (b, bad.contains i)
  let w : Stamp := { id := s.nextWrite, maker := .fabric, rmw := rmw, rels := rels, tight := rmw }
  let s := { s with nextWrite := s.nextWrite + 1 }
  match t with
  | .mem va =>
    let pa := (s.exportPa va).getD 0
    let s := s.writeAs w pa bs false false
    { s with bad := poisonRun s.bad pa run }
  | .scr k core off => (s.slicePut w k core off bs).slicePoison k core off run

/-- The lines of n bytes at an offset of an export, each as the place in the n bytes, the offset and the length. -/
def exportLines (off n : Nat) : List (Nat × Nat × Nat) :=
  (linesOf off n).map fun ln => let x := inLine ln off n; (x.1 - off, x.1, x.2)

/-- The answer to a peer's read of n bytes: refused as a whole, or where a bulk read spans lines, line by line (R433). -/
def State.readAnswer (s : State) (r : PeerReq) (n : Nat) : List Packet :=
  match s.exportAt r.xidx r.off n false with
  | some t => [.response r.dev r.tag (s.targetRead t n).1 (s.targetRead t n).2]
  | none =>
    if n ≤ 8 then [.refusal r.dev r.tag]
    else (exportLines r.off n).map fun (x : Nat × Nat × Nat) =>
      match s.exportAt r.xidx x.2.1 x.2.2 false with
      | some t => .lines r.dev r.tag x.1 (s.targetRead t x.2.2).1
          ((List.range x.2.2).filter fun i => match s.exportAt r.xidx (x.2.1 + i) 1 false with
            | some b => (s.targetRead b 1).2
            | none => false)
      | none => .refusedLines r.dev r.tag x.1 x.2.2

/-- FABRIC_REQUEST_AT_TARGET (R129, R330, R332, R433): performed at this device's memory and answered, or refused. An
atomic on poisoned bytes performs nothing. Writes and atomics are aligned (R330), and a checkpoint take holds them (R448).
Log 29: DESIGN CHOICE, safe. -/
def happensFabricRequestAtTarget (r : PeerReq) (s : State) : Option State :=
  let n := match r.op with | .read n => n | .write d | .spoil d => d.length | .atomic _ n _ _ => n
  let fits := match r.op with | .read _ => true | _ => decide (n ≤ 8) && n != 0 && r.off % n == 0
  event (!s.gate && !s.taking && s.regs.fabEn && fits && !s.exportWaits r.xidx r.off n)
    (match r.op, s.exportAt r.xidx r.off n true with
     | .read n, _ => s.send (s.readAnswer r n)
     | _, none => s.send [.refusal r.dev r.tag]
     | .write d, some t => (s.targetWrite t d [] false (s.peerRels r.rel)).send [.response r.dev r.tag [] false]
     | .spoil d, some t =>
       (s.targetWrite t d (List.range d.length) false (s.peerRels r.rel)).send [.response r.dev r.tag [] false]
     | .atomic code _ operand expected, some t =>
       let old := s.targetRead t n
       let s' := if old.2 then s
         else s.targetWrite t (leBytes n (atomOp code (8 * n) (leNat old.1) operand expected)) [] true (s.peerRels r.rel)
       s'.send [.response r.dev r.tag old.1 old.2])

/-- FABRIC_REQUEST_AT_TARGET, where its condition holds. -/
def execFabricRequestAtTarget (r : PeerReq) (s : State) : Host.Outcome State Fault Refusal :=
  occurs (happensFabricRequestAtTarget r s) s

/-! ### Answers to this device's requests -/

/-- Words of a value over a request's registers, in order. -/
def FabReq.values (r : FabReq) (x : Nat) : List (RegId × Word) :=
  let k := if r.bytes = 8 then 2 else 1
  r.regs.mapIdx fun i reg => (reg, BitVec.ofNat 32 (x / 2 ^ (32 * (i % k))))

/-- A lane's answer comes to its outstanding result (R199, R331). -/
def State.answer (s : State) (id : Nat) (r : FabReq) (ws : List (RegId × Word)) (fto : Bool) : State :=
  s.modSplit r.group r.split fun sp => { sp with pend := sp.pend.map fun p =>
    if p.id = r.pend then { p with writes := p.writes ++ ws, fto := p.fto || fto, waits := p.waits.filter (· ≠ id) } else p }

/-- All ones in every register, with FTO (R331); a result that has all its answers then lands in this cycle (R434,
R446). -/
def State.allOnes (s : State) (id : Nat) (r : FabReq) : State :=
  (s.answer id r (r.regs.map fun reg => (reg, 0xFFFFFFFF)) true).modSplit r.group r.split fun sp =>
    { sp with pend := sp.pend.map fun p => if p.id = r.pend && p.waits.isEmpty then { p with lat := some 0 } else p }

/-- What a returning access has read is an acquire where its word is one (R120, R129): of releases that this device sent
to the place, and, with f, of what has come over the fabric. Log 29: DEDUCED, unsafe. -/
def State.answerRead (s : State) (r : FabReq) : State :=
  let rels := (s.tbCounted .mem r.pa).done ++ s.peerRels r.strong
  s.didRead r.group r.lanes r.acq r.strong [] rels

def State.dropReq (s : State) (id : Nat) : State := { s with fabReqs := Map.del s.fabReqs id }

/-- An engine thread's packet is answered. -/
def State.answered (s : State) (t : Nat) : State := s.modThread t fun th => { th with answered := th.answered + 1 }

/-- The answer to an access of the host through BAR2 (R342): a read returns its bytes; those of a refused one have no
stated value. -/
def State.hostAnswer (s : State) (id n : Nat) (data : List Byte) : State :=
  { s with hostReqs := Map.del s.hostReqs id, hostRead := if n = 0 then s.hostRead else data, free := s.free + 1 }

/-- Whether a returning access has reached its limit, which is counted in %wall of the issuing die (R331, R434). -/
def State.overdue (s : State) (r : FabReq) : Bool := decide (r.limit ≤ ((s.die r.die).wall - r.issued).toNat)

/-- FABRIC_RESPONSE (R330, R331): the result of a returning access, the completion of a write, or the answer to a packet
of an engine thread. A response that comes once the limit has passed is discarded: the access has timed out (R331, R435);
a poisoned one is consumed (R420).
Log 29: DESIGN CHOICE, safe. -/
def happensFabricResponse (id : Nat) (data : List Byte) (bad : Bool) (s : State) : Option State :=
  match Map.find? s.fabReqs id with
  | some r =>
    let x := leNat data
    let v := if r.signed then wrap 32 (sext (8 * r.bytes) x) else x
    event (!s.gate && r.sent && (!r.returns || data.length == r.bytes))
      (if r.timedOut || !r.returns then s.dropReq id
       else if s.overdue r then (s.allOnes id r).dropReq id
       else if bad then ((s.answer id r [] false).dropReq id).consume r.group r.pc r.pa
       else ((s.answerRead r).answer id r (r.values v) false).dropReq id)
  | none =>
    match Map.find? s.threads id with
    | some th => event (!s.gate && decide (th.answered < th.asked)) (s.answered id)
    | none =>
      match Map.find? s.hostReqs id with
      | some n => event (!s.gate && n == data.length) (s.hostAnswer id n data)
      | none => none

/-- FABRIC_RESPONSE, where its condition holds. -/
def execFabricResponse (id : Nat) (data : List Byte) (bad : Bool) (s : State) : Host.Outcome State Fault Refusal :=
  occurs (happensFabricResponse id data bad s) s

/-- A returning access times out (R331). -/
def State.timeOut (s : State) (id : Nat) (r : FabReq) : State :=
  if r.sent then { s.allOnes id r with fabReqs := Map.ins s.fabReqs id { r with timedOut := true } }
  else (s.allOnes id r).dropReq id

/-- FABRIC_TIMEOUT (R331, R434). Log 29: DESIGN CHOICE, safe. -/
def happensFabricTimeout (id : Nat) (s : State) : Option State :=
  match Map.find? s.fabReqs id with
  | none => none
  | some r => event (!s.gate && r.returns && !r.timedOut && s.overdue r) (s.timeOut id r)

/-- THERMAL_GATE_END (R445, R446): the store has been cool for an interval of 1 ms, 100,000 ticks of %wall, and the
sensors with it. What timed out during the gate is taken first. Log 4: DESIGN CHOICE, safe. -/
def happensThermalGateEnd (s : State) : Option State :=
  let out := s.fabReqs.filter fun (x : Nat × FabReq) => x.2.returns && !x.2.timedOut && s.overdue x.2
  event (s.gate && decide (s.melt < 0xF000) && decide (100000 ≤ ((s.die 0).wall - s.coolFrom).toNat))
    (out.foldl (fun s (x : Nat × FabReq) => s.timeOut x.1 x.2) { s with gate := false })

/-- THERMAL_GATE_END, where its condition holds. -/
def execThermalGateEnd (s : State) : Host.Outcome State Fault Refusal :=
  occurs (happensThermalGateEnd s) s

/-- FABRIC_TIMEOUT, where its condition holds. -/
def execFabricTimeout (id : Nat) (s : State) : Host.Outcome State Fault Refusal :=
  occurs (happensFabricTimeout id s) s

/-- Lines of an FGET are refused, by number (R433). -/
def State.refuseLines (s : State) (t : Nat) (js : List Nat) : State := js.foldl (fun s j => s.fgetRefused t j) s

/-- What a refusal does to an engine thread (R433): ERROR. An FGET's packet of which the first line has not come is
refused, with what has not come of it; a packet of an FPUT or SCATA counts as answered. -/
def State.refuseThread (s : State) (t : Nat) (th : Thread) : State :=
  match th.cmd with
  | .fget va _ _ n =>
    let ls := bulkLines va n
    let out := (List.range ls.length).filter fun j => !th.done.contains j
    let packet (j : Nat) : Nat := (ls.getD j (0, 0)).1 / 4096
    s.refuseLines t (out.filter fun j => packet j == packet (out.headD 0))
  | _ => (s.threadErr t).answered t

/-- FABRIC_REFUSAL (R433, R434). Log 29: DESIGN CHOICE, safe. -/
def happensFabricRefusal (id : Nat) (s : State) : Option State :=
  match Map.find? s.fabReqs id with
  | some r =>
    event (!s.gate && r.sent)
      (if r.timedOut then s.dropReq id
       else if r.returns then (s.allOnes id r).dropReq id
       else (s.modGroup r.group fun g => { g with fto := true, ftoNow := true }).dropReq id)
  | none =>
    match Map.find? s.threads id with
    | some th =>
      match th.cmd with
      | .fget .. | .gpool .. => event (!s.gate) (s.refuseThread id th)
      | .fput .. | .scata .. => event (!s.gate && decide (th.answered < th.asked)) (s.refuseThread id th)
      | _ => none
    | none =>
      match Map.find? s.hostReqs id with
      | some n => event (!s.gate) (s.hostAnswer id n ((List.range n).map (Config.freeByte s.free)))
      | none => none

/-- FABRIC_REFUSAL, where its condition holds. -/
def execFabricRefusal (id : Nat) (s : State) : Host.Outcome State Fault Refusal :=
  occurs (happensFabricRefusal id s) s

/-- ESCAPE_DIVERSION (R349, R435): it changes only a request's latency. Log 29: DESIGN CHOICE, safe. -/
def happensEscapeDiversion (id : Nat) (s : State) : Option State :=
  match Map.find? s.fabReqs id with
  | none => none
  | some r => event (r.sent && !r.escaped) { s with fabReqs := Map.ins s.fabReqs id { r with escaped := true } }

/-- ESCAPE_DIVERSION, where its condition holds. -/
def execEscapeDiversion (id : Nat) (s : State) : Host.Outcome State Fault Refusal :=
  occurs (happensEscapeDiversion id s) s

/-! ### Bulk data that lands (R272, R333) -/

/-- Sectors of the part of a packet that starts at `off`, so that the parts of one packet land its sectors in all
(R272). -/
def partSectors (off n : Nat) : Nat := ceilDiv (off % 4096 + n) 32 - ceilDiv (off % 4096) 32

/-- The lines of an FGET that n bytes at `off` hold, by number: whole lines of one packet that have not come. -/
def landedLines (th : Thread) (va bytes off n : Nat) : List Nat :=
  let ls := bulkLines va bytes
  let js := (List.range ls.length).filter fun j =>
    decide (off ≤ (ls.getD j (0, 0)).1) && decide ((ls.getD j (0, 0)).1 + (ls.getD j (0, 0)).2 ≤ off + n)
  if (js.map fun j => (ls.getD j (0, 0)).2).sum = n && js.all (fun j => (ls.getD j (0, 0)).1 / 4096 == off / 4096 && !th.done.contains j)
  then js else []

/-- Whether a landing of some lines is of one packet (R349): the lines next to them in the packet, if there are any, come
from another device or have been refused. -/
def State.onePacket (s : State) (th : Thread) (va bytes : Nat) (js : List Nat) : Bool :=
  match s.launch? th.launch with
  | none => false
  | some l =>
    let ls := bulkLines va bytes
    let at' (j : Nat) : Nat := (ls.getD j (0, 0)).1
    let dev (j : Nat) : Option Nat := (remoteAt s l false (va + at' j)).map Prod.fst
    (List.range ls.length).all fun j => js.contains j || th.done.contains j
      || !(js.any fun i => at' i / 4096 == at' j / 4096 && (i + 1 == j || j + 1 == i) && dev i == dev j)

/-- A packet of an FGET lands in the slice (R112, R333); its landing is a release for its bytes (R279). -/
def State.landFget (s : State) (t : Nat) (th : Thread) (core dst : Nat) (js : List Nat) (off : Nat) (data : List Byte)
    (bad : List Nat) : State :=
  let id := s.nextWrite
  let s := ((s.sliceBy .fabric th.launch core (dst + off) data).threadMade t [id]).slicePoison th.launch core (dst + off)
    (data.mapIdx fun i b => (b, bad.contains i))
  let s := if bad.isEmpty then s else s.threadErr t
  (js.foldl (fun s j => s.fgetDone t j) s).threadBar th (Tb.land (partSectors off data.length)) [th.rel [id]]

/-- The lines of a packet of a peer's FPUT: the place of each in its data, and export, offset and length. -/
def packetLines : Nat → List (Nat × Nat × Nat) → List (Nat × Nat × Nat × Nat)
  | _, [] => []
  | at', (x, off, n) :: ps =>
    (exportLines off n).map (fun (y : Nat × Nat × Nat) => (at' + y.1, x, y.2.1, y.2.2)) ++ packetLines (at' + n) ps

/-- A packet of a peer's FPUT is written line by line, each line one write of its own (R118); those that the target
refuses are not (R433). With it the numbers of the writes, and the places of the lines that were written. -/
def State.landLines (s : State) (data : List Byte) (bad : List Nat) (ls : List (Nat × Nat × Nat × Nat)) :
    State × List Nat × List (Nat × Nat) :=
  ls.foldl (fun (r : State × List Nat × List (Nat × Nat)) (x : Nat × Nat × Nat × Nat) =>
    match r.1.exportAt x.2.1 x.2.2.1 x.2.2.2 true with
    | none => r
    | some t =>
      (r.1.targetWrite t ((data.drop x.1).take x.2.2.2)
          ((bad.filter fun i => decide (x.1 ≤ i) && decide (i < x.1 + x.2.2.2)).map (· - x.1)) false [],
        r.2.1 ++ [r.1.nextWrite], r.2.2 ++ [(x.1, x.2.2.2)])) (s, [], [])

/-- Sectors of a packet whose first byte lies in a line that was written (R272). Log 29: DESIGN CHOICE, safe. -/
def landedSectors (n : Nat) (done : List (Nat × Nat)) : Nat :=
  ((List.range (ceilDiv n 32)).filter fun i => done.any fun x => decide (x.1 ≤ 32 * i) && decide (32 * i < x.1 + x.2)).length

/-- SECTOR_LANDING (R272, R328, R333, R433): data of an FGET or of a gather's peer rows, lines of an FGET that are
refused, or a packet of a peer's FPUT, which a checkpoint take holds (R448).
Log 29: DESIGN CHOICE, safe. -/
def happensSectorLanding (p : Landing) (s : State) : Option State :=
  match p with
  | .fget t off data bad =>
    match Map.find? s.threads t with
    | none => none
    | some th =>
      match th.cmd with
      | .fget va core dst n =>
        let js := landedLines th va n off data.length
        event (!s.gate && !th.held && !js.isEmpty && s.onePacket th va n js)
          (s.landFget t th core dst js off data bad)
      | .gpool .. =>
        event (!s.gate && th.started) (s.modThread t fun th =>
          { th with captured := (List.range data.length).foldl (fun m i =>
              let m := Map.ins m (capKey 3 (off + i)) (data.getD i 0)
              if bad.contains i then Map.ins m (capKey 4 (off + i)) 1 else m) th.captured })
      | _ => none
  | .refused t off n =>
    match Map.find? s.threads t with
    | none => none
    | some th =>
      match th.cmd with
      | .fget va _ _ bytes =>
        let js := landedLines th va bytes off n
        event (!s.gate && !th.held && !js.isEmpty) (s.refuseLines t js)
      | _ => none
  | .fput dev tag parts data bad bar =>
    event (!s.gate && !s.taking && s.regs.fabEn && (parts.map fun p => p.2.2).sum == data.length
        && parts.all fun p => !s.exportWaits p.1 p.2.1 p.2.2)
      (let ls := packetLines 0 parts
       let r := s.landLines data bad ls
       let s := r.1.send [if r.2.2.length = ls.length then .response dev tag [] false else .refusal dev tag]
       match bar with
       | none => s
       | some (bx, bo) =>
         match s.exportAt bx bo 16 true with
         | some (.scr k core o) =>
           if r.2.2.isEmpty then s
           else s.tbUpdate .fabric k core o (Tb.land (landedSectors data.length r.2.2)) [⟨.fabric, Obs.all, r.2.1⟩]
         | _ => s)

/-- SECTOR_LANDING, where its condition holds. -/
def execSectorLanding (p : Landing) (s : State) : Host.Outcome State Fault Refusal :=
  occurs (happensSectorLanding p s) s

end Sys2Proof.Machine
end

