-- ==== Sys2Proof/Machine/ParcelEvents.lean ====
section
/-!
DEFINITION. Events of parcels in transit (R136 to R140, R427, R428): steps 4 to 9 of a parcel, on the sender's and on the
receiver's side.
-/

namespace Sys2Proof.Machine

open Sys2Proof

/-- Whether a page of a slot lies on a fenced die (R440). Log 36: DEDUCED, unsafe. -/
def State.slotLost (s : State) (a i : Nat) : Bool :=
  (List.range ((s.arena a).slotBytes / 65536)).any fun p => match s.arenaPa ((s.arena a).slotVa i + 65536 * p) with
    | some pa => (s.die (homeDie pa)).fenced
    | none => false

/-- Handles that an inbox queues at most (R140). -/
def inboxLimit : Nat := 4096

/-- Where a parcel of `len` lines lands in an inbox, or the cause it returns with (R136, step 5; R140).
Log 36: DEDUCED, unsafe. -/
def State.landingSlot (s : State) (inbox len : Nat) : Except Nat (Nat × Nat) :=
  match s.inboxArena inbox with
  | none => .error 3
  | some (a, e) =>
    if e.slotBytes < 128 * len then .error 2
    else if inboxLimit ≤ (Map.get s.inboxes [] inbox).length then .error 1
    else match s.freeSlot a with
      | some i => if s.slotLost a i then .error 5 else .ok (a, i)
      | none => .error 1

/-- Step 5: the slot is LANDING. -/
def State.takeSlot (s : State) (a i len : Nat) : State := s.modSlot a i fun x => { x with st := 4, cause := 0, len := len }

/-- A POST's thread: its slot and destination. -/
structure Transit where
  arena : Nat
  slot : Nat
  dev : Nat
  inbox : Nat
  recv : Option (Nat × Nat)
  deriving DecidableEq, Repr

def State.transit (s : State) (t : Nat) : Option (Thread × Transit) :=
  match Map.find? s.threads t with
  | none => none
  | some th => match th.cmd with
    | .post a i d n r => some (th, ⟨a, i, d, n, r⟩)
    | _ => none

def State.setRecv (s : State) (t : Nat) (x : Transit) (r : Option (Nat × Nat)) : State :=
  s.modThread t fun th => { th with cmd := .post x.arena x.slot x.dev x.inbox r }

/-- The contents of a slot: bytes, places of tagged words, places of poisoned bytes. -/
def State.slotContents (s : State) (a i : Nat) : List Byte × List Nat × List Nat :=
  let n := 128 * (s.slot a i).len
  let va := (s.arena a).slotVa i
  let pa (o : Nat) : Nat := (s.arenaPa (va + o)).getD 0
  ((List.range n).map fun o => Memory.read s.mem (pa o),
    (List.range (n / 4)).filter fun w => s.tags.contains (pa (4 * w) / 4),
    (List.range n).filter fun o => s.badByte (pa o))

/-- PARCEL_TRANSIT_START (R136, step 4; R139): the release has completed, the thread reads the slot and sends it. -/
def happensParcelTransitStart (t : Nat) (s : State) : Option State :=
  match s.transit t with
  | none => none
  | some (th, x) =>
    let own := x.dev == s.regs.devno
    let s' := s.modSlot x.arena x.slot fun y => { y with st := 3 }
    let c := s.slotContents x.arena x.slot
    event (!s.gate && !th.held && (s.slot x.arena x.slot).st == 2 && (own || !s.noPlane) && !s.slotLost x.arena x.slot)
      (if own then s'
       else s'.send [.parcel x.dev t x.inbox (s.slot x.arena x.slot).len c.1 c.2.1 c.2.2])

/-- PARCEL_TRANSIT_START, where its condition holds. -/
def execParcelTransitStart (t : Nat) (s : State) : Host.Outcome State Fault Refusal :=
  occurs (happensParcelTransitStart t s) s

/-- PARCEL_FIRST_PACKET (R136, step 5): a FREE slot of the inbox is taken; a peer's parcel that cannot land returns at
once (R140), and a checkpoint take holds its first packet (R448). -/
def happensParcelFirstPacket (p : ParcelIn) (s : State) : Option State :=
  match p with
  | .own t =>
    match s.transit t with
    | none => none
    | some (_, x) =>
      let len := (s.slot x.arena x.slot).len
      match s.landingSlot x.inbox len with
      | .error _ => none
      | .ok (a, i) =>
        event (!s.gate && (s.slot x.arena x.slot).st == 3 && x.dev == s.regs.devno && x.recv.isNone)
          ((s.takeSlot a i len).setRecv t x (some (a, i)))
  | .peer dev id len inbox =>
    event (!s.gate && !s.taking && s.regs.fabEn && !s.landings.any fun (l : Nat × Nat × Nat × Nat) => l.1 == dev && l.2.1 == id)
      (match s.landingSlot inbox len with
       | .error c => s.send [.parcelReturn dev id c]
       | .ok (a, i) => { s.takeSlot a i len with landings := s.landings ++ [(dev, id, a, i)] })

/-- PARCEL_FIRST_PACKET, where its condition holds. -/
def execParcelFirstPacket (p : ParcelIn) (s : State) : Host.Outcome State Fault Refusal :=
  occurs (happensParcelFirstPacket p s) s

/-- Whether every tagged word holds an offset inside the parcel (R136, step 6; R427); poisoned words fail no check.
Log 36: DEDUCED, unsafe. -/
def tagsOk (len : Nat) (data : List Byte) (tags bad : List Nat) : Bool :=
  tags.all fun w =>
    (List.range 4).any (fun i => bad.contains (4 * w + i)) || decide (leNat ((data.drop (4 * w)).take 4) < 128 * len)

/-- The contents reach the receiving slot. -/
def State.fillSlot (s : State) (a i : Nat) (data : List Byte) (tags bad : List Nat) : State :=
  let va := (s.arena a).slotVa i
  let pa (o : Nat) : Nat := (s.arenaPa (va + o)).getD 0
  let s := (List.range (s.slot a i).len).foldl (fun s ln =>
    s.writeBy .fabric (pa (128 * ln)) ((data.drop (128 * ln)).take 128) false false) s
  { s with
    tags := tags.foldl (fun l w => Nats.ins l (pa (4 * w) / 4)) s.tags
    bad := bad.foldl (fun l o => Nats.ins l (granule (pa o))) s.bad }

/-- The handle of a slot of this device. -/
def State.handleOf (s : State) (a i : Nat) : Nat := Handle.toNat ⟨s.regs.devno, a, i, (s.slot a i).gen⟩

/-- Step 6: the contents land, the slot is ARRIVED, and the handle is queued with the release that its pop acquires: what
the POST carried, and the parcel as sealed (R139). -/
def State.arrive (s : State) (a i inbox : Nat) (data : List Byte) (tags bad carried : List Nat) (m : Obs) : State :=
  let first := s.nextWrite
  let s := (s.fillSlot a i data tags bad).modSlot a i fun x => { x with st := 5 }
  let fill := (List.range (s.nextWrite - first)).map fun k => first + k
  let h := s.handleOf a i
  { s with
    inboxes := Map.put s.inboxes [] inbox (Map.get s.inboxes [] inbox ++ [h])
    handleRels := Map.ins s.handleRels h { maker := .fabric, mask := m, writes := carried ++ fill } }

/-- The end of a POST's thread: its join, and its table entry (R138). Log 36: DEDUCED, unsafe. -/
def State.endPost (s : State) (t : Nat) (th : Thread) : State :=
  { s.threadJoin th with threads := Map.del s.threads t }

/-- The release of a POST is kept by its handle until its parcel has arrived or returned. -/
def State.dropRel (s : State) (h : Nat) : State := { s with handleRels := Map.del s.handleRels h }

/-- Step 8, and step 9 where a slot of this device was LANDING for it. -/
def State.returnParcel (s : State) (t : Nat) (th : Thread) (x : Transit) (cause : Nat) : State :=
  let s := match x.recv with
    | some (a, i) => s.modSlot a i Slot.release
    | none => s
  ((s.dropRel (s.handleOf x.arena x.slot)).modSlot x.arena x.slot fun y => { y with st := 6, cause := cause }).endPost t th

/-- PARCEL_LANDED (R136, steps 6 and 9; R427). What a peer's parcel holds comes with the event.
Log 36: DEDUCED, unsafe. -/
def happensParcelLanded (p : ParcelIn) (data : List Byte) (tags bad : List Nat) (s : State) : Option State :=
  match p with
  | .own t =>
    match s.transit t with
    | none => none
    | some (th, x) =>
      match x.recv with
      | none => none
      | some (a, i) =>
        let len := (s.slot x.arena x.slot).len
        let c := s.slotContents x.arena x.slot
        event (!s.gate && (s.slot a i).st == 4 && th.done.isEmpty)
          (if s.slotLost a i || s.slotLost x.arena x.slot then s.returnParcel t th x 5
           else if !tagsOk len c.1 c.2.1 c.2.2 then s.returnParcel t th x 4
           else
             let r := (Map.find? s.handleRels (s.handleOf x.arena x.slot)).getD ⟨.fabric, Obs.all, []⟩
             (s.arrive a i x.inbox c.1 c.2.1 c.2.2 r.writes r.mask).modThread t fun th => { th with done := [1] })
  | .peer dev id len inbox =>
    match s.landings.find? fun (l : Nat × Nat × Nat × Nat) => l.1 == dev && l.2.1 == id with
    | none => none
    | some l =>
      let a := l.2.2.1
      let i := l.2.2.2
      let s' := { s with landings := s.landings.filter (· ≠ l) }
      event (!s.gate && s.regs.fabEn && data.length == 128 * len && (s.slot a i).len == len
          && (s.inboxArena inbox).map Prod.fst == some a)
        (if s.slotLost a i then (s'.modSlot a i Slot.release).send [.parcelReturn dev id 5]
         else if !tagsOk len data tags bad then (s'.modSlot a i Slot.release).send [.parcelReturn dev id 4]
         else (s'.arrive a i inbox data tags bad s.fabricCarried Obs.all).send [.parcelAck dev id])

/-- PARCEL_LANDED, where its condition holds. -/
def execParcelLanded (p : ParcelIn) (data : List Byte) (tags bad : List Nat) (s : State) : Host.Outcome State Fault Refusal :=
  occurs (happensParcelLanded p data tags bad s) s

/-- PARCEL_ACK (R136, step 7; R138): the sender's slot is freed and POST makes its arrival. -/
def happensParcelAck (t : Nat) (s : State) : Option State :=
  match s.transit t with
  | none => none
  | some (th, x) =>
    event (!s.gate && (s.slot x.arena x.slot).st == 3 && (x.dev != s.regs.devno || th.done == [1]))
      (((s.dropRel (s.handleOf x.arena x.slot)).modSlot x.arena x.slot Slot.release).endPost t th)

/-- PARCEL_ACK, where its condition holds. -/
def execParcelAck (t : Nat) (s : State) : Host.Outcome State Fault Refusal :=
  occurs (happensParcelAck t s) s

/-- Whether a parcel can return with a cause now (R140): from this device, the cause that its inbox gives; from a peer,
any; and 5 where no plane is ready or the slot's die is fenced. Log 36: DEDUCED, unsafe. -/
def State.mayReturn (s : State) (x : Transit) (cause : Nat) : Bool :=
  let st := (s.slot x.arena x.slot).st
  let lost := cause == 5 && (s.slotLost x.arena x.slot
    || (match x.recv with | some (a, i) => s.slotLost a i | none => false))
  if x.dev = s.regs.devno then
    (st == 2 || st == 3) && lost
    || (st == 3 && x.recv.isNone && (match s.landingSlot x.inbox (s.slot x.arena x.slot).len with
        | .error c => c == cause
        | .ok _ => false))
  else (st == 3 && 1 ≤ cause && cause ≤ 5) || (st == 2 && cause == 5 && (s.noPlane || lost))

/-- PARCEL_RETURN (R136, step 8; R140, R428). Log 36: DEDUCED, unsafe. -/
def happensParcelReturn (t cause : Nat) (s : State) : Option State :=
  match s.transit t with
  | none => none
  | some (th, x) => event (!s.gate && th.done.isEmpty && s.mayReturn x cause) (s.returnParcel t th x cause)

/-- PARCEL_RETURN, where its condition holds. -/
def execParcelReturn (t cause : Nat) (s : State) : Host.Outcome State Fault Refusal :=
  occurs (happensParcelReturn t cause s) s

end Sys2Proof.Machine
end

