-- ==== Sys2Proof/Machine/Admit.lean ====
section
/-!
DEFINITION. Admission (R157 to R171): the launch record, its dependences, the checks of R168 in their order, pins, the
placement of its cores, and what admission sets up.
-/

namespace Sys2Proof.Machine

open Sys2Proof

/-! ### The launch record (R159, R160, R163) -/

/-- The record in its 256 bytes. The geometry words count in a field launch only, and of the dependence entries those of
NDEP: reserved bits of the others are not looked at. Log 8: DESIGN CHOICE, unsafe. -/
def Record.of (bs : List Byte) : Record :=
  let x := leNat bs
  let field := bits x 1 0 == 1
  let word (lo i : Nat) : Nat := bits x (lo + 32 * i + 31) (lo + 32 * i)
  let ndep := bits x 6 4
  let deps := (List.range 4).map fun i => bits x (191 + 64 * i) (128 + 64 * i)
  let ext := (List.range 3).map (word 1536)
  let patch := bits x 1663 1632
  { kind := bits x 1 0, prio := bits x 3 2, ndep := ndep, npin := bits x 14 7, tdn := bits x 24 16,
    tiles := bits x 39 32, tsize := bits x 46 40, cw := bits x 51 48, ch := bits x 55 52, nteam := bits x 95 64,
    scratch := bits x 108 96, deps := deps.take ndep, pins := bits x 447 384, save := bits x 511 448,
    pbase := bits x 575 512, psize := bits x 607 576, savez := bits x 639 608, handler := bits x 703 640,
    compl := bits x 767 704, tdpre := bits x 831 768, sched := bits x 895 832, nsched := bits x 927 896,
    nbar := bits x 938 928, entry := bits x 1023 960, args := (List.range 16).map (word 1024),
    ext := ext.map fun w => bits w 19 0 + 1, bmode := ext.map fun w => bits w 21 20,
    patch := [bits patch 4 0 + 1, bits patch 9 5 + 1, bits patch 14 10 + 1],
    e := if field then bits patch 18 15 + 1 else 0, v := if field then bits patch 22 19 + 1 else 1,
    ctile := (List.range 3).map fun i => bits x (1679 + 16 * i) (1664 + 16 * i) + 1,
    face := (List.range 6).map (word 1728), clist := bits x 1983 1920, ncore := bits x 2015 1984,
    reserved := bits x 15 15 != 0 || bits x 31 25 != 0 || bits x 47 47 != 0 || bits x 63 56 != 0 || bits x 127 109 != 0
      || bits x 959 939 != 0 || bits x 1727 1712 != 0 || (deps.take ndep).any (fun d => bits d 6 0 != 0)
      || (field && (ext.any (fun w => bits w 31 22 != 0) || bits patch 31 23 != 0)) }

/-- Whether a record names an ordinary or a weight-setup launch: the spec does not say which kind's limits a weight-setup
launch keeps (TSIZE, CW, CH, NTEAM, CLIST = 0, placement, image size); here they are an ordinary launch's.
Log 8: DESIGN CHOICE, unsafe. -/
def Record.ordinary (r : Record) : Bool := r.kind == 0 || r.kind == 2

/-- Teams of one cluster. -/
def Record.clusterSize (r : Record) : Nat := r.cw * r.ch

/-! ### What the scheduler reads -/

/-- n bytes at a virtual address, if every page is mapped to memory of this device or the host and none is poisoned. -/
def State.schedBytes (s : State) (va n : Nat) : Option (List Byte) :=
  (allSome ((List.range n).map fun i => s.arenaPa (va + i))).bind fun pas =>
    if pas.any (fun pa => !(kindOf pa).plain || s.badByte pa) then none else some (pas.map (Memory.read s.mem))

/-- Whether dependence entry d is met (R161, R167): the barrier's phase is not PH. One that cannot be read holds nothing
back, so that the checks refuse it. Log 8: DEDUCED, unsafe. -/
def State.depMet (s : State) (d : Nat) : Bool :=
  match s.schedBytes (bits d 63 11 * 16) 16 with
  | some bs => bits (leNat bs) 3 0 != bits d 10 7
  | none => true

/-- Whether all dependences of a record are met. -/
def State.depsMet (s : State) (r : Record) : Bool := decide (4 < r.ndep) || r.deps.all s.depMet

/-- The core list (R163). -/
def State.coreList (s : State) (r : Record) : Option (List CoreEntry) :=
  (s.schedBytes r.clist (4 * r.ncore)).map fun bs =>
    (List.range r.ncore).map fun i =>
      let w := leNat ((bs.drop (4 * i)).take 4)
      ⟨bits w 7 0, bits w 16 8, bits w 31 17⟩

/-- The head record of a queue and its place (R157, R344). -/
def Queue.headSlot (q : Queue) : Nat := q.head % 2 ^ q.log
def Queue.headAddr (q : Queue) : Nat := q.base + 256 * q.headSlot
def Queue.headRecord (q : Queue) : Option Record := if q.en && q.head != q.tail then q.copied.map Record.of else none

def State.queueOf (s : State) (q : Nat) : Queue := Map.get s.queues {} q
def State.modQueue (s : State) (q : Nat) (f : Queue → Queue) : State :=
  { s with queues := Map.put s.queues {} q (f (s.queueOf q)) }

/-- A record is read once, when it becomes the head of its queue (R157). Log 28: DEDUCED, unsafe. -/
def State.copyHead (s : State) (q : Nat) : State :=
  s.modQueue q fun x =>
    if x.en && x.head != x.tail then
      (if x.copied.isNone then { x with copied := some (s.physBytes x.headAddr 256) } else x)
    else { x with copied := none }

/-- The head moves past its record. -/
def State.advanceHead (s : State) (q : Nat) : State :=
  (s.modQueue q fun x => { x with head := (x.head + 1) % 2 ^ 32, copied := none }).copyHead q

/-- The scheduler writes STATUS of a record of queue q, with the releases of that store (R164, R174, R342). -/
def State.putStatus (s : State) (q addr st : Nat) (rels : List Rel) : State :=
  let w : Stamp := { id := s.nextWrite, maker := .part, rels := rels }
  let s := { s with nextWrite := s.nextWrite + 1 }.writeAs w (addr + 252) (leBytes 4 st) false false
  if (s.queueOf q).irq then s.vector q else s

/-! ### The checks of R168 -/

/-- Whether cores form one mesh rectangle of w × h (R30, R163). -/
def rectangle (cs : List Nat) (w h : Nat) : Bool :=
  let xs := cs.map coreX
  let ys := cs.map coreY
  let span (l : List Nat) : Nat := l.foldl max 0 + 1 - l.foldl min 1000
  cs.Nodup && cs.length == w * h && span xs == w && span ys == h

/-- The cluster indices of a core list, ascending, and the cores of one. -/
def clustersOf (cs : List CoreEntry) : List Nat := cs.foldl (fun l e => Nats.ins l e.cluster) []
def clusterCores (cs : List CoreEntry) (k : Nat) : List CoreEntry := cs.filter fun e => e.cluster == k

/-- Whether a core list keeps R163: existing cores of this device or of one that exists, none twice, each cluster one
rectangle on one device. Log 8: DEDUCED, unsafe. -/
def coreListOk (devno : Nat) (r : Record) (cs : List CoreEntry) : Bool :=
  !cs.isEmpty && (cs.map fun e => (e.dev, e.core)).Nodup
  && cs.all (fun e => decide (e.core < Config.cores) && (e.dev == devno || Config.devicePresent e.dev))
  && (clustersOf cs).all fun k =>
    let own := clusterCores cs k
    let at0 := own.map (·.core)
    (own.map (·.dev)).eraseDups.length == 1
    && (if r.ordinary then rectangle at0 r.cw r.ch
        else decide (own.length ≤ 12) && (List.range 12).any fun w => (List.range 12).any fun h => rectangle at0 (w + 1) (h + 1))

/-- Blocks of a field launch. -/
def Record.blockCount (r : Record) : Nat := r.blocks 0 * r.blocks 1 * r.blocks 2

/-- Whether a record breaks a geometry limit (reason 2). A core list that cannot be read breaks none here (R345).
Log 8: DEDUCED, unsafe. -/
def Record.geometryBad (r : Record) (devno : Nat) (cs : Option (List CoreEntry)) : Bool :=
  if r.ordinary then
    r.tsize == 0 || decide (64 < r.tsize) || r.cw == 0 || r.ch == 0 || decide (12 < r.cw) || decide (12 < r.ch)
    || decide (12 < r.clusterSize) || r.nteam == 0 || decide (2 ^ 31 < r.nteam) || r.nteam % r.clusterSize != 0
    || (if r.clist = 0 then r.ncore == 0 || r.ncore % r.clusterSize != 0
        else match cs with | some l => !coreListOk devno r l | none => false)
  else
    r.tsize != 0 || r.cw != 0 || r.ch != 0 || r.nteam != 0 || r.clist == 0
    || decide (32 < r.patchLen 0 * r.patchLen 1 * r.patchLen 2)
    || (List.range 3).any (fun a => decide (r.patches a < r.blocks a)) || r.ncore != r.blockCount
    || (match cs with | some l => !coreListOk devno r l | none => false)

/-- Placed-core indices whose figures can differ. -/
def Record.indices (r : Record) : List Nat := if r.kind = 1 then List.range r.blockCount else [0]

/-- Whether a pinned page of a kind can be used now (R109, R348, R352). -/
def State.pageReady (s : State) (k : Kept) (wr : Bool) : Bool :=
  (!wr || k.w)
  && (match kindOf k.pa with
      | .hbm => let d := homeDie k.pa; bit (s.regs.rdy.getD 0 0) (2 * d) && bit (s.regs.rdy.getD 0 0) (2 * d + 1)
      | .tier2 => bits (s.regs.rdy.getD 0 0) 23 8 == 0xFFFF
      | .peer =>
        let e := (Map.get s.imports 0 ((k.pa - 0x1000000000000) / 2 ^ 36)).toNat
        bit e 63 && (!wr || bit e 62)
      | .host | .cxl => true
      | .reserved => false)

/-- The pin list (R162); nothing where an entry breaks it or the list cannot be read. -/
def State.pinList (s : State) (r : Record) : Option (List Pin) :=
  (s.schedBytes r.pins (16 * r.npin)).bind fun bs =>
    allSome ((List.range r.npin).map fun i =>
      let x := leNat ((bs.drop (16 * i)).take 16)
      let p : Pin := ⟨bits x 127 64, bits x 63 32, bit x 0⟩
      if bits x 31 1 != 0 || p.len == 0 || p.base % 65536 != 0 || 2 ^ 56 < p.base + 65536 * p.len then none else some p)

/-- The kept translations of a pin's pages (R109): pages that stay pinned keep theirs. -/
def State.pinPages (s : State) (pins : List Pin) : Option (Map Kept) :=
  pins.foldl (fun acc p => (List.range p.len).foldl (fun (acc : Option (Map Kept)) i =>
    let page := p.base / 65536 + i
    match acc, (s.keptPage page).or (s.walkPage page) with
    | some m, some k => if s.pageReady k p.wr then some (Map.ins m page k) else none
    | _, _ => none) acc) (some [])

/-- Whether n bytes from an address lie in the pins, and in HBM where that is asked. -/
def inPins (pages : Map Kept) (va n : Nat) (hbm : Bool) : Bool :=
  (pagesOf va n).all fun a => match Map.find? pages (pageOf a) with
    | some k => !hbm || kindOf k.pa == .hbm
    | none => false

/-- Teams of a record, as far as its private area counts them (R113). -/
def Record.teams (r : Record) : Nat := if r.kind = 1 then r.ncore * r.v else r.nteam

/-- Whether what must lie in the pins does (reason 5). -/
def Record.covered (r : Record) (pages : Map Kept) : Bool :=
  (r.compl == 0 || inPins pages r.compl 16 true) && r.deps.all (fun d => inPins pages (bits d 63 11 * 16) 16 false)
  && inPins pages r.pins (16 * r.npin) false && inPins pages r.tdpre (32 * r.tdn) false
  && inPins pages r.sched (32 * r.nsched) false && inPins pages r.save (65536 * r.savez * r.ncore) true
  && inPins pages r.pbase (2048 * r.psize * r.teams) false

/-- The pins of a record with their pages, or nothing: reason 5. -/
def State.pinned (s : State) (r : Record) : Option (List Pin × Map Kept) :=
  match s.pinList r with
  | none => none
  | some pins => match s.pinPages pins with
    | none => none
    | some pages => if r.covered pages then some (pins, pages) else none

/-- The reason that refuses a record, in the order of R168, with the core list and the pins that it names. A core list
whose page cannot be walked is a failed walk: reason 5 (R345). The alignment of SCHED and of CLIST is in no row of the
table, and is not looked at. Log 8: DEDUCED, unsafe. -/
def State.admitReason (s : State) (r : Record) (cs : Option (List CoreEntry)) (pins : Option (List Pin × Map Kept)) :
    Option Nat :=
  if r.reserved || r.kind == 3 || (r.kind == 1 && r.bmode.any (· == 3)) || 4 < r.ndep || 256 < r.tdn || 1024 < r.nbar then
    some 1
  else if r.geometryBad s.regs.devno (if r.clist = 0 then none else cs) then some 2
  else if (r.kind == 1 && r.indices.any fun b => decide (64 < r.groupsPerSet b))
      || (r.handler != 0 && (r.tsize == 64 || (r.kind == 1 && r.indices.any fun b => r.groupsPerSet b == 64))) then some 3
  else if r.indices.any fun b => decide (524288 < r.sliceBytes b) || decide (65536 * r.savez < r.saveBytes b) then some 4
  else if (r.clist != 0 && cs.isNone) || pins.isNone then some 5
  else if r.handler != 0 && (bit r.tiles 6 || bit r.tiles 7) then some 6
  else none

/-- The checks of a record (R168), made at its admission: every page that it pins is walked then (R109), and an import
entry that one maps is the one that stands then (R346, R348). -/
def State.check (s : State) (r : Record) : Checked :=
  let cs := s.coreList r
  let pins := s.pinned r
  { reason := s.admitReason r cs pins, cores := cs, pins := ((pins.map Prod.fst).getD []), pages := ((pins.map Prod.snd).getD []) }

/-- CXL ports that the scheduler's reads for a record wait for (R352): its barriers, its lists and its pages. -/
def State.recordPorts (s : State) (r : Record) : List Nat :=
  (r.deps.flatMap fun d => s.readPorts (bits d 63 11 * 16) 16)
  ++ s.readPorts r.pins (16 * r.npin) ++ s.readPorts r.clist (4 * (if r.clist = 0 then 0 else r.ncore))
  ++ s.readPorts r.tdpre (32 * r.tdn)
  ++ (match s.pinList r with
      | some pins => pins.flatMap fun p => (List.range p.len).flatMap fun i => s.walkPorts (p.base / 65536 + i)
      | none => [])

/-! ### Placement (R40, R58, R111, R169 to R171) -/

/-- Whether a core's island is ready and its die stands (R352, R439). -/
def State.coreReady (s : State) (core : Nat) : Bool :=
  let i := islandOf core
  bit (if i < 32 then s.regs.rdy.getD 2 0 else s.regs.rdy.getD 3 0) (i % 32) && !(s.die (dieOf core)).fenced

/-- Contexts that hold the active bank of a core. -/
def State.activeCtxs (s : State) (core : Nat) : List Ctx :=
  (s.ctxs.filter fun (x : Nat × Ctx) => x.2.core == core && x.2.res == .active).map Prod.snd

/-- The units of a field launch's sets on block b. -/
def Record.fieldUnits (r : Record) (b : Nat) : List Nat :=
  ((List.range (r.groupsPerSet b)).map fun j => patchSlot j / 16).eraseDups

/-- A field launch that is placed on a core and has not started: it holds the slots and tiles of its block (R58, R170). -/
def State.awaiting (s : State) (c : Ctx) : Option Record :=
  (s.launch? c.launch).bind fun l => if l.r.kind = 1 && l.started = 0 && !l.stopped then some l.r else none

/-- Whether a slot is taken in the active bank of a core: by a group, in whatever set it runs, or for a field launch. -/
def State.slotTaken (s : State) (core slot : Nat) : Bool :=
  (s.groups.any fun (x : Nat × Group) => x.2.core == core && x.2.slot == slot && !x.2.gone
    && (match s.ctx? x.2.launch core with | some c => c.res == .active | none => false))
  || (s.activeCtxs core).any fun c => match s.awaiting c with
    | some r => (List.range (r.groupsPerSet c.index)).any fun j => patchSlot j == slot
    | none => false

/-- Whether a tile of a unit is taken in the active bank of a core: it is allotted to a team, or held for a handler or
for a field launch (R68). -/
def State.tileTaken (s : State) (core unit t : Nat) : Bool :=
  (s.activeCtxs core).any fun c =>
    (unit == 3 && 6 ≤ t && c.handler != 0)
    || (match s.awaiting c with
        | some r => bit r.tiles t && (r.fieldUnits c.index).contains unit
        | none => false)
    || (match s.launch? c.launch with
        | some l => bit l.r.tiles t && l.allots.any fun (a : Nat × Nat × Nat) =>
            a.2.1 == core && a.2.2 == unit && !l.ended.contains a.1
        | none => false)

def Record.barriers (r : Record) : Nat := if r.nbar = 0 then 1024 else r.nbar

/-- Barriers of a context. -/
def State.ctxBars (s : State) (c : Ctx) : Nat := match s.launch? c.launch with | some l => l.r.barriers | none => 0

/-- Whether a launch of another kind keeps a die from this one (R169). -/
def State.weightClash (s : State) (kind die : Nat) : Bool :=
  s.ctxs.any fun (x : Nat × Ctx) => dieOf x.2.core == die
    && (kind == 2 || (match s.launch? x.2.launch with | some l => l.r.kind == 2 | none => false))

/-- Whether a block of n from a on meets some blocks, given by first and length. -/
def meetsBlock (bs : List (Nat × Nat)) (a n : Nat) : Bool :=
  bs.any fun (x : Nat × Nat) => decide (x.1 < a + n) && decide (a < x.1 + x.2)

/-- The lowest place below a limit for a block of n beside others (R71, R111): which place is taken is not stated.
Log 8: DESIGN CHOICE, unsafe. -/
def firstGap (bs : List (Nat × Nat)) (limit n : Nat) : Option Nat :=
  ((0 :: bs.map fun (x : Nat × Nat) => x.1 + x.2).filter fun a => decide (a + n ≤ limit) && !meetsBlock bs a n).foldl
    (fun m a => some (match m with | none => a | some x => min x a)) none

/-- Where a slice of n bytes lies in the active bank of a core beside those there, a field launch's at its top (R111). -/
def State.sliceRoom (s : State) (field : Bool) (core n : Nat) : Option Nat :=
  let bs := (s.activeCtxs core).map fun c => (c.scrBase, c.sliceBytes)
  if field then (if n ≤ 524288 && !meetsBlock bs (524288 - n) n then some (524288 - n) else none) else firstGap bs 524288 n

/-- Where a block of n barriers begins in the active bank of a core beside those there (R71). -/
def State.barRoom (s : State) (core n : Nat) : Option Nat :=
  firstGap ((s.activeCtxs core).map fun c => (c.barBase, s.ctxBars c)) 1024 n

/-- Whether slots 0 on of a field launch's block, and its tiles, are free in the active bank of a core (R58, R171). -/
def State.blockFree (s : State) (r : Record) (b core : Nat) : Bool :=
  (List.range (r.groupsPerSet b)).all (fun j => !s.slotTaken core (patchSlot j)
    && (patchSlot j != handlerSlot || (s.activeCtxs core).all fun c => c.handler == 0))
  && (r.fieldUnits b).all fun u => (List.range 8).all fun t => !(bit r.tiles t) || !s.tileTaken core u t

/-- Whether a bank has room for a handler (R171). -/
def State.handlerRoom (s : State) (core : Nat) : Bool :=
  (s.activeCtxs core).all (fun c => c.handler == 0) && !s.slotTaken core handlerSlot
    && !s.tileTaken core 3 6 && !s.tileTaken core 3 7

/-- Whether placed-core index b of a launch fits a core's active bank beside what is there: slice, barriers, one field
launch, one handler, one launch with a monitor wherever its context is (R412), and for a field launch its slots and tiles
(R58, R71, R111, R171). Log 8: DEDUCED, unsafe. -/
def State.fits (s : State) (r : Record) (b core : Nat) : Bool :=
  (s.sliceRoom (r.kind == 1) core (r.sliceBytes b)).isSome
  && (s.barRoom core r.barriers).isSome
  && (r.kind != 1 || (s.activeCtxs core).all fun c => match s.launch? c.launch with | some l => l.r.kind != 1 | none => true)
  && (r.handler == 0 || s.handlerRoom core)
  && (r.handler != 1 || s.ctxs.all fun (x : Nat × Ctx) => x.2.core != core || x.2.handler != 1)
  && (r.kind != 1 || s.blockFree r b core)

/-- Whether a launch's core of this device can be placed now. -/
def State.placeable (s : State) (r : Record) (b core : Nat) : Bool :=
  s.coreReady core && !s.weightClash r.kind (dieOf core) && s.fits r b core

/-- The scheduler's own choice as a core list (R170, R182): rectangles in the order chosen, entries in ascending
%core. -/
def chosenList (dev n : Nat) (cores : List Nat) : List CoreEntry :=
  (cores.foldl Nats.ins []).map fun c => ⟨c, dev, cores.idxOf c / n⟩

/-- Whether chosen cores are what R170 asks. -/
def chosenOk (r : Record) (cores : List Nat) : Bool :=
  cores.Nodup && cores.length == r.ncore && cores.all (fun c => decide (c < Config.cores))
  && (List.range (r.ncore / r.clusterSize)).all fun k =>
    rectangle ((cores.drop (k * r.clusterSize)).take r.clusterSize) r.cw r.ch

/-- The core list of an admission: the record's, or the scheduler's choice; nothing where the choice is not allowed.
Log 8: DEDUCED, unsafe. -/
def State.listFor (s : State) (ck : Checked) (r : Record) (cores : List Nat) : Option (List CoreEntry) :=
  if r.clist != 0 then ck.cores
  else if chosenOk r cores then some (chosenList s.regs.devno r.clusterSize cores) else none

/-- Whether every core of a list that lies on this device can be placed. -/
def State.placeableAll (s : State) (r : Record) (cs : List CoreEntry) : Bool :=
  (List.range cs.length).all fun b =>
    let e := cs.getD b ⟨0, 0, 0⟩
    e.dev != s.regs.devno || s.placeable r b e.core

/-- The rectangle of w × h whose lowest core is c, if it lies in the package. -/
def rectAt (w h c : Nat) : List Nat :=
  (List.range Config.cores).filter fun d =>
    decide (coreX c ≤ coreX d) && decide (coreX d < coreX c + w) && decide (coreY c ≤ coreY d)
    && decide (coreY d < coreY c + h)

/-- n rectangles of some, none meeting another or those taken: the first that the order gives, if there are any at all. A
branch that leaves too few cores is not followed. -/
def packs (size : Nat) : List (List Nat) → Nat → List Nat → Option (List Nat)
  | _, 0, acc => some acc
  | [], _ + 1, _ => none
  | r :: rest, n + 1, acc =>
    if (((r :: rest).flatMap id).eraseDups.filter fun d => !acc.contains d).length < (n + 1) * size then none
    else
      (if r.all fun d => !acc.contains d then packs size rest n (acc ++ r) else none).or (packs size rest (n + 1) acc)

/-- The rectangles that the scheduler takes for a record of an ordinary launch, where there are enough (R170): which, it
may choose. Log 8: DESIGN CHOICE, safe. -/
def State.choose (s : State) (r : Record) : Option (List Nat) :=
  let able := (List.range Config.cores).filter (s.placeable r 0)
  let rects := ((List.range Config.cores).map (rectAt r.cw r.ch)).filter fun x =>
    x.length == r.clusterSize && x.all fun d => able.contains d
  packs r.clusterSize rects (r.ncore / max 1 r.clusterSize) []

/-- The cores that the scheduler takes for a record when nothing else names them. -/
def State.choiceFor (s : State) (r : Record) : List Nat := if r.clist = 0 then (s.choose r).getD [] else []

/-- Whether the placement of a checked record can be made now, by some choice (R166). -/
def State.placementExists (s : State) (ck : Checked) (r : Record) : Bool :=
  if r.clist = 0 then (s.choose r).isSome
  else match ck.cores with | some cs => s.placeableAll r cs | none => false

/-- Whether a head is considered now: its dependences are met, and what the scheduler reads for it can be read (R166,
R352). -/
def State.headReady (s : State) (r : Record) : Bool := s.depsMet r && (s.recordPorts r).isEmpty

/-- Whether a head whose dependences are met can be admitted or refused now. Log 8: DEDUCED, unsafe. -/
def State.headMoves (s : State) (r : Record) : Bool :=
  s.headReady r && ((s.check r).reason.isSome || s.placementExists (s.check r) r)

/-- Heads that R166 takes before a head of this priority and queue. Log 8: DEDUCED, unsafe. -/
def State.outranked (s : State) (q prio : Nat) : Bool :=
  s.queues.any fun (x : Nat × Queue) => match x.2.headRecord with
    | some r => (decide (r.prio < prio) || (r.prio == prio && decide (x.1 < q))) && s.headMoves r
    | none => false

/-! ### Setting up (R169) -/

/-- The preloaded descriptors of a launch. -/
def State.preload (s : State) (r : Record) : Map (BitVec 256) :=
  match s.schedBytes r.tdpre (32 * r.tdn) with
  | some bs => (List.range r.tdn).foldl (fun m i =>
      Map.put m 0 i (BitVec.ofNat 256 (leNat ((bs.drop (32 * i)).take 32)))) []
  | none => []

/-- The context of placed-core index b. -/
def newCtx (n : Nat) (r : Record) (b core scr bar : Nat) (tds : Map (BitVec 256)) : Ctx :=
  { launch := n, core := core, index := b, scrBase := scr, barBase := bar, sliceBytes := r.sliceBytes b, tds := tds,
    handler := BitVec.ofNat 64 r.handler, sets := if r.kind = 1 then r.setsOf b else 1 }

/-- Writes that every lane of a group has seen. -/
def seenBy (ids : List Nat) : Map Mask := markSeen [] allLanes (ids.map seenKey)

/-- The handler group at arming (R399). Log 10: DEDUCED, unsafe. -/
def newHandler (n core : Nat) (seen : List Nat) : Group :=
  { launch := n, seen := seenBy seen, team := 0, gid := 0, core := core, slot := handlerSlot, handler := true, splits := List.replicate 4 {} }

/-- Steps 2 to 4 of R169 on one core. -/
def State.placeCore (s : State) (n : Nat) (r : Record) (tds : Map (BitVec 256)) (b core : Nat) : State :=
  let scr := (s.sliceRoom (r.kind == 1) core (r.sliceBytes b)).getD 0
  let bar := (s.barRoom core r.barriers).getD 0
  let s := { s with ctxs := Map.ins s.ctxs (ckey n core) (newCtx n r b core scr bar tds) }
  if r.handler = 0 then s else s.setGroup (gkey n core 0 handlerSlot) (newHandler n core ((s.launch? n).map (·.seen) |>.getD []))

/-- The writes that a launch sees from its admission on (R167, R344): what the arrivals on its dependence barriers
carried, and what the host wrote before it told the queue. Log 2: DEDUCED, unsafe. -/
def State.launchSees (s : State) (q : Nat) (r : Record) : List Nat :=
  ((s.queueOf q).told ++ r.deps.flatMap fun d => match s.arenaPa (bits d 63 11 * 16) with
    | some pa => (s.tbCounted .mem pa).done.flatMap (·.writes)
    | none => []).eraseDups

/-- The launch's private area reads zero when it starts, for others that read it too: what was written there before is no
value of its lanes (R113). Log 17: DEDUCED, unsafe. -/
def State.clearPrivate (s : State) (l : Launch) : State :=
  if l.r.psize = 0 then s
  else
    let inside (a : Nat) : Bool := l.pages.any fun (x : Nat × Kept) =>
      decide (x.2.pa ≤ a) && decide (a < x.2.pa + 65536) && l.inPrivate (65536 * x.1 + (a - x.2.pa))
    { s with
      mem := s.mem.filter fun (c : Host.Cell) => !inside c.1
      hist := s.hist.map fun w =>
        if w.space = .mem then { w with old := w.old.mapIdx fun i b => if inside (w.addr + i) then memDefault else b } else w }

/-- A record is admitted. -/
def State.accept (s : State) (q : Nat) (r : Record) (cs : List CoreEntry) (ck : Checked) : State :=
  let x := s.queueOf q
  let n := s.nextLaunch
  let l : Launch :=
    { r := r, queue := q, rslot := x.headSlot, addr := x.headAddr, cores := cs, pins := ck.pins, pages := ck.pages,
      seen := s.launchSees q r, made := s.launchSees q r }
  let s := { s with launches := Map.ins s.launches n l, nextLaunch := n + 1 : State }.clearPrivate l
  let tds := s.preload r
  let s := (List.range cs.length).foldl (fun s b =>
    let e := cs.getD b ⟨0, 0, 0⟩
    if e.dev = s.regs.devno then s.placeCore n r tds b e.core else s) s
  (s.putStatus q l.addr 1 []).advanceHead q

/-- A record is refused (R164, R168). -/
def State.refuse (s : State) (q reason : Nat) : State :=
  (s.putStatus q (s.queueOf q).headAddr (3 + 256 * reason) []).advanceHead q

/-- ADMISSION (R166 to R171): the head of queue q is checked; it is refused, or admitted on its core list, or on `cores`
where it leaves the choice to the scheduler. One whose placement cannot be made waits (R166). -/
def happensAdmission (q : Nat) (cores : List Nat) (s : State) : Option State :=
  match (s.queueOf q).headRecord with
  | none => none
  | some r =>
    let ck := s.check r
    let go := !s.gate && !s.taking && s.headReady r && !s.outranked q r.prio
    match ck.reason, s.listFor ck r cores with
    | some reason, _ => event go (s.refuse q reason)
    | none, some cs => event (go && s.placeableAll r cs) (s.accept q r cs ck)
    | none, none => none

/-- ADMISSION, where its condition holds. -/
def execAdmission (q : Nat) (cores : List Nat) (s : State) : Host.Outcome State Fault Refusal :=
  occurs (happensAdmission q cores s) s

end Sys2Proof.Machine
end

