-- ==== Sys2Proof/Machine/Func.lean ====
section
/-!
DEFINITION. The functions of R85 on f32: exp2, log2, sine and cosine, correctly rounded to nearest even. Each is
evaluated in fixed point with 224 fraction bits (sine and cosine reduce their argument with 448), far beyond what
separates any f32 input's exact value from a rounding boundary (log 16), and rounded once by `Fmt.round`.
-/

namespace Sys2Proof.Machine

open Sys2Proof

/-- Fraction bits of the fixed-point work. -/
def fx : Nat := 224

/-- Product of two fixed-point numbers. -/
def fxMul (a b : Nat) : Nat := a * b / 2 ^ fx

/-- Σ z^(2i+1) ÷ (2i+1) from a term t = z^k, with z² given: n terms (the series of artanh). -/
def artanhGo : Nat → Nat → Nat → Nat → Nat
  | 0, _, _, _ => 0
  | n + 1, k, t, z2 => t / k + artanhGo n (k + 2) (fxMul t z2) z2

/-- artanh of num ÷ den, for a ratio of at most 1/3. -/
def artanhFx (num den : Nat) : Nat :=
  let z := num * 2 ^ fx / den
  artanhGo 80 1 z (fxMul z z)

/-- ln 2 = 2 artanh(1/3). -/
def ln2Fx : Nat := 2 * artanhFx 1 3

/-- Σ t^i ÷ i! from term number i. -/
def expGo : Nat → Nat → Nat → Nat → Nat
  | 0, _, _, _ => 0
  | n + 1, i, term, t => term + expGo n (i + 1) (fxMul term t / i) t

/-- 2^f for a fixed-point f in [0, 1). -/
def exp2Fx (f : Nat) : Nat := expGo 60 1 (2 ^ fx) (fxMul f ln2Fx)

/-- FEXP2 (R85, R229). Log 16: UNVERIFIED, unsafe. -/
def fexp2 (sat : Bool) (a : FVal) : Nat :=
  match a with
  | .nan => Fmt.f32.nan
  | .inf n => if n then Fmt.f32.zero false else Fmt.f32.infResult sat false
  | .num n m e =>
    -- outside ±1024 the result overflows or rounds to zero whatever the fraction is
    if m = 0 then Fmt.f32.round .rne sat false 1 0
    else if 11 ≤ (Nat.log2 m : Int) + e then
      (if n then Fmt.f32.round .rne sat false 1 (-2000) else Fmt.f32.round .rne sat false 1 2000)
    else
      let x : Int := if 0 ≤ e + fx then signedAt n m (e + fx) 0 else
        (if n then -((m / 2 ^ (-(e + fx)).toNat : Nat) : Int) else ((m / 2 ^ (-(e + fx)).toNat : Nat) : Int))
      let one : Int := ((2 ^ fx : Nat) : Int)
      let i := x / one
      let f := (x % one).toNat
      let exact := decide (f = 0) && decide (0 ≤ e + fx)
      Fmt.f32.round .rne sat false (exp2Fx f) (i - fx) (!exact)

/-- FLOG2 (R85). Log 16: UNVERIFIED, unsafe. -/
def flog2 (sat : Bool) (a : FVal) : Nat :=
  match a with
  | .nan => Fmt.f32.nan
  | .inf n => if n then Fmt.f32.nan else Fmt.f32.infResult sat false
  | .num n m e =>
    if m = 0 then Fmt.f32.infResult sat true
    else if n then Fmt.f32.nan
    else
      let k := Nat.log2 m
      let i : Int := (k : Int) + e
      if m = 2 ^ k then Fmt.f32.deliver .rne sat (FVal.ofInt i)
      else
        -- log2 of m ÷ 2^k in (1, 2) = 2 artanh((m − 2^k) ÷ (m + 2^k)) ÷ ln 2
        let f := 2 * artanhFx (m - 2 ^ k) (m + 2 ^ k) * 2 ^ fx / ln2Fx
        let t : Int := i * ((2 ^ fx : Nat) : Int) + f
        if 0 ≤ t then Fmt.f32.round .rne sat false t.natAbs (-(fx : Int)) true
        else Fmt.f32.round .rne sat true (t.natAbs - 1) (-(fx : Int)) true

/-- Fraction bits of π. -/
def piBits : Nat := 448

/-- arctan(1 ÷ x) with `piBits` fraction bits, alternating series: the terms 1 ÷ (k x^k). -/
def arctanGo : Nat → Nat → Nat → Nat → Bool → Int
  | 0, _, _, _, _ => 0
  | n + 1, k, t, x2, neg =>
    (if neg then -((t / k : Nat) : Int) else ((t / k : Nat) : Int)) + arctanGo n (k + 2) (t / x2) x2 (!neg)

def arctanInv (x : Nat) : Int := arctanGo 120 1 (2 ^ piBits / x) (x * x) false

/-- π with `piBits` fraction bits (Machin). -/
def piFx : Nat := (16 * arctanInv 5 - 4 * arctanInv 239).toNat

/-- Alternating Σ t^i ÷ i!, every second term: sine from i = 1, cosine from i = 0. -/
def trigGo : Nat → Nat → Nat → Nat → Bool → Int
  | 0, _, _, _, _ => 0
  | n + 1, i, term, t2, neg =>
    (if neg then -(term : Int) else (term : Int)) + trigGo n (i + 2) (fxMul term t2 / ((i + 1) * (i + 2))) t2 (!neg)

def sinFx (t : Nat) : Nat := (trigGo 40 1 t (fxMul t t) false).toNat
def cosFx (t : Nat) : Nat := (trigGo 40 0 (2 ^ fx) (fxMul t t) false).toNat

/-- Quadrant and fixed-point remainder in [0, π/2) of m × 2^e, for e ≥ −fx. -/
def reduce (m : Nat) (e : Int) : Nat × Nat :=
  let x := m * 2 ^ (e + piBits).toNat
  let q := 2 * x / piFx
  let r := 2 * x - q * piFx
  (q % 4, r / 2 ^ (piBits + 1 - fx))

/-- Round a value of the fixed-point work; it is never exact. Log 16: UNVERIFIED, unsafe. -/
def fxRound (neg : Bool) (t : Nat) : Nat := Fmt.f32.round .rne false neg t (-(fx : Int)) true

/-- FSIN (R85): below 2^−13 the nearest f32 to sin x is x itself. Log 16: UNVERIFIED, unsafe. -/
def fsin (a : FVal) : Nat :=
  match a with
  | .nan | .inf _ => Fmt.f32.nan
  | .num n m e =>
    if m = 0 then Fmt.f32.zero n
    else if (Nat.log2 m : Int) + e < -13 then Fmt.f32.round .rne false n m e
    else
      let (q, r) := reduce m e
      let t := if q % 2 = 0 then sinFx r else cosFx r
      fxRound (n != decide (2 ≤ q)) t

/-- FCOS (R85). Log 16: UNVERIFIED, unsafe. -/
def fcos (a : FVal) : Nat :=
  match a with
  | .nan | .inf _ => Fmt.f32.nan
  | .num _ m e =>
    if m = 0 then Fmt.f32.round .rne false false 1 0
    else if (Nat.log2 m : Int) + e < -13 then Fmt.f32.round .rne false false 1 0
    else
      let (q, r) := reduce m e
      let t := if q % 2 = 0 then cosFx r else sinFx r
      fxRound (q == 1 || q == 2) t

end Sys2Proof.Machine
end

