-- ==== Sys2Proof/Machine/FloatAlu.lean ====
section
/-!
DEFINITION. Floating-point arithmetic, compares, functions and classes (R223 to R230).
-/

namespace Sys2Proof.Machine

open Sys2Proof

/-- A two-source float word: an operation on patterns, flags of a float result (R225). -/
def floatArith2 (i : Instr) (w : FWord XArith) (f : Nat → Nat → Nat) (s : State) : Host.Outcome State Fault Refusal :=
  arith2 i w f (fun _ _ r => flagsFloat (tyFmt w.x.ty) r) s

/-- A one-source float word on exact values. -/
def floatArith1 (i : Instr) (w : FWord XArith) (long : Bool) (f : FVal → Nat) (s : State) :
    Host.Outcome State Fault Refusal :=
  arith1 i w long (fun x => f ((tyFmt w.x.ty).read x)) (flagsFloat (tyFmt w.x.ty)) s

/-- FADD (R225). -/
def execFadd (w : FWord XArith) (s : State) : Host.Outcome State Fault Refusal :=
  let f := tyFmt w.x.ty
  floatArith2 (.fadd w) w (fun a b => f.add w.x.rm w.x.sat (f.read a) (f.read b)) s

/-- FSUB (R225): a + (−b). -/
def execFsub (w : FWord XArith) (s : State) : Host.Outcome State Fault Refusal :=
  let f := tyFmt w.x.ty
  floatArith2 (.fsub w) w (fun a b => f.add w.x.rm w.x.sat (f.read a) (f.read b).neg) s

/-- FMUL (R225). -/
def execFmul (w : FWord XArith) (s : State) : Host.Outcome State Fault Refusal :=
  let f := tyFmt w.x.ty
  floatArith2 (.fmul w) w (fun a b => f.mul w.x.rm w.x.sat (f.read a) (f.read b)) s

/-- FFMA (R226): D is read as the addend. -/
def execFfma (w : FWord XArith) (s : State) : Host.Outcome State Fault Refusal :=
  let t := w.x.ty
  let f := tyFmt t
  let e (i x : Nat) := f.read (elem (tyWidth t) i x)
  arith (.ffma w) w false (tyRegs t)
    (fun s it l =>
      let a := srcA w s it l
      let b := srcB w s it l
      let d := dstVal it t w.d l
      byElem t fun i => f.fma w.x.rm w.x.sat (e i a) (e i b) (e i d))
    (fun _ _ _ r => flagsFloat f r) s

/-- FMIN (R225). -/
def execFmin (w : FWord XArith) (s : State) : Host.Outcome State Fault Refusal :=
  floatArith2 (.fmin w) w (tyFmt w.x.ty).minNum s

/-- FMAX (R225). -/
def execFmax (w : FWord XArith) (s : State) : Host.Outcome State Fault Refusal :=
  floatArith2 (.fmax w) w (tyFmt w.x.ty).maxNum s

/-- FCMP (R223). -/
def execFcmp (w : FWord XArith) (s : State) : Host.Outcome State Fault Refusal :=
  let f := tyFmt w.x.ty
  compare (.fcmp w) w (fun a b => fcmpCond w.x.opx (f.read a) (f.read b)) s

/-- FRND (R228). -/
def execFrnd (w : FWord XArith) (s : State) : Host.Outcome State Fault Refusal :=
  let f := tyFmt w.x.ty
  arith1 (.frnd w) w false (f.toIntegral w.x.rm) (flagsFloat f) s

/-- FRCP (R229). -/
def execFrcp (w : FWord XArith) (s : State) : Host.Outcome State Fault Refusal :=
  floatArith1 (.frcp w) w true ((tyFmt w.x.ty).rcp w.x.sat) s

/-- FRSQ (R229). -/
def execFrsq (w : FWord XArith) (s : State) : Host.Outcome State Fault Refusal :=
  floatArith1 (.frsq w) w true ((tyFmt w.x.ty).rsqrt w.x.sat) s

/-- FSQRT (R229). -/
def execFsqrt (w : FWord XArith) (s : State) : Host.Outcome State Fault Refusal :=
  floatArith1 (.fsqrt w) w true ((tyFmt w.x.ty).sqrt w.x.rm w.x.sat) s

/-- FDIV (R229). -/
def execFdiv (w : FWord XArith) (s : State) : Host.Outcome State Fault Refusal :=
  let f := tyFmt w.x.ty
  arith (.fdiv w) w true (tyRegs w.x.ty)
    (fun s it l => f.div w.x.rm w.x.sat (f.read (srcA w s it l)) (f.read (srcB w s it l)))
    (fun _ _ _ r => flagsFloat f r) s

/-- FEXP2 (R229). -/
def execFexp2 (w : FWord XArith) (s : State) : Host.Outcome State Fault Refusal :=
  floatArith1 (.fexp2 w) w true (fexp2 w.x.sat) s

/-- FLOG2 (R229). -/
def execFlog2 (w : FWord XArith) (s : State) : Host.Outcome State Fault Refusal :=
  floatArith1 (.flog2 w) w true (flog2 w.x.sat) s

/-- FSIN (R229). -/
def execFsin (w : FWord XArith) (s : State) : Host.Outcome State Fault Refusal :=
  floatArith1 (.fsin w) w true fsin s

/-- FCOS (R229). -/
def execFcos (w : FWord XArith) (s : State) : Host.Outcome State Fault Refusal :=
  floatArith1 (.fcos w) w true fcos s

/-- FCLASS (R230): a one-hot code in each element; one register even of f64. -/
def execFclass (w : FWord XArith) (s : State) : Host.Outcome State Fault Refusal :=
  arith (.fclass w) w false 1 (fun s it l => map1 w.x.ty (tyFmt w.x.ty).classOf (srcA w s it l))
    (fun _ _ _ r => flagsZN 32 r) s

/-- FDOT2 (R227): two exact products and D as f32, one rounding under RM. -/
def execFdot2 (w : FWord XArith) (s : State) : Host.Outcome State Fault Refusal :=
  let f := tyFmt w.x.ty
  let e (i x : Nat) := f.read (elem 16 i x)
  arith (.fdot2 w) w false 1
    (fun s it l =>
      let a := srcA w s it l
      let b := srcB w s it l
      Fmt.f32.deliver w.x.rm w.x.sat
        (.sum (isRdn w.x.rm) [(e 0 a).mul (e 0 b), (e 1 a).mul (e 1 b), Fmt.f32.read (dstVal it .f32 w.d l)]))
    (fun _ _ _ r => flagsFloat .f32 r) s

end Sys2Proof.Machine
end

