-- ==== Sys2Proof/Machine/Convert.lean ====
section
/-!
DEFINITION. Conversions: CVT, PACK, UNPACK, and the block words CVTQ and CVTQD (R231 to R235).
-/

namespace Sys2Proof.Machine

open Sys2Proof

/-- The flags of a scalar CVT (R65, R210): an integer result's are those of the integer before any clamp, also before that
of a float source (R77, R86). No such integer is there for an infinity: its Z is 0 and its N is a free value, which
operand and modifiers settle (R101). Log 5: DEDUCED, unsafe. -/
def cvtFlags (t u : Ty) (rm : Rm) (sat : Bool) (x : Nat) : FlagUpd :=
  if t.isFloat then flagsOf t (convElem t u rm sat x)
  else if u.isFloat then
    match (tyFmt u).read x with
    | .nan => flagsZN (tyWidth t) 0
    | .inf _ => { z := some false, n := some (Config.cvtNegative t.code u.code rm.code sat x) }
    | .num neg k e => flagsZN (tyWidth t) (wrap (tyWidth t) (roundInt rm neg k e))
  else flagsZN (tyWidth t) (intResult t false (intOf u x))

/-- CVT (R231): each element between two types of one element count. Log 5: DEDUCED, unsafe. -/
def execCvt (w : FWord XCvt) (s : State) : Host.Outcome State Fault Refusal :=
  let t := w.x.ty
  let u := w.x.sty
  issue (.cvt w) s fun s it =>
    let m := it.exec w.p
    let val (l : Nat) : Nat :=
      let a := srcVal s it u w.a l
      byElem t fun i => convElem t u w.x.rm w.x.sat (elem (tyWidth u) i a)
    let f := if w.x.cc && m != 0 then cvtFlags t u w.x.rm w.x.sat (elem (tyWidth u) 0 (srcVal s it u w.a (lowest m))) else {}
    .ok (s.writeNow it (laneWrites w.d (tyRegs t) m val) f) none

/-- PACK (R232): two 32-bit values into elements 2h and 2h + 1; the others of D are kept. -/
def execPack (w : FWord XArith) (s : State) : Host.Outcome State Fault Refusal :=
  let t := w.x.ty
  let u := wideOf t
  let h := w.x.opx % 2
  arith (.pack w) w false 1
    (fun s it l =>
      byElem t fun i =>
        if i = 2 * h then convElem t u w.x.rm w.x.sat (srcVal s it u w.a l)
        else if i = 2 * h + 1 then convElem t u w.x.rm w.x.sat (srcVal s it u w.b l)
        else elem (tyWidth t) i (dstVal it t w.d l))
    (fun _ _ _ _ => {}) s

/-- UNPACK (R233): one element, widened exactly. -/
def execUnpack (w : FWord XArith) (s : State) : Host.Outcome State Fault Refusal :=
  let t := w.x.ty
  arith (.unpack w) w false 1
    (fun s it l => convElem (wideOf t) t .rne false (elem (tyWidth t) (w.x.opx % 4) (srcVal s it t w.a l)))
    (fun _ _ _ _ => {}) s

/-- The block kind of CVTQ and CVTQD, from OPX (R234). -/
def opxKind (opx : Nat) : BlockKind :=
  match opx / 4 with
  | 0 => .qx4 (opx % 4)
  | 1 => .mxfp4
  | _ => .mxint8

/-- The words CVTQ writes, by lane: four code bytes each, then the scale byte. -/
def blockWords (k : BlockKind) (xs : List FVal) : List Nat :=
  let (sc, codes) := k.encode xs
  let bs := k.codeBytes codes
  (List.range (bs.length / 4)).map
    (fun j => bs.getD (4 * j) 0 + 256 * bs.getD (4 * j + 1) 0 + 65536 * bs.getD (4 * j + 2) 0
      + 16777216 * bs.getD (4 * j + 3) 0) ++ [sc]

/-- CVTQ (R234): the lanes as one block; inactive lanes count as +0, lanes beyond the output are not written. -/
def execCvtq (w : FWord XArith) (s : State) : Host.Outcome State Fault Refusal :=
  issue (.cvtq w) s fun s it =>
    let m := it.exec w.p
    let xs := (List.range 32).map fun l =>
      if m.getLsbD l then Fmt.f32.read (srcVal s it .f32 w.a l) else FVal.num false 0 0
    let out := blockWords (opxKind w.x.opx) xs
    let ws := (lanesOf m).flatMap fun l => if l < out.length then dstWrites w.d 1 l (out.getD l 0) else []
    .ok (s.writeNow it ws {}) none

/-- Element l of the block held in lanes 0 to 4 (0 to 8) of A (R235). -/
def blockElem (k : BlockKind) (rd : Nat → Nat) (l : Nat) : Nat :=
  let n := match k with | .mxint8 => 8 | _ => 4
  let sc := rd n % 256
  let k := match k with | .qx4 _ => qx4Kind sc | k => k
  Fmt.f32.deliver .rne false (k.decode sc (k.codeAt (fun b => rd (b / 4) / 256 ^ (b % 4) % 256) l))

/-- CVTQD (R235). -/
def execCvtqd (w : FWord XArith) (s : State) : Host.Outcome State Fault Refusal :=
  issue (.cvtqd w) s fun s it =>
    let m := it.exec w.p
    .ok (s.writeNow it (laneWrites w.d 1 m (blockElem (opxKind w.x.opx) fun l => srcVal s it .f32 w.a l)) {}) none

end Sys2Proof.Machine
end

