-- ==== Sys2Proof/Machine/Scheduler.lean ====
section
/-!
DEFINITION. The scheduler after admission: teams that start (R31, R40, R170), launches that complete (R174, R403), and
contexts that are switched out and back (R178 to R183).
-/

namespace Sys2Proof.Machine

open Sys2Proof

/-! ### Teams (R31, R40, R62, R165, R170) -/

/-- ARGS in s0 to s15 (R165). -/
def Record.argRegs (r : Record) : Map Word :=
  (List.range 16).foldl (fun m i => Map.put m 0 i (BitVec.ofNat 32 (r.args.getD i 0))) []

/-- The split table of a group that starts (R62): entry 0 runs at ENTRY. -/
def startSplits (r : Record) (m : Mask) : List Split :=
  { st := .run, pc := BitVec.ofNat 64 (r.entry / 8 * 8), mask := m, sig := sigStart } :: List.replicate 3 {}

/-- A group of an ordinary team. -/
def newGroup (n team gid core slot : Nat) (r : Record) (seen : List Nat) : Group :=
  { launch := n, seen := seenBy seen, team := team, gid := gid, core := core, slot := slot, s := r.argRegs, splits := startSplits r allLanes }

/-- The lanes of a patch that hold a cell (R39). -/
def Record.patchMask (r : Record) (origin : List Nat) : Mask := maskOf (r.holdsCell origin)

/-- Group of patch j of set i on block b. -/
def newCellGroup (n b i j core : Nat) (r : Record) (seen : List Nat) : Group :=
  let origin := (List.range 3).map (r.patchOrigin b (i * r.groupsPerSet b + j))
  let m := r.patchMask origin
  { launch := n, seen := seenBy seen, team := b * r.v + i, gid := j, core := core, set := i, slot := patchSlot j, e := r.e, origin := origin,
    cellMask := m, s := r.argRegs, splits := startSplits r m }

/-- Slots that groups can take on a core, as `taken` stands beside what the state holds; one that a group has left is
free 4 cycles later (R402). -/
def State.openSlot (s : State) (core : Nat) (taken : List Nat) (slot : Nat) : Bool :=
  !taken.contains slot && !s.slotTaken core slot && Map.get (s.coreOf core).slots 0 (freeKey 0 slot) == 0
  && (slot != handlerSlot || (s.activeCtxs core).all fun c => c.handler == 0)

/-- The slot of group g (R170): its own partition's lowest free one, else that of the partition with most free slots. -/
def State.pickSlot (s : State) (core : Nat) (taken : List Nat) (g : Nat) : Option Nat :=
  let free (p : Nat) : List Nat := ((List.range 4).map fun i => 4 * p + i).filter (s.openSlot core taken)
  match free (g % 16) with
  | x :: _ => some x
  | [] =>
    let best := (List.range 16).foldl (fun b p => if (free b).length < (free p).length then p else b) 0
    (free best).head?

/-- Slots for n groups of a team, in order. -/
def State.pickSlots (s : State) (core : Nat) : Nat → Option (List Nat)
  | 0 => some []
  | n + 1 =>
    (s.pickSlots core n).bind fun l => (s.pickSlot core l n).map fun x => l ++ [x]

/-- Where a team can start on a core: its slots, with its tiles free on every unit they use (R170). -/
def State.teamSlots (s : State) (l : Launch) (core : Nat) : Option (List Nat) :=
  (s.pickSlots core l.r.tsize).bind fun slots =>
    if (slots.map (· / 16)).all fun u => (List.range 8).all fun t => !(bit l.r.tiles t) || !s.tileTaken core u t then some slots
    else none

/-- The allotments of a team (R68). -/
def allotsOf (team core : Nat) (slots : List Nat) : List (Nat × Nat × Nat) :=
  ((slots.map (· / 16)).eraseDups).map fun u => (team, core, u)

/-- The tiles of a team read zero when it starts (R68). -/
def State.clearTiles (s : State) (launch core : Nat) (r : Record) (set : Nat) (slots : List Nat) : State :=
  s.modCtx launch core fun c =>
    { c with tiles := c.tiles.filter fun (x : Nat × Tile) =>
        !(x.1 / 32 == set && slots.any (fun w => w / 16 == x.1 / 8 % 4) && bit r.tiles (x.1 % 8)) }

/-- A team starts on a core with its slots. -/
def State.startTeam (s : State) (n team core : Nat) (r : Record) (slots : List Nat) : State :=
  let s := s.clearTiles n core r 0 slots
  let s := (slots.mapIdx fun g w => (g, w)).foldl (fun s (x : Nat × Nat) =>
    s.setGroup (gkey n core 0 x.2) (newGroup n team x.1 core x.2 r ((s.launch? n).map (·.seen) |>.getD []))) s
  s.modLaunch n fun l => { l with allots := l.allots ++ allotsOf team core slots }

/-- The rectangle of launch cluster c in rank order (R170). -/
def Launch.rectOf (l : Launch) (c : Nat) : List CoreEntry :=
  let ks := clustersOf l.cores
  let own := clusterCores l.cores (ks.getD (c % max 1 ks.length) 0)
  let rank (e : CoreEntry) : Nat := coreY e.core * 16 + coreX e.core
  (own.foldl (fun m e => Map.ins m (rank e) e) ([] : Map CoreEntry)).map Prod.snd

/-- Whether a launch holds the active bank of a core. -/
def State.activeOn (s : State) (n core : Nat) : Bool :=
  match s.ctx? n core with | some c => c.res == .active | none => false

/-- Whether a core-list entry lies on this device and its die stands: the others' teams are not this model's.
Log 35: DESIGN CHOICE, unsafe. -/
def State.ownEntry (s : State) (e : CoreEntry) : Bool := e.dev == s.regs.devno && !(s.die (dieOf e.core)).fenced

/-- Teams count as ended without having started: those on other devices or on a fenced die, and indices that name no
set (R40, R440). Log 22: DEDUCED, unsafe. Log 35: DESIGN CHOICE, unsafe. -/
def State.skipTeams (s : State) (n : Nat) (ts : List Nat) : State :=
  s.modLaunch n fun l => { l with ended := ts.foldl Nats.ins l.ended }

/-- The next cluster of an ordinary launch, with the slots of its teams on this device; nothing where it cannot start
now. Log 8: DEDUCED, unsafe. -/
def State.nextCluster (s : State) (n : Nat) (l : Launch) : Option (List (CoreEntry × List Nat)) :=
  let rect := l.rectOf (l.started / max 1 l.r.clusterSize)
  allSome (rect.map fun e =>
    if !s.ownEntry e then some (e, [])
    else if s.activeOn n e.core then (s.teamSlots l e.core).map fun w => (e, w)
    else none)

/-- All teams of the next cluster start together (R170). -/
def State.startCluster (s : State) (n : Nat) (l : Launch) (ps : List (CoreEntry × List Nat)) : State :=
  let s := (ps.mapIdx fun i p => (l.started + i, p)).foldl (fun s (x : Nat × CoreEntry × List Nat) =>
    if !s.ownEntry x.2.1 then s.skipTeams n [x.1] else s.startTeam n x.1 x.2.1.core l.r x.2.2) s
  s.modLaunch n fun l => { l with started := l.started + l.r.clusterSize }

/-- The teams of block b of a field launch: all its sets at once (R41). -/
def State.startBlock (s : State) (n : Nat) (l : Launch) (b : Nat) : State :=
  let r := l.r
  let e := l.cores.getD b ⟨0, 0, 0⟩
  let own := s.ownEntry e
  let sets := if own then r.setsOf b else 0
  let s := (List.range sets).foldl (fun s i =>
    let slots := (List.range (r.setGroups b i)).map patchSlot
    let s := (List.range (r.setGroups b i)).foldl (fun s j =>
      s.setGroup (gkey n e.core i (patchSlot j)) (newCellGroup n b i j e.core r l.seen)) s
    s.modLaunch n fun l => { l with allots := l.allots ++ allotsOf (b * r.v + i) e.core slots }) s
  s.skipTeams n ((List.range (r.v - sets)).map fun i => b * r.v + sets + i)

/-- TEAM_START (R31): the next cluster of an ordinary launch, or a field launch whole. -/
def happensTeamStart (n : Nat) (s : State) : Option State :=
  match s.launch? n with
  | none => none
  | some l =>
    let go := !s.gate && !l.stopped && decide (l.started < l.teams)
    if l.r.kind = 1 then
      let all := l.cores.all fun e => !s.ownEntry e || s.activeOn n e.core
      event (go && all)
        (((List.range l.cores.length).foldl (fun s b => s.startBlock n l b) s).modLaunch n fun l =>
          { l with started := l.teams })
    else match s.nextCluster n l with
      | none => none
      | some ps => event go (s.startCluster n l ps)

/-- TEAM_START, where its condition holds. -/
def execTeamStart (n : Nat) (s : State) : Host.Outcome State Fault Refusal :=
  occurs (happensTeamStart n s) s

/-! ### Completion (R174, R403) -/

/-- Whether a launch's teams have all ended. -/
def Launch.over (l : Launch) : Bool := l.stopped || l.ended.length == l.teams

/-- An arrival on a transaction barrier in memory (R174, step 3). -/
def State.tbMemory (s : State) (l : Launch) (va : Nat) (f : Tb → Tb) (rels : List Rel) : State :=
  let pa := l.phys va
  let old := Tb.of (leNat (s.physBytes pa 16))
  (s.writePhys pa (leBytes 16 (f old).toNat) false false).tbCount .mem pa old (f old) rels

/-- Step 2: the launch's slots, tiles, barriers and slices are free, and its leases have ended (R155). -/
def State.dropLaunch (s : State) (n : Nat) : State :=
  let s := s.leased.foldl (fun s i =>
    if (s.island i).holder.map Prod.snd == some n then s.modIsland i Island.endLease else s) s
  { s with
    groups := s.groups.filter fun (x : Nat × Group) => x.2.launch != n
    ctxs := s.ctxs.filter fun (x : Nat × Ctx) => x.2.launch != n
    pushes := s.pushes.filter fun p => p.launch != n }

/-- Whether an extent of the CXL window meets a page that stays pinned (R351). -/
def State.extentPinned (s : State) (base bytes : Nat) : Bool :=
  let hits (k : Kept) : Bool :=
    let o := k.pa - 0x100000000000
    kindOf k.pa == .cxl && decide (base < o + 65536) && decide (o < base + bytes)
  s.launches.any (fun (x : Nat × Launch) => x.2.pages.any fun (p : Nat × Kept) => hits p.2)
  || s.exportPages.any fun (p : Nat × Kept) => hits p.2

/-- Releases of extents that no pin holds back any more are answered (R351). -/
def State.answerExtents (s : State) : State :=
  { s with heldExtents := s.heldExtents.filter fun (x : Nat × Nat) => s.extentPinned x.1 x.2 }

/-- Whether a peer write of a launch has not been answered. -/
def State.peerOpen (s : State) (n : Nat) : Bool :=
  s.fabReqs.any fun (x : Nat × FabReq) => x.2.group / 163840 == n && x.2.writes && !x.2.timedOut

/-- What completes a launch (R174): its groups go, its writes to Host memory are complete, its completion barrier is
arrived at, its STATUS is written, its pages are pinned no more. -/
def State.complete (s : State) (n : Nat) (l : Launch) : State :=
  let s := s.dropGroups (s.groupKeys fun g => g.launch == n)
  let made := match s.launch? n with | some l => l.made | none => []
  let s := (s.dropLaunch n).completeHost made
  let rels : List Rel := [⟨.part, Obs.all, made⟩]
  let s := if l.r.compl = 0 then s else s.tbMemory l l.r.compl (Tb.arrive 1) rels
  let s := s.putStatus l.queue l.addr (if l.faulted then 4 else 2) rels
  { s with launches := Map.del s.launches n : State }.answerExtents

/-- LAUNCH_COMPLETION (R174, R403): every write of the launch is performed and complete, at the host and at peers,
before the arrival and STATUS, which are releases of them (R122). -/
def happensLaunchCompletion (n : Nat) (s : State) : Option State :=
  match s.launch? n with
  | none => none
  | some l =>
    let busy := s.threads.any fun (x : Nat × Thread) => x.2.launch == n
    event (!s.gate && l.over && !busy && !s.peerOpen n) (s.complete n l)

/-- LAUNCH_COMPLETION, where its condition holds. -/
def execLaunchCompletion (n : Nat) (s : State) : Host.Outcome State Fault Refusal :=
  occurs (happensLaunchCompletion n s) s

/-! ### Pre-emption (R178 to R183) -/

/-- The bytes that a launch's bank on a core holds (R182). Log 9: DEDUCED, unsafe. -/
def State.bankBytes (s : State) (n core : Nat) : Nat :=
  match s.launch? n, s.ctx? n core with
  | some l, some c =>
    s.setBytes l c c.set + c.sliceBytes + coreStateBytes + (if c.handler = 0 then 0 else handlerBytes)
  | _, _ => 0

/-- The spill engine's charge for one image (R154), at the end of this cycle: to the lease of the island, where the
image is its taking launch's. Log 9: DEDUCED, unsafe. -/
def State.chargeImage (s : State) (n core : Nat) : State :=
  let i := islandOf core
  if (s.island i).holder.map Prod.snd == some n then
    s.modIsland i fun x => { x with owed := x.owed + ceilDiv (s.bankBytes n core) 1024 }
  else s

/-- A context is swapped out into the shadow bank (R179). Log 9: DEDUCED, unsafe. -/
def State.switchOut (s : State) (n core : Nat) : State :=
  (s.swapBank core).modCtx n core fun c => { c with res := .shadow, away := 0, guard := 0 }

/-- A context in the shadow bank is spilled to its save area, which frees the bank (R179, R182). Log 9: DEDUCED, unsafe.
-/
def State.spillOut (s : State) (n core : Nat) : State :=
  ((s.chargeImage n core).spill n core).modCtx n core fun c => { c with res := .saved }

/-- A context is loaded from its save area and swapped in (R179), for at least `guard` cycles while its launch's team
`team` has not ended (R183). Log 9: DEDUCED, unsafe. -/
def State.switchIn (s : State) (n core guard team : Nat) : State :=
  match s.launch? n, s.ctx? n core with
  | some l, some c =>
    let scr := (s.sliceRoom (l.r.kind == 1) core c.sliceBytes).getD 0
    let bar := (s.barRoom core l.r.barriers).getD 0
    (((s.chargeImage n core).loadBank n core).swapBank core).modCtx n core fun c =>
      { c with res := .active, away := 0, guard := guard, guardTeam := team, scrBase := scr, barBase := bar }
  | _, _ => s

/-- The cores of this device that are switched together: all of a field launch, one of another (R59, R178). -/
def State.together (s : State) (l : Launch) (core : Nat) : List Nat :=
  if l.r.kind = 1 then (l.cores.filter s.ownEntry).map (·.core) else [core]

/-- Whether the shadow bank of a core is free: no context lies in it whose spill is still to be made, nor a field launch's
set (R58, R179). -/
def State.shadowFree (s : State) (core : Nat) : Bool :=
  s.ctxs.all fun (x : Nat × Ctx) => x.2.core != core || (x.2.res != .shadow && x.2.spilling.isNone)

/-- Whether a context keeps its bank for its launch's lowest team, which has not ended (R183). -/
def State.guarded (s : State) (c : Ctx) : Bool :=
  c.guard != 0 && match s.launch? c.launch with | some l => !l.ended.contains c.guardTeam && !l.over | none => false

/-- Whether a switched-out context fits a core's active bank again. Log 9: DEDUCED, unsafe. -/
def State.fitsBack (s : State) (n core : Nat) : Bool :=
  match s.launch? n, s.ctx? n core with
  | some l, some c =>
    let gs := (s.coreGroups n core).filter fun g => !g.gone
    s.coreReady core
    && (s.sliceRoom (l.r.kind == 1) core c.sliceBytes).isSome
    && (s.barRoom core l.r.barriers).isSome
    && (l.r.kind != 1
      || (s.activeCtxs core).all fun x => match s.launch? x.launch with | some y => y.r.kind != 1 | none => true)
    && (c.handler == 0 || s.handlerRoom core)
    && gs.all (fun g => s.openSlot core [] g.slot)
    && ((s.awaiting c).isNone || s.blockFree l.r c.index core)
    && l.allots.all fun (a : Nat × Nat × Nat) => a.2.1 != core || l.ended.contains a.1
        || (List.range 8).all fun t => !(bit l.r.tiles t) || !s.tileTaken core a.2.2 t
  | _, _ => false

/-- The state as it would stand with every context switched out that a launch of a class may displace (R178). -/
def State.displacing (s : State) (prio : Nat) : State :=
  { s with ctxs := s.ctxs.map fun (x : Nat × Ctx) =>
      (x.1, if x.2.res == .active && !s.guarded x.2
            && (match s.launch? x.2.launch with | some l => decide (prio < l.r.prio) | none => false)
          then { x.2 with res := .saved } else x.2) }

/-- The cores that the placement of a head needs, where displacing lower classes would make room for all of it (R178). -/
def State.headNeeds (s : State) (ck : Checked) (r : Record) : List Nat :=
  let d := s.displacing r.prio
  let cs := if r.clist = 0 then (d.choose r).map fun xs => chosenList s.regs.devno r.clusterSize xs else ck.cores
  match cs with
  | some cs => if d.placeableAll r cs then
      ((List.range cs.length).filter fun b =>
        let e := cs.getD b ⟨0, 0, 0⟩
        e.dev == s.regs.devno && !s.fits r b e.core).map fun b => (cs.getD b ⟨0, 0, 0⟩).core
    else []
  | none => []

/-- The cores that a switched-out context's return needs, likewise. -/
def State.backNeeds (s : State) (n core : Nat) (l : Launch) : List Nat :=
  let d := s.displacing l.r.prio
  let cores := s.together l core
  if cores.all (d.fitsBack n) then cores.filter fun x => !s.fitsBack n x else []

/-- The cores that the next cluster of a launch needs, likewise. -/
def State.clusterNeeds (s : State) (n : Nat) (l : Launch) : List Nat :=
  if (s.nextCluster n l).isNone && ((s.displacing l.r.prio).nextCluster n l).isSome then
    ((l.rectOf (l.started / max 1 l.r.clusterSize)).filter fun e => s.ownEntry e && (s.teamSlots l e.core).isNone).map (·.core)
  else []

/-- Whether a launch of a class higher than `prio` needs room on a core that only the displacement of a lower class
makes: a head (R166), a switched-out context, or a launch whose next cluster finds no room (R178). Log 9: DEDUCED,
unsafe. -/
def State.claimed (s : State) (core prio : Nat) : Bool :=
  (s.queues.any fun (x : Nat × Queue) => match x.2.headRecord with
    | some r =>
      let ck := s.check r
      decide (r.prio < prio) && s.headReady r && ck.reason.isNone && !s.placementExists ck r
        && (s.headNeeds ck r).contains core
    | none => false)
  || (s.ctxs.any fun (x : Nat × Ctx) => x.2.res == .saved && match s.launch? x.2.launch with
    | some l => decide (l.r.prio < prio) && (s.backNeeds x.2.launch x.2.core l).contains core
    | none => false)
  || s.launches.any fun (x : Nat × Launch) => decide (x.2.r.prio < prio) && x.2.r.kind != 1
    && decide (x.2.started < x.2.teams) && !x.2.stopped && (s.clusterNeeds x.1 x.2).contains core

/-- Whether an active context comes before another as a victim (R178): the higher class number, then the later
admission. -/
def victimRank (l : Launch) (n : Nat) : Nat := l.r.prio * 2 ^ 40 + n

/-- The victim on a core among those of a class above the claimant's: the context that no other outranks.
Log 9: DEDUCED, unsafe. -/
def State.victim (s : State) (n core : Nat) (l : Launch) : Bool :=
  (s.activeCtxs core).all fun c => c.launch == n || s.guarded c
    || (match s.launch? c.launch with | some y => decide (victimRank y c.launch < victimRank l n) | none => true)

/-- Whether the results of a context's groups have landed, those that can (R180): a window that is open goes on after
restore (R200), and what a region holds comes after its commit (R296). Log 9: DEDUCED, unsafe. -/
def State.resultsLanded (s : State) (n core : Nat) : Bool :=
  s.groups.all fun (x : Nat × Group) => x.2.launch != n || x.2.core != core
    || x.2.splits.all fun sp => sp.pend.all fun p => p.left != 0 || s.heldPend p

/-- PREEMPTION (R178 to R182), one stage of it: a context goes out to make room for a launch of a higher class, once the
shadow bank is free; one that has gone out is spilled, while the other issues; one that was spilled is loaded and comes
back where it fits. Log 9: DEDUCED, unsafe. -/
def happensPreemption (n core : Nat) (s : State) : Option State :=
  match s.launch? n, s.ctx? n core with
  | some l, some c =>
    let cores := s.together l core
    match c.res with
    | .active => event (!s.gate && !s.guarded c && s.victim n core l && s.claimed core l.r.prio && cores.all s.shadowFree)
        (cores.foldl (fun s x => s.switchOut n x) s)
    | .shadow => event (!s.gate && s.resultsLanded n core) (s.spillOut n core)
    | .saved => event (!s.gate && cores.all (s.fitsBack n) && cores.all s.shadowFree)
        (cores.foldl (fun s x => s.switchIn n x 0 0) s)
  | _, _ => none

/-- PREEMPTION, where its condition holds. -/
def execPreemption (n core : Nat) (s : State) : Host.Outcome State Fault Refusal :=
  occurs (happensPreemption n core s) s

/-- Whether a launch's lowest unfinished team has groups on a core, or is to start there (R32, R40, R170). -/
def State.holdsLowest (s : State) (n core : Nat) (l : Launch) : Bool :=
  (s.coreGroups n core).any (fun g => g.team == l.lowest && !g.gone)
  || (l.lowest == l.started && decide (l.started < l.teams)
    && (if l.r.kind = 1 then l.cores else l.rectOf (l.started / max 1 l.r.clusterSize)).any fun e =>
      s.ownEntry e && e.core == core)

/-- Contexts leave a core, the first victim of R178 first, until a switched-out one fits. -/
def State.makeRoom (s : State) (n core : Nat) : Nat → State
  | 0 => s
  | fuel + 1 =>
    if s.fitsBack n core then s
    else
      match (s.activeCtxs core).find? fun c => !s.guarded c && (match s.launch? c.launch with
          | some l => s.victim c.launch core l
          | none => false) with
      | none => s
      | some c =>
        match s.launch? c.launch with
        | none => s
        | some l => ((s.together l core).foldl (fun s x => s.switchOut c.launch x) s).makeRoom n core fuel

/-- LOWEST_TEAM_SWAP_BACK (R183): the switched-out context that holds the lowest unfinished team comes back, and keeps
the bank for 10,000 cycles. Log 9: DEDUCED, unsafe. -/
def happensLowestTeamSwapBack (n core : Nat) (s : State) : Option State :=
  match s.launch? n, s.ctx? n core with
  | some l, some c =>
    let cores := s.together l core
    let s' := cores.foldl (fun s x => s.makeRoom n x 64) s
    event (!s.gate && c.res == .saved && s.holdsLowest n core l && cores.all s.shadowFree && cores.all (s'.fitsBack n))
      (cores.foldl (fun s x => s.switchIn n x 10000 l.lowest) s')
  | _, _ => none

/-- LOWEST_TEAM_SWAP_BACK, where its condition holds. -/
def execLowestTeamSwapBack (n core : Nat) (s : State) : Host.Outcome State Fault Refusal :=
  occurs (happensLowestTeamSwapBack n core s) s

end Sys2Proof.Machine
end

