-- ==== Sys2Proof/Machine/Failures.lean ====
section
/-!
DEFINITION. Failures and maintenance of the package (R342, R349, R351 to R353, R436 to R443, R447 to R449): links, dies,
ports and planes, device reset and ready bits, and the checkpoint.
-/

namespace Sys2Proof.Machine

open Sys2Proof

/-! ### Ready bits (R352) -/

/-- Set or clear a bit of a number. -/
def setBit (x i : Nat) (on : Bool) : Nat := if bit x i = on then x else if on then x + 2 ^ i else x - 2 ^ i

/-- RDYA to RDYD are registers 0 to 3. -/
def State.setReady (s : State) (reg i : Nat) (on : Bool) : State :=
  { s with regs := { s.regs with rdy := modifyAt s.regs.rdy reg fun x => setBit x i on } }

def State.readyBit (s : State) (reg i : Nat) : Bool := bit (s.regs.rdy.getD reg 0) i

/-- The ready bits of a die: its two stacks, its weight die, its islands. -/
def dieBits (d : Nat) : List (Nat × Nat) :=
  [(0, 2 * d), (0, 2 * d + 1), (0, 24 + d)]
    ++ (List.range 10).map fun i => let n := 10 * d + i; if n < 32 then (2, n) else (3, n - 32)

/-- Whether a ready bit can rise: its function stands (R349, R436, R439). -/
def State.mayRise (s : State) (reg i : Nat) : Bool :=
  s.regs.devid == 0x5E1F0160 && decide (reg < 4) && decide (i < if reg = 3 then 8 else 32)
  && (List.range 4).all (fun d => !(s.die d).fenced || !(dieBits d).contains (reg, i))
  && (reg != 0 || i < 24 || 28 ≤ i || !weightLost s (i - 24))
  && (reg != 1 || !bit s.regs.fabRefused i)

/-- READY_BIT_RISE (R342, R352): vector 64; a CXL port that comes back is no longer down. -/
def happensReadyBitRise (reg i : Nat) (s : State) : Option State :=
  let s' := if reg = 0 ∧ 28 ≤ i then { s with cxlDown := s.cxlDown.filter (· ≠ i - 28) } else s
  event (s.mayRise reg i && !s.readyBit reg i) ((s'.setReady reg i true).vector 64)

/-- READY_BIT_RISE, where its condition holds. -/
def execReadyBitRise (reg i : Nat) (s : State) : Host.Outcome State Fault Refusal :=
  occurs (happensReadyBitRise reg i s) s

/-! ### A die that is lost (R439, R440) -/

/-- A take starts: GO is written with RESTORE 0, or firmware starts it on its own, and RESTORE stays (R447).
Log 24: DEDUCED, unsafe. -/
def State.startTake (s : State) (restore : Bool) : State :=
  if s.taking then s
  else { s with regs := { s.regs with ckctl := 2 ^ 31 + b2n restore * 2 ^ 30 + bits s.regs.ckctl 11 8 * 256 + 1 } }

/-- CKCTL.RESTORE (R447). -/
def State.restoreBit (s : State) : Bool := bit s.regs.ckctl 30

/-- The last push of a sender that has arrived at a context (R440). -/
def Ctx.lastPush (c : Ctx) (src : Nat) : Option Nat :=
  (c.arrived.filter fun (a : Nat × Nat × Bool) => a.1 == src && !a.2.2).foldl (fun m (a : Nat × Nat × Bool) =>
    some (match m with | none => a.2.1 | some x => max x a.2.1)) none

/-- The cells of a lost group count as exited at a surviving context (R48, R440): what arrived last is their published
value for good, and nothing more is waited for. Log 22: DEDUCED, unsafe. -/
def Ctx.cellsLost (c : Ctx) (b : Nat) (g : Group) : Ctx :=
  let src := srcKey b g.set g.slot
  if (c.final? src).isSome then c
  else { c with arrived := c.arrived ++ [(src, match c.lastPush src with | some k => k + 1 | none => 0, true)] }

/-- What a die's loss does to a field launch's surviving contexts. Log 22: DEDUCED, unsafe. -/
def State.fieldLost (s : State) (d n : Nat) (l : Launch) : State :=
  let lost := (s.groups.filter fun (x : Nat × Group) =>
    x.2.launch == n && dieOf x.2.core == d && !x.2.handler).map Prod.snd
  let entry (core : Nat) : Nat := match s.ctx? n core with | some c => c.index | none => 0
  let drops (p : Push) : Bool := p.launch == n && dieOf ((l.cores.getD (srcEntry p.src) ⟨0, 0, 0⟩).core) == d
  let s := (s.pushes.filter drops).foldl (fun s p =>
    s.modCtx n (l.cores.getD p.dst ⟨0, 0, 0⟩).core fun c => c.pend (c.haloLines l.r p.vals) (· - 1)) s
  { s with
    ctxs := s.ctxs.map fun (x : Nat × Ctx) =>
      (x.1, if x.2.launch = n then lost.foldl (fun c g => c.cellsLost (entry g.core) g) x.2 else x.2)
    pushes := s.pushes.filter fun p => !drops p }

/-- Splits parked on a barrier of a scope above core go on with E = 1 (R440). Log 22: DEDUCED, unsafe. -/
def State.degrade (s : State) (n : Nat) : State :=
  let wide (sp : Split) : Bool := match sp.wait with | .bar _ _ true _ false _ => true | _ => false
  let hit := s.groups.flatMap fun (x : Nat × Group) =>
    if x.2.launch = n then ((x.2.liveSplits.filter fun j => wide (x.2.split j)).map fun j => (x.1, j)) else []
  let s := hit.foldl (fun s (h : Nat × Nat) =>
    (s.modSplit h.1 h.2 fun sp => { sp with cc := { sp.cc with e := true } }).resume h.1 h.2) s
  s.modLaunch n fun l => { l with degraded := true }

/-- Failed assertions that a lost context was to answer. -/
def Ctx.assertCount (c : Ctx) : Nat := ((c.trapq ++ c.serving.toList).filter fun t => t.cause == 0x20).length

/-- One launch meets the loss of a die that holds a core of it: its teams there end, its contexts there are gone.
Log 22: DEDUCED, unsafe. -/
def State.launchLost (s : State) (d n : Nat) (l : Launch) : State :=
  let teams := ((s.groups.filter fun (x : Nat × Group) =>
    x.2.launch == n && dieOf x.2.core == d && !x.2.handler && !x.2.gone).map fun x => x.2.team).eraseDups
  let gone (launch core : Nat) : Bool := launch == n && dieOf core == d
  let asserts := ((s.ctxs.filter fun (x : Nat × Ctx) => gone x.2.launch x.2.core).map fun x => x.2.assertCount).sum
  let s := if l.r.kind = 1 then s.fieldLost d n l else s
  let s := { s with
    groups := s.groups.filter fun (x : Nat × Group) => !gone x.2.launch x.2.core
    ctxs := s.ctxs.filter fun (x : Nat × Ctx) => !gone x.2.launch x.2.core }
  let s := s.modLaunch n fun l =>
    { l with faulted := true, asserts := l.asserts - asserts, ended := teams.foldl Nats.ins l.ended }
  s.degrade n

/-- An open region with a version line homed on the die unwinds with cause 1 (R440). -/
def Group.versionLost (d : Nat) (g : Group) : Group :=
  { g with region := g.region.map fun r => if r.lines.any fun x => homeDie (128 * x) == d then r.fail 1 else r }

/-- Whether a thread stops with its die: a parcel's transit goes on (R440). -/
def Thread.stopsOn (th : Thread) (d : Nat) : Bool :=
  dieOf th.core == d && (match th.cmd with | .post .. => false | _ => true)

/-- A die is fenced (R439, R440). Log 1: DESIGN CHOICE, unsafe. Log 22: DEDUCED, unsafe. -/
def State.fenceDie (s : State) (d : Nat) : State :=
  let s := (dieBits d).foldl (fun s (b : Nat × Nat) => s.setReady b.1 b.2 false) s
  let own (l : Launch) : Bool := l.cores.any fun e => e.dev == s.regs.devno && dieOf e.core == d
  let hit (n : Nat) : Bool := match s.launch? n with | some l => own l | none => false
  let s := s.launches.foldl (fun s (x : Nat × Launch) => if own x.2 then s.launchLost d x.1 x.2 else s) s
  let s := (List.range 10).foldl (fun s i => s.modIsland (10 * d + i) Island.endLease) s
  let s := { s with
    mem := s.mem.filter fun (c : Host.Cell) => !(kindOf c.1 == LocKind.hbm && homeDie c.1 == d)
    tags := s.tags.filter fun w => homeDie (4 * w) != d
    units := s.units.filter fun (x : Nat × MatUnit) => dieOf (x.1 / 4) != d
    threads := s.threads.filter fun (x : Nat × Thread) => !x.2.stopsOn d
    hostWrites := s.hostWrites.filter fun w => homeDie w.addr != d
    groups := s.groups.map fun (x : Nat × Group) => (x.1, if hit x.2.launch then x.2.versionLost d else x.2) }
  ((s.modDie d fun x => { x with fenced := true }).startTake s.restoreBit).vector 66

/-! ### In-package links (R436 to R438) -/

/-- Whether the link between two dies works. -/
def State.linked (s : State) (a b : Nat) : Bool :=
  !s.failedLinks.contains (.die a b) && !s.failedLinks.contains (.die b a) && !(s.die a).fenced && !(s.die b).fenced

/-- The dies that a die still has a path to. -/
def State.reach (s : State) (a : Nat) : List Nat :=
  (List.range 4).foldl (fun l _ => (List.range 4).filter fun b => l.contains b || l.any fun x => s.linked x b) [a]

/-- The dies that R438 fences: the higher-numbered of every pair without a path. Log 22: DEDUCED, unsafe. -/
def State.cutOff (s : State) : List Nat :=
  (List.range 4).filter fun b => !(s.die b).fenced
    && (List.range b).any fun a => !(s.die a).fenced && !(s.reach a).contains b

/-- Dies that no path reaches any more are fenced, as often as a fence cuts off others (R438). -/
def State.fenceCut : Nat → State → State
  | 0, s => s
  | n + 1, s => State.fenceCut n (s.cutOff.foldl State.fenceDie s)

/-- DIE_FENCE (R438, R439): the die reports a fatal error; a die that this cuts off follows. -/
def happensDieFence (d : Nat) (s : State) : Option State :=
  event (decide (d < 4) && !(s.die d).fenced) (State.fenceCut 3 (s.fenceDie d))

/-- DIE_FENCE, where its condition holds. -/
def execDieFence (d : Nat) (s : State) : Host.Outcome State Fault Refusal :=
  occurs (happensDieFence d s) s

/-- LINK_FAILURE (R436 to R438). -/
def happensLinkFailure (l : Link) (s : State) : Option State :=
  let known := match l with
    | .die a b => decide (a < b) && decide (b < 4)
    | .ucie d | .io d => decide (d < 4)
  let s := { s with failedLinks := if s.failedLinks.contains l then s.failedLinks else s.failedLinks ++ [l] }.vector 66
  let s' := match l with
    | .ucie d => s.setReady 0 (24 + d) false
    | .die _ _ => State.fenceCut 3 s
    | .io _ => s
  event known s'

/-- LINK_FAILURE, where its condition holds. -/
def execLinkFailure (l : Link) (s : State) : Host.Outcome State Fault Refusal :=
  occurs (happensLinkFailure l s) s

/-! ### CXL ports and planes (R349, R351, R443) -/

/-- Host writes on their way through a failed port are dropped, and their lines stay poisoned (R443). -/
def State.dropPort (s : State) : State :=
  let lost := s.hostWrites.filter fun w => s.behindDown w.addr
  { s with
    hostWrites := s.hostWrites.filter fun w => !s.behindDown w.addr
    bad := lost.foldl (fun bad w => poisonAfter bad (w.addr / 128 * 128) 128 true) s.bad }

/-- CXL_PORT_FAILURE (R443). -/
def happensCxlPortFailure (p : Nat) (s : State) : Option State :=
  let s' := ({ s with cxlDown := Nats.ins s.cxlDown p }.setReady 0 (28 + p) false).dropPort
  event (decide (p < 4) && !s.cxlDown.contains p) (s'.vector 66)

/-- CXL_PORT_FAILURE, where its condition holds. -/
def execCxlPortFailure (p : Nat) (s : State) : Host.Outcome State Fault Refusal :=
  occurs (happensCxlPortFailure p s) s

/-- DYNAMIC_CAPACITY_RELEASE (R351): held while a pinned page maps the extent; else it is answered at once. -/
def happensDynamicCapacityRelease (base bytes : Nat) (s : State) : Option State :=
  event (decide (0 < bytes))
    (if s.extentPinned base bytes then { s with heldExtents := s.heldExtents ++ [(base, bytes)] } else s)

/-- DYNAMIC_CAPACITY_RELEASE, where its condition holds. -/
def execDynamicCapacityRelease (base bytes : Nat) (s : State) : Host.Outcome State Fault Refusal :=
  occurs (happensDynamicCapacityRelease base bytes s) s

/-- DUPLICATE_DEVICE_NUMBER (R349): some planes' switches refuse the number, beside those that have. Log 29: DESIGN
CHOICE, safe. -/
def happensDuplicateDeviceNumber (planes : Nat) (s : State) : Option State :=
  let s1 := (List.range 32).foldl (fun s p => if bit planes p then s.setReady 1 p false else s) s
  event (s.regs.fabEn && planes % 2 ^ 32 != 0)
    ({ s1 with regs := { s1.regs with fabDup := true, fabRefused := Nat.lor s.regs.fabRefused (planes % 2 ^ 32) } }.vector 66)

/-- DUPLICATE_DEVICE_NUMBER, where its condition holds. -/
def execDuplicateDeviceNumber (planes : Nat) (s : State) : Host.Outcome State Fault Refusal :=
  occurs (happensDuplicateDeviceNumber planes s) s

/-- HOST_LINK_TRAINING (R342). -/
def happensHostLinkTraining (m : LinkMode) (s : State) : Option State :=
  event true { s with regs := { s.regs with link := some m } }

/-- HOST_LINK_TRAINING, where its condition holds. -/
def execHostLinkTraining (m : LinkMode) (s : State) : Host.Outcome State Fault Refusal :=
  occurs (happensHostLinkTraining m s) s

/-! ### Device reset (R21, R343, R352, R353) -/

/-- DEVICE_RESET (R352, R353): every register takes its reset value, and the boot ROM checks the bundle. Memories keep
their contents (log 1), the Chinook store its heat, and the safe region and CKCOUNT outlast it (R448). The bundle runs
where both signatures over it and the hashes of the keys hold and its version is not below the fused one (R353). The
model's own counters go on.
Log 1: DESIGN CHOICE, unsafe. Log 18: DESIGN CHOICE, unsafe. Log 24: DEDUCED, unsafe. Log 28: DEDUCED, unsafe. -/
def happensDeviceReset (verified : BundleCheck) (version : Nat) (s : State) : Option State :=
  let runs := verified.holds && decide (Config.rollback ≤ version)
  let keep (d : Die) : Die := { weights := d.weights, badUnits := d.badUnits }
  event true
    { State.reset with
      dies := (s.dies.map fun (x : Nat × Die) => (x.1, keep x.2)).filter fun (x : Nat × Die) => x.2 ≠ {}
      mem := s.mem, tags := s.tags, bad := s.bad
      regs := { State.reset.regs with
        devid := if runs then 0x5E1F0160 else 0x5E1F0000
        fwver := if runs then version % 2 ^ 64 else 0
        ckcount := s.regs.ckcount }
      msix := s.msix, fabricOut := s.fabricOut, saved := s.saved
      melt := s.melt, refreeze := s.refreeze
      nextLaunch := s.nextLaunch, nextId := s.nextId, nextWrite := s.nextWrite, free := s.free }

/-- DEVICE_RESET, where its condition holds. -/
def execDeviceReset (verified : BundleCheck) (version : Nat) (s : State) : Host.Outcome State Fault Refusal :=
  occurs (happensDeviceReset verified version s) s

/-! ### Checkpoints (R447 to R449) -/

/-- POWER_LOSS_WARNING (R447). -/
def happensPowerLossWarning (s : State) : Option State := event true (s.startTake s.restoreBit)

/-- POWER_LOSS_WARNING, where its condition holds. -/
def execPowerLossWarning (s : State) : Host.Outcome State Fault Refusal :=
  occurs (happensPowerLossWarning s) s

/-- Whether everything under way has come to rest, so that a take can go on (R448, step 2): results have landed, but for
one whose window is open, which no word closes now, and whose value is there; atomics are performed; engine threads and
transits are complete, but for commands that a region holds. Log 24: DEDUCED, unsafe. -/
def State.drained (s : State) : Bool :=
  s.groups.all (fun (x : Nat × Group) => x.2.splits.all fun sp => sp.pend.all fun p =>
    s.heldPend p || (p.left != 0 && p.waits.isEmpty))
  && s.atoms.isEmpty
  && s.threads.all (fun (x : Nat × Thread) => x.2.held)
  && s.fabReqs.all (fun (x : Nat × FabReq) => x.2.timedOut)
  && s.pushes.isEmpty && s.landings.isEmpty && s.units.all fun (x : Nat × MatUnit) => x.2.busy.isNone

/-- The virtual dies that stand, as DIES. -/
def State.diesUp (s : State) : Nat :=
  ((List.range 4).map fun d => if (s.die d).fenced then 0 else 2 ^ d).sum

/-- Steps 3 to 5 of R448: writes are performed, resident contexts are spilled, and the region takes HBM, the registers
and the contexts.
Log 24: DEDUCED, unsafe. -/
def State.take (s : State) : State :=
  let s := s.drainIf fun _ => true
  let s := (s.ctxs.filter fun (x : Nat × Ctx) => x.2.res != .saved).foldl (fun s (x : Nat × Ctx) =>
    s.spill x.2.launch x.2.core) s
  let s := { s with hostWrites := [] }
  let inHbm (pa : Nat) : Bool := kindOf pa == LocKind.hbm && !(s.die (homeDie pa)).fenced
  let saved : Saved :=
    { mem := s.mem.filter fun (c : Host.Cell) => inHbm c.1
      tags := s.tags, bad := s.bad.filter fun g => inHbm (32 * g)
      groups := s.groups, ctxs := s.ctxs, launches := s.launches, threads := s.threads, queues := s.queues
      arenas := s.arenas, exports := s.exports, exportPages := s.exportPages, imports := s.imports, slots := s.slots
      inboxes := s.inboxes, islands := s.islands, units := s.units, tbase := s.regs.tbase, dies := s.diesUp }
  { s with
    saved := some saved
    regs := { s.regs with ckctl := b2n s.restoreBit * 2 ^ 30 + 256 * s.diesUp, ckcount := (s.regs.ckcount + 1) % 2 ^ 64 } }

/-- CHECKPOINT_TAKE (R447, R448): GO is written, or a take under way goes on to its end once all has come to rest.
Log 24: DEDUCED, unsafe. -/
def happensCheckpointTake (s : State) : Option State :=
  let s' := s.startTake false
  event true (if s'.drained && !s'.gate then s'.take else s')

/-- CHECKPOINT_TAKE, where its condition holds. -/
def execCheckpointTake (s : State) : Host.Outcome State Fault Refusal :=
  occurs (happensCheckpointTake s) s

/-- Cells of the region put back over what memory holds. Log 24: DEDUCED, unsafe. -/
def State.restored (s : State) (x : Saved) : State :=
  let back (pa : Nat) : Bool := kindOf pa == LocKind.hbm && bit x.dies (homeDie pa)
  let away (c : Ctx) : Ctx := { c with res := .saved, away := 0, guard := 0 }
  { s with
    mem := x.mem.foldl (fun m (c : Host.Cell) => Memory.write m c.1 c.2) (s.mem.filter fun (c : Host.Cell) => !back c.1)
    tags := x.tags.foldl Nats.ins (s.tags.filter fun w => !back (4 * w))
    bad := x.bad.foldl Nats.ins (s.bad.filter fun g => !back (32 * g))
    groups := x.groups
    ctxs := x.ctxs.map fun (p : Nat × Ctx) => (p.1, away p.2)
    launches := x.launches, threads := x.threads, queues := x.queues, arenas := x.arenas, exports := x.exports
    exportPages := x.exportPages, imports := x.imports, slots := x.slots, inboxes := x.inboxes, islands := x.islands
    units := x.units.foldl (fun m (p : Nat × MatUnit) =>
      let now := Map.get m {} p.1
      Map.put m {} p.1 { p.2 with fenced := now.fenced, failed := now.failed }) s.units
    fresh := false, hist := []
    regs := { s.regs with tbase := x.tbase, ckctl := 2 ^ 30 + 256 * x.dies } }

/-- CHECKPOINT_RESTORE (R449): legal after a device reset only; it refuses where a soft error is found in the region;
every context comes back switched out, and is readmitted where it fits. Log 24: DEDUCED, unsafe. -/
def happensCheckpointRestore (s : State) : Option State :=
  let stat (n : Nat) : State := { s with regs := { s.regs with ckctl := 2 ^ 30 + bits s.regs.ckctl 11 8 * 256 + n } }
  event (!s.gate && s.fresh && !s.taking)
    (match s.saved with
     | none => stat 2
     | some x =>
       if (List.range 4).any fun d => bit x.dies d && (s.die d).fenced then stat 3
       else if x.softError then stat 4 else s.restored x)

/-- CHECKPOINT_RESTORE, where its condition holds. -/
def execCheckpointRestore (s : State) : Host.Outcome State Fault Refusal :=
  occurs (happensCheckpointRestore s) s

end Sys2Proof.Machine
end

