-- ==== Sys2Proof/Machine/HostEvents.lean ====
section
/-!
DEFINITION. Writes and commands of the host (R142, R342 to R350, R354): the registers of BAR0, the table commands, the
queues and the aperture of BAR2.
-/

namespace Sys2Proof.Machine

open Sys2Proof

def State.modRegs (s : State) (f : Regs → Regs) : State := { s with regs := f s.regs }

/-! ### Queues (R344) -/

/-- A refused write of a queue block: it is ignored and sets ERR. -/
def State.queueErr (s : State) (q : Nat) : State := s.modQueue q fun x => { x with err := true }

/-- QTAIL_WRITE: a release by the host; the scheduler then reads the record at the head (R157).
Log 28: DEDUCED, unsafe. -/
def happensQtailWrite (q val : Nat) (s : State) : Option State :=
  let x := s.queueOf q
  let v := val % 2 ^ 32
  event (decide (q < 64))
    (if 2 ^ x.log < (v + 2 ^ 32 - x.head) % 2 ^ 32 then s.queueErr q
     else (s.modQueue q fun x =>
       { x with tail := v, told := (s.hist.filter fun w => w.maker == .host).map (·.id) }).copyHead q)

/-- QTAIL_WRITE, where its condition holds. -/
def execQtailWrite (q val : Nat) (s : State) : Host.Outcome State Fault Refusal :=
  occurs (happensQtailWrite q val s) s

/-- QBASE_WRITE. Log 28: DEDUCED, unsafe. -/
def happensQbaseWrite (q val : Nat) (s : State) : Option State :=
  let x := s.queueOf q
  event (decide (q < 64))
    (if val % 256 != 0 || x.en || x.tail != x.head then s.queueErr q
     else s.modQueue q fun x => { x with base := val % 2 ^ 64 })

/-- QBASE_WRITE, where its condition holds. -/
def execQbaseWrite (q val : Nat) (s : State) : Host.Outcome State Fault Refusal :=
  occurs (happensQbaseWrite q val s) s

/-- QCTL_WRITE: a write that turns EN on sets QHEAD to QTAIL. Log 28: DEDUCED, unsafe. -/
def happensQctlWrite (q val : Nat) (s : State) : Option State :=
  let x := s.queueOf q
  let en := bit val 31
  let log := bits val 4 0
  let busy := x.en || x.tail != x.head
  event (decide (q < 64))
    (if (log != x.log && busy) || (en && (log < 4 || 16 < log)) then s.queueErr q
     else (s.modQueue q fun x =>
       { x with en := en, irq := bit val 30, err := x.err && !bit val 29, log := log,
                head := if en && !x.en then x.tail else x.head }).copyHead q)

/-- QCTL_WRITE, where its condition holds. -/
def execQctlWrite (q val : Nat) (s : State) : Host.Outcome State Fault Refusal :=
  occurs (happensQctlWrite q val s) s

/-! ### Table commands (R131 to R133, R346 to R348) -/

/-- A command ends: GO reads 0, and TSTAT holds its result. -/
def State.tableDone (s : State) (tcmd stat : Nat) : State :=
  s.modRegs fun r => { r with tcmd := bits tcmd 27 16 * 65536 + bits tcmd 1 0, tstat := stat }

/-- Whether a TCMD value runs a command on table t. -/
def tableGo (tcmd t : Nat) : Bool := bit tcmd 31 && bits tcmd 1 0 == t

/-- A write of TCMD that runs a command on table t, performed, or the end of one that is under way (R346): while GO is 1
any other write is ignored, and TSTAT reads 6. One that walks pages behind a CXL port that is not ready waits (R352). -/
def State.tableCommand (s : State) (t tcmd : Nat) (pages : List Nat) (run : Nat × State) : Option State :=
  if !tableGo tcmd t then none
  else if bit s.regs.tcmd 31 && s.regs.tcmd != tcmd then some (s.modRegs fun r => { r with tstat := 6 })
  else if pages.any fun p => !(s.walkPorts p).isEmpty then
    if bit s.regs.tcmd 31 then none
    else some (s.modRegs fun r => { r with tcmd := 2 ^ 31 + bits tcmd 27 16 * 65536 + bits tcmd 1 0 })
  else some (run.2.tableDone tcmd run.1)

/-- Pages of a range by number. -/
def pageNumbers (va n : Nat) : List Nat := (pagesOf va n).map pageOf

/-- The translation that holds for a page now. -/
def State.pageNow (s : State) (page : Nat) : Option Kept := (s.keptPage page).or (s.walkPage page)

/-- Pages of an arena's slots and of its slot-state array. -/
def ArenaEntry.pages (e : ArenaEntry) : List Nat :=
  pageNumbers e.base (e.slots * e.slotBytes) ++ pageNumbers e.sstate (8 * e.slots)

/-- Whether an admitted launch pins a page of an arena's range. -/
def State.arenaUsed (s : State) (e : ArenaEntry) : Bool :=
  e.valid && s.launches.any fun (x : Nat × Launch) => e.pages.any fun p => (Map.find? x.2.pages p).isSome

/-- The result of an arena command (R346): the first that applies. Log 28: DEDUCED, unsafe. -/
def State.arenaStat (s : State) (tcmd : Nat) (e : ArenaEntry) : Nat :=
  let i := bits tcmd 27 16
  let hbm (p : Nat) : Bool := match s.pageNow p with | some k => kindOf k.pa == .hbm | none => false
  if e.reserved != 0 || e.slog < 16 || 26 < e.slog then 1
  else if 128 ≤ i then 2
  else if e.valid && (e.slots == 0 || (e.inbox && 4096 < e.slots) || e.base % e.slotBytes != 0 || !e.pages.all hbm) then 3
  else if e.valid && e.inbox && s.validArenas.any fun (p : Nat × ArenaEntry) =>
      p.1 != i && p.2.inbox && p.2.inum == e.inum then 4
  else if s.arenaUsed e || s.arenaUsed (s.arena i) then 5
  else 0

/-- A new arena entry: its slots are at their reset values, and an inbox holds no handle. What becomes of a parcel that
is landing there is not stated: a peer's landing is dropped, with neither acknowledgement nor return, and one of the own
device neither lands nor comes back, for its transit keeps a slot that is no longer landing.
Log 28: DESIGN CHOICE, unsafe. -/
def State.putArena (s : State) (i : Nat) (w : BitVec 128) : State :=
  let e := ArenaEntry.of w
  let s := { s with arenas := Map.put s.arenas 0 i w }
  if e.valid then
    { s with
      slots := s.slots.filter fun (x : Nat × Slot) => x.1 / 2 ^ 32 != i
      landings := s.landings.filter fun (x : Nat × Nat × Nat × Nat) => x.2.2.1 != i
      inboxes := if e.inbox then Map.put s.inboxes [] e.inum [] else s.inboxes }
  else s

/-- ARENA_COMMAND (R346). The entry is the one that TENT holds when the command ends; whether a write of TENT while it
runs counts is not stated. Log 28: DESIGN CHOICE, unsafe. -/
def happensArenaCommand (tcmd : Nat) (s : State) : Option State :=
  let w := BitVec.ofNat 128 s.regs.tent
  let st := s.arenaStat tcmd (ArenaEntry.of w)
  let e := ArenaEntry.of w
  s.tableCommand 0 tcmd (if e.valid then e.pages else []) (st, if st = 0 then s.putArena (bits tcmd 27 16) w else s)

/-- ARENA_COMMAND, where its condition holds. -/
def execArenaCommand (tcmd : Nat) (s : State) : Host.Outcome State Fault Refusal :=
  occurs (happensArenaCommand tcmd s) s

/-- Pages of an export (R347). -/
def ExportEntry.pages (e : ExportEntry) : List Nat := if e.v && e.kind == 0 then pageNumbers e.base e.bytes else []

/-- The translations that the valid exports keep. -/
def State.exportPins (s : State) (exports : Map (BitVec 128)) : Map Kept :=
  exports.foldl (fun m (x : Nat × BitVec 128) => (ExportEntry.of x.2).pages.foldl (fun m p =>
    match s.pageNow p with
    | some k => Map.ins m p k
    | none => m) m) []

/-- The result of an export command. Log 28: DEDUCED, unsafe. -/
def State.exportStat (s : State) (tcmd w : Nat) : Nat :=
  let e := ExportEntry.of (BitVec.ofNat 128 w)
  if bits w 86 84 != 0 || bits w 33 5 != 0 || bit w 1 || bit w 3
      || (e.kind == 1 && (bits w 127 87 != 0 || bits w 83 64 != 0)) then 1
  else if 1024 ≤ bits tcmd 27 16 then 2
  else if e.pages.any fun p => match s.pageNow p with | some k => !mapped k.pa | none => true then 3
  else 0

/-- EXPORT_COMMAND (R346, R347): every access accepted through the old entry has been performed.
The entry is the one that TENT holds when the command ends. Log 28: DESIGN CHOICE, unsafe. -/
def happensExportCommand (tcmd : Nat) (s : State) : Option State :=
  let st := s.exportStat tcmd s.regs.tent
  let exports := Map.put s.exports 0 (bits tcmd 27 16) (BitVec.ofNat 128 s.regs.tent)
  let s' := { s with exports := exports, exportPages := s.exportPins exports }.answerExtents
  s.tableCommand 1 tcmd (ExportEntry.of (BitVec.ofNat 128 s.regs.tent)).pages (st, if st = 0 then s' else s)

/-- EXPORT_COMMAND, where its condition holds. -/
def execExportCommand (tcmd : Nat) (s : State) : Host.Outcome State Fault Refusal :=
  occurs (happensExportCommand tcmd s) s

/-- Whether a page that stays pinned maps import slot i. -/
def State.importUsed (s : State) (i : Nat) : Bool :=
  let hits (k : Kept) : Bool := kindOf k.pa == .peer && (k.pa - 0x1000000000000) / 2 ^ 36 == i
  s.launches.any fun (x : Nat × Launch) => x.2.pages.any fun (p : Nat × Kept) => hits p.2

/-- The result of an import command. Log 28: DEDUCED, unsafe. -/
def State.importStat (s : State) (tcmd w : Nat) : Nat :=
  if bits w 127 64 != 0 || bits w 42 0 != 0 then 1
  else if s.importUsed (bits tcmd 27 16) then 5
  else 0

/-- IMPORT_COMMAND (R346, R348). The entry is the one that TENT holds when the command ends.
Log 28: DESIGN CHOICE, unsafe. -/
def happensImportCommand (tcmd : Nat) (s : State) : Option State :=
  let st := s.importStat tcmd s.regs.tent
  let s' := { s with imports := Map.put s.imports 0 (bits tcmd 27 16) (BitVec.ofNat 64 s.regs.tent) }
  s.tableCommand 2 tcmd [] (st, if st = 0 then s' else s)

/-- IMPORT_COMMAND, where its condition holds. -/
def execImportCommand (tcmd : Nat) (s : State) : Host.Outcome State Fault Refusal :=
  occurs (happensImportCommand tcmd s) s

/-! ### Single registers -/

/-- TBASE_WRITE (R345). -/
def happensTbaseWrite (val : Nat) (s : State) : Option State :=
  event true (s.modRegs fun r => { r with tbase := bits val 51 11 * 2048 })

/-- TBASE_WRITE, where its condition holds. -/
def execTbaseWrite (val : Nat) (s : State) : Host.Outcome State Fault Refusal :=
  occurs (happensTbaseWrite val s) s

/-- FABID_WRITE (R349): the number cannot be changed while bit 31 is 1; writing bit 31 as 0 clears DUP. -/
def happensFabidWrite (val : Nat) (s : State) : Option State :=
  event true (s.modRegs fun r =>
    let en := bit val 31
    { r with devno := if r.fabEn then r.devno else bits val 8 0, fabEn := en, fabDup := r.fabDup && en,
             fabRefused := if en then r.fabRefused else 0 })

/-- FABID_WRITE, where its condition holds. -/
def execFabidWrite (val : Nat) (s : State) : Host.Outcome State Fault Refusal :=
  occurs (happensFabidWrite val s) s

/-- FTLIMIT_WRITE (R350). -/
def happensFtlimitWrite (val : Nat) (s : State) : Option State :=
  event true (s.modRegs fun r => { r with ftlimit := val % 2 ^ 32 })

/-- FTLIMIT_WRITE, where its condition holds. -/
def execFtlimitWrite (val : Nat) (s : State) : Host.Outcome State Fault Refusal :=
  occurs (happensFtlimitWrite val s) s

/-- ISLCTL_WRITE (R142, R343): what is written takes effect in the island's next core cycle. -/
def happensIslctlWrite (i val : Nat) (s : State) : Option State :=
  event (decide (i < Config.islands)) (s.modIsland i fun x =>
    { x with ctlNext := some (BitVec.ofNat 64 (bits val 63 12 * 4096 + bits val 4 0)) })

/-- ISLCTL_WRITE, where its condition holds. -/
def execIslctlWrite (i val : Nat) (s : State) : Host.Outcome State Fault Refusal :=
  occurs (happensIslctlWrite i val s) s

/-! ### Attestation (R354) -/

/-- ATTESTATION_REQUEST: 1 is written to the start word; a report under way goes on. -/
def happensAttestationRequest (s : State) : Option State :=
  event true (if s.regs.attStart then s
    else s.modRegs fun r =>
      { r with attStart := true, attNonce := (List.range 32).map fun i => Map.get r.nonce 0 i })

/-- ATTESTATION_REQUEST, where its condition holds. -/
def execAttestationRequest (s : State) : Host.Outcome State Fault Refusal :=
  occurs (happensAttestationRequest s) s

/-- The head of a report on n images. -/
def Regs.reportHead (r : Regs) (n : Nat) : List Byte :=
  r.attNonce ++ leBytes 8 r.fwver ++ leBytes 4 r.devno ++ leBytes 4 n

/-- ATTESTATION_COMPLETE: the report, whose measurements and signatures come with the event, is written.
Log 28: DEDUCED, unsafe. -/
def happensAttestationComplete (report rsa slh : List Byte) (s : State) : Option State :=
  let n := (report.length - 48) / 48
  event (s.regs.attStart && report.length == 48 + 48 * n && decide (n ≤ 40) && report.take 48 == s.regs.reportHead n
      && rsa.length == 384 && slh.length == 16224)
    (s.modRegs fun r =>
      { r with
        attStart := false
        report := Map.putBytes (Map.putBytes (Map.putBytes (Map.putBytes [] 0x100 (leBytes 4 report.length)) 0x104 report)
          0x900 rsa) 0xC00 slh })

/-- ATTESTATION_COMPLETE, where its condition holds. -/
def execAttestationComplete (report rsa slh : List Byte) (s : State) : Host.Outcome State Fault Refusal :=
  occurs (happensAttestationComplete report rsa slh s) s

/-! ### BAR2 (R174, R342) -/

/-- An access of the host to a peer, through a valid import (R342, R348): it goes out as a request; with no ready plane,
or through no import, nothing answers it, and the bytes of a read have no stated value.
Log 28: DEDUCED, unsafe. -/
def State.hostPeer (s : State) (pa n : Nat) (op : PeerOp) : State :=
  let write := match op with | .read _ => false | _ => true
  let e := (Map.get s.imports 0 ((pa - 0x1000000000000) / 2 ^ 36)).toNat
  match (if s.noPlane || (write && !bit e 62) then none else s.importAt pa) with
  | some (dev, xidx, off) =>
    { s with hostReqs := Map.ins s.hostReqs s.nextId (if write then 0 else n), nextId := s.nextId + 1,
             fabricOut := s.fabricOut ++ [.request dev s.nextId xidx off op] }
  | none =>
    if write then s else { s with hostRead := (List.range n).map (Config.freeByte s.free), free := s.free + 1 }

/-- Whether the host reads a byte that has no stated value: it is poison, or no CXL decoder claims it. -/
def State.hostBad (s : State) (pa : Nat) : Bool := s.badByte pa || (kindOf pa == .cxl && (s.cxlPort pa).isNone)

/-- One byte of a write of the host; those of one access fill granules together (R420). -/
def State.hostWrite (s : State) (pa : Nat) (b : Byte) : State :=
  { s with nextWrite := s.nextWrite + 1 }.writeAs { id := s.nextWrite, maker := .host, word := s.free } pa [b] false false

/-- HOST_BAR2_ACCESS (R174, R342): performed at the word's home, a read as an acquire; an access to a CXL port that is
not ready waits (R352), and a locked parcel line is not written (R137, R141). Bytes that read as poison have no stated
value; an address that R103 does not map does not exist. An APBASE that is no multiple of 64 GiB is rounded down, and the
bytes of a slot-state array are plain memory here, apart from the states of the slots. Log 28: DEDUCED, unsafe. -/
def execHostBar2Access (a : Bar2) (s : State) : Host.Outcome State Fault Refusal :=
  let n := match a with | .read _ n => n | .write _ bs => bs.length
  let off := match a with | .read off _ | .write off _ => off
  let pa := s.regs.apbase / 2 ^ 36 * 2 ^ 36 + off
  if s.gate || n = 0 || 2 ^ 36 < off + n || !(s.portsAt [pa, pa + n - 1]).isEmpty then .next s
  else if kindOf pa == .reserved || kindOf (pa + n - 1) == .reserved then .fault .noMemory
  else match a with
    | .read _ _ =>
      if kindOf pa == .peer then .next (s.hostPeer pa n (.read n))
      else .next { s with
        hostRead := (List.range n).map fun i =>
          if s.hostBad (pa + i) then Config.freeByte s.free i else Memory.read s.mem (pa + i)
        free := s.free + 1 }
    | .write _ bs =>
      if kindOf pa == .peer then .next (s.hostPeer pa n (.write bs))
      else .next ((bs.mapIdx fun i b => (pa + i, b)).foldl (fun s (x : Nat × Byte) =>
        if s.lockedPa x.1 || (kindOf x.1 == .cxl && (s.cxlPort x.1).isNone) then s
        else s.hostWrite x.1 x.2) { s with free := s.free + 1 })

/-! ### Registers with no behaviour of their own (R343, R413) -/

/-- A number with the bytes of a write put over it: the register lies at `base`, the write at `off`. -/
def overlay (old base off : Nat) (n : Nat) (bs : List Byte) : Nat :=
  leNat ((List.range n).map fun i =>
    if off ≤ base + i ∧ base + i < off + bs.length then bs.getD (base + i - off) 0
    else BitVec.ofNat 8 (old / 256 ^ i))

/-- Offsets whose registers have events of their own: TBASE, FABID, FTLIMIT, ISLCTL, QBASE, QCTL and QTAIL. -/
def ownEvent (o : Nat) : Bool :=
  (0x40 ≤ o && o < 0x48) || (0x50 ≤ o && o < 0x54) || (0x58 ≤ o && o < 0x5C) || (0x200 ≤ o && o < 0x340)
  || (0x1000 ≤ o && o < 0x1800 && (o % 32 < 12 || (16 ≤ o % 32 && o % 32 < 20)))

/-- The contexts of a core that the debug monitor serves (R412). Log 25: DEDUCED, unsafe. -/
def State.monitorOf (s : State) (core : Nat) : Option Ctx :=
  (s.activeCtxs core).find? fun c => c.handler == 1

/-- Whether a core's mailbox holds a command that has not been answered (R413). Log 25: DEDUCED, unsafe. -/
def State.mailPending (s : State) (core : Nat) : Bool := s.mail core 2 2 != s.mail core 34 2

/-- The monitor's reply to a command (R413). -/
def State.reply (s : State) (core rstat d0 : Nat) : State :=
  (((((s.mailWrite core 32 1 0).mailWrite core 33 1 rstat).mailWrite core 34 2 (s.mail core 2 2)).mailWrite core 40 8 d0).mailWrite
    core 48 16 0).vector 65

/-- Bytes of a write that the host may put into a mailbox: 0 to 3 and 8 to 31, and not the command word where `busy` says
that one was unanswered when it wrote; bytes 4 to 7 are reserved (R8, R413). Log 25: DEDUCED, unsafe. -/
def State.hostMail (s : State) (busy : Nat → Bool) (core : Nat) (o : Nat) (b : Byte) : State :=
  if 32 ≤ o || (4 ≤ o && o < 8) || (o < 4 && busy core) then s
  else s.modCore core fun c => { c with mailbox := Map.put c.mailbox 0 o b }

/-- A command word with a code that the monitor does not know is answered at once. Log 25: DEDUCED, unsafe. -/
def State.unknownCommand (s : State) (core : Nat) : State :=
  let op := s.mail core 0 2
  if s.mailPending core && (s.monitorOf core).isSome && (op == 0 || 8 < op) then s.reply core 1 0 else s

/-- The bytes of a register write go where they belong. Log 20: DESIGN CHOICE, unsafe. -/
def State.registerBytes (s : State) (off : Nat) (bs : List Byte) : State :=
  let at0 (i : Nat) : Nat := off + i
  let busy (core : Nat) : Bool := s.mailPending core && (s.monitorOf core).isSome
  (bs.mapIdx fun i b => (at0 i, b)).foldl (fun s (x : Nat × Byte) =>
    let o := x.1
    if 0x10000 ≤ o ∧ o < 0x12800 then s.hostMail busy ((o - 0x10000) / 64) (o % 64) x.2
    else if 0x20000 ≤ o ∧ o < 0x20020 then
      s.modRegs fun r => { r with nonce := Map.put r.nonce 0 (o - 0x20000) x.2 }
    else if 0x30000 ≤ o ∧ o < 0x70000 then s.modRegs fun r => { r with cxl := Map.put r.cxl 0 (o - 0x30000) x.2 }
    else s) s

/-- A write of TCMD (R346): it starts a command, which then runs until its event; a reserved TABLE ends at once with
TSTAT 1; while GO is 1 it is ignored, and TSTAT reads 6. -/
def State.writeTcmd (s : State) (tcmd : Nat) : State :=
  if bit s.regs.tcmd 31 then s.modRegs fun r => { r with tstat := 6 }
  else if bit tcmd 31 && bits tcmd 1 0 = 3 then s.tableDone tcmd 1
  else s.modRegs fun r => { r with tcmd := b2n (bit tcmd 31) * 2 ^ 31 + bits tcmd 27 16 * 65536 + bits tcmd 1 0 }

/-- REGISTER_WRITE (R343): a write that no other event stands for. Read-only registers and unlisted addresses ignore
it. Log 28: DEDUCED, unsafe. -/
def happensRegisterWrite (off bytes val : Nat) (s : State) : Option State :=
  let bs := leBytes bytes val
  let tcmd := overlay s.regs.tcmd 0x110 off 4 bs
  let touches (lo hi : Nat) : Bool := decide (lo < off + bytes) && decide (off < hi)
  let own := (List.range bytes).any (fun i => ownEvent (off + i))
    || (touches 0x70 0x74 && !s.taking && bit (overlay 0 0x70 off 4 bs) 31)
    || (touches 0x20020 0x20024 && bit (overlay 0 0x20020 off 4 bs) 0)
  let s1 := s.modRegs fun r => { r with
    apbase := overlay r.apbase 0x48 off 8 bs
    tent := overlay r.tent 0x100 off 16 bs }
  let ck := b2n (bit (overlay s.regs.ckctl 0x70 off 4 bs) 30) * 2 ^ 30
  let s1 := s1.modRegs fun r => { r with ckctl := if bit r.ckctl 31 then r.ckctl else ck + r.ckctl % 2 ^ 30 }
  let s1 := s1.modRegs fun r => { r with tstat := overlay r.tstat 0x114 off 4 bs }
  let s2 := if touches 0x110 0x114 then s1.writeTcmd tcmd else s1
  let s3 := s2.registerBytes off bs
  let cores := (List.range Config.cores).filter fun c => touches (0x10000 + 64 * c) (0x10000 + 64 * c + 4)
  event (decide (0 < bytes) && decide (off + bytes ≤ 2 ^ 20) && !own) (cores.foldl State.unknownCommand s3)

/-- REGISTER_WRITE, where its condition holds. -/
def execRegisterWrite (off bytes val : Nat) (s : State) : Host.Outcome State Fault Refusal :=
  occurs (happensRegisterWrite off bytes val s) s

/-! ### Reads of BAR0 (R343) -/

/-- Registers of BAR0 that lie alone: offset, bytes, value. -/
def Regs.fixed (r : Regs) : List (Nat × Nat × Nat) :=
  [(0x0, 4, r.devid), (0x8, 8, r.fwver), (0x10, 4, r.rdy.getD 0 0), (0x14, 4, r.rdy.getD 1 0), (0x18, 4, r.rdy.getD 2 0),
    (0x1C, 4, r.rdy.getD 3 0), (0x40, 8, r.tbase), (0x48, 8, r.apbase),
    (0x50, 4, b2n r.fabEn * 2 ^ 31 + b2n r.fabDup * 2 ^ 30 + r.devno), (0x58, 4, r.ftlimit), (0x60, 8, r.hkacct),
    (0x70, 4, r.ckctl), (0x78, 8, r.ckcount), (0x100, 16, r.tent), (0x110, 4, r.tcmd), (0x114, 4, r.tstat)]

/-- Registers of a queue block (R344). -/
def Queue.fixed (q : Queue) : List (Nat × Nat × Nat) :=
  [(0, 8, q.base), (8, 4, b2n q.en * 2 ^ 31 + b2n q.irq * 2 ^ 30 + b2n q.err * 2 ^ 29 + q.log), (12, 4, q.head),
    (16, 4, q.tail)]

/-- Byte o among registers; what none of them holds reads zero. -/
def regsByte (rs : List (Nat × Nat × Nat)) (o : Nat) : Byte :=
  match rs.find? fun (x : Nat × Nat × Nat) => decide (x.1 ≤ o) && decide (o < x.1 + x.2.1) with
  | some x => BitVec.ofNat 8 (x.2.2 / 256 ^ (o - x.1))
  | none => 0

/-- Byte o of BAR0 as the host reads it (R343 to R354): ISLCTL is for writing only, and reads as a free value in all but
its reserved bits 11:5, which read zero (R8, R142); addresses that are not listed read zero.
Log 28: DEDUCED, unsafe. -/
def State.regByte (s : State) (o : Nat) : Byte :=
  if 0x200 ≤ o && o < 0x340 then
    let b := (Config.freeByte s.free o).toNat
    BitVec.ofNat 8 (match o % 8 with | 0 => b % 32 | 1 => b / 16 * 16 | _ => b)
  else if 0x1000 ≤ o && o < 0x1800 then regsByte (s.queueOf ((o - 0x1000) / 32)).fixed (o % 32)
  else if 0x4000 ≤ o && o < 0x8000 then BitVec.ofNat 8 ((Map.get s.exports 0 ((o - 0x4000) / 16)).toNat / 256 ^ (o % 16))
  else if 0x8000 ≤ o && o < 0x10000 then BitVec.ofNat 8 ((Map.get s.imports 0 ((o - 0x8000) / 8)).toNat / 256 ^ (o % 8))
  else if 0x10000 ≤ o && o < 0x12800 then Map.get (s.coreOf ((o - 0x10000) / 64)).mailbox 0 (o % 64)
  else if 0x20000 ≤ o && o < 0x20020 then Map.get s.regs.nonce 0 (o - 0x20000)
  else if o == 0x20020 then BitVec.ofNat 8 (b2n s.regs.attStart)
  else if 0x20100 ≤ o && o < 0x24B60 then Map.get s.regs.report 0 (o - 0x20000)
  else if 0x30000 ≤ o && o < 0x70000 then Map.get s.regs.cxl 0 (o - 0x30000)
  else regsByte s.regs.fixed o

/-- The host reads n bytes of BAR0. -/
def State.readRegisters (s : State) (off n : Nat) : State :=
  { s with hostRead := (List.range n).map fun i => s.regByte (off + i), free := s.free + 1 }

end Sys2Proof.Machine
end

