-- ==== Sys2Proof/Machine/Imm.lean ====
section
/-!
DEFINITION. The long-immediate words (R244 to R249).
-/

namespace Sys2Proof.Machine

open Sys2Proof

/-- IMM32 read by TY (R244): its bits, sign- or zero-extended, or an f32 made f64. -/
def immRead (t : Ty) (imm : Nat) : Nat :=
  match t with
  | .i64 => wrap 64 (sext 32 imm)
  | .f64 => Fmt.f64.deliver .rne false (Fmt.f32.read imm)
  | _ => imm % 2 ^ 32

/-- An immediate word: D takes `val`, of its own value, in every active lane. -/
def immArith (i : Instr) (w : IWord XImm) (val : Nat → Nat) (fl : Nat → Nat → FlagUpd) (s : State) :
    Host.Outcome State Fault Refusal :=
  let t := w.x.ty
  issue i s fun s it =>
    let m := it.exec w.p
    let d (l : Nat) := dstVal it t w.d l
    let f := if w.x.cc && m != 0 then fl (d (lowest m)) (val (d (lowest m))) else {}
    .ok (s.writeNow it (laneWrites w.d (tyRegs t) m fun l => val (d l)) f) none

/-- MOVI (R244). -/
def execMovi (w : IWord XImm) (s : State) : Host.Outcome State Fault Refusal :=
  immArith (.movi w) w (fun _ => immRead w.x.ty w.imm) (fun _ r => flagsZN (tyWidth w.x.ty) r) s

/-- ADDI (R245). -/
def execAddi (w : IWord XImm) (s : State) : Host.Outcome State Fault Refusal :=
  let t := w.x.ty
  let c := immRead t w.imm
  let f := tyFmt t
  immArith (.addi w) w
    (fun d => if t.isFloat then f.add .rne w.x.sat (f.read d) (f.read c) else intResult t w.x.sat (intOf t d + intOf t c))
    (fun d r => if t.isFloat then flagsFloat f r else flagsAdd (tyWidth t) d c) s

/-- MULI (R245). -/
def execMuli (w : IWord XImm) (s : State) : Host.Outcome State Fault Refusal :=
  let t := w.x.ty
  let c := immRead t w.imm
  let f := tyFmt t
  immArith (.muli w) w
    (fun d => if t.isFloat then f.mul .rne w.x.sat (f.read d) (f.read c) else intResult t w.x.sat (intOf t d * intOf t c))
    (fun d r => if t.isFloat then flagsFloat f r else flagsMul t (intOf t d * intOf t c)) s

/-- ANDI, ORI, XORI (R246). -/
def execAndi (w : IWord XImm) (s : State) : Host.Outcome State Fault Refusal :=
  immArith (.andi w) w (fun d => Nat.land d (immRead w.x.ty w.imm)) (fun _ r => flagsZN (tyWidth w.x.ty) r) s

def execOri (w : IWord XImm) (s : State) : Host.Outcome State Fault Refusal :=
  immArith (.ori w) w (fun d => Nat.lor d (immRead w.x.ty w.imm)) (fun _ r => flagsZN (tyWidth w.x.ty) r) s

def execXori (w : IWord XImm) (s : State) : Host.Outcome State Fault Refusal :=
  immArith (.xori w) w (fun d => Nat.xor d (immRead w.x.ty w.imm)) (fun _ r => flagsZN (tyWidth w.x.ty) r) s

/-- CMPI (R247): G is the condition and Z its complement; no register is written. -/
def execCmpi (w : IWord (Ty × Nat)) (s : State) : Host.Outcome State Fault Refusal :=
  let t := w.x.1
  let c := immRead t w.imm
  issue (.cmpi w) s fun s it =>
    let m := it.exec w.p
    let d := dstVal it t w.d 0
    let r := if t.isFloat then fcmpCond w.x.2 ((tyFmt t).read d) ((tyFmt t).read c)
      else icmpCond w.x.2 (intOf t d) (intOf t c)
    .ok (s.writeNow it [] (if m == 0 then {} else FlagUpd.test r)) none

/-- MOVHI (R248): the odd register of the pair. -/
def execMovhi (w : IWord Ty) (s : State) : Host.Outcome State Fault Refusal :=
  issue (.movhi w) s fun s it =>
    let d := match w.d with | .v n => Dst.v (n + 1) | .s n => .s (n + 1) | d => d
    .ok (s.writeNow it (wholeWrites d 1 (it.exec w.p) w.imm) {}) none

/-- LDC (R249): IMM32 + l × S. -/
def execLdc (w : IWord (Ty × Int)) (s : State) : Host.Outcome State Fault Refusal :=
  issue (.ldc w) s fun s it =>
    .ok (s.writeNow it (laneWrites w.d 1 (it.exec w.p) fun l => wrap 32 ((w.imm : Int) + (l : Int) * w.x.2)) {}) none

end Sys2Proof.Machine
end

