-- ==== Sys2Proof/Machine/Lanes.lean ====
section
/-!
DEFINITION. Lane operations (R236 to R243). A source lane's register is read whatever that lane's state (R211).
-/

namespace Sys2Proof.Machine

open Sys2Proof

/-- A of lane j: the operand is a vector register. -/
def laneA (w : FWord XArith) (s : State) (it : Iss) (j : Nat) : Nat := srcVal s it w.x.ty w.a j

/-- SHFL (R236). -/
def execShfl (w : FWord XArith) (s : State) : Host.Outcome State Fault Refusal :=
  arith (.shfl w) w false (tyRegs w.x.ty)
    (fun s it l =>
      match shflLane w.x.opx l (src32 s it w.b l) with
      | some j => laneA w s it j
      | none => 0)
    (fun _ _ _ _ => {}) s

/-- SHFLX (R237): the index is in D. -/
def execShflx (w : FWord XArith) (s : State) : Host.Outcome State Fault Refusal :=
  arith (.shflx w) w false 1
    (fun s it l =>
      let k := dstVal it w.x.ty w.d l % 64
      if k < 32 then srcVal s it w.x.ty w.a k else srcVal s it w.x.ty w.b (k - 32))
    (fun _ _ _ _ => {}) s

/-- A word with one value for the whole split, and its flags (R208). -/
def whole (i : Instr) (w : FWord XArith) (regs : Nat) (val : State → Iss → Mask → Nat) (fl : Nat → FlagUpd)
    (s : State) : Host.Outcome State Fault Refusal :=
  issue i s fun s it =>
    let m := it.exec w.p
    let x := val s it m
    .ok (s.writeNow it (wholeWrites w.d regs m x) (if w.x.cc && m != 0 then fl x else {})) none

/-- BCST (R238). -/
def execBcst (w : FWord XArith) (s : State) : Host.Outcome State Fault Refusal :=
  whole (.bcst w) w (tyRegs w.x.ty) (fun s it _ => laneA w s it (src32 s it w.b 0 % 32)) (flagsOf w.x.ty) s

/-- FIRSTL (R238). -/
def execFirstl (w : FWord XArith) (s : State) : Host.Outcome State Fault Refusal :=
  whole (.firstl w) w (tyRegs w.x.ty) (fun s it m => laneA w s it (lowest m)) (flagsOf w.x.ty) s

/-- The lanes that pass VOTE's test (R239). -/
def votePass (w : FWord XArith) (s : State) (it : Iss) (m : Mask) (l : Nat) : Bool :=
  m.getLsbD l && match w.x.opx / 4 with
    | 0 => laneA w s it l != 0
    | 1 => laneA w s it l == 0
    | _ => laneA w s it l == laneA w s it (lowest m)

/-- VOTE's quantifier (R239). -/
def voteValue (q : Nat) (m pass : Mask) : Nat :=
  match q with
  | 0 => pass.toNat
  | 1 => b2n (pass == m)
  | 2 => b2n (pass != 0)
  | _ => popcount 32 pass.toNat

/-- VOTE (R239): a mask D takes the passing lanes for `.set`, else the value in every active lane. -/
def execVote (w : FWord XArith) (s : State) : Host.Outcome State Fault Refusal :=
  issue (.vote w) s fun s it =>
    let m := it.exec w.p
    let q := w.x.opx % 4
    let pass := maskOf (votePass w s it m)
    let x := voteValue q m pass
    let ws := match w.d with
      | .m (n + 1) =>
        if m == 0 then [] else maskWrite it (n + 1) m fun l => if q = 0 then pass.getLsbD l else x == 1
      | d => wholeWrites d 1 m x
    let f := if w.x.cc && m != 0 then
        (if q = 1 ∨ q = 2 then FlagUpd.test (x == 1) else flagsZN 32 x)
      else {}
    .ok (s.writeNow it ws f) none

/-- MATCH (R240): the peers of a lane, those below it, or their number. -/
def execMatchl (w : FWord XArith) (s : State) : Host.Outcome State Fault Refusal :=
  arith (.matchl w) w false 1
    (fun s it l =>
      let m := it.exec w.p
      let peers := (lanesOf m).filter fun j => laneA w s it j == laneA w s it l
      let below := peers.filter fun j => decide (j < l)
      match w.x.opx with
      | 0 => (peers.map fun j => 2 ^ j).sum
      | 1 => (below.map fun j => 2 ^ j).sum
      | _ => below.length)
    (fun _ _ _ _ => {}) s

/-- REDL (R241): the tree over the active lanes (R99). -/
def execRedl (w : FWord XArith) (s : State) : Host.Outcome State Fault Refusal :=
  whole (.redl w) w (tyRegs w.x.ty)
    (fun s it m =>
      (redTree (redOp w.x.ty w.x.opx)
        ((List.range 32).map fun l => if m.getLsbD l then some (laneA w s it l) else none)).getD 0)
    (flagsOf w.x.ty) s

/-- SCANL (R242): running results in lane order. -/
def execScanl (w : FWord XArith) (s : State) : Host.Outcome State Fault Refusal :=
  arith (.scanl w) w false (tyRegs w.x.ty)
    (fun s it l =>
      let op := w.x.opx % 8
      let rs := scanGo (redOp w.x.ty op) (bit w.x.opx 3) (redIdentity w.x.ty op) none
        ((lanesOf (it.exec w.p)).map fun j => (j, laneA w s it j))
      ((rs.find? fun r => r.1 == l).map Prod.snd).getD 0)
    (fun _ _ _ _ => {}) s

/-- MTOS (R243): the whole mask register. -/
def execMtos (w : FWord XArith) (s : State) : Host.Outcome State Fault Refusal :=
  whole (.mtos w) w 1 (fun _ it _ => (it.g.readM it.sp (w.x.opx % 8)).toNat) (flagsZN 32) s

/-- STOM (R243): a lane's own truth of a vector A, or its bit of a scalar or immediate A. -/
def execStom (w : FWord XArith) (s : State) : Host.Outcome State Fault Refusal :=
  issue (.stom w) s fun s it =>
    let m := it.exec w.p
    let f (l : Nat) : Bool := if w.a.isVec then src32 s it w.a l != 0 else bit (src32 s it w.a l) l
    let ws := match w.d with
      | .m (n + 1) => if m == 0 then [] else maskWrite it (n + 1) m f
      | _ => []
    .ok (s.writeNow it ws {}) none

end Sys2Proof.Machine
end

