-- ==== Sys2Proof/Machine/System.lean ====
section
/-!
DEFINITION. The F words of cells and system (R292, R293, R295, R299 to R307): steps, special registers, the trapped
group's registers, leases, assertions, descriptors.
-/

namespace Sys2Proof.Machine

open Sys2Proof

/-- STEP (R299): the split parks; what follows when all have met is `State.after` and the event STEP_ENTER (R46). -/
def execStep (s : State) : Host.Outcome State Fault Refusal :=
  issue .step s fun s it => .park (s.modGroup it.key fun g => { g with stepWait := 0 }) .step

/-- STEPQ (R300). Log 27: DEDUCED, unsafe. -/
def execStepq (w : FWord Bool) (s : State) : Host.Outcome State Fault Refusal :=
  issue (.stepq w) s fun s it =>
    if it.exec w.p = 0 then .ok s none
    else
      let n := stepqCount s it.g it.c it.l.r
      .ok (s.writeNow it (scalarWrites w.d n) (FlagUpd.test (n == 0))) none

/-! ### Special registers (R72, R301, R302) -/

/-- Groups of a group's team: TSIZE, or the groups of its cell set (R30, R40). -/
def Iss.teamSize (it : Iss) : Nat :=
  if it.l.r.kind = 1 then it.l.r.setGroups it.c.index it.g.set else it.l.r.tsize

/-- Cluster index (R72). -/
def Iss.cluster (it : Iss) : Nat :=
  if it.l.r.kind = 1 then (it.l.cores.getD it.c.index ⟨0, 0, 0⟩).cluster else it.g.team / (it.l.r.cw * it.l.r.ch)

/-- The value of a special register in lane l (R72). %lease is what is left of a lease that the reader's launch holds on
the island: to a launch without one it reads zero, whoever holds the island's (R155, R395). The handler group of a field
launch has no cells and takes no step: %cx, %cy, %cz and %step read zero in it, for which no value is stated.
Log 4: DEDUCED, unsafe. Log 10: DESIGN CHOICE, unsafe. -/
def specialVal (s : State) (it : Iss) (sel l : Nat) : Nat :=
  let g := it.g
  let x := s.island (islandOf g.core)
  let field := g.e != 0
  match sel with
  | 0x00 => l
  | 0x01 => g.gid
  | 0x02 => g.team
  | 0x03 => it.teamSize
  | 0x04 => it.cluster
  | 0x05 => it.l.crank it.c.index
  | 0x10 => if field then g.cellCoord it.l.r l 0 else 0
  | 0x11 => if field then g.cellCoord it.l.r l 1 else 0
  | 0x12 => if field then g.cellCoord it.l.r l 2 else 0
  | 0x13 => if field then g.step % 2 ^ 32 else 0
  | 0x14 => it.c.set
  | 0x20 => g.core
  | 0x21 => islandOf g.core
  | 0x22 => dieOf g.core
  | 0x23 => s.regs.devno
  | 0x30 => (s.coreOf g.core).cyc.toNat
  | 0x31 => g.run.toNat
  | 0x32 => (s.die (dieOf g.core)).wall.toNat
  | 0x33 => g.tcmp.toNat
  | 0x40 => b2n g.fto
  | 0x41 => it.sp.sig.toNat
  | 0x42 => g.smask.toNat
  | 0x50 => s.melt
  | 0x51 => if x.holder.map Prod.snd == some g.launch then x.lease else 0
  | _ => x.mhz

/-- SREAD (R301): selectors 0x30 to 0x32 are long-latency. The rule does not say whether %sig comes before or after the
fold of the SREAD itself: the fold is made at issue, before the read. Log 18: DESIGN CHOICE, unsafe. -/
def execSread (w : FWord Nat) (s : State) : Host.Outcome State Fault Refusal :=
  issue (.sread w) s fun s it =>
    .ok (s.result it (0x30 ≤ w.x && w.x ≤ 0x32) w.la
      (laneWrites w.d (specialRegs w.x) (it.exec w.p) (specialVal s it w.x)) {}) none

/-- The operand of SWRITE: 32 bits, or 64 for %tcmp (R302). -/
def swriteVal (w : FWord Nat) (it : Iss) : Nat :=
  match w.a with
  | .s n => it.g.sVal (w.x == 0x33) n
  | .imm i => wrap 64 i
  | _ => 0

/-- SWRITE (R73, R302). -/
def execSwrite (w : FWord Nat) (s : State) : Host.Outcome State Fault Refusal :=
  issueAs (.swrite w) (w.x != 0x41) s fun s it =>
    if it.exec w.p = 0 then .ok s none
    else
      let x := swriteVal w it
      .ok (s.modGroup it.key fun g =>
        match w.x with
        | 0x33 => { g with tcmp := BitVec.ofNat 64 x, armed := false }
        | 0x40 => if bit x 0 && !g.ftoNow then { g with fto := false } else g
        | _ => g.modSplit it.j fun sp => { sp with sig := BitVec.ofNat 32 x }) none

/-! ### The trapped group's registers (R295) -/

/-- The group and split that the current trap record names. Log 10: DEDUCED, unsafe. -/
def trapped (s : State) (it : Iss) : Option (Nat × Group × Nat) :=
  it.c.serving.bind fun t => (s.group? t.group).map fun g => (t.group, g, t.split)

/-- A remote register in remote lane l, or the whole of a scalar or mask register. -/
def remoteRead (g : Group) (j : Nat) (r : RReg) (l : Nat) : Nat :=
  match r with
  | .v n => (g.readV n l).toNat
  | .s n => (g.readS n).toNat
  | .m n => (g.readM (g.split j) n).toNat
  | .reserved _ => 0

/-- Whether a register or operand is a vector. -/
def RReg.isVec : RReg → Bool
  | .v _ => true
  | _ => false

/-- XREAD (R295). A record whose group no longer exists gives a free value. Log 10: DEDUCED, unsafe. -/
def execXread (w : FWord RReg) (s : State) : Host.Outcome State Fault Refusal :=
  issue (.xread w) s fun s it =>
    let m := it.exec w.p
    if !it.g.handler then .trap (it.trapOpen s 0x31 m)
    else
      let lane (l : Nat) := if w.d.isVec then l else it.scalar w.b % 32
      let val (l : Nat) := match trapped s it with
        | some (_, g, j) => remoteRead g j w.x (lane l)
        | none => (Config.freeWord s.free).toNat
      .ok (s.writeLater it w.la (laneWrites w.d 1 m val) {}) none

/-- The registers XWRITE writes, with their values: `a l` is A in lane l. A mask register takes the whole 32-bit value
(R295), whatever the execution mask: R64's lanes are those of the handler group's own word. Log 10: DESIGN CHOICE,
unsafe. -/
def remoteWrites (r : RReg) (aVec : Bool) (m : Mask) (lane : Nat) (a : Nat → Nat) : List (RegId × Word) :=
  let x := BitVec.ofNat 32 (a (lowest m))
  match r with
  | .v n => if aVec then (lanesOf m).map fun l => (.v n l, BitVec.ofNat 32 (a l)) else [(.v n lane, x)]
  | .s n => [(.s n, x)]
  | .m n => [(.m n, x)]
  | .reserved _ => []

/-- XWRITE (R295). Log 10: DEDUCED, unsafe. -/
def execXwrite (w : FWord RReg) (s : State) : Host.Outcome State Fault Refusal :=
  issue (.xwrite w) s fun s it =>
    let m := it.exec w.p
    if !it.g.handler then .trap (it.trapOpen s 0x31 m)
    else match trapped s it with
      | some (k, _, _) =>
        if m = 0 then .ok s none
        else
          .ok (s.modGroup k fun g =>
            g.writeRegs (remoteWrites w.x w.a.isVec m (it.scalar w.b % 32) fun l => src32 s it w.a l)) none
      | none => .ok s none

/-! ### Leases (R152, R153, R303, R304) -/

/-- The reason code of a request for a lease (R152); 0 grants it. In the cycle of its end a lease is still held (R156). -/
def sprintReason (s : State) (x : Island) (target budget : Nat) : Nat :=
  if x.holder.isSome || x.ended then 1
  else if 0xC000 ≤ s.melt then 2
  else if s.refreeze then 3
  else if !(target % 25 == 0 && 875 ≤ target && target ≤ 1275) then 4
  else if budget ≤ 256 || 2 ^ 40 < budget then 5
  else 0

/-- SPRINT (R303): the request and, on a grant, what R153 names. Log 27: DEDUCED, unsafe. -/
def execSprint (w : FWord Bool) (s : State) : Host.Outcome State Fault Refusal :=
  issue (.sprint w) s fun s it =>
    if it.exec w.p = 0 then .ok s none
    else
      let i := islandOf it.g.core
      let target := it.scalar w.a
      let budget := it.pair w.b
      let r := sprintReason s (s.island i) target budget
      let s := if r = 0 then
          s.modIsland i fun x =>
            { x with holder := some (it.key, it.g.launch), lease := budget - 256, ending := none, owed := 0, granted := true,
                     target := target }
        else if 4 ≤ r then s.modIsland i fun x => { x with granted := true } else s
      .ok (s.writeNow it (scalarWrites w.d r) (FlagUpd.test (r == 0))) none

/-- SPREL (R304). -/
def execSprel (w : FWord Unit) (s : State) : Host.Outcome State Fault Refusal :=
  issue (.sprel w) s fun s it =>
    if it.exec w.p = 0 then .ok s none
    else
      let i := islandOf it.g.core
      let own := (s.island i).holder.map Prod.snd == some it.g.launch
      let s := if own then s.modIsland i Island.endLease else s
      .ok (s.writeNow it (scalarWrites w.d (if own then 0 else 1)) (FlagUpd.test own)) none

/-! ### Assertions, breakpoints, yielding, descriptors (R292, R293, R305 to R307) -/

/-- ASSERT (R293). -/
def execAssertw (w : FWord Unit) (s : State) : Host.Outcome State Fault Refusal :=
  issue (.assertw w) s fun s it =>
    let m := it.exec w.p
    match (lanesOf m).find? fun l => src32 s it w.a l == 0 with
    | none => .ok s none
    | some l => .trap { cause := 0x20, lane := l, tmask := m, aux := 0, msg := it.pair w.b, pc := it.nextPc }

/-- BKPT (R292). -/
def execBkpt (w : FWord Nat) (s : State) : Host.Outcome State Fault Refusal :=
  issue (.bkpt w) s fun s it =>
    let m := it.exec w.p
    if m = 0 then .ok s none else .trap { it.trapWord 0x91 m w.x with pc := it.nextPc }

/-- YIELD (R307): for the next n cycles, after the one in which it issues. -/
def execYieldw (w : FWord Nat) (s : State) : Host.Outcome State Fault Refusal :=
  issue (.yieldw w) s fun s it =>
    if it.exec w.p = 0 || w.x = 0 then .ok s none
    else .ok (s.modGroup it.key fun g => { g with yieldLeft := w.x + 1 }) none

/-- Eight scalar registers from `n` as one 256-bit entry (R305). -/
def Group.tdRegs (g : Group) (n : Nat) : BitVec 256 :=
  BitVec.ofNat 256 ((List.range 8).map fun i => (g.readS (n + i)).toNat * 2 ^ (32 * i)).sum

/-- TDSET (R305): bit 11 raises 0x02, a number above 255 raises 0x31. -/
def execTdset (w : FWord Unit) (s : State) : Host.Outcome State Fault Refusal :=
  issue (.tdset w) s fun s it =>
    let m := it.exec w.p
    let n := it.scalar w.b
    let d := match w.a with | .s r => it.g.tdRegs r | _ => 0
    if m = 0 then .ok s none
    else if d.getLsbD 11 then .trap (it.trapWord 0x02 m (encode (.tdset w)))
    else if 255 < n then .trap (it.trapOpen s 0x31 m)
    else .ok (s.modCtx it.g.launch it.g.core fun c => { c with tds := Map.put c.tds 0 n d }) none

/-- TDGET (R306). -/
def execTdget (w : FWord Unit) (s : State) : Host.Outcome State Fault Refusal :=
  issue (.tdget w) s fun s it =>
    let m := it.exec w.p
    let n := it.scalar w.b
    if m = 0 then .ok s none
    else if 255 < n then .trap (it.trapOpen s 0x31 m)
    else .ok (s.writeLater it w.la (laneWrites w.d 8 m fun _ => (Map.get it.c.tds 0 n).toNat) {}) none

end Sys2Proof.Machine
end

