-- ==== Sys2Proof/Machine/Monitor.lean ====
section
/-!
DEFINITION. The commands of the debug monitor (R412 to R414), as it reads them from a core's mailbox.
-/

namespace Sys2Proof.Machine

open Sys2Proof

/-- Whether the launch of a context stands still for the monitor: a trap is delivered, or HALT holds it. -/
def stands (l : Launch) (c : Ctx) : Bool := c.serving.isSome || l.halted

/-- A monitor command: the monitor of the core's active bank finds its code unanswered in the mailbox. `need` says that
it needs a delivered trap or HALT (RSTAT 3). Log 25: DEDUCED, unsafe. -/
def monitorCmd (op : Nat) (need : Bool) (core : Nat) (s : State) (k : Ctx → Launch → State) : Option State :=
  match s.monitorOf core with
  | none => none
  | some c =>
    match s.launch? c.launch with
    | none => none
    | some l =>
      event (!s.gate && s.mailPending core && s.mail core 0 2 == op && l.oneword.isNone)
        (if need && !stands l c then s.reply core 3 0 else k c l)

/-- HALT: every group is held at its boundary, where each of them stands between words. -/
def happensHalt (core : Nat) (s : State) : Option State :=
  monitorCmd 1 false core s fun c _ => (s.modLaunch c.launch fun l => { l with halted := true }).reply core 0 0

/-- HALT, where its condition holds. -/
def execHalt (core : Nat) (s : State) : Host.Outcome State Fault Refusal :=
  occurs (happensHalt core s) s

/-- RESUME: RFT of the delivered trap with the PC in ARG0 and the mask in ARG1, 32 bits, then HALT is released.
Log 25: DEDUCED, unsafe. -/
def happensResume (core : Nat) (s : State) : Option State :=
  monitorCmd 2 false core s fun c _ =>
    if 2 ^ 32 ≤ s.mail core 16 8 then s.reply core 2 0
    else ((s.trapReturn c.launch core (BitVec.ofNat 64 (s.mail core 8 8)) (BitVec.ofNat 32 (s.mail core 16 8))).modLaunch
      c.launch fun l => { l with halted := false }).reply core 0 0

/-- RESUME, where its condition holds. -/
def execResume (core : Nat) (s : State) : Host.Outcome State Fault Refusal :=
  occurs (happensResume core s) s

/-- The register an argument names (R188, R295), where it is one. -/
def argReg (x : Nat) : Option RReg :=
  let n := bits x 13 6
  match bits x 15 14 with
  | 0 => if n < 128 then some (.v n) else none
  | 1 => if n < 192 then some (.s n) else none
  | 3 => if n < 8 then some (.m n) else none
  | _ => none

/-- The group, its key and split, and the register that RDREG and WRREG name; the split counts for m0 only.
Log 25: DEDUCED, unsafe. -/
def State.regArg (s : State) (c : Ctx) (x : Nat) : Option (Nat × Group × RReg × Nat) :=
  let slot := bits x 5 0
  let key := gkey c.launch c.core (if slot = handlerSlot then 0 else c.set) slot
  match s.group? key, argReg x with
  | some g, some r =>
    let split := match c.serving with | some t => if t.group = key then some t.split else none | none => none
    if bits x 63 21 != 0 || g.gone then none
    else match r, split with
      | .m 0, none => none
      | r, j => some (key, g, r, j.getD 0)
  | _, _ => none

/-- RDREG. -/
def happensRdreg (core : Nat) (s : State) : Option State :=
  monitorCmd 3 true core s fun c _ =>
    let x := s.mail core 8 8
    match s.regArg c x with
    | some (_, g, r, j) => s.reply core 0 (remoteRead g j r (bits x 20 16))
    | none => s.reply core 2 0

/-- RDREG, where its condition holds. -/
def execRdreg (core : Nat) (s : State) : Host.Outcome State Fault Refusal :=
  occurs (happensRdreg core s) s

/-- WRREG: it writes ARG1 as XWRITE writes. -/
def happensWrreg (core : Nat) (s : State) : Option State :=
  monitorCmd 4 true core s fun c _ =>
    let x := s.mail core 8 8
    match s.regArg c x with
    | some (k, _, r, _) =>
      if r = .m 0 then s.reply core 2 0
      else
        (s.modGroup k fun g =>
          g.writeRegs (remoteWrites r false allLanes (bits x 20 16) fun _ => s.mail core 16 8)).reply core 0 0
    | none => s.reply core 2 0

/-- WRREG, where its condition holds. -/
def execWrreg (core : Nat) (s : State) : Host.Outcome State Fault Refusal :=
  occurs (happensWrreg core s) s

/-- Whether the eight bytes that RDMEM or WRMEM names cannot be reached. -/
def State.memArgBad (s : State) (l : Launch) (write : Bool) (va : Nat) : Bool :=
  va % 8 != 0 || (transProb s l write va 8).isSome || s.lockedAt va

/-- Whether those bytes lie behind a port that is not ready. -/
def State.memArgWaits (s : State) (core : Nat) : Bool :=
  match (s.monitorOf core).bind fun c => s.launch? c.launch with
  | some l => !(portsOf s l (s.mail core 8 8) 8).isEmpty
  | none => false

/-- The observers of RDMEM and WRMEM (R414). -/
def monitorObs : Obs := { Obs.none with k := true, d := true, e := true }

/-- RDMEM: a load that acquires; a poisoned granule is consumed (R420), and a CXL port that is not ready is waited for
(R352). -/
def happensRdmem (core : Nat) (s : State) : Option State :=
  if s.memArgWaits core then none else
  monitorCmd 5 true core s fun c l =>
    let va := s.mail core 8 8
    if s.memArgBad l false va then s.reply core 2 0
    else
      let k := gkey c.launch core 0 handlerSlot
      let s := s.comeAfter k allLanes .mem (l.phys va) 8
      if s.physBad (l.phys va) 8 then s.consume k 0 (l.phys va)
      else
        let got := s.readPart k allLanes true (readKey 0 0) .mem (l.phys va) 8
        (s.didRead k allLanes (some monitorObs) true got.srcs got.rels).reply core 0 got.nat

/-- RDMEM, where its condition holds. -/
def execRdmem (core : Nat) (s : State) : Host.Outcome State Fault Refusal :=
  occurs (happensRdmem core s) s

/-- WRMEM: a store that releases. -/
def happensWrmem (core : Nat) (s : State) : Option State :=
  if s.memArgWaits core then none else
  monitorCmd 6 true core s fun c l =>
    let va := s.mail core 8 8
    if s.memArgBad l true va then s.reply core 2 0
    else
      let k := gkey c.launch core 0 handlerSlot
      let rels := match s.group? k with | some g => s.relsOf g allLanes (some monitorObs) true | none => []
      ((s.drain k).putNow k allLanes (l.phys va) (leBytes 8 (s.mail core 16 8)) false false rels).reply core 0 0

/-- WRMEM, where its condition holds. -/
def execWrmem (core : Nat) (s : State) : Host.Outcome State Fault Refusal :=
  occurs (happensWrmem core s) s

/-- ONEWORD: the trapped split goes on for one word; its answer is the event 1 of the boundary after it.
Log 25: DEDUCED, unsafe. -/
def happensOneword (core : Nat) (s : State) : Option State :=
  monitorCmd 7 true core s fun c _ =>
    match c.serving with
    | none => s.reply core 3 0
    | some t => (s.trapReturn c.launch core t.pc t.tmask).modLaunch c.launch fun l =>
        { l with oneword := some (t.group, t.split, false) }

/-- ONEWORD, where its condition holds. -/
def execOneword (core : Nat) (s : State) : Host.Outcome State Fault Refusal :=
  occurs (happensOneword core s) s

/-- END: the launch ends by fault. -/
def happensEndLaunch (core : Nat) (s : State) : Option State :=
  monitorCmd 8 false core s fun c _ => (s.reply core 0 0).endByFault c.launch

/-- END, where its condition holds. -/
def execEndLaunch (core : Nat) (s : State) : Host.Outcome State Fault Refusal :=
  occurs (happensEndLaunch core s) s

end Sys2Proof.Machine
end

