-- ==== Sys2Proof/Machine/Pair.lean ====
section
/-!
DEFINITION. The pair words (R193, R194, R250): each slot computes D7 = D7 op S9 under its own mask; both read before
either writes.
-/

namespace Sys2Proof.Machine

open Sys2Proof

/-- S9 in lane l: a float slot converts an immediate exactly (R250). -/
def slotSrc (g : Group) (float : Bool) (x : PSrc) (l : Nat) : Nat :=
  match x with
  | .v n => (g.readV n l).toNat
  | .s n => (g.readS n).toNat
  | .imm i => immValue (if float then .f32 else .i32) i
  | .reserved _ => 0

/-- A slot's result from D7 and S9 (R250): i32, or f32 under RNE. -/
def slotOp (op : POp) (sat : Bool) (d x : Nat) : Nat :=
  let i (f : Int → Int → Int) := intResult .i32 sat (f (intOf .i32 d) (intOf .i32 x))
  let f := Fmt.f32
  match op with
  | .nop => d
  | .mov => x
  | .iadd => i (· + ·)
  | .isub => i (· - ·)
  | .imul => i (· * ·)
  | .and => Nat.land d x
  | .or => Nat.lor d x
  | .xor => Nat.xor d x
  | .andn => andNot 32 d x
  | .shl => shlElem .i32 sat d x
  | .shr => shrElem .i32 d x
  | .sar => sarElem .i32 d x
  | .imin => i min
  | .imax => i max
  | .fadd => f.add .rne sat (f.read d) (f.read x)
  | .fsub => f.add .rne sat (f.read d) (f.read x).neg
  | .fmul => f.mul .rne sat (f.read d) (f.read x)
  | .fmin => f.minNum d x
  | .fmax => f.maxNum d x

/-- The writes of a slot: none for a NOP. -/
def slotWrites (it : Iss) (t : PSlot) : List (RegId × Word) :=
  if t.op = .nop then []
  else laneWrites (.v t.args.d7) 1 (it.exec ⟨t.args.msel, false⟩) fun l =>
    slotOp t.op t.args.sat (it.g.readV t.args.d7 l).toNat (slotSrc it.g (POp.float t.op) t.args.s9 l)

/-- A pair word. -/
def pair (i : Instr) (x y : PSlot) (s : State) : Host.Outcome State Fault Refusal :=
  issue i s fun s it => .ok (s.writeNow it (slotWrites it x ++ slotWrites it y) {}) none

def execPairNop (a : PArgs) (t : PSlot) (s : State) : Host.Outcome State Fault Refusal := pair (.pairNop a t) ⟨.nop, a⟩ t s
def execPairMov (a : PArgs) (t : PSlot) (s : State) : Host.Outcome State Fault Refusal := pair (.pairMov a t) ⟨.mov, a⟩ t s
def execPairIadd (a : PArgs) (t : PSlot) (s : State) : Host.Outcome State Fault Refusal := pair (.pairIadd a t) ⟨.iadd, a⟩ t s
def execPairIsub (a : PArgs) (t : PSlot) (s : State) : Host.Outcome State Fault Refusal := pair (.pairIsub a t) ⟨.isub, a⟩ t s
def execPairImul (a : PArgs) (t : PSlot) (s : State) : Host.Outcome State Fault Refusal := pair (.pairImul a t) ⟨.imul, a⟩ t s
def execPairAnd (a : PArgs) (t : PSlot) (s : State) : Host.Outcome State Fault Refusal := pair (.pairAnd a t) ⟨.and, a⟩ t s
def execPairOr (a : PArgs) (t : PSlot) (s : State) : Host.Outcome State Fault Refusal := pair (.pairOr a t) ⟨.or, a⟩ t s
def execPairXor (a : PArgs) (t : PSlot) (s : State) : Host.Outcome State Fault Refusal := pair (.pairXor a t) ⟨.xor, a⟩ t s
def execPairAndn (a : PArgs) (t : PSlot) (s : State) : Host.Outcome State Fault Refusal := pair (.pairAndn a t) ⟨.andn, a⟩ t s
def execPairShl (a : PArgs) (t : PSlot) (s : State) : Host.Outcome State Fault Refusal := pair (.pairShl a t) ⟨.shl, a⟩ t s
def execPairShr (a : PArgs) (t : PSlot) (s : State) : Host.Outcome State Fault Refusal := pair (.pairShr a t) ⟨.shr, a⟩ t s
def execPairSar (a : PArgs) (t : PSlot) (s : State) : Host.Outcome State Fault Refusal := pair (.pairSar a t) ⟨.sar, a⟩ t s
def execPairImin (a : PArgs) (t : PSlot) (s : State) : Host.Outcome State Fault Refusal := pair (.pairImin a t) ⟨.imin, a⟩ t s
def execPairImax (a : PArgs) (t : PSlot) (s : State) : Host.Outcome State Fault Refusal := pair (.pairImax a t) ⟨.imax, a⟩ t s
def execPairFadd (a : PArgs) (t : PSlot) (s : State) : Host.Outcome State Fault Refusal := pair (.pairFadd a t) ⟨.fadd, a⟩ t s
def execPairFsub (a : PArgs) (t : PSlot) (s : State) : Host.Outcome State Fault Refusal := pair (.pairFsub a t) ⟨.fsub, a⟩ t s
def execPairFmul (a : PArgs) (t : PSlot) (s : State) : Host.Outcome State Fault Refusal := pair (.pairFmul a t) ⟨.fmul, a⟩ t s
def execPairFmin (a : PArgs) (t : PSlot) (s : State) : Host.Outcome State Fault Refusal := pair (.pairFmin a t) ⟨.fmin, a⟩ t s
def execPairFmax (a : PArgs) (t : PSlot) (s : State) : Host.Outcome State Fault Refusal := pair (.pairFmax a t) ⟨.fmax, a⟩ t s

end Sys2Proof.Machine
end

