-- ==== Sys2Proof/Machine/Dispatch.lean ====
section
/-!
DEFINITION. The dispatch of every instruction word and every event to its meaning: one arm per constructor of `Instr`.
-/

namespace Sys2Proof.Machine

open Sys2Proof

def exec (i : Instr) (s : State) : Host.Outcome State Fault Refusal :=
  match i with
  | .nop => Sys2Proof.Machine.execNop s
  | .mov w => Sys2Proof.Machine.execMov w s
  | .sel w => Sys2Proof.Machine.execSel w s
  | .iadd w => Sys2Proof.Machine.execIadd w s
  | .isub w => Sys2Proof.Machine.execIsub w s
  | .imul w => Sys2Proof.Machine.execImul w s
  | .imulh w => Sys2Proof.Machine.execImulh w s
  | .imad w => Sys2Proof.Machine.execImad w s
  | .idiv w => Sys2Proof.Machine.execIdiv w s
  | .imin w => Sys2Proof.Machine.execImin w s
  | .imax w => Sys2Proof.Machine.execImax w s
  | .iabs w => Sys2Proof.Machine.execIabs w s
  | .lea w => Sys2Proof.Machine.execLea w s
  | .and w => Sys2Proof.Machine.execAnd w s
  | .or w => Sys2Proof.Machine.execOr w s
  | .xor w => Sys2Proof.Machine.execXor w s
  | .andn w => Sys2Proof.Machine.execAndn w s
  | .shl w => Sys2Proof.Machine.execShl w s
  | .shr w => Sys2Proof.Machine.execShr w s
  | .sar w => Sys2Proof.Machine.execSar w s
  | .rot w => Sys2Proof.Machine.execRot w s
  | .popc w => Sys2Proof.Machine.execPopc w s
  | .clz w => Sys2Proof.Machine.execClz w s
  | .brev w => Sys2Proof.Machine.execBrev w s
  | .bfe w => Sys2Proof.Machine.execBfe w s
  | .bfi w => Sys2Proof.Machine.execBfi w s
  | .icmp w => Sys2Proof.Machine.execIcmp w s
  | .fadd w => Sys2Proof.Machine.execFadd w s
  | .fsub w => Sys2Proof.Machine.execFsub w s
  | .fmul w => Sys2Proof.Machine.execFmul w s
  | .ffma w => Sys2Proof.Machine.execFfma w s
  | .fmin w => Sys2Proof.Machine.execFmin w s
  | .fmax w => Sys2Proof.Machine.execFmax w s
  | .fcmp w => Sys2Proof.Machine.execFcmp w s
  | .frnd w => Sys2Proof.Machine.execFrnd w s
  | .frcp w => Sys2Proof.Machine.execFrcp w s
  | .frsq w => Sys2Proof.Machine.execFrsq w s
  | .fsqrt w => Sys2Proof.Machine.execFsqrt w s
  | .fdiv w => Sys2Proof.Machine.execFdiv w s
  | .fexp2 w => Sys2Proof.Machine.execFexp2 w s
  | .flog2 w => Sys2Proof.Machine.execFlog2 w s
  | .fsin w => Sys2Proof.Machine.execFsin w s
  | .fcos w => Sys2Proof.Machine.execFcos w s
  | .fclass w => Sys2Proof.Machine.execFclass w s
  | .fdot2 w => Sys2Proof.Machine.execFdot2 w s
  | .cvt w => Sys2Proof.Machine.execCvt w s
  | .cvtq w => Sys2Proof.Machine.execCvtq w s
  | .cvtqd w => Sys2Proof.Machine.execCvtqd w s
  | .pack w => Sys2Proof.Machine.execPack w s
  | .unpack w => Sys2Proof.Machine.execUnpack w s
  | .shfl w => Sys2Proof.Machine.execShfl w s
  | .shflx w => Sys2Proof.Machine.execShflx w s
  | .bcst w => Sys2Proof.Machine.execBcst w s
  | .vote w => Sys2Proof.Machine.execVote w s
  | .matchl w => Sys2Proof.Machine.execMatchl w s
  | .redl w => Sys2Proof.Machine.execRedl w s
  | .scanl w => Sys2Proof.Machine.execScanl w s
  | .firstl w => Sys2Proof.Machine.execFirstl w s
  | .mtos w => Sys2Proof.Machine.execMtos w s
  | .stom w => Sys2Proof.Machine.execStom w s
  | .step => Sys2Proof.Machine.execStep s
  | .stepq w => Sys2Proof.Machine.execStepq w s
  | .sread w => Sys2Proof.Machine.execSread w s
  | .swrite w => Sys2Proof.Machine.execSwrite w s
  | .xread w => Sys2Proof.Machine.execXread w s
  | .xwrite w => Sys2Proof.Machine.execXwrite w s
  | .sprint w => Sys2Proof.Machine.execSprint w s
  | .sprel w => Sys2Proof.Machine.execSprel w s
  | .assertw w => Sys2Proof.Machine.execAssertw w s
  | .bkpt w => Sys2Proof.Machine.execBkpt w s
  | .yieldw w => Sys2Proof.Machine.execYieldw w s
  | .tdset w => Sys2Proof.Machine.execTdset w s
  | .tdget w => Sys2Proof.Machine.execTdget w s
  | .ld w => Sys2Proof.Machine.execLd w s
  | .st w => Sys2Proof.Machine.execSt w s
  | .lds w => Sys2Proof.Machine.execLds w s
  | .sts w => Sys2Proof.Machine.execSts w s
  | .ldl w => Sys2Proof.Machine.execLdl w s
  | .stl w => Sys2Proof.Machine.execStl w s
  | .ldu w => Sys2Proof.Machine.execLdu w s
  | .stu w => Sys2Proof.Machine.execStu w s
  | .ldt w => Sys2Proof.Machine.execLdt w s
  | .stt w => Sys2Proof.Machine.execStt w s
  | .pref w => Sys2Proof.Machine.execPref w s
  | .fence w => Sys2Proof.Machine.execFence w s
  | .atom w => Sys2Proof.Machine.execAtom w s
  | .atomn w => Sys2Proof.Machine.execAtomn w s
  | .atoms w => Sys2Proof.Machine.execAtoms w s
  | .atomsn w => Sys2Proof.Machine.execAtomsn w s
  | .atomu w => Sys2Proof.Machine.execAtomu w s
  | .bar w => Sys2Proof.Machine.execBar w s
  | .bara w => Sys2Proof.Machine.execBara w s
  | .barw w => Sys2Proof.Machine.execBarw w s
  | .tbinit w => Sys2Proof.Machine.execTbinit w s
  | .tbarr w => Sys2Proof.Machine.execTbarr w s
  | .tbexp w => Sys2Proof.Machine.execTbexp w s
  | .tbwait w => Sys2Proof.Machine.execTbwait w s
  | .tbtest w => Sys2Proof.Machine.execTbtest w s
  | .cpy w => Sys2Proof.Machine.execCpy w s
  | .cpyc w => Sys2Proof.Machine.execCpyc w s
  | .cpyt w => Sys2Proof.Machine.execCpyt w s
  | .stage w => Sys2Proof.Machine.execStage w s
  | .gpool w => Sys2Proof.Machine.execGpool w s
  | .scata w => Sys2Proof.Machine.execScata w s
  | .fld w => Sys2Proof.Machine.execFld w s
  | .fst w => Sys2Proof.Machine.execFst w s
  | .fput w => Sys2Proof.Machine.execFput w s
  | .fget w => Sys2Proof.Machine.execFget w s
  | .fatom w => Sys2Proof.Machine.execFatom w s
  | .fatomn w => Sys2Proof.Machine.execFatomn w s
  | .palloc w => Sys2Proof.Machine.execPalloc w s
  | .pfree w => Sys2Proof.Machine.execPfree w s
  | .paddr w => Sys2Proof.Machine.execPaddr w s
  | .ldp w => Sys2Proof.Machine.execLdp w s
  | .stp w => Sys2Proof.Machine.execStp w s
  | .stpr w => Sys2Proof.Machine.execStpr w s
  | .post w => Sys2Proof.Machine.execPost w s
  | .precv w => Sys2Proof.Machine.execPrecv w s
  | .pstat w => Sys2Proof.Machine.execPstat w s
  | .mma w => Sys2Proof.Machine.execMma w s
  | .mmaq w => Sys2Proof.Machine.execMmaq w s
  | .mmas w => Sys2Proof.Machine.execMmas w s
  | .mzero w => Sys2Proof.Machine.execMzero w s
  | .mld w => Sys2Proof.Machine.execMld w s
  | .mst w => Sys2Proof.Machine.execMst w s
  | .mrd w => Sys2Proof.Machine.execMrd w s
  | .wmv w => Sys2Proof.Machine.execWmv w s
  | .wload w => Sys2Proof.Machine.execWload w s
  | .movi w => Sys2Proof.Machine.execMovi w s
  | .addi w => Sys2Proof.Machine.execAddi w s
  | .andi w => Sys2Proof.Machine.execAndi w s
  | .ori w => Sys2Proof.Machine.execOri w s
  | .xori w => Sys2Proof.Machine.execXori w s
  | .muli w => Sys2Proof.Machine.execMuli w s
  | .cmpi w => Sys2Proof.Machine.execCmpi w s
  | .movhi w => Sys2Proof.Machine.execMovhi w s
  | .ldc w => Sys2Proof.Machine.execLdc w s
  | .sigchk imm => Sys2Proof.Machine.execSigchk imm s
  | .bra c disp => Sys2Proof.Machine.execBra c disp s
  | .call c link disp => Sys2Proof.Machine.execCall c link disp s
  | .ret c r => Sys2Proof.Machine.execRet c r s
  | .jmps c r => Sys2Proof.Machine.execJmps c r s
  | .loop r disp => Sys2Proof.Machine.execLoop r disp s
  | .split sense n els join => Sys2Proof.Machine.execSplit sense n els join s
  | .jtab x len disp => Sys2Proof.Machine.execJtab x len disp s
  | .exit c => Sys2Proof.Machine.execExit c s
  | .trap c code => Sys2Proof.Machine.execTrap c code s
  | .rft => Sys2Proof.Machine.execRft s
  | .contain id disp => Sys2Proof.Machine.execContain id disp s
  | .uncontain => Sys2Proof.Machine.execUncontain s
  | .pairNop a t => Sys2Proof.Machine.execPairNop a t s
  | .pairMov a t => Sys2Proof.Machine.execPairMov a t s
  | .pairIadd a t => Sys2Proof.Machine.execPairIadd a t s
  | .pairIsub a t => Sys2Proof.Machine.execPairIsub a t s
  | .pairImul a t => Sys2Proof.Machine.execPairImul a t s
  | .pairAnd a t => Sys2Proof.Machine.execPairAnd a t s
  | .pairOr a t => Sys2Proof.Machine.execPairOr a t s
  | .pairXor a t => Sys2Proof.Machine.execPairXor a t s
  | .pairAndn a t => Sys2Proof.Machine.execPairAndn a t s
  | .pairShl a t => Sys2Proof.Machine.execPairShl a t s
  | .pairShr a t => Sys2Proof.Machine.execPairShr a t s
  | .pairSar a t => Sys2Proof.Machine.execPairSar a t s
  | .pairImin a t => Sys2Proof.Machine.execPairImin a t s
  | .pairImax a t => Sys2Proof.Machine.execPairImax a t s
  | .pairFadd a t => Sys2Proof.Machine.execPairFadd a t s
  | .pairFsub a t => Sys2Proof.Machine.execPairFsub a t s
  | .pairFmul a t => Sys2Proof.Machine.execPairFmul a t s
  | .pairFmin a t => Sys2Proof.Machine.execPairFmin a t s
  | .pairFmax a t => Sys2Proof.Machine.execPairFmax a t s
  | .barrierReleaseDelivery launch core id island => Sys2Proof.Machine.execBarrierReleaseDelivery launch core id island s
  | .trapDelivery launch core => Sys2Proof.Machine.execTrapDelivery launch core s
  | .runTimer g => Sys2Proof.Machine.execRunTimer g s
  | .stepWatchdog g => Sys2Proof.Machine.execStepWatchdog g s
  | .mmaqRendezvousTimeout g sp => Sys2Proof.Machine.execMmaqRendezvousTimeout g sp s
  | .stepEnter g => Sys2Proof.Machine.execStepEnter g s
  | .haloPushArrival p => Sys2Proof.Machine.execHaloPushArrival p s
  | .cellSetSwap launch core => Sys2Proof.Machine.execCellSetSwap launch core s
  | .longLatencyResultLand g sp idx => Sys2Proof.Machine.execLongLatencyResultLand g sp idx s
  | .translationWalkComplete core page => Sys2Proof.Machine.execTranslationWalkComplete core page s
  | .storePerformedAtHome idx => Sys2Proof.Machine.execStorePerformedAtHome idx s
  | .containmentUnwind g => Sys2Proof.Machine.execContainmentUnwind g s
  | .matrixGrant island => Sys2Proof.Machine.execMatrixGrant island s
  | .matrixOpEnd core unit => Sys2Proof.Machine.execMatrixOpEnd core unit s
  | .engineCompletion thread => Sys2Proof.Machine.execEngineCompletion thread s
  | .engineLineLanded thread line => Sys2Proof.Machine.execEngineLineLanded thread line s
  | .sectorLanding p => Sys2Proof.Machine.execSectorLanding p s
  | .fabricRequestAtTarget r => Sys2Proof.Machine.execFabricRequestAtTarget r s
  | .fabricResponse id data bad => Sys2Proof.Machine.execFabricResponse id data bad s
  | .fabricTimeout id => Sys2Proof.Machine.execFabricTimeout id s
  | .fabricRefusal id => Sys2Proof.Machine.execFabricRefusal id s
  | .escapeDiversion id => Sys2Proof.Machine.execEscapeDiversion id s
  | .parcelTransitStart thread => Sys2Proof.Machine.execParcelTransitStart thread s
  | .parcelFirstPacket p => Sys2Proof.Machine.execParcelFirstPacket p s
  | .parcelLanded p data tags bad => Sys2Proof.Machine.execParcelLanded p data tags bad s
  | .parcelAck thread => Sys2Proof.Machine.execParcelAck thread s
  | .parcelReturn thread cause => Sys2Proof.Machine.execParcelReturn thread cause s
  | .admission queue cores => Sys2Proof.Machine.execAdmission queue cores s
  | .teamStart launch => Sys2Proof.Machine.execTeamStart launch s
  | .launchCompletion launch => Sys2Proof.Machine.execLaunchCompletion launch s
  | .preemption launch core => Sys2Proof.Machine.execPreemption launch core s
  | .lowestTeamSwapBack launch core => Sys2Proof.Machine.execLowestTeamSwapBack launch core s
  | .pageMigration page pa => Sys2Proof.Machine.execPageMigration page pa s
  | .meltUpdate melt => Sys2Proof.Machine.execMeltUpdate melt s
  | .leaseExpiry island => Sys2Proof.Machine.execLeaseExpiry island s
  | .fllStep island => Sys2Proof.Machine.execFllStep island s
  | .thermalGateBegin => Sys2Proof.Machine.execThermalGateBegin s
  | .thermalGateEnd => Sys2Proof.Machine.execThermalGateEnd s
  | .linkFailure l => Sys2Proof.Machine.execLinkFailure l s
  | .dieFence die => Sys2Proof.Machine.execDieFence die s
  | .cxlPortFailure port => Sys2Proof.Machine.execCxlPortFailure port s
  | .dynamicCapacityRelease base bytes => Sys2Proof.Machine.execDynamicCapacityRelease base bytes s
  | .duplicateDeviceNumber planes => Sys2Proof.Machine.execDuplicateDeviceNumber planes s
  | .patrolScrub addr bad cost => Sys2Proof.Machine.execPatrolScrub addr bad cost s
  | .matrixSelfTest core unit sub fail cost => Sys2Proof.Machine.execMatrixSelfTest core unit sub fail cost s
  | .deviceReset verified version => Sys2Proof.Machine.execDeviceReset verified version s
  | .readyBitRise reg bit => Sys2Proof.Machine.execReadyBitRise reg bit s
  | .hostLinkTraining mode => Sys2Proof.Machine.execHostLinkTraining mode s
  | .powerLossWarning => Sys2Proof.Machine.execPowerLossWarning s
  | .qtailWrite queue val => Sys2Proof.Machine.execQtailWrite queue val s
  | .qbaseWrite queue val => Sys2Proof.Machine.execQbaseWrite queue val s
  | .qctlWrite queue val => Sys2Proof.Machine.execQctlWrite queue val s
  | .tbaseWrite val => Sys2Proof.Machine.execTbaseWrite val s
  | .arenaCommand tcmd => Sys2Proof.Machine.execArenaCommand tcmd s
  | .exportCommand tcmd => Sys2Proof.Machine.execExportCommand tcmd s
  | .importCommand tcmd => Sys2Proof.Machine.execImportCommand tcmd s
  | .fabidWrite val => Sys2Proof.Machine.execFabidWrite val s
  | .ftlimitWrite val => Sys2Proof.Machine.execFtlimitWrite val s
  | .islctlWrite island val => Sys2Proof.Machine.execIslctlWrite island val s
  | .checkpointTake => Sys2Proof.Machine.execCheckpointTake s
  | .checkpointRestore => Sys2Proof.Machine.execCheckpointRestore s
  | .attestationRequest => Sys2Proof.Machine.execAttestationRequest s
  | .attestationComplete report rsa slh => Sys2Proof.Machine.execAttestationComplete report rsa slh s
  | .halt core => Sys2Proof.Machine.execHalt core s
  | .resume core => Sys2Proof.Machine.execResume core s
  | .rdreg core => Sys2Proof.Machine.execRdreg core s
  | .wrreg core => Sys2Proof.Machine.execWrreg core s
  | .rdmem core => Sys2Proof.Machine.execRdmem core s
  | .wrmem core => Sys2Proof.Machine.execWrmem core s
  | .oneword core => Sys2Proof.Machine.execOneword core s
  | .endLaunch core => Sys2Proof.Machine.execEndLaunch core s
  | .hostBar2Access a => Sys2Proof.Machine.execHostBar2Access a s
  | .registerWrite off bytes val => Sys2Proof.Machine.execRegisterWrite off bytes val s
  | .islandCoreCycle island wallTick => Sys2Proof.Machine.execIslandCoreCycle island wallTick s
  | .hostWriteCompletedAtMemory idx => Sys2Proof.Machine.execHostWriteCompletedAtMemory idx s

end Sys2Proof.Machine
end

