-- ==== Sys2Proof/Machine/Turn.lean ====
section
/-!
DEFINITION. What moves next (log 3): waits whose condition has come are over (`State.wake`), which splits are ready and
which of them a partition takes (R33, R146, R175 to R177, R307), the events that the part makes by itself, the fetch of a
word (R186, R405), and how a word is offered as the very next instruction (`State.loadWord`).
-/

namespace Sys2Proof.Machine

open Sys2Proof

/-! ### Waits that end -/

/-- Whether the wait of a split that no event ends is over: a transaction barrier has moved on (R277), the lines are
present (R112), the ports are ready or have failed (R352, R443), the fence's conditions hold (R261).
Log 26: DEDUCED, unsafe. -/
def State.waitOver (s : State) (it : Iss) : Bool :=
  match it.sp.wait with
  | .tb a p _ =>
    match scrAt s it a 16 with
    | some x => (Tb.of (scrRead s it x 16)).phase != p
    | none => false
  | .lines ls => ls.all fun (x : Nat × Nat) => match s.ctx? it.g.launch x.1 with
      | some c => Map.get c.counts 0 x.2 == 0
      | none => true
  | .ports ps => ps.all fun p => s.readyBit 0 (28 + p) || s.cxlDown.contains p
  | .fence ord obs => fenceMet s it.key it.sp.mask ord obs
  | _ => false

/-- One split wakes: a word whose access was held goes to issue again, the others are over. -/
def State.wakeSplit (s : State) (k j : Nat) : State :=
  match s.issAt k j with
  | none => s
  | some it =>
    if it.sp.live && s.running it.g && s.waitOver it then
      match it.sp.wait with
      | .lines _ | .ports _ => s.modSplit k j fun sp => { sp with wait := .none }
      | .fence ord obs => (s.fenced k it.sp.mask ord obs).resume k j
      | .tb a _ acq =>
        ((match scrAt s it a 16 with
          | some x => (s.tbRead it x).waited it acq (s.tbDone it x)
          | none => s)).resume k j
      | _ => s.resume k j
    else s

/-- The splits of all groups that satisfy a test. -/
def State.splitsWith (s : State) (f : Split → Bool) : List (Nat × Nat) :=
  s.groups.flatMap fun (x : Nat × Group) => (x.2.liveSplits.filter fun j => f (x.2.split j)).map fun j => (x.1, j)

/-- Waits that end by themselves. -/
def Split.waitsAlone (sp : Split) : Bool :=
  match sp.wait with
  | .tb .. | .lines .. | .ports .. | .fence .. => true
  | _ => false

/-- ONEWORD (R414): the word has issued; its split meets the boundary trap, or the word itself trapped, and the delivery
of that trap is the reply; a split that the word has ended gives a plain reply. The boundary trap is the next one to be
delivered; no cause is stated for it (log 14). Log 14: DESIGN CHOICE, unsafe. -/
def State.onewordEnd (s : State) (n : Nat) : State :=
  match (s.launch? n).bind (·.oneword) with
  | some (k, j, true) =>
    let core := k / 1024 % 160
    let finish (s : State) : State := s.modLaunch n fun l => { l with oneword := none }
    match s.group? k with
    | none => finish (s.reply core 0 0)
    | some g =>
      let sp := g.split j
      if !sp.live then finish (s.reply core 0 0)
      else if sp.wait = .none && !g.standsAtJoin j then
        let r : TrapRec := ⟨0, lowest sp.mask, sp.pc, sp.mask, 0, 0, k, j, (s.coreOf core).cyc⟩
        (s.modSplit k j fun sp => { sp with wait := .trapped }).modCtx n core fun c => { c with trapq := r :: c.trapq }
      else s
  | _ => s

/-- Gathers whose lists are not read yet. -/
def State.unread (s : State) : List Nat :=
  (s.threads.filter fun (x : Nat × Thread) => !x.2.started && !x.2.held
    && (match x.2.cmd with | .gpool .. => true | _ => false)).map Prod.fst

/-- Whether an unwind of a group is due (R425). -/
def Group.unwinding (g : Group) : Bool := match g.region with | some r => r.due.isSome | none => false

/-- No word of the group issues before its unwind: its windows are over, and its results land (R425).
Log 23: DEDUCED, unsafe. -/
def Group.closeAll (g : Group) : Group :=
  { g with splits := g.splits.map fun sp => { sp with pend := sp.pend.map fun p => { p with left := 0 } } }

/-- What has come about since the step before: waits end, gathers start, traps that are due are raised, windows that the
next word or an unwind closes are closed, ONEWORD comes to its boundary. Nothing moves while the clocks are gated (R445).
Log 3: DESIGN CHOICE, unsafe. -/
def State.wake (s : State) : State :=
  if s.gate then s
  else
    let s := (s.splitsWith Split.waitsAlone).foldl (fun s (x : Nat × Nat) => s.wakeSplit x.1 x.2) s
    let s := s.unread.foldl State.startThread s
    let s := (s.groupKeys fun g => g.due.isSome || g.fenced).foldl State.raiseDue s
    let s := (s.groupKeys fun g => g.ate.isSome).foldl State.consumeEaten s
    let s := ((s.launches.filter fun (x : Nat × Launch) => x.2.oneword.isSome).map Prod.fst).foldl State.onewordEnd s
    let s := (s.groupKeys Group.unwinding).foldl (fun s k => s.modGroup k Group.closeAll) s
    (s.splitsWith fun sp => sp.wait == .none && sp.held.isNone && !sp.pend.isEmpty).foldl
      (fun s (x : Nat × Nat) => s.closeWindows x.1 x.2) s

/-- The next split to issue: of the lowest partition that has still to issue. -/
def State.nextPick (s : State) : Option (Nat × Nat) :=
  let rs := s.readyIn fun _ => true
  (rs.filter (s.mayTake rs)).foldl (fun (b : Option (Nat × Nat)) x =>
    match b with
    | none => some x
    | some y => if s.partitionOf x.1 < s.partitionOf y.1 then some x else b) none

/-- Ready splits of a group's partition. -/
def State.rivals (s : State) (k : Nat) : List (Nat × Nat) := s.readyIn fun o => s.partitionOf o == s.partitionOf k

/-- A split is taken: it issues now, ready groups of its partition are passed over once more and its own group's count
returns to 0 (R177; not while they yield, R307), and ONEWORD is spent. An access that was held takes nothing from its
partition. -/
def State.enter (s : State) (k j : Nat) : State :=
  if s.heldAt k j then { s with cur := k, curSplit := j }
  else
    let part := s.partitionOf k
    let others := ((s.rivals k).filter fun (x : Nat × Nat) => x.1 != k && !s.heldAt x.1 x.2).map Prod.fst
    let s := others.eraseDups.foldl (fun s o => s.modGroup o fun g =>
      if g.yieldLeft = 0 then { g with passed := min promoteAt (g.passed + 1) } else g) s
    let s := s.modGroup k fun g => { g with passed := 0 }
    let s := match s.group? k with
      | some g => s.modLaunch g.launch fun l => if l.oneword = some (k, j, false) then { l with oneword := some (k, j, true) } else l
      | none => s
    let s := s.modIsland (islandOf (part / 16)) fun x => { x with reached := part + 1 }
    { s with cur := k, curSplit := j }

/-! ### Events that the part makes by itself -/

/-- Whether an event of the part's own can take place now. -/
def State.allows (s : State) : Instr → Bool
  | .runTimer k => Option.isSome (happensRunTimer k s)
  | .stepWatchdog k => Option.isSome (happensStepWatchdog k s)
  | .mmaqRendezvousTimeout k j => Option.isSome (happensMmaqRendezvousTimeout k j s)
  | .stepEnter k => Option.isSome (happensStepEnter k s)
  | .containmentUnwind k => Option.isSome (happensContainmentUnwind k s)
  | .longLatencyResultLand k j i => Option.isSome (happensLongLatencyResultLand k j i s)
  | .barrierReleaseDelivery n c i x => Option.isSome (happensBarrierReleaseDelivery n c i x s)
  | .trapDelivery n c => Option.isSome (happensTrapDelivery n c s)
  | .cellSetSwap n c => Option.isSome (happensCellSetSwap n c s)
  | .haloPushArrival p => Option.isSome (happensHaloPushArrival p s)
  | .storePerformedAtHome i => Option.isSome (happensStorePerformedAtHome i s)
  | .hostWriteCompletedAtMemory i => Option.isSome (happensHostWriteCompletedAtMemory i s)
  | .matrixGrant i => Option.isSome (happensMatrixGrant i s)
  | .matrixOpEnd c u => Option.isSome (happensMatrixOpEnd c u s)
  | .engineCompletion t => Option.isSome (happensEngineCompletion t s)
  | .fabricTimeout i => Option.isSome (happensFabricTimeout i s)
  | .parcelTransitStart t => Option.isSome (happensParcelTransitStart t s)
  | .parcelFirstPacket p => Option.isSome (happensParcelFirstPacket p s)
  | .parcelLanded p d ts b => Option.isSome (happensParcelLanded p d ts b s)
  | .parcelAck t => Option.isSome (happensParcelAck t s)
  | .parcelReturn t c => Option.isSome (happensParcelReturn t c s)
  | .leaseExpiry i => Option.isSome (happensLeaseExpiry i s)
  | .matrixSelfTest c u sub f n => Option.isSome (happensMatrixSelfTest c u sub f n s)
  | .fllStep i => Option.isSome (happensFllStep i s)
  | .admission q cs => Option.isSome (happensAdmission q cs s)
  | .teamStart n => Option.isSome (happensTeamStart n s)
  | .launchCompletion n => Option.isSome (happensLaunchCompletion n s)
  | .preemption n c => Option.isSome (happensPreemption n c s)
  | .lowestTeamSwapBack n c => Option.isSome (happensLowestTeamSwapBack n c s)
  | .arenaCommand c => Option.isSome (happensArenaCommand c s)
  | .exportCommand c => Option.isSome (happensExportCommand c s)
  | .importCommand c => Option.isSome (happensImportCommand c s)
  | .checkpointTake => s.taking && s.drained && !s.gate
  | .halt c => Option.isSome (happensHalt c s)
  | .resume c => Option.isSome (happensResume c s)
  | .rdreg c => Option.isSome (happensRdreg c s)
  | .wrreg c => Option.isSome (happensWrreg c s)
  | .rdmem c => Option.isSome (happensRdmem c s)
  | .wrmem c => Option.isSome (happensWrmem c s)
  | .oneword c => Option.isSome (happensOneword c s)
  | .endLaunch c => Option.isSome (happensEndLaunch c s)
  | _ => false

/-- Events that groups may have. -/
def groupEvents (x : Nat × Group) : List Instr :=
  let k := x.1
  let g := x.2
  (if g.timerDue then [.runTimer k] else [])
  ++ (if g.region.isSome then [.containmentUnwind k] else [])
  ++ (if g.e = 0 then [] else [.stepWatchdog k, .stepEnter k])
  ++ (List.range g.splits.length).flatMap fun j =>
      (match (g.split j).wait with
        | .mmaq .. => [.mmaqRendezvousTimeout k j]
        | .bar c i _ _ true _ => [.barrierReleaseDelivery g.launch c i (islandOf g.core)]
        | _ => [])
      ++ (List.range (g.split j).pend.length).map fun i => .longLatencyResultLand k j i

/-- Events that contexts may have. -/
def ctxEvents (x : Nat × Ctx) : List Instr :=
  (if x.2.trapq.isEmpty then [] else [.trapDelivery x.2.launch x.2.core])
  ++ (if x.2.sets ≤ 1 then [] else [.cellSetSwap x.2.launch x.2.core])

/-- Events that engine threads may have. -/
def threadEvents (x : Nat × Thread) : List Instr :=
  match x.2.cmd with
  | .post .. => [.parcelTransitStart x.1, .parcelFirstPacket (.own x.1), .parcelLanded (.own x.1) [] [] [], .parcelAck x.1]
      ++ (List.range 5).map fun c => .parcelReturn x.1 (c + 1)
  | _ => [.engineCompletion x.1]

/-- Events that matrix units may have: an operation ends, and a self-test that a checksum failure has made due is made, of
whose result nothing is presumed but that the sub-array passes (R430, R431). Log 31: DESIGN CHOICE, unsafe. -/
def unitEvents (x : Nat × MatUnit) : List Instr :=
  .matrixOpEnd (x.1 / 4) (x.1 % 4) :: x.2.testDue.map fun sub => .matrixSelfTest (x.1 / 4) (x.1 % 4) sub false 0

/-- The scheduler's events: admission first, then teams, then contexts that come back, the higher class first, then
contexts that go out. -/
def State.schedulerEvents (s : State) : List Instr :=
  let rank (x : Nat × Ctx) : Nat := match s.launch? x.2.launch with
    | some l => victimRank l x.2.launch * 160 + x.2.core
    | none => 0
  let ctxs (r : Residency) : List Ctx :=
    ((s.ctxs.filter fun (x : Nat × Ctx) => x.2.res == r).foldl (fun (m : Map Ctx) x => Map.ins m (rank x) x.2) []).map
      Prod.snd
  (s.queues.map fun (x : Nat × Queue) => .admission x.1 (match x.2.headRecord with | some r => s.choiceFor r | none => []))
  ++ (s.launches.flatMap fun (x : Nat × Launch) => [.teamStart x.1, .launchCompletion x.1])
  ++ ((ctxs .saved).flatMap fun c =>
      .preemption c.launch c.core :: (if c.away < 9904 then [] else [.lowestTeamSwapBack c.launch c.core]))
  ++ ((ctxs .shadow).map fun c => .preemption c.launch c.core)
  ++ ((ctxs .active).map fun c => .preemption c.launch c.core)

/-- The monitor's commands. -/
def State.monitorEvents (s : State) : List Instr :=
  (s.cores.filter fun (x : Nat × CoreSt) => s.mailPending x.1).flatMap fun (x : Nat × CoreSt) =>
    [.halt x.1, .resume x.1, .rdreg x.1, .wrreg x.1, .rdmem x.1, .wrmem x.1, .oneword x.1, .endLaunch x.1]

/-- What the part may do by itself, in the order in which it is tried. Log 3: DESIGN CHOICE, unsafe. -/
def State.ownEvents (s : State) : List Instr :=
  s.groups.flatMap groupEvents ++ s.ctxs.flatMap ctxEvents
  ++ (if s.stores.isEmpty && s.atoms.isEmpty then [] else [.storePerformedAtHome 0])
  ++ (if s.hostWrites.isEmpty then [] else [.hostWriteCompletedAtMemory 0])
  ++ (if s.pushes.isEmpty then [] else [.haloPushArrival (.transit 0)])
  ++ s.units.flatMap unitEvents ++ s.threads.flatMap threadEvents
  ++ s.islands.flatMap (fun (x : Nat × Island) => [.leaseExpiry x.1, .fllStep x.1])
  ++ s.fabReqs.map (fun (x : Nat × FabReq) => .fabricTimeout x.1)
  ++ s.schedulerEvents ++ s.monitorEvents ++ [.checkpointTake]
  ++ (if bit s.regs.tcmd 31 then [.arenaCommand s.regs.tcmd, .exportCommand s.regs.tcmd, .importCommand s.regs.tcmd] else [])

/-- The default when nothing else names what moves next (log 3): an event of the part's own; else a word of a partition
that has still to issue in this cycle of its island; else the islands in order, each granting its matrix requests before
its cycle is over. Log 3: DESIGN CHOICE, unsafe. -/
def State.defaultTurn (s : State) : State × Turn :=
  match s.ownEvents.find? s.allows with
  | some i => (s, .event i)
  | none =>
    match s.nextPick with
    | some (k, j) => (s, .issue k j)
    | none =>
      let i := s.turn % Config.islands
      if s.allows (.matrixGrant i) then (s, .event (.matrixGrant i))
      else ({ s with turn := s.turn + 1 }, .event (.islandCoreCycle i (i % 10 == 0)))

/-- What moves next: the head of the agenda, or the default. Log 3: DESIGN CHOICE, unsafe. -/
def State.nextTurn (s : State) : State × Turn :=
  match s.agenda with
  | t :: rest => ({ s with agenda := rest }, t)
  | [] => s.defaultTurn

/-- Whether a group has a register of this number (R60). -/
def RegId.inGroup : RegId → Bool
  | .v n l => decide (n < 128 ∧ l < 32)
  | .s n => decide (n < 192)
  | .m n => decide (0 < n ∧ n < 8)

/-- What an error that cannot be corrected does to data (R419): it is poisoned. A flip of a tile's element leaves a free
value, and is found at the row's next check; a clean line of private memory is fetched again.
Log 24: DEDUCED, unsafe. -/
def State.damage (s : State) : Damage → State
  | .reg k r => if r.inGroup then s.modGroup k fun g => { g with bad := Nats.ins g.bad (g.badKey r) } else s
  | .split k j => if j < 4 then s.modGroup k fun g => { g with bad := Nats.ins g.bad (splitKey j) } else s
  | .elem n core t i =>
    if i < 4096 then
      ({ s with free := s.free + 1 } : State).modCtx n core fun c =>
        let x := Map.get c.tiles {} t
        { c with
            tiles := Map.put c.tiles {} t
              { x with elems := Map.put x.elems 0 i (Config.freeWord s.free), odd := Nats.ins x.odd i } }
    else s
  | .scr n core off => s.modCtx n core fun c => if off < c.sliceBytes then { c with bad := Nats.ins c.bad (granule off) } else c
  | .line k w => s.modGroup k fun g =>
      if (List.range 32).any fun l => (List.range 4).any fun b => g.priv.any fun x => x.1 == privKey l (4 * w + b) then
        { g with bad := (List.range 4).foldl (fun bad q => Nats.ins bad (privBadKey (8 * q) (4 * w))) g.bad }
      else g
  | .mem pa => if (kindOf pa).plain then s.spoil pa else s
  | .weights d u => if d < 4 ∧ u < 2 ^ 23 then s.spoilWeights d u else s

/-- The last word of a split keeps its partition's issue slot for n more cycles, where the spec's figure depends on
traffic (R255). Log 4: DESIGN CHOICE, safe. -/
def State.stallFor (s : State) (k j n : Nat) : State :=
  match s.group? k with
  | none => s
  | some g =>
    if (g.split j).lat.isNone then
      s.modCore g.core fun c => { c with slots := Map.put c.slots 0 (g.slot / 4) (Map.get c.slots 0 (g.slot / 4) + n) }
    else s

/-- What a turn of the model's own does (log 3): the choice of older writes, the read of a load that is made late, a
read of BAR0, poison of a CXL device, an evicted private line, a write of another host to the pool, a parcel that a peer
takes back, a die that firmware maps anew, a soft error in the safe region or in a store of data, the time of a word whose
figure is a matter of traffic. -/
def State.ownTurn (s : State) : Turn → State
  | .reads o => { s with older := o }
  | .late id => s.readLate id
  | .register off n => s.readRegisters off n
  | .poison pa => if kindOf pa == .cxl then { s with bad := poisonAfter s.bad (pa / 128 * 128) 128 true } else s
  | .evict k w =>
    match s.group? k with
    | some g =>
      match s.launch? g.launch with
      | some l =>
        if g.gone || s.gate || l.r.psize ≤ 4 * w then s
        else (l.privLine g w).foldl (fun s p => s.writeBy (s.laneOf k) (l.phys p.va) p.bytes false p.bad) s
      | none => s
    | none => s
  | .abandon dev tag =>
    match s.landings.find? fun (l : Nat × Nat × Nat × Nat) => l.1 == dev && l.2.1 == tag with
    | some l => if s.gate || !s.regs.fabEn then s
        else { s with landings := s.landings.filter (· ≠ l) : State }.modSlot l.2.2.1 l.2.2.2 Slot.release
    | none => s
  | .remap d cyc wall =>
    if 4 ≤ d || s.ctxs.any (fun (x : Nat × Ctx) => dieOf x.2.core == d && x.2.res != .saved) then s
    else
      ((List.range Config.coresPerDie).foldl (fun s i => s.modCore (Config.coresPerDie * d + i) fun c =>
        { c with cyc := BitVec.ofNat 64 (cyc.getD i 0) }) s).modDie d fun x => { x with wall := BitVec.ofNat 64 wall }
  | .regionError => { s with saved := s.saved.map fun x => { x with softError := true } }
  | .softError d => s.damage d
  | .stall k j n => s.stallFor k j n
  | .pool pa bs =>
    if (kindOf pa).isHost && kindOf (pa + bs.length) == kindOf pa then s.writeBy .pool pa bs false false else s
  | _ => s

/-! ### The fetch (R186, R405) -/

/-- What comes of a fetch that finds no instruction: the cause of R207 and of R43, cause 0x31, a page outside the pins,
or poison. -/
def fetchEff (it : Iss) : Fetch → Option Eff
  | .word w =>
    match decodeWord w with
    | .ok _ => none
    | .error e =>
      let one := e == .cause01 || (match buildWord w with | some i => Instr.groupBad i it.g | none => true)
      some (.trap (it.trapBits (if one then 0x01 else 0x02) w))
  | .cause31 => some (.trap (it.trapWord 0x31 it.sp.mask it.sp.pc.toNat))
  | .outside => some (.outside (lowest it.sp.mask) it.sp.pc.toNat)
  | .poison pa => some (.poison pa)
  | .ports _ => none

/-- The instruction of a fetch. -/
def Fetch.instr : Fetch → Option Instr
  | .word w => (decodeWord w).toOption
  | _ => none

/-- What the issuing split fetches: an instruction, or the state after a fetch that finds none; nothing where no split
issues. -/
def State.fetched (s : State) : Option (Instr ⊕ State) :=
  s.iss.map fun it =>
    let f := it.fetch s
    match Fetch.instr f, fetchEff it f with
    | some i, _ => .inl i
    | none, some e => .inr (s.apply it 0 e)
    | none, none => .inr s

/-! ### A word as the very next instruction -/

/-- The launch that stands for the load of a program (log 13): an ordinary launch of one team of one group, with every
tile and the largest slice; its only pinned page holds the program. Log 13: DESIGN CHOICE, safe. -/
def loadRecord : Record :=
  { kind := 0, prio := 0, ndep := 0, npin := 1, tdn := 0, tiles := 255, tsize := 1, cw := 1, ch := 1, nteam := 1,
    scratch := 4096, deps := [], pins := 0, save := 0, pbase := 0, psize := 0, savez := 0, handler := 0, compl := 0,
    tdpre := 0, sched := 0, nsched := 0, nbar := 0, entry := 0x10000, args := [], ext := [1, 1, 1], bmode := [0, 0, 0],
    patch := [1, 1, 1], e := 0, v := 1, ctile := [1, 1, 1], face := [], clist := 0, ncore := 1, reserved := false }

/-- The die that holds the program: the first one that stands. -/
def State.loadDie (s : State) : Nat := ((List.range 4).find? fun d => !(s.die d).fenced).getD 0

/-- A word is placed at 0x10000, pinned in the HBM of a die that stands, and a group at it issues next.
Log 13: DESIGN CHOICE, safe. -/
def State.loadWord (s : State) (w : Nat) : State :=
  let n := s.nextLaunch
  let die := s.loadDie
  let core := 40 * die
  let pa := 2 ^ 37 * die + 0x10000
  let k := gkey n core 0 0
  let l : Launch :=
    { r := loadRecord, queue := 0, rslot := 0, addr := 0, cores := [⟨core, s.regs.devno, 0⟩], pins := [⟨0x10000, 1, true⟩],
      pages := [(1, ⟨pa, true⟩)], started := 1, allots := [(0, core, 0)] }
  let s := s.modDie die fun d => { d with fenced := false }
  let s := s.modIsland (islandOf core) fun x => { x with reached := 0, ending := none, level := 4 }
  let s := s.modCore core fun c => { c with slots := [] }
  let wait (u : MatUnit) : MatUnit := if u.endsNow then { u with busy := u.busy.map fun x => (x.1, 1) } else u
  { s with
    launches := Map.ins s.launches n l
    nextLaunch := n + 1
    units := s.units.map fun (x : Nat × MatUnit) => (x.1, if islandOf (x.1 / 4) = islandOf core then wait x.2 else x.2)
    ctxs := Map.ins s.ctxs (ckey n core) { launch := n, core := core, index := 0, sliceBytes := 524288 }
    groups := Map.ins s.groups k (newGroup n 0 0 core 0 loadRecord [])
    mem := Memory.writeAll s.mem pa (wordBytes w)
    bad := Nats.del s.bad (granule pa)
    gate := false
    regs := { s.regs with ckctl := bits s.regs.ckctl 30 0 }
    agenda := .issue k 0 :: s.agenda }

end Sys2Proof.Machine
end

