-- ==== Sys2Proof/Machine/Step.lean ====
section
/-!
DEFINITION. One step of the machine: what moves next is taken (log 3), a word is fetched, decoded and executed, or an event
has its effect. `State.withFetchWord` places a word as the next instruction (log 13).
-/

namespace Sys2Proof.Machine

open Sys2Proof

/-- The step of a split that is taken: the word it fetches, or what its fetch comes to. -/
def issueStep (k j : Nat) (s : State) : Host.Outcome State Fault Refusal :=
  if s.ready k j && s.mayTake (s.rivals k) (k, j) then
    let s' := s.enter k j
    match s'.fetched with
    | some (.inl i) => exec i s'
    | some (.inr s'') => .next s''
    | none => .next s
  else .next s

/-- The step of what moves next. Log 33: DESIGN CHOICE, safe. -/
def turnStep (t : Turn) (s : State) : Host.Outcome State Fault Refusal :=
  match t with
  | .issue k j => issueStep k j s
  | .event i => if i.isEvent then exec i s else .next s
  | t => .next (s.ownTurn t)

/-- One step. Log 3: DESIGN CHOICE, unsafe. -/
def step (s : State) : Host.Outcome State Fault Refusal := turnStep s.wake.nextTurn.2 s.wake.nextTurn.1

/-- s with an instruction of the given bits where step fetches its next one. Log 13: DESIGN CHOICE, safe. -/
def State.withFetchWord (s : State) (nbits w : Nat) : State := s.loadWord (w % 2 ^ min nbits 64)

end Sys2Proof.Machine
end

