-- ==== Sys2Proof/Safety.lean ====
section
/-!
DEFINITION. The terms that claims use: the canonical form of memory, a step that goes on and a safe run; and, for the
claims about instruction words, what a word that issues leaves as it was and what it changes.
-/

namespace Sys2Proof.Machine

open Sys2Proof

/-- The memory keeps its canonical form: equal memories are equal data. -/
def State.memoryCanonical (s : State) : Prop := Memory.wf s.mem = true

/-- A step that goes on. -/
def State.goesOn (s : State) : Prop := ∃ s', step s = .next s'

/-- A run of n steps without a fault or a refusal that keeps a property of states. -/
def State.safeFor (P : State → Prop) : Nat → State → Prop
  | 0, s => P s
  | n + 1, s => P s ∧ ∃ s', step s = .next s' ∧ State.safeFor P n s'

/-! ### Registers by name -/

/-- Whether a name is one of a register that can be written: a lane below 32; m1 to m7 (R63). -/
def RegId.real : RegId → Prop
  | .v _ l => l < 32
  | .s _ => True
  | .m n => n ≠ 0

/-- A register of a group by name: the current copy of an exported vn (R42). -/
def Group.readReg (g : Group) : RegId → Word
  | .v n l => g.readV n l
  | .s n => g.readS n
  | .m n => Map.get g.m 0 n

/-- The copy of an exported vn that is not the current one (R42). -/
def Group.readOther (g : Group) (n l : Nat) : Word :=
  if g.inVx n then Map.get g.v 0 (32 * n + l) else Map.get g.vx 0 (32 * (n - 112) + l)

/-- Where a register stands in a destination of `regs` registers written under a mask: the lane whose value it takes and
its place in that value, lowest bits first (R61). -/
def dstPart (d : Dst) (regs : Nat) (m : Mask) : RegId → Option (Nat × Nat)
  | .v n l => match d with
    | .v n0 => if m.getLsbD l ∧ n0 ≤ n ∧ n < n0 + regs then some (l, n - n0) else none
    | _ => none
  | .s n => match d with
    | .s n0 => if m ≠ 0 ∧ n0 ≤ n ∧ n < n0 + regs then some (lowest m, n - n0) else none
    | _ => none
  | .m _ => none

/-- What a result of `regs` registers per lane gives each register: `val` of its lane to those of the destination, nothing
to the others. -/
def dstTakes (d : Dst) (regs : Nat) (m : Mask) (val : Nat → Nat) (r : RegId) : Option Word :=
  (dstPart d regs m r).map fun p => BitVec.ofNat 32 (val p.1 / 2 ^ (32 * p.2))

/-- What a result gives one register only. -/
def oneTakes (q : RegId) (x : Word) (r : RegId) : Option Word := if r = q then some x else none

/-- Every register of g' holds what f gives it, and where f gives it nothing what it held in g; what is poisoned in g is
poisoned in g', but for the registers that f gives something (R420). -/
def Group.takes (g g' : Group) (f : RegId → Option Word) : Prop :=
  (∀ r : RegId, r.real → g'.readReg r = (f r).getD (g.readReg r))
  ∧ ∀ x, x ∈ g'.bad ↔ x ∈ g.bad ∧ ∀ r : RegId, r.real → (f r).isSome = true → g.badKey r ≠ x

/-! ### A word that issues -/

/-- The signature after a word that folds, and the outstanding results with one word less in their windows (R66, R199);
a word that was issued before and only now makes its access does neither again (R112). A word of a barrier orders what is
outstanding before what follows the barrier (R211). -/
def Iss.sigAfter (it : Iss) (w : Nat) : Word := if it.sp.held.isSome then it.sp.sig else foldWord it.sp.sig w
def Iss.windows (it : Iss) (i : Instr) : List Pend :=
  let ps := if it.sp.held.isSome then it.sp.pend else it.sp.pend.map fun p => { p with left := p.left - 1 }
  if Instr.atBarrier i then ps.map fun p => { p with shown := true } else ps

/-- The word after this one is on the same path, and no other path of the group is at its end or has just merged wrongly
(R288). -/
def Iss.flows (it : Iss) (pc : Dword) : Prop :=
  let g := it.own.modSplit it.j fun sp => { sp with pc := pc }
  g.standsAtJoin it.j = false ∧ ∀ i, g.atJoin i = false ∧ (it.own.split i).wrong = none

/-- The latency of a word, where the spec states one (R50, R209); a word that was issued before keeps what it had. -/
def Iss.latency (it : Iss) (i : Instr) : Option Nat :=
  if it.sp.held.isSome then it.sp.lat else (Instr.time i).2.map (· + it.nbTime i)

/-- The split of a word that completed: its PC, condition codes and outstanding results; the word folded into the
signature; when the next word may issue (R282); and nothing else of it changed, but for the mask that RFT left for one
re-issue (R294), what it held of a word whose access waited (R112) and the result that a full scoreboard waits for
(R201). -/
def Iss.completed (it : Iss) (i : Instr) (pc : Dword) (cc : Flags) (pend : List Pend) : Split :=
  { it.sp with pc := pc, cc := cc, sig := it.sigAfter (encode i), pend := pend, once := none, held := none
               oldest := if it.sp.held.isSome then it.sp.oldest else none
               stall := if it.sp.held.isSome then it.sp.stall else it.control i
               lat := it.latency i }

/-- Of a group g0 that issues, g' differs in no more than registers, their poison, the cycles until words may read them
(R209) and the issuing split; the copies that are not current are as before. -/
def Iss.groupFrame (it : Iss) (g0 g' : Group) : Prop :=
  g' = { g0 with v := g'.v, vx := g'.vx, s := g'.s, m := g'.m, splits := g'.splits, bad := g'.bad, lat := g'.lat }
  ∧ g'.splits.length = g0.splits.length
  ∧ (∀ j, j ≠ it.j → g'.split j = g0.split j)
  ∧ ∀ n l, 112 ≤ n → n < 112 + g0.e → l < 32 → g'.readOther n l = g0.readOther n l

/-- Of the machine, t differs from s in no more than the issuing group, which becomes g', its island's charges (R144), its
core's issue slots (R209), and the model's own counters and its list of late loads (log 2): every byte of memory, every
other group, context, launch, table and register of the part is the same. -/
def Iss.frame (it : Iss) (s t : State) (g' : Group) : Prop :=
  t.group? it.key = some g'
  ∧ (∀ k, k ≠ it.key → t.group? k = s.group? k)
  ∧ (∀ i, t.island i = { s.island i with charges := (t.island i).charges })
  ∧ (∀ c, t.coreOf c = { s.coreOf c with slots := (t.coreOf c).slots })
  ∧ t = { s with groups := t.groups, islands := t.islands, cores := t.cores, nextId := t.nextId, free := t.free,
                  loads := t.loads }
  ∧ ∀ a, Memory.read t.mem a = Memory.read s.mem a

/-- What a word adds to the charges of island n, and what it makes of the issue slots of core c. -/
def Iss.cost (it : Iss) (i : Instr) (n : Nat) : Nat :=
  if n = islandOf it.g.core ∧ it.sp.held = none then chargeOf (encode i) else 0
def Iss.slotsAfter (it : Iss) (i : Instr) (c : Nat) (m : Map Nat) : Map Nat :=
  if c = it.g.core ∧ it.sp.held = none ∧ 1 < (Instr.time i).1 then Map.put m 0 (it.g.slot / 4) (Instr.time i).1 else m

/-- What the issue of a word costs (R144, R145, R209): its charge is added to its island's, and its partition's issue
slot is taken for its issue cycles; no other island is charged, and no other slot is taken. A word that was issued
before and only now makes its access costs nothing more (R112). -/
def Iss.spends (it : Iss) (i : Instr) (s t : State) : Prop :=
  (∀ n, (t.island n).charges = (s.island n).charges + it.cost i n)
  ∧ ∀ c, (t.coreOf c).slots = it.slotsAfter i c (s.coreOf c).slots

/-- The word completes: exec answers a next state, and the word costs what it costs. But for what the word does to its
own group's registers, flags and split it is s', where s' says what else the word changes, and g0 is the group as s'
says: the registers hold what f gives them, the flags named by u are set, the split goes on at pc, and `late` is entered
among its outstanding results. -/
def Does (i : Instr) (s : State) (it : Iss) (s' : State) (g0 : Group) (pc : Dword) (f : RegId → Option Word)
    (u : FlagUpd) (late : List Pend) : Prop :=
  ∃ t g', exec i s = .next t ∧ it.frame s' t g' ∧ it.spends i s t ∧ it.groupFrame g0 g' ∧ g0.takes g' f
    ∧ g'.split it.j = it.completed i pc (it.sp.cc.upd u) (it.windows i ++ late)

/-- The word completes, the split goes on at pc, and nothing else changes but registers and flags. -/
def ComputesTo (i : Instr) (s : State) (it : Iss) (pc : Dword) (f : RegId → Option Word) (u : FlagUpd) : Prop :=
  Does i s it s it.own pc f u []

/-- The same with the PC at the next word. -/
def Computes (i : Instr) (s : State) (it : Iss) (f : RegId → Option Word) (u : FlagUpd) : Prop :=
  ComputesTo i s it (it.sp.pc + 8) f u

/-- A result that is entered now, writes `ws` and sets the flags named by u when it lands, no earlier than after the next
`la` words (R199, R201). -/
def lateResult (s : State) (la : Nat) (ws : List (RegId × Word)) (u : FlagUpd) : Pend :=
  { id := s.nextId, writes := ws, flags := u, fto := false, left := la, waits := [] }

/-- The same with the time that its word takes, where the spec states one (R209). -/
def Iss.due (it : Iss) (i : Instr) (p : Pend) : Pend := { p with lat := it.latency i }

/-- A long-latency word completes its issue (R199, R201): its result is entered, and no register or flag has changed. -/
def Enters (i : Instr) (s : State) (it : Iss) (la : Nat) (ws : List (RegId × Word)) (u : FlagUpd) : Prop :=
  Does i s it s it.own (it.sp.pc + 8) (fun _ => none) {} [it.due i (lateResult s la ws u)]

/-- The word completes at the next word with an effect outside the registers: but for the issuing split the next state is
s', with the issuing group as s' says. -/
def Leaves (i : Instr) (s : State) (it : Iss) (s' : State) (g0 : Group) : Prop :=
  Does i s it s' g0 (it.sp.pc + 8) (fun _ => none) {} []

/-- The word raises a trap: exec answers the state in which the trap is taken (R397, R399, R403). -/
def Raises (i : Instr) (s : State) (it : Iss) (t : Trap) : Prop := exec i s = .next (s.raise it.key it.j t)

/-- The word has issued and consumes poison at a physical address (R420). -/
def Consumes (i : Instr) (s : State) (it : Iss) (pa : Nat) : Prop :=
  exec i s = .next ((s.issuedAs it i true).consume it.key it.sp.pc pa)

/-- A word issues now and passes the checks that depend on its group (R43, R299), and nothing that it reads of its group
is poisoned (R420), wherever its path leads. -/
def Issued (i : Instr) (s : State) (it : Iss) : Prop :=
  s.iss = some it ∧ Instr.groupBad i it.g = false ∧ it.readsBad i = false

/-- The same, and its path goes on at pc. -/
def IssuesTo (i : Instr) (s : State) (it : Iss) (pc : Dword) : Prop := Issued i s it ∧ it.flows pc

/-- The same at the next word. -/
def Issues (i : Instr) (s : State) (it : Iss) : Prop := IssuesTo i s it (it.sp.pc + 8)

/-- The state and the issuing split as a word's effect finds them: what issue itself does is done, the charge (R144), the
signature (R66), the windows (R199) and the time (R209, R282), and what a barrier orders (R211); nothing else has
changed. -/
def State.issued (s : State) (it : Iss) (i : Instr) : State := s.issuedAs it i true
def Iss.issued (it : Iss) (s : State) (i : Instr) : Iss := it.issuedAs s i true

/-- The issuing split with its group as a cross-lane word reads it (R211). -/
def Iss.shown (it : Iss) : Iss := { it with g := it.g.withShown it.j }

/-- The word completes with the effect that makes of the machine s1: exec answers s1 with the split at pc, its mask of
one re-issue spent (R294), and what the split's new place brings about (R46, R288, R291). -/
def Becomes (i : Instr) (s : State) (it : Iss) (s1 : State) (pc : Dword) : Prop :=
  exec i s = .next ((s1.modGroup it.key fun g =>
    (g.modSplit it.j fun sp => { sp with once := none }).moveTo it.j pc).after it.key)

/-- The word has made of the machine s1 and its split parks at its own PC. -/
def Parks (i : Instr) (s : State) (it : Iss) (s1 : State) (w : Wait) : Prop :=
  exec i s = .next ((s1.modSplit it.key it.j fun sp => { sp with wait := w, once := none }).after it.key)

/-- The word has issued and waits to make its access (R112, R352): it issues again when the wait is over, with the
registers as it read them (R199). -/
def Waits (i : Instr) (s : State) (it : Iss) (w : Wait) : Prop :=
  exec i s = .next (((s.issued it i).modSplit it.key it.j fun sp =>
    { sp with wait := w, held := some (it.hold (encode i)) }).after it.key)

/-- The issuing group as it stood, with what its lanes have seen in s1: the writes and the releases that reads and
writes of memory make known to them (R119, R121). -/
def Iss.seeing (it : Iss) (s1 : State) : Group :=
  match s1.group? it.key with
  | some g => { it.own with seen := g.seen, strongReads := g.strongReads }
  | none => it.own

/-- A word that has entered one result, and made of the machine s1 (R199): of its own group no more has changed than what
its lanes have seen. -/
def EntersIn (i : Instr) (s : State) (it : Iss) (s1 : State) (late : Pend) : Prop :=
  Does i s it s1 (it.seeing s1) (it.sp.pc + 8) (fun _ => none) {} [it.due i late]

/-- A word that has made of the machine s1, and of its own group no more than what its lanes have seen. -/
def LeavesIn (i : Instr) (s : State) (it : Iss) (s1 : State) : Prop :=
  Does i s it s1 (it.seeing s1) (it.sp.pc + 8) (fun _ => none) {} []

/-- An engine word starts its thread (R128, R311): `cmd` takes a table entry with the local barrier `bar`; inside a region
it is held there (R296), outside nothing of the group has changed. -/
def Starts (i : Instr) (s : State) (it : Iss) (cmd : EngCmd) (bar : Option Nat) : Prop :=
  let s1 := (s.issued it i).startEngine (it.issued s i) cmd bar
  Becomes i s it s1 (it.sp.pc + 8) ∧ (s.inRegion it.key = false → it.flows (it.sp.pc + 8) → Leaves i s it s1 it.own)

/-- The local barrier that an engine word's D names: none, or an aligned place of the core's own slice (R310). -/
def LocalBar (s : State) (it : Iss) (d : Dst) (bar : Option Nat) : Prop :=
  match d with
  | .s n => bar = some (it.g.readS n).toNat ∧ (it.g.readS n).toNat % 16 = 0
      ∧ (slicePlace s it false (it.g.readS n).toNat).isSome = true ∧ (scrAt s it (it.g.readS n).toNat 16).isSome = true
  | _ => bar = none

/-- An engine word with active lanes, its barrier as LocalBar says, and its values checked in order, each by its offset in
the command block: where none is out of its limits the thread starts, else the first that is raises cause 0x31 with its
offset (R310). -/
def StartsIf (i : Instr) (s : State) (it : Iss) (m : Mask) (checks : List (Nat × Bool)) (cmd : EngCmd)
    (bar : Option Nat) : Prop :=
  ((∀ c ∈ checks, c.2 = false) → Starts i s it cmd bar)
  ∧ ∀ c, checks.find? (fun c => c.2) = some c →
      Raises i s it { cause := 0x31, lane := lowest m, tmask := m, aux := c.1, pc := it.sp.pc }

/-! ### Shapes of arithmetic words -/

/-- Flags that a word writes with CC set, taken from its lowest active lane; none where no lane is active (R208). -/
def ccFlags (cc : Bool) (m : Mask) (u : Nat → FlagUpd) : FlagUpd := if cc && m != 0 then u (lowest m) else {}

/-- Whenever the word issues, D takes `val` of every active lane, `regs` registers wide, and with CC set the flags are
those that `u` gives for the lowest active lane and its value; at the end of its path it does the same, and the path
completes (R288). -/
def ValueWord (i : Instr) (w : FWord XArith) (regs : Nat) (val : State → Iss → Nat → Nat)
    (u : State → Iss → Nat → Nat → FlagUpd) : Prop :=
  ∀ s it,
    let m := it.exec w.p
    let flags := ccFlags w.x.cc m fun l => u s it l (val s it l)
    (Issues i s it → Computes i s it (dstTakes w.d regs m (val s it)) flags)
    ∧ (Issued i s it →
        Becomes i s it ((s.issued it i).writeNow (it.issued s i) (laneWrites w.d regs m (val s it)) flags) (it.sp.pc + 8))

/-- The same for a long-latency word: its result is entered. -/
def LateWord (i : Instr) (w : FWord XArith) (val : State → Iss → Nat → Nat)
    (u : State → Iss → Nat → Nat → FlagUpd) : Prop :=
  ∀ s it,
    let ws := laneWrites w.d (tyRegs w.x.ty) (it.exec w.p) (val s it)
    let flags := ccFlags w.x.cc (it.exec w.p) fun l => u s it l (val s it l)
    (Issues i s it → Enters i s it w.la ws flags)
    ∧ (Issued i s it → Becomes i s it ((s.issued it i).writeLater (it.issued s i) w.la ws flags) (it.sp.pc + 8))

/-- A word of two sources that is computed element by element (R13, R87). -/
def ElementWord (i : Instr) (w : FWord XArith) (f : Nat → Nat → Nat) (u : Nat → Nat → Nat → FlagUpd) : Prop :=
  ValueWord i w (tyRegs w.x.ty)
    (fun s it l => byElem w.x.ty fun n =>
      f (elem (tyWidth w.x.ty) n (srcA w s it l)) (elem (tyWidth w.x.ty) n (srcB w s it l)))
    (fun s it l => u (srcA w s it l) (srcB w s it l))

/-- A word of one source that is computed element by element. -/
def ElementWord1 (i : Instr) (w : FWord XArith) (regs : Nat) (f : Nat → Nat) (u : Nat → Nat → FlagUpd) : Prop :=
  ValueWord i w regs (fun s it l => byElem w.x.ty fun n => f (elem (tyWidth w.x.ty) n (srcA w s it l)))
    (fun s it l => u (srcA w s it l))

end Sys2Proof.Machine
end

