-- ==== Sys2Proof/Certificates/Slice0/Obligations.lean ====
section
/-!
DEFINITION. The statements for the provers. Each says in its docstring which rule of spec/ it formalises.
-/

open Sys2Proof Sys2Proof.Machine

/-! ### Arithmetic words (chapter 10) -/

/-- R215, R216, R77: IADD, ISUB, IMUL, IMULH, IMIN, IMAX and IABS give each element of D the exact result wrapped to the
element's width, or with SAT clamped to the type, and IMAD adds D; the flags of CC come from the result before any clamp
(R65, R210). Each completes, and changes nothing but D, the flags, the PC and what issue itself changes.
(Readings and choices of the model it rests on: log 34.) -/
def Obligations.IntegerArithmeticWords : Prop :=
  ∀ w : FWord XArith,
    let t := w.x.ty
    let v := intOf t
    let fit (x : Int) : Nat := wrap (tyWidth t) (if w.x.sat then satInt (tyWidth t) (tySigned t) x else x)
    let zn (x : Int) : FlagUpd := flagsZN (tyWidth t) (wrap (tyWidth t) x)
    ElementWord (.iadd w) w (fun a b => fit (v a + v b)) (fun a b _ => flagsAdd (tyWidth t) a b)
    ∧ ElementWord (.isub w) w (fun a b => fit (v a - v b)) (fun a b _ => flagsSub (tyWidth t) a b)
    ∧ ElementWord (.imul w) w (fun a b => fit (v a * v b)) (fun a b _ => flagsMul t (v a * v b))
    ∧ ElementWord (.imulh w) w (fun a b => fit (v a * v b / ((2 ^ tyWidth t : Nat) : Int)))
        (fun _ _ r => flagsZN (tyWidth t) r)
    ∧ ElementWord (.imin w) w (fun a b => fit (min (v a) (v b))) (fun a b _ => zn (min (v a) (v b)))
    ∧ ElementWord (.imax w) w (fun a b => fit (max (v a) (v b))) (fun a b _ => zn (max (v a) (v b)))
    ∧ ElementWord1 (.iabs w) w (tyRegs t) (fun a => fit ((v a).natAbs : Int)) (fun a _ => zn ((v a).natAbs : Int))
    ∧ ValueWord (.imad w) w (tyRegs t)
        (fun s it l => byElem t fun n =>
          let e (x : Nat) := v (elem (tyWidth t) n x)
          fit (e (srcA w s it l) * e (srcB w s it l) + e (dstVal it t w.d l)))
        (fun s it l _ => flagsMul t (v (srcA w s it l) * v (srcB w s it l) + v (dstVal it t w.d l)))

/-- R218 to R222: AND, OR, XOR, ANDN and the shifts and rotates work on each element; a shift of the width or more gives
0, or all sign bits for SAR; SHL with SAT clamps; POPC and CLZ count into one register, BREV reverses each element; BFE
and BFI take the field whose place and length B names, and BFI keeps the rest of D; LEA adds B, shifted left by its
scale, to A.
(Readings of the model: log 34, by which SHL's flags are those of the value before SAT clamps the exact product.) -/
def Obligations.BitWords : Prop :=
  (∀ w : FWord XArith,
     let t := w.x.ty
     let n := tyWidth t
     let zn (r : Nat) : FlagUpd := flagsZN n r
     ElementWord (.and w) w Nat.land (fun _ _ r => zn r)
     ∧ ElementWord (.or w) w Nat.lor (fun _ _ r => zn r)
     ∧ ElementWord (.xor w) w Nat.xor (fun _ _ r => zn r)
     ∧ ElementWord (.andn w) w (fun a b => Nat.land a (2 ^ n - 1 - b % 2 ^ n)) (fun _ _ r => zn r)
     ∧ ElementWord (.shl w) w (shlElem t w.x.sat) (fun a b _ => flagsShift true false n a b (shlElem t false a b))
     ∧ ElementWord (.shr w) w (fun a b => if n ≤ b then 0 else a % 2 ^ n / 2 ^ b)
         (fun a b r => flagsShift false false n a b r)
     ∧ ElementWord (.sar w) w (fun a b => wrap n (sext n a / ((2 ^ min b n : Nat) : Int)))
         (fun a b r => flagsShift false true n a b r)
     ∧ ElementWord (.rot w) w (rotElem t) (fun _ b r => flagsRot n b r))
  ∧ (∀ w : FWord XArith,
       let t := w.x.ty
       let n := tyWidth t
       ElementWord1 (.popc w) w 1 (popcount n) (fun _ r => flagsZN (min 32 n) r)
       ∧ ElementWord1 (.clz w) w 1 (clz n) (fun _ r => flagsZN (min 32 n) r)
       ∧ ElementWord1 (.brev w) w (tyRegs t) (brev n) (fun _ r => flagsZN n r)
       ∧ ValueWord (.bfe w) w (tyRegs t) (fun s it l => bfeElem t (srcA w s it l) (src32 s it w.b l))
           (fun _ _ _ r => flagsZN n r)
       ∧ ValueWord (.bfi w) w (tyRegs t)
           (fun s it l => bfiElem t (dstVal it t w.d l) (srcA w s it l) (src32 s it w.b l)) (fun _ _ _ r => flagsZN n r)
       ∧ ValueWord (.lea w) w (tyRegs t)
           (fun s it l =>
             let b := src32 s it w.b l
             let b : Int := if tySigned t then sext 32 b else ((b % 2 ^ 32 : Nat) : Int)
             wrap n ((srcA w s it l : Int) + b * ((2 ^ w.x.opx : Nat) : Int)))
           (fun _ _ _ _ => {}))

/-- R213, R214: MOV copies A; SEL takes A where the mask
register that OPX names holds the lane's bit, in a scalar word any active bit, and B elsewhere. -/
def Obligations.MoveWords : Prop :=
  ∀ w : FWord XArith,
    ValueWord (.mov w) w (tyRegs w.x.ty) (srcA w) (fun _ _ _ r => flagsOf w.x.ty r)
    ∧ ValueWord (.sel w) w (tyRegs w.x.ty)
        (fun s it l =>
          let m := it.g.readM it.sp (w.x.opx % 8)
          let holds := if w.d.isVec || w.a.isVec || w.b.isVec then m.getLsbD l else m &&& it.exec w.p != 0
          srcVal s it w.x.ty (if holds != bit w.x.opx 3 then w.a else w.b) l)
        (fun _ _ _ r => flagsOf w.x.ty r)

/-- R223, R224: ICMP and FCMP test A against B. A mask D takes the test of every active lane and keeps its other bits; any
other D takes all ones or zeros in each element, one register wide; with CC, G is the test of the lowest active lane and
Z its complement.
(Readings and choices of the model it rests on: log 27.) -/
def Obligations.CompareWords : Prop :=
  ∀ w : FWord XArith,
    let t := w.x.ty
    let holds (cond : Nat → Nat → Bool) (i : Instr) : Prop :=
      ∀ s it, Issues i s it →
        let test (l : Nat) : Bool := cond (srcA w s it l) (srcB w s it l)
        let m := it.exec w.p
        Computes i s it
          (match w.d with
            | .m (n + 1) => if m = 0 then fun _ => none
              else oneTakes (.m (n + 1)) ((it.g.readM it.sp (n + 1) &&& ~~~m) ||| (maskOf test &&& m))
            | d => dstTakes d 1 m fun l =>
              if t.is64 then (if test l then 2 ^ 32 - 1 else 0)
              else byElem t fun n => if cond (elem (tyWidth t) n (srcA w s it l)) (elem (tyWidth t) n (srcB w s it l))
                then 2 ^ tyWidth t - 1 else 0)
          (ccFlags w.x.cc m fun l => FlagUpd.test (test l))
    holds (fun a b => icmpCond w.x.opx (intOf t a) (intOf t b)) (.icmp w)
    ∧ holds (fun a b => fcmpCond w.x.opx ((tyFmt t).read a) ((tyFmt t).read b)) (.fcmp w)

/-- R225 to R228, R230: the float words round each element's exact result once, under RM, into the type; FMIN and FMAX
choose; FRND rounds to an integral value; FCLASS gives the class code; FFMA and FDOT2 add D before the one rounding.
(Readings and choices of the model it rests on: log 6.) -/
def Obligations.FloatWords : Prop :=
  ∀ w : FWord XArith,
    let t := w.x.ty
    let f := tyFmt t
    let fl (r : Nat) : FlagUpd := flagsFloat f r
    ElementWord (.fadd w) w (fun a b => f.add w.x.rm w.x.sat (f.read a) (f.read b)) (fun _ _ r => fl r)
    ∧ ElementWord (.fsub w) w (fun a b => f.add w.x.rm w.x.sat (f.read a) (f.read b).neg) (fun _ _ r => fl r)
    ∧ ElementWord (.fmul w) w (fun a b => f.mul w.x.rm w.x.sat (f.read a) (f.read b)) (fun _ _ r => fl r)
    ∧ ElementWord (.fmin w) w f.minNum (fun _ _ r => fl r)
    ∧ ElementWord (.fmax w) w f.maxNum (fun _ _ r => fl r)
    ∧ ElementWord1 (.frnd w) w (tyRegs t) (f.toIntegral w.x.rm) (fun _ r => fl r)
    ∧ ElementWord1 (.fclass w) w 1 f.classOf (fun _ r => flagsZN 32 r)
    ∧ ValueWord (.ffma w) w (tyRegs t)
        (fun s it l => byElem t fun n =>
          let e (x : Nat) := f.read (elem (tyWidth t) n x)
          f.fma w.x.rm w.x.sat (e (srcA w s it l)) (e (srcB w s it l)) (e (dstVal it t w.d l)))
        (fun _ _ _ r => fl r)
    ∧ ValueWord (.fdot2 w) w 1
        (fun s it l =>
          let e (n x : Nat) := f.read (elem 16 n x)
          let a := srcA w s it l
          let b := srcB w s it l
          Fmt.f32.deliver w.x.rm w.x.sat
            (.sum (isRdn w.x.rm) [(e 0 a).mul (e 0 b), (e 1 a).mul (e 1 b), Fmt.f32.read (dstVal it .f32 w.d l)]))
        (fun _ _ _ r => flagsFloat .f32 r)

/-- R217, R229: IDIV enters the quotient truncated towards zero, or with OPX bit 0 the remainder, which takes the sign
of the dividend; dividing by zero gives all ones and remainder A, and the lowest value by −1 itself (clamped with SAT)
and remainder 0. FRCP, FRSQ, FSQRT, FDIV, FEXP2, FLOG2, FSIN and FCOS enter their rounded result. None of them traps.
(Readings and choices of the model it rests on: log 6, log 16.) -/
def Obligations.LongLatencyArithmetic : Prop :=
  (∀ w : FWord XArith,
     let t := w.x.ty
     let n := tyWidth t
     let v := intOf t
     let q (sat : Bool) (a b : Nat) : Nat :=
       if v b = 0 then 2 ^ n - 1
       else if tySigned t = true ∧ v a = -((2 ^ (n - 1) : Nat) : Int) ∧ v b = -1 then
         (if sat then 2 ^ (n - 1) - 1 else 2 ^ (n - 1))
       else wrap n (Int.tdiv (v a) (v b))
     let r (a b : Nat) : Nat :=
       if v b = 0 then a % 2 ^ n
       else if tySigned t = true ∧ v a = -((2 ^ (n - 1) : Nat) : Int) ∧ v b = -1 then 0
       else wrap n (Int.tmod (v a) (v b))
     let val (sat : Bool) (a b : Nat) : Nat := if bit w.x.opx 0 then r a b else q sat a b
     LateWord (.idiv w) w (fun s it l => val w.x.sat (srcA w s it l) (srcB w s it l))
       (fun s it l _ => flagsDiv t (srcA w s it l) (srcB w s it l) (val false (srcA w s it l) (srcB w s it l))))
  ∧ (∀ w : FWord XArith,
       let t := w.x.ty
       let f := tyFmt t
       let late (i : Instr) (g : FVal → Nat) : Prop :=
         LateWord i w (fun s it l => byElem t fun n => g (f.read (elem (tyWidth t) n (srcA w s it l))))
           (fun _ _ _ r => flagsFloat f r)
       late (.frcp w) (f.rcp w.x.sat) ∧ late (.frsq w) (f.rsqrt w.x.sat) ∧ late (.fsqrt w) (f.sqrt w.x.rm w.x.sat)
       ∧ late (.fexp2 w) (fexp2 w.x.sat) ∧ late (.flog2 w) (flog2 w.x.sat) ∧ late (.fsin w) fsin ∧ late (.fcos w) fcos
       ∧ LateWord (.fdiv w) w (fun s it l => f.div w.x.rm w.x.sat (f.read (srcA w s it l)) (f.read (srcB w s it l)))
           (fun _ _ _ r => flagsFloat f r))

/-- R231 to R235: CVT converts each element by R86, and an integer result's flags are those of the integer before any
clamp (R77), of which an infinity has none: there Z is 0 and N an open value that operand and modifiers settle; PACK
replaces two elements of D and keeps the others; UNPACK widens one element exactly; CVTQ writes the code bytes and the
scale of one block to the low lanes; CVTQD decodes them.
(Readings and choices of the model it rests on: log 5.) -/
def Obligations.ConversionWords : Prop :=
  (∀ (w : FWord XCvt) (s : State) (it : Iss), Issues (.cvt w) s it →
    let t := w.x.ty
    let u := w.x.sty
    let src (n l : Nat) : Nat := elem (tyWidth u) n (srcVal s it u w.a l)
    let flags (x : Nat) : FlagUpd :=
      if t.isFloat then flagsOf t (convElem t u w.x.rm w.x.sat x)
      else if u.isFloat then
        match (tyFmt u).read x with
        | .nan => flagsZN (tyWidth t) 0
        | .inf _ => { z := some false, n := some (Config.cvtNegative t.code u.code w.x.rm.code w.x.sat x) }
        | .num neg k e => flagsZN (tyWidth t) (wrap (tyWidth t) (roundInt w.x.rm neg k e))
      else flagsZN (tyWidth t) (wrap (tyWidth t) (intOf u x))
    Computes (.cvt w) s it
      (dstTakes w.d (tyRegs t) (it.exec w.p) fun l => byElem t fun n => convElem t u w.x.rm w.x.sat (src n l))
      (ccFlags w.x.cc (it.exec w.p) fun l => flags (src 0 l)))
  ∧ ∀ w : FWord XArith,
    let t := w.x.ty
    let u := wideOf t
    let h := w.x.opx % 2
    ValueWord (.pack w) w 1
      (fun s it l => byElem t fun n =>
        if n = 2 * h then convElem t u w.x.rm w.x.sat (srcVal s it u w.a l)
        else if n = 2 * h + 1 then convElem t u w.x.rm w.x.sat (srcVal s it u w.b l)
        else elem (tyWidth t) n (dstVal it t w.d l))
      (fun _ _ _ _ => {})
    ∧ ValueWord (.unpack w) w 1
        (fun s it l => convElem u t .rne false (elem (tyWidth t) (w.x.opx % 4) (srcVal s it t w.a l)))
        (fun _ _ _ _ => {})
    ∧ (∀ s it, Issues (.cvtq w) s it →
        let m := it.exec w.p
        let out := blockWords (opxKind w.x.opx) ((List.range 32).map fun l =>
          if m.getLsbD l then Fmt.f32.read (srcVal s it .f32 w.a l) else FVal.num false 0 0)
        Computes (.cvtq w) s it (fun r => match r with
          | .v n l => if w.d = .v n ∧ m.getLsbD l ∧ l < out.length then some (BitVec.ofNat 32 (out.getD l 0)) else none
          | _ => none) {})
    ∧ ∀ s it, Issues (.cvtqd w) s it →
        Computes (.cvtqd w) s it
          (dstTakes w.d 1 (it.exec w.p) (blockElem (opxKind w.x.opx) fun l => srcVal s it.shown .f32 w.a l)) {}

/-- R236, R237, R240, R242: SHFL reads the lane that B and the mode name, SHFLX the lane of A or B that D's own index
names, MATCH the peers of each lane's value, SCANL the running result in lane order. SHFL and SHFLX see the results of
other splits that a barrier has ordered before them (R211). -/
def Obligations.LaneWords : Prop :=
  ∀ w : FWord XArith,
    let t := w.x.ty
    ValueWord (.shfl w) w (tyRegs t)
      (fun s it l =>
        let b := src32 s it.shown w.b l
        let a (j : Nat) := srcVal s it.shown t w.a j
        match w.x.opx % 4 with
        | 0 => a (b % 32)
        | 1 =>
          let j : Int := (l : Int) + sext 32 b
          if j < 0 ∨ 31 < j then (if bit w.x.opx 2 then 0 else a l) else a j.toNat
        | 2 => a ((l + b) % 32)
        | _ => a (Nat.xor l (b % 32)))
      (fun _ _ _ _ => {})
    ∧ ValueWord (.shflx w) w 1
        (fun s it l =>
          let k := dstVal it.shown t w.d l % 64
          if k < 32 then srcVal s it.shown t w.a k else srcVal s it.shown t w.b (k - 32))
        (fun _ _ _ _ => {})
    ∧ ValueWord (.matchl w) w 1
        (fun s it l =>
          let peers := (lanesOf (it.exec w.p)).filter fun j => srcVal s it t w.a j == srcVal s it t w.a l
          let below := peers.filter fun j => decide (j < l)
          match w.x.opx with
          | 0 => (peers.map fun j => 2 ^ j).sum
          | 1 => (below.map fun j => 2 ^ j).sum
          | _ => below.length)
        (fun _ _ _ _ => {})
    ∧ ValueWord (.scanl w) w (tyRegs t)
        (fun s it l =>
          let op := w.x.opx % 8
          let rs := scanGo (redOp t op) (bit w.x.opx 3) (redIdentity t op) none
            ((lanesOf (it.exec w.p)).map fun j => (j, srcVal s it t w.a j))
          ((rs.find? fun r => r.1 == l).map Prod.snd).getD 0)
        (fun _ _ _ _ => {})

/-- R238, R239, R241, R243: BCST and FIRSTL copy one lane's value, REDL folds the active lanes by the tree of R99, VOTE
counts the lanes that pass its test, MTOS and STOM move whole masks. -/
def Obligations.WholeSplitWords : Prop :=
  ∀ w : FWord XArith,
    let t := w.x.ty
    let one (i : Instr) (regs : Nat) (val : State → Iss → Nat) (u : Nat → FlagUpd) : Prop :=
      ∀ s it, Issues i s it →
        Computes i s it (dstTakes w.d regs (it.exec w.p) fun _ => val s it)
          (ccFlags w.x.cc (it.exec w.p) fun _ => u (val s it))
    one (.bcst w) (tyRegs t) (fun s it => srcVal s it.shown t w.a (src32 s it.shown w.b 0 % 32)) (flagsOf t)
    ∧ one (.firstl w) (tyRegs t) (fun s it => srcVal s it t w.a (lowest (it.exec w.p))) (flagsOf t)
    ∧ one (.redl w) (tyRegs t)
        (fun s it => (redTree (redOp t w.x.opx) ((List.range 32).map fun l =>
          if (it.exec w.p).getLsbD l then some (srcVal s it t w.a l) else none)).getD 0) (flagsOf t)
    ∧ one (.mtos w) 1 (fun _ it => (it.g.readM it.sp (w.x.opx % 8)).toNat) (flagsZN 32)
    ∧ (∀ s it, Issues (.vote w) s it →
        let m := it.exec w.p
        let q := w.x.opx % 4
        let pass := maskOf fun l => m.getLsbD l && match w.x.opx / 4 with
          | 0 => srcVal s it t w.a l != 0
          | 1 => srcVal s it t w.a l == 0
          | _ => srcVal s it t w.a l == srcVal s it t w.a (lowest m)
        let x := voteValue q m pass
        Computes (.vote w) s it
          (match w.d with
            | .m (n + 1) => if m = 0 then fun _ => none
              else oneTakes (.m (n + 1)) ((it.g.readM it.sp (n + 1) &&& ~~~m)
                ||| (maskOf (fun l => if q = 0 then pass.getLsbD l else x == 1) &&& m))
            | d => dstTakes d 1 m fun _ => x)
          (ccFlags w.x.cc m fun _ => if q = 1 ∨ q = 2 then FlagUpd.test (x == 1) else flagsZN 32 x))
    ∧ ∀ s it, Issues (.stom w) s it →
        let m := it.exec w.p
        Computes (.stom w) s it
          (match w.d with
            | .m (n + 1) => if m = 0 then fun _ => none
              else oneTakes (.m (n + 1)) ((it.g.readM it.sp (n + 1) &&& ~~~m)
                ||| (maskOf (fun l => if w.a.isVec then src32 s it w.a l != 0 else bit (src32 s it w.a l) l) &&& m))
            | _ => fun _ => none) {}

/-- R244 to R249: the long-immediate words. MOVI takes IMM32 as the type reads it; ADDI and MULI combine it with D,
ANDI, ORI and XORI bit by bit; CMPI writes G and Z only; MOVHI writes the odd register of the pair; LDC writes IMM32 +
lane × S.
(Readings and choices of the model it rests on: log 6, log 34, and log 27: MOVHI writes no flag, CMPI none but G and Z.)
-/
def Obligations.ImmediateWords : Prop :=
  (∀ w : IWord XImm,
    let t := w.x.ty
    let c := immRead t w.imm
    let f := tyFmt t
    let fit (x : Int) : Nat := wrap (tyWidth t) (if w.x.sat then satInt (tyWidth t) (tySigned t) x else x)
    let imm (i : Instr) (val : Nat → Nat) (u : Nat → Nat → FlagUpd) : Prop :=
      ∀ s it, Issues i s it →
        Computes i s it (dstTakes w.d (tyRegs t) (it.exec w.p) fun l => val (dstVal it t w.d l))
          (ccFlags w.x.cc (it.exec w.p) fun l => u (dstVal it t w.d l) (val (dstVal it t w.d l)))
    imm (.movi w) (fun _ => c) (fun _ r => flagsZN (tyWidth t) r)
    ∧ imm (.addi w) (fun d => if t.isFloat then f.add .rne w.x.sat (f.read d) (f.read c) else fit (intOf t d + intOf t c))
        (fun d r => if t.isFloat then flagsFloat f r else flagsAdd (tyWidth t) d c)
    ∧ imm (.muli w) (fun d => if t.isFloat then f.mul .rne w.x.sat (f.read d) (f.read c) else fit (intOf t d * intOf t c))
        (fun d r => if t.isFloat then flagsFloat f r else flagsMul t (intOf t d * intOf t c))
    ∧ imm (.andi w) (fun d => Nat.land d c) (fun _ r => flagsZN (tyWidth t) r)
    ∧ imm (.ori w) (fun d => Nat.lor d c) (fun _ r => flagsZN (tyWidth t) r)
    ∧ imm (.xori w) (fun d => Nat.xor d c) (fun _ r => flagsZN (tyWidth t) r))
  ∧ (∀ (w : IWord (Ty × Nat)) (s : State) (it : Iss), Issues (.cmpi w) s it →
      let t := w.x.1
      let c := immRead t w.imm
      let d := dstVal it t w.d 0
      Computes (.cmpi w) s it (fun _ => none)
        (if it.exec w.p = 0 then {} else FlagUpd.test
          (if t.isFloat then fcmpCond w.x.2 ((tyFmt t).read d) ((tyFmt t).read c)
            else icmpCond w.x.2 (intOf t d) (intOf t c))))
  ∧ (∀ (w : IWord Ty) (s : State) (it : Iss), Issues (.movhi w) s it →
      Computes (.movhi w) s it
        (dstTakes (match w.d with | .v n => Dst.v (n + 1) | .s n => .s (n + 1) | d => d) 1 (it.exec w.p) fun _ => w.imm) {})
  ∧ ∀ (w : IWord (Ty × Int)) (s : State) (it : Iss), Issues (.ldc w) s it →
      Computes (.ldc w) s it
        (dstTakes w.d 1 (it.exec w.p) fun l => wrap 32 ((w.imm : Int) + (l : Int) * w.x.2)) {}

/-- R193, R194, R250: a pair word writes D7 = D7 op S9 in each slot's own active lanes, slot 1 after slot 0, and both
slots read before either writes; a NOP slot writes nothing.
(Readings and choices of the model it rests on: log 6.) -/
def Obligations.PairWords : Prop :=
  ∀ (a : PArgs) (t : PSlot),
    let slot (it : Iss) (x : PSlot) (r : RegId) : Option Word :=
      if x.op = .nop then none
      else dstTakes (.v x.args.d7) 1 (it.exec ⟨x.args.msel, false⟩) (fun l =>
        slotOp x.op x.args.sat (it.g.readV x.args.d7 l).toNat (slotSrc it.g (POp.float x.op) x.args.s9 l)) r
    let both (i : Instr) (op : POp) : Prop :=
      ∀ s it, Issues i s it → Computes i s it (fun r => (slot it t r).or (slot it ⟨op, a⟩ r)) {}
    both (.pairNop a t) .nop ∧ both (.pairMov a t) .mov ∧ both (.pairIadd a t) .iadd ∧ both (.pairIsub a t) .isub
    ∧ both (.pairImul a t) .imul ∧ both (.pairAnd a t) .and ∧ both (.pairOr a t) .or ∧ both (.pairXor a t) .xor
    ∧ both (.pairAndn a t) .andn ∧ both (.pairShl a t) .shl ∧ both (.pairShr a t) .shr ∧ both (.pairSar a t) .sar
    ∧ both (.pairImin a t) .imin ∧ both (.pairImax a t) .imax ∧ both (.pairFadd a t) .fadd ∧ both (.pairFsub a t) .fsub
    ∧ both (.pairFmul a t) .fmul ∧ both (.pairFmin a t) .fmin ∧ both (.pairFmax a t) .fmax

/-! ### Control flow, traps, leaving (chapters 2, 12, 20) -/

/-- R63: a word's execution mask is m0 & (MINV ? ~m[MSEL] : m[MSEL]); m0 is the split's Mask and is never written; MSEL
= 0 with MINV = 1 raises cause 0x02. (The hypothesis is that no mask left by RFT is in force, R294.) -/
def Obligations.ExecutionMask : Prop :=
  (∀ (it : Iss) (p : Pred), it.sp.once = none →
    it.exec p = it.g.readM it.sp 0 &&& (if p.minv then ~~~it.g.readM it.sp p.msel else it.g.readM it.sp p.msel))
  ∧ (∀ (it : Iss), it.g.readM it.sp 0 = it.sp.mask)
  ∧ (∀ (g : Group) (x : Word), g.writeReg (.m 0) x = g)
  ∧ ∀ (w : Nat) (i : Instr), bits w 63 62 = 0 ∨ bits w 63 62 = 2 → bits w 53 51 = 0 → bit w 50 = true →
      buildWord w = some i → i.bad.one = false → decodeWord w = .error .cause02

/-- R196, R283 to R286: BRA goes to its target where its condition holds; CALL also writes the address of the next word
to its link pair; RET and JMPS go to the address in their pair with bits 2:0 cleared, or raise cause 0x31 where it lies
at or above 2^57; LOOP counts its scalar down and goes to its target until it is 0. Each does the same where its path
ends there.
(Readings and choices of the model it rests on: log 7.) -/
def Obligations.BranchWords : Prop :=
  (∀ (c : CCond) (disp : Int) (s : State) (it : Iss),
    let pc := if it.holds c then it.sp.pc + 8 + 8 * BitVec.ofInt 64 disp else it.sp.pc + 8
    (IssuesTo (.bra c disp) s it pc → ComputesTo (.bra c disp) s it pc (fun _ => none) {})
    ∧ (Issued (.bra c disp) s it → Becomes (.bra c disp) s it (s.issued it (.bra c disp)) pc))
  ∧ (∀ (c : CCond) (link : Nat) (disp : Int) (s : State) (it : Iss),
    let pc := if it.holds c then it.sp.pc + 8 + 8 * BitVec.ofInt 64 disp else it.sp.pc + 8
    let next := it.sp.pc + 8
    (IssuesTo (.call c link disp) s it pc →
      ComputesTo (.call c link disp) s it pc (fun r =>
        if it.holds c then
          (if r = .s (link + 1) then some ((next >>> 32).setWidth 32)
           else if r = .s link then some (next.setWidth 32) else none)
        else none) {})
    ∧ (Issued (.call c link disp) s it →
        let s0 := s.issued it (.call c link disp)
        Becomes (.call c link disp) s it (if it.holds c then s0.writePair it link next else s0) pc))
  ∧ (∀ (c : CCond) (r : Nat) (s : State) (it : Iss),
    let x := it.g.readS64 r
    let pc := if it.holds c then x &&& ~~~(7 : Dword) else it.sp.pc + 8
    (it.holds c = true → x.toNat < 2 ^ 57) →
      ((IssuesTo (.ret c r) s it pc → ComputesTo (.ret c r) s it pc (fun _ => none) {})
        ∧ (Issued (.ret c r) s it → Becomes (.ret c r) s it (s.issued it (.ret c r)) pc))
      ∧ (IssuesTo (.jmps c r) s it pc → ComputesTo (.jmps c r) s it pc (fun _ => none) {})
      ∧ (Issued (.jmps c r) s it → Becomes (.jmps c r) s it (s.issued it (.jmps c r)) pc))
  ∧ (∀ (c : CCond) (r : Nat) (s : State) (it : Iss),
    let x := it.g.readS64 r
    let t : Trap := { cause := 0x31, lane := lowest it.sp.mask, tmask := it.sp.mask, aux := x.toNat, pc := it.sp.pc }
    it.holds c = true → 2 ^ 57 ≤ x.toNat →
      (Issued (.ret c r) s it → Raises (.ret c r) s it t) ∧ (Issued (.jmps c r) s it → Raises (.jmps c r) s it t))
  ∧ ∀ (r : Nat) (disp : Int) (s : State) (it : Iss),
    let x := it.g.readS r - 1
    let pc := if x = 0 then it.sp.pc + 8 else it.sp.pc + 8 + 8 * BitVec.ofInt 64 disp
    (IssuesTo (.loop r disp) s it pc → ComputesTo (.loop r disp) s it pc (oneTakes (.s r) x) {})
    ∧ (Issued (.loop r disp) s it →
        Becomes (.loop r disp) s it ((s.issued it (.loop r disp)).writeNow it [(.s r, x)] {}) pc)

/-- R34 to R36, R287 to R290, R407: SPLIT goes on undivided where one of its two lane sets is empty, and JTAB where its
table sends all lanes to one address; else the split divides, on a serial record where it is busy or, for SPLIT, no
entry is Free; a full serial stack raises cause 0x61, an index past the table 0x10. A division in two with a Free entry:
the split keeps the first path, and the lowest Free entry runs the other as its child. A serial division runs the first
path and keeps the others in its record. A path ends where its split stands at its join with nothing outstanding: a serial
record's next path starts, or with none left the record is popped; an entry waits for its children at its join, and merges
after the last; a child's entry is Free then. A merge that does not give back the mask of the division traps, cause 0x61.
(Readings and choices of the model it rests on: log 7.) -/
def Obligations.DivergenceWords : Prop :=
  ((∀ (sense : Bool) (n : Nat) (els join : Int) (s : State) (it : Iss),
     let i := Instr.split sense n els join
     let sel := if sense then it.g.readM it.sp n else ~~~it.g.readM it.sp n
     let tm := it.sp.mask &&& sel
     let em := it.sp.mask &&& ~~~sel
     let serial := it.g.busy it.j || it.g.freeEntry.isNone
     (em = 0 → Issues i s it → Computes i s it (fun _ => none) {})
     ∧ (em ≠ 0 → tm = 0 → IssuesTo i s it (it.target els) → ComputesTo i s it (it.target els) (fun _ => none) {})
     ∧ (em ≠ 0 → tm ≠ 0 → serial = true → it.g.stack.length = 16 → Issued i s it →
         Raises i s it { cause := 0x61, lane := lowest it.sp.mask, tmask := it.sp.mask, aux := 1, pc := it.sp.pc })
     ∧ (em ≠ 0 → tm ≠ 0 → (serial = true → it.g.stack.length ≠ 16) → Issued i s it →
         Becomes i s it ((s.issued it i).modGroup it.key fun g =>
           (g.fold it.j foldSplit).divide it.j (it.target join) tm [(it.target els, em)] serial []) (it.sp.pc + 8)))
   ∧ ∀ (x len : Nat) (disp : Int) (s : State) (it : Iss), Issued (.jtab x len disp) s it →
     let i := Instr.jtab x len disp
     let idx (l : Nat) : Nat := (it.g.readV x l).toNat
     let tb := it.target disp
     let word (n : Nat) : Fetch := (s.issued it i).fetchBytes it.l (tb.toNat + 4 * n) 4
     let addr (n : Nat) : Dword := match word n with | .word y => tb + 8 * BitVec.ofInt 64 (sext 32 y) | _ => 0
     let paths := jtabPaths idx len addr it.sp.mask
     (∀ l, (lanesOf it.sp.mask).find? (fun l => decide (len ≤ idx l)) = some l →
       Raises i s it { cause := 0x10, lane := l, tmask := it.sp.mask, aux := idx l, pc := it.sp.pc })
     ∧ ((∀ l ∈ lanesOf it.sp.mask, idx l < len) → it.sp.mask ≠ 0 →
         (∀ n ≤ len, (n = len ∨ ∃ l ∈ lanesOf it.sp.mask, idx l = n) → ∃ y, word n = .word y) →
         ∃ pc ls rest, paths = (pc, ls) :: rest
           ∧ if rest ≠ [] ∧ it.g.busy it.j = true ∧ it.g.stack.length = 16 then
               Raises i s it { cause := 0x61, lane := lowest it.sp.mask, tmask := it.sp.mask, aux := 1, pc := it.sp.pc }
             else Becomes i s it ((s.issued it i).modGroup it.key fun g =>
               let g := (g.fold it.j fun c => foldJtab c paths.length).modSplit it.j fun sp =>
                 { sp with stall := 8 + paths.length }
               if rest = [] then g
               else g.divide it.j (addr len) ls rest (it.g.busy it.j) (lanes.map idx)) pc))
  ∧ (∀ (g : Group) (j k : Nat) (join pc : Dword) (first ls : Mask) (snapshot : List Nat),
       (g.split j).inUse = true → g.freeEntry = some k →
         let sp := g.split j
         let g' := g.divide j join first [(pc, ls)] false snapshot
         (g'.split j).mask = first ∧ (g'.split j).join = join ∧ (g'.split j).full = sp.mask ∧ (g'.split j).st = .run
         ∧ (g'.split j).pending = 0 ∧ (g'.split j).paths = [] ∧ bit (g'.split j).children k = true
         ∧ (g'.split j).pc = sp.pc ∧ g'.busy j = true
         ∧ g'.split k = { st := .run, pc := pc, mask := ls &&& ~~~g.exited, cc := sp.cc, sig := sp.sig, parent := some j,
                          stall := sp.stall }
         ∧ (∀ i, i ≠ j → i ≠ k → g'.split i = g.split i)
         ∧ ∀ r, g'.readReg r = g.readReg r)
  ∧ (∀ (g : Group) (j : Nat) (join : Dword) (first : Mask) (rest : List (Dword × Mask)) (snapshot : List Nat),
       j < g.splits.length →
         let g' := g.divide j join first rest true snapshot
         let later := rest.foldl (fun m x => m ||| x.2) (0 : Mask)
         g'.topRec j = some ⟨j, join, (g.split j).mask, rest, g.seen, 0⟩ ∧ (g'.split j).mask = first
         ∧ (g'.split j).st = .serial ∧ (g'.split j).pc = (g.split j).pc ∧ (g'.split j).pending = (g.split j).pending ||| later
         ∧ (later ≠ 0 → g'.busy j = true) ∧ g'.joinOf j = some join
         ∧ (∀ i, i ≠ j → g'.split i = g.split i)
         ∧ ∀ r, g'.readReg r = g.readReg r)
  ∧ (∀ (g : Group) (j : Nat), j < g.splits.length →
       let sp := g.split j
       let g' := g.complete j
       let formed := sp.formed ||| sp.mask
       (∀ pc, let g1 := g.modSplit j fun sp => { sp with pc := pc }
         g1.atJoin j = true → (∀ x, x ≠ j → g1.atJoin x = false) → g.moveTo j pc = Group.settle 1023 (g1.complete j))
       ∧ (∀ r pc ls rest, g.topRec j = some r → r.queue = (pc, ls) :: rest →
           (g'.split j).pc = pc ∧ (g'.split j).mask = ls &&& ~~~g.exited ∧ (g'.split j).pending = sp.pending &&& ~~~ls
           ∧ g'.topRec j = some { r with queue := rest, formed := r.formed ||| sp.mask })
       ∧ (∀ r, g.topRec j = some r → r.queue = [] →
           (g'.split j).mask = (r.formed ||| sp.mask) &&& ~~~g.exited ∧ (g'.split j).pc = r.join
           ∧ (g'.split j).sig = foldMerge sp.sig ∧ (g'.split j).wrong = g.mismatch (r.formed ||| sp.mask) r.full
           ∧ g'.stack.length + 1 = g.stack.length)
       ∧ (g.topRec j = none → sp.join ≠ 0 → sp.paths = [] →
           (g.hasChild j = true → g'.split j = { sp with formed := formed, st := .joinWait, pc := sp.join })
           ∧ (g.hasChild j = false →
               (g'.split j).mask = formed &&& ~~~g.exited ∧ (g'.split j).pc = sp.join ∧ (g'.split j).join = 0
               ∧ (g'.split j).children = 0 ∧ (g'.split j).st = .run ∧ (g'.split j).sig = foldMerge sp.sig
               ∧ (g'.split j).wrong = g.mismatch formed sp.full))
       ∧ (g.topRec j = none → sp.join = 0 → ∀ p, sp.parent = some p → p ≠ j → p < g.splits.length →
           (g.split p).paths = [] →
           let pp := g.split p
           (g'.split j).inUse = false
           ∧ (pp.st ≠ .joinWait → g'.split p = { pp with formed := pp.formed ||| sp.mask })
           ∧ (pp.st = .joinWait → (∀ x, x ≠ j → (g.split x).inUse = true → (g.split x).parent ≠ some p) →
               (g'.split p).mask = (pp.formed ||| sp.mask) &&& ~~~g.exited ∧ (g'.split p).pc = pp.join
               ∧ (g'.split p).join = 0 ∧ (g'.split p).children = 0 ∧ (g'.split p).st = .run
               ∧ (g'.split p).sig = foldMerge pp.sig ∧ (g'.split p).wrong = g.mismatch (pp.formed ||| sp.mask) pp.full))
       ∧ (g.topRec j = none → sp.join = 0 → sp.parent = none → (g'.split j).inUse = false)
       ∧ (sp.paths = [] → (∀ p, sp.parent = some p → (g.split p).paths = []) →
           (∀ x, x ≠ j → sp.parent ≠ some x → g'.split x = g.split x) ∧ ∀ q, g'.readReg q = g.readReg q))
  ∧ ∀ (s : State) (k j l : Nat) (g : Group), s.group? k = some g → (g.split j).wrong = some l →
       s.raiseWrong k j = (s.modSplit k j fun sp => { sp with wrong := none }).raise k j
         { cause := 0x61, lane := l, tmask := (g.split j).mask, aux := 0, pc := (g.split j).pc }

/-- R33, R291 to R293: EXIT takes the split's lanes out of the group; TRAP, BKPT and ASSERT raise causes 0x90, 0x91 and
0x20 with the PC after the word; where the condition fails, no lane is active or no assertion fails, each completes and
does nothing.
(Readings and choices of the model it rests on: log 7, log 10.) -/
def Obligations.ExitAndTrapWords : Prop :=
  (∀ (c : CCond) (s : State) (it : Iss),
    (it.holds c = false → Issues (.exit c) s it → Computes (.exit c) s it (fun _ => none) {})
    ∧ (it.holds c = true → Issued (.exit c) s it →
        Becomes (.exit c) s it ((s.issued it (.exit c)).leaveLanes it.key it.sp.mask) (it.sp.pc + 8)))
  ∧ (∀ (c : CCond) (code : Nat) (s : State) (it : Iss),
    (it.holds c = false → Issues (.trap c code) s it → Computes (.trap c code) s it (fun _ => none) {})
    ∧ (it.holds c = true → Issued (.trap c code) s it →
        Raises (.trap c code) s it
          { cause := 0x90, lane := lowest it.sp.mask, tmask := it.sp.mask, aux := code, pc := it.sp.pc + 8 }))
  ∧ (∀ (w : FWord Nat) (s : State) (it : Iss),
    let m := it.exec w.p
    (m = 0 → Issues (.bkpt w) s it → Computes (.bkpt w) s it (fun _ => none) {})
    ∧ (m ≠ 0 → Issued (.bkpt w) s it →
        Raises (.bkpt w) s it { cause := 0x91, lane := lowest m, tmask := m, aux := w.x, pc := it.sp.pc + 8 }))
  ∧ ∀ (w : FWord Unit) (s : State) (it : Iss),
    let m := it.exec w.p
    let failed := (lanesOf m).find? fun l => src32 s it w.a l == 0
    (failed = none → Issues (.assertw w) s it → Computes (.assertw w) s it (fun _ => none) {})
    ∧ ∀ l, failed = some l → Issued (.assertw w) s it →
        Raises (.assertw w) s it
          { cause := 0x20, lane := l, tmask := m, aux := 0, msg := it.pair w.b, pc := it.sp.pc + 8 }

/-- R397, R399, R403: with a handler armed, and outside the handler, a trap parks its split and joins its core's queue
behind the others, and nothing else of the machine changes but the count of failed assertions (and, where the context
lies in its save area, its image there, R180); otherwise the launch ends by fault: none of its groups is left. In the
queue traps of one cycle stand in the order of partition, slot and split, behind those of earlier cycles.
(Readings and choices of the model it rests on: log 10.) -/
def Obligations.TrapIsTaken : Prop :=
  ∀ (s : State) (k j : Nat) (t : Trap) (g : Group) (c : Ctx),
    s.group? k = some g → s.ctx? g.launch g.core = some c → j < g.splits.length →
      let s' := s.raise k j t
      (c.handler ≠ 0 → g.handler = false →
        (c.res ≠ .saved → s' = { s with groups := s'.groups, ctxs := s'.ctxs, launches := s'.launches })
        ∧ s'.group? k = some
            (g.modSplit j fun sp => { sp with wait := .trapped, once := none, held := none })
        ∧ (∀ k', k' ≠ k → s'.group? k' = s.group? k')
        ∧ (let r : TrapRec := { cause := t.cause, lane := t.lane, pc := t.pc, tmask := t.tmask, aux := t.aux, msg := t.msg,
                                group := k, split := j, cyc := (s.coreOf g.core).cyc }
           s'.ctx? g.launch g.core = some { c with trapq := trapIns r c.trapq }
           ∧ ((∀ x ∈ c.trapq, x.cyc = r.cyc → x.place ≤ r.place) → trapIns r c.trapq = c.trapq ++ [r])
           ∧ ∀ x q, c.trapq = x :: q → x.cyc = r.cyc → r.place < x.place → trapIns r c.trapq = r :: c.trapq)
        ∧ (∀ n co, ckey n co ≠ ckey g.launch g.core → s'.ctx? n co = s.ctx? n co)
        ∧ ∀ n, s'.launch? n = if n = g.launch ∧ t.cause = 0x20 then
            (s.launch? n).map fun l => { l with asserts := l.asserts + 1 } else s.launch? n)
      ∧ (c.handler = 0 ∨ g.handler = true →
        (∀ p ∈ s'.groups, p.2.launch ≠ g.launch)
        ∧ ∀ l, s'.launch? g.launch = some l → l.faulted = true ∧ l.stopped = true)

/-- R399, R400: TRAP_DELIVERY completes where a handler is idle and takes the oldest trap: its record stands in the
first 64 bytes of the handler scratchpad, and the handler group starts at HANDLER with every lane; with HANDLER = 1 the
monitor puts event 1 into the mailbox instead, with vector 65 (R412, R413): EVENT 1, RSTAT the cause, WHERE, the PC, the
auxiliary and the message (for a trap with no cause of R397 RSTAT is a free value, log 14). It completes wherever the
context is active, no trap is being served, the handler group is parked with 4 cycles behind it (R402), and the cycle of
the trap is over, which orders its traps (log 10).
(Readings and choices of the model it rests on: log 10, log 14, log 25; the PC's bits 2:0 clear: R6.) -/
def Obligations.TrapDeliveryWritesTheRecord : Prop :=
  ∀ (n core : Nat) (s : State) (c : Ctx) (t : TrapRec) (rest : List TrapRec) (h : Group),
    s.gate = false → s.ctx? n core = some c → c.res = .active → c.serving = none → c.trapq = t :: rest →
    s.group? (gkey n core 0 handlerSlot) = some h → h.used = [] → h.exited = 0 → (h.split 0).stall = 0 →
    t.cyc ≠ (s.coreOf core).cyc → (∀ a ∈ s.atoms, a.group ≠ gkey n core 0 handlerSlot) →
      ∃ s' c', exec (.trapDelivery n core) s = .next s' ∧ s'.ctx? n core = some c'
        ∧ c'.trapq = rest ∧ c'.serving = some t
        ∧ c'.hWord 0 4 = t.cause % 2 ^ 32 ∧ c'.hWord 4 4 = t.lane % 2 ^ 32 ∧ c'.hWord 8 8 = t.pc.toNat
        ∧ c'.hWord 16 4 = t.tmask.toNat ∧ c'.hWord 20 4 = t.tmask.toNat ∧ c'.hWord 24 8 = t.aux % 2 ^ 64
        ∧ c'.hWord 32 8 = t.msg % 2 ^ 64 ∧ c'.hWord 40 4 = t.group % 64 ∧ c'.hWord 44 4 = t.split % 2 ^ 32
        ∧ (∀ i, 64 ≤ i → Map.get c'.hscr 0 i = Map.get c.hscr 0 i)
        ∧ (c.handler ≠ 1 → ∃ g', s'.group? (gkey n core 0 handlerSlot) = some g'
            ∧ g' = ({ h with seen := g'.seen } : Group).startHandler c.handler (12 - ((s.coreOf core).cyc - t.cyc).toNat)
            ∧ (g'.split 0).pc = c.handler &&& ~~~(7 : Dword) ∧ (g'.split 0).mask = 0xFFFFFFFF
            ∧ (g'.split 0).sig = 0xFFFFFFFF ∧ g'.liveSplits = [0])
        ∧ (c.handler = 1 → s'.msix = s.msix ++ [65] ∧ s'.mail core 32 1 = 1
            ∧ (t.cause ≠ 0 → s'.mail core 33 1 = t.cause % 256)
            ∧ s'.mail core 36 4 = whereField t.lane (t.group % 64) t.split % 2 ^ 32 ∧ s'.mail core 40 8 = t.pc.toNat
            ∧ s'.mail core 48 8 = t.aux % 2 ^ 64 ∧ s'.mail core 56 8 = t.msg % 2 ^ 64
            ∧ (∀ i < 32, s'.mail core i 1 = s.mail core i 1)
            ∧ ∃ g', s'.group? (gkey n core 0 handlerSlot) = some g' ∧ g' = { h with seen := g'.seen })
        ∧ (s.stores = [] → s.atoms = [] → s'.mem = s.mem)

/-- R294: RFT outside the handler group raises cause 0x31, and cause 0x61 where the handler has divided; else the handler
group parks, its writes are performed and the trapped split goes on from the record. A split of an ordinary launch whose
lanes all resume waits for nothing then and goes on at the resume PC, bits 2:0 clear; at the trapping word it issues under
the resume mask.
(Readings and choices of the model it rests on: log 10.) -/
def Obligations.TrapReturns : Prop :=
  (∀ (s : State) (it : Iss), Issued .rft s it →
     let s0 := s.issued it .rft
     (it.g.handler = false → Raises .rft s it (it.trapOpen s0 0x31 it.sp.mask))
     ∧ (it.g.handler = true → it.g.liveSplits.length ≠ 1 →
         Raises .rft s it { cause := 0x61, lane := lowest it.sp.mask, tmask := it.sp.mask, aux := 2, pc := it.sp.pc })
     ∧ (it.g.handler = true → it.g.liveSplits.length = 1 →
         Becomes .rft s it (((s0.drain it.key).modGroup it.key Group.parkHandler).trapReturn it.g.launch it.g.core
           (BitVec.ofNat 64 (it.c.hWord 8 8)) (BitVec.ofNat 32 (it.c.hWord 20 4))) 0))
  ∧ (∀ (s : State) (n core : Nat) (pc : Dword) (rm : Mask) (c : Ctx) (t : TrapRec) (g : Group),
       s.ctx? n core = some c → c.serving = some t → s.group? t.group = some g → t.cause ≠ 0x70 → t.cause ≠ 0x20 →
       (g.split t.split).wait = .trapped → (g.split t.split).live = true → g.handler = false → g.gone = false → g.e = 0 →
       t.tmask &&& ~~~rm = 0 → (∀ i, (g.split i).wrong = none) →
       (g.modSplit t.split fun sp => { sp with pc := pc &&& ~~~(7 : Dword) }).standsAtJoin t.split = false →
       (∀ i, (g.modSplit t.split fun sp => { sp with pc := pc &&& ~~~(7 : Dword) }).atJoin i = false) →
         let s' := s.trapReturn n core pc rm
         s'.ctx? n core = some { c with serving := none }
         ∧ ∃ g', s'.group? t.group = some g' ∧ (g'.split t.split).wait = .none
           ∧ (g'.split t.split).pc = pc &&& ~~~(7 : Dword)
           ∧ (g'.split t.split).mask = (g.split t.split).mask
           ∧ (g'.split t.split).once = (if t.word = some (pc &&& ~~~(7 : Dword)) then some (rm &&& t.tmask) else none)
           ∧ (∀ r, g'.readReg r = g.readReg r) ∧ (s.stores = [] → s'.mem = s.mem))

/-! ### Cells and system (chapter 12) -/

/-- R46, R299, R300: STEP parks its split at its own PC with every register as it was; STEPQ writes the number of awaited
neighbours to D with G = 1 where none is awaited.
(Readings and choices of the model it rests on: log 27, log 32.) -/
def Obligations.StepWords : Prop :=
  (∀ s it, Issued .step s it → it.c.res ≠ .saved → (∀ x, (it.own.split x).wrong = none) →
    ∃ t g', exec .step s = .next t ∧ t.group? it.key = some g' ∧ (g'.split it.j).wait = .step
      ∧ (g'.split it.j).pc = it.sp.pc ∧ g'.step = it.own.step ∧ (∀ r, g'.readReg r = it.own.readReg r) ∧ t.mem = s.mem)
  ∧ ∀ (w : FWord Bool) (s : State) (it : Iss), Issues (.stepq w) s it →
    let s0 := s.issued it (.stepq w)
    let it0 := it.issued s (.stepq w)
    let n := stepqCount s0 it0.g it0.c it0.l.r
    Computes (.stepq w) s it
      (fun r => match w.d with
        | .s d => if it.exec w.p = 0 then none else oneTakes (.s d) (BitVec.ofNat 32 n) r
        | _ => none)
      (if it.exec w.p = 0 then {} else FlagUpd.test (n == 0))

/-- R72, R73, R301, R302: SREAD gives D the special register, entering the counters %cyc, %run and %wall as a
long-latency result; SWRITE sets %tcmp, which counts from the next cycle of %run, clears FTO where bit 0 of A is 1
unless FTO was set in this cycle, or replaces the split's signature.
(Readings and choices of the model it rests on: log 3; log 4, time left out; log 7, what %smask reads; log 10, what %team,
%gid and the cell registers read in the handler group; log 18, that SREAD of %sig reads after its own fold.) -/
def Obligations.SpecialRegisterWords : Prop :=
  ∀ (w : FWord Nat) (s : State) (it : Iss),
    let s0 := s.issued it (.sread w)
    let it0 := it.issued s (.sread w)
    let long := 0x30 ≤ w.x ∧ w.x ≤ 0x32
    (Issues (.sread w) s it → ¬long →
      Computes (.sread w) s it (dstTakes w.d (specialRegs w.x) (it.exec w.p) (specialVal s0 it0 w.x)) {})
    ∧ (Issues (.sread w) s it → long →
        Enters (.sread w) s it w.la (laneWrites w.d 2 (it.exec w.p) (specialVal s0 it0 w.x)) {})
    ∧ (Issues (.swrite w) s it → it.exec w.p ≠ 0 → w.x = 0x33 →
        Leaves (.swrite w) s it s { it.own with tcmp := BitVec.ofNat 64 (swriteVal w it), armed := false })
    ∧ (Issues (.swrite w) s it → it.exec w.p ≠ 0 → w.x = 0x40 →
        Leaves (.swrite w) s it s
          { it.own with fto := it.own.fto && (it.own.ftoNow || !bit (swriteVal w it) 0) })
    ∧ (Issues (.swrite w) s it → w.x = 0x41 →
        ∃ t g', exec (.swrite w) s = .next t ∧ it.frame s t g' ∧ it.spends (.swrite w) s t ∧ it.groupFrame it.own g'
          ∧ it.own.takes g' (fun _ => none)
          ∧ g'.split it.j = { it.completed (.swrite w) (it.sp.pc + 8) it.sp.cc (it.windows (.swrite w)) with
              sig := if it.exec w.p = 0 then it.sp.sig else BitVec.ofNat 32 (swriteVal w it) })
    ∧ (Issues (.swrite w) s it → it.exec w.p = 0 → w.x ≠ 0x41 → Computes (.swrite w) s it (fun _ => none) {})

/-- R295: outside the handler group XREAD and XWRITE raise cause 0x31; in it XREAD enters the trapped group's register and
XWRITE writes it, with the handler group's own registers as they were.
(Readings and choices of the model it rests on: log 10, log 11, log 21.) -/
def Obligations.TrappedRegisterWords : Prop :=
  ∀ (w : FWord RReg) (s : State) (it : Iss),
    let m := it.exec w.p
    (Issued (.xread w) s it → it.g.handler = false →
      Raises (.xread w) s it (it.trapOpen (s.issued it (.xread w)) 0x31 m))
    ∧ (Issued (.xwrite w) s it → it.g.handler = false →
        Raises (.xwrite w) s it (it.trapOpen (s.issued it (.xwrite w)) 0x31 m))
    ∧ ∀ (t : TrapRec) (g : Group), it.g.handler = true → it.c.serving = some t → t.group ≠ it.key →
        s.group? t.group = some g →
        (Issues (.xread w) s it →
          Enters (.xread w) s it w.la (laneWrites w.d 1 m fun l =>
            remoteRead g t.split w.x (if w.d.isVec then l else it.scalar w.b % 32)) {})
        ∧ (Issues (.xwrite w) s it → m ≠ 0 →
            Leaves (.xwrite w) s it (s.modGroup t.group fun g =>
              g.writeRegs (remoteWrites w.x w.a.isVec m (it.scalar w.b % 32) fun l => src32 s it w.a l)) it.own)

/-- R152, R153, R155, R156, R303, R304: SPRINT writes its reason code, with G where the lease is granted, and a grant
makes the group the island's holder with the budget less 256; SPREL ends a lease of its own launch and writes 0, else 1.
A request that is decided, or refused for its operands, bars a refreeze in its cycle, and a lease counts as held to the
end of the cycle that it ends in (R156).
(Readings and choices of the model it rests on: log 4, by which the grant and the release take effect at issue, with
none of their latency.) -/
def Obligations.LeaseWords : Prop :=
  (∀ (w : FWord Bool) (s : State) (it : Iss), Issues (.sprint w) s it → it.exec w.p ≠ 0 →
    let i := islandOf it.g.core
    let r := sprintReason s (s.island i) (it.scalar w.a) (it.pair w.b)
    Does (.sprint w) s it
      (if r = 0 then s.modIsland i fun x =>
          { x with holder := some (it.key, it.g.launch), lease := it.pair w.b - 256, ending := none, owed := 0,
                   granted := true, target := it.scalar w.a }
        else if 4 ≤ r then s.modIsland i fun x => { x with granted := true }
        else s) it.own (it.sp.pc + 8)
      (fun q => match w.d with | .s d => oneTakes (.s d) (BitVec.ofNat 32 r) q | _ => none)
      (FlagUpd.test (r == 0)) [])
  ∧ (∀ (w : FWord Bool) (s : State) (it : Iss), Issues (.sprint w) s it → it.exec w.p = 0 →
    Computes (.sprint w) s it (fun _ => none) {})
  ∧ ∀ (w : FWord Unit) (s : State) (it : Iss), Issues (.sprel w) s it → it.exec w.p ≠ 0 →
    let i := islandOf it.g.core
    let own := (s.island i).holder.map Prod.snd == some it.g.launch
    Does (.sprel w) s it
      (if own then s.modIsland i fun x =>
          { x with holder := none, lease := 0, ending := none, owed := 0, ended := true,
                   target := 400 + 25 * min (bits x.ctl.toNat 4 0) 18 }
        else s) it.own (it.sp.pc + 8)
      (fun q => match w.d with | .s d => oneTakes (.s d) (if own then 0 else 1) q | _ => none)
      (FlagUpd.test own) []

/-- R260, R261, R307, R308: YIELD lets its group stand back in the X16 cycles after its own; SIGCHK goes on where the
signature before it is IMM32, folds nothing, and else raises cause 0x60; PREF changes nothing; FENCE goes on where what
it waits for has happened, else it parks; a `.rel` fence stands before its lanes' later writes and changes nothing else.
(Readings and choices of the model it rests on: log 2, log 4.) -/
def Obligations.QuietWords : Prop :=
  (∀ (w : FWord Nat) (s : State) (it : Iss), Issues (.yieldw w) s it →
    Leaves (.yieldw w) s it s
      (if it.exec w.p = 0 ∨ w.x = 0 then it.own else { it.own with yieldLeft := w.x + 1 }))
  ∧ (∀ (imm : Nat) (s : State) (it : Iss),
    (Issues (.sigchk imm) s it → it.sp.sig.toNat = imm →
      ∃ t g', exec (.sigchk imm) s = .next t ∧ it.frame s t g' ∧ it.spends (.sigchk imm) s t ∧ it.groupFrame it.own g'
        ∧ it.own.takes g' (fun _ => none)
        ∧ g'.split it.j = { it.completed (.sigchk imm) (it.sp.pc + 8) it.sp.cc (it.windows (.sigchk imm)) with sig := it.sp.sig })
    ∧ (Issued (.sigchk imm) s it → it.sp.sig.toNat ≠ imm →
        Raises (.sigchk imm) s it { cause := 0x60, lane := lowest it.sp.mask, tmask := it.sp.mask,
                                    aux := it.sp.sig.toNat, pc := it.sp.pc + 8 }))
  ∧ (∀ (w : FWord XMem) (s : State) (it : Iss), Issues (.pref w) s it → Computes (.pref w) s it (fun _ => none) {})
  ∧ ∀ (w : FWord XMem) (s : State) (it : Iss),
    let s0 := s.issued it (.fence w)
    let met := fenceMet s it.key it.sp.mask w.x.ord w.x.obs
    (Issues (.fence w) s it → it.exec w.p = 0 → Leaves (.fence w) s it s it.own)
    ∧ (Issues (.fence w) s it → it.exec w.p ≠ 0 → met = true → w.x.ord = .rel →
        Leaves (.fence w) s it s { it.own with relFences := it.own.relFences ++ [(it.sp.mask, w.x.obs)] })
    ∧ (Issued (.fence w) s it → it.exec w.p ≠ 0 → met = true →
        Becomes (.fence w) s it (s0.fenced it.key it.sp.mask w.x.ord w.x.obs) (it.sp.pc + 8))
    ∧ (Issued (.fence w) s it → it.exec w.p ≠ 0 → met = false →
        Parks (.fence w) s it s0 (.fence w.x.ord w.x.obs))

/-- R296, R297: CONTAIN opens a region for an undivided group with no region open, and else traps; UNCONTAIN performs the
version's writes and the held commands and closes the region.
(Readings and choices of the model it rests on: log 11, log 23.) -/
def Obligations.ContainmentWords : Prop :=
  (∀ (id : Nat) (disp : Int) (s : State) (it : Iss),
    let one := it.g.liveSplits.length = 1 ∧ it.g.stack = []
    (Issued (.contain id disp) s it → ¬one →
      Raises (.contain id disp) s it { cause := 0x61, lane := lowest it.sp.mask, tmask := it.sp.mask, aux := 2, pc := it.sp.pc })
    ∧ (Issued (.contain id disp) s it → one → it.g.region.isSome = true →
        Raises (.contain id disp) s it (it.trapOpen (s.issued it (.contain id disp)) 0x31 it.sp.mask))
    ∧ (Issues (.contain id disp) s it → one → it.g.region = none →
        let r : Region :=
          { id := id, handler := it.target disp, mask := it.sp.mask, bytes := [], writes := [], lines := [], held := [],
            due := none }
        Leaves (.contain id disp) s it s { it.own with region := some r }))
  ∧ ∀ (s : State) (it : Iss), Issued .uncontain s it →
    let s0 := s.issued it .uncontain
    (it.g.liveSplits.length ≠ 1 →
      Raises .uncontain s it { cause := 0x61, lane := lowest it.sp.mask, tmask := it.sp.mask, aux := 2, pc := it.sp.pc })
    ∧ (it.g.liveSplits.length = 1 → it.g.region = none →
        Raises .uncontain s it (it.trapOpen s0 0x31 it.sp.mask))
    ∧ ∀ r, it.g.liveSplits.length = 1 → it.g.region = some r →
        let v := (s0.drain it.key).commitVersion it.key r.writes
        Becomes .uncontain s it ((r.held.foldl (fun s t => s.commitHeld it.key it.sp.mask it.l v.2 t) v.1).modGroup it.key
          fun g => { g with region := none }) (it.sp.pc + 8)

/-- R305, R306: TDSET puts the eight registers at A into the tensor descriptor that B names, and TDGET enters that
descriptor's eight words; bit 11 set raises cause 0x02 and a number above 255 cause 0x31.
(Readings and choices of the model it rests on: log 12.) -/
def Obligations.DescriptorWords : Prop :=
  (∀ (w : FWord Unit) (s : State) (it : Iss) (r : Nat), w.a = .s r → it.exec w.p ≠ 0 →
    let d := it.g.tdRegs r
    let n := it.scalar w.b
    (Issued (.tdset w) s it → d.getLsbD 11 = true →
      Raises (.tdset w) s it (it.trapWord 0x02 (it.exec w.p) (encode (.tdset w))))
    ∧ (Issued (.tdset w) s it → d.getLsbD 11 = false → 255 < n →
        Raises (.tdset w) s it (it.trapOpen (s.issued it (.tdset w)) 0x31 (it.exec w.p)))
    ∧ (Issues (.tdset w) s it → d.getLsbD 11 = false → n ≤ 255 →
        Leaves (.tdset w) s it (s.modCtx it.g.launch it.g.core fun c => { c with tds := Map.put c.tds 0 n d }) it.own))
  ∧ ∀ (w : FWord Unit) (s : State) (it : Iss), it.exec w.p ≠ 0 →
    let n := it.scalar w.b
    (Issued (.tdget w) s it → 255 < n →
      Raises (.tdget w) s it (it.trapOpen (s.issued it (.tdget w)) 0x31 (it.exec w.p)))
    ∧ (Issues (.tdget w) s it → n ≤ 255 →
        Enters (.tdget w) s it w.la (laneWrites w.d 8 (it.exec w.p) fun _ => (Map.get it.c.tds 0 n).toNat) {})

/-! ### Memory words (chapters 5 and 11) -/

/-- R6, R102, R119, R124, R251, R253 to R258, R398, R415, R416, R420: LD and LDU, where no lane has a problem, no line
is locked or poisoned and no CXL port is waited for, enter in every lane (LDU once) the value at A + B, each part as
R118 and R124 let it be read, extended as its width says; the writes read become seen, and memory is as before but for
the lanes' own writes there, which are performed first. Where no region is open and no older write is chosen, what is
read is then the bytes of physical memory, little-endian.
(Readings and choices of the model it rests on: log 2, log 12, log 20.) -/
def Obligations.GlobalLoads : Prop :=
  (∀ (w : FWord XMem),
     let load (i : Instr) (perLane : Bool) : Prop :=
       ∀ s it,
         let s0 := s.issued it i
         let it0 := it.issued s i
         let n := widthBytes w.x.w
         let m := it.exec w.p
         let strong := Order.strongly w.x.ord
         let accs := accesses it m perLane (gAddr s it w.a w.b)
         let s1 := s0.comeAfterAll it.key (accs.map fun a => (a.lanes, globalPlaces it0 a.addr n))
         let s2 := (s1.noteReads it0 w.x (accs.map fun a => (a, s1.gGot it0 a strong n))).mayBeLate it0 i w.x.ord
           (accs.flatMap fun a => globalPlaces it0 a.addr n)
         let ws := loadWrites w.d (Width.regs w.x.w) m perLane (accs.map fun a =>
           (a.lane, widthExtend w.x.w (s1.gRead it0 a strong n)))
         (∀ a ∈ accs, globalProb s0 it0 false true strong a.addr n = none) →
         (∀ a ∈ accs, s1.lockedAcc it0 a.addr n = false ∧ s1.accPoison it0 a.addr n = none) →
         (∀ a ∈ accs, ∀ x ∈ touched it0 a.addr n, portsOf s1 it0.l x.1 x.2 = []) →
           (Issued i s it → Becomes i s it (s2.writeLater it0 w.la ws {}) (it.sp.pc + 8))
           ∧ (Issues i s it → (∀ x ∈ s.atoms, x.group ≠ it.key) →
               EntersIn i s it s2 (lateResult s w.la ws {})
               ∧ ((∀ st ∈ s.stores, st.group ≠ it.key) → s2.mem = s.mem ∧ s2.stores = s.stores ∧ s2.hist = s.hist))
     load (.ld w) (memVec w.d w.a w.b) ∧ load (.ldu w) false)
  ∧ (∀ (s : State) (it : Iss) (a : Acc) (strong : Bool) (w : Width),
       let n := widthBytes w
       a.addr < 2 ^ 56 → s.inRegion it.key = false → s.older = [] →
       (∀ i < n, it.l.pinned (a.addr + i) = true) →
         s.gRead it a strong n = leNat ((List.range n).map fun i => Memory.read s.mem (it.l.phys (a.addr + i))))

/-- R118, R119, R122, R256 to R258: ST and STU, where no lane has a problem, no line is locked and no CXL port is waited
for, make their writes lane after lane (STU one) at A + B. Of translated addresses outside a region these are pending
stores of the width's bytes of D, one for each part of R118, and no byte of memory has changed; an alias store and a
store in a region act by the functions of R94 and R296 on memory or the version.
(Readings and choices of the model it rests on: log 2, log 12, log 17.) -/
def Obligations.GlobalStores : Prop :=
  ∀ (w : FWord XMem),
    let store (i : Instr) (perLane : Bool) : Prop :=
      ∀ s it,
        let s0 := s.issued it i
        let it0 := it.issued s i
        let n := widthBytes w.x.w
        let m := it.exec w.p
        let accs := accesses it m perLane (gAddr s it w.a w.b)
        let data (a : Acc) : Nat := dataVal it w.d (Width.regs w.x.w) a.lane
        let s1 := accs.foldl (fun s a => s.gWrite it0 w.x a n (data a) (it0.dataBad w.d (Width.regs w.x.w) a.lane)) s0
        let shape (st : Store) : Nat × Mask × Nat × List Byte := (st.group, st.lanes, st.addr, st.data)
        (∀ a ∈ accs, globalProb s0 it0 true true (Order.strongly w.x.ord) a.addr n = none) →
        (∀ a ∈ accs, s0.lockedAcc it0 a.addr n = false) → aliasPoison s0 it0 n accs = none →
        (∀ a ∈ accs, ∀ x ∈ touched it0 a.addr n, portsOf s0 it0.l x.1 x.2 = []) →
          (Issues i s it → s.inRegion it.key = false → (∀ a ∈ accs, inAlias a.addr = false) →
            (∀ x ∈ s.atoms, x.group ≠ it.key) →
              LeavesIn i s it s1
              ∧ s1.mem = s.mem ∧ s1.tags = s.tags ∧ s1.hist = s.hist ∧ s1.ctxs = s.ctxs
              ∧ s1.stores.map shape = s.stores.map shape ++ accs.flatMap fun a =>
                  (atomicParts a.addr n).map fun p =>
                    (it.key, a.lanes, it.l.phys (a.addr + p.1), ((leBytes n (data a)).drop p.1).take p.2))
          ∧ (Issued i s it → Becomes i s it s1 (it.sp.pc + 8))
    store (.st w) (memVec w.d w.a w.b) ∧ store (.stu w) false

/-- R113, R259, R262, R398, R400, R415, R416, R420: a memory word with a lane that has a problem performs nothing. The
lowest lane refused with cause 0x31 raises it with its address, where no lane meets cause 0x02, which comes first; and
where only pages outside the pins are met, the word is charged and the team ends, or the handler stops. A tensor word
raises cause 0x01 for a run of registers past the file and 0x02 for a descriptor or a width that does not fit; a
scratchpad atomic cause 0x31 for a place that is none or not aligned. A load, an alias store or a block's STT that meets
poison consumes it.
(Readings and choices of the model it rests on: log 4, log 10, log 12, log 17.) -/
def Obligations.MemoryWordsTrap : Prop :=
  ∀ (w : FWord XMem) (s : State) (it : Iss),
    let n := widthBytes w.x.w
    let m := it.exec w.p
    let vec := memVec w.d w.a w.b
    let vec1 := memVec w.d w.a (.imm 0)
    let strong := Order.strongly w.x.ord
    let refused (i : Instr) (ps : List (Acc × Option Prob)) : Prop :=
      let paid := if it.sp.held.isNone then s.pay it (encode i) else s
      let first (p : Prob) (a : Acc) : Prop := (ps.find? fun x => x.2 == some p).map Prod.fst = some a
      let free (p : Prob) : Prop := ∀ x ∈ ps, x.2 ≠ some p
      (∀ a, first .c02 a →
        Raises i s it { cause := 0x02, lane := a.lane, tmask := m, aux := encode i, pc := it.sp.pc })
      ∧ (∀ a, free .c02 → first .c31 a →
          Raises i s it { cause := 0x31, lane := a.lane, tmask := m, aux := a.addr, pc := it.sp.pc })
      ∧ (∀ a, free .c02 → free .c31 → first .out a →
          let ended := if it.g.handler then paid.stopHandler it.key it.g.launch else paid.endTeam it.g.launch it.g.team
          exec i s = .next (ended.mailEvent it.g.core 3 0x30 (whereField a.lane it.g.slot it.j) it.sp.pc.toNat a.addr 0))
    let global (i : Instr) (write window strong perLane : Bool) (addr : Nat → Nat) : Prop := Issued i s it →
      refused i ((accesses it m perLane addr).map fun a =>
        (a, globalProb (s.issued it i) (it.issued s i) write window strong a.addr n))
    let at4 := gAddr s it w.a w.b
    let at8 := fun l => srcVal s it .n64 w.a l
    (global (.ld w) false true strong vec at4 ∧ global (.ldu w) false true strong false at4
      ∧ global (.st w) true true strong vec at4 ∧ global (.stu w) true true strong false at4
      ∧ global (.atom w) true false true vec1 at8 ∧ global (.atomn w) true false true vec1 at8
      ∧ global (.atomu w) true false true false at8)
    ∧ (let accs := accesses it m vec (addr32 s it w.a w.b)
       privBad it n accs = none →
         (Issued (.ldl w) s it → refused (.ldl w) (privPages it false n accs))
         ∧ (Issued (.stl w) s it → refused (.stl w) (privPages it true n accs))
         ∧ ∀ a, (∀ x ∈ privPages it false n accs, x.2 = none) →
             accs.find? (fun a => (privBadKeys a.lane a.addr n).any it.g.bad.contains) = some a →
             Issued (.ldl w) s it → Consumes (.ldl w) s it (it.l.phys (privVa it a.lane a.addr)))
    ∧ (∀ a, (accesses it m vec1 fun l => src32 s it w.a l).find?
          (fun a => a.addr % n != 0 || (scrAt s it a.addr n).isNone) = some a →
         let t : Trap := { cause := 0x31, lane := a.lane, tmask := m, aux := a.addr, pc := it.sp.pc }
         (Issued (.atoms w) s it → Raises (.atoms w) s it t) ∧ (Issued (.atomsn w) s it → Raises (.atomsn w) s it t))
    ∧ (let d := Desc.of (Map.get it.c.tds 0 (it.scalar w.b % 256))
       let accs : List (Acc × List Nat) :=
         (accesses it m vec1 fun l => d.elemVa (tensorCoords it w.a d l)).map fun a => (a, tensorCoords it w.a d a.lane)
       let tensor (i : Instr) (write : Bool) : Prop := Issued i s it →
         (tensorRun w.a d.rank = true → Raises i s it (it.trapWord 0x01 m (encode i)))
         ∧ (tensorRun w.a d.rank = false → d.ok = false ∨ tensorWidth d w.x.w = false →
             Raises i s it (it.trapWord 0x02 m (encode i)))
         ∧ (tensorRun w.a d.rank = false → d.ok = true → tensorWidth d w.x.w = true →
             refused i (accs.map fun x => (x.1, tensorProb (s.issued it i) (it.issued s i) write d x.2)))
       tensor (.ldt w) false ∧ tensor (.stt w) true)
    ∧ (let load (i : Instr) (perLane : Bool) : Prop := Issued i s it →
         let it0 := it.issued s i
         let accs := accesses it m perLane at4
         let s1 := (s.issued it i).comeAfterAll it.key (accs.map fun a => (a.lanes, globalPlaces it0 a.addr n))
         (∀ a ∈ accs, globalProb (s.issued it i) it0 false true strong a.addr n = none) →
         (∀ a ∈ accs, s1.lockedAcc it0 a.addr n = false) →
         (∀ a ∈ accs, ∀ x ∈ touched it0 a.addr n, portsOf s1 it0.l x.1 x.2 = []) →
           ∀ pa, accs.findSome? (fun a => s1.accPoison it0 a.addr n) = some pa → Consumes i s it pa
       let store (i : Instr) (perLane : Bool) : Prop := Issued i s it →
         let accs := accesses it m perLane at4
         (∀ a ∈ accs, globalProb (s.issued it i) (it.issued s i) true true strong a.addr n = none) →
           ∀ pa, aliasPoison (s.issued it i) (it.issued s i) n accs = some pa → Consumes i s it pa
       load (.ld w) vec ∧ load (.ldu w) false ∧ store (.st w) vec ∧ store (.stu w) false)

/-- R111 to R113, R118, R255 to R257, R420: LDS and STS at places of the slice whose lines are present, LDL and STL within
the lane's private bytes: the loads enter what the places give them, the stores write the width's bytes of D there and
nothing else; an absent line is waited for, a place that is none raises cause 0x31, and LDS of a poisoned granule
consumes the poison. Poisoned data poisons what it is stored to.
(Readings and choices of the model it rests on: log 2, log 11, log 12, log 17, log 19.) -/
def Obligations.ScratchpadAndPrivateWords : Prop :=
  (∀ (w : FWord XMem) (s : State) (it : Iss),
    let n := widthBytes w.x.w
    let m := it.exec w.p
    let perLane := memVec w.d w.a w.b
    let strong := Order.strongly w.x.ord
    let accs := accesses it m perLane (addr32 s it w.a w.b)
    let data (a : Acc) : Nat := dataVal it w.d (Width.regs w.x.w) a.lane
    let spoilt (a : Acc) : Bool := it.dataBad w.d (Width.regs w.x.w) a.lane
    (∀ ps : List (Acc × Scr), ps.map Prod.fst = accs → (∀ x ∈ ps, scrAt s it x.1.addr n = some x.2) →
        (strong = true → ∀ a ∈ accs, a.addr % n = 0) →
        let absent := (ps.flatMap fun x => absentLines s it.g.launch n x.2).eraseDups
        (absent = [] →
          let it0 := it.issued s (.lds w)
          let s1 := (s.issued it (.lds w)).comeAfterAll it.key (ps.map fun x => (x.1.lanes, slicePlaces it x.2 n))
          let got (x : Acc × Scr) : Got := s1.scrGot it0 x.1 strong x.2 n
          let s2 := (s1.noteReads it0 w.x (ps.map fun x => (x.1, got x))).mayBeLate it0 (.lds w) w.x.ord
            (ps.flatMap fun x => slicePlaces it x.2 n)
          let ws := loadWrites w.d (Width.regs w.x.w) m perLane (ps.map fun x =>
            (x.1.lane, widthExtend w.x.w (got x).nat))
          (∀ x, Issued (.lds w) s it → ps.find? (fun x => scrBad s1 it0 n x.2) = some x → Consumes (.lds w) s it x.1.addr)
          ∧ ((∀ x ∈ ps, scrBad s1 it0 n x.2 = false) →
              (Issued (.lds w) s it → Becomes (.lds w) s it (s2.writeLater it0 w.la ws {}) (it.sp.pc + 8))
              ∧ (Issues (.lds w) s it → (∀ x ∈ s.atoms, x.group ≠ it.key) →
                  EntersIn (.lds w) s it s2 (lateResult s w.la ws {}))))
        ∧ (absent = [] →
            let it0 := it.issued s (.sts w)
            let s1 := ps.foldl (fun t x => t.scrWrite it0 x.1.lanes x.2 (leBytes n (data x.1)) false false (spoilt x.1)
              (t.accRels it0 w.x x.1.lanes)) (s.issued it (.sts w))
            (Issued (.sts w) s it → Becomes (.sts w) s it s1 (it.sp.pc + 8))
            ∧ (Issues (.sts w) s it → (∀ x ∈ s.atoms, x.group ≠ it.key) → LeavesIn (.sts w) s it s1))
        ∧ (Issued (.lds w) s it → absent ≠ [] → Waits (.lds w) s it (.lines absent))
        ∧ (Issued (.sts w) s it → absent ≠ [] → Waits (.sts w) s it (.lines absent)))
    ∧ (∀ a, accs.find? (fun a => (strong && a.addr % n != 0) || (scrAt s it a.addr n).isNone) = some a →
        let t : Trap := { cause := 0x31, lane := a.lane, tmask := m, aux := a.addr, pc := it.sp.pc }
        (Issued (.lds w) s it → Raises (.lds w) s it t) ∧ (Issued (.sts w) s it → Raises (.sts w) s it t))
    ∧ ((∀ a ∈ accs, a.addr + n ≤ it.l.r.psize) →
        (Issues (.ldl w) s it → (∀ x ∈ privPages it false n accs, x.2 = none) →
          (∀ a ∈ accs, (privBadKeys a.lane a.addr n).any it.g.bad.contains = false) →
            Enters (.ldl w) s it w.la (loadWrites w.d (Width.regs w.x.w) m perLane (accs.map fun a =>
              (a.lane, widthExtend w.x.w (it.own.privRead a.lane a.addr n)))) {})
        ∧ (Issues (.stl w) s it → (∀ x ∈ privPages it true n accs, x.2 = none) →
            Leaves (.stl w) s it s ((accs.foldl (fun g a => g.privWrite a.lane a.addr n (data a)) it.own).privPoison n accs
              (accs.filter spoilt))))
    ∧ ∀ a, accs.find? (fun a => decide (it.l.r.psize < a.addr + n)) = some a →
        let t : Trap := { cause := 0x31, lane := a.lane, tmask := m, aux := a.addr, pc := it.sp.pc }
        (Issued (.ldl w) s it → Raises (.ldl w) s it t) ∧ (Issued (.stl w) s it → Raises (.stl w) s it t))
  ∧ ∀ (s : State) (it : Iss) (lanes : Mask) (core off : Nat) (bs : List Byte) (spoilt : Bool) (c : Ctx),
      s.ctx? it.g.launch core = some c → c.res ≠ .saved → s.older = [] → s.atoms = [] →
        bs.length ≤ 8 ∨ bs.length % 8 = 0 →
        let s' := s.scrWrite it lanes (.slice core off) bs false false spoilt []
        (∀ o, s'.bytesAt (.scr it.g.launch core) o 1 =
          if off ≤ o ∧ o < off + bs.length then [bs.getD (o - off) 0] else s.bytesAt (.scr it.g.launch core) o 1)
        ∧ (∀ l k o, ckey l k ≠ ckey it.g.launch core → s'.bytesAt (.scr l k) o 1 = s.bytesAt (.scr l k) o 1)
        ∧ s'.mem = s.mem ∧ s'.stores = s.stores

/-- R69, R93, R94, R259: LDT enters each lane's element as f32, as its integer, or as its 64 bits; STT stores D converted
to the element's format, a block's element against the scale that stands in memory. (No lane has a problem, no line is
locked or poisoned, no port is waited for; that STT changes nothing else is said outside a region.)
(Readings and choices of the model it rests on: log 2, log 12, log 17.) -/
def Obligations.TensorElementWords : Prop :=
  ∀ (w : FWord XMem) (s : State) (it : Iss),
    let m := it.exec w.p
    let perLane := memVec w.d w.a (.imm 0)
    let strong := Order.strongly w.x.ord
    let d := Desc.of (Map.get it.c.tds 0 (it.scalar w.b % 256))
    let accs : List (Acc × List Nat) :=
      (accesses it m perLane fun l => d.elemVa (tensorCoords it w.a d l)).map fun a => (a, tensorCoords it w.a d a.lane)
    tensorRun w.a d.rank = false → d.ok = true → tensorWidth d w.x.w = true →
      (let s0 := s.issued it (.ldt w)
       let it0 := it.issued s (.ldt w)
       let s1 := s0.comeAfterAll it.key (accs.map fun x => (x.1.lanes, elemPlaces it0 d x.2))
       let s2 := (s1.noteReads it0 w.x (accs.map fun x => (x.1, tensorGot s1 it0 x.1 strong d x.2))).mayBeLate it0 (.ldt w)
         w.x.ord (accs.flatMap fun x => elemPlaces it0 d x.2)
       let ws := loadWrites w.d (Width.regs w.x.w) m perLane (accs.map fun x =>
         (x.1.lane, tensorLoad s1 it0 x.1 strong d x.2))
       (∀ x ∈ accs, tensorProb s0 it0 false d x.2 = none ∧ elemLocked s1 d x.2 = false) → elemPorts s1 it0 d accs = [] →
         (Issued (.ldt w) s it → ∀ pa, accs.findSome? (fun x => elemPoison s1 it0 d x.2) = some pa →
           Consumes (.ldt w) s it pa)
         ∧ ((∀ x ∈ accs, elemPoison s1 it0 d x.2 = none) →
             (Issued (.ldt w) s it → Becomes (.ldt w) s it (s2.writeLater it0 w.la ws {}) (it.sp.pc + 8))
             ∧ (Issues (.ldt w) s it → (∀ x ∈ s.atoms, x.group ≠ it.key) →
                 EntersIn (.ldt w) s it s2 (lateResult s w.la ws {}))))
      ∧ (let s0 := s.issued it (.stt w)
         let it0 := it.issued s (.stt w)
         let s1 := accs.foldl (fun t x =>
           let y := dataVal it w.d (Width.regs w.x.w) x.1.lane
           let spoilt := it.dataBad w.d (Width.regs w.x.w) x.1.lane
           let rels := t.accRels it0 w.x x.1.lanes
           if d.isBlock then t.putElem it0 x.1 strong d x.2 (Fmt.f32.read y) spoilt rels
           else t.vWrite it0 x.1.lanes (d.elemVa x.2) (leBytes d.elemBytes (tensorStore d y)) false spoilt rels) s0
         (∀ x ∈ accs, tensorProb s0 it0 true d x.2 = none ∧ elemLocked s0 d x.2 = false) → elemPorts s0 it0 d accs = [] →
           (Issued (.stt w) s it → d.isBlock = true →
             ∀ pa, accs.findSome? (fun x => elemPoison s0 it0 d x.2) = some pa → Consumes (.stt w) s it pa)
           ∧ ((d.isBlock = true → ∀ x ∈ accs, elemPoison s0 it0 d x.2 = none) →
               (Issued (.stt w) s it → Becomes (.stt w) s it s1 (it.sp.pc + 8))
               ∧ (Issues (.stt w) s it → s.inRegion it.key = false → (∀ x ∈ s.atoms, x.group ≠ it.key) →
                   LeavesIn (.stt w) s it s1)))

/-- R119, R262 to R264: an atomic is issued with its operand and operation, in the order of its lanes, and is performed
later, as one indivisible read and write; ATOM, ATOMU and ATOMS enter a result that waits for the old values, ATOMN and
ATOMSN return nothing. One that is performed writes what R263 says of the value there and nothing else, and its result
takes the old value. (Outside a region; no lane has a problem, no line is locked or absent, no port is waited for.) Where
lanes reach the handler scratchpad, theirs is performed at once.
(Readings and choices of the model it rests on: log 2, log 12.) -/
def Obligations.AtomicWords : Prop :=
  (∀ (w : FWord XMem) (s : State) (it : Iss),
    let n := widthBytes w.x.w
    let m := it.exec w.p
    let vec := memVec w.d w.a (.imm 0)
    let issued (i : Instr) (ret perLane : Bool) (r : State × List (Nat × Nat)) (xs : List (Acc × Space × Nat)) : Prop :=
      let s1 := r.1.postAtoms (it.issued s i) w ret n m perLane xs
      let shape (x : Atom) := (x.group, x.split, x.lanes, x.space, x.addr, x.bytes, x.op, x.arg, x.expected, x.outs, x.req)
      let late : Pend :=
        { id := s.nextId, writes := loadWrites w.d (n / 4) m perLane r.2, flags := {}, fto := false, left := w.la,
          waits := (List.range xs.length).map fun k => s.nextId + 1 + k }
      Does i s it s1 (it.seeing s1) (it.sp.pc + 8) (fun _ => none) {} (if ret then [late] else [])
      ∧ s1.mem = r.1.mem ∧ s1.stores = r.1.stores ∧ s1.ctxs = r.1.ctxs ∧ s1.hist = r.1.hist
      ∧ s1.atoms.map shape = r.1.atoms.map shape ++ xs.mapIdx fun k x =>
          (it.key, it.j, x.1.lanes, x.2.1, x.2.2, n, atomCode w, (atomArgs w it n x.1.lane).1, (atomArgs w it n x.1.lane).2,
            if ret then resultRegs w.d (n / 4) m perLane x.1 else [], if ret then some (s.nextId + 1 + k) else none)
    let global (i : Instr) (perLane ret : Bool) : Prop :=
      let s0 := s.issued it i
      let it0 := it.issued s i
      let accs := accesses it m perLane fun l => srcVal s it .n64 w.a l
      Issues i s it → s.inRegion it.key = false →
      (∀ a ∈ accs, globalProb s0 it0 true false true a.addr n = none ∧ s0.lockedAcc it0 a.addr n = false
          ∧ portsOf s0 it0.l a.addr n = []) →
        issued i ret perLane (s0, []) (accs.map fun a => (a, .mem, it.l.phys a.addr))
    let scratch (i : Instr) (ret : Bool) : Prop :=
      let s0 := s.issued it i
      ∀ ps : List (Acc × Scr), ps.map Prod.fst = accesses it m vec (fun l => src32 s it w.a l) →
        (∀ x ∈ ps, scrAt s it x.1.addr n = some x.2 ∧ x.1.addr % n = 0) → Issues i s it → (∀ p ∈ it.sp.pend, p.id ≠ s.nextId) →
        let absent := (ps.flatMap fun x => absentLines s it.g.launch n x.2).eraseDups
        let r := (inHandler ps).foldl (fun r x => State.atomHnd r.1 (it.issued s i) w n r.2 x.1 x.2) (s0, [])
        (absent ≠ [] → Waits i s it (.lines absent))
        ∧ (absent = [] → inSlices it ps ≠ [] → issued i ret vec r (inSlices it ps))
        ∧ (absent = [] → inSlices it ps = [] →
            if ret then EntersIn i s it r.1 (lateResult s w.la (loadWrites w.d (n / 4) m vec r.2) {}) else LeavesIn i s it r.1)
    global (.atom w) vec true ∧ global (.atomn w) vec false ∧ global (.atomu w) false true
    ∧ scratch (.atoms w) true ∧ scratch (.atomsn w) false)
  ∧ ∀ (s : State) (a : Atom), s.older = [] → s.stores = [] → s.atomBad a = false →
      (a.space = .mem → s.lost a.addr = false ∧ s.lost (a.addr + a.bytes - 1) = false) →
      (∀ launch core, a.space = .scr launch core → ∃ c, s.ctx? launch core = some c ∧ c.res ≠ .saved) →
      (∀ die, a.space ≠ .wd die) →
        let s' := s.performAtom a
        let old := leNat (s.bytesAt a.space a.addr a.bytes)
        let new := leBytes a.bytes (atomOp a.op (8 * a.bytes) old a.arg a.expected)
        (∀ i < a.bytes, s'.bytesAt a.space (a.addr + i) 1 = [new.getD i 0])
        ∧ (∀ p, a.space = .mem → p < a.addr ∨ a.addr + a.bytes ≤ p → Memory.read s'.mem p = Memory.read s.mem p)
        ∧ (∀ p, a.space ≠ .mem → Memory.read s'.mem p = Memory.read s.mem p)
        ∧ ∀ g req, s.group? a.group = some g → a.req = some req → a.split < g.splits.length →
            ∃ g', s'.group? a.group = some g'
              ∧ (g'.split a.split).pend = (g.split a.split).pend.map fun p =>
                  if p.waits.contains req then
                    { p with waits := p.waits.filter (· ≠ req)
                             writes := p.writes ++ a.outs.mapIdx fun i r =>
                               (r, BitVec.ofNat 32 (old / 2 ^ (32 * (i % max 1 (a.bytes / 4))))) }
                  else p

/-! ### Barriers (chapter 11) -/

/-- R266 to R270, R440: BAR arrives and parks until its phase completes; BARA arrives and gives D the phase before, with E
clear; BARW goes on where the phase is not bit 0 of B, else parks. An arrival can release, and a wait that ends can
acquire. A scope above core of a launch that has lost a die completes at once with E = 1. An arrival counts up to B, or to
the count its first arrival set; the last one turns the phase and clears both counts. A word with no active lane does
nothing; an id at or above NBAR, a count of 0 or above 4,095, and a scope with no core raise cause 0x31.
(Readings and choices of the model it rests on: log 11, log 22, log 26.) -/
def Obligations.NamedBarrierWords : Prop :=
  (∀ (w : FWord XBar) (s : State) (it : Iss),
     let m := it.exec w.p
     let id := it.scalar w.a
     let n := it.scalar w.b
     let core := (scopeCore s it w.x.scope).getD it.g.core
     let wide := w.x.scope != Scope.core
     let acq := acqObs w.x.ord w.x.obs
     let rel (i : Instr) : State × List Rel :=
       (s.issued it i).released it.key it.sp.mask (relObs w.x.ord w.x.obs) (Order.releases w.x.ord)
     let toD (x : Nat) (r : RegId) : Option Word :=
       match w.d with | .s d => oneTakes (.s d) (BitVec.ofNat 32 x) r | _ => none
     let traps (i : Instr) : Prop := Issued i s it → Raises i s it (it.trapOpen (s.issued it i) 0x31 m)
     (m = 0 → (Issues (.bar w) s it → Computes (.bar w) s it (fun _ => none) {})
       ∧ (Issues (.bara w) s it → Computes (.bara w) s it (fun _ => none) {})
       ∧ (Issues (.barw w) s it → Computes (.barw w) s it (fun _ => none) {}))
     ∧ (m ≠ 0 → it.l.nbar ≤ id → traps (.bar w) ∧ traps (.bara w) ∧ traps (.barw w))
     ∧ (m ≠ 0 → n = 0 ∨ 4095 < n → traps (.bar w) ∧ traps (.bara w))
     ∧ (m ≠ 0 → id < it.l.nbar → it.l.degraded = true → wide = true →
         let phase (i : Instr) : Nat := match s.ctx? it.g.launch core with
           | some c => b2n (c.bar id).phase
           | none => (Config.freeWord (s.issued it i).free).toNat % 2
         (1 ≤ n → n ≤ 4095 →
           (Issues (.bar w) s it → Computes (.bar w) s it (toD (phase (.bar w))) (flagE true))
           ∧ (Issues (.bara w) s it → Computes (.bara w) s it (toD (phase (.bara w))) (flagE true)))
         ∧ (Issues (.barw w) s it → Computes (.barw w) s it (toD (phase (.barw w))) (flagE true)))
     ∧ (m ≠ 0 → id < it.l.nbar → it.l.degraded = false ∨ wide = false →
         (s.ctx? it.g.launch core = none →
           (1 ≤ n → n ≤ 4095 → traps (.bar w) ∧ traps (.bara w)) ∧ traps (.barw w))
         ∧ ∀ c : Ctx, s.ctx? it.g.launch core = some c →
           let b := c.bar id
           let r (i : Instr) : Barrier × Bool := b.arrive n (rel i).2
           let arrived (i : Instr) : State := (rel i).1.barArrive it.g.launch core id n w.x.scope b (rel i).2
           (Issued (.bar w) s it → 1 ≤ n → n ≤ 4095 →
             let i := Instr.bar w
             Parks i s it (if (r i).2 then ((arrived i).waited it acq (r i).1.rels.done).modSplit it.key it.j fun sp =>
                 { sp with stall := releaseDelay w.x.scope } else arrived i)
               (.bar core id wide b.phase (r i).2 acq))
           ∧ (Issues (.bara w) s it → 1 ≤ n → n ≤ 4095 → (r (.bara w)).2 = false →
               Does (.bara w) s it ((rel (.bara w)).1.setBar it.g.launch core id (r (.bara w)).1) it.own (it.sp.pc + 8)
                 (toD (b2n b.phase)) (flagE false) [])
           ∧ (Issued (.bara w) s it → 1 ≤ n → n ≤ 4095 →
               Becomes (.bara w) s it ((arrived (.bara w)).writeNow it (scalarWrites w.d (b2n b.phase)) (flagE false))
                 (it.sp.pc + 8))
           ∧ (Issues (.barw w) s it → b.phase ≠ bit n 0 →
               let s1 := (rel (.barw w)).1.waited it acq b.rels.done
               Does (.barw w) s it s1 (it.seeing s1) (it.sp.pc + 8) (fun _ => none) (flagE false) [])
           ∧ (Issued (.barw w) s it → b.phase = bit n 0 →
               Parks (.barw w) s it (rel (.barw w)).1 (.bar core id wide b.phase false acq))))
  ∧ (∀ (b : Barrier) (n : Nat) (rels : List Rel),
       let exp := if b.expected = 0 then n else b.expected
       (b.arrived + 1 = exp →
         b.arrive n rels = ({ phase := !b.phase, arrived := 0, expected := 0, rels := b.rels.count rels true }, true))
       ∧ (b.arrived + 1 ≠ exp → b.arrive n rels =
           ({ phase := b.phase, arrived := b.arrived + 1, expected := exp, rels := b.rels.count rels false }, false)))

/-- R271 to R279: at a present, clean, aligned place TBINIT writes a new barrier, TBARR and TBEXP update it, TBTEST
gives D its PHASE, FAIL and ERROR with G where the phase has passed, and TBWAIT goes on there or parks. An arrival
lowers ARRV; one above it sets ERROR and leaves 0. An expectation and a landing move SECT; where both are zero the phase
advances and ARRV is RELOAD again; a malformed barrier only has ERROR set. A TBARR can release, and a wait or a test that
finds the phase passed can acquire. A word with no active lane does nothing; a place that is none or not aligned, and a
count or phase out of its range, raise cause 0x31; absent lines are waited for, and poison is consumed.
(Readings and choices of the model it rests on: log 2, log 11, log 26.) -/
def Obligations.TransactionBarrierWords : Prop :=
  (∀ (w : FWord XTb) (s : State) (it : Iss),
     let m := it.exec w.p
     let a := it.scalar w.a
     let n := it.scalar w.b
     let acq := acqObs w.x.ord w.x.obs
     let words : List (Instr × Nat × Nat × Bool) := [(.tbinit w, 1, 2 ^ 20 - 1, false), (.tbarr w, 1, 2 ^ 20 - 1, true),
       (.tbexp w, 1, 2 ^ 31 - 1, true), (.tbwait w, 0, 15, true), (.tbtest w, 0, 15, true)]
     (∀ x ∈ words,
       (m = 0 → Issues x.1 s it → Computes x.1 s it (fun _ => none) {})
       ∧ (m ≠ 0 → Issued x.1 s it →
           (scrAt s it a 16 = none ∨ a % 16 ≠ 0 ∨ n < x.2.1 ∨ x.2.2.1 < n →
             Raises x.1 s it { cause := 0x31, lane := lowest m, tmask := m, aux := a, pc := it.sp.pc })
           ∧ ∀ p, scrAt s it a 16 = some p → a % 16 = 0 → x.2.1 ≤ n → n ≤ x.2.2.1 →
               (absentLines s it.g.launch 16 p ≠ [] → Waits x.1 s it (.lines (absentLines s it.g.launch 16 p)))
               ∧ (absentLines s it.g.launch 16 p = [] → x.2.2.2 = true → s.atoms = [] → scrBad s it 16 p = true →
                   Consumes x.1 s it a)))
     ∧ ∀ (p : Scr), m ≠ 0 → scrAt s it a 16 = some p → a % 16 = 0 → absentLines s it.g.launch 16 p = [] →
       (∀ x ∈ s.atoms, x.group ≠ it.key) →
       let rel (i : Instr) : State × List Rel :=
         (s.issued it i).released it.key it.sp.mask (relObs w.x.ord w.x.obs) (Order.releases w.x.ord)
       let before (i : Instr) : State := (rel i).1.tbRead it p
       let at0 (i : Instr) : Tb := Tb.of (scrRead (rel i).1 it p 16)
       let put (i : Instr) (b : Tb) (rels : List Rel) : State := (before i).tbWrite it p (at0 i) b true rels
       let toD (x : Nat) (r : RegId) : Option Word :=
         match w.d with | .s d => oneTakes (.s d) (BitVec.ofNat 32 x) r | _ => none
       let marked (b : Tb) : Tb := if b.malformed then { b with error := true } else b
       let checked (i : Instr) : State := if (at0 i).malformed then put i (marked (at0 i)) [] else before i
       let passed (i : Instr) : State := (checked i).waited it acq ((checked i).tbDone it p)
       (Issues (.tbinit w) s it → 1 ≤ n → n < 2 ^ 20 →
         LeavesIn (.tbinit w) s it
           (((rel (.tbinit w)).1.tbWrite it p (at0 (.tbinit w))
             { top := 0, error := false, fail := false, sect := 0, reload := n, arrv := n, phase := 0 } false []).setCounted
             (it.place p).1 (it.place p).2 {}))
       ∧ (scrBad s it 16 p = false →
         (Issues (.tbarr w) s it → 1 ≤ n → n < 2 ^ 20 →
           let i := Instr.tbarr w
           let s1 := put i (Tb.arrive n (at0 i)) (rel i).2
           Does i s it s1 (it.seeing s1) (it.sp.pc + 8) (toD (at0 i).phase) {} [])
         ∧ (Issues (.tbexp w) s it → 1 ≤ n → n < 2 ^ 31 →
           LeavesIn (.tbexp w) s it (put (.tbexp w) (Tb.expect n (at0 (.tbexp w))) []))
         ∧ (Issues (.tbtest w) s it → n < 16 →
           let i := Instr.tbtest w
           let b := marked (at0 i)
           let s1 := if b.phase = n then checked i else passed i
           Does i s it s1 (it.seeing s1) (it.sp.pc + 8)
             (toD (b.phase + 16 * b2n b.fail + 32 * b2n b.error)) (FlagUpd.test (b.phase != n)) [])
         ∧ (n < 16 →
           let i := Instr.tbwait w
           (Issues i s it → (at0 i).phase ≠ n → LeavesIn i s it (passed i))
           ∧ (Issued i s it → (at0 i).phase = n → Parks i s it (checked i) (.tb a n acq)))))
  ∧ (∀ (b : Tb),
       let next (error : Bool) : Tb :=
         { b with error := error, phase := (b.phase + 1) % 16, arrv := b.reload, sect := 0 }
       (b.malformed = true → ∀ n, Tb.arrive n b = { b with error := true } ∧ Tb.land n b = { b with error := true }
         ∧ Tb.expect n b = { b with error := true })
       ∧ (b.malformed = false →
         (∀ n, n < b.arrv → Tb.arrive n b = { b with arrv := b.arrv - n })
         ∧ (∀ n, n = b.arrv → b.sect = 0 → Tb.arrive n b = next b.error)
         ∧ (∀ n, n = b.arrv → b.sect ≠ 0 → Tb.arrive n b = { b with arrv := 0 })
         ∧ (∀ n, b.arrv < n → b.sect = 0 → Tb.arrive n b = next true)
         ∧ (∀ n, b.arrv < n → b.sect ≠ 0 → Tb.arrive n b = { b with error := true, arrv := 0 })
         ∧ (∀ n : Int, let x := sext 32 (wrap 32 (b.sect + n))
             (x ≠ 0 ∨ b.arrv ≠ 0 → Tb.expect n b = { b with sect := x })
             ∧ (x = 0 → b.arrv = 0 → Tb.expect n b = next b.error))
         ∧ ∀ n : Nat, let x := sext 32 (wrap 32 (b.sect - n))
             (x ≠ 0 ∨ b.arrv ≠ 0 → Tb.land n b = { b with sect := x })
             ∧ (x = 0 → b.arrv = 0 → Tb.land n b = next b.error)))

/-! ### Engines (chapter 13) -/

/-- R128, R311: an engine command outside a region takes a table entry of its core with its operands; every write that is
visible to its split's lanes is performed before it, complete where it goes to a Host location, and visible to the
thread; no group changes.
(Readings and choices of the model it rests on: log 2, log 12, log 15.) -/
def Obligations.EngineThreadStarts : Prop :=
  ∀ (s : State) (it : Iss) (cmd : EngCmd) (bar : Option Nat), s.inRegion it.key = false →
    let s' := s.startEngine it cmd bar
    (∃ th, Map.find? s'.threads s.nextId = some th ∧ th.cmd = cmd ∧ th.bar = bar ∧ th.launch = it.g.launch
      ∧ th.core = it.g.core ∧ th.group = it.key ∧ th.held = false
      ∧ ∀ g, s.group? it.key = some g → ∀ id, g.sees it.sp.mask id = true → id ∈ th.vis)
    ∧ (∀ t, t ≠ s.nextId → Map.find? s'.threads t = Map.find? s.threads t)
    ∧ (∀ g, s.group? it.key = some g →
        (∀ st ∈ s'.stores, g.sees it.sp.mask st.id = false)
        ∧ ∀ w ∈ s'.hostWrites, w.id < s.nextWrite → g.sees it.sp.mask w.id = false)
    ∧ s'.groups = s.groups

/-- R310, R323 to R325, R327: CPY, CPYT and CPYC with their values in their limits start their thread, else raise cause
0x31 with the offset of the first that is not; CPYT with a descriptor or a conversion it does not take raises 0x02.
(Readings and choices of the model it rests on: log 12, log 15.) -/
def Obligations.CopyWords : Prop :=
  (∀ (w : FWord XCpy) (s : State) (it : Iss) (bar : Option Nat), Issued (.cpy w) s it → it.exec w.p ≠ 0 →
    LocalBar s it w.d bar →
      let check := copyCheck s it (w.x.dir == 1 || w.x.dir == 3) (w.x.dir == 0 || w.x.dir == 3) (it.block64 w.a 0)
        (it.block64 w.a 2) (it.scalar w.b)
      (∀ a b, check = .ok (a, b) → Starts (.cpy w) s it (.copy a b (it.scalar w.b)) bar)
      ∧ ∀ off, check = .error off → Raises (.cpy w) s it (it.trapWord 0x31 (it.exec w.p) off))
  ∧ (∀ (w : FWord XCpyt) (s : State) (it : Iss) (bar : Option Nat), Issued (.cpyt w) s it → it.exec w.p ≠ 0 →
      let n := it.block w.a 3
      let td := Map.get it.c.tds 0 (n % 256)
      let d := Desc.of td
      let o := it.block64 w.a 0
      let dst := it.block w.a 2
      (d.ok = false ∨ cvtAllowed d w.x = false →
        Raises (.cpyt w) s it (it.trapWord 0x02 (it.exec w.p) (encode (.cpyt w))))
      ∧ (d.ok = true → cvtAllowed d w.x = true → LocalBar s it w.d bar →
          StartsIf (.cpyt w) s it (it.exec w.p)
            [(0, d.isBlock && bits o 15 0 % 32 != 0), (2, placeBad s it true 16 dst), (3, decide (256 ≤ n)),
             (3, pastSlice s it dst (tileSize d w.x) || tileInStates s d o)]
            (.tile td (bits o 15 0) (bits o 31 16) (bits o 47 32) (bits o 63 48) ((slicePlace s it true dst).getD (0, 0)).1
              ((slicePlace s it true dst).getD (0, 0)).2 w.x) bar))
  ∧ ∀ (w : FWord Unit) (s : State) (it : Iss) (bar : Option Nat), Issued (.cpyc w) s it → it.exec w.p ≠ 0 →
      LocalBar s it w.d bar →
      let src := it.block w.a 0
      let n := it.block w.a 1
      let dst := it.block64 w.a 2
      let ver := it.block64 w.a 4
      StartsIf (.cpyc w) s it (it.exec w.p)
        [(0, placeBad s it true 1 src), (1, n == 0 || decide (65536 < n)), (2, deviceBad it.l dst),
         (4, deviceBad it.l ver || ver % 8 != 0 || s.inSlotStates ver 8), (1, pastSlice s it src n),
         (3, rangeBad s it.l dst n LocKind.device),
         (5, decide (dst < ver + 8) && decide (ver < dst + n))]
        (.commit ((slicePlace s it true src).getD (0, 0)).1 ((slicePlace s it true src).getD (0, 0)).2 n dst ver
          (it.block64 w.a 6)) bar

/-- R172, R173, R327: STAGE starts entry n of the core's copy schedule, counts it and gives D its number n, and all ones
where the schedule is at its end; an entry its CPY or CPYT would refuse is counted and raises cause 0x31 with n.
(An entry behind a CXL port that is not ready is waited for, R352.)
(Readings and choices of the model it rests on: log 4, log 12, log 15, log 20.) -/
def Obligations.StageWord : Prop :=
  ∀ (w : FWord Unit) (s : State) (it : Iss), it.exec w.p ≠ 0 →
    let n := it.c.stage
    let s0 := s.issued it (.stage w)
    let it0 := it.issued s (.stage w)
    let next : State := s0.modCtx it.g.launch it.g.core fun c => { c with stage := n + 1 }
    let entry := stageEntry s0 it0 (leNat (s.physBytes (it.l.phys (it.l.r.sched + 32 * n)) 32))
    let paid := if it.sp.held.isNone then s.pay it (encode (.stage w)) else s
    let toD (x : Nat) (r : RegId) : Option Word :=
      match w.d with | .s d => oneTakes (.s d) (BitVec.ofNat 32 x) r | _ => none
    let ports := portsOf s it.l (it.l.r.sched + 32 * n) 32
    (Issues (.stage w) s it → it.l.r.nsched ≤ n → Computes (.stage w) s it (toD 0xFFFFFFFF) {})
    ∧ (Issued (.stage w) s it → n < it.l.r.nsched → ports ≠ [] → Waits (.stage w) s it (.ports ports))
    ∧ (Issued (.stage w) s it → n < it.l.r.nsched → ports = [] → ∀ cmd bar, entry = some (cmd, bar) →
        Becomes (.stage w) s it ((next.startEngine it0 cmd (some bar)).writeNow it (scalarWrites w.d n) {}) (it.sp.pc + 8))
    ∧ (Issued (.stage w) s it → n < it.l.r.nsched → ports = [] → entry = none →
        exec (.stage w) s = .next ((paid.modCtx it.g.launch it.g.core fun c => { c with stage := n + 1 }).raise it.key it.j
          { cause := 0x31, lane := lowest (it.exec w.p), tmask := it.exec w.p, aux := n, pc := it.sp.pc }))

/-- R310, R328, R329: GPOOL and SCATA with a table of a format they take and values in their limits start their thread;
another table raises cause 0x02.
(Readings and choices of the model it rests on: log 12, log 15.) -/
def Obligations.GatherAndScatterWords : Prop :=
  (∀ (w : FWord XGpool) (s : State) (it : Iss) (bar : Option Nat), Issued (.gpool w) s it → it.exec w.p ≠ 0 →
    let r (i : Nat) : Nat := it.block w.a i
    let td := Map.get it.c.tds 0 (r 6 % 256)
    let d := Desc.of td
    let fits := d.ok && gatherFmt d && !(w.x.ofmt == 11 && d.extent 0 % 32 != 0)
    let n := pooledBytes d w.x
    (fits = false → Raises (.gpool w) s it (it.trapWord 0x02 (it.exec w.p) (encode (.gpool w))))
    ∧ (fits = true → LocalBar s it w.d bar →
        StartsIf (.gpool w) s it (it.exec w.p)
          [(0, placeBad s it false 4 (r 0)), (1, w.x.mode != 0 && placeBad s it false 4 (r 1)),
           (2, w.x.mode == 4 && placeBad s it false 4 (r 2)),
           (3, r 3 == 0 || decide ((if w.x.mode = 0 then 2 ^ 20 else 65535) < r 3)), (4, placeBad s it false 16 (r 4)),
           (5, r 5 % 16 != 0), (6, decide (256 ≤ r 6)), (7, r 7 != 0), (6, decide (r 5 < n)),
           (6, pastSlice s it (r 4) ((r 3 - 1) * r 5 + n))]
          (.gpool td it.g.core (r 0) (r 1) (r 2) (r 3) (r 4) (r 5) w.x) bar))
  ∧ ∀ (w : FWord Unit) (s : State) (it : Iss) (bar : Option Nat), Issued (.scata w) s it → it.exec w.p ≠ 0 →
    let r (i : Nat) : Nat := it.block w.a i
    let td := Map.get it.c.tds 0 (r 4 % 256)
    let d := Desc.of td
    (d.ok = false ∨ scatterFmt d = false → Raises (.scata w) s it (it.trapWord 0x02 (it.exec w.p) (encode (.scata w))))
    ∧ (d.ok = true → scatterFmt d = true → LocalBar s it w.d bar →
        StartsIf (.scata w) s it (it.exec w.p)
          [(0, placeBad s it false 16 (r 0)), (1, placeBad s it false 4 (r 1)), (2, r 2 == 0 || decide (2 ^ 20 < r 2)),
           (3, r 3 % 16 != 0), (4, decide (256 ≤ r 4)), (5, r 5 != 0),
           (4, pastSlice s it (r 0) ((r 2 - 1) * r 3 + packedRow d.halfBytes (d.extent 0)))]
          (.scata td it.g.core (r 0) (r 1) (r 2) (r 3)) bar)

/-- R310, R320 to R322: WMV and WLOAD with their values in their limits start their thread; WLOAD outside a weight-setup
launch, and inside a region, raises cause 0x31.
(Readings and choices of the model it rests on: log 12, log 15.) -/
def Obligations.WeightDieWords : Prop :=
  (∀ (w : FWord Nat) (s : State) (it : Iss) (bar : Option Nat), Issued (.wmv w) s it → it.exec w.p ≠ 0 →
    LocalBar s it w.d bar →
    let r (i : Nat) : Nat := it.block w.a i
    let row := if w.x = 1 then r 5 * r 6 else r 5 * r 6 / 2
    StartsIf (.wmv w) s it (it.exec w.p)
      [(0, placeBad s it false 16 (r 0)), (1, r 1 % 16 != 0), (2, placeBad s it false 16 (r 2)), (3, r 3 % 16 != 0),
       (4, decide (262143 < r 4)), (5, r 5 == 0 || decide (65536 < r 5)),
       (6, decide (r 6 < 32) || decide (65536 < r 6) || r 6 % 32 != 0), (7, r 7 == 0 || decide (256 < r 7)),
       (6, decide (r 1 < 2 * r 6)), (5, decide (r 3 < 4 * r 5)),
       (6, decide (2 ^ 30 < 4096 * r 4 + row + r 5 * r 6 / 32)), (7, pastSlice s it (r 0) ((r 7 - 1) * r 1 + 2 * r 6)),
       (7, pastSlice s it (r 2) ((r 7 - 1) * r 3 + 4 * r 5))]
      (.wmv it.g.core (r 0) (r 1) (r 2) (r 3) (r 4) (r 5) (r 6) (r 7) (w.x == 1)) bar)
  ∧ ∀ (w : FWord Unit) (s : State) (it : Iss) (bar : Option Nat), Issued (.wload w) s it → it.exec w.p ≠ 0 →
    let off := it.block w.a 2
    let n := it.block w.a 3
    let src := it.block64 w.a 0
    (s.inRegion it.key = true ∨ it.l.r.kind ≠ 2 →
      Raises (.wload w) s it (it.trapOpen (s.issued it (.wload w)) 0x31 (it.exec w.p)))
    ∧ (s.inRegion it.key = false → it.l.r.kind = 2 → LocalBar s it w.d bar →
        StartsIf (.wload w) s it (it.exec w.p)
          [(0, deviceBad it.l src || src % 128 != 0), (2, decide (262143 < off)),
           (3, decide (n < 128) || decide (2 ^ 30 < n) || n % 128 != 0), (3, rangeBad s it.l src n LocKind.device),
           (3, decide (2 ^ 30 < 4096 * off + n))]
          (.wload (dieOf it.g.core) src off n) bar)

/-! ### The fabric (chapter 13) -/

/-- R330 to R334, R348 to R350: FLD and FATOM enter one result that waits for an answer per access, and send the
requests; FST and FATOMN send theirs, or set FTO where no plane is ready; FPUT and FGET start their thread. (Each
address reaches a peer; FST, FATOM, FATOMN and FPUT outside a region, where they raise cause 0x31.) A word that writes
at a peer releases what its lanes see, and FST marks data that is poisoned. A returning access remembers which registers
its answer gives, when it was issued and with which limit; with no plane it is not sent.
(Readings and choices of the model it rests on: log 2, log 11, log 29.) -/
def Obligations.FabricWords : Prop :=
  ((∀ (w : FWord XMem) (s : State) (it : Iss), it.exec w.p ≠ 0 →
     let n := widthBytes w.x.w
     let m := it.exec w.p
     let reaches (i : Instr) (write perLane : Bool) (addr : Nat → Nat) : Prop :=
       ∀ a ∈ accesses it m perLane addr, peerProb (s.issued it i) (it.issued s i) write a.addr n = none
     let ga := gAddr s it w.a w.b
     let aa (l : Nat) : Nat := srcVal s it .n64 w.a l
     let v3 := memVec w.d w.a w.b
     let v2 := memVec w.d w.a (.imm 0)
     (Issued (.fld w) s it → reaches (.fld w) false v3 ga →
       Becomes (.fld w) s it ((s.issued it (.fld w)).askAll (it.issued s (.fld w)) w.x w.la n (widthSigned w.x.w)
         (accesses it m v3 ga) (resultRegs w.d (Width.regs w.x.w) m v3) fun _ => .read n) (it.sp.pc + 8))
     ∧ (s.inRegion it.key = true → ∀ i ∈ [Instr.fst w, .fatom w, .fatomn w],
         Issued i s it → Raises i s it (it.trapOpen (s.issued it i) 0x31 m))
     ∧ (s.inRegion it.key = false →
       (Issued (.fst w) s it → reaches (.fst w) true v3 ga →
         Becomes (.fst w) s it (((s.issued it (.fst w)).peerReleases (it.issued s (.fst w)) w.x (accesses it m v3 ga)).tellAll
           (it.issued s (.fst w)) w.x n (accesses it m v3 ga) fun a =>
             (if (it.issued s (.fst w)).dataBad w.d (Width.regs w.x.w) a.lane then PeerOp.spoil else PeerOp.write)
               (leBytes n (dataVal it w.d (Width.regs w.x.w) a.lane))) (it.sp.pc + 8))
       ∧ (Issued (.fatom w) s it → reaches (.fatom w) true v2 aa →
         Becomes (.fatom w) s it (((s.issued it (.fatom w)).peerReleases (it.issued s (.fatom w)) w.x
           (accesses it m v2 aa)).askAll (it.issued s (.fatom w)) w.x w.la n false
              (accesses it m v2 aa) (resultRegs w.d (n / 4) m v2) (peerAtomic w it n))
           (it.sp.pc + 8))
       ∧ (Issued (.fatomn w) s it → reaches (.fatomn w) true v2 aa →
         Becomes (.fatomn w) s it (((s.issued it (.fatomn w)).peerReleases (it.issued s (.fatomn w)) w.x
           (accesses it m v2 aa)).tellAll (it.issued s (.fatomn w)) w.x n (accesses it m v2 aa) (peerAtomic w it n)) (it.sp.pc + 8))))
   ∧ ∀ (w : FWord Unit) (s : State) (it : Iss) (bar : Option Nat), it.exec w.p ≠ 0 → LocalBar s it w.d bar →
     let va := it.block64 w.a 0
     let off := it.block w.a 2
     let n := it.block w.a 3
     let rb := it.block64 w.a 4
     (Issued (.fput w) s it → s.inRegion it.key = true →
       Raises (.fput w) s it (it.trapOpen (s.issued it (.fput w)) 0x31 (it.exec w.p)))
     ∧ (Issued (.fput w) s it → s.inRegion it.key = false →
       StartsIf (.fput w) s it (it.exec w.p)
         [(0, remoteBad s it va), (2, placeBad s it false 1 off), (3, n == 0 || decide (2 ^ 24 < n)),
          (4, rb != 0 && (rb % 16 != 0 || remoteBad s it rb)), (3, pastSlice s it off n)]
         (.fput va it.g.core off n rb) bar)
     ∧ (Issued (.fget w) s it →
       StartsIf (.fget w) s it (it.exec w.p)
         [(0, remoteBad s it va), (2, placeBad s it false 1 off), (3, n == 0 || decide (2 ^ 24 < n)),
          (4, it.block w.a 4 != 0), (5, it.block w.a 5 != 0), (3, pastSlice s it off n)]
         (.fget va it.g.core off n) bar))
  ∧ (∀ (s : State) (it : Iss) (x : XMem) (la n lane va dev xidx off : Nat) (signed : Bool)
     (regs : Acc → List RegId) (op : Acc → PeerOp)
       (lanes : Mask) (g : Group),
       s.group? it.key = some g → s.importAt (it.l.phys va) = some (dev, xidx, off) →
         let a : Acc := ⟨lane, lanes, va⟩
         let s' := s.askAll it x la n signed [a] regs op
         let id := s.nextId + 1
         s'.fabricOut = s.fabricOut ++ (if s.noPlane then [] else [.request dev id xidx off (op a)])
         ∧ (∃ r, Map.find? s'.fabReqs id = some r ∧ r.regs = regs a ∧ r.bytes = n ∧ r.signed = signed ∧ r.returns = true
             ∧ r.sent = !s.noPlane ∧ r.acq = acqObs x.ord x.obs ∧ r.lanes = lanes ∧ r.limit = max 1000 s.regs.ftlimit
             ∧ r.issued = (s.die (dieOf it.g.core)).wall ∧ r.timedOut = false)
         ∧ s'.group? it.key = some (g.modSplit it.j fun sp => { sp with pend := sp.pend ++
             [{ id := s.nextId, writes := [], flags := {}, fto := false, left := la, waits := [id] }] })
         ∧ s'.mem = s.mem ∧ s'.nextId = s.nextId + 2)

/-! ### Parcels (chapters 6 and 13) -/

/-- R134, R137, R335 to R340: the parcel words through a live, unlocked handle whose slot state is pinned, outside a
region: PFREE frees the slot, PADDR gives its address, PSTAT enters its state word, LDP enters what the slot holds, STP
and STPR issue their writes without and with a tag, POST seals the slot and starts its transit; PALLOC takes the lowest
FREE slot; PRECV takes the oldest handle of an inbox, and the releases of its POST. A dead handle raises cause 0x42, a
locked slot 0x40, an access that is not aligned 0x31 and one past the parcel's length 0x41.
(Readings and choices of the model it rests on: log 2, log 11, log 12, log 36.) -/
def Obligations.ParcelWords : Prop :=
  (∀ (w : FWord Unit) (s : State) (it : Iss), it.exec w.p ≠ 0 →
    let x := it.pair w.a
    let h := Handle.of x
    let e := s.arena h.arena
    let sl := s.slot h.arena h.index
    let dead : Trap := it.trapWord 0x42 (it.exec w.p) x
    (s.liveHandle h = false →
      (Issued (.pfree w) s it → Raises (.pfree w) s it dead) ∧ (Issued (.paddr w) s it → Raises (.paddr w) s it dead)
      ∧ (Issued (.pstat w) s it → Raises (.pstat w) s it dead)
      ∧ ∀ (v : FWord XMem), v.p = w.p → v.a = w.a →
          (Issued (.ldp v) s it → Raises (.ldp v) s it dead) ∧ (Issued (.stp v) s it → Raises (.stp v) s it dead)
          ∧ (Issued (.stpr v) s it → Raises (.stpr v) s it dead))
    ∧ (s.liveHandle h = true → sl.locked = true →
      let locked : Trap := it.trapWord 0x40 (it.exec w.p) x
      (Issued (.pfree w) s it → Raises (.pfree w) s it locked) ∧ (Issued (.paddr w) s it → Raises (.paddr w) s it locked)
      ∧ ∀ (v : FWord XMem), v.p = w.p → v.a = w.a →
          (Issued (.ldp v) s it → Raises (.ldp v) s it locked) ∧ (Issued (.stp v) s it → Raises (.stp v) s it locked)
          ∧ (Issued (.stpr v) s it → Raises (.stpr v) s it locked))
    ∧ (s.liveHandle h = true → it.l.pinned (e.sstate + 8 * h.index) = true →
      (Issues (.pfree w) s it → sl.locked = false → s.inRegion it.key = false →
        Leaves (.pfree w) s it (((s.issued it (.pfree w)).drainSlot it.l h.arena h.index).modSlot
          h.arena h.index fun y => { gen := nextGen y.gen, st := 0, cause := 0, len := 0 }) it.own)
      ∧ (Issues (.paddr w) s it → sl.locked = false →
        let va := e.base + h.index * 2 ^ e.slog
        Computes (.paddr w) s it (fun r => match w.d with
          | .s d => if r = .s (d + 1) then some (BitVec.ofNat 32 (va / 2 ^ 32))
              else if r = .s d then some (BitVec.ofNat 32 va) else none
          | _ => none) {})
      ∧ (Issues (.pstat w) s it →
        Enters (.pstat w) s it w.la (pairWrites w.d sl.word) {})))
  ∧ (∀ (w : FWord Unit) (s : State) (it : Iss), it.exec w.p ≠ 0 → s.inRegion it.key = false →
    let a := it.scalar w.a
    let len := it.scalar w.b
    let e := s.arena a
    Issues (.palloc w) s it → a < 128 → e.valid = true → e.inbox = false → len ≠ 0 → len ≤ 2 ^ 19 → 128 * len ≤ 2 ^ e.slog →
    it.l.pinned e.sstate = true →
      (s.freeSlot a = none → Enters (.palloc w) s it w.la (pairWrites w.d 0) (FlagUpd.test false))
      ∧ ∀ k, s.freeSlot a = some k → (∀ p ∈ pagesOf (e.slotVa k) (128 * len), it.l.pinned p = true) →
        let s1 := ((s.issued it (.palloc w)).drainSlot it.l a k).allocSlot it.l a k len
        let handle := s.regs.devno * 2 ^ 55 + a * 2 ^ 48 + k * 2 ^ 16 + (s.slot a k).gen
        EntersIn (.palloc w) s it s1 (lateResult s w.la (pairWrites w.d handle) (FlagUpd.test true)))
  ∧ (∀ (w : FWord XMem) (s : State) (it : Iss), it.exec w.p ≠ 0 → s.inRegion it.key = false →
    let x := it.pair w.a
    let h := Handle.of x
    let e := s.arena h.arena
    let sl := s.slot h.arena h.index
    let n := widthBytes w.x.w
    let m := it.exec w.p
    let vec := w.d.isVec || w.b.isVec
    let accs := accesses it m vec fun l => e.slotVa h.index + src32 s it w.b l
    let fits (i : Instr) (write : Bool) : Prop := ∀ a ∈ accs, a.addr % n = 0
      ∧ a.addr - e.slotVa h.index + n ≤ 128 * sl.len ∧ transProb (s.issued it i) it.l write a.addr n = none
    let bytes (a : Acc) : List Byte := leBytes n (dataVal it w.d (Width.regs w.x.w) a.lane)
    let shape (st : Store) : Nat × Mask × Nat × List Byte × Bool := (st.group, st.lanes, st.addr, st.data, st.tag)
    let stores (i : Instr) (tag : Bool) : Prop :=
      let it0 := it.issued s i
      let s1 := accs.foldl (fun t a => t.vWrite it0 a.lanes a.addr (bytes a) tag
        (it0.dataBad w.d (Width.regs w.x.w) a.lane) (t.accRels it0 w.x a.lanes)) (s.issued it i)
      (∀ x ∈ s.atoms, x.group ≠ it.key) →
      LeavesIn i s it s1 ∧ s1.mem = s.mem ∧ s1.tags = s.tags
      ∧ s1.stores.map shape = s.stores.map shape ++ accs.flatMap fun a =>
          (atomicParts a.addr n).map fun p =>
            (it.key, a.lanes, it.l.phys (a.addr + p.1), ((bytes a).drop p.1).take p.2, tag)
    s.liveHandle h = true → sl.locked = false → it.l.pinned (e.sstate + 8 * h.index) = true →
      (∀ a, accs.find? (fun a => a.addr % n != 0) = some a →
        let t : Trap := { cause := 0x31, lane := a.lane, tmask := m, aux := a.addr, pc := it.sp.pc }
        ∀ i ∈ [Instr.ldp w, .stp w, .stpr w], Issued i s it → Raises i s it t)
      ∧ (∀ a, (∀ b ∈ accs, b.addr % n = 0) →
          let t : Trap := { cause := 0x41, lane := a.lane, tmask := m, aux := x, pc := it.sp.pc }
          let past (b : Acc) : Bool := decide (sl.len * 128 < b.addr - e.slotVa h.index + n)
          (accs.find? past = some a → ∀ i ∈ [Instr.ldp w, .stp w], Issued i s it → Raises i s it t)
          ∧ (accs.find? (fun b => past b || decide (sl.len * 128 ≤ dataVal it w.d 1 b.lane)) = some a →
              Issued (.stpr w) s it → Raises (.stpr w) s it t))
      ∧ (Issues (.ldp w) s it → fits (.ldp w) false → (∀ x ∈ s.atoms, x.group ≠ it.key) →
        let it0 := it.issued s (.ldp w)
        let s1 := (s.issued it (.ldp w)).comeAfterAll it.key (accs.map fun a => (a.lanes, globalPlaces it0 a.addr n))
        let got (a : Acc) : Got := s1.vGot it0 a (Order.strongly w.x.ord) n
        (∀ a ∈ accs, inAlias a.addr = false ∧ portsOf s1 it0.l a.addr n = [] ∧ s1.lockedAcc it0 a.addr n = false
          ∧ s1.accPoison it0 a.addr n = none) →
        EntersIn (.ldp w) s it ((s1.noteReads it0 w.x (accs.map fun a => (a, got a))).mayBeLate it0 (.ldp w) w.x.ord
            (accs.flatMap fun a => globalPlaces it0 a.addr n))
          (lateResult s w.la (loadWrites w.d (Width.regs w.x.w) m vec (accs.map fun a =>
            (a.lane, widthExtend w.x.w (got a).nat))) {}))
      ∧ (Issues (.stp w) s it → fits (.stp w) true → stores (.stp w) false)
      ∧ (Issues (.stpr w) s it → fits (.stpr w) true → (∀ a ∈ accs, dataVal it w.d 1 a.lane < 128 * sl.len) →
        stores (.stpr w) true)
      ∧ (Issues (.post w) s it → ∀ bar, LocalBar s it w.d bar →
        let b := it.scalar w.b
        bits b 15 9 = 0 → bits b 31 19 = 0 →
          let s0 := s.issued it (.post w)
          let it0 := it.issued s (.post w)
          let rel := s0.postRel it0 w.x.obs
          let s1 := { s0.drainIds rel.writes with handleRels := Map.ins s0.handleRels h.toNat rel }
          Leaves (.post w) s it (((s1.startEngine it0 (.post h.arena h.index (bits b 8 0) (bits b 18 16) none) bar).drainSlot
            it.l h.arena h.index).modSlot h.arena h.index fun y => { y with st := 2, cause := 0 }) it.own))
  ∧ ∀ (w : FWord XMem) (s : State) (it : Iss), it.exec w.p ≠ 0 →
    let n := it.scalar w.b
    (Issued (.precv w) s it → 7 < n → Raises (.precv w) s it (it.trapOpen (s.issued it (.precv w)) 0x31 (it.exec w.p)))
    ∧ (Issues (.precv w) s it → n ≤ 7 →
      (∀ h rest, (s.inboxArena n).isSome = true → Map.get s.inboxes [] n = h :: rest →
        let s0 := s.issued it (.precv w)
        EntersIn (.precv w) s it
          (({ s0 with inboxes := Map.put s0.inboxes [] n rest } : State).popped (it.issued s (.precv w)) w.x.obs h)
          (lateResult s w.la (pairWrites w.d h) (FlagUpd.test true)))
      ∧ ((s.inboxArena n).isSome = false ∨ Map.get s.inboxes [] n = [] →
          Enters (.precv w) s it w.la (pairWrites w.d 0) (FlagUpd.test false)))

/-! ### Matrix words (chapter 13) -/

/-- R67, R312, R315 to R319, R429, R430: with a tile allotted to the team, MMA queues its operation at its unit, with
the fragments as they are read now; MMAQ parks until its set is complete, and completes it as the fourth; MMAS queues an
operation whose B its thread reads; MZERO clears a tile, MLD loads one, each two rows by their lane, MST stores one and
MRD enters a row; a row that fails its check sets E, gives vector 66 and makes its unit's self-test due. A tile that is
not allotted, an image that is no aligned place, a row from 64 on, a set of two formats, and a unit with too many fenced
sub-arrays raise cause 0x31; a descriptor that MMAS does not take 0x02.
(Readings and choices of the model it rests on: log 11, log 15, log 31.) -/
def Obligations.MatrixWords : Prop :=
  (∀ (w : TWord XMma) (v : TWord Unit) (s : State) (it : Iss),
    (it.exec w.p ≠ 0 → it.tileOk w.t = false → ∀ i ∈ [Instr.mma w, .mmaq w, .mmas w],
      Issued i s it → Raises i s it (it.trapOpen (s.issued it i) 0x31 (it.exec w.p)))
    ∧ (it.exec v.p ≠ 0 → it.tileOk v.t = false → ∀ i ∈ [Instr.mzero v, .mld v, .mst v, .mrd v],
      Issued i s it → Raises i s it (it.trapOpen (s.issued it i) 0x31 (it.exec v.p))))
  ∧ (∀ (w : TWord XMma) (s : State) (it : Iss), it.exec w.p ≠ 0 → it.tileOk w.t = true →
    let q := it.g.slot / 16
    let u := s.unitOf it.g.core q
    let fa := w.x.afmt
    let fb := w.x.bfmt
    let part (i : Instr) : MatPart :=
      { group := it.key, tile := it.g.tileKey w.t, z := w.x.z, a := it.g.fragment fa (fragReg w.a),
        aScale := it.g.fragScales fa (fragReg w.a), regs := Instr.reads 0 i }
    let trap (aux : Nat) : Trap :=
      { cause := 0x31, lane := lowest (it.exec w.p), tmask := it.exec w.p, aux := aux, pc := it.sp.pc }
    let put (i : Instr) (op : MatOp) : State :=
      (s.issued it i).modUnit it.g.core q fun u => { u with queue := u.queue ++ [op] }
    (Issues (.mma w) s it → u.fenced.length < 2 →
      Leaves (.mma w) s it (put (.mma w)
        { launch := it.g.launch, parts := [part (.mma w)], b := it.g.fragment fb (fragReg w.b),
          bScale := it.g.fragScales fb (fragReg w.b), afmt := fa, bfmt := fb,
          cycles := if u.fenced = [] then 8 else 10 }) it.own)
    ∧ (Issued (.mma w) s it → 2 ≤ u.fenced.length → Raises (.mma w) s it (trap 2))
    ∧ (Issued (.mmaq w) s it → s.quarterHeld it.g.launch it.g.core q = false → Raises (.mmaq w) s it (trap 3))
    ∧ (Issued (.mmaq w) s it → s.quarterHeld it.g.launch it.g.core q = true →
        let me := (it.issued s (.mmaq w)).waiter (s.issued it (.mmaq w)).nextId w
        let s1 := ({ s.issued it (.mmaq w) with nextId := (s.issued it (.mmaq w)).nextId + 1 } : State).modSplit it.key it.j
          fun sp => { sp with mmaqWait := 0 }
        (s1.mmaqSet (it.issued s (.mmaq w)) me = none → Parks (.mmaq w) s it s1 me.wait)
        ∧ ∀ ws, s1.mmaqSet (it.issued s (.mmaq w)) me = some ws →
          (¬(∀ x ∈ ws, x.w.x.afmt = fa ∧ x.w.x.bfmt = fb) → exec (.mmaq w) s = .next (s.raiseSet ws 1))
          ∧ ((∀ x ∈ ws, x.w.x.afmt = fa ∧ x.w.x.bfmt = fb) → u.fenced ≠ [] → exec (.mmaq w) s = .next (s.raiseSet ws 2))
          ∧ ((∀ x ∈ ws, x.w.x.afmt = fa ∧ x.w.x.bfmt = fb) → u.fenced = [] →
            Becomes (.mmaq w) s it ((ws.filter fun x => x.key != it.key || x.j != it.j).foldl
              (fun s x => s.resume x.key x.j) (s1.enqueue it.g.core q (setOp it.g.launch ws w.x))) (it.sp.pc + 8)))
    ∧ (Issued (.mmas w) s it →
        let r (i : Nat) : Nat := it.block w.b i
        let d := Desc.of (Map.get it.c.tds 0 (r 2 % 256))
        let qx := fb == 6
        let n := fmtK fb * d.halfBytes / 2
        let ps := if qx then (slicePlace s it true (r 3)).getD (0, 0) else (it.g.core, 0)
        let p := (slicePlace s it true (r 0)).getD (0, 0)
        (mmasDesc d fb = false → Raises (.mmas w) s it (it.trapWord 0x02 (it.exec w.p) (encode (.mmas w))))
        ∧ (mmasDesc d fb = true → 2 ≤ u.fenced.length → Raises (.mmas w) s it (trap 2))
        ∧ (mmasDesc d fb = true → u.fenced.length < 2 →
        (∀ c ∈ [(0, placeBad s it true 16 (r 0)), (1, placeBad s it false 16 (r 1) || pastSlice s it (r 1) 16),
            (2, decide (256 ≤ r 2)), (3, if qx then placeBad s it true 16 (r 3) else r 3 != 0),
            (2, pastSlice s it (r 0) (63 * (16 * d.stride 1) + n)),
            (3, qx && pastSlice s it (r 3) (63 * (d.extent 0 / 32) + 2))], c.2 = false) →
          Becomes (.mmas w) s it ((put (.mmas w)
              { launch := it.g.launch, parts := [part (.mmas w)], b := [], bScale := [], afmt := fa, bfmt := fb,
                cycles := if u.fenced = [] then 8 else 10, thread := some (s.issued it (.mmas w)).nextId }).startEngine
            (it.issued s (.mmas w))
            (.mmas p.1 p.2 (16 * d.stride 1) n ps.1 ps.2 (d.extent 0 / 32) (if qx then 2 else 0)) (some (r 1)))
            (it.sp.pc + 8))))
  ∧ ∀ (w : TWord Unit) (s : State) (it : Iss), it.exec w.p ≠ 0 → it.tileOk w.t = true →
    let k := it.g.tileKey w.t
    let t := it.c.tile k
    let x := it.scalar w.a
    let failed (ok : Bool) (s : State) : State :=
      if ok then s
      else ({ s with msix := s.msix ++ [66] } : State).modUnit it.g.core (it.g.slot / 16) fun u =>
        { u with testDue := List.range 8 }
    let set (i : Instr) (y : Tile) : State := (s.issued it i).modCtx it.g.launch it.g.core fun c => c.setTile k y
    (Issues (.mzero w) s it → Leaves (.mzero w) s it (set (.mzero w) {}) it.own)
    ∧ ((∀ core off, scrAt s it x 16384 = some (.slice core off) → x % 128 ≠ 0) → ∀ i ∈ [Instr.mld w, .mst w],
        Issued i s it → Raises i s it (it.trapWord 0x31 (it.exec w.p) x))
    ∧ (∀ core off, scrAt s it x 16384 = some (.slice core off) → x % 128 = 0 →
        let absent := absentLines s it.g.launch 16384 (.slice core off)
        let lane (r : Nat) : Mask := tileLane it.sp.mask r
        (absent ≠ [] → ∀ i ∈ [Instr.mld w, .mst w], Issued i s it → Waits i s it (.lines absent))
        ∧ (absent = [] →
          let it0 := it.issued s (.mld w)
          let s1 := (s.issued it (.mld w)).comeAfterAll it.key ((List.range 32).map fun r =>
            (lane r, [(.scr it.g.launch core, off + 512 * r, 512)]))
          let gots := (List.range 32).map (s1.tileGot it0 core off)
          let s2 := (gots.mapIdx fun r g => (r, g)).foldl (fun s x => s.didRead it.key (lane x.1) none false x.2.srcs []) s1
          let s3 := s2.modCtx it.g.launch it.g.core fun c => c.setTile k (Tile.load fun y =>
            leNat (((gots.flatMap (·.bytes)).drop (4 * y)).take 4))
          (Issued (.mld w) s it → scrBad s1 it0 16384 (.slice core off) = true → Consumes (.mld w) s it x)
          ∧ (Issued (.mld w) s it → scrBad s1 it0 16384 (.slice core off) = false → Becomes (.mld w) s it s3 (it.sp.pc + 8))
          ∧ (Issues (.mld w) s it → (∀ y ∈ s.atoms, y.group ≠ it.key) → scrBad s1 it0 16384 (.slice core off) = false →
              LeavesIn (.mld w) s it s3))
        ∧ (absent = [] → Issues (.mst w) s it → (∀ y ∈ s.atoms, y.group ≠ it.key) →
          let ok := (List.range 64).all t.rowOk
          let s1 := (List.range 32).foldl (fun u r => u.scrWrite (it.issued s (.mst w)) (lane r) (.slice core (off + 512 * r))
            ((List.range 128).flatMap fun y => leBytes 4 (Map.get t.elems 0 (128 * r + y)).toNat) false false false [])
            (s.issued it (.mst w))
          Does (.mst w) s it (failed ok s1) (it.seeing s1) (it.sp.pc + 8) (fun _ => none) (flagE !ok) []))
    ∧ (Issued (.mrd w) s it → 64 ≤ it.scalar w.b →
        Raises (.mrd w) s it (it.trapOpen (s.issued it (.mrd w)) 0x31 (it.exec w.p)))
    ∧ (it.scalar w.b < 64 → Issues (.mrd w) s it →
        let r := it.scalar w.b
        let ok := t.rowOk r
        let n := fragReg w.a
        Does (.mrd w) s it (failed ok (s.issued it (.mrd w))) it.own (it.sp.pc + 8) (fun _ => none) (flagE false)
          [it.due (.mrd w) (lateResult s w.la ((lanesOf (it.exec w.p)).flatMap fun l =>
            [(.v n l, Map.get t.elems 0 (64 * r + 2 * l)), (.v (n + 1) l, Map.get t.elems 0 (64 * r + 2 * l + 1))])
            (flagE !ok))])

/-! ### Events of timers, barriers and cells (chapters 2 and 3) -/

/-- R73, R75, R270, R316, R397, R409, R410: RUN_TIMER clears %tcmp and raises cause 0x71 at the boundary of the split
that would issue next; STEP_WATCHDOG raises 0x70 on the lowest split at STEP; MMAQ_RENDEZVOUS_TIMEOUT raises 0x31 with
aux 4; BARRIER_RELEASE_DELIVERY, once their delay is over, lets the released splits of one island go on with E clear, from
the next cycle on.
(Readings and choices of the model it rests on: log 4, log 26, log 30, log 32, log 33.) -/
def Obligations.TimerAndReleaseEvents : Prop :=
  (∀ (s : State) (k j : Nat) (g : Group), s.gate = false → s.group? k = some g → s.running g = true →
    s.nextSplit k = some j → g.armed = true → g.tcmp ≠ 0 → g.tcmp ≤ g.run →
      exec (.runTimer k) s = .next ((s.modGroup k fun g => { g with tcmp := 0 }).raise k j
        { cause := 0x71, lane := lowest (g.split j).mask, tmask := (g.split j).mask, aux := g.run.toNat,
          pc := (g.split j).pc }))
  ∧ (∀ (s : State) (k j : Nat) (g : Group) (l : Launch) (c : Ctx), s.gate = false → s.group? k = some g →
    s.running g = true → s.launch? g.launch = some l → s.ctx? g.launch g.core = some c →
    g.liveSplits.find? (fun j => (g.split j).wait == .step) = some j → 2 ^ 24 ≤ g.stepWait →
      exec (.stepWatchdog k) s = .next ((s.modGroup k fun g => { g with stepWait := 0 }).raise k j
        { cause := 0x70, lane := lowest (g.split j).mask, tmask := (g.split j).mask,
          aux := g.step % 2 ^ 32 + 2 ^ 32 * stepqCount s g c l.r, pc := (g.split j).pc }))
  ∧ (∀ (s : State) (k j id : Nat) (g : Group) (w : TWord XMma) (a sa b sb : List Nat), s.gate = false →
    s.group? k = some g → s.running g = true → (g.split j).live = true → (g.split j).wait = .mmaq id w a sa b sb →
    2 ^ 24 ≤ (g.split j).mmaqWait →
      exec (.mmaqRendezvousTimeout k j) s = .next ((s.modSplit k j fun sp => { sp with mmaqWait := 0 }).raise k j
        { cause := 0x31, lane := lowest (g.split j).mask, tmask := (g.split j).mask, aux := 4, pc := (g.split j).pc }))
  ∧ ∀ (s : State) (n core id isl : Nat),
    let released (sp : Split) : Bool := match sp.wait with
      | .bar c i _ _ true _ => sp.stall == 0 && c == core && i == id
      | _ => false
    let hit := s.groups.flatMap fun (x : Nat × Group) =>
      if x.2.launch = n ∧ islandOf x.2.core = isl then
        (x.2.liveSplits.filter fun j => released (x.2.split j)).map fun j => (x.1, j)
      else []
    s.gate = false → hit ≠ [] →
      exec (.barrierReleaseDelivery n core id isl) s = .next (hit.foldl (fun s x =>
        (s.modSplit x.1 x.2 fun sp => { sp with cc := { sp.cc with e := false }, stall := 1 }).resume x.1 x.2) s)

/-- R42, R46, R47, R51, R53, R55: STEP_ENTER starts a group's next step, with every cell's new copies as the old ones and
the splits past their STEP; HALO_PUSH_ARRIVAL puts a push's values and its token at the receiving core, a final push only
its token; CELL_SET_SWAP swaps the banks and lets the next set of a core run, and then spills the one that went out.
(Readings and choices of the model it rests on: log 19, log 32, log 33, log 35.) -/
def Obligations.CellEvents : Prop :=
  (∀ (s : State) (k : Nat) (g : Group) (l : Launch) (c : Ctx), s.gate = false → s.group? k = some g →
    s.running g = true → s.launch? g.launch = some l → s.ctx? g.launch g.core = some c → g.published = g.step + 1 →
    g.liveSplits ≠ [] → (∀ j ∈ g.liveSplits, (g.split j).wait = .step) → (c.sets = 1 ∨ setsLet s g = true) →
    mayEnter s g c l.r = true →
      let g' := ({ g.carry with stepWait := 0 } : Group).stepOn
      exec (.stepEnter k) s = .next ((s.modGroup k fun _ => g').settle k)
      ∧ g'.step = g.step + 1 ∧ g'.pub = g.pub ∧ g'.s = g.s ∧ g'.m = g.m
      ∧ (∀ j ∈ g.liveSplits, g'.split j = { g.split j with wait := .none, pc := (g.split j).pc + 8 })
      ∧ ∀ n ln, 112 ≤ n → n < 112 + g.e → ln < 32 → g.cellMask.getLsbD ln = true →
          g'.readV n ln = g.readV n ln ∧ g'.readOther n ln = g.readV n ln)
  ∧ (∀ (s : State) (i : Nat) (p : Push) (l : Launch), s.gate = false → s.pushes[i]? = some p →
    s.launch? p.launch = some l →
      let e := l.cores.getD p.dst ⟨0, 0, 0⟩
      let s' := { s with pushes := s.pushes.eraseIdx i }
      (e.dev = s.regs.devno → exec (.haloPushArrival (.transit i)) s = .next
        (s'.receivePush p.launch e.core l.r p.src p.step p.final p.vals true))
      ∧ (e.dev ≠ s.regs.devno → s.noPlane = false → exec (.haloPushArrival (.transit i)) s = .next
        { s' with fabricOut := s'.fabricOut ++ [.halo e.dev p] }))
  ∧ (∀ (s : State) (n core src step : Nat) (final : Bool) (vals : List (Nat × Nat)) (c : Ctx) (l : Launch), s.gate = false →
    s.regs.fabEn = true → s.launch? n = some l → s.ctx? n core = some c →
      exec (.haloPushArrival (.peer n core src step final vals)) s = .next (s.receivePush n core l.r src step final
        (vals.map fun v => (v.1, BitVec.ofNat 32 v.2)) false))
  ∧ (∀ (s : State) (n core src step : Nat) (r : Record) (final sent : Bool) (vals : List (Nat × Word)) (c : Ctx),
    s.ctx? n core = some c →
      ∃ c', (s.receivePush n core r src step final vals sent).ctx? n core = some c'
        ∧ c'.halo = (c.receive src step final vals).halo ∧ c'.arrived = (c.receive src step final vals).arrived)
  ∧ (∀ (c : Ctx) (src step : Nat) (final : Bool) (vals : List (Nat × Word)),
      (src, step, final) ∈ (c.receive src step final vals).arrived
      ∧ (final = true → (c.receive src step final vals).halo = c.halo)
      ∧ (∀ x, (∀ v ∈ vals, v.1 ≠ x) → Map.get (c.receive src step final vals).halo 0 x = Map.get c.halo 0 x)
      ∧ (final = false → ∀ v ∈ vals, (∀ w ∈ vals, w.1 = v.1 → w = v) →
          Map.get (c.receive src step final vals).halo 0 v.1 = v.2))
  ∧ ∀ (s : State) (n core : Nat) (c : Ctx), s.gate = false → s.ctx? n core = some c →
    let gs := s.coreGroups n core
    let own := gs.filter fun g => g.set == c.set && !g.gone
    (∀ i, c.spilling = none → c.res = .active → nextSet gs c.set c.sets = some i →
      (∀ g ∈ own, g.published = g.step + 1) →
      (own = [] ∨ (c.set < i ∧ setPublished gs i < setPublished gs c.set)
        ∨ (i ≤ c.set ∧ setPublished gs i ≤ setPublished gs c.set)) →
        exec (.cellSetSwap n core) s = .next
          ((s.swapBank core).modCtx n core fun c => { c with set := i, spilling := some c.set })
        ∧ ((s.swapBank core).coreOf core).bank = 1 - (s.coreOf core).bank)
    ∧ ∀ i, c.spilling = some i →
        ∃ t c', exec (.cellSetSwap n core) s = .next t ∧ t.ctx? n core = some c' ∧ c'.spilling = none ∧ c'.set = c.set
          ∧ t = { s with ctxs := t.ctxs, mem := t.mem, tags := t.tags, bad := t.bad, hostWrites := t.hostWrites
                         hist := t.hist, nextWrite := t.nextWrite, free := t.free }
          ∧ ∀ l, s.launch? n = some l → ∀ a,
              (∀ p ∈ s.setPieces l c i, ¬(l.phys p.va ≤ a ∧ a < l.phys p.va + p.bytes.length)) →
              Memory.read t.mem a = Memory.read s.mem a

/-! ### Events of memory, results and engine threads (chapters 5, 9 and 13) -/

/-- R108, R110, R117, R119, R122, R199, R201, R379, R421: where each of these completes and what it does.
LONG_LATENCY_RESULT_LAND: a result whose window and latency are over lands in its registers and flags;
TRANSLATION_WALK_COMPLETE changes no value; PAGE_MIGRATION moves a page with its bytes; STORE_PERFORMED_AT_HOME performs a
pending write that no other comes before, the last in coherence order where it goes behind none, and no byte but its own
changes, or a pending atomic; HOST_WRITE_COMPLETED_AT_MEMORY ends its wait; PATROL_SCRUB charges its cost and poisons at
most its granule, or its unit of a weight die. (Log 2, log 17: what waits, what stays behind.)
(Readings and choices of the model it rests on: log 4, log 30, log 33.) -/
def Obligations.MemoryEvents : Prop :=
  (∀ (s : State) (k j i : Nat) (g : Group) (p : Pend), s.gate = false → s.group? k = some g →
    (g.split j).pend[i]? = some p → p.left = 0 → p.waits = [] → (p.lat = none ∨ p.lat = some 0) →
    s.underWay (g.split j) p = false →
      exec (.longLatencyResultLand k j i) s = .next ((s.modGroup k fun g => g.land j i).settle k)
      ∧ ((∀ w ∈ p.writes, w.1.real) →
          g.takes (g.land j i) fun r => (p.writes.reverse.find? fun w => w.1 == r).map Prod.snd)
      ∧ (g.land j i).split j = { g.split j with cc := (g.split j).cc.upd p.flags, pend := (g.split j).pend.eraseIdx i }
      ∧ (g.land j i).fto = (g.fto || p.fto) ∧ (p.fto = true → (g.land j i).ftoNow = true))
  ∧ (∀ (s : State) (core page : Nat) (x : Nat × Ctx) (l : Launch) (e : Kept), s.gate = false → x ∈ s.ctxs →
    x.2.core = core → x.2.res = .active → s.launch? x.2.launch = some l → Map.find? l.pages page = some e →
      ∃ t, exec (.translationWalkComplete core page) s = .next t ∧ t = { s with cores := t.cores }
        ∧ ((t.coreOf core).tlb).length ≤ 2048)
  ∧ (∀ (s : State) (page pa : Nat) (l : Leaf), s.gate = false → s.walk (65536 * page) = some l → s.walkPorts page = [] →
    ((List.range (l.size / 65536)).any fun i =>
      (s.keptPage (65536 * page / l.size * l.size / 65536 + i)).isSome) = false →
    pa % l.size = 0 → (kindOf pa).plain = true → (kindOf (pa + l.size - 1)).plain = true →
    pa + l.size ≤ l.pa ∨ l.pa + l.size ≤ pa → s.memoryCanonical →
    (s.holdsArena (65536 * (65536 * page / l.size * l.size / 65536)) l.size = true →
      kindOf pa = .hbm ∧ kindOf (pa + l.size - 1) = .hbm) →
      ∃ t, exec (.pageMigration page pa) s = .next t
        ∧ (∀ i < l.size, ¬(l.entry ≤ pa + i ∧ pa + i < l.entry + 8) →
            Memory.read t.mem (pa + i) = Memory.read s.mem (l.pa + i))
        ∧ ∀ a, ¬(pa ≤ a ∧ a < pa + l.size) → ¬(l.entry ≤ a ∧ a < l.entry + 8) → Memory.read t.mem a = Memory.read s.mem a)
  ∧ (∀ (s : State) (i : Nat) (st : Store), s.gate = false → s.stores[i]? = some st → (∀ x ∈ s.stores, x.id ∉ st.after) →
    let s' := { s with stores := s.stores.eraseIdx i }
    exec (.storePerformedAtHome i) s = .next (s'.perform st)
    ∧ (s.lost st.addr = false → s.lost (st.addr + st.data.length - 1) = false → (∀ r ∈ st.rels, r.mask.h = false) →
      (∀ x ∈ s'.stores, ∀ r ∈ st.rels, x.id ∉ r.writes) →
      s'.goesBehind st.group st.lanes st.id st.word .mem st.addr st.data.length = [] →
        (s'.perform st) = { s' with hist := (s'.perform st).hist, mem := (s'.perform st).mem, tags := (s'.perform st).tags
                                    bad := (s'.perform st).bad, hostWrites := (s'.perform st).hostWrites }
        ∧ (s'.perform st).hist = { id := st.id, space := .mem, addr := st.addr, old := s.physBytes st.addr st.data.length
                                   maker := s.laneOf st.group, rmw := false, rels := st.rels, word := st.word
                                   bad := st.bad } :: s.hist
        ∧ ∀ a, Memory.read (s'.perform st).mem a =
            if st.addr ≤ a ∧ a < st.addr + st.data.length then st.data.getD (a - st.addr) 0 else Memory.read s.mem a))
  ∧ (∀ (s : State) (i : Nat) (a : Atom), s.gate = false → s.atoms[i]? = some a → (∀ x ∈ s.atoms, x.id ∉ a.after) →
    exec (.storePerformedAtHome (s.stores.length + i)) s = .next
      ({ s with atoms := s.atoms.filter fun x => x.id != a.id }.performAtom a))
  ∧ (∀ (s : State) (i : Nat), i < s.hostWrites.length →
      exec (.hostWriteCompletedAtMemory i) s = .next { s with hostWrites := s.hostWrites.eraseIdx i })
  ∧ (∀ (s : State) (die unit i cost : Nat), s.gate = false → die < 4 → unit < 2 ^ 23 → i < 128 →
    exec (.patrolScrub (weightsAt + 2 ^ 30 * die + 128 * unit + i) true cost) s = .next
      { s.modDie die fun d => { d with badUnits := Nats.ins d.badUnits unit } with
          regs := { s.regs with hkacct := (s.regs.hkacct + cost) % 2 ^ 64 } })
  ∧ ∀ (s : State) (addr cost : Nat) (bad : Bool), s.gate = false → (kindOf addr).plain = true → addr < weightsAt →
    ∃ t, exec (.patrolScrub addr bad cost) s = .next t
      ∧ t = { s with bad := t.bad, tags := t.tags, regs := { s.regs with hkacct := (s.regs.hkacct + cost) % 2 ^ 64 } }
      ∧ (bad = false → t.bad = s.bad ∧ t.tags = s.tags)
      ∧ (bad = true → granule addr ∈ t.bad ∧ ∀ x, x ≠ granule addr → (x ∈ t.bad ↔ x ∈ s.bad))

/-- R425: CONTAINMENT_UNWIND discards the version and the held commands; the group goes on undivided at the handler under
the mask of CONTAIN less the lanes that exited, with E set, s190 the region's id and s191 the cause; memory is as before.
(Readings and choices of the model it rests on: log 23, log 33.) -/
def Obligations.RegionUnwinds : Prop :=
  ∀ (s : State) (k : Nat) (g : Group) (r : Region), s.gate = false → s.group? k = some g → s.running g = true →
    g.region = some r → g.unwindReady r = true → g.splits ≠ [] → g.e = 0 → r.mask &&& ~~~g.exited ≠ 0 →
      ∃ t g', exec (.containmentUnwind k) s = .next t ∧ t.group? k = some g'
        ∧ t = { s with groups := t.groups, threads := t.threads, units := t.units }
        ∧ g'.region = none ∧ g'.stack = [] ∧ (g'.split 0).st = .run ∧ (g'.split 0).pc = r.handler
        ∧ (g'.split 0).mask = r.mask &&& ~~~g.exited ∧ (g'.split 0).cc.e = true ∧ (g'.split 0).pend = []
        ∧ (∀ j, j ≠ 0 → (g'.split j).inUse = false)
        ∧ (∀ q : RegId, q.real → g'.readReg q = if q = .s 190 then BitVec.ofNat 32 r.id
            else if q = .s 191 then BitVec.ofNat 32 (r.due.getD 0) else g.readReg q)
        ∧ ∀ th ∈ r.held, Map.find? t.threads th = none

/-- R112, R311, R315, R317, R431, R432: ENGINE_LINE_LANDED: a thread that can go on lands a unit of its work;
ENGINE_COMPLETION: at its end what is left of it, its barrier arrival and its table entry; MATRIX_GRANT starts
operations in grant order; MATRIX_OP_END writes the tiles of an operation with no cycle left; MATRIX_SELF_TEST: a
sub-array that fails two tests running is fenced.
(Readings and choices of the model it rests on: log 15, log 31, log 33.) -/
def Obligations.EngineAndMatrixEvents : Prop :=
  (∀ (s : State) (t k : Nat) (th : Thread), s.gate = false → Map.find? s.threads t = some th → s.threadMoves t th = true →
    (k < th.units s → k ∉ th.done → exec (.engineLineLanded t k) s = .next (s.landUnit t k))
    ∧ ((match th.cmd with
        | .fget va _ _ n => (bulkLines va n).length ≤ th.done.length
        | .fput _ _ _ n _ => ceilDiv n 4096 ≤ th.done.length
        | .scata _ _ _ _ rows _ => rows ≤ th.done.length
        | _ => True) → th.asked ≤ th.answered →
      ∃ s', exec (.engineCompletion t) s = .next s' ∧ s' = s.endThread t th.cmd ∧ Map.find? s'.threads t = none))
  ∧ (∀ (s : State) (island core u i : Nat), s.gate = false → core ∈ coresOf island → u < 4 →
    (s.unitOf core u).busy = none → s.nextOp core u = some i → (s.island island).slew.on = false →
      exec (.matrixGrant island) s = .next (((grantOrder island).foldl (fun s c => s.grantUnit island c) s).modIsland island
        fun x => { x with reached := noPartition }))
  ∧ (∀ (s : State) (core u i : Nat) (op : MatOp), s.nextOp core u = some i → (s.unitOf core u).busy = none →
    (s.unitOf core u).queue[i]? = some op → (s.unitOf core u).fenced = [] → (s.island (islandOf core)).slew.on = false →
      let s' := s.grantUnit (islandOf core) (core, u)
      (∃ n, (s'.unitOf core u).busy = some (op, n)) ∧ (s'.unitOf core u).queue = (s.unitOf core u).queue.eraseIdx i
      ∧ (s'.island (islandOf core)).slew.grants = (if (s.unitOf core u).warm || (s.unitOf core u).filler
          then (s.island (islandOf core)).slew.grants else 1))
  ∧ (∀ (s : State) (core u : Nat) (op : MatOp), s.gate = false → (s.unitOf core u).busy = some (op, 0) → op.thread = none →
    let sl := (s.island (islandOf core)).slew
    exec (.matrixOpEnd core u) s = .next ((s.matEffect core op).modUnit core u fun x =>
      { x with busy := none, warm := true, filler := sl.on && sl.cycle != 0 }))
  ∧ (∀ (s : State) (core : Nat) (op : MatOp) (p : MatPart) (c : Ctx), op.parts = [p] → s.ctx? op.launch core = some c →
    ∃ c', (s.matEffect core op).ctx? op.launch core = some c' ∧ (∀ t, t ≠ p.tile → c'.tile t = c.tile t)
      ∧ c'.tile p.tile = if op.bad then Tile.allNan
          else (if p.z then {} else c.tile p.tile).multiply op.afmt op.bfmt p.a p.aScale op.b op.bScale)
  ∧ ∀ (s : State) (core u sub cost : Nat) (fail : Bool), s.gate = false → core < 160 → u < 4 → sub < 8 →
    (s.unitOf core u).busy = none → sub ∉ (s.unitOf core u).fenced →
      let twice := fail = true ∧ sub ∈ (s.unitOf core u).failed
      ∃ t, exec (.matrixSelfTest core u sub fail cost) s = .next t
        ∧ t = { s with units := t.units, regs := { s.regs with hkacct := (s.regs.hkacct + cost) % 2 ^ 64 }, msix := t.msix }
        ∧ (twice → sub ∈ (t.unitOf core u).fenced ∧ t.msix = s.msix ++ [66])
        ∧ (¬twice → (t.unitOf core u).fenced = (s.unitOf core u).fenced ∧ t.msix = s.msix
            ∧ (sub ∈ (t.unitOf core u).failed ↔ fail = true))

/-! ### Events of the fabric (chapters 6 and 13) -/

/-- R129, R272, R330 to R333, R342, R347, R349, R433 to R435, R448: FABRIC_REQUEST_AT_TARGET: a peer's request that an
export accepts is performed and answered, else refused, a bulk read line by line; FABRIC_RESPONSE gives the waiting
result its lane's registers, FABRIC_TIMEOUT and FABRIC_REFUSAL all ones with FTO, to land in this cycle; an answer after
the limit is discarded; SECTOR_LANDING: landed lines are written and their sectors come to the barrier; ESCAPE_DIVERSION
changes only latency. (Readings and choices of the model it rests on: log 2, log 29, log 33, log 36.) -/
def Obligations.FabricEvents : Prop :=
  (∀ (s : State) (r : PeerReq) (t : Target), s.gate = false → s.taking = false → s.regs.fabEn = true →
    (∀ n, r.op = .read n → s.exportWaits r.xidx r.off n = false →
      exec (.fabricRequestAtTarget r) s = .next (s.send (s.readAnswer r n)))
    ∧ (∀ (n : Nat) (op : PeerOp), r.op = op → (match op with
        | .read _ => none
        | .write d => some d.length
        | .spoil d => some d.length
        | .atomic _ n _ _ => some n) = some n → n ≤ 8 → n ≠ 0 → r.off % n = 0 → s.exportWaits r.xidx r.off n = false →
      (s.exportAt r.xidx r.off n true = none →
        exec (.fabricRequestAtTarget r) s = .next (s.send [.refusal r.dev r.tag]))
      ∧ (s.exportAt r.xidx r.off n true = some t →
        (∀ d, op = .write d → exec (.fabricRequestAtTarget r) s = .next
          ((s.targetWrite t d [] false (s.peerRels r.rel)).send [.response r.dev r.tag [] false]))
        ∧ (∀ d, op = .spoil d → exec (.fabricRequestAtTarget r) s = .next
          ((s.targetWrite t d (List.range d.length) false (s.peerRels r.rel)).send [.response r.dev r.tag [] false]))
        ∧ ∀ code m x e, op = .atomic code m x e →
          let old := s.targetRead t n
          exec (.fabricRequestAtTarget r) s = .next
            ((if old.2 then s
              else s.targetWrite t (leBytes n (atomOp code (8 * n) (leNat old.1) x e)) [] true (s.peerRels r.rel)).send
              [.response r.dev r.tag old.1 old.2]))))
  ∧ (∀ (s : State) (r : PeerReq) (n : Nat),
    (∀ t, s.exportAt r.xidx r.off n false = some t →
      s.readAnswer r n = [.response r.dev r.tag (s.targetRead t n).1 (s.targetRead t n).2])
    ∧ (s.exportAt r.xidx r.off n false = none → n ≤ 8 → s.readAnswer r n = [.refusal r.dev r.tag])
    ∧ (s.exportAt r.xidx r.off n false = none → 8 < n → ∀ x ∈ exportLines r.off n,
        (s.exportAt r.xidx x.2.1 x.2.2 false = none → .refusedLines r.dev r.tag x.1 x.2.2 ∈ s.readAnswer r n)
        ∧ ∀ t, s.exportAt r.xidx x.2.1 x.2.2 false = some t →
          ∃ bad, .lines r.dev r.tag x.1 (s.targetRead t x.2.2).1 bad ∈ s.readAnswer r n))
  ∧ (∀ (s : State) (id : Nat) (r : FabReq), s.gate = false → Map.find? s.fabReqs id = some r →
    let late := (s.answer id r (r.regs.map fun q => (q, (0xFFFFFFFF : Word))) true).modSplit r.group r.split fun sp =>
      { sp with pend := sp.pend.map fun p => if p.id = r.pend && p.waits.isEmpty then { p with lat := some 0 } else p }
    let overdue := r.limit ≤ ((s.die r.die).wall - r.issued).toNat
    (r.sent = true →
      (∀ data bad, r.timedOut = true → data.length = r.bytes →
        exec (.fabricResponse id data bad) s = .next (s.dropReq id))
      ∧ (∀ data bad, r.timedOut = false → r.returns = true → overdue → data.length = r.bytes →
          exec (.fabricResponse id data bad) s = .next (late.dropReq id))
      ∧ (∀ data, r.timedOut = false → r.returns = true → ¬overdue → data.length = r.bytes →
          let v := if r.signed then wrap 32 (sext (8 * r.bytes) (leNat data)) else leNat data
          exec (.fabricResponse id data false) s = .next (((s.answerRead r).answer id r (r.values v) false).dropReq id)
          ∧ exec (.fabricResponse id data true) s = .next
              (((s.answer id r [] false).dropReq id).consume r.group r.pc r.pa))
      ∧ (∀ data bad, r.returns = false → exec (.fabricResponse id data bad) s = .next (s.dropReq id))
      ∧ exec (.fabricRefusal id) s = .next
          (if r.timedOut then s.dropReq id
           else if r.returns then late.dropReq id
           else (s.modGroup r.group fun g => { g with fto := true, ftoNow := true }).dropReq id)
      ∧ (r.escaped = false → ∃ t, exec (.escapeDiversion id) s = .next t ∧ t = { s with fabReqs := t.fabReqs }
          ∧ Map.find? t.fabReqs id = some { r with escaped := true }))
    ∧ (r.returns = true → r.timedOut = false → overdue →
        exec (.fabricTimeout id) s = .next
          (if r.sent then { late with fabReqs := Map.ins s.fabReqs id { r with timedOut := true } } else late.dropReq id)))
  ∧ (∀ (s : State) (id : Nat) (th : Thread), s.gate = false → Map.find? s.fabReqs id = none →
    Map.find? s.threads id = some th → th.answered < th.asked →
      exec (.fabricResponse id [] false) s = .next (s.modThread id fun th => { th with answered := th.answered + 1 }))
  ∧ (∀ (s : State) (id n : Nat) (data : List Byte), s.gate = false → Map.find? s.fabReqs id = none →
    Map.find? s.threads id = none → Map.find? s.hostReqs id = some n → data.length = n →
      ∃ t, exec (.fabricResponse id data false) s = .next t ∧ Map.find? t.hostReqs id = none
        ∧ t = { s with hostReqs := t.hostReqs, hostRead := if n = 0 then s.hostRead else data, free := t.free })
  ∧ (∀ (s : State) (t off core va dst n : Nat) (th : Thread), s.gate = false →
    Map.find? s.threads t = some th → th.cmd = .fget va core dst n → th.held = false →
    (∀ (data : List Byte) (bad : List Nat), landedLines th va n off data.length ≠ [] →
      s.onePacket th va n (landedLines th va n off data.length) = true →
      exec (.sectorLanding (.fget t off data bad)) s = .next
        (s.landFget t th core dst (landedLines th va n off data.length) off data bad))
    ∧ ∀ m, landedLines th va n off m ≠ [] →
      exec (.sectorLanding (.refused t off m)) s = .next
        ((landedLines th va n off m).foldl (fun s j => s.fgetRefused t j) s))
  ∧ (∀ (s : State) (dev tag : Nat) (parts : List (Nat × Nat × Nat)) (data : List Byte) (bad : List Nat), s.gate = false →
    s.taking = false → s.regs.fabEn = true → (parts.map fun (p : Nat × Nat × Nat) => p.2.2).sum = data.length →
    (∀ p ∈ parts, s.exportWaits p.1 p.2.1 p.2.2 = false) →
    let ls := packetLines 0 parts
    let r := s.landLines data bad ls
    let s' := r.1.send [if r.2.2.length = ls.length then .response dev tag [] false else .refusal dev tag]
    exec (.sectorLanding (.fput dev tag parts data bad none)) s = .next s'
    ∧ ∀ bx bo k core o, s'.exportAt bx bo 16 true = some (.scr k core o) → r.2.2 ≠ [] →
        exec (.sectorLanding (.fput dev tag parts data bad (some (bx, bo)))) s = .next
          (s'.tbUpdate .fabric k core o (Tb.land (landedSectors data.length r.2.2)) [⟨.fabric, Obs.all, r.2.1⟩]))
  ∧ ∀ (s : State) (data : List Byte) (bad : List Nat) (at' x off n : Nat),
    (s.exportAt x off n true = none → s.landLines data bad [(at', x, off, n)] = (s, [], []))
    ∧ ∀ t, s.exportAt x off n true = some t → s.landLines data bad [(at', x, off, n)] =
        (s.targetWrite t ((data.drop at').take n)
            ((bad.filter fun i => decide (at' ≤ i) && decide (i < at' + n)).map (· - at')) false [],
          [s.nextWrite], [(at', n)])

/-- R136, R138 to R140, R427, R428: PARCEL_TRANSIT_START: a sealed parcel starts its transit; PARCEL_FIRST_PACKET: a
FREE slot of the inbox lands it; PARCEL_LANDED: it arrives where every tag holds an offset inside it, carrying what the
POST carried, or all that came over the fabric, else returns with cause 4; PARCEL_ACK frees its sender's slot with
POST's arrival; PARCEL_RETURN leaves it with the cause.
(Readings and choices of the model it rests on: log 29, what a peer's landing carries and where a packet goes; log 33,
log 36.) -/
def Obligations.ParcelEvents : Prop :=
  (∀ (s : State) (t : Nat) (th : Thread) (x : Transit), s.gate = false → s.transit t = some (th, x) →
    let st := (s.slot x.arena x.slot).st
    let len := (s.slot x.arena x.slot).len
    let c := s.slotContents x.arena x.slot
    let sent := s.modSlot x.arena x.slot fun y => { y with st := 3 }
    (th.held = false → st = 2 → s.slotLost x.arena x.slot = false →
      (x.dev = s.regs.devno → exec (.parcelTransitStart t) s = .next sent)
      ∧ (x.dev ≠ s.regs.devno → s.noPlane = false → exec (.parcelTransitStart t) s = .next
          (sent.send [.parcel x.dev t x.inbox len c.1 c.2.1 c.2.2])))
    ∧ (∀ a i, st = 3 → x.dev = s.regs.devno → x.recv = none → s.landingSlot x.inbox len = .ok (a, i) →
        exec (.parcelFirstPacket (.own t)) s = .next ((s.takeSlot a i len).setRecv t x (some (a, i))))
    ∧ (∀ a i, x.recv = some (a, i) → (s.slot a i).st = 4 → th.done = [] → s.slotLost a i = false →
        s.slotLost x.arena x.slot = false →
        (tagsOk len c.1 c.2.1 c.2.2 = true →
          let r := (Map.find? s.handleRels (s.handleOf x.arena x.slot)).getD ⟨.fabric, Obs.all, []⟩
          exec (.parcelLanded (.own t) [] [] []) s = .next
            ((s.arrive a i x.inbox c.1 c.2.1 c.2.2 r.writes r.mask).modThread t fun th => { th with done := [1] }))
        ∧ (tagsOk len c.1 c.2.1 c.2.2 = false → exec (.parcelLanded (.own t) [] [] []) s = .next (s.returnParcel t th x 4)))
    ∧ (st = 3 → x.dev ≠ s.regs.devno ∨ th.done = [1] →
        ∃ s', exec (.parcelAck t) s = .next s'
          ∧ s'.slot x.arena x.slot = { gen := nextGen (s.slot x.arena x.slot).gen, st := 0, cause := 0, len := 0 }
          ∧ Map.find? s'.threads t = none)
    ∧ (∀ cause, th.done = [] → st = 3 → x.dev ≠ s.regs.devno → x.recv = none → 1 ≤ cause → cause ≤ 5 →
        ∃ s', exec (.parcelReturn t cause) s = .next s'
          ∧ s'.slot x.arena x.slot = { s.slot x.arena x.slot with st := 6, cause := cause }
          ∧ Map.find? s'.threads t = none))
  ∧ (∀ (s : State) (dev id len inbox : Nat), s.gate = false → s.taking = false → s.regs.fabEn = true →
    (∀ l ∈ s.landings, ¬(l.1 = dev ∧ l.2.1 = id)) →
      (∀ c, s.landingSlot inbox len = .error c →
        exec (.parcelFirstPacket (.peer dev id len inbox)) s = .next (s.send [.parcelReturn dev id c]))
      ∧ ∀ a i, s.landingSlot inbox len = .ok (a, i) →
        exec (.parcelFirstPacket (.peer dev id len inbox)) s = .next
          { s.modSlot a i fun y => { y with st := 4, cause := 0, len := len } with
              landings := s.landings ++ [(dev, id, a, i)] })
  ∧ (∀ (s : State) (dev id a i inbox : Nat) (e : ArenaEntry) (data : List Byte) (tags bad : List Nat), s.gate = false →
    s.regs.fabEn = true → s.landings.find? (fun l => l.1 == dev && l.2.1 == id) = some (dev, id, a, i) →
    s.inboxArena inbox = some (a, e) → data.length = 128 * (s.slot a i).len → s.slotLost a i = false →
      let s' := { s with landings := s.landings.filter (· ≠ (dev, id, a, i)) }
      exec (.parcelLanded (.peer dev id (s.slot a i).len inbox) data tags bad) s = .next
        (if tagsOk (s.slot a i).len data tags bad then
          (s'.arrive a i inbox data tags bad s.fabricCarried Obs.all).send [.parcelAck dev id]
         else (s'.modSlot a i Slot.release).send [.parcelReturn dev id 4]))
  ∧ (∀ (s : State) (a i inbox : Nat) (data : List Byte) (tags bad carried : List Nat) (m : Obs),
    let t := s.arrive a i inbox data tags bad carried m
    (t.slot a i) = { s.slot a i with st := 5 }
    ∧ Map.get t.inboxes [] inbox = Map.get s.inboxes [] inbox ++ [s.handleOf a i]
    ∧ ∃ r, Map.find? t.handleRels (s.handleOf a i) = some r ∧ r.mask = m ∧ ∀ w ∈ carried, w ∈ r.writes)
  ∧ ∀ (a : Nat) (tags bad : List Nat) (data : List Byte),
      (tagsOk a data tags bad = true ↔ ∀ w ∈ tags, (∃ i < 4, 4 * w + i ∈ bad)
        ∨ leNat ((data.drop (4 * w)).take 4) < 128 * a)

/-! ### Events of the scheduler (chapter 8) -/

/-- R31, R157, R164, R166 to R171, R174, R178 to R183: a head whose dependences are met is checked at its admission, and
refused with its reason, admitted on placeable cores, or waits for its placement; the next cluster of a launch starts
where it finds room; a launch with every team ended, no thread left and every peer write answered completes: its barrier
is arrived at, its STATUS is 2, or 4 where it ended by fault, in a release of what it has written, and its queue's
vector is raised; a context that none outranks goes out for a higher class into the shadow bank, is spilled from there
to its save area (slice, barriers, stage counter, queued trap records at R182's offsets, private lines at R113's), and
is loaded and comes back where it fits.
(Readings and choices of the model it rests on: log 2, log 8, log 9, log 17, log 33.) -/
def Obligations.SchedulerEvents : Prop :=
  (∀ (s : State) (q : Nat) (cores : List Nat) (r : Record), s.gate = false → s.taking = false →
    (s.queueOf q).headRecord = some r → s.headReady r = true → s.outranked q r.prio = false →
      let ck := s.check r
      (∀ reason, ck.reason = some reason → exec (.admission q cores) s = .next
        ((s.putStatus q (s.queueOf q).headAddr (3 + 256 * reason) []).advanceHead q))
      ∧ (∀ cs, ck.reason = none → s.listFor ck r cores = some cs → s.placeableAll r cs = true →
          exec (.admission q cores) s = .next (s.accept q r cs ck))
      ∧ ck.reason = s.admitReason r (s.coreList r) (s.pinned r)
      ∧ (ck.reason = none → (∀ cs, s.listFor ck r cores = some cs → s.placeableAll r cs = false) →
          exec (.admission q cores) s = .next s))
  ∧ (∀ (s : State) (n : Nat) (l : Launch), s.gate = false → s.launch? n = some l → l.stopped = false →
    l.started < l.teams →
      (∀ ps, l.r.kind ≠ 1 → s.nextCluster n l = some ps →
        exec (.teamStart n) s = .next (s.startCluster n l ps))
      ∧ (l.r.kind = 1 → (∀ e ∈ l.cores, s.ownEntry e = false ∨ s.activeOn n e.core = true) →
        exec (.teamStart n) s = .next (((List.range l.cores.length).foldl (fun s b => s.startBlock n l b) s).modLaunch n
          fun l => { l with started := l.teams })))
  ∧ (∀ (s : State) (n : Nat) (l : Launch), s.gate = false → s.launch? n = some l →
    (l.stopped = true ∨ l.ended.length = l.teams) → (∀ x ∈ s.threads, x.2.launch ≠ n) → s.peerOpen n = false →
      ∃ t, exec (.launchCompletion n) s = .next t ∧ t.launch? n = none
        ∧ (∀ x ∈ t.groups, x.2.launch ≠ n) ∧ (∀ x ∈ t.ctxs, x.2.launch ≠ n)
        ∧ (s.stores = [] → s.atoms = [] → s.lost (l.addr + 252) = false → s.lost (l.addr + 255) = false →
          let pa := l.phys l.r.compl
          t.physBytes (l.addr + 252) 4 = leBytes 4 (if l.faulted then 4 else 2)
          ∧ t.msix = (if (s.queueOf l.queue).irq then s.msix ++ [l.queue] else s.msix)
          ∧ (l.r.compl ≠ 0 → s.lost pa = false → s.lost (pa + 15) = false →
              l.addr + 256 ≤ pa ∨ pa + 16 ≤ l.addr + 252 →
                t.physBytes pa 16 = leBytes 16 (Tb.arrive 1 (Tb.of (leNat (s.physBytes pa 16)))).toNat)
          ∧ ∃ w made, t.hist.head? = some w ∧ w.space = .mem ∧ w.addr = l.addr + 252
              ∧ w.rels = [⟨.part, Obs.all, made⟩] ∧ (∀ i ∈ l.made, i ∈ made)
              ∧ ∀ k g, s.group? k = some g → g.launch = n → ∀ p ∈ g.seen, keyId p.1 ∈ made))
  ∧ (∀ (s : State) (n core : Nat) (l : Launch) (c : Ctx), s.launch? n = some l → s.ctx? n core = some c →
    let base := l.r.save + c.index * (l.r.savez * 65536) + l.r.v * l.r.imageSlot c.index
    (∀ a, (∀ p ∈ s.bankPieces l c, ¬(l.phys p.va ≤ a ∧ a < l.phys p.va + p.bytes.length)) →
      Memory.read (s.spillOut n core).mem a = Memory.read s.mem a)
    ∧ (∀ ps p qs a, s.bankPieces l c = ps ++ p :: qs → s.lost (l.phys p.va) = false →
        s.lost (l.phys p.va + p.bytes.length - 1) = false → l.phys p.va ≤ a → a < l.phys p.va + p.bytes.length →
        (∀ q ∈ qs, ¬(l.phys q.va ≤ a ∧ a < l.phys q.va + q.bytes.length)) →
          Memory.read (s.spillOut n core).mem a = p.bytes.getD (a - l.phys p.va) 0)
    ∧ (∀ g < c.sliceBytes / 32, ∃ p ∈ s.bankPieces l c, p.va = base + 32 * g ∧ p.bytes.length = 32
        ∧ ∀ i < 32, p.bytes.getD i 0 = Map.get c.scr 0 (32 * g + i))
    ∧ (∀ i < 32, ∃ p ∈ s.bankPieces l c, p.va = base + c.sliceBytes + 128 * i
        ∧ p.bytes = (List.range 32).flatMap fun k => leBytes 4 (Map.get c.bars {} (32 * i + k)).word)
    ∧ (∃ p ∈ s.bankPieces l c, p.va = base + c.sliceBytes + 4096 ∧ p.bytes = leBytes 128 c.stage)
    ∧ (∀ g ∈ s.coreGroups c.launch c.core, ∀ lane < 32, ∀ o < 65536, Map.get g.priv 0 (privKey lane o) ≠ 0 →
        ∃ p ∈ s.bankPieces l c, ∃ k < 128, p.bytes.getD k 0 = Map.get g.priv 0 (privKey lane o)
          ∧ p.va + k = l.r.pbase + (64 * g.team + g.gid) * 32 * l.r.psize + o / 4 * 128 + 4 * lane + o % 4)
    ∧ ∀ i < 256, ∀ t, c.trapq[i]? = some t →
        ∃ p ∈ s.bankPieces l c, p.va = base + c.sliceBytes + 8192 + 64 * i ∧ p.bytes = t.bytes)
  ∧ (∀ (s : State) (n core guard team : Nat) (l : Launch) (c : Ctx), s.launch? n = some l → s.ctx? n core = some c →
      (s.switchOut n core).ctx? n core = some { c with res := .shadow, away := 0, guard := 0 }
      ∧ ((s.switchOut n core).coreOf core).bank = 1 - (s.coreOf core).bank
      ∧ ((s.switchIn n core guard team).coreOf core).bank = 1 - (s.coreOf core).bank
      ∧ (s.switchOut n core).groups = s.groups ∧ (s.switchOut n core).mem = s.mem
      ∧ (s.spillOut n core).ctx? n core = some { c with res := .saved } ∧ (s.spillOut n core).groups = s.groups
      ∧ (s.switchIn n core guard team).groups = s.groups ∧ (s.switchIn n core guard team).mem = s.mem
      ∧ ∃ c', (s.switchIn n core guard team).ctx? n core = some c' ∧ c'.res = .active ∧ c'.guard = guard
          ∧ c'.guardTeam = team ∧ c'.index = c.index ∧ c'.tiles = c.tiles ∧ c'.tds = c.tds ∧ c'.serving = c.serving)
  ∧ ∀ (s : State) (n core : Nat) (l : Launch) (c : Ctx), s.gate = false → s.launch? n = some l → s.ctx? n core = some c →
      let cores := s.together l core
      (c.res = .active → s.guarded c = false → s.victim n core l = true → s.claimed core l.r.prio = true →
        (∀ x ∈ cores, s.shadowFree x = true) →
        exec (.preemption n core) s = .next (cores.foldl (fun s x => s.switchOut n x) s))
      ∧ (c.res = .shadow → s.resultsLanded n core = true → exec (.preemption n core) s = .next (s.spillOut n core))
      ∧ (c.res = .saved → (∀ x ∈ cores, s.fitsBack n x = true) → (∀ x ∈ cores, s.shadowFree x = true) →
        exec (.preemption n core) s = .next (cores.foldl (fun s x => s.switchIn n x 0 0) s))
      ∧ (c.res = .saved → s.holdsLowest n core l = true → (∀ x ∈ cores, s.shadowFree x = true) →
        let s' := cores.foldl (fun s x => s.makeRoom n x 64) s
        (∀ x ∈ cores, s'.fitsBack n x = true) →
        exec (.lowestTeamSwapBack n core) s = .next (cores.foldl (fun s x => s.switchIn n x 10000 l.lowest) s'))

/-! ### Events of the islands (chapter 7) -/

/-- R74, R143 to R145, R151, R154 to R156, R445, R446: ISLAND_CORE_CYCLE, where nothing of its cycle is left to do,
refills the allowance up to CAP, charges the words issued, counts %cyc, %run and the lease, lets what was written to
ISLCTL take effect and finds the level of withholding of the next cycle; FLL_STEP steps the clock by 25 MHz;
MELT_UPDATE: refreeze begins at 0xC000 and ends at 0x1999 and ends every lease, and a store melted whole begins the
gate; LEASE_EXPIRY: a lease that has run out ends, with its trap; THERMAL_GATE_BEGIN stops the clocks, and
THERMAL_GATE_END starts them once the store has been cool for 1 ms, with the fabric timeouts that came due. Every word
is charged by its class: control words 1, vector words 2, float words and words with a neighbour operand 3, long words
4, twice that for 64-bit types, memory words 3, engine and parcel words 4, tile words 8, matrix words 64.
(Readings and choices of the model it rests on: log 4, by which PREF counts as a load, either type of CVT doubles and
CMPI of a float type is no float word; log 9, the spill charge owed to a lease; log 31, filler cycles; log 33.) -/
def Obligations.IslandEvents : Prop :=
  (∀ (s : State) (i : Nat) (tick : Bool), i < 40 → s.gate = false → (s.die (i / 10)).fenced = false →
    s.cycleOpen i = false →
    ∃ t, exec (.islandCoreCycle i tick) s = .next t
      ∧ (t.die (i / 10)).wall = (s.die (i / 10)).wall + (if tick then 1 else 0)
      ∧ (∀ c, (t.coreOf c).cyc = (s.coreOf c).cyc + if c ∈ coresOf i then 1 else 0)
      ∧ (let x := s.island i
         let y := t.island i
         let held := x.holder.isSome || x.ended
         y.a = signed32 (min (x.a + ((if held then bits x.ctl.toNat 63 52 else bits x.ctl.toNat 51 40 : Nat) : Int))
             ((bits x.ctl.toNat 39 24 : Nat) : Int) - x.charges)
         ∧ y.charges = 0 ∧ y.holder = x.holder ∧ y.mhz = x.mhz ∧ y.ctl = x.ctlNext.getD x.ctl ∧ y.ctlNext = none
         ∧ y.target = (if x.holder = none ∧ bits y.ctl.toNat 4 0 ≠ bits x.ctl.toNat 4 0
             then 400 + 25 * min (bits y.ctl.toNat 4 0) 18 else x.target)
         ∧ y.level = (let w : Int := (max 1 (bits y.ctl.toNat 23 12) : Nat)
             if 0 ≤ y.a then 4 else if -w ≤ y.a then 3 else if -(2 * w) ≤ y.a then 2 else if -(3 * w) ≤ y.a then 1 else 0)
         ∧ y.owed = 0 ∧ y.granted = false ∧ y.ended = false ∧ y.reached = 0
         ∧ y.lease = (if x.holder.isSome then x.lease - ((s.setFillers i).unitCycleCount i + x.owed) else x.lease))
      ∧ (∀ k g, s.group? k = some g → g.core ∈ coresOf i → s.running g = true → g.gone = false →
          ∃ g', t.group? k = some g' ∧ g'.run = g.run + 1 ∧ g'.tcmp = g.tcmp ∧ g'.yieldLeft = g.yieldLeft - 1)
      ∧ t.mem = s.mem ∧ t.stores = s.stores ∧ t.launches = s.launches)
  ∧ (∀ (s : State) (i : Nat) (tick : Bool), i < 40 → s.gate = true ∨ (s.die (i / 10)).fenced = true →
    exec (.islandCoreCycle i tick) s = .next (if tick then s.modDie (i / 10) fun d => { d with wall := d.wall + 1 } else s))
  ∧ (∀ (s : State) (i : Nat), s.gate = false → (s.island i).mhz ≠ (s.island i).target →
    let x := s.island i
    exec (.fllStep i) s = .next (s.modIsland i fun x =>
      { x with mhz := if x.mhz < x.target then min x.target (x.mhz + 25) else max x.target (x.mhz - 25) })
    ∧ (x.mhz < x.target → x.mhz + 25 ≤ x.target → ∀ t, exec (.fllStep i) s = .next t → (t.island i).mhz = x.mhz + 25))
  ∧ (∀ (s : State) (m : Nat), m ≤ 0x10000 →
    let gated (s' : State) : State :=
      { s' with gate := s.gate || m == 0x10000, coolFrom := if 0xF000 ≤ m then (s.die 0).wall else s.coolFrom }
    ((s.refreeze = true ∨ m < 0xC000) → exec (.meltUpdate m) s = .next
      (gated { s with melt := m, refreeze := s.refreeze && decide (0x1999 < m) }))
    ∧ (s.refreeze = false → 0xC000 ≤ m → s.gate = true ∨ s.grantedNow = false → exec (.meltUpdate m) s = .next
        (gated (s.leased.foldl State.freeze { s with melt := m, refreeze := true }))))
  ∧ (∀ (s : State) (i : Nat),
    (s.gate = false → (s.island i).ending = none → s.freeze i = s.expire i 1)
    ∧ (∀ aux, s.gate = false → (s.island i).ending = some aux →
        s.freeze i = (s.expire i aux).modIsland i fun x => { x with ended := aux == 1 })
    ∧ (s.gate = true → (s.island i).ending = none → s.freeze i = s.modIsland i fun x => { x with ending := some 1 })
    ∧ (s.gate = true → (s.island i).ending.isSome = true → s.freeze i = s))
  ∧ (∀ (s : State) (i aux k n : Nat), s.gate = false → (s.island i).ending = some aux → (s.island i).holder = some (k, n) →
    let t := (s.expire i aux).modIsland i fun x => { x with ended := aux == 1 }
    let s1 := (s.modIsland i Island.endLease).modGroup k fun g => { g with due := some aux }
    exec (.leaseExpiry i) s = .next t
    ∧ (s1.island i).holder = none ∧ (s1.island i).lease = 0
    ∧ (s1.island i).target = 400 + 25 * min (bits (s.island i).ctl.toNat 4 0) 18
    ∧ (s1.nextSplit k = none → t = s1.modIsland i fun x => { x with ended := aux == 1 })
    ∧ ∀ g j, s1.group? k = some g → s1.nextSplit k = some j → s1.running g = true → g.timerDue = false →
        (∀ sp ∈ g.splits, sp.wait ≠ .trapped) →
        t = ((s1.modGroup k fun g => { g with due := none }).raise k j
          { cause := 0x80, lane := lowest (g.split j).mask, tmask := (g.split j).mask, aux := aux
            pc := (g.split j).pc }).modIsland i fun x => { x with ended := aux == 1 })
  ∧ (∀ (s : State), exec .thermalGateBegin s = .next { s with gate := true, coolFrom := (s.die 0).wall }
    ∧ (s.gate = true → s.melt < 0xF000 → 100000 ≤ ((s.die 0).wall - s.coolFrom).toNat →
        exec .thermalGateEnd s = .next ((s.fabReqs.filter fun (x : Nat × FabReq) =>
            x.2.returns && !x.2.timedOut && decide (x.2.limit ≤ ((s.die x.2.die).wall - x.2.issued).toNat)).foldl
          (fun s x => s.timeOut x.1 x.2) { s with gate := false }))
    ∧ (s.melt ≥ 0xF000 ∨ ((s.die 0).wall - s.coolFrom).toNat < 100000 → exec .thermalGateEnd s = .next s))
  ∧ let wide (t : Ty) : Nat := if t.is64 then 2 else 1
    let near (a : Src) : Bool := match a with | .nb _ _ => true | _ => false
    let vecA (a : Src) : Bool := match a with | .v _ => true | .nb _ _ => true | _ => false
    let vecV (d : Dst) : Bool := match d with | .v _ => true | .nb _ => true | _ => false
    let vecD (d : Dst) : Bool := vecV d || match d with | .m n => n != 0 | _ => false
    let simple (t : Ty) (near vec : Bool) : Nat := if near then 3 * wide t else if vec then 2 * wide t else 1
    let one (w : FWord XArith) : Nat := simple w.x.ty (near w.a) (vecD w.d || vecA w.a)
    let two (w : FWord XArith) : Nat := simple w.x.ty (near w.a || near w.b) (vecD w.d || vecA w.a || vecA w.b)
    let across (w : FWord XArith) : Nat := if w.x.ty = .f32 ∨ w.x.ty = .f64 then 3 * wide w.x.ty else one w
    let imm (w : IWord XImm) (float : Bool) : Nat :=
      if float && (w.x.ty == .f32 || w.x.ty == .f64) then 3 * wide w.x.ty else simple w.x.ty false (vecV w.d)
    ∀ (i : Instr) (n : Nat), i.wellFormed = true → (match i with
      | .nop | .sigchk _ | .yieldw _ | .bra _ _ | .call _ _ _ | .ret _ _ | .jmps _ _ | .loop _ _ | .split _ _ _ _ | .jtab _ _ _
      | .exit _ | .trap _ _ | .rft | .contain _ _ | .uncontain | .step | .stepq _ | .sprint _ | .sprel _ | .bkpt _ | .tdset _
      | .tdget _ => some 1
      | .mov w | .iabs w | .popc w | .clz w | .brev w | .vote w | .matchl w | .firstl w | .stom w => some (one w)
      | .sel w | .iadd w | .isub w | .imul w | .imulh w | .imad w | .imin w | .imax w | .lea w | .and w | .or w | .xor w
      | .andn w | .shl w | .shr w | .sar w | .rot w | .bfe w | .bfi w | .icmp w | .shfl w | .shflx w | .bcst w => some (two w)
      | .redl w | .scanl w => some (across w)
      | .mtos w => some (2 * wide w.x.ty)
      | .fadd w | .fsub w | .fmul w | .ffma w | .fmin w | .fmax w | .fcmp w | .frnd w | .fclass w | .fdot2 w | .cvtq w
      | .cvtqd w | .pack w | .unpack w => some (3 * wide w.x.ty)
      | .cvt w => some (if w.x.ty.is64 || w.x.sty.is64 then 6 else 3)
      | .idiv w | .fdiv w | .fsqrt w | .frcp w | .frsq w | .fexp2 w | .flog2 w | .fsin w | .fcos w => some (4 * wide w.x.ty)
      | .assertw w => some (if vecA w.a then 2 else 1)
      | .sread _ | .swrite _ | .xread _ | .xwrite _ | .ld _ | .st _ | .lds _ | .sts _ | .ldl _ | .stl _ | .ldu _ | .stu _
      | .ldt _ | .stt _ | .pref _ | .fence _ | .atom _ | .atomn _ | .atoms _ | .atomsn _ | .atomu _ | .bar _ | .bara _
      | .barw _ | .tbinit _ | .tbarr _ | .tbexp _ | .tbwait _ | .tbtest _ | .fld _ | .fst _ | .fatom _ | .fatomn _ => some 3
      | .cpy _ | .cpyc _ | .cpyt _ | .stage _ | .gpool _ | .scata _ | .fput _ | .fget _ | .wmv _ | .wload _ | .palloc _
      | .pfree _ | .paddr _ | .ldp _ | .stp _ | .stpr _ | .post _ | .precv _ | .pstat _ => some 4
      | .mzero _ | .mld _ | .mst _ | .mrd _ => some 8
      | .mma _ | .mmaq _ | .mmas _ => some 64
      | .movi w | .andi w | .ori w | .xori w => some (imm w false)
      | .addi w | .muli w => some (imm w true)
      | .cmpi w => some (simple w.x.1 false (vecV w.d))
      | .movhi w => some (simple w.x false (vecV w.d))
      | .ldc w => some (simple w.x.1 false (vecV w.d))
      | .pairNop _ _ | .pairMov _ _ | .pairIadd _ _ | .pairIsub _ _ | .pairImul _ _ | .pairAnd _ _ | .pairOr _ _
      | .pairXor _ _ | .pairAndn _ _ | .pairShl _ _ | .pairShr _ _ | .pairSar _ _ | .pairImin _ _ | .pairImax _ _
      | .pairFadd _ _ | .pairFsub _ _ | .pairFmul _ _ | .pairFmin _ _ | .pairFmax _ _ => some 2
      | _ => none) = some n → chargeOf (encode i) = n

/-! ### Failures and maintenance (chapters 14 and 15) -/

/-- R21, R342, R349, R351 to R353, R436 to R443, R447 to R449: what LINK_FAILURE, DIE_FENCE, CXL_PORT_FAILURE,
DYNAMIC_CAPACITY_RELEASE, DUPLICATE_DEVICE_NUMBER and HOST_LINK_TRAINING do; READY_BIT_RISE: a ready bit rises with
vector 64; DEVICE_RESET gives every register its reset value and keeps memory, and its bundle runs where every check of
R353 holds; POWER_LOSS_WARNING, CHECKPOINT_TAKE: a take saves HBM and the contexts; CHECKPOINT_RESTORE after reset
brings them back.
(Readings and choices of the model it rests on: log 1; log 18, %melt over a reset; log 20, the CXL decoders behind a
port's failure; log 22; log 24; log 28, FWVER 0 of a refused bundle; log 29; log 33.) -/
def Obligations.FailureEvents : Prop :=
  (∀ (s : State) (d : Nat), d < 4 →
    exec (.linkFailure (.ucie d)) s = .next
      (({ s with failedLinks := if s.failedLinks.contains (Link.ucie d) then s.failedLinks else s.failedLinks ++ [Link.ucie d] }.vector
        66).setReady 0 (24 + d) false)
    ∧ exec (.linkFailure (.io d)) s = .next
      ({ s with failedLinks := if s.failedLinks.contains (Link.io d) then s.failedLinks else s.failedLinks ++ [Link.io d] }.vector 66))
  ∧ (∀ (s : State) (a b : Nat), a < b → b < 4 →
    let s1 := { s with failedLinks := if s.failedLinks.contains (Link.die a b) then s.failedLinks
                                       else s.failedLinks ++ [Link.die a b] }.vector 66
    exec (.linkFailure (.die a b)) s = .next (State.fenceCut 3 s1) ∧ (State.fenceCut 3 s1).cutOff = []
    ∧ ∀ n (s : State), State.fenceCut (n + 1) s = State.fenceCut n (s.cutOff.foldl State.fenceDie s))
  ∧ (∀ (s : State) (d : Nat), d < 4 → (s.die d).fenced = false →
    let t := s.fenceDie d
    exec (.dieFence d) s = .next (State.fenceCut 3 t) ∧ (State.fenceCut 3 t).cutOff = []
      ∧ (t.die d).fenced = true ∧ t.taking = true
      ∧ (s.launches = [] → s.memoryCanonical → t.msix = s.msix ++ [66]
          ∧ (∀ a, kindOf a = .hbm → homeDie a = d → Memory.read t.mem a = memDefault)
          ∧ ∀ a, ¬(kindOf a = .hbm ∧ homeDie a = d) → Memory.read t.mem a = Memory.read s.mem a))
  ∧ (∀ (s : State) (p : Nat), p < 4 → p ∉ s.cxlDown →
    exec (.cxlPortFailure p) s = .next
      ((({ s with cxlDown := Nats.ins s.cxlDown p }.setReady 0 (28 + p) false).dropPort).vector 66))
  ∧ (∀ (s : State) (base n : Nat), 0 < n →
    (s.extentPinned base n = true →
      exec (.dynamicCapacityRelease base n) s = .next { s with heldExtents := s.heldExtents ++ [(base, n)] })
    ∧ (s.extentPinned base n = false → exec (.dynamicCapacityRelease base n) s = .next s))
  ∧ (∀ (s : State) (planes : Nat), s.regs.fabEn = true → planes % 2 ^ 32 ≠ 0 →
    ∃ t, exec (.duplicateDeviceNumber planes) s = .next t ∧ t = { s with regs := t.regs, msix := s.msix ++ [66] }
      ∧ t.regs.fabDup = true ∧ t.regs.fabEn = true ∧ t.regs.fabRefused = Nat.lor s.regs.fabRefused (planes % 2 ^ 32)
      ∧ ∀ p < 32, t.readyBit 1 p = (s.readyBit 1 p && !bit planes p))
  ∧ (∀ (s : State) (reg i : Nat), s.mayRise reg i = true → s.readyBit reg i = false →
    ∃ t, exec (.readyBitRise reg i) s = .next t ∧ t.regs.rdy = modifyAt s.regs.rdy reg (fun x => x + 2 ^ i)
      ∧ t.msix = s.msix ++ [64] ∧ ∀ r j, (r, j) ≠ (reg, i) → t.readyBit r j = s.readyBit r j)
  ∧ (∀ (s : State) (m : LinkMode),
    exec (.hostLinkTraining m) s = .next { s with regs := { s.regs with link := some m } })
  ∧ (∀ (s : State) (version : Nat) (b : BundleCheck),
    let ok : Bool := b.rsa && b.slh && b.keys && decide (Config.rollback ≤ version)
    ∃ t, exec (.deviceReset b version) s = .next t ∧ t.groups = [] ∧ t.ctxs = [] ∧ t.launches = [] ∧ t.threads = []
      ∧ t.queues = [] ∧ t.arenas = [] ∧ t.exports = [] ∧ t.imports = [] ∧ t.islands = [] ∧ t.units = [] ∧ t.cores = []
      ∧ t.regs = { ({} : Regs) with devid := if ok then 0x5E1F0160 else 0x5E1F0000
                                    fwver := if ok then version % 2 ^ 64 else 0, ckcount := s.regs.ckcount }
      ∧ t.saved = s.saved ∧ t.fresh = true ∧ t.melt = s.melt ∧ t.msix = s.msix ∧ t.gate = false
      ∧ ∀ a, Memory.read t.mem a = Memory.read s.mem a)
  ∧ (∀ (s : State), (s.taking = true → exec .powerLossWarning s = .next s)
    ∧ (s.taking = false → ∃ t, exec .powerLossWarning s = .next t ∧ t.taking = true
        ∧ bit t.regs.ckctl 30 = bit s.regs.ckctl 30 ∧ t = { s with regs := { s.regs with ckctl := t.regs.ckctl } }))
  ∧ (∀ (s : State), s.taking = true → s.gate = false → s.drained = true →
    ∃ t x, exec .checkpointTake s = .next t ∧ t.saved = some x ∧ t.taking = false
      ∧ t.regs.ckcount = (s.regs.ckcount + 1) % 2 ^ 64 ∧ x.groups = t.groups ∧ x.ctxs = s.ctxs ∧ x.launches = s.launches
      ∧ x.slots = s.slots ∧ x.tbase = s.regs.tbase ∧ t.stores = [] ∧ t.hostWrites = [])
  ∧ (∀ (s : State), s.taking = false → s.drained = false → ∃ t, exec .checkpointTake s = .next t ∧ t.taking = true
      ∧ t = { s with regs := { s.regs with ckctl := t.regs.ckctl } })
  ∧ ∀ (s : State), s.gate = false → s.fresh = true → s.taking = false →
    let refused (n : Nat) : State :=
      { s with regs := { s.regs with ckctl := 2 ^ 30 + bits s.regs.ckctl 11 8 * 256 + n } }
    (s.saved = none → exec .checkpointRestore s = .next (refused 2))
    ∧ ∀ x, s.saved = some x →
      ((∃ d < 4, bit x.dies d = true ∧ (s.die d).fenced = true) → exec .checkpointRestore s = .next (refused 3))
      ∧ ((∀ d < 4, bit x.dies d = true → (s.die d).fenced = false) →
        (x.softError = true → exec .checkpointRestore s = .next (refused 4))
        ∧ (x.softError = false → ∃ t, exec .checkpointRestore s = .next t ∧ t.groups = x.groups ∧ t.launches = x.launches
          ∧ t.slots = x.slots ∧ t.queues = x.queues ∧ t.regs.tbase = x.tbase ∧ t.fresh = false ∧ t.saved = some x
          ∧ (∀ p ∈ t.ctxs, p.2.res = .saved)
          ∧ (∀ core u, (t.unitOf core u).fenced = (s.unitOf core u).fenced)
          ∧ (Memory.wf x.mem = true → ∀ a, kindOf a = .hbm → bit x.dies (homeDie a) = true →
              Memory.read t.mem a = Memory.read x.mem a)))

/-! ### The host (chapters 14 and 15) -/

/-- R8, R142, R143, R174, R342 to R350, R354, R412, R413: QTAIL_WRITE, QBASE_WRITE and QCTL_WRITE: a queue write that
R344 refuses only sets ERR, others set their register; REGISTER_WRITE starts a table command, with GO 1; ARENA_COMMAND,
EXPORT_COMMAND and IMPORT_COMMAND: one with no fault replaces its entry and ends with GO clear and TSTAT 0, else TSTAT
names the fault, and 6 while another is under way; TBASE_WRITE, FABID_WRITE, FTLIMIT_WRITE and ISLCTL_WRITE take the
fields they have; HOST_BAR2_ACCESS reads and writes memory and reaches peers, and stops at an address that R103 does not
map; ATTESTATION_REQUEST and ATTESTATION_COMPLETE; the monitor mailbox: the host writes a command word that is not under
way and the arguments, an unknown code is answered at once, and the reply is the monitor's; what BAR0 reads.
(Readings and choices of the model it rests on: log 1 and log 3, the fault of an address that is not mapped; log 20, CXL
addresses that no decoder claims; log 25, the mailbox; log 28; log 33; log 36, a locked slot is not written.) -/
def Obligations.HostRegisterEvents : Prop :=
  (∀ (s : State) (q val : Nat), q < 64 →
    let x := s.queueOf q
    let err := s.modQueue q fun x => { x with err := true }
    (2 ^ x.log < (val % 2 ^ 32 + 2 ^ 32 - x.head) % 2 ^ 32 → exec (.qtailWrite q val) s = .next err)
    ∧ ((val % 2 ^ 32 + 2 ^ 32 - x.head) % 2 ^ 32 ≤ 2 ^ x.log →
        exec (.qtailWrite q val) s = .next ((s.modQueue q fun x =>
          { x with tail := val % 2 ^ 32, told := (s.hist.filter fun w => w.maker == .host).map (·.id) }).copyHead q))
    ∧ (val % 256 ≠ 0 ∨ x.en = true ∨ x.tail ≠ x.head → exec (.qbaseWrite q val) s = .next err)
    ∧ (val % 256 = 0 → x.en = false → x.tail = x.head →
        exec (.qbaseWrite q val) s = .next (s.modQueue q fun x => { x with base := val % 2 ^ 64 }))
    ∧ (let log := bits val 4 0
       let bad := (log ≠ x.log ∧ (x.en = true ∨ x.tail ≠ x.head)) ∨ (bit val 31 = true ∧ (log < 4 ∨ 16 < log))
       (bad → exec (.qctlWrite q val) s = .next err)
       ∧ (¬bad → exec (.qctlWrite q val) s = .next ((s.modQueue q fun x =>
          { x with en := bit val 31, irq := bit val 30, err := x.err && !bit val 29, log := log,
                   head := if bit val 31 && !x.en then x.tail else x.head }).copyHead q))))
  ∧ (∀ (s : State) (tcmd : Nat), bit tcmd 31 = true → bit s.regs.tcmd 31 = false ∨ s.regs.tcmd = tcmd →
    let i := bits tcmd 27 16
    let w := BitVec.ofNat 128 s.regs.tent
    let done (s : State) (stat : Nat) : State :=
      { s with regs := { s.regs with tcmd := i * 65536 + bits tcmd 1 0, tstat := stat } }
    (bits tcmd 1 0 = 0 → (∀ p ∈ (ArenaEntry.of w).pages, (ArenaEntry.of w).valid = true → s.walkPorts p = []) →
      let st := s.arenaStat tcmd (ArenaEntry.of w)
      exec (.arenaCommand tcmd) s = .next (if st = 0 then done (s.putArena i w) 0 else done s st))
    ∧ (∀ p ∈ (ArenaEntry.of w).pages, bits tcmd 1 0 = 0 → (ArenaEntry.of w).valid = true → s.walkPorts p ≠ [] →
      bit s.regs.tcmd 31 = false →
      exec (.arenaCommand tcmd) s = .next { s with regs := { s.regs with tcmd := 2 ^ 31 + i * 65536 } })
    ∧ (bits tcmd 1 0 = 1 → (∀ p ∈ (ExportEntry.of w).pages, s.walkPorts p = []) →
      let st := s.exportStat tcmd s.regs.tent
      exec (.exportCommand tcmd) s = .next (if st = 0 then
        done { s with exports := Map.put s.exports 0 i w, exportPages := s.exportPins (Map.put s.exports 0 i w) }.answerExtents 0
        else done s st))
    ∧ (bits tcmd 1 0 = 2 →
      let st := s.importStat tcmd s.regs.tent
      exec (.importCommand tcmd) s = .next (if st = 0 then
        done { s with imports := Map.put s.imports 0 i (BitVec.ofNat 64 s.regs.tent) } 0 else done s st)))
  ∧ (∀ (s : State) (tcmd : Nat), bit tcmd 31 = true → bit s.regs.tcmd 31 = true → s.regs.tcmd ≠ tcmd →
    let t := { s with regs := { s.regs with tstat := 6 } }
    (bits tcmd 1 0 = 0 → exec (.arenaCommand tcmd) s = .next t)
    ∧ (bits tcmd 1 0 = 1 → exec (.exportCommand tcmd) s = .next t)
    ∧ (bits tcmd 1 0 = 2 → exec (.importCommand tcmd) s = .next t))
  ∧ (∀ (s : State) (x : Nat), x < 2 ^ 32 →
    ∃ t, exec (.registerWrite 0x110 4 x) s = .next t ∧ t = { s with regs := t.regs }
      ∧ (bit s.regs.tcmd 31 = true → t.regs.tcmd = s.regs.tcmd ∧ t.regs.tstat = 6)
      ∧ (bit s.regs.tcmd 31 = false → bit x 31 = true → bits x 1 0 ≠ 3 →
          t.regs.tcmd = 2 ^ 31 + bits x 27 16 * 65536 + bits x 1 0)
      ∧ (bit s.regs.tcmd 31 = false → bit x 31 = true → bits x 1 0 = 3 →
          t.regs.tcmd = bits x 27 16 * 65536 + 3 ∧ t.regs.tstat = 1))
  ∧ (∀ (s : State) (val : Nat),
    exec (.tbaseWrite val) s = .next { s with regs := { s.regs with tbase := bits val 51 11 * 2048 } }
    ∧ exec (.ftlimitWrite val) s = .next { s with regs := { s.regs with ftlimit := val % 2 ^ 32 } }
    ∧ (∃ t, exec (.fabidWrite val) s = .next t ∧ t = { s with regs := t.regs } ∧ t.regs.fabEn = bit val 31
        ∧ t.regs.devno = (if s.regs.fabEn then s.regs.devno else bits val 8 0)
        ∧ t.regs.fabDup = (s.regs.fabDup && bit val 31))
    ∧ ∀ i < 40, ∃ t v, exec (.islctlWrite i val) s = .next t ∧ t = { s with islands := t.islands }
        ∧ t.island i = { s.island i with ctlNext := some v } ∧ (∀ n, n ≠ i → t.island n = s.island n)
        ∧ bits v.toNat 63 12 = bits val 63 12 ∧ bits v.toNat 11 5 = 0 ∧ bits v.toNat 4 0 = bits val 4 0)
  ∧ (∀ (s : State), (s.regs.attStart = true → exec .attestationRequest s = .next s)
    ∧ (s.regs.attStart = false → exec .attestationRequest s = .next { s with regs := { s.regs with
        attStart := true, attNonce := (List.range 32).map fun i => Map.get s.regs.nonce 0 i } }))
  ∧ (∀ (s : State) (n : Nat) (body rsa slh : List Byte), s.regs.attStart = true → n ≤ 40 → body.length = 48 * n →
    s.regs.attNonce.length = 32 → rsa.length = 384 → slh.length = 16224 →
      ∃ t, exec (.attestationComplete (s.regs.reportHead n ++ body) rsa slh) s = .next t
        ∧ t = { s with regs := { s.regs with attStart := false, report := t.regs.report } })
  ∧ (∀ (s : State) (off n : Nat), s.gate = false → 0 < n → off + n ≤ 2 ^ 36 →
    let pa := s.regs.apbase / 2 ^ 36 * 2 ^ 36 + off
    s.portsAt [pa, pa + n - 1] = [] →
    ((kindOf pa).plain = true → (kindOf (pa + n - 1)).plain = true → (∀ i < n, s.hostBad (pa + i) = false) →
      ∃ t, exec (.hostBar2Access (.read off n)) s = .next t
        ∧ t = { s with hostRead := (List.range n).map fun i => Memory.read s.mem (pa + i), free := t.free })
    ∧ (kindOf pa = .peer → kindOf (pa + n - 1) = .peer → s.noPlane = false → ∀ dev xidx o, s.importAt pa = some (dev, xidx, o) →
      exec (.hostBar2Access (.read off n)) s = .next { s with
        hostReqs := Map.ins s.hostReqs s.nextId n, nextId := s.nextId + 1
        fabricOut := s.fabricOut ++ [.request dev s.nextId xidx o (.read n)] })
    ∧ (kindOf pa = .reserved ∨ kindOf (pa + n - 1) = .reserved →
      exec (.hostBar2Access (.read off n)) s = .fault .noMemory))
  ∧ (let one (s : State) (x : Nat × Byte) : State :=
      if s.lockedPa x.1 || (kindOf x.1 == .cxl && (s.cxlPort x.1).isNone) then s else s.hostWrite x.1 x.2
    (∀ (s : State) (off : Nat) (bs : List Byte), s.gate = false → bs ≠ [] → off + bs.length ≤ 2 ^ 36 →
      let pa := s.regs.apbase / 2 ^ 36 * 2 ^ 36 + off
      s.portsAt [pa, pa + bs.length - 1] = [] → (kindOf pa).plain = true → (kindOf (pa + bs.length - 1)).plain = true →
        exec (.hostBar2Access (.write off bs)) s = .next
          ((bs.mapIdx fun i b => (pa + i, b)).foldl one { s with free := s.free + 1 }))
    ∧ ∀ (s : State) (x : Nat × Byte),
      (s.lockedPa x.1 = true → one s x = s)
      ∧ (s.lockedPa x.1 = false → (kindOf x.1 = .cxl → (s.cxlPort x.1).isSome = true) → s.lost x.1 = false →
          ∀ a, Memory.read (one s x).mem a = if a = x.1 then x.2 else Memory.read s.mem a))
  ∧ (∀ (s : State) (q i : Nat), q < 64 → i < 4 →
    s.regByte i = BitVec.ofNat 8 (s.regs.devid / 256 ^ i) ∧ s.regByte (0x58 + i) = BitVec.ofNat 8 (s.regs.ftlimit / 256 ^ i)
    ∧ s.regByte (0x1000 + 32 * q + 16 + i) = BitVec.ofNat 8 ((s.queueOf q).tail / 256 ^ i)
    ∧ s.regByte (0x1000 + 32 * q + 20 + i) = 0)
  ∧ (∀ (s : State) (i : Nat), i < 40 →
    bits (s.regByte (0x200 + 8 * i)).toNat 7 5 = 0 ∧ bits (s.regByte (0x201 + 8 * i)).toNat 3 0 = 0)
  ∧ (∀ (s : State) (x : Nat), x < 2 ^ 64 →
      exec (.registerWrite 0x48 8 x) s = .next { s with regs := { s.regs with
        apbase := x, tent := s.regs.tent % 2 ^ 128, tstat := s.regs.tstat % 2 ^ 32
        ckctl := if bit s.regs.ckctl 31 then s.regs.ckctl else s.regs.ckctl % 2 ^ 31 } })
  ∧ ∀ (s : State) (core val : Nat), core < 160 →
    let at0 := 0x10000 + 64 * core
    let byte (s : State) (o : Nat) : Byte := Map.get (s.coreOf core).mailbox 0 o
    let op := bits val 15 0
    let keeps (t : State) : Prop :=
      t = { s with regs := t.regs, cores := t.cores, msix := t.msix } ∧ ∀ c, c ≠ core → t.coreOf c = s.coreOf c
    (s.mailPending core = true → (s.monitorOf core).isSome = true → 1 ≤ s.mail core 0 2 → s.mail core 0 2 ≤ 8 →
      ∃ t, exec (.registerWrite at0 4 val) s = .next t ∧ keeps t ∧ t.msix = s.msix ∧ ∀ o, byte t o = byte s o)
    ∧ (s.mailPending core = false ∨ s.monitorOf core = none →
      ∃ t, exec (.registerWrite at0 4 val) s = .next t ∧ keeps t
        ∧ ((1 ≤ op ∧ op ≤ 8) ∨ bits val 31 16 = s.mail core 34 2 ∨ s.monitorOf core = none →
          t.mail core 0 4 = val % 2 ^ 32 ∧ t.msix = s.msix ∧ ∀ o, 4 ≤ o → byte t o = byte s o)
        ∧ (op = 0 ∨ 8 < op → bits val 31 16 ≠ s.mail core 34 2 → (s.monitorOf core).isSome = true →
          t.mail core 33 1 = 1 ∧ t.mail core 34 2 = bits val 31 16 ∧ t.msix = s.msix ++ [65]))
    ∧ (∀ k, k < 3 → ∃ t, exec (.registerWrite (at0 + 8 + 8 * k) 8 val) s = .next t ∧ keeps t ∧ t.msix = s.msix
        ∧ t.mail core (8 + 8 * k) 8 = val % 2 ^ 64
        ∧ ∀ o, o < 8 + 8 * k ∨ 16 + 8 * k ≤ o → byte t o = byte s o)
    ∧ ∀ k, k < 9 → ∃ t, exec (.registerWrite (at0 + if k = 8 then 4 else 32 + 4 * k) 4 val) s = .next t ∧ keeps t
        ∧ t.msix = s.msix ∧ ∀ o, byte t o = byte s o

/-- R412 to R414: the monitor of a core answers the command word it finds unanswered: HALT and RESUME hold and free the
launch, RDREG, WRREG, RDMEM and WRMEM reach a register or eight bytes, a load that acquires and a store that releases,
ONEWORD lets the trapped split go on for one word, END ends the launch by fault; one that needs a delivered trap or HALT
is answered 3 without, and an argument that is out of range 2.
(Readings and choices of the model it rests on: log 2, log 25, log 33.) -/
def Obligations.MonitorCommands : Prop :=
  ∀ (s : State) (core : Nat) (c : Ctx) (l : Launch), s.gate = false → s.monitorOf core = some c →
    s.launch? c.launch = some l → s.mailPending core = true → l.oneword = none →
    let op := s.mail core 0 2
    let x := s.mail core 8 8
    let y := s.mail core 16 8
    let stood := c.serving.isSome = true ∨ l.halted = true
    let ports := portsOf s l x 8 = []
    (op = 1 → exec (.halt core) s = .next
      ((s.modLaunch c.launch fun l => { l with halted := true }).reply core 0 0))
    ∧ (op = 2 → 2 ^ 32 ≤ y → exec (.resume core) s = .next (s.reply core 2 0))
    ∧ (op = 2 → y < 2 ^ 32 → exec (.resume core) s = .next
        (((s.trapReturn c.launch core (BitVec.ofNat 64 x) (BitVec.ofNat 32 y)).modLaunch c.launch fun l =>
          { l with halted := false }).reply core 0 0))
    ∧ (op = 3 → stood → ∀ k g r j, s.regArg c x = some (k, g, r, j) →
        exec (.rdreg core) s = .next (s.reply core 0 (remoteRead g j r (bits x 20 16))))
    ∧ (stood → s.regArg c x = none →
        (op = 3 → exec (.rdreg core) s = .next (s.reply core 2 0)) ∧ (op = 4 → exec (.wrreg core) s = .next (s.reply core 2 0)))
    ∧ (op = 4 → stood → ∀ k g j, s.regArg c x = some (k, g, .m 0, j) → exec (.wrreg core) s = .next (s.reply core 2 0))
    ∧ (op = 4 → stood → ∀ k g r j, s.regArg c x = some (k, g, r, j) → r ≠ .m 0 →
        exec (.wrreg core) s = .next ((s.modGroup k fun g =>
          g.writeRegs (remoteWrites r false allLanes (bits x 20 16) fun _ => y)).reply core 0 0))
    ∧ (op = 5 → stood → ports →
        let k := gkey c.launch core 0 handlerSlot
        let s1 := s.comeAfter k allLanes .mem (l.phys x) 8
        let got := s1.readPart k allLanes true (readKey 0 0) .mem (l.phys x) 8
        (s.memArgBad l false x = true → exec (.rdmem core) s = .next (s.reply core 2 0))
        ∧ (s.memArgBad l false x = false → s1.physBad (l.phys x) 8 = true →
            exec (.rdmem core) s = .next (s1.consume k 0 (l.phys x)))
        ∧ (s.memArgBad l false x = false → s1.physBad (l.phys x) 8 = false →
            exec (.rdmem core) s = .next
              ((s1.didRead k allLanes (some monitorObs) true got.srcs got.rels).reply core 0 got.nat)
            ∧ (s.stores = [] → s.atoms = [] → s.hist = [] → s.inRegion k = false →
                got.nat = leNat (s.physBytes (l.phys x) 8))))
    ∧ (op = 6 → stood → ports → s.memArgBad l true x = true → exec (.wrmem core) s = .next (s.reply core 2 0))
    ∧ (op = 6 → stood → ports → s.memArgBad l true x = false →
        let k := gkey c.launch core 0 handlerSlot
        let rels := match s.group? k with | some g => s.relsOf g allLanes (some monitorObs) true | none => []
        exec (.wrmem core) s = .next
          (((s.drain k).putNow k allLanes (l.phys x) (leBytes 8 y) false false rels).reply core 0 0)
        ∧ (s.stores = [] → s.inRegion k = false → s.lost (l.phys x) = false → s.lost (l.phys x + 7) = false →
            ∀ t, exec (.wrmem core) s = .next t → t.physBytes (l.phys x) 8 = leBytes 8 y))
    ∧ (op = 7 → ∀ t, c.serving = some t → exec (.oneword core) s = .next
        ((s.trapReturn c.launch core t.pc t.tmask).modLaunch c.launch fun l =>
          { l with oneword := some (t.group, t.split, false) }))
    ∧ (op = 8 → ∃ t, exec (.endLaunch core) s = .next t ∧ (∀ z ∈ t.groups, z.2.launch ≠ c.launch)
        ∧ ∀ l', t.launch? c.launch = some l' → l'.faulted = true ∧ l'.stopped = true)
    ∧ (¬stood →
        (op = 3 → exec (.rdreg core) s = .next (s.reply core 3 0))
        ∧ (op = 4 → exec (.wrreg core) s = .next (s.reply core 3 0))
        ∧ (op = 5 → ports → exec (.rdmem core) s = .next (s.reply core 3 0))
        ∧ (op = 6 → ports → exec (.wrmem core) s = .next (s.reply core 3 0))
        ∧ (op = 7 → exec (.oneword core) s = .next (s.reply core 3 0)))

/-! ### Encoding, fetch, step, invariant, reset -/

/-- R145, R212: NOP is the F word of opcode 0x01 whose other fields are all 0, with another bit set it raises cause
0x02; it completes, changes no register, flag or byte of memory, folds into the signature and is charged 1. -/
def Obligations.NopWord : Prop :=
  (∀ w : Nat, bits w 63 62 = 0 → bits w 61 54 = 1 →
    decodeWord w = if w = 0x0040000000000000 then .ok .nop else .error .cause02)
  ∧ encode .nop = 0x0040000000000000
  ∧ ∀ s it, Issues .nop s it →
    Computes .nop s it (fun _ => none) {}
    ∧ (it.sp.held = none → ∃ t g', exec .nop s = .next t ∧ t.group? it.key = some g'
        ∧ (g'.split it.j).sig = foldWord it.sp.sig 0x0040000000000000
        ∧ (t.island (islandOf it.g.core)).charges = (s.island (islandOf it.g.core)).charges + 1)

/-- Chapters 9 to 13: every well-formed instruction word decodes to itself from its encoding, and every word that decodes
is the encoding of the well-formed instruction it decodes to: no bit of a word is dropped. -/
def Obligations.EncodeThenDecode : Prop :=
  (∀ i : Instr, i.wellFormed = true → i.isEvent = false → encode i < 2 ^ 64 ∧ decodeWord (encode i) = .ok i)
  ∧ ∀ (w : Nat) (i : Instr), decodeWord w = .ok i → encode i = w ∧ i.wellFormed = true ∧ i.isEvent = false

/-- Words that the spec writes out bit by bit beside their fields decode to the instructions they stand for (R187, R193,
R195, R198 and the worked encodings of chapters 9 to 13). -/
def Obligations.SpecWordsDecode : Prop :=
  let p : Pred := ⟨0, false⟩
  let x (ty : Ty) (cc : Bool) (opx : Nat) : XArith := ⟨ty, .rne, false, cc, false, false, false, false, opx⟩
  let kde : Obs := ⟨true, true, true, false, false, false, false⟩
  let none : Obs := ⟨false, false, false, false, false, false, false⟩
  decodeWord 0x0800014882004000 = .ok (.fadd ⟨p, 0, .v 20, .nb 1 0, .nb 0 0, x .f32 false 0⟩)
  ∧ decodeWord 0x0100114453FF0100 = .ok (.iadd ⟨p, 0, .s 20, .s 20, .imm (-1), x .i32 true 0⟩)
  ∧ decodeWord 0x06C8302010050002 = .ok (.icmp ⟨⟨1, false⟩, 0, .m 2, .v 4, .v 5, x .i32 false 2⟩)
  ∧ decodeWord 0x4209510020241400 = .ok (.pairIadd ⟨4, .imm 1, 0, false⟩ ⟨.fmul, ⟨9, .v 10, 0, false⟩⟩)
  ∧ decodeWord 0x8041141012345678 = .ok (.movi ⟨p, .s 20, ⟨.n32, false, false⟩, 0x12345678⟩)
  ∧ decodeWord 0xC1600000FFFFFFFD = .ok (.bra (.cc 8) (-3))
  ∧ decodeWord 0xC6A8000300000005 = .ok (.split true 2 3 5)
  ∧ decodeWord 0x2000805420028B80 = .ok (.ld ⟨p, 2, .v 5, .s 8, .v 2, ⟨.w32, .acq, kde, .normal⟩⟩)
  ∧ decodeWord 0x248000C053008400 = .ok (.atoms ⟨p, 0, .v 12, .v 20, .imm 0, ⟨.w32, .strong, none, .normal⟩⟩)
  ∧ decodeWord 0x1680928003030005 = .ok (.xread ⟨p, 2, .s 40, .v 0, .imm 3, .v 5⟩)
  ∧ decodeWord 0x3400002000100000 = .ok (.mma ⟨p, 0, 2, .v 0, .v 16, ⟨0, 0, 0, false⟩⟩)
  ∧ decodeWord 0x2C0011E4210C0000 = .ok (.cpy ⟨p, 0, .s 30, .s 8, .s 12, ⟨0, 0⟩⟩)

/-- R43, R299, R400, R401, R404, R420: every word at a PC is decoded. One that the decoder accepts is the instruction
that issues; one that it refuses is not executed and raises its cause with the word as auxiliary: 0x01 where a rule of
that cause is broken, in whichever group it stands, else 0x02. F opcode 0x00 raises 0x01, so an all-zero word traps. A
word that reads a poisoned register has issued and consumes the poison. (Log 10: the mask of a refused word; log 11: the
address that a poisoned register's event names.) -/
def Obligations.RefusedWordsTrap : Prop :=
  (∀ (s : State) (it : Iss) (w : Nat), s.iss = some it → it.fetch s = .word w →
    let m := wordMask it.g it.sp w
    let t (cause : Nat) : Trap := { cause := cause, lane := lowest m, tmask := m, aux := w, pc := it.sp.pc }
    (∀ i, decodeWord w = .ok i → s.fetched = some (.inl i))
    ∧ (decodeWord w = .error .cause01 → s.fetched = some (.inr (s.raise it.key it.j (t 0x01))))
    ∧ (decodeWord w = .error .cause02 → ∀ i, buildWord w = some i →
        s.fetched = some (.inr (s.raise it.key it.j (t (if Instr.groupBad i it.g then 0x01 else 0x02))))))
  ∧ (∀ w : Nat, buildWord w = none → decodeWord w = .error .cause01)
  ∧ (∀ w : Nat, bits w 63 62 = 0 → bits w 61 54 = 0 → decodeWord w = .error .cause01)
  ∧ (∀ (i : Instr) (s : State) (it : Iss), s.iss = some it → i.isEvent = false → Instr.groupBad i it.g = false →
      it.readsBad i = true →
      let folds := match i with | .sigchk _ => false | .swrite w => w.x != 0x41 | _ => true
      ∃ v, exec i s = .next ((s.issuedAs it i folds).consume it.key it.sp.pc v))
  ∧ ∀ (i : Instr) (s : State) (it : Iss), s.iss = some it → i.isEvent = false → Instr.groupBad i it.g = true →
      exec i s = .next (s.raise it.key it.j (it.trapBits 0x01 (encode i)))
      ∧ ∀ m, m = wordMask it.g it.sp (encode i) →
          it.trapBits 0x01 (encode i) = { cause := 0x01, lane := lowest m, tmask := m, aux := encode i, pc := it.sp.pc }

/-- R33, R175, R186, R399 (log 3, log 13: what stands for the load of a program): one step. Where a ready split that its
partition takes is next and its word, the one at its PC or one whose access was held, decodes to i, step is exec of i
with that split as the one that issues; the PC and whatever else changes are exec's. Where an event is next, step is
exec of that event; a turn of the model's own is taken. A word placed by withFetchWord is the next one. Every
instruction completes: exec answers a next state for it in every state, but for HOST_BAR2_ACCESS, which stops at an
address that R103 does not map (an event whose condition does not hold changes nothing: log 33). -/
def Obligations.StepRunsTheDecodedInstruction : Prop :=
  (∀ (s s1 : State) (k j w : Nat) (i : Instr) (it : Iss), s.wake.nextTurn = (s1, .issue k j) → s1.ready k j = true →
    s1.mayTake (s1.rivals k) (k, j) = true → (s1.enter k j).iss = some it → it.fetch (s1.enter k j) = .word w →
    decodeWord w = .ok i →
      step s = exec i (s1.enter k j) ∧ (s1.enter k j).cur = k ∧ (s1.enter k j).curSplit = j)
  ∧ (∀ (s s1 : State) (i : Instr), s.wake.nextTurn = (s1, .event i) → i.isEvent = true → step s = exec i s1)
  ∧ (∀ (s s1 : State) (t : Turn), s.wake.nextTurn = (s1, t) → (∀ k j, t ≠ .issue k j) → (∀ i, t ≠ .event i) →
      step s = .next (s1.ownTurn t))
  ∧ (∀ (i : Instr) (s : State), (∀ a, i ≠ .hostBar2Access a) → ∃ t, exec i s = .next t)
  ∧ ∀ (s : State) (w : Nat),
      (s.withFetchWord 64 w).agenda.head? = some (.issue (gkey s.nextLaunch (40 * s.loadDie) 0 0) 0)
      ∧ ∀ i < 8, Memory.read (s.withFetchWord 64 w).mem (2 ^ 37 * s.loadDie + 0x10000 + i) =
          BitVec.ofNat 8 (w % 2 ^ 64 / 256 ^ i)

/-- R5, R103 (log 1: what an unlisted byte reads as): every step keeps memory in its one canonical form, addresses rising
and no entry equal to what an unlisted address reads as, so that equal memories are equal data. -/
def Obligations.MemoryCanonicalStep : Prop :=
  ∀ s s' : State, s.memoryCanonical → step s = .next s' → s'.memoryCanonical

/-- R21, R62, R142, R343, R344, R350 and the Reset columns of chapter 14 (log 1, log 18: what the spec does not give):
after reset nothing runs, every island is at FSUST 18 and 850 MHz with nothing charged, every counter and every queue
register is 0, the registers of BAR0 have their reset values, and memory has its canonical form and lists nothing. -/
def Obligations.ResetValues : Prop :=
  let s := State.reset
  s.memoryCanonical ∧ (∀ a, Memory.read s.mem a = memDefault)
  ∧ (∀ k, s.group? k = none) ∧ (∀ n core, s.ctx? n core = none) ∧ (∀ n, s.launch? n = none)
  ∧ (∀ i, (s.island i).ctl = 18 ∧ (s.island i).mhz = 850 ∧ (s.island i).a = 0 ∧ (s.island i).charges = 0
      ∧ (s.island i).lease = 0 ∧ (s.island i).holder = none)
  ∧ (∀ d, (s.die d).wall = 0 ∧ (s.die d).fenced = false) ∧ (∀ c, (s.coreOf c).cyc = 0)
  ∧ (∀ q, (s.queueOf q).base = 0 ∧ (s.queueOf q).en = false ∧ (s.queueOf q).irq = false ∧ (s.queueOf q).err = false
      ∧ (s.queueOf q).log = 0 ∧ (s.queueOf q).head = 0 ∧ (s.queueOf q).tail = 0)
  ∧ s.regs.devid = 0x5E1F0160 ∧ s.regs.rdy = [0, 0, 0, 0] ∧ s.regs.tbase = 0 ∧ s.regs.apbase = 0
  ∧ s.regs.devno = 0 ∧ s.regs.fabEn = false ∧ s.regs.fabDup = false ∧ s.regs.ftlimit = 0x000F4240
  ∧ s.regs.tcmd = 0 ∧ s.regs.tstat = 0 ∧ s.regs.ckctl = 0
  ∧ (∀ a, (s.arena a).valid = false) ∧ s.refreeze = false ∧ s.gate = false
end

