-- ==== Sys2Proof/Laws/Dispatch.lean ====
section
/-!
SUPPORT. exec answers each instruction's own meaning: one equation per constructor.
-/

namespace Sys2Proof.Machine

open Sys2Proof

theorem exec_nop (s : State) : exec (.nop) s = execNop s := rfl
theorem exec_mov (w : FWord XArith) (s : State) : exec (.mov w) s = execMov w s := rfl
theorem exec_sel (w : FWord XArith) (s : State) : exec (.sel w) s = execSel w s := rfl
theorem exec_iadd (w : FWord XArith) (s : State) : exec (.iadd w) s = execIadd w s := rfl
theorem exec_isub (w : FWord XArith) (s : State) : exec (.isub w) s = execIsub w s := rfl
theorem exec_imul (w : FWord XArith) (s : State) : exec (.imul w) s = execImul w s := rfl
theorem exec_imulh (w : FWord XArith) (s : State) : exec (.imulh w) s = execImulh w s := rfl
theorem exec_imad (w : FWord XArith) (s : State) : exec (.imad w) s = execImad w s := rfl
theorem exec_idiv (w : FWord XArith) (s : State) : exec (.idiv w) s = execIdiv w s := rfl
theorem exec_imin (w : FWord XArith) (s : State) : exec (.imin w) s = execImin w s := rfl
theorem exec_imax (w : FWord XArith) (s : State) : exec (.imax w) s = execImax w s := rfl
theorem exec_iabs (w : FWord XArith) (s : State) : exec (.iabs w) s = execIabs w s := rfl
theorem exec_lea (w : FWord XArith) (s : State) : exec (.lea w) s = execLea w s := rfl
theorem exec_and (w : FWord XArith) (s : State) : exec (.and w) s = execAnd w s := rfl
theorem exec_or (w : FWord XArith) (s : State) : exec (.or w) s = execOr w s := rfl
theorem exec_xor (w : FWord XArith) (s : State) : exec (.xor w) s = execXor w s := rfl
theorem exec_andn (w : FWord XArith) (s : State) : exec (.andn w) s = execAndn w s := rfl
theorem exec_shl (w : FWord XArith) (s : State) : exec (.shl w) s = execShl w s := rfl
theorem exec_shr (w : FWord XArith) (s : State) : exec (.shr w) s = execShr w s := rfl
theorem exec_sar (w : FWord XArith) (s : State) : exec (.sar w) s = execSar w s := rfl
theorem exec_rot (w : FWord XArith) (s : State) : exec (.rot w) s = execRot w s := rfl
theorem exec_popc (w : FWord XArith) (s : State) : exec (.popc w) s = execPopc w s := rfl
theorem exec_clz (w : FWord XArith) (s : State) : exec (.clz w) s = execClz w s := rfl
theorem exec_brev (w : FWord XArith) (s : State) : exec (.brev w) s = execBrev w s := rfl
theorem exec_bfe (w : FWord XArith) (s : State) : exec (.bfe w) s = execBfe w s := rfl
theorem exec_bfi (w : FWord XArith) (s : State) : exec (.bfi w) s = execBfi w s := rfl
theorem exec_icmp (w : FWord XArith) (s : State) : exec (.icmp w) s = execIcmp w s := rfl
theorem exec_fadd (w : FWord XArith) (s : State) : exec (.fadd w) s = execFadd w s := rfl
theorem exec_fsub (w : FWord XArith) (s : State) : exec (.fsub w) s = execFsub w s := rfl
theorem exec_fmul (w : FWord XArith) (s : State) : exec (.fmul w) s = execFmul w s := rfl
theorem exec_ffma (w : FWord XArith) (s : State) : exec (.ffma w) s = execFfma w s := rfl
theorem exec_fmin (w : FWord XArith) (s : State) : exec (.fmin w) s = execFmin w s := rfl
theorem exec_fmax (w : FWord XArith) (s : State) : exec (.fmax w) s = execFmax w s := rfl
theorem exec_fcmp (w : FWord XArith) (s : State) : exec (.fcmp w) s = execFcmp w s := rfl
theorem exec_frnd (w : FWord XArith) (s : State) : exec (.frnd w) s = execFrnd w s := rfl
theorem exec_frcp (w : FWord XArith) (s : State) : exec (.frcp w) s = execFrcp w s := rfl
theorem exec_frsq (w : FWord XArith) (s : State) : exec (.frsq w) s = execFrsq w s := rfl
theorem exec_fsqrt (w : FWord XArith) (s : State) : exec (.fsqrt w) s = execFsqrt w s := rfl
theorem exec_fdiv (w : FWord XArith) (s : State) : exec (.fdiv w) s = execFdiv w s := rfl
theorem exec_fexp2 (w : FWord XArith) (s : State) : exec (.fexp2 w) s = execFexp2 w s := rfl
theorem exec_flog2 (w : FWord XArith) (s : State) : exec (.flog2 w) s = execFlog2 w s := rfl
theorem exec_fsin (w : FWord XArith) (s : State) : exec (.fsin w) s = execFsin w s := rfl
theorem exec_fcos (w : FWord XArith) (s : State) : exec (.fcos w) s = execFcos w s := rfl
theorem exec_fclass (w : FWord XArith) (s : State) : exec (.fclass w) s = execFclass w s := rfl
theorem exec_fdot2 (w : FWord XArith) (s : State) : exec (.fdot2 w) s = execFdot2 w s := rfl
theorem exec_cvt (w : FWord XCvt) (s : State) : exec (.cvt w) s = execCvt w s := rfl
theorem exec_cvtq (w : FWord XArith) (s : State) : exec (.cvtq w) s = execCvtq w s := rfl
theorem exec_cvtqd (w : FWord XArith) (s : State) : exec (.cvtqd w) s = execCvtqd w s := rfl
theorem exec_pack (w : FWord XArith) (s : State) : exec (.pack w) s = execPack w s := rfl
theorem exec_unpack (w : FWord XArith) (s : State) : exec (.unpack w) s = execUnpack w s := rfl
theorem exec_shfl (w : FWord XArith) (s : State) : exec (.shfl w) s = execShfl w s := rfl
theorem exec_shflx (w : FWord XArith) (s : State) : exec (.shflx w) s = execShflx w s := rfl
theorem exec_bcst (w : FWord XArith) (s : State) : exec (.bcst w) s = execBcst w s := rfl
theorem exec_vote (w : FWord XArith) (s : State) : exec (.vote w) s = execVote w s := rfl
theorem exec_matchl (w : FWord XArith) (s : State) : exec (.matchl w) s = execMatchl w s := rfl
theorem exec_redl (w : FWord XArith) (s : State) : exec (.redl w) s = execRedl w s := rfl
theorem exec_scanl (w : FWord XArith) (s : State) : exec (.scanl w) s = execScanl w s := rfl
theorem exec_firstl (w : FWord XArith) (s : State) : exec (.firstl w) s = execFirstl w s := rfl
theorem exec_mtos (w : FWord XArith) (s : State) : exec (.mtos w) s = execMtos w s := rfl
theorem exec_stom (w : FWord XArith) (s : State) : exec (.stom w) s = execStom w s := rfl
theorem exec_step (s : State) : exec (.step) s = execStep s := rfl
theorem exec_stepq (w : FWord Bool) (s : State) : exec (.stepq w) s = execStepq w s := rfl
theorem exec_sread (w : FWord Nat) (s : State) : exec (.sread w) s = execSread w s := rfl
theorem exec_swrite (w : FWord Nat) (s : State) : exec (.swrite w) s = execSwrite w s := rfl
theorem exec_xread (w : FWord RReg) (s : State) : exec (.xread w) s = execXread w s := rfl
theorem exec_xwrite (w : FWord RReg) (s : State) : exec (.xwrite w) s = execXwrite w s := rfl
theorem exec_sprint (w : FWord Bool) (s : State) : exec (.sprint w) s = execSprint w s := rfl
theorem exec_sprel (w : FWord Unit) (s : State) : exec (.sprel w) s = execSprel w s := rfl
theorem exec_assertw (w : FWord Unit) (s : State) : exec (.assertw w) s = execAssertw w s := rfl
theorem exec_bkpt (w : FWord Nat) (s : State) : exec (.bkpt w) s = execBkpt w s := rfl
theorem exec_yieldw (w : FWord Nat) (s : State) : exec (.yieldw w) s = execYieldw w s := rfl
theorem exec_tdset (w : FWord Unit) (s : State) : exec (.tdset w) s = execTdset w s := rfl
theorem exec_tdget (w : FWord Unit) (s : State) : exec (.tdget w) s = execTdget w s := rfl
theorem exec_ld (w : FWord XMem) (s : State) : exec (.ld w) s = execLd w s := rfl
theorem exec_st (w : FWord XMem) (s : State) : exec (.st w) s = execSt w s := rfl
theorem exec_lds (w : FWord XMem) (s : State) : exec (.lds w) s = execLds w s := rfl
theorem exec_sts (w : FWord XMem) (s : State) : exec (.sts w) s = execSts w s := rfl
theorem exec_ldl (w : FWord XMem) (s : State) : exec (.ldl w) s = execLdl w s := rfl
theorem exec_stl (w : FWord XMem) (s : State) : exec (.stl w) s = execStl w s := rfl
theorem exec_ldu (w : FWord XMem) (s : State) : exec (.ldu w) s = execLdu w s := rfl
theorem exec_stu (w : FWord XMem) (s : State) : exec (.stu w) s = execStu w s := rfl
theorem exec_ldt (w : FWord XMem) (s : State) : exec (.ldt w) s = execLdt w s := rfl
theorem exec_stt (w : FWord XMem) (s : State) : exec (.stt w) s = execStt w s := rfl
theorem exec_pref (w : FWord XMem) (s : State) : exec (.pref w) s = execPref w s := rfl
theorem exec_fence (w : FWord XMem) (s : State) : exec (.fence w) s = execFence w s := rfl
theorem exec_atom (w : FWord XMem) (s : State) : exec (.atom w) s = execAtom w s := rfl
theorem exec_atomn (w : FWord XMem) (s : State) : exec (.atomn w) s = execAtomn w s := rfl
theorem exec_atoms (w : FWord XMem) (s : State) : exec (.atoms w) s = execAtoms w s := rfl
theorem exec_atomsn (w : FWord XMem) (s : State) : exec (.atomsn w) s = execAtomsn w s := rfl
theorem exec_atomu (w : FWord XMem) (s : State) : exec (.atomu w) s = execAtomu w s := rfl
theorem exec_bar (w : FWord XBar) (s : State) : exec (.bar w) s = execBar w s := rfl
theorem exec_bara (w : FWord XBar) (s : State) : exec (.bara w) s = execBara w s := rfl
theorem exec_barw (w : FWord XBar) (s : State) : exec (.barw w) s = execBarw w s := rfl
theorem exec_tbinit (w : FWord XTb) (s : State) : exec (.tbinit w) s = execTbinit w s := rfl
theorem exec_tbarr (w : FWord XTb) (s : State) : exec (.tbarr w) s = execTbarr w s := rfl
theorem exec_tbexp (w : FWord XTb) (s : State) : exec (.tbexp w) s = execTbexp w s := rfl
theorem exec_tbwait (w : FWord XTb) (s : State) : exec (.tbwait w) s = execTbwait w s := rfl
theorem exec_tbtest (w : FWord XTb) (s : State) : exec (.tbtest w) s = execTbtest w s := rfl
theorem exec_cpy (w : FWord XCpy) (s : State) : exec (.cpy w) s = execCpy w s := rfl
theorem exec_cpyc (w : FWord Unit) (s : State) : exec (.cpyc w) s = execCpyc w s := rfl
theorem exec_cpyt (w : FWord XCpyt) (s : State) : exec (.cpyt w) s = execCpyt w s := rfl
theorem exec_stage (w : FWord Unit) (s : State) : exec (.stage w) s = execStage w s := rfl
theorem exec_gpool (w : FWord XGpool) (s : State) : exec (.gpool w) s = execGpool w s := rfl
theorem exec_scata (w : FWord Unit) (s : State) : exec (.scata w) s = execScata w s := rfl
theorem exec_fld (w : FWord XMem) (s : State) : exec (.fld w) s = execFld w s := rfl
theorem exec_fst (w : FWord XMem) (s : State) : exec (.fst w) s = execFst w s := rfl
theorem exec_fput (w : FWord Unit) (s : State) : exec (.fput w) s = execFput w s := rfl
theorem exec_fget (w : FWord Unit) (s : State) : exec (.fget w) s = execFget w s := rfl
theorem exec_fatom (w : FWord XMem) (s : State) : exec (.fatom w) s = execFatom w s := rfl
theorem exec_fatomn (w : FWord XMem) (s : State) : exec (.fatomn w) s = execFatomn w s := rfl
theorem exec_palloc (w : FWord Unit) (s : State) : exec (.palloc w) s = execPalloc w s := rfl
theorem exec_pfree (w : FWord Unit) (s : State) : exec (.pfree w) s = execPfree w s := rfl
theorem exec_paddr (w : FWord Unit) (s : State) : exec (.paddr w) s = execPaddr w s := rfl
theorem exec_ldp (w : FWord XMem) (s : State) : exec (.ldp w) s = execLdp w s := rfl
theorem exec_stp (w : FWord XMem) (s : State) : exec (.stp w) s = execStp w s := rfl
theorem exec_stpr (w : FWord XMem) (s : State) : exec (.stpr w) s = execStpr w s := rfl
theorem exec_post (w : FWord XMem) (s : State) : exec (.post w) s = execPost w s := rfl
theorem exec_precv (w : FWord XMem) (s : State) : exec (.precv w) s = execPrecv w s := rfl
theorem exec_pstat (w : FWord Unit) (s : State) : exec (.pstat w) s = execPstat w s := rfl
theorem exec_mma (w : TWord XMma) (s : State) : exec (.mma w) s = execMma w s := rfl
theorem exec_mmaq (w : TWord XMma) (s : State) : exec (.mmaq w) s = execMmaq w s := rfl
theorem exec_mmas (w : TWord XMma) (s : State) : exec (.mmas w) s = execMmas w s := rfl
theorem exec_mzero (w : TWord Unit) (s : State) : exec (.mzero w) s = execMzero w s := rfl
theorem exec_mld (w : TWord Unit) (s : State) : exec (.mld w) s = execMld w s := rfl
theorem exec_mst (w : TWord Unit) (s : State) : exec (.mst w) s = execMst w s := rfl
theorem exec_mrd (w : TWord Unit) (s : State) : exec (.mrd w) s = execMrd w s := rfl
theorem exec_wmv (w : FWord Nat) (s : State) : exec (.wmv w) s = execWmv w s := rfl
theorem exec_wload (w : FWord Unit) (s : State) : exec (.wload w) s = execWload w s := rfl
theorem exec_movi (w : IWord XImm) (s : State) : exec (.movi w) s = execMovi w s := rfl
theorem exec_addi (w : IWord XImm) (s : State) : exec (.addi w) s = execAddi w s := rfl
theorem exec_andi (w : IWord XImm) (s : State) : exec (.andi w) s = execAndi w s := rfl
theorem exec_ori (w : IWord XImm) (s : State) : exec (.ori w) s = execOri w s := rfl
theorem exec_xori (w : IWord XImm) (s : State) : exec (.xori w) s = execXori w s := rfl
theorem exec_muli (w : IWord XImm) (s : State) : exec (.muli w) s = execMuli w s := rfl
theorem exec_cmpi (w : IWord (Ty × Nat)) (s : State) : exec (.cmpi w) s = execCmpi w s := rfl
theorem exec_movhi (w : IWord Ty) (s : State) : exec (.movhi w) s = execMovhi w s := rfl
theorem exec_ldc (w : IWord (Ty × Int)) (s : State) : exec (.ldc w) s = execLdc w s := rfl
theorem exec_sigchk (imm : Nat) (s : State) : exec (.sigchk imm) s = execSigchk imm s := rfl
theorem exec_bra (c : CCond) (disp : Int) (s : State) : exec (.bra c disp) s = execBra c disp s := rfl
theorem exec_call (c : CCond) (link : Nat) (disp : Int) (s : State) : exec (.call c link disp) s = execCall c link disp s := rfl
theorem exec_ret (c : CCond) (r : Nat) (s : State) : exec (.ret c r) s = execRet c r s := rfl
theorem exec_jmps (c : CCond) (r : Nat) (s : State) : exec (.jmps c r) s = execJmps c r s := rfl
theorem exec_loop (r : Nat) (disp : Int) (s : State) : exec (.loop r disp) s = execLoop r disp s := rfl
theorem exec_split (sense : Bool) (n : Nat) (els join : Int) (s : State) : exec (.split sense n els join) s = execSplit sense n els join s := rfl
theorem exec_jtab (x len : Nat) (disp : Int) (s : State) : exec (.jtab x len disp) s = execJtab x len disp s := rfl
theorem exec_exit (c : CCond) (s : State) : exec (.exit c) s = execExit c s := rfl
theorem exec_trap (c : CCond) (code : Nat) (s : State) : exec (.trap c code) s = execTrap c code s := rfl
theorem exec_rft (s : State) : exec (.rft) s = execRft s := rfl
theorem exec_contain (id : Nat) (disp : Int) (s : State) : exec (.contain id disp) s = execContain id disp s := rfl
theorem exec_uncontain (s : State) : exec (.uncontain) s = execUncontain s := rfl
theorem exec_pairNop (a : PArgs) (t : PSlot) (s : State) : exec (.pairNop a t) s = execPairNop a t s := rfl
theorem exec_pairMov (a : PArgs) (t : PSlot) (s : State) : exec (.pairMov a t) s = execPairMov a t s := rfl
theorem exec_pairIadd (a : PArgs) (t : PSlot) (s : State) : exec (.pairIadd a t) s = execPairIadd a t s := rfl
theorem exec_pairIsub (a : PArgs) (t : PSlot) (s : State) : exec (.pairIsub a t) s = execPairIsub a t s := rfl
theorem exec_pairImul (a : PArgs) (t : PSlot) (s : State) : exec (.pairImul a t) s = execPairImul a t s := rfl
theorem exec_pairAnd (a : PArgs) (t : PSlot) (s : State) : exec (.pairAnd a t) s = execPairAnd a t s := rfl
theorem exec_pairOr (a : PArgs) (t : PSlot) (s : State) : exec (.pairOr a t) s = execPairOr a t s := rfl
theorem exec_pairXor (a : PArgs) (t : PSlot) (s : State) : exec (.pairXor a t) s = execPairXor a t s := rfl
theorem exec_pairAndn (a : PArgs) (t : PSlot) (s : State) : exec (.pairAndn a t) s = execPairAndn a t s := rfl
theorem exec_pairShl (a : PArgs) (t : PSlot) (s : State) : exec (.pairShl a t) s = execPairShl a t s := rfl
theorem exec_pairShr (a : PArgs) (t : PSlot) (s : State) : exec (.pairShr a t) s = execPairShr a t s := rfl
theorem exec_pairSar (a : PArgs) (t : PSlot) (s : State) : exec (.pairSar a t) s = execPairSar a t s := rfl
theorem exec_pairImin (a : PArgs) (t : PSlot) (s : State) : exec (.pairImin a t) s = execPairImin a t s := rfl
theorem exec_pairImax (a : PArgs) (t : PSlot) (s : State) : exec (.pairImax a t) s = execPairImax a t s := rfl
theorem exec_pairFadd (a : PArgs) (t : PSlot) (s : State) : exec (.pairFadd a t) s = execPairFadd a t s := rfl
theorem exec_pairFsub (a : PArgs) (t : PSlot) (s : State) : exec (.pairFsub a t) s = execPairFsub a t s := rfl
theorem exec_pairFmul (a : PArgs) (t : PSlot) (s : State) : exec (.pairFmul a t) s = execPairFmul a t s := rfl
theorem exec_pairFmin (a : PArgs) (t : PSlot) (s : State) : exec (.pairFmin a t) s = execPairFmin a t s := rfl
theorem exec_pairFmax (a : PArgs) (t : PSlot) (s : State) : exec (.pairFmax a t) s = execPairFmax a t s := rfl
theorem exec_barrierReleaseDelivery (launch core id island : Nat) (s : State) : exec (.barrierReleaseDelivery launch core id island) s = execBarrierReleaseDelivery launch core id island s := rfl
theorem exec_trapDelivery (launch core : Nat) (s : State) : exec (.trapDelivery launch core) s = execTrapDelivery launch core s := rfl
theorem exec_runTimer (g : Nat) (s : State) : exec (.runTimer g) s = execRunTimer g s := rfl
theorem exec_stepWatchdog (g : Nat) (s : State) : exec (.stepWatchdog g) s = execStepWatchdog g s := rfl
theorem exec_mmaqRendezvousTimeout (g sp : Nat) (s : State) : exec (.mmaqRendezvousTimeout g sp) s = execMmaqRendezvousTimeout g sp s := rfl
theorem exec_stepEnter (g : Nat) (s : State) : exec (.stepEnter g) s = execStepEnter g s := rfl
theorem exec_haloPushArrival (p : PushIn) (s : State) : exec (.haloPushArrival p) s = execHaloPushArrival p s := rfl
theorem exec_cellSetSwap (launch core : Nat) (s : State) : exec (.cellSetSwap launch core) s = execCellSetSwap launch core s := rfl
theorem exec_longLatencyResultLand (g sp i : Nat) (s : State) : exec (.longLatencyResultLand g sp i) s = execLongLatencyResultLand g sp i s := rfl
theorem exec_translationWalkComplete (core page : Nat) (s : State) : exec (.translationWalkComplete core page) s = execTranslationWalkComplete core page s := rfl
theorem exec_storePerformedAtHome (i : Nat) (s : State) : exec (.storePerformedAtHome i) s = execStorePerformedAtHome i s := rfl
theorem exec_containmentUnwind (g : Nat) (s : State) : exec (.containmentUnwind g) s = execContainmentUnwind g s := rfl
theorem exec_matrixGrant (island : Nat) (s : State) : exec (.matrixGrant island) s = execMatrixGrant island s := rfl
theorem exec_matrixOpEnd (core unit : Nat) (s : State) : exec (.matrixOpEnd core unit) s = execMatrixOpEnd core unit s := rfl
theorem exec_engineCompletion (thread : Nat) (s : State) : exec (.engineCompletion thread) s = execEngineCompletion thread s := rfl
theorem exec_engineLineLanded (thread line : Nat) (s : State) : exec (.engineLineLanded thread line) s = execEngineLineLanded thread line s := rfl
theorem exec_sectorLanding (p : Landing) (s : State) : exec (.sectorLanding p) s = execSectorLanding p s := rfl
theorem exec_fabricRequestAtTarget (r : PeerReq) (s : State) : exec (.fabricRequestAtTarget r) s = execFabricRequestAtTarget r s := rfl
theorem exec_fabricResponse (id : Nat) (data : List Byte) (bad : Bool) (s : State) : exec (.fabricResponse id data bad) s = execFabricResponse id data bad s := rfl
theorem exec_fabricTimeout (id : Nat) (s : State) : exec (.fabricTimeout id) s = execFabricTimeout id s := rfl
theorem exec_fabricRefusal (id : Nat) (s : State) : exec (.fabricRefusal id) s = execFabricRefusal id s := rfl
theorem exec_escapeDiversion (id : Nat) (s : State) : exec (.escapeDiversion id) s = execEscapeDiversion id s := rfl
theorem exec_parcelTransitStart (thread : Nat) (s : State) : exec (.parcelTransitStart thread) s = execParcelTransitStart thread s := rfl
theorem exec_parcelFirstPacket (p : ParcelIn) (s : State) : exec (.parcelFirstPacket p) s = execParcelFirstPacket p s := rfl
theorem exec_parcelLanded (p : ParcelIn) (data : List Byte) (tags bad : List Nat) (s : State) : exec (.parcelLanded p data tags bad) s = execParcelLanded p data tags bad s := rfl
theorem exec_parcelAck (thread : Nat) (s : State) : exec (.parcelAck thread) s = execParcelAck thread s := rfl
theorem exec_parcelReturn (thread cause : Nat) (s : State) : exec (.parcelReturn thread cause) s = execParcelReturn thread cause s := rfl
theorem exec_admission (queue : Nat) (cores : List Nat) (s : State) : exec (.admission queue cores) s = execAdmission queue cores s := rfl
theorem exec_teamStart (launch : Nat) (s : State) : exec (.teamStart launch) s = execTeamStart launch s := rfl
theorem exec_launchCompletion (launch : Nat) (s : State) : exec (.launchCompletion launch) s = execLaunchCompletion launch s := rfl
theorem exec_preemption (launch core : Nat) (s : State) : exec (.preemption launch core) s = execPreemption launch core s := rfl
theorem exec_lowestTeamSwapBack (launch core : Nat) (s : State) : exec (.lowestTeamSwapBack launch core) s = execLowestTeamSwapBack launch core s := rfl
theorem exec_pageMigration (page pa : Nat) (s : State) : exec (.pageMigration page pa) s = execPageMigration page pa s := rfl
theorem exec_meltUpdate (melt : Nat) (s : State) : exec (.meltUpdate melt) s = execMeltUpdate melt s := rfl
theorem exec_leaseExpiry (island : Nat) (s : State) : exec (.leaseExpiry island) s = execLeaseExpiry island s := rfl
theorem exec_fllStep (island : Nat) (s : State) : exec (.fllStep island) s = execFllStep island s := rfl
theorem exec_thermalGateBegin (s : State) : exec (.thermalGateBegin) s = execThermalGateBegin s := rfl
theorem exec_thermalGateEnd (s : State) : exec (.thermalGateEnd) s = execThermalGateEnd s := rfl
theorem exec_linkFailure (l : Link) (s : State) : exec (.linkFailure l) s = execLinkFailure l s := rfl
theorem exec_dieFence (die : Nat) (s : State) : exec (.dieFence die) s = execDieFence die s := rfl
theorem exec_cxlPortFailure (port : Nat) (s : State) : exec (.cxlPortFailure port) s = execCxlPortFailure port s := rfl
theorem exec_dynamicCapacityRelease (base bytes : Nat) (s : State) : exec (.dynamicCapacityRelease base bytes) s = execDynamicCapacityRelease base bytes s := rfl
theorem exec_duplicateDeviceNumber (planes : Nat) (s : State) : exec (.duplicateDeviceNumber planes) s = execDuplicateDeviceNumber planes s := rfl
theorem exec_patrolScrub (addr : Nat) (bad : Bool) (cost : Nat) (s : State) : exec (.patrolScrub addr bad cost) s = execPatrolScrub addr bad cost s := rfl
theorem exec_matrixSelfTest (core unit sub : Nat) (fail : Bool) (cost : Nat) (s : State) : exec (.matrixSelfTest core unit sub fail cost) s = execMatrixSelfTest core unit sub fail cost s := rfl
theorem exec_deviceReset (verified : BundleCheck) (version : Nat) (s : State) :
    exec (.deviceReset verified version) s = execDeviceReset verified version s := rfl
theorem exec_readyBitRise (reg bit : Nat) (s : State) : exec (.readyBitRise reg bit) s = execReadyBitRise reg bit s := rfl
theorem exec_hostLinkTraining (mode : LinkMode) (s : State) : exec (.hostLinkTraining mode) s = execHostLinkTraining mode s := rfl
theorem exec_powerLossWarning (s : State) : exec (.powerLossWarning) s = execPowerLossWarning s := rfl
theorem exec_qtailWrite (queue val : Nat) (s : State) : exec (.qtailWrite queue val) s = execQtailWrite queue val s := rfl
theorem exec_qbaseWrite (queue val : Nat) (s : State) : exec (.qbaseWrite queue val) s = execQbaseWrite queue val s := rfl
theorem exec_qctlWrite (queue val : Nat) (s : State) : exec (.qctlWrite queue val) s = execQctlWrite queue val s := rfl
theorem exec_tbaseWrite (val : Nat) (s : State) : exec (.tbaseWrite val) s = execTbaseWrite val s := rfl
theorem exec_arenaCommand (tcmd : Nat) (s : State) : exec (.arenaCommand tcmd) s = execArenaCommand tcmd s := rfl
theorem exec_exportCommand (tcmd : Nat) (s : State) : exec (.exportCommand tcmd) s = execExportCommand tcmd s := rfl
theorem exec_importCommand (tcmd : Nat) (s : State) : exec (.importCommand tcmd) s = execImportCommand tcmd s := rfl
theorem exec_fabidWrite (val : Nat) (s : State) : exec (.fabidWrite val) s = execFabidWrite val s := rfl
theorem exec_ftlimitWrite (val : Nat) (s : State) : exec (.ftlimitWrite val) s = execFtlimitWrite val s := rfl
theorem exec_islctlWrite (island val : Nat) (s : State) : exec (.islctlWrite island val) s = execIslctlWrite island val s := rfl
theorem exec_checkpointTake (s : State) : exec (.checkpointTake) s = execCheckpointTake s := rfl
theorem exec_checkpointRestore (s : State) : exec .checkpointRestore s = execCheckpointRestore s := rfl
theorem exec_attestationRequest (s : State) : exec (.attestationRequest) s = execAttestationRequest s := rfl
theorem exec_attestationComplete (report rsa slh : List Byte) (s : State) : exec (.attestationComplete report rsa slh) s = execAttestationComplete report rsa slh s := rfl
theorem exec_halt (core : Nat) (s : State) : exec (.halt core) s = execHalt core s := rfl
theorem exec_resume (core : Nat) (s : State) : exec (.resume core) s = execResume core s := rfl
theorem exec_rdreg (core : Nat) (s : State) : exec (.rdreg core) s = execRdreg core s := rfl
theorem exec_wrreg (core : Nat) (s : State) : exec (.wrreg core) s = execWrreg core s := rfl
theorem exec_rdmem (core : Nat) (s : State) : exec (.rdmem core) s = execRdmem core s := rfl
theorem exec_wrmem (core : Nat) (s : State) : exec (.wrmem core) s = execWrmem core s := rfl
theorem exec_oneword (core : Nat) (s : State) : exec (.oneword core) s = execOneword core s := rfl
theorem exec_endLaunch (core : Nat) (s : State) : exec (.endLaunch core) s = execEndLaunch core s := rfl
theorem exec_hostBar2Access (a : Bar2) (s : State) : exec (.hostBar2Access a) s = execHostBar2Access a s := rfl
theorem exec_registerWrite (off bytes val : Nat) (s : State) : exec (.registerWrite off bytes val) s = execRegisterWrite off bytes val s := rfl
theorem exec_islandCoreCycle (island : Nat) (wallTick : Bool) (s : State) : exec (.islandCoreCycle island wallTick) s = execIslandCoreCycle island wallTick s := rfl
theorem exec_hostWriteCompletedAtMemory (i : Nat) (s : State) : exec (.hostWriteCompletedAtMemory i) s = execHostWriteCompletedAtMemory i s := rfl

end Sys2Proof.Machine
end

