-- ==== Sys2Proof/Laws/Encoding.lean ====
section
/-!
SUPPORT. The fields of an encoded word: what `decodeWord` reads back from what `encode` wrote, one lemma per field type
and one per word format.
-/

namespace Sys2Proof

/-! ### Bits of a number -/

theorem b2n_le (b : Bool) : b2n b ≤ 1 := by cases b <;> decide

theorem bit_eq {x i : Nat} {b : Bool} (h : x / 2 ^ i % 2 = b2n b) : bit x i = b := by
  rw [bit, h]; cases b <;> rfl

/-- Bits below 16 do not see what stands above. -/
theorem bits_low (y : Nat) {x hi lo : Nat} (h : hi ≤ 15) (hl : lo ≤ hi) :
    bits (2 ^ 16 * y + x) hi lo = bits x hi lo := by
  simp only [bits]
  have e : (2 : Nat) ^ 16 = 2 ^ lo * (2 ^ (hi + 1 - lo) * 2 ^ (15 - hi)) := by
    rw [← Nat.pow_add, ← Nat.pow_add]; congr 1; omega
  rw [e, Nat.mul_assoc, Nat.mul_add_div (Nat.two_pow_pos lo), Nat.mul_assoc, Nat.mul_add_mod]

theorem bit_eq_bits (x i : Nat) : bit x i = (bits x i i == 1) := by
  simp [bit, bits]

theorem sext_wrap8 {i : Int} (h1 : -128 ≤ i) (h2 : i < 128) (k : Nat) : sext 8 (256 * k + wrap 8 i) = i := by
  have hw : (wrap 8 i : Int) = i % 256 := by simp only [wrap]; omega
  unfold sext
  rcases Int.lt_or_le i 0 with hn | hn
  · rw [if_neg (by omega)]; omega
  · rw [if_pos (by omega)]; omega

theorem sext_wrap4 {i : Int} (h : dispFits 4 i = true) : sext 4 (sfield 4 i) = i := by
  simp [dispFits] at h
  have hw : (sfield 4 i : Int) = i % (2 ^ 4 : Nat) := by simp only [sfield, wrap]; omega
  unfold sext
  rcases Int.lt_or_le i 0 with hn | hn
  · rw [if_neg (by omega)]; omega
  · rw [if_pos (by omega)]; omega

theorem sext_wrap18 {i : Int} (h : dispFits 18 i = true) : sext 18 (sfield 18 i) = i := by
  simp [dispFits] at h
  have hw : (sfield 18 i : Int) = i % (2 ^ 18 : Nat) := by simp only [sfield, wrap]; omega
  unfold sext
  rcases Int.lt_or_le i 0 with hn | hn
  · rw [if_neg (by omega)]; omega
  · rw [if_pos (by omega)]; omega

theorem sext_wrap32 {i : Int} (h : dispFits 32 i = true) (k : Nat) : sext 32 (2 ^ 32 * k + sfield 32 i) = i := by
  simp [dispFits] at h
  have hw : (sfield 32 i : Int) = i % (2 ^ 32 : Nat) := by simp only [sfield, wrap]; omega
  unfold sext
  rcases Int.lt_or_le i 0 with hn | hn
  · rw [if_neg (by omega)]; omega
  · rw [if_pos (by omega)]; omega

theorem sfield4_lt (i : Int) : sfield 4 i < 16 := by simp only [sfield, wrap]; omega
theorem sfield8_lt (i : Int) : sfield 8 i < 256 := by simp only [sfield, wrap]; omega
theorem sfield18_lt (i : Int) : sfield 18 i < 2 ^ 18 := by simp only [sfield, wrap]; omega
theorem sfield32_lt (i : Int) : sfield 32 i < 2 ^ 32 := by simp only [sfield, wrap]; omega

/-! ### Codes -/

@[simp] theorem Ty.ofCode_code (t : Ty) : Ty.ofCode t.code = t := by cases t <;> rfl
theorem Ty.code_lt (t : Ty) : t.code < 16 := by cases t <;> decide
@[simp] theorem Rm.ofCode_code (t : Rm) : Rm.ofCode t.code = t := by cases t <;> rfl
theorem Rm.code_lt (t : Rm) : t.code < 4 := by cases t <;> decide
@[simp] theorem Width.ofCode_code (t : Width) : Width.ofCode t.code = t := by cases t <;> rfl
theorem Width.code_lt (t : Width) : t.code < 8 := by cases t <;> decide
@[simp] theorem Order.ofCode_code (t : Order) : Order.ofCode t.code = t := by cases t <;> rfl
theorem Order.code_lt (t : Order) : t.code < 8 := by cases t <;> decide
@[simp] theorem Hint.ofCode_code (t : Hint) : Hint.ofCode t.code = t := by cases t <;> rfl
theorem Hint.code_lt (t : Hint) : t.code < 8 := by cases t <;> decide
@[simp] theorem Scope.ofCode_code (t : Scope) : Scope.ofCode t.code = t := by cases t <;> rfl
theorem Scope.code_lt (t : Scope) : t.code < 4 := by cases t <;> decide
theorem POp.code_lt (t : POp) : t.code < 19 := by cases t <;> decide
@[simp] theorem POp.ofCode_code (t : POp) : POp.ofCode t.code = some t := by cases t <;> rfl

theorem Obs.code_lt (o : Obs) : o.code < 128 := by
  simp only [Obs.code]
  have := b2n_le o.k; have := b2n_le o.d; have := b2n_le o.e; have := b2n_le o.y
  have := b2n_le o.x; have := b2n_le o.f; have := b2n_le o.h
  omega

@[simp] theorem Obs.ofCode_code (o : Obs) : Obs.ofCode o.code = o := by
  obtain ⟨k, d, e, y, x, f, h⟩ := o
  have := b2n_le k; have := b2n_le d; have := b2n_le e; have := b2n_le y
  have := b2n_le x; have := b2n_le f; have := b2n_le h
  simp only [Obs.ofCode, Obs.code, Obs.mk.injEq]
  refine ⟨?_, ?_, ?_, ?_, ?_, ?_, ?_⟩ <;> apply bit_eq <;> omega

theorem Src.code_lt {a : Src} (h : a.fits = true) : a.code < 1024 := by
  cases a <;> simp [Src.fits] at h <;> simp only [Src.code]
  · omega
  · omega
  · omega
  · have := sfield8_lt ‹Int›; omega

theorem Src.ofCode_code {a : Src} (h : a.fits = true) : Src.ofCode a.code = a := by
  cases a with
  | v n =>
    simp [Src.fits] at h
    have e : bits n 9 8 = 0 := by simp only [bits]; omega
    have e' : bits n 7 0 = n := by simp only [bits]; omega
    simp [Src.code, Src.ofCode, e, e']
  | s n =>
    simp [Src.fits] at h
    have e : bits (256 + n) 9 8 = 1 := by simp only [bits]; omega
    have e' : bits (256 + n) 7 0 = n := by simp only [bits]; omega
    simp [Src.code, Src.ofCode, e, e']
  | nb d k =>
    simp [Src.fits] at h
    have e : bits (512 + 32 * d + k) 9 8 = 2 := by simp only [bits]; omega
    have e1 : bits (512 + 32 * d + k) 7 5 = d := by simp only [bits]; omega
    have e2 : bits (512 + 32 * d + k) 4 0 = k := by simp only [bits]; omega
    simp [Src.code, Src.ofCode, e, e1, e2]
  | imm i =>
    simp [Src.fits] at h
    have := sfield8_lt i
    have e : bits (768 + sfield 8 i) 9 8 = 3 := by simp only [bits]; omega
    simp only [Src.code, Src.ofCode, e]
    exact congrArg Src.imm (sext_wrap8 h.1 h.2 3)

theorem Dst.code_lt {d : Dst} (h : d.fits = true) : d.code < 1024 := by
  cases d <;> simp [Dst.fits] at h <;> simp only [Dst.code] <;> omega

theorem Dst.ofCode_code {d : Dst} (h : d.fits = true) : Dst.ofCode d.code = d := by
  cases d with
  | v n =>
    simp [Dst.fits] at h
    have e : bits (n) 9 8 = 0 := by simp only [bits]; omega
    have e' : bits (n) 7 0 = n := by simp only [bits]; omega
    simp [Dst.code, Dst.ofCode, e, e']
  | s n =>
    simp [Dst.fits] at h
    have e : bits (256 + n) 9 8 = 1 := by simp only [bits]; omega
    have e' : bits (256 + n) 7 0 = n := by simp only [bits]; omega
    simp [Dst.code, Dst.ofCode, e, e']
  | nb n =>
    simp [Dst.fits] at h
    have e : bits (512 + n) 9 8 = 2 := by simp only [bits]; omega
    have e' : bits (512 + n) 7 0 = n := by simp only [bits]; omega
    simp [Dst.code, Dst.ofCode, e, e']
  | m n =>
    simp [Dst.fits] at h
    have e : bits (768 + n) 9 8 = 3 := by simp only [bits]; omega
    have e' : bits (768 + n) 7 0 = n := by simp only [bits]; omega
    simp [Dst.code, Dst.ofCode, e, e']

theorem RReg.code_lt {d : RReg} (h : d.fits = true) : d.code < 1024 := by
  cases d <;> simp [RReg.fits] at h <;> simp only [RReg.code] <;> omega

theorem RReg.ofCode_code {d : RReg} (h : d.fits = true) : RReg.ofCode d.code = d := by
  cases d with
  | v n =>
    simp [RReg.fits] at h
    have e : bits (n) 9 8 = 0 := by simp only [bits]; omega
    have e' : bits (n) 7 0 = n := by simp only [bits]; omega
    simp [RReg.code, RReg.ofCode, e, e']
  | s n =>
    simp [RReg.fits] at h
    have e : bits (256 + n) 9 8 = 1 := by simp only [bits]; omega
    have e' : bits (256 + n) 7 0 = n := by simp only [bits]; omega
    simp [RReg.code, RReg.ofCode, e, e']
  | reserved n =>
    simp [RReg.fits] at h
    have e : bits (512 + n) 9 8 = 2 := by simp only [bits]; omega
    have e' : bits (512 + n) 7 0 = n := by simp only [bits]; omega
    simp [RReg.code, RReg.ofCode, e, e']
  | m n =>
    simp [RReg.fits] at h
    have e : bits (768 + n) 9 8 = 3 := by simp only [bits]; omega
    have e' : bits (768 + n) 7 0 = n := by simp only [bits]; omega
    simp [RReg.code, RReg.ofCode, e, e']

theorem CCond.code_lt {c : CCond} (h : c.fits = true) : c.code < 64 := by
  cases c with
  | mask s n => simp [CCond.fits] at h; have := b2n_le s; simp only [CCond.code]; omega
  | _ => simp [CCond.fits] at h <;> simp only [CCond.code] <;> omega

theorem CCond.ofCode_code {c : CCond} (h : c.fits = true) : CCond.ofCode c.code = c := by
  cases c with
  | always => rfl
  | cc n =>
    simp [CCond.fits] at h
    have e : bits (16 + n) 5 4 = 1 := by simp only [bits]; omega
    have e' : bits (16 + n) 3 0 = n := by simp only [bits]; omega
    simp [CCond.code, CCond.ofCode, e, e']
  | reserved n =>
    simp [CCond.fits] at h
    have e : bits (48 + n) 5 4 = 3 := by simp only [bits]; omega
    have e' : bits (48 + n) 3 0 = n := by simp only [bits]; omega
    simp [CCond.code, CCond.ofCode, e, e']
  | mask s n =>
    simp [CCond.fits] at h
    have := b2n_le s
    have e : bits (32 + 8 * b2n s + n) 5 4 = 2 := by simp only [bits]; omega
    have e1 : bits (32 + 8 * b2n s + n) 2 0 = n := by simp only [bits]; omega
    have e2 : bit (32 + 8 * b2n s + n) 3 = s := by apply bit_eq; omega
    simp [CCond.code, CCond.ofCode, e, e1, e2]

theorem PSrc.code_lt {a : PSrc} (h : a.fits = true) : a.code < 512 := by
  cases a <;> simp [PSrc.fits] at h <;> simp only [PSrc.code] <;> omega

theorem PSrc.ofCode_code {a : PSrc} (h : a.fits = true) : PSrc.ofCode a.code = a := by
  cases a with
  | v n => simp [PSrc.fits] at h; rw [PSrc.code, PSrc.ofCode, if_pos h]
  | s n =>
    simp [PSrc.fits] at h
    rw [PSrc.code, PSrc.ofCode, if_neg (by omega), if_pos (by omega), Nat.add_sub_cancel_left]
  | imm i =>
    simp [PSrc.fits] at h
    rw [PSrc.code, PSrc.ofCode, if_neg (by omega), if_neg (by omega), if_pos (by omega)]
    congr 1; omega
  | reserved n =>
    simp [PSrc.fits] at h
    rw [PSrc.code, PSrc.ofCode, if_neg (by omega), if_neg (by omega), if_neg (by omega)]

/-! ### X16 and X8 -/

theorem XArith.code_lt {x : XArith} (h : x.opx < 16) : x.code < 65536 := by
  simp only [XArith.code]
  have := x.ty.code_lt; have := x.rm.code_lt; have := b2n_le x.sat; have := b2n_le x.cc
  have := b2n_le x.negA; have := b2n_le x.absA; have := b2n_le x.negB; have := b2n_le x.absB
  omega

theorem XArith.ofCode_code {x : XArith} (h : x.opx < 16) : XArith.ofCode x.code = x := by
  obtain ⟨ty, rm, sat, cc, na, aa, nb, ab, opx⟩ := x
  have := ty.code_lt; have := rm.code_lt; have := b2n_le sat; have := b2n_le cc
  have := b2n_le na; have := b2n_le aa; have := b2n_le nb; have := b2n_le ab
  simp only at h
  simp only [XArith.ofCode, XArith.code, XArith.mk.injEq]
  refine ⟨?_, ?_, ?_, ?_, ?_, ?_, ?_, ?_, ?_⟩
  · exact Eq.trans (congrArg Ty.ofCode (by simp only [bits]; omega)) ty.ofCode_code
  · exact Eq.trans (congrArg Rm.ofCode (by simp only [bits]; omega)) rm.ofCode_code
  all_goals first | (apply bit_eq; omega) | (simp only [bits]; omega)

theorem XCvt.code_lt {x : XCvt} (h : x.opx < 16) : x.code < 65536 := by
  simp only [XCvt.code]
  have := x.ty.code_lt; have := x.rm.code_lt; have := b2n_le x.sat; have := b2n_le x.cc; have := x.sty.code_lt
  omega

theorem XCvt.ofCode_code {x : XCvt} (h : x.opx < 16) : XCvt.ofCode x.code = x := by
  obtain ⟨ty, rm, sat, cc, sty, opx⟩ := x
  have := ty.code_lt; have := rm.code_lt; have := b2n_le sat; have := b2n_le cc; have := sty.code_lt
  simp only at h
  simp only [XCvt.ofCode, XCvt.code, XCvt.mk.injEq]
  refine ⟨?_, ?_, ?_, ?_, ?_, ?_⟩
  · exact Eq.trans (congrArg Ty.ofCode (by simp only [bits]; omega)) ty.ofCode_code
  · exact Eq.trans (congrArg Rm.ofCode (by simp only [bits]; omega)) rm.ofCode_code
  · apply bit_eq; omega
  · apply bit_eq; omega
  · exact Eq.trans (congrArg Ty.ofCode (by simp only [bits]; omega)) sty.ofCode_code
  · simp only [bits]; omega

theorem XMem.code_lt (x : XMem) : x.code < 65536 := by
  simp only [XMem.code]
  have := x.w.code_lt; have := x.ord.code_lt; have := x.obs.code_lt; have := x.hint.code_lt
  omega

@[simp] theorem XMem.ofCode_code (x : XMem) : XMem.ofCode x.code = x := by
  obtain ⟨w, ord, obs, hint⟩ := x
  have := w.code_lt; have := ord.code_lt; have := obs.code_lt; have := hint.code_lt
  simp only [XMem.ofCode, XMem.code, XMem.mk.injEq]
  refine ⟨?_, ?_, ?_, ?_⟩
  · exact Eq.trans (congrArg Width.ofCode (by simp only [bits]; omega)) w.ofCode_code
  · exact Eq.trans (congrArg Order.ofCode (by simp only [bits]; omega)) ord.ofCode_code
  · exact Eq.trans (congrArg Obs.ofCode (by simp only [bits]; omega)) obs.ofCode_code
  · exact Eq.trans (congrArg Hint.ofCode (by simp only [bits]; omega)) hint.ofCode_code

theorem XBar.code_lt (x : XBar) : x.code < 65536 := by
  simp only [XBar.code]
  have := x.scope.code_lt; have := x.ord.code_lt; have := x.obs.code_lt
  omega

@[simp] theorem XBar.ofCode_code (x : XBar) : XBar.ofCode x.code = x := by
  obtain ⟨scope, ord, obs⟩ := x
  have := scope.code_lt; have := ord.code_lt; have := obs.code_lt
  simp only [XBar.ofCode, XBar.code, XBar.mk.injEq]
  refine ⟨?_, ?_, ?_⟩
  · exact Eq.trans (congrArg Scope.ofCode (by simp only [bits]; omega)) scope.ofCode_code
  · exact Eq.trans (congrArg Order.ofCode (by simp only [bits]; omega)) ord.ofCode_code
  · exact Eq.trans (congrArg Obs.ofCode (by simp only [bits]; omega)) obs.ofCode_code

theorem XTb.code_lt (x : XTb) : x.code < 65536 := by
  simp only [XTb.code]
  have := x.ord.code_lt; have := x.obs.code_lt
  omega

@[simp] theorem XTb.ofCode_code (x : XTb) : XTb.ofCode x.code = x := by
  obtain ⟨ord, obs⟩ := x
  have := ord.code_lt; have := obs.code_lt
  simp only [XTb.ofCode, XTb.code, XTb.mk.injEq]
  exact ⟨Eq.trans (congrArg Order.ofCode (by simp only [bits]; omega)) ord.ofCode_code,
    Eq.trans (congrArg Obs.ofCode (by simp only [bits]; omega)) obs.ofCode_code⟩

theorem XMma.code_lt {x : XMma} (h : x.fits = true) : x.code < 65536 := by
  simp [XMma.fits] at h; have := b2n_le x.z; simp only [XMma.code]; omega

theorem XMma.ofCode_code {x : XMma} (h : x.fits = true) : XMma.ofCode x.code = x := by
  obtain ⟨a, b, t, z⟩ := x
  simp [XMma.fits] at h
  have := b2n_le z
  simp only [XMma.ofCode, XMma.code, XMma.mk.injEq]
  refine ⟨?_, ?_, ?_, ?_⟩
  all_goals first | (apply bit_eq; omega) | (simp only [bits]; omega)

theorem XImm.code_lt (x : XImm) : x.code < 256 := by
  simp only [XImm.code]
  have := x.ty.code_lt; have := b2n_le x.sat; have := b2n_le x.cc
  omega

@[simp] theorem XImm.ofCode_code (x : XImm) : XImm.ofCode x.code = x := by
  obtain ⟨ty, sat, cc⟩ := x
  have := ty.code_lt; have := b2n_le sat; have := b2n_le cc
  simp only [XImm.ofCode, XImm.code, XImm.mk.injEq]
  refine ⟨?_, ?_, ?_⟩
  · exact Eq.trans (congrArg Ty.ofCode (by simp only [bits]; omega)) ty.ofCode_code
  all_goals (apply bit_eq; omega)

/-! ### Words -/

theorem encF_lt {χ : Type} {op : Nat} {w : FWord χ} {x : Nat} (hop : op < 256) (hw : w.fits = true) (hx : x < 65536) :
    encF op w x < 2 ^ 62 := by
  simp [FWord.fits, Pred.fits] at hw
  have h1 := Dst.code_lt hw.1.1.2; have h2 := Src.code_lt hw.1.2; have h3 := Src.code_lt hw.2; have h4 := b2n_le w.p.minv
  simp only [encF]; omega

theorem encT_lt {χ : Type} {op : Nat} {w : TWord χ} {x : Nat} (hop : op < 256) (hw : w.fits = true) (hx : x < 65536) :
    encT op w x < 2 ^ 62 := by
  simp [TWord.fits, Pred.fits] at hw
  have h2 := Src.code_lt hw.1.2; have h3 := Src.code_lt hw.2; have h4 := b2n_le w.p.minv
  simp only [encT]; omega

/-- X16's own bits of an F word and of a matrix word. -/
theorem bits_encF {χ : Type} (op : Nat) (w : FWord χ) {x hi lo : Nat} (h : hi ≤ 15) (hl : lo ≤ hi) :
    bits (encF op w x) hi lo = bits x hi lo := by
  have e : encF op w x = 2 ^ 16 * (2 ^ 38 * op + 2 ^ 35 * w.p.msel + 2 ^ 34 * b2n w.p.minv + 2 ^ 30 * w.la
      + 2 ^ 20 * w.d.code + 2 ^ 10 * w.a.code + w.b.code) + x := by simp only [encF]; omega
  rw [e]
  exact bits_low _ h hl

theorem bits_encT {χ : Type} (op : Nat) (w : TWord χ) {x hi lo : Nat} (h : hi ≤ 15) (hl : lo ≤ hi) :
    bits (encT op w x) hi lo = bits x hi lo := by
  have e : encT op w x = 2 ^ 16 * (2 ^ 38 * op + 2 ^ 35 * w.p.msel + 2 ^ 34 * b2n w.p.minv + 2 ^ 30 * w.la
      + 2 ^ 20 * w.t + 2 ^ 10 * w.a.code + w.b.code) + x := by simp only [encT]; omega
  rw [e]
  exact bits_low _ h hl

/-- What an F word's fields read as. -/
theorem encF_fields {χ : Type} {op : Nat} {w : FWord χ} {x : Nat} (hop : op < 256) (hw : w.fits = true)
    (hx : x < 65536) :
    encF op w x < 2 ^ 62 ∧ bits (encF op w x) 63 62 = 0 ∧ bits (encF op w x) 61 54 = op ∧ bits (encF op w x) 15 0 = x
    ∧ ∀ {ψ : Type} (y : ψ), fwOf (encF op w x) y = ⟨w.p, w.la, w.d, w.a, w.b, y⟩ := by
  simp [FWord.fits, Pred.fits] at hw
  obtain ⟨⟨⟨⟨hp, hla⟩, hd⟩, ha⟩, hb⟩ := hw
  have h1 := Dst.code_lt hd; have h2 := Src.code_lt ha; have h3 := Src.code_lt hb; have h4 := b2n_le w.p.minv
  refine ⟨?_, ?_, ?_, ?_, ?_⟩
  · simp only [encF]; omega
  · simp only [encF, bits]; omega
  · simp only [encF, bits]; omega
  · simp only [encF, bits]; omega
  · intro ψ y
    have e1 : bits (encF op w x) 53 51 = w.p.msel := by simp only [encF, bits]; omega
    have e2 : bit (encF op w x) 50 = w.p.minv := by apply bit_eq; simp only [encF]; omega
    have e3 : bits (encF op w x) 49 46 = w.la := by simp only [encF, bits]; omega
    have e4 : bits (encF op w x) 45 36 = w.d.code := by simp only [encF, bits]; omega
    have e5 : bits (encF op w x) 35 26 = w.a.code := by simp only [encF, bits]; omega
    have e6 : bits (encF op w x) 25 16 = w.b.code := by simp only [encF, bits]; omega
    simp [fwOf, e1, e2, e3, e4, e5, e6, Dst.ofCode_code hd, Src.ofCode_code ha, Src.ofCode_code hb]

/-- What a matrix word's fields read as. -/
theorem encT_fields {χ : Type} {op : Nat} {w : TWord χ} {x : Nat} (hop : op < 256) (hw : w.fits = true)
    (hx : x < 65536) :
    encT op w x < 2 ^ 62 ∧ bits (encT op w x) 63 62 = 0 ∧ bits (encT op w x) 61 54 = op ∧ bits (encT op w x) 15 0 = x
    ∧ ∀ {ψ : Type} (y : ψ), twOf (encT op w x) y = ⟨w.p, w.la, w.t, w.a, w.b, y⟩ := by
  simp [TWord.fits, Pred.fits] at hw
  obtain ⟨⟨⟨⟨hp, hla⟩, hd⟩, ha⟩, hb⟩ := hw
  have h2 := Src.code_lt ha; have h3 := Src.code_lt hb; have h4 := b2n_le w.p.minv
  refine ⟨?_, ?_, ?_, ?_, ?_⟩
  · simp only [encT]; omega
  · simp only [encT, bits]; omega
  · simp only [encT, bits]; omega
  · simp only [encT, bits]; omega
  · intro ψ y
    have e1 : bits (encT op w x) 53 51 = w.p.msel := by simp only [encT, bits]; omega
    have e2 : bit (encT op w x) 50 = w.p.minv := by apply bit_eq; simp only [encT]; omega
    have e3 : bits (encT op w x) 49 46 = w.la := by simp only [encT, bits]; omega
    have e4 : bits (encT op w x) 45 36 = w.t := by simp only [encT, bits]; omega
    have e5 : bits (encT op w x) 35 26 = w.a.code := by simp only [encT, bits]; omega
    have e6 : bits (encT op w x) 25 16 = w.b.code := by simp only [encT, bits]; omega
    simp [twOf, e1, e2, e3, e4, e5, e6, Src.ofCode_code ha, Src.ofCode_code hb]

/-- What an I word's fields read as. -/
theorem encI_fields {χ : Type} {op : Nat} {w : IWord χ} {x : Nat} (hop : op < 256) (hw : w.fits = true)
    (hx : x < 256) :
    encI op w x < 2 ^ 64 ∧ bits (encI op w x) 63 62 = 2 ∧ bits (encI op w x) 61 54 = op ∧ bits (encI op w x) 39 32 = x
    ∧ bits (encI op w x) 39 36 = x / 16 ∧ bits (encI op w x) 35 32 = x % 16
    ∧ ∀ {ψ : Type} (y : ψ), iwOf (encI op w x) y = ⟨w.p, w.d, y, w.imm⟩ := by
  simp [IWord.fits, Pred.fits] at hw
  obtain ⟨⟨hp, hd⟩, hi⟩ := hw
  have h1 := Dst.code_lt hd; have h4 := b2n_le w.p.minv
  refine ⟨?_, ?_, ?_, ?_, ?_, ?_, ?_⟩
  · simp only [encI]; omega
  · simp only [encI, bits]; omega
  · simp only [encI, bits]; omega
  · simp only [encI, bits]; omega
  · simp only [encI, bits]; omega
  · simp only [encI, bits]; omega
  · intro ψ y
    have e1 : bits (encI op w x) 53 51 = w.p.msel := by simp only [encI, bits]; omega
    have e2 : bit (encI op w x) 50 = w.p.minv := by apply bit_eq; simp only [encI]; omega
    have e4 : bits (encI op w x) 49 40 = w.d.code := by simp only [encI, bits]; omega
    have e6 : bits (encI op w x) 31 0 = w.imm := by simp only [encI, bits]; omega
    simp [iwOf, e1, e2, e4, e6, Dst.ofCode_code hd]

/-- What a C word's fields read as. -/
theorem encC_fields {cop cond aux : Nat} {disp : Int} (hop : cop < 64) (hc : cond < 64) (ha : aux < 2 ^ 18)
    (hd : dispFits 32 disp = true) :
    let w := encC cop cond aux disp
    w < 2 ^ 64 ∧ bits w 63 62 = 3 ∧ bits w 61 56 = cop ∧ bits w 55 50 = cond ∧ bits w 49 42 = aux / 1024
    ∧ bits w 41 32 = aux % 1024 ∧ bits w 49 32 = aux ∧ bits w 47 32 = aux % 65536 ∧ bits w 52 50 = cond % 8
    ∧ w / 2 ^ 53 % 2 = cond / 8 % 2 ∧ sext 32 w = disp := by
  have := sfield32_lt disp
  refine ⟨?_, ?_, ?_, ?_, ?_, ?_, ?_, ?_, ?_, ?_, ?_⟩
  · simp only [encC]; omega
  · simp only [encC, bits]; omega
  · simp only [encC, bits]; omega
  · simp only [encC, bits]; omega
  · simp only [encC, bits]; omega
  · simp only [encC, bits]; omega
  · simp only [encC, bits]; omega
  · simp only [encC, bits]; omega
  · simp only [encC, bits]; omega
  · simp only [encC]; omega
  · have e : encC cop cond aux disp = 2 ^ 32 * (2 ^ 31 + 2 ^ 30 + 2 ^ 24 * cop + 2 ^ 18 * cond + aux) + sfield 32 disp := by
      simp only [encC]; omega
    rw [e]; exact sext_wrap32 hd _

theorem PSlot.code_lt {t : PSlot} (h : t.fits = true) : t.code < 2 ^ 31 := by
  simp [PSlot.fits] at h
  have := PSrc.code_lt h.1.2; have := t.op.code_lt; have := b2n_le t.args.sat
  simp only [PSlot.code]; omega

theorem PArgs.ofCode_code {t : PSlot} (h : t.fits = true) : PArgs.ofCode t.code = t.args := by
  have hf := h
  simp [PSlot.fits] at h
  have := PSrc.code_lt h.1.2; have := t.op.code_lt; have := b2n_le t.args.sat
  have e1 : bits t.code 24 18 = t.args.d7 := by simp only [PSlot.code, bits]; omega
  have e2 : bits t.code 17 9 = t.args.s9.code := by simp only [PSlot.code, bits]; omega
  have e3 : bits t.code 8 6 = t.args.msel := by simp only [PSlot.code, bits]; omega
  have e4 : bit t.code 5 = t.args.sat := by apply bit_eq; simp only [PSlot.code]; omega
  simp [PArgs.ofCode, e1, e2, e3, e4, PSrc.ofCode_code h.1.2]

/-- What a P word's fields read as. -/
theorem encP_fields {op : POp} {a : PArgs} {t : PSlot} (ha : (⟨op, a⟩ : PSlot).fits = true) (ht : t.fits = true) :
    let w := encP op a t
    w < 2 ^ 64 ∧ bits w 63 62 = 1 ∧ POp.ofCode (bits w 61 56) = some op ∧ POp.ofCode (bits w 30 25) = some t.op
    ∧ PArgs.ofCode (bits w 61 31) = a ∧ PArgs.ofCode (bits w 30 0) = t.args := by
  have h1 := PSlot.code_lt ha; have h2 := PSlot.code_lt ht
  have g1 := ha; have g2 := ht
  simp [PSlot.fits] at g1 g2
  have := PSrc.code_lt g1.1.2; have := op.code_lt; have := b2n_le a.sat
  have := PSrc.code_lt g2.1.2; have := t.op.code_lt; have := b2n_le t.args.sat
  refine ⟨?_, ?_, ?_, ?_, ?_, ?_⟩
  · simp only [encP]; omega
  · simp only [encP, bits]; omega
  · refine Eq.trans (congrArg POp.ofCode ?_) op.ofCode_code
    simp only [encP, bits, PSlot.code]; omega
  · refine Eq.trans (congrArg POp.ofCode ?_) t.op.ofCode_code
    simp only [encP, bits, PSlot.code]; omega
  · refine Eq.trans (congrArg PArgs.ofCode ?_) (PArgs.ofCode_code ha)
    simp only [encP, bits]; omega
  · refine Eq.trans (congrArg PArgs.ofCode ?_) (PArgs.ofCode_code ht)
    simp only [encP, bits]; omega

end Sys2Proof
end

