-- ==== Sys2Proof/Laws/Maps.lean ====
section
/-!
SUPPORT. Laws of the sparse maps and of memory as cells: reads after writes, for every list, and the canonical form that
every operation keeps.
-/

namespace Sys2Proof.Machine

variable {α : Type}

/-! ### Reads after writes -/

@[simp] theorem Map.find?_nil (k : Nat) : Map.find? ([] : Map α) k = none := rfl

theorem Map.find?_cons (p : Nat × α) (m : Map α) (k : Nat) :
    Map.find? (p :: m) k = if k = p.1 then some p.2 else Map.find? m k := rfl

theorem Map.find?_ins (m : Map α) (k k' : Nat) (a : α) :
    Map.find? (Map.ins m k a) k' = if k' = k then some a else Map.find? m k' := by
  induction m with
  | nil => simp [Map.ins, Map.find?_cons]
  | cons p m ih =>
    obtain ⟨x, b⟩ := p
    simp only [Map.ins]
    split
    · simp [Map.find?_cons]
    · split
      · subst_vars; simp only [Map.find?_cons]; split <;> rfl
      · simp only [Map.find?_cons, ih]
        by_cases h : k' = x <;> by_cases h' : k' = k <;> simp_all

@[simp] theorem Map.find?_ins_same (m : Map α) (k : Nat) (a : α) : Map.find? (Map.ins m k a) k = some a := by
  simp [Map.find?_ins]

theorem Map.find?_del (m : Map α) (k k' : Nat) :
    Map.find? (Map.del m k) k' = if k' = k then none else Map.find? m k' := by
  induction m with
  | nil => simp [Map.del]
  | cons p m ih =>
    obtain ⟨x, b⟩ := p
    simp only [Map.del]
    split
    · simp only [ih, Map.find?_cons]; split <;> simp_all
    · simp only [Map.find?_cons, ih]
      by_cases h : k' = x <;> by_cases h' : k' = k <;> simp_all

theorem Map.find?_put [DecidableEq α] (m : Map α) (d : α) (k k' : Nat) (a : α) :
    Map.find? (Map.put m d k a) k' = if k' = k then (if a = d then none else some a) else Map.find? m k' := by
  unfold Map.put; split <;> simp [Map.find?_del, Map.find?_ins]

/-- Reading after a write: the value written at its key, elsewhere as before. -/
theorem Map.get_put [DecidableEq α] (m : Map α) (d : α) (k k' : Nat) (a : α) :
    Map.get (Map.put m d k a) d k' = if k' = k then a else Map.get m d k' := by
  simp only [Map.get, Map.find?_put]
  split
  · split <;> simp_all
  · rfl

@[simp] theorem Map.get_put_same [DecidableEq α] (m : Map α) (d : α) (k : Nat) (a : α) :
    Map.get (Map.put m d k a) d k = a := by simp [Map.get_put]

theorem Map.find?_adjust (m : Map α) (k k' : Nat) (f : α → α) :
    Map.find? (Map.adjust m k f) k' = if k' = k then (Map.find? m k).map f else Map.find? m k' := by
  unfold Map.adjust
  cases h : Map.find? m k with
  | none => by_cases hk : k' = k <;> simp_all
  | some a => simp [Map.find?_ins]

@[simp] theorem Map.find?_adjust_same (m : Map α) (k : Nat) (f : α → α) :
    Map.find? (Map.adjust m k f) k = (Map.find? m k).map f := by simp [Map.find?_adjust]

/-! ### The canonical form -/

theorem Map.sortedFrom_mono {m : Map α} {lo lo' : Nat} (h : lo' ≤ lo) (hm : Map.sortedFrom lo m = true) :
    Map.sortedFrom lo' m = true := by
  cases m with
  | nil => rfl
  | cons p m =>
    simp only [Map.sortedFrom, Bool.and_eq_true, decide_eq_true_eq] at *
    exact ⟨by omega, hm.2⟩

theorem Map.sortedFrom_ins {m : Map α} {lo k : Nat} (a : α) (hk : lo ≤ k) (hm : Map.sortedFrom lo m = true) :
    Map.sortedFrom lo (Map.ins m k a) = true := by
  induction m generalizing lo with
  | nil => simp [Map.ins, Map.sortedFrom, hk]
  | cons p m ih =>
    obtain ⟨x, b⟩ := p
    simp only [Map.sortedFrom, Bool.and_eq_true, decide_eq_true_eq] at hm
    simp only [Map.ins]
    split
    · simp only [Map.sortedFrom, Bool.and_eq_true, decide_eq_true_eq]
      exact ⟨hk, by omega, hm.2⟩
    · split
      · subst_vars; simp only [Map.sortedFrom, Bool.and_eq_true, decide_eq_true_eq]; exact hm
      · simp only [Map.sortedFrom, Bool.and_eq_true, decide_eq_true_eq]
        exact ⟨hm.1, ih (by omega) hm.2⟩

theorem Map.sortedFrom_del {m : Map α} {lo : Nat} (k : Nat) (hm : Map.sortedFrom lo m = true) :
    Map.sortedFrom lo (Map.del m k) = true := by
  induction m generalizing lo with
  | nil => rfl
  | cons p m ih =>
    obtain ⟨x, b⟩ := p
    simp only [Map.sortedFrom, Bool.and_eq_true, decide_eq_true_eq] at hm
    simp only [Map.del]
    split
    · exact ih (Map.sortedFrom_mono (by omega) hm.2)
    · simp only [Map.sortedFrom, Bool.and_eq_true, decide_eq_true_eq]
      exact ⟨hm.1, ih hm.2⟩

theorem Map.sortedFrom_filter {m : Map α} {lo : Nat} (f : Nat × α → Bool) (hm : Map.sortedFrom lo m = true) :
    Map.sortedFrom lo (m.filter f) = true := by
  induction m generalizing lo with
  | nil => rfl
  | cons p m ih =>
    obtain ⟨x, b⟩ := p
    simp only [Map.sortedFrom, Bool.and_eq_true, decide_eq_true_eq] at hm
    simp only [List.filter]
    split
    · simp only [Map.sortedFrom, Bool.and_eq_true, decide_eq_true_eq]; exact ⟨hm.1, ih hm.2⟩
    · exact ih (Map.sortedFrom_mono (by omega) hm.2)

theorem Map.mem_ins {m : Map α} {k : Nat} {a : α} {p : Nat × α} (h : p ∈ Map.ins m k a) : p = (k, a) ∨ p ∈ m := by
  induction m with
  | nil => simpa [Map.ins] using h
  | cons q m ih =>
    obtain ⟨x, b⟩ := q
    simp only [Map.ins] at h
    split at h
    · simpa using h
    · split at h
      · simp only [List.mem_cons] at h ⊢
        exact h.imp_right .inr
      · simp only [List.mem_cons] at h ⊢
        rcases h with h | h
        · exact .inr (.inl h)
        · rcases ih h with h | h
          · exact .inl h
          · exact .inr (.inr h)

theorem Map.mem_del {m : Map α} {k : Nat} {p : Nat × α} (h : p ∈ Map.del m k) : p ∈ m := by
  induction m with
  | nil => simp [Map.del] at h
  | cons q m ih =>
    obtain ⟨x, b⟩ := q
    simp only [Map.del] at h
    split at h
    · exact List.mem_cons_of_mem _ (ih h)
    · simp only [List.mem_cons] at h ⊢
      exact h.imp_right ih

theorem Map.wf_put [DecidableEq α] {m : Map α} {d : α} (k : Nat) (a : α) (hm : Map.wf m d = true) :
    Map.wf (Map.put m d k a) d = true := by
  simp only [Map.wf, Bool.and_eq_true, List.all_eq_true, decide_eq_true_eq] at *
  unfold Map.put
  split
  · exact ⟨Map.sortedFrom_del k hm.1, fun p hp => hm.2 p (Map.mem_del hp)⟩
  · refine ⟨Map.sortedFrom_ins a (Nat.zero_le k) hm.1, fun p hp => ?_⟩
    rcases Map.mem_ins hp with h | h
    · subst h; assumption
    · exact hm.2 p h

theorem Map.wf_filter [DecidableEq α] {m : Map α} {d : α} (f : Nat × α → Bool) (hm : Map.wf m d = true) :
    Map.wf (m.filter f) d = true := by
  simp only [Map.wf, Bool.and_eq_true, List.all_eq_true, decide_eq_true_eq] at *
  exact ⟨Map.sortedFrom_filter f hm.1, fun p hp => hm.2 p (List.mem_filter.mp hp).1⟩

/-! ### Memory -/

/-- One byte of memory after one byte is written. -/
theorem Memory.read_write (m : List Host.Cell) (a b : Nat) (x : BitVec 8) :
    Memory.read (Memory.write m a x) b = if b = a then x else Memory.read m b := Map.get_put ..

@[simp] theorem Memory.read_write_same (m : List Host.Cell) (a : Nat) (x : BitVec 8) :
    Memory.read (Memory.write m a x) a = x := by simp [Memory.read_write]

/-- One byte of memory after bytes are written from an address on. -/
theorem Memory.read_writeAll (m : List Host.Cell) (a b : Nat) (xs : List (BitVec 8)) :
    Memory.read (Memory.writeAll m a xs) b =
      if a ≤ b ∧ b < a + xs.length then xs.getD (b - a) 0 else Memory.read m b := by
  induction xs generalizing m a with
  | nil => rw [if_neg (by simp only [List.length_nil]; omega)]; rfl
  | cons x xs ih =>
    simp only [Memory.writeAll, ih, List.length_cons, Memory.read_write]
    by_cases h : b = a
    · subst h
      have : ¬(b + 1 ≤ b ∧ b < b + 1 + xs.length) := by omega
      simp [this]
    · by_cases h1 : a + 1 ≤ b ∧ b < a + 1 + xs.length
      · have h2 : a ≤ b ∧ b < a + (xs.length + 1) := by omega
        have h3 : b - a = (b - (a + 1)) + 1 := by omega
        simp [h1, h2, h3]
      · rw [if_neg h1, if_neg h, if_neg (by omega)]

@[simp] theorem Memory.wf_nil : Memory.wf [] = true := rfl

theorem Memory.wf_write {m : List Host.Cell} (a : Nat) (x : BitVec 8) (hm : Memory.wf m = true) :
    Memory.wf (Memory.write m a x) = true := Map.wf_put a x hm

theorem Memory.wf_writeAll {m : List Host.Cell} (a : Nat) (xs : List (BitVec 8)) (hm : Memory.wf m = true) :
    Memory.wf (Memory.writeAll m a xs) = true := by
  induction xs generalizing m a with
  | nil => exact hm
  | cons x xs ih => exact ih _ (Memory.wf_write a x hm)

theorem Memory.wf_filter {m : List Host.Cell} (f : Host.Cell → Bool) (hm : Memory.wf m = true) :
    Memory.wf (m.filter f) = true := Map.wf_filter f hm

/-- A fold whose every step keeps the canonical form keeps it. -/
theorem Memory.wf_foldl {β : Type} (f : List Host.Cell → β → List Host.Cell)
    (hf : ∀ m x, Memory.wf m = true → Memory.wf (f m x) = true) (l : List β) :
    ∀ m, Memory.wf m = true → Memory.wf (l.foldl f m) = true := by
  induction l with
  | nil => exact fun _ h => h
  | cons x l ih => exact fun m h => ih _ (hf m x h)

end Sys2Proof.Machine
end

