-- ==== Sys2Proof/Laws/State.lean ====
section
/-!
SUPPORT. What each update of one part of the state leaves alone, one lemma per field and update, and what it puts there.
No later proof unfolds a record update.
-/

namespace Sys2Proof.Machine

/-! ### State.setGroup -/

@[simp] theorem State.setGroup_ctxs (s : State) (k : Nat) (g : Group) : (s.setGroup k g).ctxs = s.ctxs := rfl
@[simp] theorem State.setGroup_cores (s : State) (k : Nat) (g : Group) : (s.setGroup k g).cores = s.cores := rfl
@[simp] theorem State.setGroup_units (s : State) (k : Nat) (g : Group) : (s.setGroup k g).units = s.units := rfl
@[simp] theorem State.setGroup_islands (s : State) (k : Nat) (g : Group) : (s.setGroup k g).islands = s.islands := rfl
@[simp] theorem State.setGroup_dies (s : State) (k : Nat) (g : Group) : (s.setGroup k g).dies = s.dies := rfl
@[simp] theorem State.setGroup_launches (s : State) (k : Nat) (g : Group) : (s.setGroup k g).launches = s.launches := rfl
@[simp] theorem State.setGroup_threads (s : State) (k : Nat) (g : Group) : (s.setGroup k g).threads = s.threads := rfl
@[simp] theorem State.setGroup_mem (s : State) (k : Nat) (g : Group) : (s.setGroup k g).mem = s.mem := rfl
@[simp] theorem State.setGroup_tags (s : State) (k : Nat) (g : Group) : (s.setGroup k g).tags = s.tags := rfl
@[simp] theorem State.setGroup_bad (s : State) (k : Nat) (g : Group) : (s.setGroup k g).bad = s.bad := rfl
@[simp] theorem State.setGroup_stores (s : State) (k : Nat) (g : Group) : (s.setGroup k g).stores = s.stores := rfl
@[simp] theorem State.setGroup_hostWrites (s : State) (k : Nat) (g : Group) : (s.setGroup k g).hostWrites = s.hostWrites := rfl
@[simp] theorem State.setGroup_pushes (s : State) (k : Nat) (g : Group) : (s.setGroup k g).pushes = s.pushes := rfl
@[simp] theorem State.setGroup_fabReqs (s : State) (k : Nat) (g : Group) : (s.setGroup k g).fabReqs = s.fabReqs := rfl
@[simp] theorem State.setGroup_fabricOut (s : State) (k : Nat) (g : Group) : (s.setGroup k g).fabricOut = s.fabricOut := rfl
@[simp] theorem State.setGroup_arenas (s : State) (k : Nat) (g : Group) : (s.setGroup k g).arenas = s.arenas := rfl
@[simp] theorem State.setGroup_exports (s : State) (k : Nat) (g : Group) : (s.setGroup k g).exports = s.exports := rfl
@[simp] theorem State.setGroup_exportPages (s : State) (k : Nat) (g : Group) : (s.setGroup k g).exportPages = s.exportPages := rfl
@[simp] theorem State.setGroup_imports (s : State) (k : Nat) (g : Group) : (s.setGroup k g).imports = s.imports := rfl
@[simp] theorem State.setGroup_slots (s : State) (k : Nat) (g : Group) : (s.setGroup k g).slots = s.slots := rfl
@[simp] theorem State.setGroup_landings (s : State) (k : Nat) (g : Group) : (s.setGroup k g).landings = s.landings := rfl
@[simp] theorem State.setGroup_inboxes (s : State) (k : Nat) (g : Group) : (s.setGroup k g).inboxes = s.inboxes := rfl
@[simp] theorem State.setGroup_queues (s : State) (k : Nat) (g : Group) : (s.setGroup k g).queues = s.queues := rfl
@[simp] theorem State.setGroup_regs (s : State) (k : Nat) (g : Group) : (s.setGroup k g).regs = s.regs := rfl
@[simp] theorem State.setGroup_msix (s : State) (k : Nat) (g : Group) : (s.setGroup k g).msix = s.msix := rfl
@[simp] theorem State.setGroup_hostRead (s : State) (k : Nat) (g : Group) : (s.setGroup k g).hostRead = s.hostRead := rfl
@[simp] theorem State.setGroup_melt (s : State) (k : Nat) (g : Group) : (s.setGroup k g).melt = s.melt := rfl
@[simp] theorem State.setGroup_refreeze (s : State) (k : Nat) (g : Group) : (s.setGroup k g).refreeze = s.refreeze := rfl
@[simp] theorem State.setGroup_gate (s : State) (k : Nat) (g : Group) : (s.setGroup k g).gate = s.gate := rfl
@[simp] theorem State.setGroup_failedLinks (s : State) (k : Nat) (g : Group) : (s.setGroup k g).failedLinks = s.failedLinks := rfl
@[simp] theorem State.setGroup_cxlDown (s : State) (k : Nat) (g : Group) : (s.setGroup k g).cxlDown = s.cxlDown := rfl
@[simp] theorem State.setGroup_heldExtents (s : State) (k : Nat) (g : Group) : (s.setGroup k g).heldExtents = s.heldExtents := rfl
@[simp] theorem State.setGroup_saved (s : State) (k : Nat) (g : Group) : (s.setGroup k g).saved = s.saved := rfl
@[simp] theorem State.setGroup_fresh (s : State) (k : Nat) (g : Group) : (s.setGroup k g).fresh = s.fresh := rfl
@[simp] theorem State.setGroup_agenda (s : State) (k : Nat) (g : Group) : (s.setGroup k g).agenda = s.agenda := rfl
@[simp] theorem State.setGroup_cur (s : State) (k : Nat) (g : Group) : (s.setGroup k g).cur = s.cur := rfl
@[simp] theorem State.setGroup_curSplit (s : State) (k : Nat) (g : Group) : (s.setGroup k g).curSplit = s.curSplit := rfl
@[simp] theorem State.setGroup_turn (s : State) (k : Nat) (g : Group) : (s.setGroup k g).turn = s.turn := rfl
@[simp] theorem State.setGroup_nextLaunch (s : State) (k : Nat) (g : Group) : (s.setGroup k g).nextLaunch = s.nextLaunch := rfl
@[simp] theorem State.setGroup_nextId (s : State) (k : Nat) (g : Group) : (s.setGroup k g).nextId = s.nextId := rfl
@[simp] theorem State.setGroup_free (s : State) (k : Nat) (g : Group) : (s.setGroup k g).free = s.free := rfl
@[simp] theorem State.setGroup_hist (s : State) (k : Nat) (g : Group) : (s.setGroup k g).hist = s.hist := rfl
@[simp] theorem State.setGroup_nextWrite (s : State) (k : Nat) (g : Group) : (s.setGroup k g).nextWrite = s.nextWrite := rfl
@[simp] theorem State.setGroup_fences (s : State) (k : Nat) (g : Group) : (s.setGroup k g).fences = s.fences := rfl
@[simp] theorem State.setGroup_tbRels (s : State) (k : Nat) (g : Group) : (s.setGroup k g).tbRels = s.tbRels := rfl
@[simp] theorem State.setGroup_handleRels (s : State) (k : Nat) (g : Group) : (s.setGroup k g).handleRels = s.handleRels := rfl
@[simp] theorem State.setGroup_hostReqs (s : State) (k : Nat) (g : Group) : (s.setGroup k g).hostReqs = s.hostReqs := rfl
@[simp] theorem State.setGroup_older (s : State) (k : Nat) (g : Group) : (s.setGroup k g).older = s.older := rfl
@[simp] theorem State.setGroup_loads (s : State) (k : Nat) (g : Group) : (s.setGroup k g).loads = s.loads := rfl
@[simp] theorem State.setGroup_atoms (s : State) (k : Nat) (g : Group) : (s.setGroup k g).atoms = s.atoms := rfl
@[simp] theorem State.setGroup_coolFrom (s : State) (k : Nat) (g : Group) : (s.setGroup k g).coolFrom = s.coolFrom := rfl

/-! ### State.modGroup -/

@[simp] theorem State.modGroup_ctxs (s : State) (k : Nat) (f : Group → Group) : (s.modGroup k f).ctxs = s.ctxs := rfl
@[simp] theorem State.modGroup_cores (s : State) (k : Nat) (f : Group → Group) : (s.modGroup k f).cores = s.cores := rfl
@[simp] theorem State.modGroup_units (s : State) (k : Nat) (f : Group → Group) : (s.modGroup k f).units = s.units := rfl
@[simp] theorem State.modGroup_islands (s : State) (k : Nat) (f : Group → Group) : (s.modGroup k f).islands = s.islands := rfl
@[simp] theorem State.modGroup_dies (s : State) (k : Nat) (f : Group → Group) : (s.modGroup k f).dies = s.dies := rfl
@[simp] theorem State.modGroup_launches (s : State) (k : Nat) (f : Group → Group) : (s.modGroup k f).launches = s.launches := rfl
@[simp] theorem State.modGroup_threads (s : State) (k : Nat) (f : Group → Group) : (s.modGroup k f).threads = s.threads := rfl
@[simp] theorem State.modGroup_mem (s : State) (k : Nat) (f : Group → Group) : (s.modGroup k f).mem = s.mem := rfl
@[simp] theorem State.modGroup_tags (s : State) (k : Nat) (f : Group → Group) : (s.modGroup k f).tags = s.tags := rfl
@[simp] theorem State.modGroup_bad (s : State) (k : Nat) (f : Group → Group) : (s.modGroup k f).bad = s.bad := rfl
@[simp] theorem State.modGroup_stores (s : State) (k : Nat) (f : Group → Group) : (s.modGroup k f).stores = s.stores := rfl
@[simp] theorem State.modGroup_hostWrites (s : State) (k : Nat) (f : Group → Group) : (s.modGroup k f).hostWrites = s.hostWrites := rfl
@[simp] theorem State.modGroup_pushes (s : State) (k : Nat) (f : Group → Group) : (s.modGroup k f).pushes = s.pushes := rfl
@[simp] theorem State.modGroup_fabReqs (s : State) (k : Nat) (f : Group → Group) : (s.modGroup k f).fabReqs = s.fabReqs := rfl
@[simp] theorem State.modGroup_fabricOut (s : State) (k : Nat) (f : Group → Group) : (s.modGroup k f).fabricOut = s.fabricOut := rfl
@[simp] theorem State.modGroup_arenas (s : State) (k : Nat) (f : Group → Group) : (s.modGroup k f).arenas = s.arenas := rfl
@[simp] theorem State.modGroup_exports (s : State) (k : Nat) (f : Group → Group) : (s.modGroup k f).exports = s.exports := rfl
@[simp] theorem State.modGroup_exportPages (s : State) (k : Nat) (f : Group → Group) : (s.modGroup k f).exportPages = s.exportPages := rfl
@[simp] theorem State.modGroup_imports (s : State) (k : Nat) (f : Group → Group) : (s.modGroup k f).imports = s.imports := rfl
@[simp] theorem State.modGroup_slots (s : State) (k : Nat) (f : Group → Group) : (s.modGroup k f).slots = s.slots := rfl
@[simp] theorem State.modGroup_landings (s : State) (k : Nat) (f : Group → Group) : (s.modGroup k f).landings = s.landings := rfl
@[simp] theorem State.modGroup_inboxes (s : State) (k : Nat) (f : Group → Group) : (s.modGroup k f).inboxes = s.inboxes := rfl
@[simp] theorem State.modGroup_queues (s : State) (k : Nat) (f : Group → Group) : (s.modGroup k f).queues = s.queues := rfl
@[simp] theorem State.modGroup_regs (s : State) (k : Nat) (f : Group → Group) : (s.modGroup k f).regs = s.regs := rfl
@[simp] theorem State.modGroup_msix (s : State) (k : Nat) (f : Group → Group) : (s.modGroup k f).msix = s.msix := rfl
@[simp] theorem State.modGroup_hostRead (s : State) (k : Nat) (f : Group → Group) : (s.modGroup k f).hostRead = s.hostRead := rfl
@[simp] theorem State.modGroup_melt (s : State) (k : Nat) (f : Group → Group) : (s.modGroup k f).melt = s.melt := rfl
@[simp] theorem State.modGroup_refreeze (s : State) (k : Nat) (f : Group → Group) : (s.modGroup k f).refreeze = s.refreeze := rfl
@[simp] theorem State.modGroup_gate (s : State) (k : Nat) (f : Group → Group) : (s.modGroup k f).gate = s.gate := rfl
@[simp] theorem State.modGroup_failedLinks (s : State) (k : Nat) (f : Group → Group) : (s.modGroup k f).failedLinks = s.failedLinks := rfl
@[simp] theorem State.modGroup_cxlDown (s : State) (k : Nat) (f : Group → Group) : (s.modGroup k f).cxlDown = s.cxlDown := rfl
@[simp] theorem State.modGroup_heldExtents (s : State) (k : Nat) (f : Group → Group) : (s.modGroup k f).heldExtents = s.heldExtents := rfl
@[simp] theorem State.modGroup_saved (s : State) (k : Nat) (f : Group → Group) : (s.modGroup k f).saved = s.saved := rfl
@[simp] theorem State.modGroup_fresh (s : State) (k : Nat) (f : Group → Group) : (s.modGroup k f).fresh = s.fresh := rfl
@[simp] theorem State.modGroup_agenda (s : State) (k : Nat) (f : Group → Group) : (s.modGroup k f).agenda = s.agenda := rfl
@[simp] theorem State.modGroup_cur (s : State) (k : Nat) (f : Group → Group) : (s.modGroup k f).cur = s.cur := rfl
@[simp] theorem State.modGroup_curSplit (s : State) (k : Nat) (f : Group → Group) : (s.modGroup k f).curSplit = s.curSplit := rfl
@[simp] theorem State.modGroup_turn (s : State) (k : Nat) (f : Group → Group) : (s.modGroup k f).turn = s.turn := rfl
@[simp] theorem State.modGroup_nextLaunch (s : State) (k : Nat) (f : Group → Group) : (s.modGroup k f).nextLaunch = s.nextLaunch := rfl
@[simp] theorem State.modGroup_nextId (s : State) (k : Nat) (f : Group → Group) : (s.modGroup k f).nextId = s.nextId := rfl
@[simp] theorem State.modGroup_free (s : State) (k : Nat) (f : Group → Group) : (s.modGroup k f).free = s.free := rfl
@[simp] theorem State.modGroup_hist (s : State) (k : Nat) (f : Group → Group) : (s.modGroup k f).hist = s.hist := rfl
@[simp] theorem State.modGroup_nextWrite (s : State) (k : Nat) (f : Group → Group) : (s.modGroup k f).nextWrite = s.nextWrite := rfl
@[simp] theorem State.modGroup_fences (s : State) (k : Nat) (f : Group → Group) : (s.modGroup k f).fences = s.fences := rfl
@[simp] theorem State.modGroup_tbRels (s : State) (k : Nat) (f : Group → Group) : (s.modGroup k f).tbRels = s.tbRels := rfl
@[simp] theorem State.modGroup_handleRels (s : State) (k : Nat) (f : Group → Group) : (s.modGroup k f).handleRels = s.handleRels := rfl
@[simp] theorem State.modGroup_hostReqs (s : State) (k : Nat) (f : Group → Group) : (s.modGroup k f).hostReqs = s.hostReqs := rfl
@[simp] theorem State.modGroup_older (s : State) (k : Nat) (f : Group → Group) : (s.modGroup k f).older = s.older := rfl
@[simp] theorem State.modGroup_loads (s : State) (k : Nat) (f : Group → Group) : (s.modGroup k f).loads = s.loads := rfl
@[simp] theorem State.modGroup_atoms (s : State) (k : Nat) (f : Group → Group) : (s.modGroup k f).atoms = s.atoms := rfl
@[simp] theorem State.modGroup_coolFrom (s : State) (k : Nat) (f : Group → Group) : (s.modGroup k f).coolFrom = s.coolFrom := rfl

/-! ### State.modSplit -/

@[simp] theorem State.modSplit_ctxs (s : State) (k j : Nat) (f : Split → Split) : (s.modSplit k j f).ctxs = s.ctxs := rfl
@[simp] theorem State.modSplit_cores (s : State) (k j : Nat) (f : Split → Split) : (s.modSplit k j f).cores = s.cores := rfl
@[simp] theorem State.modSplit_units (s : State) (k j : Nat) (f : Split → Split) : (s.modSplit k j f).units = s.units := rfl
@[simp] theorem State.modSplit_islands (s : State) (k j : Nat) (f : Split → Split) : (s.modSplit k j f).islands = s.islands := rfl
@[simp] theorem State.modSplit_dies (s : State) (k j : Nat) (f : Split → Split) : (s.modSplit k j f).dies = s.dies := rfl
@[simp] theorem State.modSplit_launches (s : State) (k j : Nat) (f : Split → Split) : (s.modSplit k j f).launches = s.launches := rfl
@[simp] theorem State.modSplit_threads (s : State) (k j : Nat) (f : Split → Split) : (s.modSplit k j f).threads = s.threads := rfl
@[simp] theorem State.modSplit_mem (s : State) (k j : Nat) (f : Split → Split) : (s.modSplit k j f).mem = s.mem := rfl
@[simp] theorem State.modSplit_tags (s : State) (k j : Nat) (f : Split → Split) : (s.modSplit k j f).tags = s.tags := rfl
@[simp] theorem State.modSplit_bad (s : State) (k j : Nat) (f : Split → Split) : (s.modSplit k j f).bad = s.bad := rfl
@[simp] theorem State.modSplit_stores (s : State) (k j : Nat) (f : Split → Split) : (s.modSplit k j f).stores = s.stores := rfl
@[simp] theorem State.modSplit_hostWrites (s : State) (k j : Nat) (f : Split → Split) : (s.modSplit k j f).hostWrites = s.hostWrites := rfl
@[simp] theorem State.modSplit_pushes (s : State) (k j : Nat) (f : Split → Split) : (s.modSplit k j f).pushes = s.pushes := rfl
@[simp] theorem State.modSplit_fabReqs (s : State) (k j : Nat) (f : Split → Split) : (s.modSplit k j f).fabReqs = s.fabReqs := rfl
@[simp] theorem State.modSplit_fabricOut (s : State) (k j : Nat) (f : Split → Split) : (s.modSplit k j f).fabricOut = s.fabricOut := rfl
@[simp] theorem State.modSplit_arenas (s : State) (k j : Nat) (f : Split → Split) : (s.modSplit k j f).arenas = s.arenas := rfl
@[simp] theorem State.modSplit_exports (s : State) (k j : Nat) (f : Split → Split) : (s.modSplit k j f).exports = s.exports := rfl
@[simp] theorem State.modSplit_exportPages (s : State) (k j : Nat) (f : Split → Split) : (s.modSplit k j f).exportPages = s.exportPages := rfl
@[simp] theorem State.modSplit_imports (s : State) (k j : Nat) (f : Split → Split) : (s.modSplit k j f).imports = s.imports := rfl
@[simp] theorem State.modSplit_slots (s : State) (k j : Nat) (f : Split → Split) : (s.modSplit k j f).slots = s.slots := rfl
@[simp] theorem State.modSplit_landings (s : State) (k j : Nat) (f : Split → Split) : (s.modSplit k j f).landings = s.landings := rfl
@[simp] theorem State.modSplit_inboxes (s : State) (k j : Nat) (f : Split → Split) : (s.modSplit k j f).inboxes = s.inboxes := rfl
@[simp] theorem State.modSplit_queues (s : State) (k j : Nat) (f : Split → Split) : (s.modSplit k j f).queues = s.queues := rfl
@[simp] theorem State.modSplit_regs (s : State) (k j : Nat) (f : Split → Split) : (s.modSplit k j f).regs = s.regs := rfl
@[simp] theorem State.modSplit_msix (s : State) (k j : Nat) (f : Split → Split) : (s.modSplit k j f).msix = s.msix := rfl
@[simp] theorem State.modSplit_hostRead (s : State) (k j : Nat) (f : Split → Split) : (s.modSplit k j f).hostRead = s.hostRead := rfl
@[simp] theorem State.modSplit_melt (s : State) (k j : Nat) (f : Split → Split) : (s.modSplit k j f).melt = s.melt := rfl
@[simp] theorem State.modSplit_refreeze (s : State) (k j : Nat) (f : Split → Split) : (s.modSplit k j f).refreeze = s.refreeze := rfl
@[simp] theorem State.modSplit_gate (s : State) (k j : Nat) (f : Split → Split) : (s.modSplit k j f).gate = s.gate := rfl
@[simp] theorem State.modSplit_failedLinks (s : State) (k j : Nat) (f : Split → Split) : (s.modSplit k j f).failedLinks = s.failedLinks := rfl
@[simp] theorem State.modSplit_cxlDown (s : State) (k j : Nat) (f : Split → Split) : (s.modSplit k j f).cxlDown = s.cxlDown := rfl
@[simp] theorem State.modSplit_heldExtents (s : State) (k j : Nat) (f : Split → Split) : (s.modSplit k j f).heldExtents = s.heldExtents := rfl
@[simp] theorem State.modSplit_saved (s : State) (k j : Nat) (f : Split → Split) : (s.modSplit k j f).saved = s.saved := rfl
@[simp] theorem State.modSplit_fresh (s : State) (k j : Nat) (f : Split → Split) : (s.modSplit k j f).fresh = s.fresh := rfl
@[simp] theorem State.modSplit_agenda (s : State) (k j : Nat) (f : Split → Split) : (s.modSplit k j f).agenda = s.agenda := rfl
@[simp] theorem State.modSplit_cur (s : State) (k j : Nat) (f : Split → Split) : (s.modSplit k j f).cur = s.cur := rfl
@[simp] theorem State.modSplit_curSplit (s : State) (k j : Nat) (f : Split → Split) : (s.modSplit k j f).curSplit = s.curSplit := rfl
@[simp] theorem State.modSplit_turn (s : State) (k j : Nat) (f : Split → Split) : (s.modSplit k j f).turn = s.turn := rfl
@[simp] theorem State.modSplit_nextLaunch (s : State) (k j : Nat) (f : Split → Split) : (s.modSplit k j f).nextLaunch = s.nextLaunch := rfl
@[simp] theorem State.modSplit_nextId (s : State) (k j : Nat) (f : Split → Split) : (s.modSplit k j f).nextId = s.nextId := rfl
@[simp] theorem State.modSplit_free (s : State) (k j : Nat) (f : Split → Split) : (s.modSplit k j f).free = s.free := rfl
@[simp] theorem State.modSplit_hist (s : State) (k j : Nat) (f : Split → Split) : (s.modSplit k j f).hist = s.hist := rfl
@[simp] theorem State.modSplit_nextWrite (s : State) (k j : Nat) (f : Split → Split) : (s.modSplit k j f).nextWrite = s.nextWrite := rfl
@[simp] theorem State.modSplit_fences (s : State) (k j : Nat) (f : Split → Split) : (s.modSplit k j f).fences = s.fences := rfl
@[simp] theorem State.modSplit_tbRels (s : State) (k j : Nat) (f : Split → Split) : (s.modSplit k j f).tbRels = s.tbRels := rfl
@[simp] theorem State.modSplit_handleRels (s : State) (k j : Nat) (f : Split → Split) : (s.modSplit k j f).handleRels = s.handleRels := rfl
@[simp] theorem State.modSplit_hostReqs (s : State) (k j : Nat) (f : Split → Split) : (s.modSplit k j f).hostReqs = s.hostReqs := rfl
@[simp] theorem State.modSplit_older (s : State) (k j : Nat) (f : Split → Split) : (s.modSplit k j f).older = s.older := rfl
@[simp] theorem State.modSplit_loads (s : State) (k j : Nat) (f : Split → Split) : (s.modSplit k j f).loads = s.loads := rfl
@[simp] theorem State.modSplit_atoms (s : State) (k j : Nat) (f : Split → Split) : (s.modSplit k j f).atoms = s.atoms := rfl
@[simp] theorem State.modSplit_coolFrom (s : State) (k j : Nat) (f : Split → Split) : (s.modSplit k j f).coolFrom = s.coolFrom := rfl

/-! ### State.modLaunch -/

@[simp] theorem State.modLaunch_groups (s : State) (l : Nat) (f : Launch → Launch) : (s.modLaunch l f).groups = s.groups := rfl
@[simp] theorem State.modLaunch_ctxs (s : State) (l : Nat) (f : Launch → Launch) : (s.modLaunch l f).ctxs = s.ctxs := rfl
@[simp] theorem State.modLaunch_cores (s : State) (l : Nat) (f : Launch → Launch) : (s.modLaunch l f).cores = s.cores := rfl
@[simp] theorem State.modLaunch_units (s : State) (l : Nat) (f : Launch → Launch) : (s.modLaunch l f).units = s.units := rfl
@[simp] theorem State.modLaunch_islands (s : State) (l : Nat) (f : Launch → Launch) : (s.modLaunch l f).islands = s.islands := rfl
@[simp] theorem State.modLaunch_dies (s : State) (l : Nat) (f : Launch → Launch) : (s.modLaunch l f).dies = s.dies := rfl
@[simp] theorem State.modLaunch_threads (s : State) (l : Nat) (f : Launch → Launch) : (s.modLaunch l f).threads = s.threads := rfl
@[simp] theorem State.modLaunch_mem (s : State) (l : Nat) (f : Launch → Launch) : (s.modLaunch l f).mem = s.mem := rfl
@[simp] theorem State.modLaunch_tags (s : State) (l : Nat) (f : Launch → Launch) : (s.modLaunch l f).tags = s.tags := rfl
@[simp] theorem State.modLaunch_bad (s : State) (l : Nat) (f : Launch → Launch) : (s.modLaunch l f).bad = s.bad := rfl
@[simp] theorem State.modLaunch_stores (s : State) (l : Nat) (f : Launch → Launch) : (s.modLaunch l f).stores = s.stores := rfl
@[simp] theorem State.modLaunch_hostWrites (s : State) (l : Nat) (f : Launch → Launch) : (s.modLaunch l f).hostWrites = s.hostWrites := rfl
@[simp] theorem State.modLaunch_pushes (s : State) (l : Nat) (f : Launch → Launch) : (s.modLaunch l f).pushes = s.pushes := rfl
@[simp] theorem State.modLaunch_fabReqs (s : State) (l : Nat) (f : Launch → Launch) : (s.modLaunch l f).fabReqs = s.fabReqs := rfl
@[simp] theorem State.modLaunch_fabricOut (s : State) (l : Nat) (f : Launch → Launch) : (s.modLaunch l f).fabricOut = s.fabricOut := rfl
@[simp] theorem State.modLaunch_arenas (s : State) (l : Nat) (f : Launch → Launch) : (s.modLaunch l f).arenas = s.arenas := rfl
@[simp] theorem State.modLaunch_exports (s : State) (l : Nat) (f : Launch → Launch) : (s.modLaunch l f).exports = s.exports := rfl
@[simp] theorem State.modLaunch_exportPages (s : State) (l : Nat) (f : Launch → Launch) : (s.modLaunch l f).exportPages = s.exportPages := rfl
@[simp] theorem State.modLaunch_imports (s : State) (l : Nat) (f : Launch → Launch) : (s.modLaunch l f).imports = s.imports := rfl
@[simp] theorem State.modLaunch_slots (s : State) (l : Nat) (f : Launch → Launch) : (s.modLaunch l f).slots = s.slots := rfl
@[simp] theorem State.modLaunch_landings (s : State) (l : Nat) (f : Launch → Launch) : (s.modLaunch l f).landings = s.landings := rfl
@[simp] theorem State.modLaunch_inboxes (s : State) (l : Nat) (f : Launch → Launch) : (s.modLaunch l f).inboxes = s.inboxes := rfl
@[simp] theorem State.modLaunch_queues (s : State) (l : Nat) (f : Launch → Launch) : (s.modLaunch l f).queues = s.queues := rfl
@[simp] theorem State.modLaunch_regs (s : State) (l : Nat) (f : Launch → Launch) : (s.modLaunch l f).regs = s.regs := rfl
@[simp] theorem State.modLaunch_msix (s : State) (l : Nat) (f : Launch → Launch) : (s.modLaunch l f).msix = s.msix := rfl
@[simp] theorem State.modLaunch_hostRead (s : State) (l : Nat) (f : Launch → Launch) : (s.modLaunch l f).hostRead = s.hostRead := rfl
@[simp] theorem State.modLaunch_melt (s : State) (l : Nat) (f : Launch → Launch) : (s.modLaunch l f).melt = s.melt := rfl
@[simp] theorem State.modLaunch_refreeze (s : State) (l : Nat) (f : Launch → Launch) : (s.modLaunch l f).refreeze = s.refreeze := rfl
@[simp] theorem State.modLaunch_gate (s : State) (l : Nat) (f : Launch → Launch) : (s.modLaunch l f).gate = s.gate := rfl
@[simp] theorem State.modLaunch_failedLinks (s : State) (l : Nat) (f : Launch → Launch) : (s.modLaunch l f).failedLinks = s.failedLinks := rfl
@[simp] theorem State.modLaunch_cxlDown (s : State) (l : Nat) (f : Launch → Launch) : (s.modLaunch l f).cxlDown = s.cxlDown := rfl
@[simp] theorem State.modLaunch_heldExtents (s : State) (l : Nat) (f : Launch → Launch) : (s.modLaunch l f).heldExtents = s.heldExtents := rfl
@[simp] theorem State.modLaunch_saved (s : State) (l : Nat) (f : Launch → Launch) : (s.modLaunch l f).saved = s.saved := rfl
@[simp] theorem State.modLaunch_fresh (s : State) (l : Nat) (f : Launch → Launch) : (s.modLaunch l f).fresh = s.fresh := rfl
@[simp] theorem State.modLaunch_agenda (s : State) (l : Nat) (f : Launch → Launch) : (s.modLaunch l f).agenda = s.agenda := rfl
@[simp] theorem State.modLaunch_cur (s : State) (l : Nat) (f : Launch → Launch) : (s.modLaunch l f).cur = s.cur := rfl
@[simp] theorem State.modLaunch_curSplit (s : State) (l : Nat) (f : Launch → Launch) : (s.modLaunch l f).curSplit = s.curSplit := rfl
@[simp] theorem State.modLaunch_turn (s : State) (l : Nat) (f : Launch → Launch) : (s.modLaunch l f).turn = s.turn := rfl
@[simp] theorem State.modLaunch_nextLaunch (s : State) (l : Nat) (f : Launch → Launch) : (s.modLaunch l f).nextLaunch = s.nextLaunch := rfl
@[simp] theorem State.modLaunch_nextId (s : State) (l : Nat) (f : Launch → Launch) : (s.modLaunch l f).nextId = s.nextId := rfl
@[simp] theorem State.modLaunch_free (s : State) (l : Nat) (f : Launch → Launch) : (s.modLaunch l f).free = s.free := rfl
@[simp] theorem State.modLaunch_hist (s : State) (l : Nat) (f : Launch → Launch) : (s.modLaunch l f).hist = s.hist := rfl
@[simp] theorem State.modLaunch_nextWrite (s : State) (l : Nat) (f : Launch → Launch) : (s.modLaunch l f).nextWrite = s.nextWrite := rfl
@[simp] theorem State.modLaunch_fences (s : State) (l : Nat) (f : Launch → Launch) : (s.modLaunch l f).fences = s.fences := rfl
@[simp] theorem State.modLaunch_tbRels (s : State) (l : Nat) (f : Launch → Launch) : (s.modLaunch l f).tbRels = s.tbRels := rfl
@[simp] theorem State.modLaunch_handleRels (s : State) (l : Nat) (f : Launch → Launch) : (s.modLaunch l f).handleRels = s.handleRels := rfl
@[simp] theorem State.modLaunch_hostReqs (s : State) (l : Nat) (f : Launch → Launch) : (s.modLaunch l f).hostReqs = s.hostReqs := rfl
@[simp] theorem State.modLaunch_older (s : State) (l : Nat) (f : Launch → Launch) : (s.modLaunch l f).older = s.older := rfl
@[simp] theorem State.modLaunch_loads (s : State) (l : Nat) (f : Launch → Launch) : (s.modLaunch l f).loads = s.loads := rfl
@[simp] theorem State.modLaunch_atoms (s : State) (l : Nat) (f : Launch → Launch) : (s.modLaunch l f).atoms = s.atoms := rfl
@[simp] theorem State.modLaunch_coolFrom (s : State) (l : Nat) (f : Launch → Launch) : (s.modLaunch l f).coolFrom = s.coolFrom := rfl

/-! ### State.modCtx -/

@[simp] theorem State.modCtx_groups (s : State) (l c : Nat) (f : Ctx → Ctx) : (s.modCtx l c f).groups = s.groups := rfl
@[simp] theorem State.modCtx_cores (s : State) (l c : Nat) (f : Ctx → Ctx) : (s.modCtx l c f).cores = s.cores := rfl
@[simp] theorem State.modCtx_units (s : State) (l c : Nat) (f : Ctx → Ctx) : (s.modCtx l c f).units = s.units := rfl
@[simp] theorem State.modCtx_islands (s : State) (l c : Nat) (f : Ctx → Ctx) : (s.modCtx l c f).islands = s.islands := rfl
@[simp] theorem State.modCtx_dies (s : State) (l c : Nat) (f : Ctx → Ctx) : (s.modCtx l c f).dies = s.dies := rfl
@[simp] theorem State.modCtx_launches (s : State) (l c : Nat) (f : Ctx → Ctx) : (s.modCtx l c f).launches = s.launches := rfl
@[simp] theorem State.modCtx_threads (s : State) (l c : Nat) (f : Ctx → Ctx) : (s.modCtx l c f).threads = s.threads := rfl
@[simp] theorem State.modCtx_mem (s : State) (l c : Nat) (f : Ctx → Ctx) : (s.modCtx l c f).mem = s.mem := rfl
@[simp] theorem State.modCtx_tags (s : State) (l c : Nat) (f : Ctx → Ctx) : (s.modCtx l c f).tags = s.tags := rfl
@[simp] theorem State.modCtx_bad (s : State) (l c : Nat) (f : Ctx → Ctx) : (s.modCtx l c f).bad = s.bad := rfl
@[simp] theorem State.modCtx_stores (s : State) (l c : Nat) (f : Ctx → Ctx) : (s.modCtx l c f).stores = s.stores := rfl
@[simp] theorem State.modCtx_hostWrites (s : State) (l c : Nat) (f : Ctx → Ctx) : (s.modCtx l c f).hostWrites = s.hostWrites := rfl
@[simp] theorem State.modCtx_pushes (s : State) (l c : Nat) (f : Ctx → Ctx) : (s.modCtx l c f).pushes = s.pushes := rfl
@[simp] theorem State.modCtx_fabReqs (s : State) (l c : Nat) (f : Ctx → Ctx) : (s.modCtx l c f).fabReqs = s.fabReqs := rfl
@[simp] theorem State.modCtx_fabricOut (s : State) (l c : Nat) (f : Ctx → Ctx) : (s.modCtx l c f).fabricOut = s.fabricOut := rfl
@[simp] theorem State.modCtx_arenas (s : State) (l c : Nat) (f : Ctx → Ctx) : (s.modCtx l c f).arenas = s.arenas := rfl
@[simp] theorem State.modCtx_exports (s : State) (l c : Nat) (f : Ctx → Ctx) : (s.modCtx l c f).exports = s.exports := rfl
@[simp] theorem State.modCtx_exportPages (s : State) (l c : Nat) (f : Ctx → Ctx) : (s.modCtx l c f).exportPages = s.exportPages := rfl
@[simp] theorem State.modCtx_imports (s : State) (l c : Nat) (f : Ctx → Ctx) : (s.modCtx l c f).imports = s.imports := rfl
@[simp] theorem State.modCtx_slots (s : State) (l c : Nat) (f : Ctx → Ctx) : (s.modCtx l c f).slots = s.slots := rfl
@[simp] theorem State.modCtx_landings (s : State) (l c : Nat) (f : Ctx → Ctx) : (s.modCtx l c f).landings = s.landings := rfl
@[simp] theorem State.modCtx_inboxes (s : State) (l c : Nat) (f : Ctx → Ctx) : (s.modCtx l c f).inboxes = s.inboxes := rfl
@[simp] theorem State.modCtx_queues (s : State) (l c : Nat) (f : Ctx → Ctx) : (s.modCtx l c f).queues = s.queues := rfl
@[simp] theorem State.modCtx_regs (s : State) (l c : Nat) (f : Ctx → Ctx) : (s.modCtx l c f).regs = s.regs := rfl
@[simp] theorem State.modCtx_msix (s : State) (l c : Nat) (f : Ctx → Ctx) : (s.modCtx l c f).msix = s.msix := rfl
@[simp] theorem State.modCtx_hostRead (s : State) (l c : Nat) (f : Ctx → Ctx) : (s.modCtx l c f).hostRead = s.hostRead := rfl
@[simp] theorem State.modCtx_melt (s : State) (l c : Nat) (f : Ctx → Ctx) : (s.modCtx l c f).melt = s.melt := rfl
@[simp] theorem State.modCtx_refreeze (s : State) (l c : Nat) (f : Ctx → Ctx) : (s.modCtx l c f).refreeze = s.refreeze := rfl
@[simp] theorem State.modCtx_gate (s : State) (l c : Nat) (f : Ctx → Ctx) : (s.modCtx l c f).gate = s.gate := rfl
@[simp] theorem State.modCtx_failedLinks (s : State) (l c : Nat) (f : Ctx → Ctx) : (s.modCtx l c f).failedLinks = s.failedLinks := rfl
@[simp] theorem State.modCtx_cxlDown (s : State) (l c : Nat) (f : Ctx → Ctx) : (s.modCtx l c f).cxlDown = s.cxlDown := rfl
@[simp] theorem State.modCtx_heldExtents (s : State) (l c : Nat) (f : Ctx → Ctx) : (s.modCtx l c f).heldExtents = s.heldExtents := rfl
@[simp] theorem State.modCtx_saved (s : State) (l c : Nat) (f : Ctx → Ctx) : (s.modCtx l c f).saved = s.saved := rfl
@[simp] theorem State.modCtx_fresh (s : State) (l c : Nat) (f : Ctx → Ctx) : (s.modCtx l c f).fresh = s.fresh := rfl
@[simp] theorem State.modCtx_agenda (s : State) (l c : Nat) (f : Ctx → Ctx) : (s.modCtx l c f).agenda = s.agenda := rfl
@[simp] theorem State.modCtx_cur (s : State) (l c : Nat) (f : Ctx → Ctx) : (s.modCtx l c f).cur = s.cur := rfl
@[simp] theorem State.modCtx_curSplit (s : State) (l c : Nat) (f : Ctx → Ctx) : (s.modCtx l c f).curSplit = s.curSplit := rfl
@[simp] theorem State.modCtx_turn (s : State) (l c : Nat) (f : Ctx → Ctx) : (s.modCtx l c f).turn = s.turn := rfl
@[simp] theorem State.modCtx_nextLaunch (s : State) (l c : Nat) (f : Ctx → Ctx) : (s.modCtx l c f).nextLaunch = s.nextLaunch := rfl
@[simp] theorem State.modCtx_nextId (s : State) (l c : Nat) (f : Ctx → Ctx) : (s.modCtx l c f).nextId = s.nextId := rfl
@[simp] theorem State.modCtx_free (s : State) (l c : Nat) (f : Ctx → Ctx) : (s.modCtx l c f).free = s.free := rfl
@[simp] theorem State.modCtx_hist (s : State) (l c : Nat) (f : Ctx → Ctx) : (s.modCtx l c f).hist = s.hist := rfl
@[simp] theorem State.modCtx_nextWrite (s : State) (l c : Nat) (f : Ctx → Ctx) : (s.modCtx l c f).nextWrite = s.nextWrite := rfl
@[simp] theorem State.modCtx_fences (s : State) (l c : Nat) (f : Ctx → Ctx) : (s.modCtx l c f).fences = s.fences := rfl
@[simp] theorem State.modCtx_tbRels (s : State) (l c : Nat) (f : Ctx → Ctx) : (s.modCtx l c f).tbRels = s.tbRels := rfl
@[simp] theorem State.modCtx_handleRels (s : State) (l c : Nat) (f : Ctx → Ctx) : (s.modCtx l c f).handleRels = s.handleRels := rfl
@[simp] theorem State.modCtx_hostReqs (s : State) (l c : Nat) (f : Ctx → Ctx) : (s.modCtx l c f).hostReqs = s.hostReqs := rfl
@[simp] theorem State.modCtx_older (s : State) (l c : Nat) (f : Ctx → Ctx) : (s.modCtx l c f).older = s.older := rfl
@[simp] theorem State.modCtx_loads (s : State) (l c : Nat) (f : Ctx → Ctx) : (s.modCtx l c f).loads = s.loads := rfl
@[simp] theorem State.modCtx_atoms (s : State) (l c : Nat) (f : Ctx → Ctx) : (s.modCtx l c f).atoms = s.atoms := rfl
@[simp] theorem State.modCtx_coolFrom (s : State) (l c : Nat) (f : Ctx → Ctx) : (s.modCtx l c f).coolFrom = s.coolFrom := rfl

/-! ### State.modCore -/

@[simp] theorem State.modCore_groups (s : State) (c : Nat) (f : CoreSt → CoreSt) : (s.modCore c f).groups = s.groups := rfl
@[simp] theorem State.modCore_ctxs (s : State) (c : Nat) (f : CoreSt → CoreSt) : (s.modCore c f).ctxs = s.ctxs := rfl
@[simp] theorem State.modCore_units (s : State) (c : Nat) (f : CoreSt → CoreSt) : (s.modCore c f).units = s.units := rfl
@[simp] theorem State.modCore_islands (s : State) (c : Nat) (f : CoreSt → CoreSt) : (s.modCore c f).islands = s.islands := rfl
@[simp] theorem State.modCore_dies (s : State) (c : Nat) (f : CoreSt → CoreSt) : (s.modCore c f).dies = s.dies := rfl
@[simp] theorem State.modCore_launches (s : State) (c : Nat) (f : CoreSt → CoreSt) : (s.modCore c f).launches = s.launches := rfl
@[simp] theorem State.modCore_threads (s : State) (c : Nat) (f : CoreSt → CoreSt) : (s.modCore c f).threads = s.threads := rfl
@[simp] theorem State.modCore_mem (s : State) (c : Nat) (f : CoreSt → CoreSt) : (s.modCore c f).mem = s.mem := rfl
@[simp] theorem State.modCore_tags (s : State) (c : Nat) (f : CoreSt → CoreSt) : (s.modCore c f).tags = s.tags := rfl
@[simp] theorem State.modCore_bad (s : State) (c : Nat) (f : CoreSt → CoreSt) : (s.modCore c f).bad = s.bad := rfl
@[simp] theorem State.modCore_stores (s : State) (c : Nat) (f : CoreSt → CoreSt) : (s.modCore c f).stores = s.stores := rfl
@[simp] theorem State.modCore_hostWrites (s : State) (c : Nat) (f : CoreSt → CoreSt) : (s.modCore c f).hostWrites = s.hostWrites := rfl
@[simp] theorem State.modCore_pushes (s : State) (c : Nat) (f : CoreSt → CoreSt) : (s.modCore c f).pushes = s.pushes := rfl
@[simp] theorem State.modCore_fabReqs (s : State) (c : Nat) (f : CoreSt → CoreSt) : (s.modCore c f).fabReqs = s.fabReqs := rfl
@[simp] theorem State.modCore_fabricOut (s : State) (c : Nat) (f : CoreSt → CoreSt) : (s.modCore c f).fabricOut = s.fabricOut := rfl
@[simp] theorem State.modCore_arenas (s : State) (c : Nat) (f : CoreSt → CoreSt) : (s.modCore c f).arenas = s.arenas := rfl
@[simp] theorem State.modCore_exports (s : State) (c : Nat) (f : CoreSt → CoreSt) : (s.modCore c f).exports = s.exports := rfl
@[simp] theorem State.modCore_exportPages (s : State) (c : Nat) (f : CoreSt → CoreSt) : (s.modCore c f).exportPages = s.exportPages := rfl
@[simp] theorem State.modCore_imports (s : State) (c : Nat) (f : CoreSt → CoreSt) : (s.modCore c f).imports = s.imports := rfl
@[simp] theorem State.modCore_slots (s : State) (c : Nat) (f : CoreSt → CoreSt) : (s.modCore c f).slots = s.slots := rfl
@[simp] theorem State.modCore_landings (s : State) (c : Nat) (f : CoreSt → CoreSt) : (s.modCore c f).landings = s.landings := rfl
@[simp] theorem State.modCore_inboxes (s : State) (c : Nat) (f : CoreSt → CoreSt) : (s.modCore c f).inboxes = s.inboxes := rfl
@[simp] theorem State.modCore_queues (s : State) (c : Nat) (f : CoreSt → CoreSt) : (s.modCore c f).queues = s.queues := rfl
@[simp] theorem State.modCore_regs (s : State) (c : Nat) (f : CoreSt → CoreSt) : (s.modCore c f).regs = s.regs := rfl
@[simp] theorem State.modCore_msix (s : State) (c : Nat) (f : CoreSt → CoreSt) : (s.modCore c f).msix = s.msix := rfl
@[simp] theorem State.modCore_hostRead (s : State) (c : Nat) (f : CoreSt → CoreSt) : (s.modCore c f).hostRead = s.hostRead := rfl
@[simp] theorem State.modCore_melt (s : State) (c : Nat) (f : CoreSt → CoreSt) : (s.modCore c f).melt = s.melt := rfl
@[simp] theorem State.modCore_refreeze (s : State) (c : Nat) (f : CoreSt → CoreSt) : (s.modCore c f).refreeze = s.refreeze := rfl
@[simp] theorem State.modCore_gate (s : State) (c : Nat) (f : CoreSt → CoreSt) : (s.modCore c f).gate = s.gate := rfl
@[simp] theorem State.modCore_failedLinks (s : State) (c : Nat) (f : CoreSt → CoreSt) : (s.modCore c f).failedLinks = s.failedLinks := rfl
@[simp] theorem State.modCore_cxlDown (s : State) (c : Nat) (f : CoreSt → CoreSt) : (s.modCore c f).cxlDown = s.cxlDown := rfl
@[simp] theorem State.modCore_heldExtents (s : State) (c : Nat) (f : CoreSt → CoreSt) : (s.modCore c f).heldExtents = s.heldExtents := rfl
@[simp] theorem State.modCore_saved (s : State) (c : Nat) (f : CoreSt → CoreSt) : (s.modCore c f).saved = s.saved := rfl
@[simp] theorem State.modCore_fresh (s : State) (c : Nat) (f : CoreSt → CoreSt) : (s.modCore c f).fresh = s.fresh := rfl
@[simp] theorem State.modCore_agenda (s : State) (c : Nat) (f : CoreSt → CoreSt) : (s.modCore c f).agenda = s.agenda := rfl
@[simp] theorem State.modCore_cur (s : State) (c : Nat) (f : CoreSt → CoreSt) : (s.modCore c f).cur = s.cur := rfl
@[simp] theorem State.modCore_curSplit (s : State) (c : Nat) (f : CoreSt → CoreSt) : (s.modCore c f).curSplit = s.curSplit := rfl
@[simp] theorem State.modCore_turn (s : State) (c : Nat) (f : CoreSt → CoreSt) : (s.modCore c f).turn = s.turn := rfl
@[simp] theorem State.modCore_nextLaunch (s : State) (c : Nat) (f : CoreSt → CoreSt) : (s.modCore c f).nextLaunch = s.nextLaunch := rfl
@[simp] theorem State.modCore_nextId (s : State) (c : Nat) (f : CoreSt → CoreSt) : (s.modCore c f).nextId = s.nextId := rfl
@[simp] theorem State.modCore_free (s : State) (c : Nat) (f : CoreSt → CoreSt) : (s.modCore c f).free = s.free := rfl
@[simp] theorem State.modCore_hist (s : State) (c : Nat) (f : CoreSt → CoreSt) : (s.modCore c f).hist = s.hist := rfl
@[simp] theorem State.modCore_nextWrite (s : State) (c : Nat) (f : CoreSt → CoreSt) : (s.modCore c f).nextWrite = s.nextWrite := rfl
@[simp] theorem State.modCore_fences (s : State) (c : Nat) (f : CoreSt → CoreSt) : (s.modCore c f).fences = s.fences := rfl
@[simp] theorem State.modCore_tbRels (s : State) (c : Nat) (f : CoreSt → CoreSt) : (s.modCore c f).tbRels = s.tbRels := rfl
@[simp] theorem State.modCore_handleRels (s : State) (c : Nat) (f : CoreSt → CoreSt) : (s.modCore c f).handleRels = s.handleRels := rfl
@[simp] theorem State.modCore_hostReqs (s : State) (c : Nat) (f : CoreSt → CoreSt) : (s.modCore c f).hostReqs = s.hostReqs := rfl
@[simp] theorem State.modCore_older (s : State) (c : Nat) (f : CoreSt → CoreSt) : (s.modCore c f).older = s.older := rfl
@[simp] theorem State.modCore_loads (s : State) (c : Nat) (f : CoreSt → CoreSt) : (s.modCore c f).loads = s.loads := rfl
@[simp] theorem State.modCore_atoms (s : State) (c : Nat) (f : CoreSt → CoreSt) : (s.modCore c f).atoms = s.atoms := rfl
@[simp] theorem State.modCore_coolFrom (s : State) (c : Nat) (f : CoreSt → CoreSt) : (s.modCore c f).coolFrom = s.coolFrom := rfl

/-! ### State.modUnit -/

@[simp] theorem State.modUnit_groups (s : State) (c u : Nat) (f : MatUnit → MatUnit) : (s.modUnit c u f).groups = s.groups := rfl
@[simp] theorem State.modUnit_ctxs (s : State) (c u : Nat) (f : MatUnit → MatUnit) : (s.modUnit c u f).ctxs = s.ctxs := rfl
@[simp] theorem State.modUnit_cores (s : State) (c u : Nat) (f : MatUnit → MatUnit) : (s.modUnit c u f).cores = s.cores := rfl
@[simp] theorem State.modUnit_islands (s : State) (c u : Nat) (f : MatUnit → MatUnit) : (s.modUnit c u f).islands = s.islands := rfl
@[simp] theorem State.modUnit_dies (s : State) (c u : Nat) (f : MatUnit → MatUnit) : (s.modUnit c u f).dies = s.dies := rfl
@[simp] theorem State.modUnit_launches (s : State) (c u : Nat) (f : MatUnit → MatUnit) : (s.modUnit c u f).launches = s.launches := rfl
@[simp] theorem State.modUnit_threads (s : State) (c u : Nat) (f : MatUnit → MatUnit) : (s.modUnit c u f).threads = s.threads := rfl
@[simp] theorem State.modUnit_mem (s : State) (c u : Nat) (f : MatUnit → MatUnit) : (s.modUnit c u f).mem = s.mem := rfl
@[simp] theorem State.modUnit_tags (s : State) (c u : Nat) (f : MatUnit → MatUnit) : (s.modUnit c u f).tags = s.tags := rfl
@[simp] theorem State.modUnit_bad (s : State) (c u : Nat) (f : MatUnit → MatUnit) : (s.modUnit c u f).bad = s.bad := rfl
@[simp] theorem State.modUnit_stores (s : State) (c u : Nat) (f : MatUnit → MatUnit) : (s.modUnit c u f).stores = s.stores := rfl
@[simp] theorem State.modUnit_hostWrites (s : State) (c u : Nat) (f : MatUnit → MatUnit) : (s.modUnit c u f).hostWrites = s.hostWrites := rfl
@[simp] theorem State.modUnit_pushes (s : State) (c u : Nat) (f : MatUnit → MatUnit) : (s.modUnit c u f).pushes = s.pushes := rfl
@[simp] theorem State.modUnit_fabReqs (s : State) (c u : Nat) (f : MatUnit → MatUnit) : (s.modUnit c u f).fabReqs = s.fabReqs := rfl
@[simp] theorem State.modUnit_fabricOut (s : State) (c u : Nat) (f : MatUnit → MatUnit) : (s.modUnit c u f).fabricOut = s.fabricOut := rfl
@[simp] theorem State.modUnit_arenas (s : State) (c u : Nat) (f : MatUnit → MatUnit) : (s.modUnit c u f).arenas = s.arenas := rfl
@[simp] theorem State.modUnit_exports (s : State) (c u : Nat) (f : MatUnit → MatUnit) : (s.modUnit c u f).exports = s.exports := rfl
@[simp] theorem State.modUnit_exportPages (s : State) (c u : Nat) (f : MatUnit → MatUnit) : (s.modUnit c u f).exportPages = s.exportPages := rfl
@[simp] theorem State.modUnit_imports (s : State) (c u : Nat) (f : MatUnit → MatUnit) : (s.modUnit c u f).imports = s.imports := rfl
@[simp] theorem State.modUnit_slots (s : State) (c u : Nat) (f : MatUnit → MatUnit) : (s.modUnit c u f).slots = s.slots := rfl
@[simp] theorem State.modUnit_landings (s : State) (c u : Nat) (f : MatUnit → MatUnit) : (s.modUnit c u f).landings = s.landings := rfl
@[simp] theorem State.modUnit_inboxes (s : State) (c u : Nat) (f : MatUnit → MatUnit) : (s.modUnit c u f).inboxes = s.inboxes := rfl
@[simp] theorem State.modUnit_queues (s : State) (c u : Nat) (f : MatUnit → MatUnit) : (s.modUnit c u f).queues = s.queues := rfl
@[simp] theorem State.modUnit_regs (s : State) (c u : Nat) (f : MatUnit → MatUnit) : (s.modUnit c u f).regs = s.regs := rfl
@[simp] theorem State.modUnit_msix (s : State) (c u : Nat) (f : MatUnit → MatUnit) : (s.modUnit c u f).msix = s.msix := rfl
@[simp] theorem State.modUnit_hostRead (s : State) (c u : Nat) (f : MatUnit → MatUnit) : (s.modUnit c u f).hostRead = s.hostRead := rfl
@[simp] theorem State.modUnit_melt (s : State) (c u : Nat) (f : MatUnit → MatUnit) : (s.modUnit c u f).melt = s.melt := rfl
@[simp] theorem State.modUnit_refreeze (s : State) (c u : Nat) (f : MatUnit → MatUnit) : (s.modUnit c u f).refreeze = s.refreeze := rfl
@[simp] theorem State.modUnit_gate (s : State) (c u : Nat) (f : MatUnit → MatUnit) : (s.modUnit c u f).gate = s.gate := rfl
@[simp] theorem State.modUnit_failedLinks (s : State) (c u : Nat) (f : MatUnit → MatUnit) : (s.modUnit c u f).failedLinks = s.failedLinks := rfl
@[simp] theorem State.modUnit_cxlDown (s : State) (c u : Nat) (f : MatUnit → MatUnit) : (s.modUnit c u f).cxlDown = s.cxlDown := rfl
@[simp] theorem State.modUnit_heldExtents (s : State) (c u : Nat) (f : MatUnit → MatUnit) : (s.modUnit c u f).heldExtents = s.heldExtents := rfl
@[simp] theorem State.modUnit_saved (s : State) (c u : Nat) (f : MatUnit → MatUnit) : (s.modUnit c u f).saved = s.saved := rfl
@[simp] theorem State.modUnit_fresh (s : State) (c u : Nat) (f : MatUnit → MatUnit) : (s.modUnit c u f).fresh = s.fresh := rfl
@[simp] theorem State.modUnit_agenda (s : State) (c u : Nat) (f : MatUnit → MatUnit) : (s.modUnit c u f).agenda = s.agenda := rfl
@[simp] theorem State.modUnit_cur (s : State) (c u : Nat) (f : MatUnit → MatUnit) : (s.modUnit c u f).cur = s.cur := rfl
@[simp] theorem State.modUnit_curSplit (s : State) (c u : Nat) (f : MatUnit → MatUnit) : (s.modUnit c u f).curSplit = s.curSplit := rfl
@[simp] theorem State.modUnit_turn (s : State) (c u : Nat) (f : MatUnit → MatUnit) : (s.modUnit c u f).turn = s.turn := rfl
@[simp] theorem State.modUnit_nextLaunch (s : State) (c u : Nat) (f : MatUnit → MatUnit) : (s.modUnit c u f).nextLaunch = s.nextLaunch := rfl
@[simp] theorem State.modUnit_nextId (s : State) (c u : Nat) (f : MatUnit → MatUnit) : (s.modUnit c u f).nextId = s.nextId := rfl
@[simp] theorem State.modUnit_free (s : State) (c u : Nat) (f : MatUnit → MatUnit) : (s.modUnit c u f).free = s.free := rfl
@[simp] theorem State.modUnit_hist (s : State) (c u : Nat) (f : MatUnit → MatUnit) : (s.modUnit c u f).hist = s.hist := rfl
@[simp] theorem State.modUnit_nextWrite (s : State) (c u : Nat) (f : MatUnit → MatUnit) : (s.modUnit c u f).nextWrite = s.nextWrite := rfl
@[simp] theorem State.modUnit_fences (s : State) (c u : Nat) (f : MatUnit → MatUnit) : (s.modUnit c u f).fences = s.fences := rfl
@[simp] theorem State.modUnit_tbRels (s : State) (c u : Nat) (f : MatUnit → MatUnit) : (s.modUnit c u f).tbRels = s.tbRels := rfl
@[simp] theorem State.modUnit_handleRels (s : State) (c u : Nat) (f : MatUnit → MatUnit) : (s.modUnit c u f).handleRels = s.handleRels := rfl
@[simp] theorem State.modUnit_hostReqs (s : State) (c u : Nat) (f : MatUnit → MatUnit) : (s.modUnit c u f).hostReqs = s.hostReqs := rfl
@[simp] theorem State.modUnit_older (s : State) (c u : Nat) (f : MatUnit → MatUnit) : (s.modUnit c u f).older = s.older := rfl
@[simp] theorem State.modUnit_loads (s : State) (c u : Nat) (f : MatUnit → MatUnit) : (s.modUnit c u f).loads = s.loads := rfl
@[simp] theorem State.modUnit_atoms (s : State) (c u : Nat) (f : MatUnit → MatUnit) : (s.modUnit c u f).atoms = s.atoms := rfl
@[simp] theorem State.modUnit_coolFrom (s : State) (c u : Nat) (f : MatUnit → MatUnit) : (s.modUnit c u f).coolFrom = s.coolFrom := rfl

/-! ### State.mapUnits -/

@[simp] theorem State.mapUnits_groups (s : State) (f : MatUnit → MatUnit) : (s.mapUnits f).groups = s.groups := rfl
@[simp] theorem State.mapUnits_ctxs (s : State) (f : MatUnit → MatUnit) : (s.mapUnits f).ctxs = s.ctxs := rfl
@[simp] theorem State.mapUnits_cores (s : State) (f : MatUnit → MatUnit) : (s.mapUnits f).cores = s.cores := rfl
@[simp] theorem State.mapUnits_islands (s : State) (f : MatUnit → MatUnit) : (s.mapUnits f).islands = s.islands := rfl
@[simp] theorem State.mapUnits_dies (s : State) (f : MatUnit → MatUnit) : (s.mapUnits f).dies = s.dies := rfl
@[simp] theorem State.mapUnits_launches (s : State) (f : MatUnit → MatUnit) : (s.mapUnits f).launches = s.launches := rfl
@[simp] theorem State.mapUnits_threads (s : State) (f : MatUnit → MatUnit) : (s.mapUnits f).threads = s.threads := rfl
@[simp] theorem State.mapUnits_mem (s : State) (f : MatUnit → MatUnit) : (s.mapUnits f).mem = s.mem := rfl
@[simp] theorem State.mapUnits_tags (s : State) (f : MatUnit → MatUnit) : (s.mapUnits f).tags = s.tags := rfl
@[simp] theorem State.mapUnits_bad (s : State) (f : MatUnit → MatUnit) : (s.mapUnits f).bad = s.bad := rfl
@[simp] theorem State.mapUnits_stores (s : State) (f : MatUnit → MatUnit) : (s.mapUnits f).stores = s.stores := rfl
@[simp] theorem State.mapUnits_hostWrites (s : State) (f : MatUnit → MatUnit) : (s.mapUnits f).hostWrites = s.hostWrites := rfl
@[simp] theorem State.mapUnits_pushes (s : State) (f : MatUnit → MatUnit) : (s.mapUnits f).pushes = s.pushes := rfl
@[simp] theorem State.mapUnits_fabReqs (s : State) (f : MatUnit → MatUnit) : (s.mapUnits f).fabReqs = s.fabReqs := rfl
@[simp] theorem State.mapUnits_fabricOut (s : State) (f : MatUnit → MatUnit) : (s.mapUnits f).fabricOut = s.fabricOut := rfl
@[simp] theorem State.mapUnits_arenas (s : State) (f : MatUnit → MatUnit) : (s.mapUnits f).arenas = s.arenas := rfl
@[simp] theorem State.mapUnits_exports (s : State) (f : MatUnit → MatUnit) : (s.mapUnits f).exports = s.exports := rfl
@[simp] theorem State.mapUnits_exportPages (s : State) (f : MatUnit → MatUnit) : (s.mapUnits f).exportPages = s.exportPages := rfl
@[simp] theorem State.mapUnits_imports (s : State) (f : MatUnit → MatUnit) : (s.mapUnits f).imports = s.imports := rfl
@[simp] theorem State.mapUnits_slots (s : State) (f : MatUnit → MatUnit) : (s.mapUnits f).slots = s.slots := rfl
@[simp] theorem State.mapUnits_landings (s : State) (f : MatUnit → MatUnit) : (s.mapUnits f).landings = s.landings := rfl
@[simp] theorem State.mapUnits_inboxes (s : State) (f : MatUnit → MatUnit) : (s.mapUnits f).inboxes = s.inboxes := rfl
@[simp] theorem State.mapUnits_queues (s : State) (f : MatUnit → MatUnit) : (s.mapUnits f).queues = s.queues := rfl
@[simp] theorem State.mapUnits_regs (s : State) (f : MatUnit → MatUnit) : (s.mapUnits f).regs = s.regs := rfl
@[simp] theorem State.mapUnits_msix (s : State) (f : MatUnit → MatUnit) : (s.mapUnits f).msix = s.msix := rfl
@[simp] theorem State.mapUnits_hostRead (s : State) (f : MatUnit → MatUnit) : (s.mapUnits f).hostRead = s.hostRead := rfl
@[simp] theorem State.mapUnits_melt (s : State) (f : MatUnit → MatUnit) : (s.mapUnits f).melt = s.melt := rfl
@[simp] theorem State.mapUnits_refreeze (s : State) (f : MatUnit → MatUnit) : (s.mapUnits f).refreeze = s.refreeze := rfl
@[simp] theorem State.mapUnits_gate (s : State) (f : MatUnit → MatUnit) : (s.mapUnits f).gate = s.gate := rfl
@[simp] theorem State.mapUnits_failedLinks (s : State) (f : MatUnit → MatUnit) : (s.mapUnits f).failedLinks = s.failedLinks := rfl
@[simp] theorem State.mapUnits_cxlDown (s : State) (f : MatUnit → MatUnit) : (s.mapUnits f).cxlDown = s.cxlDown := rfl
@[simp] theorem State.mapUnits_heldExtents (s : State) (f : MatUnit → MatUnit) : (s.mapUnits f).heldExtents = s.heldExtents := rfl
@[simp] theorem State.mapUnits_saved (s : State) (f : MatUnit → MatUnit) : (s.mapUnits f).saved = s.saved := rfl
@[simp] theorem State.mapUnits_fresh (s : State) (f : MatUnit → MatUnit) : (s.mapUnits f).fresh = s.fresh := rfl
@[simp] theorem State.mapUnits_agenda (s : State) (f : MatUnit → MatUnit) : (s.mapUnits f).agenda = s.agenda := rfl
@[simp] theorem State.mapUnits_cur (s : State) (f : MatUnit → MatUnit) : (s.mapUnits f).cur = s.cur := rfl
@[simp] theorem State.mapUnits_curSplit (s : State) (f : MatUnit → MatUnit) : (s.mapUnits f).curSplit = s.curSplit := rfl
@[simp] theorem State.mapUnits_turn (s : State) (f : MatUnit → MatUnit) : (s.mapUnits f).turn = s.turn := rfl
@[simp] theorem State.mapUnits_nextLaunch (s : State) (f : MatUnit → MatUnit) : (s.mapUnits f).nextLaunch = s.nextLaunch := rfl
@[simp] theorem State.mapUnits_nextId (s : State) (f : MatUnit → MatUnit) : (s.mapUnits f).nextId = s.nextId := rfl
@[simp] theorem State.mapUnits_free (s : State) (f : MatUnit → MatUnit) : (s.mapUnits f).free = s.free := rfl
@[simp] theorem State.mapUnits_hist (s : State) (f : MatUnit → MatUnit) : (s.mapUnits f).hist = s.hist := rfl
@[simp] theorem State.mapUnits_nextWrite (s : State) (f : MatUnit → MatUnit) : (s.mapUnits f).nextWrite = s.nextWrite := rfl
@[simp] theorem State.mapUnits_fences (s : State) (f : MatUnit → MatUnit) : (s.mapUnits f).fences = s.fences := rfl
@[simp] theorem State.mapUnits_tbRels (s : State) (f : MatUnit → MatUnit) : (s.mapUnits f).tbRels = s.tbRels := rfl
@[simp] theorem State.mapUnits_handleRels (s : State) (f : MatUnit → MatUnit) : (s.mapUnits f).handleRels = s.handleRels := rfl
@[simp] theorem State.mapUnits_hostReqs (s : State) (f : MatUnit → MatUnit) : (s.mapUnits f).hostReqs = s.hostReqs := rfl
@[simp] theorem State.mapUnits_older (s : State) (f : MatUnit → MatUnit) : (s.mapUnits f).older = s.older := rfl
@[simp] theorem State.mapUnits_loads (s : State) (f : MatUnit → MatUnit) : (s.mapUnits f).loads = s.loads := rfl
@[simp] theorem State.mapUnits_atoms (s : State) (f : MatUnit → MatUnit) : (s.mapUnits f).atoms = s.atoms := rfl
@[simp] theorem State.mapUnits_coolFrom (s : State) (f : MatUnit → MatUnit) : (s.mapUnits f).coolFrom = s.coolFrom := rfl

/-! ### State.modIsland -/

@[simp] theorem State.modIsland_groups (s : State) (i : Nat) (f : Island → Island) : (s.modIsland i f).groups = s.groups := rfl
@[simp] theorem State.modIsland_ctxs (s : State) (i : Nat) (f : Island → Island) : (s.modIsland i f).ctxs = s.ctxs := rfl
@[simp] theorem State.modIsland_cores (s : State) (i : Nat) (f : Island → Island) : (s.modIsland i f).cores = s.cores := rfl
@[simp] theorem State.modIsland_units (s : State) (i : Nat) (f : Island → Island) : (s.modIsland i f).units = s.units := rfl
@[simp] theorem State.modIsland_dies (s : State) (i : Nat) (f : Island → Island) : (s.modIsland i f).dies = s.dies := rfl
@[simp] theorem State.modIsland_launches (s : State) (i : Nat) (f : Island → Island) : (s.modIsland i f).launches = s.launches := rfl
@[simp] theorem State.modIsland_threads (s : State) (i : Nat) (f : Island → Island) : (s.modIsland i f).threads = s.threads := rfl
@[simp] theorem State.modIsland_mem (s : State) (i : Nat) (f : Island → Island) : (s.modIsland i f).mem = s.mem := rfl
@[simp] theorem State.modIsland_tags (s : State) (i : Nat) (f : Island → Island) : (s.modIsland i f).tags = s.tags := rfl
@[simp] theorem State.modIsland_bad (s : State) (i : Nat) (f : Island → Island) : (s.modIsland i f).bad = s.bad := rfl
@[simp] theorem State.modIsland_stores (s : State) (i : Nat) (f : Island → Island) : (s.modIsland i f).stores = s.stores := rfl
@[simp] theorem State.modIsland_hostWrites (s : State) (i : Nat) (f : Island → Island) : (s.modIsland i f).hostWrites = s.hostWrites := rfl
@[simp] theorem State.modIsland_pushes (s : State) (i : Nat) (f : Island → Island) : (s.modIsland i f).pushes = s.pushes := rfl
@[simp] theorem State.modIsland_fabReqs (s : State) (i : Nat) (f : Island → Island) : (s.modIsland i f).fabReqs = s.fabReqs := rfl
@[simp] theorem State.modIsland_fabricOut (s : State) (i : Nat) (f : Island → Island) : (s.modIsland i f).fabricOut = s.fabricOut := rfl
@[simp] theorem State.modIsland_arenas (s : State) (i : Nat) (f : Island → Island) : (s.modIsland i f).arenas = s.arenas := rfl
@[simp] theorem State.modIsland_exports (s : State) (i : Nat) (f : Island → Island) : (s.modIsland i f).exports = s.exports := rfl
@[simp] theorem State.modIsland_exportPages (s : State) (i : Nat) (f : Island → Island) : (s.modIsland i f).exportPages = s.exportPages := rfl
@[simp] theorem State.modIsland_imports (s : State) (i : Nat) (f : Island → Island) : (s.modIsland i f).imports = s.imports := rfl
@[simp] theorem State.modIsland_slots (s : State) (i : Nat) (f : Island → Island) : (s.modIsland i f).slots = s.slots := rfl
@[simp] theorem State.modIsland_landings (s : State) (i : Nat) (f : Island → Island) : (s.modIsland i f).landings = s.landings := rfl
@[simp] theorem State.modIsland_inboxes (s : State) (i : Nat) (f : Island → Island) : (s.modIsland i f).inboxes = s.inboxes := rfl
@[simp] theorem State.modIsland_queues (s : State) (i : Nat) (f : Island → Island) : (s.modIsland i f).queues = s.queues := rfl
@[simp] theorem State.modIsland_regs (s : State) (i : Nat) (f : Island → Island) : (s.modIsland i f).regs = s.regs := rfl
@[simp] theorem State.modIsland_msix (s : State) (i : Nat) (f : Island → Island) : (s.modIsland i f).msix = s.msix := rfl
@[simp] theorem State.modIsland_hostRead (s : State) (i : Nat) (f : Island → Island) : (s.modIsland i f).hostRead = s.hostRead := rfl
@[simp] theorem State.modIsland_melt (s : State) (i : Nat) (f : Island → Island) : (s.modIsland i f).melt = s.melt := rfl
@[simp] theorem State.modIsland_refreeze (s : State) (i : Nat) (f : Island → Island) : (s.modIsland i f).refreeze = s.refreeze := rfl
@[simp] theorem State.modIsland_gate (s : State) (i : Nat) (f : Island → Island) : (s.modIsland i f).gate = s.gate := rfl
@[simp] theorem State.modIsland_failedLinks (s : State) (i : Nat) (f : Island → Island) : (s.modIsland i f).failedLinks = s.failedLinks := rfl
@[simp] theorem State.modIsland_cxlDown (s : State) (i : Nat) (f : Island → Island) : (s.modIsland i f).cxlDown = s.cxlDown := rfl
@[simp] theorem State.modIsland_heldExtents (s : State) (i : Nat) (f : Island → Island) : (s.modIsland i f).heldExtents = s.heldExtents := rfl
@[simp] theorem State.modIsland_saved (s : State) (i : Nat) (f : Island → Island) : (s.modIsland i f).saved = s.saved := rfl
@[simp] theorem State.modIsland_fresh (s : State) (i : Nat) (f : Island → Island) : (s.modIsland i f).fresh = s.fresh := rfl
@[simp] theorem State.modIsland_agenda (s : State) (i : Nat) (f : Island → Island) : (s.modIsland i f).agenda = s.agenda := rfl
@[simp] theorem State.modIsland_cur (s : State) (i : Nat) (f : Island → Island) : (s.modIsland i f).cur = s.cur := rfl
@[simp] theorem State.modIsland_curSplit (s : State) (i : Nat) (f : Island → Island) : (s.modIsland i f).curSplit = s.curSplit := rfl
@[simp] theorem State.modIsland_turn (s : State) (i : Nat) (f : Island → Island) : (s.modIsland i f).turn = s.turn := rfl
@[simp] theorem State.modIsland_nextLaunch (s : State) (i : Nat) (f : Island → Island) : (s.modIsland i f).nextLaunch = s.nextLaunch := rfl
@[simp] theorem State.modIsland_nextId (s : State) (i : Nat) (f : Island → Island) : (s.modIsland i f).nextId = s.nextId := rfl
@[simp] theorem State.modIsland_free (s : State) (i : Nat) (f : Island → Island) : (s.modIsland i f).free = s.free := rfl
@[simp] theorem State.modIsland_hist (s : State) (i : Nat) (f : Island → Island) : (s.modIsland i f).hist = s.hist := rfl
@[simp] theorem State.modIsland_nextWrite (s : State) (i : Nat) (f : Island → Island) : (s.modIsland i f).nextWrite = s.nextWrite := rfl
@[simp] theorem State.modIsland_fences (s : State) (i : Nat) (f : Island → Island) : (s.modIsland i f).fences = s.fences := rfl
@[simp] theorem State.modIsland_tbRels (s : State) (i : Nat) (f : Island → Island) : (s.modIsland i f).tbRels = s.tbRels := rfl
@[simp] theorem State.modIsland_handleRels (s : State) (i : Nat) (f : Island → Island) : (s.modIsland i f).handleRels = s.handleRels := rfl
@[simp] theorem State.modIsland_hostReqs (s : State) (i : Nat) (f : Island → Island) : (s.modIsland i f).hostReqs = s.hostReqs := rfl
@[simp] theorem State.modIsland_older (s : State) (i : Nat) (f : Island → Island) : (s.modIsland i f).older = s.older := rfl
@[simp] theorem State.modIsland_loads (s : State) (i : Nat) (f : Island → Island) : (s.modIsland i f).loads = s.loads := rfl
@[simp] theorem State.modIsland_atoms (s : State) (i : Nat) (f : Island → Island) : (s.modIsland i f).atoms = s.atoms := rfl
@[simp] theorem State.modIsland_coolFrom (s : State) (i : Nat) (f : Island → Island) : (s.modIsland i f).coolFrom = s.coolFrom := rfl

/-! ### State.modDie -/

@[simp] theorem State.modDie_groups (s : State) (d : Nat) (f : Die → Die) : (s.modDie d f).groups = s.groups := rfl
@[simp] theorem State.modDie_ctxs (s : State) (d : Nat) (f : Die → Die) : (s.modDie d f).ctxs = s.ctxs := rfl
@[simp] theorem State.modDie_cores (s : State) (d : Nat) (f : Die → Die) : (s.modDie d f).cores = s.cores := rfl
@[simp] theorem State.modDie_units (s : State) (d : Nat) (f : Die → Die) : (s.modDie d f).units = s.units := rfl
@[simp] theorem State.modDie_islands (s : State) (d : Nat) (f : Die → Die) : (s.modDie d f).islands = s.islands := rfl
@[simp] theorem State.modDie_launches (s : State) (d : Nat) (f : Die → Die) : (s.modDie d f).launches = s.launches := rfl
@[simp] theorem State.modDie_threads (s : State) (d : Nat) (f : Die → Die) : (s.modDie d f).threads = s.threads := rfl
@[simp] theorem State.modDie_mem (s : State) (d : Nat) (f : Die → Die) : (s.modDie d f).mem = s.mem := rfl
@[simp] theorem State.modDie_tags (s : State) (d : Nat) (f : Die → Die) : (s.modDie d f).tags = s.tags := rfl
@[simp] theorem State.modDie_bad (s : State) (d : Nat) (f : Die → Die) : (s.modDie d f).bad = s.bad := rfl
@[simp] theorem State.modDie_stores (s : State) (d : Nat) (f : Die → Die) : (s.modDie d f).stores = s.stores := rfl
@[simp] theorem State.modDie_hostWrites (s : State) (d : Nat) (f : Die → Die) : (s.modDie d f).hostWrites = s.hostWrites := rfl
@[simp] theorem State.modDie_pushes (s : State) (d : Nat) (f : Die → Die) : (s.modDie d f).pushes = s.pushes := rfl
@[simp] theorem State.modDie_fabReqs (s : State) (d : Nat) (f : Die → Die) : (s.modDie d f).fabReqs = s.fabReqs := rfl
@[simp] theorem State.modDie_fabricOut (s : State) (d : Nat) (f : Die → Die) : (s.modDie d f).fabricOut = s.fabricOut := rfl
@[simp] theorem State.modDie_arenas (s : State) (d : Nat) (f : Die → Die) : (s.modDie d f).arenas = s.arenas := rfl
@[simp] theorem State.modDie_exports (s : State) (d : Nat) (f : Die → Die) : (s.modDie d f).exports = s.exports := rfl
@[simp] theorem State.modDie_exportPages (s : State) (d : Nat) (f : Die → Die) : (s.modDie d f).exportPages = s.exportPages := rfl
@[simp] theorem State.modDie_imports (s : State) (d : Nat) (f : Die → Die) : (s.modDie d f).imports = s.imports := rfl
@[simp] theorem State.modDie_slots (s : State) (d : Nat) (f : Die → Die) : (s.modDie d f).slots = s.slots := rfl
@[simp] theorem State.modDie_landings (s : State) (d : Nat) (f : Die → Die) : (s.modDie d f).landings = s.landings := rfl
@[simp] theorem State.modDie_inboxes (s : State) (d : Nat) (f : Die → Die) : (s.modDie d f).inboxes = s.inboxes := rfl
@[simp] theorem State.modDie_queues (s : State) (d : Nat) (f : Die → Die) : (s.modDie d f).queues = s.queues := rfl
@[simp] theorem State.modDie_regs (s : State) (d : Nat) (f : Die → Die) : (s.modDie d f).regs = s.regs := rfl
@[simp] theorem State.modDie_msix (s : State) (d : Nat) (f : Die → Die) : (s.modDie d f).msix = s.msix := rfl
@[simp] theorem State.modDie_hostRead (s : State) (d : Nat) (f : Die → Die) : (s.modDie d f).hostRead = s.hostRead := rfl
@[simp] theorem State.modDie_melt (s : State) (d : Nat) (f : Die → Die) : (s.modDie d f).melt = s.melt := rfl
@[simp] theorem State.modDie_refreeze (s : State) (d : Nat) (f : Die → Die) : (s.modDie d f).refreeze = s.refreeze := rfl
@[simp] theorem State.modDie_gate (s : State) (d : Nat) (f : Die → Die) : (s.modDie d f).gate = s.gate := rfl
@[simp] theorem State.modDie_failedLinks (s : State) (d : Nat) (f : Die → Die) : (s.modDie d f).failedLinks = s.failedLinks := rfl
@[simp] theorem State.modDie_cxlDown (s : State) (d : Nat) (f : Die → Die) : (s.modDie d f).cxlDown = s.cxlDown := rfl
@[simp] theorem State.modDie_heldExtents (s : State) (d : Nat) (f : Die → Die) : (s.modDie d f).heldExtents = s.heldExtents := rfl
@[simp] theorem State.modDie_saved (s : State) (d : Nat) (f : Die → Die) : (s.modDie d f).saved = s.saved := rfl
@[simp] theorem State.modDie_fresh (s : State) (d : Nat) (f : Die → Die) : (s.modDie d f).fresh = s.fresh := rfl
@[simp] theorem State.modDie_agenda (s : State) (d : Nat) (f : Die → Die) : (s.modDie d f).agenda = s.agenda := rfl
@[simp] theorem State.modDie_cur (s : State) (d : Nat) (f : Die → Die) : (s.modDie d f).cur = s.cur := rfl
@[simp] theorem State.modDie_curSplit (s : State) (d : Nat) (f : Die → Die) : (s.modDie d f).curSplit = s.curSplit := rfl
@[simp] theorem State.modDie_turn (s : State) (d : Nat) (f : Die → Die) : (s.modDie d f).turn = s.turn := rfl
@[simp] theorem State.modDie_nextLaunch (s : State) (d : Nat) (f : Die → Die) : (s.modDie d f).nextLaunch = s.nextLaunch := rfl
@[simp] theorem State.modDie_nextId (s : State) (d : Nat) (f : Die → Die) : (s.modDie d f).nextId = s.nextId := rfl
@[simp] theorem State.modDie_free (s : State) (d : Nat) (f : Die → Die) : (s.modDie d f).free = s.free := rfl
@[simp] theorem State.modDie_hist (s : State) (d : Nat) (f : Die → Die) : (s.modDie d f).hist = s.hist := rfl
@[simp] theorem State.modDie_nextWrite (s : State) (d : Nat) (f : Die → Die) : (s.modDie d f).nextWrite = s.nextWrite := rfl
@[simp] theorem State.modDie_fences (s : State) (d : Nat) (f : Die → Die) : (s.modDie d f).fences = s.fences := rfl
@[simp] theorem State.modDie_tbRels (s : State) (d : Nat) (f : Die → Die) : (s.modDie d f).tbRels = s.tbRels := rfl
@[simp] theorem State.modDie_handleRels (s : State) (d : Nat) (f : Die → Die) : (s.modDie d f).handleRels = s.handleRels := rfl
@[simp] theorem State.modDie_hostReqs (s : State) (d : Nat) (f : Die → Die) : (s.modDie d f).hostReqs = s.hostReqs := rfl
@[simp] theorem State.modDie_older (s : State) (d : Nat) (f : Die → Die) : (s.modDie d f).older = s.older := rfl
@[simp] theorem State.modDie_loads (s : State) (d : Nat) (f : Die → Die) : (s.modDie d f).loads = s.loads := rfl
@[simp] theorem State.modDie_atoms (s : State) (d : Nat) (f : Die → Die) : (s.modDie d f).atoms = s.atoms := rfl
@[simp] theorem State.modDie_coolFrom (s : State) (d : Nat) (f : Die → Die) : (s.modDie d f).coolFrom = s.coolFrom := rfl

/-! ### State.modThread -/

@[simp] theorem State.modThread_groups (s : State) (t : Nat) (f : Thread → Thread) : (s.modThread t f).groups = s.groups := rfl
@[simp] theorem State.modThread_ctxs (s : State) (t : Nat) (f : Thread → Thread) : (s.modThread t f).ctxs = s.ctxs := rfl
@[simp] theorem State.modThread_cores (s : State) (t : Nat) (f : Thread → Thread) : (s.modThread t f).cores = s.cores := rfl
@[simp] theorem State.modThread_units (s : State) (t : Nat) (f : Thread → Thread) : (s.modThread t f).units = s.units := rfl
@[simp] theorem State.modThread_islands (s : State) (t : Nat) (f : Thread → Thread) : (s.modThread t f).islands = s.islands := rfl
@[simp] theorem State.modThread_dies (s : State) (t : Nat) (f : Thread → Thread) : (s.modThread t f).dies = s.dies := rfl
@[simp] theorem State.modThread_launches (s : State) (t : Nat) (f : Thread → Thread) : (s.modThread t f).launches = s.launches := rfl
@[simp] theorem State.modThread_mem (s : State) (t : Nat) (f : Thread → Thread) : (s.modThread t f).mem = s.mem := rfl
@[simp] theorem State.modThread_tags (s : State) (t : Nat) (f : Thread → Thread) : (s.modThread t f).tags = s.tags := rfl
@[simp] theorem State.modThread_bad (s : State) (t : Nat) (f : Thread → Thread) : (s.modThread t f).bad = s.bad := rfl
@[simp] theorem State.modThread_stores (s : State) (t : Nat) (f : Thread → Thread) : (s.modThread t f).stores = s.stores := rfl
@[simp] theorem State.modThread_hostWrites (s : State) (t : Nat) (f : Thread → Thread) : (s.modThread t f).hostWrites = s.hostWrites := rfl
@[simp] theorem State.modThread_pushes (s : State) (t : Nat) (f : Thread → Thread) : (s.modThread t f).pushes = s.pushes := rfl
@[simp] theorem State.modThread_fabReqs (s : State) (t : Nat) (f : Thread → Thread) : (s.modThread t f).fabReqs = s.fabReqs := rfl
@[simp] theorem State.modThread_fabricOut (s : State) (t : Nat) (f : Thread → Thread) : (s.modThread t f).fabricOut = s.fabricOut := rfl
@[simp] theorem State.modThread_arenas (s : State) (t : Nat) (f : Thread → Thread) : (s.modThread t f).arenas = s.arenas := rfl
@[simp] theorem State.modThread_exports (s : State) (t : Nat) (f : Thread → Thread) : (s.modThread t f).exports = s.exports := rfl
@[simp] theorem State.modThread_exportPages (s : State) (t : Nat) (f : Thread → Thread) : (s.modThread t f).exportPages = s.exportPages := rfl
@[simp] theorem State.modThread_imports (s : State) (t : Nat) (f : Thread → Thread) : (s.modThread t f).imports = s.imports := rfl
@[simp] theorem State.modThread_slots (s : State) (t : Nat) (f : Thread → Thread) : (s.modThread t f).slots = s.slots := rfl
@[simp] theorem State.modThread_landings (s : State) (t : Nat) (f : Thread → Thread) : (s.modThread t f).landings = s.landings := rfl
@[simp] theorem State.modThread_inboxes (s : State) (t : Nat) (f : Thread → Thread) : (s.modThread t f).inboxes = s.inboxes := rfl
@[simp] theorem State.modThread_queues (s : State) (t : Nat) (f : Thread → Thread) : (s.modThread t f).queues = s.queues := rfl
@[simp] theorem State.modThread_regs (s : State) (t : Nat) (f : Thread → Thread) : (s.modThread t f).regs = s.regs := rfl
@[simp] theorem State.modThread_msix (s : State) (t : Nat) (f : Thread → Thread) : (s.modThread t f).msix = s.msix := rfl
@[simp] theorem State.modThread_hostRead (s : State) (t : Nat) (f : Thread → Thread) : (s.modThread t f).hostRead = s.hostRead := rfl
@[simp] theorem State.modThread_melt (s : State) (t : Nat) (f : Thread → Thread) : (s.modThread t f).melt = s.melt := rfl
@[simp] theorem State.modThread_refreeze (s : State) (t : Nat) (f : Thread → Thread) : (s.modThread t f).refreeze = s.refreeze := rfl
@[simp] theorem State.modThread_gate (s : State) (t : Nat) (f : Thread → Thread) : (s.modThread t f).gate = s.gate := rfl
@[simp] theorem State.modThread_failedLinks (s : State) (t : Nat) (f : Thread → Thread) : (s.modThread t f).failedLinks = s.failedLinks := rfl
@[simp] theorem State.modThread_cxlDown (s : State) (t : Nat) (f : Thread → Thread) : (s.modThread t f).cxlDown = s.cxlDown := rfl
@[simp] theorem State.modThread_heldExtents (s : State) (t : Nat) (f : Thread → Thread) : (s.modThread t f).heldExtents = s.heldExtents := rfl
@[simp] theorem State.modThread_saved (s : State) (t : Nat) (f : Thread → Thread) : (s.modThread t f).saved = s.saved := rfl
@[simp] theorem State.modThread_fresh (s : State) (t : Nat) (f : Thread → Thread) : (s.modThread t f).fresh = s.fresh := rfl
@[simp] theorem State.modThread_agenda (s : State) (t : Nat) (f : Thread → Thread) : (s.modThread t f).agenda = s.agenda := rfl
@[simp] theorem State.modThread_cur (s : State) (t : Nat) (f : Thread → Thread) : (s.modThread t f).cur = s.cur := rfl
@[simp] theorem State.modThread_curSplit (s : State) (t : Nat) (f : Thread → Thread) : (s.modThread t f).curSplit = s.curSplit := rfl
@[simp] theorem State.modThread_turn (s : State) (t : Nat) (f : Thread → Thread) : (s.modThread t f).turn = s.turn := rfl
@[simp] theorem State.modThread_nextLaunch (s : State) (t : Nat) (f : Thread → Thread) : (s.modThread t f).nextLaunch = s.nextLaunch := rfl
@[simp] theorem State.modThread_nextId (s : State) (t : Nat) (f : Thread → Thread) : (s.modThread t f).nextId = s.nextId := rfl
@[simp] theorem State.modThread_free (s : State) (t : Nat) (f : Thread → Thread) : (s.modThread t f).free = s.free := rfl
@[simp] theorem State.modThread_hist (s : State) (t : Nat) (f : Thread → Thread) : (s.modThread t f).hist = s.hist := rfl
@[simp] theorem State.modThread_nextWrite (s : State) (t : Nat) (f : Thread → Thread) : (s.modThread t f).nextWrite = s.nextWrite := rfl
@[simp] theorem State.modThread_fences (s : State) (t : Nat) (f : Thread → Thread) : (s.modThread t f).fences = s.fences := rfl
@[simp] theorem State.modThread_tbRels (s : State) (t : Nat) (f : Thread → Thread) : (s.modThread t f).tbRels = s.tbRels := rfl
@[simp] theorem State.modThread_handleRels (s : State) (t : Nat) (f : Thread → Thread) : (s.modThread t f).handleRels = s.handleRels := rfl
@[simp] theorem State.modThread_hostReqs (s : State) (t : Nat) (f : Thread → Thread) : (s.modThread t f).hostReqs = s.hostReqs := rfl
@[simp] theorem State.modThread_older (s : State) (t : Nat) (f : Thread → Thread) : (s.modThread t f).older = s.older := rfl
@[simp] theorem State.modThread_loads (s : State) (t : Nat) (f : Thread → Thread) : (s.modThread t f).loads = s.loads := rfl
@[simp] theorem State.modThread_atoms (s : State) (t : Nat) (f : Thread → Thread) : (s.modThread t f).atoms = s.atoms := rfl
@[simp] theorem State.modThread_coolFrom (s : State) (t : Nat) (f : Thread → Thread) : (s.modThread t f).coolFrom = s.coolFrom := rfl

/-! ### What an update puts there -/

@[simp] theorem State.group?_modGroup (s : State) (k k' : Nat) (f : Group → Group) :
    (s.modGroup k f).group? k' = if k' = k then (s.group? k).map f else s.group? k' := Map.find?_adjust ..

@[simp] theorem State.group?_setGroup (s : State) (k k' : Nat) (g : Group) :
    (s.setGroup k g).group? k' = if k' = k then some g else s.group? k' := Map.find?_ins ..

@[simp] theorem State.group?_modSplit (s : State) (k j k' : Nat) (f : Split → Split) :
    (s.modSplit k j f).group? k' = if k' = k then (s.group? k).map (·.modSplit j f) else s.group? k' :=
  Map.find?_adjust ..

@[simp] theorem State.launch?_modLaunch (s : State) (l l' : Nat) (f : Launch → Launch) :
    (s.modLaunch l f).launch? l' = if l' = l then (s.launch? l).map f else s.launch? l' := Map.find?_adjust ..

@[simp] theorem State.ctx?_modCtx (s : State) (l c l' c' : Nat) (f : Ctx → Ctx) :
    (s.modCtx l c f).ctx? l' c' = if ckey l' c' = ckey l c then (s.ctx? l c).map f else s.ctx? l' c' :=
  Map.find?_adjust ..

@[simp] theorem State.coreOf_modCore (s : State) (c c' : Nat) (f : CoreSt → CoreSt) :
    (s.modCore c f).coreOf c' = if c' = c then f (s.coreOf c) else s.coreOf c' := Map.get_put ..

@[simp] theorem State.unitOf_modUnit (s : State) (c u c' u' : Nat) (f : MatUnit → MatUnit) :
    (s.modUnit c u f).unitOf c' u' = if ukey c' u' = ukey c u then f (s.unitOf c u) else s.unitOf c' u' :=
  Map.get_put ..

@[simp] theorem State.island_modIsland (s : State) (i i' : Nat) (f : Island → Island) :
    (s.modIsland i f).island i' = if i' = i then f (s.island i) else s.island i' := Map.get_put ..

@[simp] theorem State.die_modDie (s : State) (d d' : Nat) (f : Die → Die) :
    (s.modDie d f).die d' = if d' = d then f (s.die d) else s.die d' := Map.get_put ..

/-! ### Readers of the parts an update leaves alone -/

@[simp] theorem State.launch?_setGroup (s : State) (k : Nat) (g : Group) (l0 : Nat) : (s.setGroup k g).launch? l0 = s.launch? l0 := rfl
@[simp] theorem State.ctx?_setGroup (s : State) (k : Nat) (g : Group) (l0 c0 : Nat) : (s.setGroup k g).ctx? l0 c0 = s.ctx? l0 c0 := rfl
@[simp] theorem State.coreOf_setGroup (s : State) (k : Nat) (g : Group) (c0 : Nat) : (s.setGroup k g).coreOf c0 = s.coreOf c0 := rfl
@[simp] theorem State.unitOf_setGroup (s : State) (k : Nat) (g : Group) (c0 u0 : Nat) : (s.setGroup k g).unitOf c0 u0 = s.unitOf c0 u0 := rfl
@[simp] theorem State.island_setGroup (s : State) (k : Nat) (g : Group) (i0 : Nat) : (s.setGroup k g).island i0 = s.island i0 := rfl
@[simp] theorem State.die_setGroup (s : State) (k : Nat) (g : Group) (d0 : Nat) : (s.setGroup k g).die d0 = s.die d0 := rfl
@[simp] theorem State.launch?_modGroup (s : State) (k : Nat) (f : Group → Group) (l0 : Nat) : (s.modGroup k f).launch? l0 = s.launch? l0 := rfl
@[simp] theorem State.ctx?_modGroup (s : State) (k : Nat) (f : Group → Group) (l0 c0 : Nat) : (s.modGroup k f).ctx? l0 c0 = s.ctx? l0 c0 := rfl
@[simp] theorem State.coreOf_modGroup (s : State) (k : Nat) (f : Group → Group) (c0 : Nat) : (s.modGroup k f).coreOf c0 = s.coreOf c0 := rfl
@[simp] theorem State.unitOf_modGroup (s : State) (k : Nat) (f : Group → Group) (c0 u0 : Nat) : (s.modGroup k f).unitOf c0 u0 = s.unitOf c0 u0 := rfl
@[simp] theorem State.island_modGroup (s : State) (k : Nat) (f : Group → Group) (i0 : Nat) : (s.modGroup k f).island i0 = s.island i0 := rfl
@[simp] theorem State.die_modGroup (s : State) (k : Nat) (f : Group → Group) (d0 : Nat) : (s.modGroup k f).die d0 = s.die d0 := rfl
@[simp] theorem State.launch?_modSplit (s : State) (k j : Nat) (f : Split → Split) (l0 : Nat) : (s.modSplit k j f).launch? l0 = s.launch? l0 := rfl
@[simp] theorem State.ctx?_modSplit (s : State) (k j : Nat) (f : Split → Split) (l0 c0 : Nat) : (s.modSplit k j f).ctx? l0 c0 = s.ctx? l0 c0 := rfl
@[simp] theorem State.coreOf_modSplit (s : State) (k j : Nat) (f : Split → Split) (c0 : Nat) : (s.modSplit k j f).coreOf c0 = s.coreOf c0 := rfl
@[simp] theorem State.unitOf_modSplit (s : State) (k j : Nat) (f : Split → Split) (c0 u0 : Nat) : (s.modSplit k j f).unitOf c0 u0 = s.unitOf c0 u0 := rfl
@[simp] theorem State.island_modSplit (s : State) (k j : Nat) (f : Split → Split) (i0 : Nat) : (s.modSplit k j f).island i0 = s.island i0 := rfl
@[simp] theorem State.die_modSplit (s : State) (k j : Nat) (f : Split → Split) (d0 : Nat) : (s.modSplit k j f).die d0 = s.die d0 := rfl
@[simp] theorem State.group?_modLaunch (s : State) (l : Nat) (f : Launch → Launch) (k0 : Nat) : (s.modLaunch l f).group? k0 = s.group? k0 := rfl
@[simp] theorem State.ctx?_modLaunch (s : State) (l : Nat) (f : Launch → Launch) (l0 c0 : Nat) : (s.modLaunch l f).ctx? l0 c0 = s.ctx? l0 c0 := rfl
@[simp] theorem State.coreOf_modLaunch (s : State) (l : Nat) (f : Launch → Launch) (c0 : Nat) : (s.modLaunch l f).coreOf c0 = s.coreOf c0 := rfl
@[simp] theorem State.unitOf_modLaunch (s : State) (l : Nat) (f : Launch → Launch) (c0 u0 : Nat) : (s.modLaunch l f).unitOf c0 u0 = s.unitOf c0 u0 := rfl
@[simp] theorem State.island_modLaunch (s : State) (l : Nat) (f : Launch → Launch) (i0 : Nat) : (s.modLaunch l f).island i0 = s.island i0 := rfl
@[simp] theorem State.die_modLaunch (s : State) (l : Nat) (f : Launch → Launch) (d0 : Nat) : (s.modLaunch l f).die d0 = s.die d0 := rfl
@[simp] theorem State.group?_modCtx (s : State) (l c : Nat) (f : Ctx → Ctx) (k0 : Nat) : (s.modCtx l c f).group? k0 = s.group? k0 := rfl
@[simp] theorem State.launch?_modCtx (s : State) (l c : Nat) (f : Ctx → Ctx) (l0 : Nat) : (s.modCtx l c f).launch? l0 = s.launch? l0 := rfl
@[simp] theorem State.coreOf_modCtx (s : State) (l c : Nat) (f : Ctx → Ctx) (c0 : Nat) : (s.modCtx l c f).coreOf c0 = s.coreOf c0 := rfl
@[simp] theorem State.unitOf_modCtx (s : State) (l c : Nat) (f : Ctx → Ctx) (c0 u0 : Nat) : (s.modCtx l c f).unitOf c0 u0 = s.unitOf c0 u0 := rfl
@[simp] theorem State.island_modCtx (s : State) (l c : Nat) (f : Ctx → Ctx) (i0 : Nat) : (s.modCtx l c f).island i0 = s.island i0 := rfl
@[simp] theorem State.die_modCtx (s : State) (l c : Nat) (f : Ctx → Ctx) (d0 : Nat) : (s.modCtx l c f).die d0 = s.die d0 := rfl
@[simp] theorem State.group?_modCore (s : State) (c : Nat) (f : CoreSt → CoreSt) (k0 : Nat) : (s.modCore c f).group? k0 = s.group? k0 := rfl
@[simp] theorem State.launch?_modCore (s : State) (c : Nat) (f : CoreSt → CoreSt) (l0 : Nat) : (s.modCore c f).launch? l0 = s.launch? l0 := rfl
@[simp] theorem State.ctx?_modCore (s : State) (c : Nat) (f : CoreSt → CoreSt) (l0 c0 : Nat) : (s.modCore c f).ctx? l0 c0 = s.ctx? l0 c0 := rfl
@[simp] theorem State.unitOf_modCore (s : State) (c : Nat) (f : CoreSt → CoreSt) (c0 u0 : Nat) : (s.modCore c f).unitOf c0 u0 = s.unitOf c0 u0 := rfl
@[simp] theorem State.island_modCore (s : State) (c : Nat) (f : CoreSt → CoreSt) (i0 : Nat) : (s.modCore c f).island i0 = s.island i0 := rfl
@[simp] theorem State.die_modCore (s : State) (c : Nat) (f : CoreSt → CoreSt) (d0 : Nat) : (s.modCore c f).die d0 = s.die d0 := rfl
@[simp] theorem State.group?_modUnit (s : State) (c u : Nat) (f : MatUnit → MatUnit) (k0 : Nat) : (s.modUnit c u f).group? k0 = s.group? k0 := rfl
@[simp] theorem State.launch?_modUnit (s : State) (c u : Nat) (f : MatUnit → MatUnit) (l0 : Nat) : (s.modUnit c u f).launch? l0 = s.launch? l0 := rfl
@[simp] theorem State.ctx?_modUnit (s : State) (c u : Nat) (f : MatUnit → MatUnit) (l0 c0 : Nat) : (s.modUnit c u f).ctx? l0 c0 = s.ctx? l0 c0 := rfl
@[simp] theorem State.coreOf_modUnit (s : State) (c u : Nat) (f : MatUnit → MatUnit) (c0 : Nat) : (s.modUnit c u f).coreOf c0 = s.coreOf c0 := rfl
@[simp] theorem State.island_modUnit (s : State) (c u : Nat) (f : MatUnit → MatUnit) (i0 : Nat) : (s.modUnit c u f).island i0 = s.island i0 := rfl
@[simp] theorem State.die_modUnit (s : State) (c u : Nat) (f : MatUnit → MatUnit) (d0 : Nat) : (s.modUnit c u f).die d0 = s.die d0 := rfl
@[simp] theorem State.group?_mapUnits (s : State) (f : MatUnit → MatUnit) (k0 : Nat) : (s.mapUnits f).group? k0 = s.group? k0 := rfl
@[simp] theorem State.launch?_mapUnits (s : State) (f : MatUnit → MatUnit) (l0 : Nat) : (s.mapUnits f).launch? l0 = s.launch? l0 := rfl
@[simp] theorem State.ctx?_mapUnits (s : State) (f : MatUnit → MatUnit) (l0 c0 : Nat) : (s.mapUnits f).ctx? l0 c0 = s.ctx? l0 c0 := rfl
@[simp] theorem State.coreOf_mapUnits (s : State) (f : MatUnit → MatUnit) (c0 : Nat) : (s.mapUnits f).coreOf c0 = s.coreOf c0 := rfl
@[simp] theorem State.island_mapUnits (s : State) (f : MatUnit → MatUnit) (i0 : Nat) : (s.mapUnits f).island i0 = s.island i0 := rfl
@[simp] theorem State.die_mapUnits (s : State) (f : MatUnit → MatUnit) (d0 : Nat) : (s.mapUnits f).die d0 = s.die d0 := rfl
@[simp] theorem State.group?_modIsland (s : State) (i : Nat) (f : Island → Island) (k0 : Nat) : (s.modIsland i f).group? k0 = s.group? k0 := rfl
@[simp] theorem State.launch?_modIsland (s : State) (i : Nat) (f : Island → Island) (l0 : Nat) : (s.modIsland i f).launch? l0 = s.launch? l0 := rfl
@[simp] theorem State.ctx?_modIsland (s : State) (i : Nat) (f : Island → Island) (l0 c0 : Nat) : (s.modIsland i f).ctx? l0 c0 = s.ctx? l0 c0 := rfl
@[simp] theorem State.coreOf_modIsland (s : State) (i : Nat) (f : Island → Island) (c0 : Nat) : (s.modIsland i f).coreOf c0 = s.coreOf c0 := rfl
@[simp] theorem State.unitOf_modIsland (s : State) (i : Nat) (f : Island → Island) (c0 u0 : Nat) : (s.modIsland i f).unitOf c0 u0 = s.unitOf c0 u0 := rfl
@[simp] theorem State.die_modIsland (s : State) (i : Nat) (f : Island → Island) (d0 : Nat) : (s.modIsland i f).die d0 = s.die d0 := rfl
@[simp] theorem State.group?_modDie (s : State) (d : Nat) (f : Die → Die) (k0 : Nat) : (s.modDie d f).group? k0 = s.group? k0 := rfl
@[simp] theorem State.launch?_modDie (s : State) (d : Nat) (f : Die → Die) (l0 : Nat) : (s.modDie d f).launch? l0 = s.launch? l0 := rfl
@[simp] theorem State.ctx?_modDie (s : State) (d : Nat) (f : Die → Die) (l0 c0 : Nat) : (s.modDie d f).ctx? l0 c0 = s.ctx? l0 c0 := rfl
@[simp] theorem State.coreOf_modDie (s : State) (d : Nat) (f : Die → Die) (c0 : Nat) : (s.modDie d f).coreOf c0 = s.coreOf c0 := rfl
@[simp] theorem State.unitOf_modDie (s : State) (d : Nat) (f : Die → Die) (c0 u0 : Nat) : (s.modDie d f).unitOf c0 u0 = s.unitOf c0 u0 := rfl
@[simp] theorem State.island_modDie (s : State) (d : Nat) (f : Die → Die) (i0 : Nat) : (s.modDie d f).island i0 = s.island i0 := rfl
@[simp] theorem State.group?_modThread (s : State) (t : Nat) (f : Thread → Thread) (k0 : Nat) : (s.modThread t f).group? k0 = s.group? k0 := rfl
@[simp] theorem State.launch?_modThread (s : State) (t : Nat) (f : Thread → Thread) (l0 : Nat) : (s.modThread t f).launch? l0 = s.launch? l0 := rfl
@[simp] theorem State.ctx?_modThread (s : State) (t : Nat) (f : Thread → Thread) (l0 c0 : Nat) : (s.modThread t f).ctx? l0 c0 = s.ctx? l0 c0 := rfl
@[simp] theorem State.coreOf_modThread (s : State) (t : Nat) (f : Thread → Thread) (c0 : Nat) : (s.modThread t f).coreOf c0 = s.coreOf c0 := rfl
@[simp] theorem State.unitOf_modThread (s : State) (t : Nat) (f : Thread → Thread) (c0 u0 : Nat) : (s.modThread t f).unitOf c0 u0 = s.unitOf c0 u0 := rfl
@[simp] theorem State.island_modThread (s : State) (t : Nat) (f : Thread → Thread) (i0 : Nat) : (s.modThread t f).island i0 = s.island i0 := rfl
@[simp] theorem State.die_modThread (s : State) (t : Nat) (f : Thread → Thread) (d0 : Nat) : (s.modThread t f).die d0 = s.die d0 := rfl

/-! ### Group.modSplit -/

@[simp] theorem Group.modSplit_launch (g : Group) (j : Nat) (f : Split → Split) : (g.modSplit j f).launch = g.launch := rfl
@[simp] theorem Group.modSplit_team (g : Group) (j : Nat) (f : Split → Split) : (g.modSplit j f).team = g.team := rfl
@[simp] theorem Group.modSplit_gid (g : Group) (j : Nat) (f : Split → Split) : (g.modSplit j f).gid = g.gid := rfl
@[simp] theorem Group.modSplit_core (g : Group) (j : Nat) (f : Split → Split) : (g.modSplit j f).core = g.core := rfl
@[simp] theorem Group.modSplit_set (g : Group) (j : Nat) (f : Split → Split) : (g.modSplit j f).set = g.set := rfl
@[simp] theorem Group.modSplit_slot (g : Group) (j : Nat) (f : Split → Split) : (g.modSplit j f).slot = g.slot := rfl
@[simp] theorem Group.modSplit_handler (g : Group) (j : Nat) (f : Split → Split) : (g.modSplit j f).handler = g.handler := rfl
@[simp] theorem Group.modSplit_e (g : Group) (j : Nat) (f : Split → Split) : (g.modSplit j f).e = g.e := rfl
@[simp] theorem Group.modSplit_origin (g : Group) (j : Nat) (f : Split → Split) : (g.modSplit j f).origin = g.origin := rfl
@[simp] theorem Group.modSplit_cellMask (g : Group) (j : Nat) (f : Split → Split) : (g.modSplit j f).cellMask = g.cellMask := rfl
@[simp] theorem Group.modSplit_exited (g : Group) (j : Nat) (f : Split → Split) : (g.modSplit j f).exited = g.exited := rfl
@[simp] theorem Group.modSplit_v (g : Group) (j : Nat) (f : Split → Split) : (g.modSplit j f).v = g.v := rfl
@[simp] theorem Group.modSplit_vx (g : Group) (j : Nat) (f : Split → Split) : (g.modSplit j f).vx = g.vx := rfl
@[simp] theorem Group.modSplit_s (g : Group) (j : Nat) (f : Split → Split) : (g.modSplit j f).s = g.s := rfl
@[simp] theorem Group.modSplit_m (g : Group) (j : Nat) (f : Split → Split) : (g.modSplit j f).m = g.m := rfl
@[simp] theorem Group.modSplit_pub (g : Group) (j : Nat) (f : Split → Split) : (g.modSplit j f).pub = g.pub := rfl
@[simp] theorem Group.modSplit_published (g : Group) (j : Nat) (f : Split → Split) : (g.modSplit j f).published = g.published := rfl
@[simp] theorem Group.modSplit_step (g : Group) (j : Nat) (f : Split → Split) : (g.modSplit j f).step = g.step := rfl
@[simp] theorem Group.modSplit_stack (g : Group) (j : Nat) (f : Split → Split) : (g.modSplit j f).stack = g.stack := rfl
@[simp] theorem Group.modSplit_run (g : Group) (j : Nat) (f : Split → Split) : (g.modSplit j f).run = g.run := rfl
@[simp] theorem Group.modSplit_tcmp (g : Group) (j : Nat) (f : Split → Split) : (g.modSplit j f).tcmp = g.tcmp := rfl
@[simp] theorem Group.modSplit_fto (g : Group) (j : Nat) (f : Split → Split) : (g.modSplit j f).fto = g.fto := rfl
@[simp] theorem Group.modSplit_stepWait (g : Group) (j : Nat) (f : Split → Split) : (g.modSplit j f).stepWait = g.stepWait := rfl
@[simp] theorem Group.modSplit_due (g : Group) (j : Nat) (f : Split → Split) : (g.modSplit j f).due = g.due := rfl
@[simp] theorem Group.modSplit_region (g : Group) (j : Nat) (f : Split → Split) : (g.modSplit j f).region = g.region := rfl
@[simp] theorem Group.modSplit_priv (g : Group) (j : Nat) (f : Split → Split) : (g.modSplit j f).priv = g.priv := rfl
@[simp] theorem Group.modSplit_yieldLeft (g : Group) (j : Nat) (f : Split → Split) : (g.modSplit j f).yieldLeft = g.yieldLeft := rfl
@[simp] theorem Group.modSplit_passed (g : Group) (j : Nat) (f : Split → Split) : (g.modSplit j f).passed = g.passed := rfl
@[simp] theorem Group.modSplit_gone (g : Group) (j : Nat) (f : Split → Split) : (g.modSplit j f).gone = g.gone := rfl
@[simp] theorem Group.modSplit_left (g : Group) (j : Nat) (f : Split → Split) : (g.modSplit j f).left = g.left := rfl
@[simp] theorem Group.modSplit_armed (g : Group) (j : Nat) (f : Split → Split) : (g.modSplit j f).armed = g.armed := rfl
@[simp] theorem Group.modSplit_ftoNow (g : Group) (j : Nat) (f : Split → Split) : (g.modSplit j f).ftoNow = g.ftoNow := rfl
@[simp] theorem Group.modSplit_seen (g : Group) (j : Nat) (f : Split → Split) : (g.modSplit j f).seen = g.seen := rfl
@[simp] theorem Group.modSplit_relFences (g : Group) (j : Nat) (f : Split → Split) : (g.modSplit j f).relFences = g.relFences := rfl
@[simp] theorem Group.modSplit_strongReads (g : Group) (j : Nat) (f : Split → Split) : (g.modSplit j f).strongReads = g.strongReads := rfl
@[simp] theorem Group.modSplit_fenced (g : Group) (j : Nat) (f : Split → Split) : (g.modSplit j f).fenced = g.fenced := rfl
@[simp] theorem Group.modSplit_ate (g : Group) (j : Nat) (f : Split → Split) : (g.modSplit j f).ate = g.ate := rfl
@[simp] theorem Group.modSplit_lat (g : Group) (j : Nat) (f : Split → Split) : (g.modSplit j f).lat = g.lat := rfl
@[simp] theorem Group.modSplit_bad (g : Group) (j : Nat) (f : Split → Split) : (g.modSplit j f).bad = g.bad := rfl

theorem modifyAt_length {α : Type} (l : List α) (i : Nat) (f : α → α) : (modifyAt l i f).length = l.length := by
  induction l generalizing i with
  | nil => rfl
  | cons a l ih => cases i <;> simp [modifyAt, ih]

theorem modifyAt_getD {α : Type} (l : List α) (i j : Nat) (f : α → α) (d : α) :
    (modifyAt l i f).getD j d = if j = i ∧ i < l.length then f (l.getD j d) else l.getD j d := by
  induction l generalizing i j with
  | nil => simp [modifyAt]
  | cons a l ih =>
    cases i with
    | zero => cases j <;> simp [modifyAt]
    | succ i =>
      cases j with
      | zero => simp [modifyAt]
      | succ j => simpa [modifyAt] using ih i j

@[simp] theorem Group.modSplit_length (g : Group) (j : Nat) (f : Split → Split) :
    (g.modSplit j f).splits.length = g.splits.length := modifyAt_length ..

theorem Group.split_modSplit (g : Group) (i j : Nat) (f : Split → Split) :
    (g.modSplit i f).split j = if j = i ∧ i < g.splits.length then f (g.split j) else g.split j := modifyAt_getD ..

theorem modifyAt_modifyAt {α : Type} (l : List α) (i : Nat) (f g : α → α) :
    modifyAt (modifyAt l i f) i g = modifyAt l i fun x => g (f x) := by
  induction l generalizing i with
  | nil => rfl
  | cons a l ih => cases i <;> simp [modifyAt, ih]

theorem Group.modSplit_modSplit (g : Group) (j : Nat) (f f' : Split → Split) :
    (g.modSplit j f).modSplit j f' = g.modSplit j fun sp => f' (f sp) := by
  simp only [Group.modSplit, modifyAt_modifyAt]

/-- An entry that can issue is an entry of the table. -/
theorem Group.live_lt {g : Group} {j : Nat} (h : (g.split j).live = true) : j < g.splits.length := by
  refine Nat.lt_of_not_le fun hj => ?_
  have hn : g.splits[j]? = none := List.getElem?_eq_none hj
  simp [Group.split, List.getD, hn, Split.live] at h

end Sys2Proof.Machine
end

