-- ==== Sys2Proof/Laws/Registers.lean ====
section
/-!
SUPPORT. Registers after writes: one register after one write, after a list of writes, and a destination after the writes
of a result (R42, R61, R63).
-/

namespace Sys2Proof.Machine

open Sys2Proof

/-! ### One write -/

@[simp] theorem Group.inVx_writeReg (g : Group) (r : RegId) (x : Word) (n : Nat) :
    (g.writeReg r x).inVx n = g.inVx n := by
  cases r <;> simp only [Group.writeReg] <;> (try split) <;> rfl

theorem Group.readReg_writeReg (g : Group) {r q : RegId} (hr : r.real) (hq : q.real) (x : Word) :
    (g.writeReg r x).readReg q = if q = r then x else g.readReg q := by
  cases r with
  | v n l =>
    cases q with
    | v n' l' =>
      simp only [RegId.real] at hr hq
      simp only [Group.readReg, Group.readV, Group.inVx_writeReg]
      cases h : g.inVx n <;> cases h' : g.inVx n'
      · by_cases e : n' = n ∧ l' = l
        · simp [Group.writeReg, h, e]
        · have : 32 * n' + l' ≠ 32 * n + l := by omega
          simp [Group.writeReg, h, e, this, Map.get_put]
      · have : ¬(n' = n ∧ l' = l) := fun e => by simp [e.1, h] at h'
        simp [Group.writeReg, h, this]
      · have : ¬(n' = n ∧ l' = l) := fun e => by simp [e.1, h] at h'
        simp [Group.writeReg, h, this]
      · have hn : 112 ≤ n := by simp [Group.inVx] at h; omega
        have hn' : 112 ≤ n' := by simp [Group.inVx] at h'; omega
        by_cases e : n' = n ∧ l' = l
        · simp [Group.writeReg, h, e]
        · have : 32 * (n' - 112) + l' ≠ 32 * (n - 112) + l := by omega
          simp [Group.writeReg, h, e, this, Map.get_put]
    | s n' => simp only [Group.readReg, Group.writeReg, Group.readS]; split <;> simp
    | m n' => simp only [Group.readReg, Group.writeReg]; split <;> simp
  | s n =>
    cases q with
    | v n' l' => simp only [reduceCtorEq, if_false]; rfl
    | s n' => simp [Group.readReg, Group.writeReg, Group.readS, Map.get_put]
    | m n' => simp [Group.readReg, Group.writeReg]
  | m n =>
    simp only [RegId.real] at hr
    cases q with
    | v n' l' => simp only [reduceCtorEq, if_false, Group.writeReg, hr]; rfl
    | s n' => simp [Group.readReg, Group.writeReg, Group.readS, hr]
    | m n' => simp [Group.readReg, Group.writeReg, Map.get_put, hr]

theorem Group.readOther_writeReg (g : Group) {r : RegId} (hr : r.real) (x : Word) {n l : Nat} (hn : 112 ≤ n)
    (he : n < 112 + g.e) (hl : l < 32) : (g.writeReg r x).readOther n l = g.readOther n l := by
  simp only [Group.readOther, Group.inVx_writeReg]
  cases r with
  | v n' l' =>
    simp only [RegId.real] at hr
    cases h : g.inVx n <;> cases h' : g.inVx n'
    · simp [Group.writeReg, h']
    · simp [Group.inVx] at h h'
      omega
    · have : 32 * n + l ≠ 32 * n' + l' := fun e => by
        have e : n = n' := by omega
        simp [e, h'] at h
      simp [Group.writeReg, h', Map.get_put, this]
    · simp [Group.writeReg, h']
  | s n' => rfl
  | m n' => simp [Group.writeReg, show n' ≠ 0 from hr]

/-! ### Lists of writes -/

/-- What a list of writes leaves in a register: the last write of it. -/
def written (ws : List (RegId × Word)) (r : RegId) : Option Word :=
  ws.foldl (fun o w => if r = w.1 then some w.2 else o) none

theorem Group.readReg_writeRegs_aux (ws : List (RegId × Word)) (hw : ∀ w ∈ ws, w.1.real) {r : RegId} (hr : r.real) :
    ∀ (g : Group) (o : Option Word) (x : Word), g.readReg r = o.getD x →
      (g.writeRegs ws).readReg r = (ws.foldl (fun o w => if r = w.1 then some w.2 else o) o).getD x := by
  induction ws with
  | nil => exact fun _ _ _ h => h
  | cons w ws ih =>
    intro g o x h
    simp only [Group.writeRegs, List.foldl]
    refine ih (fun w h => hw w (List.mem_cons_of_mem _ h)) (g.writeReg w.1 w.2) _ x ?_
    rw [Group.readReg_writeReg g (hw w (List.mem_cons_self ..)) hr]
    split
    · rfl
    · exact h

/-- A register after a list of writes. -/
theorem Group.readReg_writeRegs (g : Group) {ws : List (RegId × Word)} (hw : ∀ w ∈ ws, w.1.real) {r : RegId}
    (hr : r.real) : (g.writeRegs ws).readReg r = (written ws r).getD (g.readReg r) :=
  Group.readReg_writeRegs_aux ws hw hr g none _ rfl

theorem Group.readOther_writeRegs {ws : List (RegId × Word)} (hw : ∀ w ∈ ws, w.1.real) {n l : Nat} (hn : 112 ≤ n)
    (hl : l < 32) : ∀ g : Group, n < 112 + g.e → (g.writeRegs ws).readOther n l = g.readOther n l := by
  induction ws with
  | nil => exact fun _ _ => rfl
  | cons w ws ih =>
    intro g he
    have e : (g.writeReg w.1 w.2).e = g.e := by
      obtain ⟨r, x⟩ := w
      cases r <;> simp only [Group.writeReg] <;> (try split) <;> rfl
    simp only [Group.writeRegs, List.foldl]
    rw [← Group.readOther_writeReg g (hw w (List.mem_cons_self ..)) w.2 hn he hl]
    exact ih (fun w h => hw w (List.mem_cons_of_mem _ h)) _ (by rw [e]; exact he)

/-- Register writes change nothing of a group but its registers and their poison. -/
theorem Group.writeRegs_eq (ws : List (RegId × Word)) : ∀ g : Group,
    g.writeRegs ws = { g with v := (g.writeRegs ws).v, vx := (g.writeRegs ws).vx, s := (g.writeRegs ws).s,
                              m := (g.writeRegs ws).m, bad := (g.writeRegs ws).bad } := by
  induction ws with
  | nil => exact fun _ => rfl
  | cons w ws ih =>
    intro g
    simp only [Group.writeRegs, List.foldl]
    rw [← Group.writeRegs, ih (g.writeReg w.1 w.2)]
    obtain ⟨r, x⟩ := w
    cases r <;> simp only [Group.writeReg] <;> (try split) <;> rfl

/-! ### The writes of a result -/

theorem mem_lanesOf {m : Mask} {l : Nat} : l ∈ lanesOf m ↔ l < 32 ∧ m.getLsbD l = true := by
  simp [lanesOf, lanes]

theorem written_eq_some_aux {r : RegId} {x : Word} :
    ∀ (ws : List (RegId × Word)), (∀ w ∈ ws, w.1 = r → w.2 = x) → ∀ o : Option Word, (r, x) ∈ ws ∨ o = some x →
      ws.foldl (fun o w => if r = w.1 then some w.2 else o) o = some x := by
  intro ws
  induction ws with
  | nil =>
    intro _ o h
    rcases h with h | h
    · simp at h
    · exact h
  | cons w ws ih =>
    intro hu o h
    refine ih (fun w h => hu w (List.mem_cons_of_mem _ h)) _ ?_
    by_cases e : r = w.1
    · refine .inr ?_
      simp only [if_pos e, hu w (List.mem_cons_self ..) e.symm]
    · simp only [if_neg e]
      rcases h with h | h
      · rcases List.mem_cons.mp h with h | h
        · exact absurd (congrArg Prod.fst h) e
        · exact .inl h
      · exact .inr h

theorem written_eq_some {ws : List (RegId × Word)} {r : RegId} {x : Word} (h : (r, x) ∈ ws)
    (hu : ∀ w ∈ ws, w.1 = r → w.2 = x) : written ws r = some x := written_eq_some_aux ws hu none (.inl h)

theorem written_eq_none {r : RegId} : ∀ {ws : List (RegId × Word)}, (∀ w ∈ ws, w.1 ≠ r) → written ws r = none := by
  have : ∀ (ws : List (RegId × Word)) (o : Option Word), (∀ w ∈ ws, w.1 ≠ r) →
      ws.foldl (fun o w => if r = w.1 then some w.2 else o) o = o := by
    intro ws
    induction ws with
    | nil => exact fun _ _ => rfl
    | cons w ws ih =>
      intro o h
      have : r ≠ w.1 := fun e => h w (List.mem_cons_self ..) e.symm
      simp only [List.foldl, if_neg this]
      exact ih o fun w h' => h w (List.mem_cons_of_mem _ h')
  exact fun {ws} h => this ws none h

theorem mem_dstWrites_v {n regs l x : Nat} {w : RegId × Word} :
    w ∈ dstWrites (.v n) regs l x ↔ ∃ i, i < regs ∧ w = (.v (n + i) l, BitVec.ofNat 32 (x / 2 ^ (32 * i))) := by
  simp only [dstWrites, dstRegs, List.mem_mapIdx, List.length_map, List.length_range, List.getElem_map,
    List.getElem_range]
  exact ⟨fun ⟨i, h, e⟩ => ⟨i, h, e.symm⟩, fun ⟨i, h, e⟩ => ⟨i, h, e.symm⟩⟩

theorem mem_dstWrites_s {n regs l x : Nat} {w : RegId × Word} :
    w ∈ dstWrites (.s n) regs l x ↔ ∃ i, i < regs ∧ w = (.s (n + i), BitVec.ofNat 32 (x / 2 ^ (32 * i))) := by
  simp only [dstWrites, dstRegs, List.mem_mapIdx, List.length_map, List.length_range, List.getElem_map,
    List.getElem_range]
  exact ⟨fun ⟨i, h, e⟩ => ⟨i, h, e.symm⟩, fun ⟨i, h, e⟩ => ⟨i, h, e.symm⟩⟩

theorem mem_laneWrites_v {n regs : Nat} {m : Mask} {f : Nat → Nat} {w : RegId × Word} :
    w ∈ laneWrites (.v n) regs m f ↔
      ∃ l i, l < 32 ∧ m.getLsbD l = true ∧ i < regs ∧ w = (.v (n + i) l, BitVec.ofNat 32 (f l / 2 ^ (32 * i))) := by
  simp only [laneWrites, List.mem_flatMap, mem_lanesOf, mem_dstWrites_v]
  exact ⟨fun ⟨l, ⟨h1, h2⟩, i, h3, e⟩ => ⟨l, i, h1, h2, h3, e⟩, fun ⟨l, i, h1, h2, h3, e⟩ => ⟨l, ⟨h1, h2⟩, i, h3, e⟩⟩

theorem laneWrites_real (d : Dst) (regs : Nat) (m : Mask) (f : Nat → Nat) :
    ∀ w ∈ laneWrites d regs m f, w.1.real := by
  intro w h
  cases d with
  | v n => obtain ⟨l, i, hl, _, _, rfl⟩ := mem_laneWrites_v.mp h; exact hl
  | s n =>
    simp only [laneWrites] at h
    split at h
    · simp at h
    · obtain ⟨i, _, rfl⟩ := mem_dstWrites_s.mp h; trivial
  | nb n => simp [laneWrites] at h
  | m n => simp [laneWrites] at h

/-- What the writes of a result leave in a register. -/
theorem written_laneWrites (d : Dst) (regs : Nat) (m : Mask) (f : Nat → Nat) {r : RegId} (hr : r.real) :
    written (laneWrites d regs m f) r = dstTakes d regs m f r := by
  cases d with
  | v n =>
    cases r with
    | v n' l =>
      by_cases h : m.getLsbD l = true ∧ n ≤ n' ∧ n' < n + regs
      · simp only [dstTakes, dstPart, h, and_self, if_true, Option.map_some]
        refine written_eq_some (mem_laneWrites_v.mpr ⟨l, n' - n, hr, h.1, by omega, ?_⟩) ?_
        · rw [show n + (n' - n) = n' by omega]
        · intro w hw e
          obtain ⟨l', i, _, _, hi, rfl⟩ := mem_laneWrites_v.mp hw
          simp only [RegId.v.injEq] at e
          obtain ⟨rfl, rfl⟩ := e
          simp
      · simp only [dstTakes, dstPart, h, if_false, Option.map_none]
        refine written_eq_none fun w hw e => h ?_
        obtain ⟨l', i, _, hm, hi, rfl⟩ := mem_laneWrites_v.mp hw
        simp only [RegId.v.injEq] at e
        obtain ⟨rfl, rfl⟩ := e
        exact ⟨hm, by omega, by omega⟩
    | s n' =>
      refine written_eq_none fun w hw e => ?_
      obtain ⟨l', i, _, _, _, rfl⟩ := mem_laneWrites_v.mp hw
      cases e
    | m n' =>
      refine written_eq_none fun w hw e => ?_
      obtain ⟨l', i, _, _, _, rfl⟩ := mem_laneWrites_v.mp hw
      cases e
  | s n =>
    by_cases hm : m = 0
    · subst hm
      cases r <;> simp [laneWrites, written, dstTakes, dstPart]
    · have hb : (m == 0) = false := by simpa using hm
      simp only [laneWrites, hb]
      cases r with
      | s n' =>
        by_cases h : n ≤ n' ∧ n' < n + regs
        · simp only [dstTakes, dstPart, hm, ne_eq, not_false_eq_true, h, and_self, if_true, Option.map_some]
          refine written_eq_some (mem_dstWrites_s.mpr ⟨n' - n, by omega, ?_⟩) ?_
          · rw [show n + (n' - n) = n' by omega]
          · intro w hw e
            obtain ⟨i, hi, rfl⟩ := mem_dstWrites_s.mp hw
            simp only [RegId.s.injEq] at e
            subst e
            simp
        · have h' : ¬(m ≠ 0 ∧ n ≤ n' ∧ n' < n + regs) := fun x => h x.2
          simp only [dstTakes, dstPart, h', if_false, Option.map_none]
          refine written_eq_none fun w hw e => h ?_
          obtain ⟨i, hi, rfl⟩ := mem_dstWrites_s.mp hw
          simp only [RegId.s.injEq] at e
          omega
      | v n' l =>
        refine written_eq_none fun w hw e => ?_
        obtain ⟨i, _, rfl⟩ := mem_dstWrites_s.mp hw
        cases e
      | m n' =>
        refine written_eq_none fun w hw e => ?_
        obtain ⟨i, _, rfl⟩ := mem_dstWrites_s.mp hw
        cases e
  | nb n => cases r <;> rfl
  | m n => cases r <;> rfl

@[simp] theorem written_nil (r : RegId) : written [] r = none := rfl

@[simp] theorem written_singleton (q r : RegId) (x : Word) : written [(q, x)] r = oneTakes q x r := by
  by_cases e : r = q <;> simp [written, oneTakes, e]

/-- Of two lists of writes the later one decides. -/
theorem written_append (ws ws' : List (RegId × Word)) (r : RegId) :
    written (ws ++ ws') r = (written ws' r).or (written ws r) := by
  have : ∀ (ws : List (RegId × Word)) (o : Option Word),
      ws.foldl (fun o w => if r = w.1 then some w.2 else o) o = (written ws r).or o := by
    intro ws
    induction ws with
    | nil => intro o; simp [written]
    | cons w ws ih =>
      intro o
      simp only [written, List.foldl]
      rw [ih, ih (if r = w.1 then some w.2 else none)]
      split <;> simp
  simp only [written, List.foldl_append]
  exact this ws' _

theorem Group.badKey_writeReg (g : Group) (r q : RegId) (x : Word) : (g.writeReg r x).badKey q = g.badKey q := by
  have e : (g.writeReg r x).step = g.step ∧ (g.writeReg r x).e = g.e := by
    cases r <;> simp only [Group.writeReg] <;> (try split) <;> first | exact ⟨rfl, rfl⟩ | exact ⟨trivial, trivial⟩
  cases q with
  | v n l => simp only [Group.badKey, Group.inVx, e.1, e.2]; rfl
  | s n => rfl
  | m n => rfl

/-- Register writes clear the poison of the registers written, and no other (R420). -/
theorem Group.mem_bad_writeRegs {ws : List (RegId × Word)} (hw : ∀ w ∈ ws, w.1.real) (x : Nat) : ∀ g : Group,
    x ∈ (g.writeRegs ws).bad ↔ x ∈ g.bad ∧ ∀ w ∈ ws, g.badKey w.1 ≠ x := by
  induction ws with
  | nil => intro g; simp [Group.writeRegs]
  | cons w ws ih =>
    intro g
    have hb : (g.writeReg w.1 w.2).bad = Nats.del g.bad (g.badKey w.1) := by
      have hr := hw w (List.mem_cons_self ..)
      obtain ⟨r, y⟩ := w
      cases r with
      | v n l => simp only [Group.writeReg]; split <;> rfl
      | s n => rfl
      | m n => simp only [Group.writeReg]; rw [if_neg hr]
    have h := ih (fun w h => hw w (List.mem_cons_of_mem _ h)) (g.writeReg w.1 w.2)
    simp only [Group.writeRegs, List.foldl_cons] at h ⊢
    rw [h, hb]
    simp only [Nats.del, List.mem_filter, decide_eq_true_eq, Group.badKey_writeReg, List.mem_cons, forall_eq_or_imp, ne_eq]
    exact ⟨fun ⟨⟨a, b⟩, c⟩ => ⟨a, fun e => b e.symm, c⟩, fun ⟨a, b, c⟩ => ⟨⟨a, fun e => b e.symm⟩, c⟩⟩

theorem written_isSome {ws : List (RegId × Word)} {r : RegId} : (written ws r).isSome = true ↔ ∃ w ∈ ws, w.1 = r := by
  by_cases h : ∃ w ∈ ws, w.1 = r
  · refine ⟨fun _ => h, fun _ => ?_⟩
    have key : ∀ (ws : List (RegId × Word)) (o : Option Word), (∃ w ∈ ws, w.1 = r) ∨ o.isSome = true →
        (ws.foldl (fun o w => if r = w.1 then some w.2 else o) o).isSome = true := by
      intro ws
      induction ws with
      | nil => intro o h; rcases h with ⟨w, hm, -⟩ | h; exact absurd hm (by simp); exact h
      | cons w ws ih =>
        intro o h
        refine ih _ ?_
        by_cases e : r = w.1
        · exact .inr (by simp [e])
        · simp only [if_neg e]
          rcases h with ⟨v, hm, hv⟩ | h
          · rcases List.mem_cons.mp hm with hm | hm
            · exact absurd (by rw [← hm, hv]) e
            · exact .inl ⟨v, hm, hv⟩
          · exact .inr h
    exact key ws none (.inl h)
  · rw [written_eq_none (fun w hm e => h ⟨w, hm, e⟩)]
    exact ⟨fun x => Bool.noConfusion x, fun x => absurd x h⟩

/-- Writes give the registers what they name and leave every other register alone, and clear the poison of those they
name. -/
theorem Group.takes_writeRegs (g : Group) {ws : List (RegId × Word)} (hw : ∀ w ∈ ws, w.1.real) :
    g.takes (g.writeRegs ws) (written ws) := by
  refine ⟨fun _ hr => Group.readReg_writeRegs g hw hr, fun x => ?_⟩
  refine (Group.mem_bad_writeRegs hw x g).trans (and_congr Iff.rfl (Iff.intro (fun h r _ hs e => ?_) fun h w hm e => ?_))
  · obtain ⟨w, hm, rfl⟩ := written_isSome.mp hs
    exact h w hm e
  · exact h w.1 (hw w hm) (written_isSome.mpr ⟨w, hm, rfl⟩) e

/-- What g' takes depends on what is written to real registers only. -/
theorem Group.takes_congr {g g' : Group} {f f' : RegId → Option Word} (h : g.takes g' f)
    (e : ∀ r : RegId, r.real → f' r = f r) : g.takes g' f' :=
  ⟨fun r hr => by rw [e r hr]; exact h.1 r hr,
   fun x => (h.2 x).trans (and_congr Iff.rfl (forall_congr' fun r => forall_congr' fun hr => by rw [e r hr]))⟩

theorem Group.takes_laneWrites (g : Group) (d : Dst) (regs : Nat) (m : Mask) (f : Nat → Nat) :
    g.takes (g.writeRegs (laneWrites d regs m f)) (dstTakes d regs m f) :=
  Group.takes_congr (g.takes_writeRegs (laneWrites_real d regs m f)) fun _ hr => (written_laneWrites d regs m f hr).symm

end Sys2Proof.Machine
end

