-- ==== Sys2Proof/Laws/Issue.lean ====
section
/-!
SUPPORT. What the issue of a word does once and for all: what the issuing split is, what the charge leaves behind, that a
path which does not end goes on at the next word, and the completion of a word that writes a result now or later.
-/

namespace Sys2Proof.Machine

open Sys2Proof

/-! ### The issuing split -/

@[simp] theorem Group.reads_launch (g : Group) (sp : Split) : (g.reads sp).launch = g.launch := by
  unfold Group.reads; split <;> rfl
@[simp] theorem Group.reads_core (g : Group) (sp : Split) : (g.reads sp).core = g.core := by
  unfold Group.reads; split <;> rfl
@[simp] theorem Group.reads_e (g : Group) (sp : Split) : (g.reads sp).e = g.e := by
  unfold Group.reads; split <;> rfl
@[simp] theorem Group.reads_splits (g : Group) (sp : Split) : (g.reads sp).splits = g.splits := by
  unfold Group.reads; split <;> rfl

/-- A word that was not held reads the registers as they stand (R199). -/
theorem Group.reads_of_fresh (g : Group) {sp : Split} (h : sp.held = none) : g.reads sp = g := by
  simp only [Group.reads, h]

/-- What it means that a split issues. -/
theorem State.iss_spec {s : State} {it : Iss} (h : s.iss = some it) :
    it.key = s.cur ∧ it.j = s.curSplit ∧ s.group? it.key = some it.own ∧ it.sp = it.own.split it.j
    ∧ s.launch? it.own.launch = some it.l ∧ s.ctx? it.own.launch it.own.core = some it.c
    ∧ it.sp.live = true ∧ it.sp.wait = .none ∧ it.own.gone = false ∧ it.l.stopped = false := by
  unfold State.iss at h
  split at h
  · cases h
  · rename_i g hg
    split at h
    · rename_i l c hl hc
      simp only at h
      split at h
      · rename_i hcond
        simp only [Bool.and_eq_true, beq_iff_eq, Bool.not_eq_true'] at hcond
        cases h
        exact ⟨rfl, rfl, hg, rfl, hl, hc, hcond.1.1.1, hcond.1.1.2, hcond.1.2, hcond.2⟩
      · cases h
    · cases h

/-- The registers that an issuing word reads are the group's, or those it read when it was first issued (R199). -/
theorem State.iss_reads {s : State} {it : Iss} (h : s.iss = some it) : it.g = it.own.reads it.sp := by
  unfold State.iss at h
  split at h
  · cases h
  · split at h
    · simp only at h
      split at h
      · cases h; rfl
      · cases h
    · cases h

/-- The cycles until words may read what a group's words have written, once a word has issued (R209). -/
def Iss.latsOf (it : Iss) (i : Instr) (g : Group) : Map Nat :=
  if it.sp.held.isSome then g.lat else (it.laterAll i g).lat

/-- The issuing split once its word has begun (R66, R199, R209, R282). -/
def Iss.begunSplit (it : Iss) (i : Instr) (folds : Bool) (sp : Split) : Split :=
  if it.sp.held.isSome then { sp with held := none }
  else { sp with oldest := none, sig := if folds then foldWord sp.sig (encode i) else sp.sig,
                 pend := sp.pend.map fun p => { p with left := p.left - 1 }, stall := it.control i,
                 lat := (Instr.time i).2.map (· + it.nbTime i) }

/-- A group of the issuing split once its word has begun. -/
def Iss.begunOf (it : Iss) (i : Instr) (folds : Bool) (g : Group) : Group :=
  ({ g with lat := it.latsOf i g } : Group).modSplit it.j (it.begunSplit i folds)

/-- The issuing group once its word has begun: as it stands, and as the word reads it. -/
def Iss.begunOwn (it : Iss) (i : Instr) (folds : Bool) : Group := it.begunOf i folds it.own
def Iss.begunGroup (it : Iss) (i : Instr) (folds : Bool) : Group := it.begunOf i folds it.g

theorem Iss.laterAll_eq (it : Iss) (i : Instr) (g : Group) : it.laterAll i g = { g with lat := (it.laterAll i g).lat } := by
  have key : ∀ (n : Nat) (xs : List Nat) (g : Group), xs.foldl (fun g x => g.later it.j n x) g =
      { g with lat := (xs.foldl (fun g x => g.later it.j n x) g).lat } := by
    intro n xs
    induction xs with
    | nil => exact fun _ => rfl
    | cons x xs ih => intro g; simp only [List.foldl_cons]; rw [ih (g.later it.j n x)]; rfl
  unfold Iss.laterAll
  split
  · exact key ..
  · rfl

/-- What the latencies become depends on the latencies only. -/
theorem Iss.laterAll_congr (it : Iss) (i : Instr) {g g' : Group} (h : g'.lat = g.lat) :
    (it.laterAll i g').lat = (it.laterAll i g).lat := by
  have key : ∀ (n : Nat) (xs : List Nat) (g g' : Group), g'.lat = g.lat →
      (xs.foldl (fun g x => g.later it.j n x) g').lat = (xs.foldl (fun g x => g.later it.j n x) g).lat := by
    intro n xs
    induction xs with
    | nil => exact fun _ _ h => h
    | cons x xs ih =>
      intro g g' h
      exact ih (g.later it.j n x) (g'.later it.j n x) (congrArg (fun m => Map.put m 0 (if x < 768 then x else x + 8 * it.j) n) h)
  unfold Iss.laterAll
  split
  · exact key _ _ _ _ h
  · exact h

theorem Iss.latsOf_congr (it : Iss) (i : Instr) {g g' : Group} (h : g'.lat = g.lat) : it.latsOf i g' = it.latsOf i g := by
  unfold Iss.latsOf
  rw [it.laterAll_congr i h, h]

/-- What issue does to its group, in the steps in which the model does it. -/
theorem Iss.begunOf_eq (it : Iss) (i : Instr) (folds : Bool) (h : it.sp.held = none) (g : Group) :
    it.begunOf i folds g =
      (it.laterAll i (g.modSplit it.j fun sp =>
        { sp with oldest := none, sig := if folds then foldWord sp.sig (encode i) else sp.sig,
                  pend := sp.pend.map fun p => { p with left := p.left - 1 } })).modSplit it.j fun sp =>
        { sp with stall := it.control i, lat := (Instr.time i).2.map (· + it.nbTime i) } := by
  rw [it.laterAll_eq]
  unfold Iss.begunOf Iss.latsOf Iss.begunSplit
  simp only [h, Option.isSome_none, Bool.false_eq_true, if_false]
  rw [it.laterAll_congr i (g' := g.modSplit it.j _) (g := g) rfl]
  simp only [Group.modSplit, modifyAt_modifyAt]

theorem State.begun_of_held {s : State} {it : Iss} (h : it.sp.held.isSome = true) (i : Instr) (folds : Bool) :
    s.begun it i folds = s.charged it (encode i) folds := by
  simp only [State.begun, State.timed, h, if_true]

theorem State.group?_begun_map (s : State) (it : Iss) (i : Instr) (folds : Bool) (k : Nat) :
    (s.begun it i folds).group? k = if k = it.key then (s.group? k).map (it.begunOf i folds) else s.group? k := by
  by_cases h : it.sp.held.isSome = true
  · rw [State.begun_of_held h]
    unfold State.charged Iss.begunOf Iss.latsOf Iss.begunSplit
    simp only [h, if_true, State.group?, State.modSplit, State.modGroup, Map.find?_adjust]
    split
    · rename_i e; rw [e]
    · rfl
  · have hn : it.sp.held = none := Option.not_isSome_iff_eq_none.mp h
    rw [funext fun g => it.begunOf_eq i folds hn g]
    have hc : ∀ k, (s.charged it (encode i) folds).group? k = if k = it.key then (s.group? k).map fun g => g.modSplit it.j fun sp =>
        { sp with oldest := none, sig := if folds then foldWord sp.sig (encode i) else sp.sig,
                  pend := sp.pend.map fun p => { p with left := p.left - 1 } } else s.group? k := by
      intro k
      unfold State.charged State.pay
      simp only [h, Bool.false_eq_true, if_false, State.group?, State.modIsland, State.modSplit, State.modGroup, Map.find?_adjust]
      split
      · rename_i e; rw [e]
      · rfl
    have ht : (s.begun it i folds).group? k = if k = it.key then ((s.charged it (encode i) folds).group? k).map fun g =>
        (it.laterAll i g).modSplit it.j fun sp =>
          { sp with stall := it.control i, lat := (Instr.time i).2.map (· + it.nbTime i) }
        else (s.charged it (encode i) folds).group? k := by
      unfold State.begun State.timed
      simp only [h, Bool.false_eq_true, if_false]
      have hm : ∀ (t : State) (f : Group → Group), (t.modGroup it.key f).group? k =
          if k = it.key then (t.group? k).map f else t.group? k := by
        intro t f
        simp only [State.group?, State.modGroup, Map.find?_adjust]
        split
        · rename_i e; rw [e]
        · rfl
      split
      · exact hm ..
      · exact hm ..
    rw [ht, hc]
    split
    · rw [Option.map_map]; rfl
    · rfl

theorem State.group?_begun {s : State} {it : Iss} (h : s.group? it.key = some it.own) (i : Instr) (folds : Bool) :
    (s.begun it i folds).group? it.key = some (it.begunOwn i folds) := by
  rw [State.group?_begun_map, if_pos rfl, h]
  rfl

theorem State.group?_begun_ne (s : State) (it : Iss) (i : Instr) (folds : Bool) {k : Nat} (hk : k ≠ it.key) :
    (s.begun it i folds).group? k = s.group? k := by
  rw [State.group?_begun_map, if_neg hk]

/-- Issue changes no part of the state but groups, islands, issue slots, the count of free values and the late loads. -/
theorem State.begun_eq (s : State) (it : Iss) (i : Instr) (folds : Bool) :
    s.begun it i folds = { s with groups := (s.begun it i folds).groups, islands := (s.begun it i folds).islands,
                                  cores := (s.begun it i folds).cores, free := s.free + 1,
                                  loads := (s.begun it i folds).loads } := by
  unfold State.begun State.timed State.charged
  split
  · rfl
  · simp only
    split <;> rfl

theorem State.island_begun (s : State) (it : Iss) (i : Instr) (folds : Bool) (n : Nat) :
    (s.begun it i folds).island n = { s.island n with charges := (s.island n).charges + it.cost i n } := by
  unfold Iss.cost
  have h1 : (s.begun it i folds).island n = (s.charged it (encode i) folds).island n := by
    unfold State.begun State.timed
    split
    · rfl
    · simp only; split <;> rfl
  rw [h1]
  unfold State.charged State.pay
  split
  · rename_i h
    rw [if_neg (fun x => by rw [x.2] at h; cases h)]
    rfl
  · rename_i h
    have hn : it.sp.held = none := Option.not_isSome_iff_eq_none.mp h
    simp only [State.island, State.modIsland, State.modSplit, State.modGroup, Map.get_put, hn, and_true]
    by_cases e : n = islandOf it.g.core
    · subst e; simp
    · simp [e]

theorem State.coreOf_begun (s : State) (it : Iss) (i : Instr) (folds : Bool) (c : Nat) :
    (s.begun it i folds).coreOf c = { s.coreOf c with slots := it.slotsAfter i c (s.coreOf c).slots } := by
  unfold Iss.slotsAfter
  have h0 : (s.charged it (encode i) folds).cores = s.cores := by unfold State.charged; split <;> rfl
  by_cases h : it.sp.held.isSome = true
  · have : it.sp.held ≠ none := fun e => by rw [e] at h; cases h
    rw [State.begun_of_held h, if_neg (fun x => this x.2.1)]
    simp only [State.coreOf, h0]
  · have hn : it.sp.held = none := Option.not_isSome_iff_eq_none.mp h
    unfold State.begun State.timed
    simp only [h, Bool.false_eq_true, if_false]
    by_cases ht : (Instr.time i).1 ≤ 1
    · simp only [if_pos ht, State.coreOf, State.modGroup_cores, h0, show ¬ 1 < (Instr.time i).1 by omega, and_false,
        if_false]
    · simp only [if_neg ht, State.coreOf, State.modCore, State.modGroup_cores, h0, Map.get_put, hn, true_and,
        show 1 < (Instr.time i).1 by omega, and_true]
      by_cases e : c = it.g.core
      · subst e; simp
      · simp [e]

theorem Iss.begunSplit_held (it : Iss) (i : Instr) (folds : Bool) (sp : Split) :
    (it.begunSplit i folds sp).held = if it.sp.held.isSome then none else sp.held := by
  unfold Iss.begunSplit; split <;> simp_all

/-- What a word reads is charged with its group. -/
theorem Iss.reads_begunOf (it : Iss) (i : Instr) (folds : Bool) (g : Group) (sp : Split) :
    (it.begunOf i folds g).reads sp = it.begunOf i folds (g.reads sp) := by
  have h : (g.reads sp).lat = g.lat := by unfold Group.reads; split <;> rfl
  unfold Iss.begunOf
  rw [it.latsOf_congr i h]
  unfold Group.reads; split <;> rfl

/-- The issuing split as its own effect sees it. -/
theorem Iss.again_begun {s : State} {it : Iss} (h : s.iss = some it) (i : Instr) (folds : Bool) :
    it.again (s.begun it i folds) =
      { it with own := it.begunOwn i folds, g := it.begunGroup i folds, sp := (it.begunOwn i folds).split it.j } := by
  obtain ⟨-, -, hg, -, hl, hc, -⟩ := State.iss_spec h
  have hL : (s.begun it i folds).launch? = s.launch? := by rw [State.begun_eq]; rfl
  have hC : (s.begun it i folds).ctx? = s.ctx? := by rw [State.begun_eq]; rfl
  have e1 : (it.begunOwn i folds).launch = it.own.launch := rfl
  have e2 : (it.begunOwn i folds).core = it.own.core := rfl
  have e3 : (it.begunOwn i folds).reads it.sp = it.begunGroup i folds := by
    rw [Iss.begunOwn, Iss.reads_begunOf, ← State.iss_reads h, Iss.begunGroup]
  simp only [Iss.again, State.group?_begun hg, hL, hC, e1, e2, e3, hl, hc, Option.getD_some]

theorem Iss.begunOwn_split {s : State} {it : Iss} (h : s.iss = some it) (i : Instr) (folds : Bool) :
    (it.begunOwn i folds).split it.j = it.begunSplit i folds it.sp := by
  obtain ⟨-, -, -, hs, -, -, hv, -⟩ := State.iss_spec h
  have hj : it.j < it.own.splits.length := Group.live_lt (by rw [← hs]; exact hv)
  unfold Iss.begunOwn Iss.begunOf
  rw [Group.split_modSplit, if_pos ⟨rfl, hj⟩, hs]
  rfl

theorem Iss.begunOwn_split_ne (it : Iss) (i : Instr) (folds : Bool) {j : Nat} (hj : j ≠ it.j) :
    (it.begunOwn i folds).split j = it.own.split j := by
  unfold Iss.begunOwn Iss.begunOf
  rw [Group.split_modSplit, if_neg (fun h => hj h.1)]
  rfl

/-! ### Paths that go on (R288) -/

/-- What the end of a path is decided by, and whether a merge went wrong. -/
def Split.control (sp : Split) : SplitState × Dword × Mask × Dword × Option Nat × Option Nat :=
  (sp.st, sp.pc, sp.mask, sp.join, sp.parent, sp.wrong)

theorem Group.standsAtJoin_congr {g g' : Group} (hs : g'.stack = g.stack)
    (hc : ∀ i, (g'.split i).control = (g.split i).control) (i : Nat) : g'.standsAtJoin i = g.standsAtJoin i := by
  have h1 : ∀ i, (g'.split i).st = (g.split i).st := fun i => congrArg (·.1) (hc i)
  have h2 : ∀ i, (g'.split i).pc = (g.split i).pc := fun i => congrArg (·.2.1) (hc i)
  have h3 : ∀ i, (g'.split i).mask = (g.split i).mask := fun i => congrArg (·.2.2.1) (hc i)
  have h4 : ∀ i, (g'.split i).join = (g.split i).join := fun i => congrArg (·.2.2.2.1) (hc i)
  have h5 : ∀ i, (g'.split i).parent = (g.split i).parent := fun i => congrArg (·.2.2.2.2.1) (hc i)
  have ht : g'.topRec i = g.topRec i := by simp only [Group.topRec, hs]
  have hj : g'.joinOf i = g.joinOf i := by simp only [Group.joinOf, ht, h4, h5]
  simp only [Group.standsAtJoin, Split.live, h1, h2, h3, hj]

/-- Where no path ends, a group is settled. -/
theorem Group.settle_of_none {g : Group} (h : ∀ i, g.atJoin i = false) (n : Nat) : Group.settle n g = g := by
  cases n with
  | zero => rfl
  | succ n =>
    have : (List.range g.splits.length).find? g.atJoin = none := by
      simp only [List.find?_eq_none]
      exact fun i _ => by simp [h i]
    simp only [Group.settle, this]

theorem Group.moveTo_of_none {g : Group} {j : Nat} {pc : Dword}
    (h0 : (g.modSplit j fun sp => { sp with pc := pc }).standsAtJoin j = false)
    (h : ∀ i, (g.modSplit j fun sp => { sp with pc := pc }).atJoin i = false) :
    g.moveTo j pc = g.modSplit j fun sp => { sp with pc := pc } := by
  unfold Group.moveTo
  simp only [h0]
  exact Group.settle_of_none h _

/-- Where the issuing split's path goes on, and the group has changed only in what no path depends on, the split is at
its new PC and nothing else happens. -/
theorem Iss.moveTo_flows {it : Iss} {pc : Dword} (hf : it.flows pc) {g : Group} (hs : g.stack = it.own.stack)
    (hl : g.splits.length = it.own.splits.length) (hne : ∀ i, i ≠ it.j → g.split i = it.own.split i)
    (hj : (g.split it.j).control = (it.own.split it.j).control) :
    g.moveTo it.j pc = g.modSplit it.j fun sp => { sp with pc := pc } := by
  have key : ∀ i, ((g.modSplit it.j fun sp => { sp with pc := pc }).split i).control =
      ((it.own.modSplit it.j fun sp => { sp with pc := pc }).split i).control := by
    intro i
    simp only [Group.split_modSplit, hl]
    by_cases e : i = it.j
    · subst e
      have := hj
      simp only [Split.control, Prod.mk.injEq] at this
      split <;> simp [Split.control, this]
    · simp [e, hne i e]
  have hst := Group.standsAtJoin_congr (g := it.own.modSplit it.j fun sp => { sp with pc := pc })
    (g' := g.modSplit it.j fun sp => { sp with pc := pc }) hs key
  refine Group.moveTo_of_none (by rw [hst]; exact hf.1) fun i => ?_
  by_cases e : i = it.j
  · subst e
    simp [Group.atJoin, hst, hf.1]
  · have h := hf.2 i
    simp only [Group.atJoin, hst] at h ⊢
    rw [Group.split_modSplit, if_neg (fun x => e x.1)] at h ⊢
    rw [hne i e]
    exact h.1

/-- A group with a split that can issue and waits for nothing has not exited and is not at its rendezvous: nothing
follows from its new state. -/
theorem State.after_of_live {s : State} {k j : Nat} {g : Group} (hg : s.group? k = some g)
    (hv : (g.split j).live = true) (hw : (g.split j).wait = .none) (hm : ∀ i, (g.split i).wrong = none) :
    s.after k = s := by
  have hwr : (((s.group? k).map fun g => g.liveSplits.filter fun j => (g.split j).wrong.isSome).getD []) = [] := by
    rw [hg]
    simp [hm]
  have hj := Group.live_lt hv
  have hu : g.used.isEmpty = false := by
    refine List.isEmpty_eq_false_iff.mpr (List.ne_nil_of_mem (a := j) ?_)
    simp only [Group.used, List.mem_filter, List.mem_range]
    refine ⟨hj, ?_⟩
    simp only [Split.live, Bool.or_eq_true, beq_iff_eq] at hv
    simp only [Split.inUse, bne_iff_ne, ne_eq]
    rcases hv with h | h <;> simp [h]
  have hr : g.atRendezvous = false := by
    have : (g.liveSplits.all fun j => (g.split j).wait == .step) = false := by
      rw [List.all_eq_false]
      refine ⟨j, ?_, by simp [hw]⟩
      simp only [Group.liveSplits, List.mem_filter, List.mem_range]
      exact ⟨hj, hv⟩
    simp [Group.atRendezvous, this]
  unfold State.after
  simp only [hwr, List.foldl_nil]
  simp only [hg, hu, hr, Bool.and_false, Bool.false_eq_true, if_false]
  split <;> rfl

/-! ### Completions -/

/-- A word whose effect is to go on, on a path that goes on: exec answers the effect's state, with the split at its
new PC and the mask of one re-issue spent (R294). -/
theorem issueAs_ok {i : Instr} {s : State} {it : Iss} {folds : Bool} {eff : State → Iss → Eff} {pc : Dword}
    (h : IssuesTo i s it pc) {s' : State} {next : Option Dword} (hpc : next.getD (it.sp.pc + 8) = pc)
    (he : eff (s.issuedAs it i folds) (it.issuedAs s i folds) = .ok s' next)
    {g : Group} (hg : s'.group? it.key = some g) (hs : g.stack = it.own.stack)
    (hl : g.splits.length = it.own.splits.length) (hne : ∀ i, i ≠ it.j → g.split i = it.own.split i)
    (hj : (g.split it.j).control = it.sp.control) (hw : (g.split it.j).wait = .none) :
    issueAs i folds s eff =
      .next (s'.modGroup it.key fun g => g.modSplit it.j fun sp => { sp with once := none, pc := pc }) := by
  obtain ⟨⟨hi, hb, hp⟩, hf⟩ := h
  obtain ⟨-, -, hgr, hsp, -, -, hv, -⟩ := State.iss_spec hi
  have hlen : it.j < it.own.splits.length := Group.live_lt (by rw [← hsp]; exact hv)
  simp only [issueAs, hi, hb, hp, he, State.apply, Bool.false_eq_true, if_false]
  let g1 := g.modSplit it.j fun sp => { sp with once := none }
  have h1 : (g1.split it.j).control = (it.own.split it.j).control := by
    rw [Group.split_modSplit, if_pos ⟨rfl, by omega⟩, ← hsp, ← hj]; rfl
  have hm := it.moveTo_flows hf (g := g1) hs (by simp only [g1, Group.modSplit_length, hl])
    (fun i e => by rw [Group.split_modSplit, if_neg (fun x => e x.1), hne i e]) h1
  have e2 : (g1.modSplit it.j fun sp => { sp with pc := pc }) =
      g.modSplit it.j fun sp => { sp with once := none, pc := pc } := Group.modSplit_modSplit ..
  have e3 : (s'.modGroup it.key fun g =>
        (g.modSplit it.j fun sp => { sp with once := none }).moveTo it.j (next.getD it.nextPc)) =
      s'.modGroup it.key fun g => g.modSplit it.j fun sp => { sp with once := none, pc := pc } := by
    simp only [State.modGroup, Map.adjust]
    rw [show Map.find? s'.groups it.key = some g from hg]
    simp only [Iss.nextPc, hpc]
    rw [hm, e2]
  rw [e3]
  refine congrArg Host.Outcome.next ?_
  refine State.after_of_live (g := g.modSplit it.j fun sp => { sp with once := none, pc := pc }) (j := it.j)
    (by simp [hg]) ?_ ?_ fun x => ?_
  · rw [Group.split_modSplit, if_pos ⟨rfl, by omega⟩]
    have := congrArg (·.1) hj
    simp only [Split.control] at this
    simp only [Split.live, this]
    simpa only [Split.live] using hv
  · rw [Group.split_modSplit, if_pos ⟨rfl, by omega⟩]
    exact hw
  · have hx := (hf.2 x).2
    by_cases e : x = it.j
    · subst e
      rw [Group.split_modSplit, if_pos ⟨rfl, by omega⟩]
      have hw2 : (g.split it.j).wrong = it.sp.wrong := congrArg (·.2.2.2.2.2) hj
      exact hw2.trans ((congrArg Split.wrong hsp).trans hx)
    · rw [Group.split_modSplit, if_neg (fun y => e y.1), hne x e]
      exact hx

@[simp] theorem Group.readReg_modSplit (g : Group) (j : Nat) (f : Split → Split) (r : RegId) :
    (g.modSplit j f).readReg r = g.readReg r := by cases r <;> rfl

@[simp] theorem Group.readOther_modSplit (g : Group) (j : Nat) (f : Split → Split) (n l : Nat) :
    (g.modSplit j f).readOther n l = g.readOther n l := rfl

@[simp] theorem Iss.readReg_begun (it : Iss) (i : Instr) (folds : Bool) (r : RegId) :
    (it.begunOwn i folds).readReg r = it.own.readReg r := by cases r <;> rfl

@[simp] theorem Iss.readOther_begun (it : Iss) (i : Instr) (folds : Bool) (n l : Nat) :
    (it.begunOwn i folds).readOther n l = it.own.readOther n l := rfl

theorem Group.split_writeRegs (g : Group) (ws : List (RegId × Word)) (j : Nat) :
    (g.writeRegs ws).split j = g.split j := by rw [Group.writeRegs_eq]; rfl

theorem Group.stack_writeRegs (g : Group) (ws : List (RegId × Word)) : (g.writeRegs ws).stack = g.stack := by
  rw [Group.writeRegs_eq]

theorem Group.splits_writeRegs (g : Group) (ws : List (RegId × Word)) : (g.writeRegs ws).splits = g.splits := by
  rw [Group.writeRegs_eq]

theorem Group.e_writeRegs (g : Group) (ws : List (RegId × Word)) : (g.writeRegs ws).e = g.e := by
  rw [Group.writeRegs_eq]

/-- But for a barrier, what a word's effect finds is the charged state (R211). -/
theorem State.issuedAs_eq {i : Instr} (h : Instr.atBarrier i = false) (s : State) (it : Iss) (folds : Bool) :
    s.issuedAs it i folds = s.begun it i folds := by
  unfold State.issuedAs
  rw [if_neg (by rw [h]; exact Bool.false_ne_true)]

/-- What a word's effect makes of its group: the group as `g0` says, with the issue's own changes, then register writes
and the issuing split's flags and outstanding results. -/
def Iss.touched (it : Iss) (i : Instr) (g0 : Group) (ws : List (RegId × Word)) (f : Split → Split) : Group :=
  (({ g0 with splits := (it.begunOwn i true).splits, lat := (it.begunOwn i true).lat } : Group).writeRegs ws).modSplit it.j f

/-- The completion of a word whose effect changes, of its group, no more than registers and of its split what `f` says,
and of the rest what s' says. -/
theorem does_of_touched {i : Instr} {s : State} {it : Iss} {eff : State → Iss → Eff} {s1 s' : State} {g0 : Group}
    {ws : List (RegId × Word)} {f : Split → Split} {pc : Dword} {next : Option Dword} {u : FlagUpd} {late : List Pend}
    (h : IssuesTo i s it pc) (hbar : Instr.atBarrier i = false) (hpc : next.getD (it.sp.pc + 8) = pc)
    (hx : exec i s = issueAs i true s eff)
    (he : eff (s.issuedAs it i true) (it.issuedAs s i true) = .ok s1 next)
    (hsp : g0.splits = it.own.splits) (hst : g0.stack = it.own.stack)
    (hg : s1.group? it.key = some (it.touched i g0 ws f))
    (hgn : ∀ k, k ≠ it.key → s1.group? k = s'.group? k)
    (hi : ∀ i, s1.island i = { s'.island i with charges := (s1.island i).charges })
    (hc : ∀ c, s1.coreOf c = { s'.coreOf c with slots := (s1.coreOf c).slots })
    (hp : it.spends i s s1)
    (hs : s1 = { s' with groups := s1.groups, islands := s1.islands, cores := s1.cores, nextId := s1.nextId, free := s1.free,
                         loads := s1.loads })
    (hw : ∀ w ∈ ws, w.1.real)
    (hf : ∀ sp, f sp = { sp with cc := sp.cc.upd u, pend := sp.pend ++ late }) :
    Does i s it s' g0 pc (written ws) u late := by
  obtain ⟨⟨his, hb, hrb⟩, hfl⟩ := h
  obtain ⟨-, -, hgr, hspl, -, -, hv, hwt, -⟩ := State.iss_spec his
  have hlen : it.j < it.own.splits.length := Group.live_lt (by rw [← hspl]; exact hv)
  have hsc := Iss.begunOwn_split his i true
  have hcl : (it.begunOwn i true).splits.length = it.own.splits.length := Group.modSplit_length ..
  let c : Group := { g0 with splits := (it.begunOwn i true).splits, lat := (it.begunOwn i true).lat }
  have hcs : ∀ j, c.split j = (it.begunOwn i true).split j := fun _ => rfl
  have hT : it.touched i g0 ws f = (c.writeRegs ws).modSplit it.j f := rfl
  have hsl : (it.touched i g0 ws f).split it.j = f (it.begunSplit i true it.sp) := by
    rw [hT, Group.split_modSplit, Group.split_writeRegs, Group.splits_writeRegs, hcs, hsc,
      if_pos ⟨rfl, show it.j < (it.begunOwn i true).splits.length by omega⟩]
  have hne : ∀ j, j ≠ it.j → (it.touched i g0 ws f).split j = it.own.split j := fun j e => by
    rw [hT, Group.split_modSplit, if_neg (fun x => e x.1), Group.split_writeRegs, hcs, Iss.begunOwn_split_ne it _ _ e]
  have hll : (it.touched i g0 ws f).splits.length = it.own.splits.length := by
    rw [hT, Group.modSplit_length, Group.splits_writeRegs]
    exact hcl
  have hcc : (it.begunSplit i true it.sp).control = it.sp.control ∧
      (it.begunSplit i true it.sp).wait = it.sp.wait := by
    unfold Iss.begunSplit; split <;> exact ⟨rfl, rfl⟩
  have hok := issueAs_ok ⟨⟨his, hb, hrb⟩, hfl⟩ hpc he hg
    (by rw [hT, Group.modSplit_stack, Group.stack_writeRegs]; exact hst) hll hne
    (by rw [hsl, hf, ← hcc.1]; rfl) (by rw [hsl, hf]; exact hcc.2.trans hwt)
  refine ⟨_, (it.touched i g0 ws f).modSplit it.j fun sp => { sp with once := none, pc := pc },
    hx.trans hok, ⟨?_, fun k hk => ?_, fun j => ?_, fun c => ?_, ?_, fun a => ?_⟩, ⟨fun n => ?_, fun c => ?_⟩, ⟨?_, ?_, fun j e => ?_, ?_⟩,
    ⟨?_, ?_⟩, ?_⟩
  · rw [State.group?_modGroup, if_pos rfl, hg]; rfl
  · rw [State.group?_modGroup, if_neg hk, hgn k hk]
  · rw [State.island_modGroup]; exact hi j
  · exact hc c
  · exact congrArg (fun z : State => z.modGroup it.key fun g => g.modSplit it.j fun sp =>
      { sp with once := none, pc := pc }) hs
  · rw [State.modGroup_mem]; have hm := congrArg State.mem hs; exact congrArg (Memory.read · a) hm
  · rw [State.island_modGroup]; exact hp.1 n
  · exact hp.2 c
  · rw [hT, Group.writeRegs_eq]; rfl
  · rw [Group.modSplit_length, hll, hsp]
  · rw [Group.split_modSplit, if_neg (fun x => e x.1), hne j e]
    simp only [Group.split, hsp]
  · intro n l hn hE hl
    rw [Group.readOther_modSplit, hT, Group.readOther_modSplit, Group.readOther_writeRegs hw hn hl c hE]
    rfl
  · intro r hr
    rw [Group.readReg_modSplit, hT, Group.readReg_modSplit, (c.takes_writeRegs hw).1 r hr]
    cases r <;> rfl
  · exact (c.takes_writeRegs hw).2
  · rw [Group.split_modSplit, if_pos ⟨rfl, by omega⟩, hsl, hf]
    simp only [Iss.begunSplit, Iss.completed, Iss.sigAfter, Iss.windows, Iss.latency, hbar, Bool.false_eq_true, if_false]
    split
    · simp
    · rename_i hr; simp [Option.not_isSome_iff_eq_none.mp hr]

/-- Of an island issue changes the charges, and of a core its issue slots; both as the word costs. -/
theorem State.island_begun' (s : State) (it : Iss) (i : Instr) (folds : Bool) (n : Nat) :
    (s.begun it i folds).island n = { s.island n with charges := ((s.begun it i folds).island n).charges } := by
  rw [State.island_begun]

theorem State.coreOf_begun' (s : State) (it : Iss) (i : Instr) (folds : Bool) (c : Nat) :
    (s.begun it i folds).coreOf c = { s.coreOf c with slots := ((s.begun it i folds).coreOf c).slots } := by
  rw [State.coreOf_begun]

theorem State.begun_spends (s : State) (it : Iss) (i : Instr) (folds : Bool) : it.spends i s (s.begun it i folds) :=
  ⟨fun n => by rw [State.island_begun], fun c => by rw [State.coreOf_begun]⟩

/-- A word that writes its result at issue completes. -/
theorem computes_of_writeNow {i : Instr} {s : State} {it : Iss} {eff : State → Iss → Eff}
    {ws : List (RegId × Word)} {u : FlagUpd} {pc : Dword} {next : Option Dword} (h : IssuesTo i s it pc) (hb : Instr.atBarrier i = false)
    (hpc : next.getD (it.sp.pc + 8) = pc) (hx : exec i s = issueAs i true s eff)
    (he : eff (s.begun it i true) (it.issuedAs s i true) =
      .ok ((s.begun it i true).writeNow it ws u) next)
    (hw : ∀ w ∈ ws, w.1.real) : ComputesTo i s it pc (written ws) u :=
  does_of_touched (f := fun sp => { sp with cc := sp.cc.upd u, pend := sp.pend ++ [] }) h hb hpc hx ((congrArg (eff · _) (State.issuedAs_eq hb s it true)).trans he) rfl rfl
    (by
      simp only [State.writeNow, State.group?_modGroup, if_true, State.group?_begun (State.iss_spec h.1.1).2.2.1,
        Option.map_some, List.append_nil]
      rfl)
    (fun k hk => by rw [State.writeNow, State.group?_modGroup, if_neg hk, State.group?_begun_ne s it _ _ hk])
    (fun j => State.island_begun' s it _ _ j) (fun c => State.coreOf_begun' s it _ _ c) (State.begun_spends s it i true) (by simp only [State.writeNow]; rw [State.begun_eq]; rfl) hw
    (fun _ => rfl)

/-- Wherever its path leads, a word whose effect makes of the machine s1 becomes it. -/
theorem becomes_of_ok {i : Instr} {s s1 : State} {it : Iss} {eff : State → Iss → Eff} {next : Option Dword}
    (h : Issued i s it) (hx : exec i s = issueAs i true s eff)
    (he : eff (s.issued it i) (it.issued s i) = .ok s1 next) : Becomes i s it s1 (next.getD (it.sp.pc + 8)) := by
  unfold State.issued Iss.issued at he
  simp only [Becomes, hx, issueAs, h.1, h.2.1, h.2.2, he, Bool.false_eq_true, if_false]
  rfl

/-- A word that changes nothing but its PC completes. -/
theorem computes_of_go {i : Instr} {s : State} {it : Iss} {eff : State → Iss → Eff} {pc : Dword} {next : Option Dword}
    (h : IssuesTo i s it pc) (hb : Instr.atBarrier i = false) (hpc : next.getD (it.sp.pc + 8) = pc)
    (hx : exec i s = issueAs i true s eff)
    (he : eff (s.begun it i true) (it.issuedAs s i true) = .ok (s.begun it i true) next) : ComputesTo i s it pc (fun _ => none) {} := by
  have hid : ∀ (l : List Split) (j : Nat), modifyAt l j (fun sp => sp) = l := by
    intro l
    induction l with
    | nil => exact fun _ => rfl
    | cons a l ih => intro j; cases j <;> simp [modifyAt, ih]
  exact does_of_touched (ws := []) (f := fun sp => sp) h hb hpc hx ((congrArg (eff · _) (State.issuedAs_eq hb s it true)).trans he)
    rfl rfl
    (by
      rw [State.group?_begun (State.iss_spec h.1.1).2.2.1]
      simp only [Iss.touched, Group.writeRegs, List.foldl, Group.modSplit, hid]
      rfl)
    (fun k hk => State.group?_begun_ne s it _ _ hk) (fun j => State.island_begun' s it _ _ j) (fun c => State.coreOf_begun' s it _ _ c) (State.begun_spends s it i true)
    (by rw [State.begun_eq]) (by simp) (fun sp => by simp [Flags.upd])

/-- The latency that a word's effect finds in its split. -/
theorem Iss.issuedAs_lat {s : State} {it : Iss} (h : s.iss = some it) {i : Instr} (hb : Instr.atBarrier i = false) :
    (it.issuedAs s i true).sp.lat = it.latency i := by
  have e : (it.issuedAs s i true).sp = (it.begunOwn i true).split it.j := by
    unfold Iss.issuedAs
    rw [State.issuedAs_eq hb, Iss.again_begun h]
    simp only
    split <;> rfl
  rw [e, Iss.begunOwn_split h]
  unfold Iss.begunSplit Iss.latency
  split <;> rfl

/-- A long-latency word enters its result at issue. -/
theorem enters_of_writeLater {i : Instr} {s : State} {it it' : Iss} {eff : State → Iss → Eff} {la : Nat}
    {ws : List (RegId × Word)} {u : FlagUpd} (h : Issues i s it) (hb : Instr.atBarrier i = false)
    (hx : exec i s = issueAs i true s eff) (hk : it'.key = it.key) (hj : it'.j = it.j) (hl : it'.sp.lat = it.latency i)
    (he : eff (s.begun it i true) (it.issuedAs s i true) =
      .ok ((s.begun it i true).writeLater it' la ws u) none) : Enters i s it la ws u := by
  have hn : (s.begun it i true).nextId = s.nextId := by rw [State.begun_eq]
  exact does_of_touched (ws := [])
    (f := fun sp => { sp with cc := sp.cc.upd {}, pend := sp.pend ++ [it.due i (lateResult s la ws u)] }) h hb rfl hx
    ((congrArg (eff · _) (State.issuedAs_eq hb s it true)).trans he) rfl rfl
    (by
      simp only [State.writeLater, hn, hk, hj, hl]
      simp only [State.group?, State.modSplit, State.modGroup, Map.find?_adjust_same]
      rw [show Map.find? (s.begun it i true).groups it.key = some (it.begunOwn i true) from
        State.group?_begun (State.iss_spec h.1.1).2.2.1 ..]
      rfl)
    (fun k hk' => by
      simp only [State.writeLater, hk]
      simp only [State.group?, State.modSplit, State.modGroup, Map.find?_adjust, if_neg hk']
      exact State.group?_begun_ne s it _ _ hk')
    (fun j => State.island_begun' s it _ _ j) (fun c => State.coreOf_begun' s it _ _ c) (State.begun_spends s it i true)
    (by simp only [State.writeLater]; rw [State.begun_eq]; rfl) (by simp) (fun _ => rfl)

end Sys2Proof.Machine
end

