-- ==== Sys2Proof/Laws/Memory.lean ====
section
/-!
SUPPORT. What the operations on physical memory do: each keeps memory in its canonical form, a write puts its bytes at its
place and leaves every other byte and every other part of the state alone, and performing pending writes changes nothing
but memory, its tags and its poison.
-/

namespace Sys2Proof.Machine

open Sys2Proof

/-! ### One write -/

@[simp] theorem State.writeKept_mem (s : State) (w : Stamp) (pa : Nat) (bs : List Byte) (tag poisoned : Bool) :
    (s.writeKept w pa bs tag poisoned).mem = Memory.writeAll s.mem pa (s.bytesAfter w .mem pa bs) := rfl

/-- What goes behind no other write takes its place with its own bytes (R119). -/
@[simp] theorem State.bytesAfter_last {s : State} {w : Stamp} (h : w.behind = []) (sp : Space) (a : Nat) (bs : List Byte) :
    s.bytesAfter w sp a bs = bs := by simp [State.bytesAfter, h]

@[simp] theorem State.length_bytesAfter (s : State) (w : Stamp) (sp : Space) (a : Nat) (bs : List Byte) :
    (s.bytesAfter w sp a bs).length = bs.length := by
  unfold State.bytesAfter; split <;> simp

@[simp] theorem State.writeLost_mem (s : State) (pa : Nat) : (s.writeLost pa).mem = s.mem := by
  unfold State.writeLost; split <;> rfl

/-- A write to memory changes memory, tags, poison, the order of writes and the host writes on their way, and nothing
else. -/
def State.memoryPart (s t : State) : Prop :=
  t = { s with mem := t.mem, tags := t.tags, bad := t.bad, hist := t.hist, nextWrite := t.nextWrite,
               hostWrites := t.hostWrites }

theorem State.memoryPart_refl (s : State) : s.memoryPart s := rfl

theorem State.memoryPart_groups {s t : State} (h : s.memoryPart t) : t.groups = s.groups := by
  unfold State.memoryPart at h; rw [h]

theorem State.memoryPart_threads {s t : State} (h : s.memoryPart t) : t.threads = s.threads := by
  unfold State.memoryPart at h; rw [h]

theorem State.memoryPart_trans {s t u : State} (h : s.memoryPart t) (h' : t.memoryPart u) : s.memoryPart u := by
  unfold State.memoryPart at *; rw [h'] ; rw [h]

theorem State.writeKept_part (s : State) (w : Stamp) (pa : Nat) (bs : List Byte) (tag poisoned : Bool) :
    s.memoryPart (s.writeKept w pa bs tag poisoned) := rfl

theorem State.writeLost_part (s : State) (pa : Nat) : s.memoryPart (s.writeLost pa) := by
  unfold State.writeLost; split <;> rfl

/-- A property of states that a write to one place keeps is kept by a fold of such writes. -/
theorem State.foldl_keeps {α : Type} {P : State → State → Prop} (hr : ∀ s, P s s)
    (ht : ∀ {s t u : State}, P s t → P t u → P s u) {f : State → α → State} (hf : ∀ s x, P s (f s x)) (l : List α) :
    ∀ s, P s (l.foldl f s) := by
  induction l with
  | nil => exact fun s => hr s
  | cons x l ih => exact fun s => ht (hf s x) (ih (f s x))

theorem State.writeAs_part (s : State) (w : Stamp) (pa : Nat) (bs : List Byte) (tag poisoned : Bool) :
    s.memoryPart (s.writeAs w pa bs tag poisoned) := by
  unfold State.writeAs
  split
  · refine State.foldl_keeps State.memoryPart_refl State.memoryPart_trans (fun s i => ?_) _ s
    split
    · exact s.writeLost_part _
    · exact s.writeKept_part ..
  · exact s.writeKept_part ..

theorem State.writeBy_part (s : State) (a : Agent) (pa : Nat) (bs : List Byte) (tag poisoned : Bool) :
    s.memoryPart (s.writeBy a pa bs tag poisoned) :=
  State.memoryPart_trans (t := { s with nextWrite := s.nextWrite + 1 }) rfl (State.writeAs_part ..)

theorem State.writePhys_part (s : State) (pa : Nat) (bs : List Byte) (tag poisoned : Bool) :
    s.memoryPart (s.writePhys pa bs tag poisoned) := s.writeBy_part ..

/-- Memory stays canonical. -/
def State.keepsCanonical (s t : State) : Prop := Memory.wf s.mem = true → Memory.wf t.mem = true

theorem State.keepsCanonical_refl (s : State) : s.keepsCanonical s := id

theorem State.keepsCanonical_trans {s t u : State} (h : s.keepsCanonical t) (h' : t.keepsCanonical u) :
    s.keepsCanonical u := h' ∘ h

/-- What leaves memory alone keeps it canonical. -/
theorem State.keepsCanonical_of_eq {s t : State} (h : t.mem = s.mem) : s.keepsCanonical t := fun hm => h ▸ hm

theorem State.writeKept_canonical (s : State) (w : Stamp) (pa : Nat) (bs : List Byte) (tag poisoned : Bool) :
    s.keepsCanonical (s.writeKept w pa bs tag poisoned) := fun h => Memory.wf_writeAll pa _ h

theorem State.writeAs_canonical (s : State) (w : Stamp) (pa : Nat) (bs : List Byte) (tag poisoned : Bool) :
    s.keepsCanonical (s.writeAs w pa bs tag poisoned) := by
  unfold State.writeAs
  split
  · refine State.foldl_keeps State.keepsCanonical_refl State.keepsCanonical_trans (fun s i => ?_) _ s
    split
    · exact State.keepsCanonical_of_eq (s.writeLost_mem _)
    · exact s.writeKept_canonical _ _ _ _ _
  · exact s.writeKept_canonical _ _ _ _ _

theorem State.writeBy_canonical (s : State) (a : Agent) (pa : Nat) (bs : List Byte) (tag poisoned : Bool) :
    s.keepsCanonical (s.writeBy a pa bs tag poisoned) := fun h =>
  { s with nextWrite := s.nextWrite + 1 }.writeAs_canonical _ pa bs tag poisoned h

theorem State.writePhys_canonical (s : State) (pa : Nat) (bs : List Byte) (tag poisoned : Bool) :
    s.keepsCanonical (s.writePhys pa bs tag poisoned) := s.writeBy_canonical _ _ _ _ _

/-- A read after a write that goes behind no other gives the bytes written at their places, and what was there before
everywhere else, where the ends of the write are not lost. -/
theorem State.read_writeAs {s : State} {w : Stamp} {pa : Nat} {bs : List Byte} {tag poisoned : Bool}
    (h : s.lost pa = false) (h' : s.lost (pa + bs.length - 1) = false) (hw : w.behind = []) (a : Nat) :
    Memory.read (s.writeAs w pa bs tag poisoned).mem a =
      if pa ≤ a ∧ a < pa + bs.length then bs.getD (a - pa) 0 else Memory.read s.mem a := by
  simp only [State.writeAs, h, h', Bool.or_self, Bool.false_eq_true, if_false, State.writeKept_mem,
    State.bytesAfter_last hw]
  exact Memory.read_writeAll ..

theorem State.read_writePhys {s : State} {pa : Nat} {bs : List Byte} {tag poisoned : Bool} (h : s.lost pa = false)
    (h' : s.lost (pa + bs.length - 1) = false) (a : Nat) :
    Memory.read (s.writePhys pa bs tag poisoned).mem a =
      if pa ≤ a ∧ a < pa + bs.length then bs.getD (a - pa) 0 else Memory.read s.mem a :=
  State.read_writeAs (s := { s with nextWrite := s.nextWrite + 1 }) h h' rfl a

/-- Outside its bytes a write changes nothing, lost or not. -/
theorem State.read_writeAs_ne {s : State} {w : Stamp} {pa : Nat} {bs : List Byte} {tag poisoned : Bool} {a : Nat}
    (h : a < pa ∨ pa + bs.length ≤ a) :
    Memory.read (s.writeAs w pa bs tag poisoned).mem a = Memory.read s.mem a := by
  have one : ∀ (s : State) (q : Nat) (b : List Byte), (a < q ∨ q + b.length ≤ a) →
      Memory.read (s.writeKept w q b tag poisoned).mem a = Memory.read s.mem a := by
    intro s q b hq
    rw [State.writeKept_mem, Memory.read_writeAll, State.length_bytesAfter, if_neg (by omega)]
  unfold State.writeAs
  split
  · have : ∀ l : List Nat, (∀ i ∈ l, i < bs.length) → ∀ s : State, Memory.read (l.foldl (fun s i =>
        if s.lost (pa + i) then s.writeLost (pa + i) else s.writeKept w (pa + i) [bs.getD i 0] tag poisoned) s).mem a =
          Memory.read s.mem a := by
      intro l
      induction l with
      | nil => exact fun _ _ => rfl
      | cons i l ih =>
        intro hl s
        have hi := hl i (List.mem_cons_self ..)
        rw [List.foldl_cons, ih (fun j hj => hl j (List.mem_cons_of_mem _ hj))]
        split
        · rw [State.writeLost_mem]
        · exact one _ _ _ (by simp only [List.length_singleton]; omega)
    exact this _ (fun i hi => by simpa using hi) s
  · exact one _ _ _ h

theorem State.read_writePhys_ne {s : State} {pa : Nat} {bs : List Byte} {tag poisoned : Bool} {a : Nat}
    (h : a < pa ∨ pa + bs.length ≤ a) :
    Memory.read (s.writePhys pa bs tag poisoned).mem a = Memory.read s.mem a :=
  State.read_writeAs_ne (s := { s with nextWrite := s.nextWrite + 1 }) h

/-! ### Spills to a save area -/

theorem State.putPieces_part (s : State) (l : Launch) (ps : List Piece) : s.memoryPart (s.putPieces l ps) :=
  State.foldl_keeps State.memoryPart_refl State.memoryPart_trans (fun s _ => s.writePhys_part ..) ps s

theorem State.putPieces_canonical (s : State) (l : Launch) (ps : List Piece) : s.keepsCanonical (s.putPieces l ps) :=
  State.foldl_keeps State.keepsCanonical_refl State.keepsCanonical_trans (fun s _ => s.writePhys_canonical _ _ _ _) ps s

/-- An address that no piece covers keeps its byte. -/
theorem State.read_putPieces_ne {l : Launch} {a : Nat} (ps : List Piece)
    (h : ∀ p ∈ ps, ¬(l.phys p.va ≤ a ∧ a < l.phys p.va + p.bytes.length)) (s : State) :
    Memory.read (s.putPieces l ps).mem a = Memory.read s.mem a := by
  induction ps generalizing s with
  | nil => rfl
  | cons p ps ih =>
    have hp := h p (List.mem_cons_self ..)
    refine (ih (fun q hq => h q (List.mem_cons_of_mem _ hq)) _).trans (State.read_writePhys_ne (by omega))

/-- A spill changes memory, its marks and order, the host writes on their way and the counter of free values. -/
theorem State.spill_part (s : State) (n core : Nat) :
    s.memoryPart { s.spill n core with free := s.free } := by
  unfold State.spill
  split
  · exact State.memoryPart_trans (s.putPieces_part _ _) (by rw [s.putPieces_part]; rfl)
  · rfl

theorem State.spill_canonical (s : State) (n core : Nat) : s.keepsCanonical (s.spill n core) := by
  unfold State.spill
  split
  · exact fun h => s.putPieces_canonical _ _ h
  · exact s.keepsCanonical_refl

theorem State.spillSet_canonical (s : State) (n core set : Nat) : s.keepsCanonical (s.spillSet n core set) := by
  unfold State.spillSet
  split
  · exact fun h => s.putPieces_canonical _ _ h
  · exact s.keepsCanonical_refl

/-! ### The saved image of a context that is away -/

theorem State.imageStore_part (s : State) (n core off : Nat) (bs : List Byte) :
    s.memoryPart (s.imageStore n core off bs) := by
  unfold State.imageStore
  split
  · exact s.memoryPart_refl
  · exact State.foldl_keeps State.memoryPart_refl State.memoryPart_trans (fun s _ => s.writePhys_part ..) _ s

theorem State.imageStore_canonical (s : State) (n core off : Nat) (bs : List Byte) :
    s.keepsCanonical (s.imageStore n core off bs) := by
  unfold State.imageStore
  split
  · exact s.keepsCanonical_refl
  · exact State.foldl_keeps State.keepsCanonical_refl State.keepsCanonical_trans
      (fun s _ => s.writePhys_canonical _ _ _ _) _ s

theorem State.imageBad_part (s : State) (n core off len : Nat) : s.memoryPart (s.imageBad n core off len) := by
  unfold State.imageBad
  split
  · exact s.memoryPart_refl
  · split
    · exact s.memoryPart_refl
    · exact State.foldl_keeps State.memoryPart_refl State.memoryPart_trans (fun _ _ => by unfold State.memoryPart; rfl) _ s

theorem State.imageBar_part (s : State) (n core id : Nat) (b : Barrier) : s.memoryPart (s.imageBar n core id b) := by
  unfold State.imageBar
  split
  · exact s.memoryPart_refl
  · exact s.writePhys_part ..

theorem State.imageBar_canonical (s : State) (n core id : Nat) (b : Barrier) :
    s.keepsCanonical (s.imageBar n core id b) := by
  unfold State.imageBar
  split
  · exact s.keepsCanonical_refl
  · exact s.writePhys_canonical _ _ _ _

theorem State.imageQueue_part (s : State) (n core : Nat) : s.memoryPart (s.imageQueue n core) := by
  unfold State.imageQueue
  split
  · exact s.memoryPart_refl
  · exact State.foldl_keeps State.memoryPart_refl State.memoryPart_trans (fun s _ => s.writePhys_part ..) _ s

theorem State.imageQueue_canonical (s : State) (n core : Nat) : s.keepsCanonical (s.imageQueue n core) := by
  unfold State.imageQueue
  split
  · exact s.keepsCanonical_refl
  · exact State.foldl_keeps State.keepsCanonical_refl State.keepsCanonical_trans
      (fun s _ => s.writePhys_canonical _ _ _ _) _ s

/-! ### Pending writes -/

theorem State.hostDone_part (s : State) (ids : List Nat) : s.memoryPart (s.hostDone ids) := rfl

theorem State.hostDone_canonical (s : State) (ids : List Nat) : s.keepsCanonical (s.hostDone ids) := id

theorem State.performOne_part (s : State) (st : Store) : s.memoryPart (s.performOne st) :=
  State.memoryPart_trans (s.hostDone_part _) (State.writeAs_part ..)

theorem State.performOne_canonical (s : State) (st : Store) : s.keepsCanonical (s.performOne st) := fun h =>
  (s.hostDone _).writeAs_canonical _ _ _ _ _ h

/-- Performing pending writes changes memory, its marks and order, the host writes on their way and the list of pending
writes. -/
theorem State.drainIf_part (s : State) (f : Store → Bool) :
    s.memoryPart { s.drainIf f with stores := s.stores } := by
  have h : ({ s with stores := (s.drainIf f).stores } : State).memoryPart (s.drainIf f) := by
    have h := State.foldl_keeps (P := State.memoryPart) State.memoryPart_refl State.memoryPart_trans
      (fun s st => s.performOne_part st)
      (s.stores.filter fun st =>
        (wanted ((s.stores.filter f).map (·.id)) (s.stores.reverse.map Store.needs)).contains st.id)
      { s with stores := s.stores.filter fun st =>
          !(wanted ((s.stores.filter f).map (·.id)) (s.stores.reverse.map Store.needs)).contains st.id }
    have e := congrArg State.stores h
    unfold State.memoryPart at h ⊢
    simp only [State.drainIf] at e ⊢
    rw [e]
    exact h
  unfold State.memoryPart at h ⊢
  rw [h]

theorem State.drainIf_canonical (s : State) (f : Store → Bool) : s.keepsCanonical (s.drainIf f) := fun h =>
  State.foldl_keeps State.keepsCanonical_refl State.keepsCanonical_trans (fun s st => s.performOne_canonical st) _ _ h

theorem State.drain_canonical (s : State) (k : Nat) : s.keepsCanonical (s.drain k) := s.drainIf_canonical _

theorem State.drainIds_canonical (s : State) (ids : List Nat) : s.keepsCanonical (s.drainIds ids) := s.drainIf_canonical _

@[simp] theorem State.drainIf_groups (s : State) (f : Store → Bool) : (s.drainIf f).groups = s.groups :=
  
  State.memoryPart_groups (t := { s.drainIf f with stores := s.stores }) (s.drainIf_part f)

@[simp] theorem State.drainIf_threads (s : State) (f : Store → Bool) : (s.drainIf f).threads = s.threads :=
  
  State.memoryPart_threads (t := { s.drainIf f with stores := s.stores }) (s.drainIf_part f)

@[simp] theorem State.drain_groups (s : State) (k : Nat) : (s.drain k).groups = s.groups := s.drainIf_groups _

@[simp] theorem State.drain_threads (s : State) (k : Nat) : (s.drain k).threads = s.threads := s.drainIf_threads _

theorem State.completeHost_canonical (s : State) (ids : List Nat) : s.keepsCanonical (s.completeHost ids) := fun h =>
  s.drainIf_canonical _ h

@[simp] theorem State.completeHost_groups (s : State) (ids : List Nat) : (s.completeHost ids).groups = s.groups :=
  s.drainIf_groups _

theorem State.perform_canonical (s : State) (st : Store) : s.keepsCanonical (s.perform st) :=
  State.keepsCanonical_trans (s.drainIds_canonical _) (State.performOne_canonical _ _)

theorem State.see_mem (s : State) (k : Nat) (lanes : Mask) (ids : List Nat) : (s.see k lanes ids).mem = s.mem := by
  unfold State.see; split <;> rfl

theorem State.reveal_canonical (s : State) (k : Nat) (lanes : Mask) (ids : List Nat) :
    s.keepsCanonical (s.reveal k lanes ids) := by
  unfold State.reveal
  split
  · exact s.keepsCanonical_refl
  · exact State.keepsCanonical_trans (s.drainIds_canonical ids) (State.keepsCanonical_of_eq (State.see_mem ..))

theorem State.acquire_canonical (s : State) (k : Nat) (lanes : Mask) (n : Obs) (rels : List Rel) :
    s.keepsCanonical (s.acquire k lanes n rels) := by
  unfold State.acquire
  split
  · exact s.keepsCanonical_refl
  · exact State.keepsCanonical_of_eq (State.see_mem ..)

theorem State.released_canonical (s : State) (k : Nat) (lanes : Mask) (own : Option Obs) (strong : Bool) :
    s.keepsCanonical (s.released k lanes own strong).1 := by
  unfold State.released
  split
  · exact s.keepsCanonical_refl
  · exact fun h => s.drainIds_canonical _ h

/-! ### Late reads -/

/-- What ends late reads changes the list of late loads and nothing else (R120). -/
theorem State.endLate_eq (s : State) (k : Nat) (lanes : Mask) (sp : Space) (a n : Nat) :
    s.endLate k lanes sp a n = { s with loads := (s.endLate k lanes sp a n).loads } := rfl

theorem State.mayBeLate_eq (s : State) (it : Iss) (i : Instr) (ord : Order) (ps : List (Space × Nat × Nat)) :
    s.mayBeLate it i ord ps = { s with loads := (s.mayBeLate it i ord ps).loads } := rfl

/-- A late read of a load that is not outstanding, or that the list does not name, changes nothing. -/
theorem State.readLate_none {s : State} {id : Nat} (h : s.loads.find? (fun r => r.id == id) = none) :
    s.readLate id = s := by
  simp only [State.readLate, h]

theorem State.readLate_landed {s : State} {id : Nat} {r : Late} (h : s.loads.find? (fun r => r.id == id) = some r)
    (ho : s.outstanding r = false) : s.readLate id = s := by
  simp [State.readLate, h, ho]

/-- An ordinary word ends no late read but those of its own split, and a word that computes ends none (R120). -/
theorem State.lateAfter_stays {s : State} {it : Iss} {w : Nat} (h : staysLate w = true) : s.lateAfter it w = s.loads := by
  simp [State.lateAfter, h]

/-! ### Cells that move or go -/

theorem Memory.wf_moveCells {m : List Host.Cell} (src dst n : Nat) (h : Memory.wf m = true) :
    Memory.wf (moveCells m src dst n) = true :=
  Memory.wf_foldl _ (fun _ x hm => Memory.wf_write _ x.2 hm) _ _ (Memory.wf_filter _ h)

/-- A restore writes the saved cells over what is kept (R449). -/
theorem Memory.wf_restored {m : List Host.Cell} (f : Host.Cell → Bool) (saved : List Host.Cell) (h : Memory.wf m = true) :
    Memory.wf (saved.foldl (fun m (c : Host.Cell) => Memory.write m c.1 c.2) (m.filter f)) = true :=
  Memory.wf_foldl _ (fun _ x hm => Memory.wf_write _ x.2 hm) _ _ (Memory.wf_filter _ h)

/-- The memory after reset is canonical. -/
theorem State.reset_canonical : Memory.wf State.reset.mem = true := rfl

end Sys2Proof.Machine
end

