-- ==== Sys2Proof/Laws/Operands.lean ====
section
/-!
SUPPORT. A word's operands and execution mask read the same before its issue and after (R66, R144): what a meaning reads
can be said of the state before the step.
-/

namespace Sys2Proof.Machine

open Sys2Proof

/-- An issuing split as an effect sees it once the word of `b` has begun; `b` is the split itself, or the split that reads
its group in another way. -/
def Iss.seen (it b : Iss) (i : Instr) (folds : Bool) : Iss :=
  { it with own := b.begunOwn i folds, g := b.begunOf i folds it.g, sp := b.begunSplit i folds it.sp }

theorem Iss.again_eq_seen {s : State} {it : Iss} (h : s.iss = some it) (i : Instr) (folds : Bool) :
    it.again (s.begun it i folds) = it.seen it i folds := by
  rw [Iss.again_begun h, Iss.begunOwn_split h, Iss.seen, Iss.begunGroup]

/-- The issuing split as the operands of an instruction are read: a cross-lane word reads what barriers have ordered
before it (R211). -/
def Iss.seenBy (it : Iss) (i : Instr) : Iss := if Instr.crossLane i then it.shown else it

theorem Iss.seenBy_of_plain {i : Instr} (h : Instr.crossLane i = false) (it : Iss) : it.seenBy i = it := by
  unfold Iss.seenBy
  rw [if_neg (by rw [h]; exact Bool.false_ne_true)]

theorem Group.writeRegs_begunOf (it : Iss) (i : Instr) (folds : Bool) (ws : List (RegId × Word)) :
    ∀ g : Group, (it.begunOf i folds g).writeRegs ws = it.begunOf i folds (g.writeRegs ws) := by
  induction ws with
  | nil => exact fun _ => rfl
  | cons x ws ih =>
    intro g
    have e : (it.begunOf i folds g).writeReg x.1 x.2 = it.begunOf i folds (g.writeReg x.1 x.2) := by
      obtain ⟨r, y⟩ := x
      have hl : (g.writeReg r y).lat = g.lat := by
        cases r <;> simp only [Group.writeReg] <;> first | rfl | (split <;> rfl)
      unfold Iss.begunOf
      rw [it.latsOf_congr i hl]
      cases r with
      | v n l =>
        simp only [Group.writeReg, Group.badKey]
        rw [show (({ g with lat := it.latsOf i g } : Group).modSplit it.j (it.begunSplit i folds)).inVx n = g.inVx n from rfl]
        split <;> rfl
      | s n => rfl
      | m n => simp only [Group.writeReg]; split <;> rfl
    simp only [Group.writeRegs, List.foldl_cons, e]
    exact ih _

/-- What barriers have ordered is read the same before a word has begun and after. -/
theorem Group.withShown_begunOf (it : Iss) (i : Instr) (folds : Bool) (g : Group) :
    (it.begunOf i folds g).withShown it.j = it.begunOf i folds (g.withShown it.j) := by
  have inner : ∀ (ps : List Pend) (f : Pend → List (RegId × Word)) (g : Group),
      ps.foldl (fun g p => g.writeRegs (f p)) (it.begunOf i folds g) =
      it.begunOf i folds (ps.foldl (fun g p => g.writeRegs (f p)) g) := by
    intro ps f
    induction ps with
    | nil => exact fun _ => rfl
    | cons p ps ih => intro g; simp only [List.foldl_cons, Group.writeRegs_begunOf, ih]
  have keep : ∀ (ps : List Pend) (f : Pend → List (RegId × Word)) (g : Group),
      (ps.foldl (fun g p => g.writeRegs (f p)) g).splits = g.splits := by
    intro ps f
    induction ps with
    | nil => exact fun _ => rfl
    | cons p ps ih => intro g; simp only [List.foldl_cons, ih, Group.splits_writeRegs]
  have outer : ∀ (xs : List Nat) (g : Group),
      xs.foldl (fun g x => if x = it.j then g
        else ((g.split x).pend.filter Pend.shown).foldl (fun g p =>
          g.writeRegs (p.writes.filter fun (w : RegId × Word) => match w.1 with | .v .. => true | _ => false)) g)
        (it.begunOf i folds g) =
      it.begunOf i folds (xs.foldl (fun g x => if x = it.j then g
        else ((g.split x).pend.filter Pend.shown).foldl (fun g p =>
          g.writeRegs (p.writes.filter fun (w : RegId × Word) => match w.1 with | .v .. => true | _ => false)) g) g) := by
    intro xs
    induction xs with
    | nil => exact fun _ => rfl
    | cons x xs ih =>
      intro g
      simp only [List.foldl_cons]
      by_cases hx : x = it.j
      · rw [if_pos hx, if_pos hx, ih]
      · have hs : (it.begunOf i folds g).split x = g.split x := by
          unfold Iss.begunOf
          rw [Group.split_modSplit, if_neg (fun h => hx h.1)]
          rfl
        rw [if_neg hx, if_neg hx, hs, inner, ih]
  unfold Group.withShown
  rw [show (it.begunOf i folds g).splits.length = g.splits.length from Group.modSplit_length ..]
  exact outer _ _

/-- What an effect finds of its split: its operands as it reads them, once a word has begun. -/
theorem Iss.issuedAs_eq {s : State} {it : Iss} (h : s.iss = some it) {i : Instr} (hb : Instr.atBarrier i = false)
    (folds : Bool) : it.issuedAs s i folds = (it.seenBy i).seen it i folds := by
  unfold Iss.issuedAs Iss.seenBy
  rw [State.issuedAs_eq hb, Iss.again_eq_seen h]
  split
  · simp only [Iss.seen, Iss.shown, Group.withShown_begunOf]
  · rfl

@[simp] theorem Iss.seen_key (it b : Iss) (i : Instr) (f : Bool) : (it.seen b i f).key = it.key := rfl
@[simp] theorem Iss.seen_j (it b : Iss) (i : Instr) (f : Bool) : (it.seen b i f).j = it.j := rfl
@[simp] theorem Iss.seen_l (it b : Iss) (i : Instr) (f : Bool) : (it.seen b i f).l = it.l := rfl
@[simp] theorem Iss.seen_c (it b : Iss) (i : Instr) (f : Bool) : (it.seen b i f).c = it.c := rfl
@[simp] theorem Iss.seen_readV (it b : Iss) (i : Instr) (f : Bool) (n l : Nat) :
    (it.seen b i f).g.readV n l = it.g.readV n l := rfl
@[simp] theorem Iss.seen_readS (it b : Iss) (i : Instr) (f : Bool) (n : Nat) : (it.seen b i f).g.readS n = it.g.readS n := rfl
@[simp] theorem Iss.seen_vVal (it b : Iss) (i : Instr) (f z : Bool) (n l : Nat) :
    (it.seen b i f).g.vVal z n l = it.g.vVal z n l := rfl
@[simp] theorem Iss.seen_sVal (it b : Iss) (i : Instr) (f z : Bool) (n : Nat) :
    (it.seen b i f).g.sVal z n = it.g.sVal z n := rfl

theorem Iss.seen_split (it b : Iss) (i : Instr) (f : Bool) :
    (it.seen b i f).sp.mask = it.sp.mask ∧ (it.seen b i f).sp.once = it.sp.once ∧ (it.seen b i f).sp.pc = it.sp.pc
    ∧ (it.seen b i f).sp.cc = it.sp.cc := by
  simp only [Iss.seen, Iss.begunSplit]
  split <;> exact ⟨rfl, rfl, rfl, rfl⟩

@[simp] theorem Iss.seen_mask (it b : Iss) (i : Instr) (f : Bool) : (it.seen b i f).sp.mask = it.sp.mask :=
  (it.seen_split b i f).1
@[simp] theorem Iss.seen_once (it b : Iss) (i : Instr) (f : Bool) : (it.seen b i f).sp.once = it.sp.once :=
  (it.seen_split b i f).2.1
@[simp] theorem Iss.seen_pc (it b : Iss) (i : Instr) (f : Bool) : (it.seen b i f).sp.pc = it.sp.pc :=
  (it.seen_split b i f).2.2.1
@[simp] theorem Iss.seen_cc (it b : Iss) (i : Instr) (f : Bool) : (it.seen b i f).sp.cc = it.sp.cc :=
  (it.seen_split b i f).2.2.2

@[simp] theorem Iss.seen_readM (it b : Iss) (i : Instr) (f : Bool) (n : Nat) :
    (it.seen b i f).g.readM (it.seen b i f).sp n = it.g.readM it.sp n := by
  simp only [Group.readM, Iss.seen_mask]
  rfl

/-- The execution mask does not change with the charge. -/
@[simp] theorem Iss.seen_exec (it b : Iss) (i : Instr) (f : Bool) (p : Pred) : (it.seen b i f).exec p = it.exec p := by
  simp only [Iss.exec, execMask, Iss.seen_readM, Iss.seen_mask, Iss.seen_once]

theorem nbRead_begun (s : State) (it b : Iss) (i : Instr) (f : Bool) (l dir j : Nat) :
    nbRead (s.begun b i f) (it.seen b i f).g it.c it.l.r l dir j = nbRead s it.g it.c it.l.r l dir j := by
  have hp : ∀ {α : Type} (k : Nat) (F : Group → α), (∀ g, F (b.begunOf i f g) = F g) →
      ((s.begun b i f).group? k).map F = (s.group? k).map F := by
    intro α k F hF
    rw [State.group?_begun_map]
    split
    · rw [Option.map_map]; exact congrArg (Option.map · _) (funext hF)
    · rfl
  have hb : ∀ {α : Type} (k : Nat) (F : Group → Option α), (∀ g, F (b.begunOf i f g) = F g) →
      ((s.begun b i f).group? k).bind F = (s.group? k).bind F := by
    intro α k F hF
    rw [State.group?_begun_map]
    split
    · rw [Option.bind_map]; exact congrArg (Option.bind _) (funext hF)
    · rfl
  have hp' (k a b c : Nat) := hp k (fun n => n.publishedAt a b c) fun _ => rfl
  have hb' (k c : Nat) := hb k (fun n => if n.gone = true then n.left.find? c else none) fun _ => rfl
  unfold nbRead
  simp only [hp', hb']
  rfl

/-- A typed source reads the same before a word has begun and after. -/
theorem srcVal_begun (s : State) (it b : Iss) (i : Instr) (f : Bool) (t : Ty) (o : Src) (l : Nat) :
    srcVal (s.begun b i f) (it.seen b i f) t o l = srcVal s it t o l := by
  cases o with
  | nb dir k => simp only [srcVal, nbVal, Iss.seen_c, Iss.seen_l, nbRead_begun]
  | _ => rfl

theorem src32_begun (s : State) (it b : Iss) (i : Instr) (f : Bool) (o : Src) (l : Nat) :
    src32 (s.begun b i f) (it.seen b i f) o l = src32 s it o l := srcVal_begun ..

@[simp] theorem dstVal_seen (it b : Iss) (i : Instr) (f : Bool) (t : Ty) (d : Dst) (l : Nat) :
    dstVal (it.seen b i f) t d l = dstVal it t d l := by cases d <;> rfl

theorem srcA_begun (s : State) (it b : Iss) (i : Instr) (f : Bool) (w : FWord XArith) (l : Nat) :
    srcA w (s.begun b i f) (it.seen b i f) l = srcA w s it l := by simp only [srcA, srcVal_begun]

theorem srcB_begun (s : State) (it b : Iss) (i : Instr) (f : Bool) (w : FWord XArith) (l : Nat) :
    srcB w (s.begun b i f) (it.seen b i f) l = srcB w s it l := by simp only [srcB, srcVal_begun]

theorem laneA_begun (s : State) (it b : Iss) (i : Instr) (f : Bool) (w : FWord XArith) (l : Nat) :
    laneA w (s.begun b i f) (it.seen b i f) l = laneA w s it l := srcVal_begun ..

/-! ### The shapes of arithmetic words -/

theorem ComputesTo.congr {i : Instr} {s : State} {it : Iss} {pc : Dword} {f f' : RegId → Option Word} {u : FlagUpd}
    (h : ComputesTo i s it pc f u) (e : ∀ r, r.real → f r = f' r) : ComputesTo i s it pc f' u := by
  obtain ⟨t, g', h1, h2, h3, h4, h5, h6⟩ := h
  exact ⟨t, g', h1, h2, h3, h4, Group.takes_congr h5 fun r hr => (e r hr).symm, h6⟩

/-- A word of the arithmetic shape that writes its result at issue: D takes the value of every active lane, and the flags
are those of the lowest active lane (R208, R210). -/
theorem arith_computes {i : Instr} {s : State} {it : Iss} {w : FWord XArith} {regs : Nat}
    {val : State → Iss → Nat → Nat} {fl : State → Iss → Nat → Nat → FlagUpd} (h : Issues i s it)
    (hb : Instr.atBarrier i = false) (hc : Instr.crossLane i = false)
    (hx : exec i s = arith i w false regs val fl s)
    (hv : ∀ l, val (s.begun it i true) (it.seen it i true) l = val s it l)
    (hf : ∀ l x, fl (s.begun it i true) (it.seen it i true) l x = fl s it l x) :
    Computes i s it (dstTakes w.d regs (it.exec w.p) (val s it))
      (if w.x.cc && it.exec w.p != 0 then fl s it (lowest (it.exec w.p)) (val s it (lowest (it.exec w.p))) else {}) := by
  refine (computes_of_writeNow (ws := laneWrites w.d regs (it.exec w.p) (val s it)) (eff := fun s it =>
      let m := it.exec w.p
      let f := if w.x.cc && m != 0 then fl s it (lowest m) (val s it (lowest m)) else {}
      .ok (s.result it false w.la (laneWrites w.d regs m (val s it)) f) none) (next := none) h hb rfl (hx.trans rfl) ?_
    (laneWrites_real _ _ _ _)).congr fun r hr => written_laneWrites _ _ _ _ hr
  rw [Iss.issuedAs_eq h.1.1 hb, Iss.seenBy_of_plain hc]
  simp only [Iss.seen_exec, State.result, funext hv, hf, hv]
  rfl

/-- The same for a long-latency word. -/
theorem arith_enters {i : Instr} {s : State} {it : Iss} {w : FWord XArith} {regs : Nat}
    {val : State → Iss → Nat → Nat} {fl : State → Iss → Nat → Nat → FlagUpd} (h : Issues i s it)
    (hb : Instr.atBarrier i = false) (hc : Instr.crossLane i = false)
    (hx : exec i s = arith i w true regs val fl s)
    (hv : ∀ l, val (s.begun it i true) (it.seen it i true) l = val s it l)
    (hf : ∀ l x, fl (s.begun it i true) (it.seen it i true) l x = fl s it l x) :
    Enters i s it w.la (laneWrites w.d regs (it.exec w.p) (val s it))
      (if w.x.cc && it.exec w.p != 0 then fl s it (lowest (it.exec w.p)) (val s it (lowest (it.exec w.p))) else {}) := by
  refine enters_of_writeLater (eff := fun s it =>
      let m := it.exec w.p
      let f := if w.x.cc && m != 0 then fl s it (lowest m) (val s it (lowest m)) else {}
      .ok (s.result it true w.la (laneWrites w.d regs m (val s it)) f) none) h hb (hx.trans rfl) (it' := it.seen it i true) rfl rfl
    (by rw [← Iss.issuedAs_lat h.1.1 hb, Iss.issuedAs_eq h.1.1 hb, Iss.seenBy_of_plain hc]) ?_
  rw [Iss.issuedAs_eq h.1.1 hb, Iss.seenBy_of_plain hc]
  simp only [Iss.seen_exec, State.result, funext hv, hf, hv]
  rfl

/-- The same wherever its path leads. -/
theorem arith_becomes {i : Instr} {s : State} {it : Iss} {w : FWord XArith} {long : Bool} {regs : Nat}
    {val : State → Iss → Nat → Nat} {fl : State → Iss → Nat → Nat → FlagUpd} (h : Issued i s it)
    (hb : Instr.atBarrier i = false) (hc : Instr.crossLane i = false)
    (hx : exec i s = arith i w long regs val fl s)
    (hv : ∀ l, val (s.begun it i true) (it.seen it i true) l = val s it l)
    (hf : ∀ l x, fl (s.begun it i true) (it.seen it i true) l x = fl s it l x) :
    Becomes i s it ((s.issued it i).result (it.issued s i) long w.la (laneWrites w.d regs (it.exec w.p) (val s it))
      (if w.x.cc && it.exec w.p != 0 then fl s it (lowest (it.exec w.p)) (val s it (lowest (it.exec w.p))) else {}))
      (it.sp.pc + 8) := by
  refine becomes_of_ok (next := none) (eff := fun s it =>
      let m := it.exec w.p
      let f := if w.x.cc && m != 0 then fl s it (lowest m) (val s it (lowest m)) else {}
      .ok (s.result it long w.la (laneWrites w.d regs m (val s it)) f) none) h (hx.trans rfl) ?_
  simp only [State.issued, Iss.issued, Iss.issuedAs_eq h.1 hb, Iss.seenBy_of_plain hc, State.issuedAs_eq hb, Iss.seen_exec,
    funext hv, hf, hv]

/-- A word of the arithmetic shape whose value and flags read the same before a word has begun and after is a value
word. -/
theorem valueWord_of_arith {i : Instr} {w : FWord XArith} {regs : Nat} {val val' : State → Iss → Nat → Nat}
    {fl fl' : State → Iss → Nat → Nat → FlagUpd} (hb : Instr.atBarrier i = false) (hc : Instr.crossLane i = false)
    (hx : ∀ s, exec i s = arith i w false regs val fl s)
    (ev : ∀ s it l, val s it l = val' s it l) (ef : ∀ s it l x, fl s it l x = fl' s it l x)
    (hv : ∀ s it b i f l, val (s.begun b i f) (it.seen b i f) l = val s it l)
    (hf : ∀ s it b i f l x, fl (s.begun b i f) (it.seen b i f) l x = fl s it l x) :
    ValueWord i w regs val' fl' := by
  intro s it
  refine ⟨fun h => ?_, fun h => ?_⟩
  · have := arith_computes h hb hc (hx s) (hv s it it _ _) (hf s it it _ _)
    rw [show val s it = val' s it from funext (ev s it)] at this
    simp only [ef] at this
    exact this
  · have := arith_becomes h hb hc (hx s) (hv s it it _ _) (hf s it it _ _)
    rw [show val s it = val' s it from funext (ev s it)] at this
    simp only [ef] at this
    exact this

/-- The same for a long-latency word. -/
theorem lateWord_of_arith {i : Instr} {w : FWord XArith} {val val' : State → Iss → Nat → Nat}
    {fl fl' : State → Iss → Nat → Nat → FlagUpd} (hb : Instr.atBarrier i = false) (hc : Instr.crossLane i = false)
    (hx : ∀ s, exec i s = arith i w true (tyRegs w.x.ty) val fl s)
    (ev : ∀ s it l, val s it l = val' s it l) (ef : ∀ s it l x, fl s it l x = fl' s it l x)
    (hv : ∀ s it b i f l, val (s.begun b i f) (it.seen b i f) l = val s it l)
    (hf : ∀ s it b i f l x, fl (s.begun b i f) (it.seen b i f) l x = fl s it l x) :
    LateWord i w val' fl' := by
  intro s it
  refine ⟨fun h => ?_, fun h => ?_⟩
  · have := arith_enters h hb hc (hx s) (hv s it it _ _) (hf s it it _ _)
    rw [show val s it = val' s it from funext (ev s it)] at this
    simp only [ef] at this
    exact this
  · have := arith_becomes h hb hc (hx s) (hv s it it _ _) (hf s it it _ _)
    rw [show val s it = val' s it from funext (ev s it)] at this
    simp only [ef] at this
    exact this

/-- A word whose effect is to write some registers and flags at issue computes them. -/
theorem computes_of_effect {i : Instr} {s : State} {it : Iss} {eff : State → Iss → Eff} {ws : List (RegId × Word)}
    {f : RegId → Option Word} {u : FlagUpd} (h : Issues i s it) (hb : Instr.atBarrier i = false)
    (hx : exec i s = issueAs i true s eff)
    (he : eff (s.begun it i true) ((it.seenBy i).seen it i true) =
      .ok ((s.begun it i true).writeNow (it.seen it i true) ws u) none)
    (hw : ∀ w ∈ ws, w.1.real) (hf : ∀ r, r.real → written ws r = f r) : Computes i s it f u :=
  (computes_of_writeNow (next := none) h hb rfl hx (by rw [Iss.issuedAs_eq h.1.1 hb]; exact he) hw).congr hf

end Sys2Proof.Machine
end

