-- ==== Sys2Proof/Laws/PerInstr.lean ====
section
/-!
SUPPORT. A family of statements about instructions as syntax, one lemma per constructor: a well-formed instruction's word
fits 64 bits (R186), so that no bit of it is lost where it is stored.
-/

namespace Sys2Proof.Laws.WordSize

open Sys2Proof

/-- The word of a well-formed instruction fits 64 bits; an event has the word 0. -/
def Statement (i : Instr) : Prop := i.wellFormed = true → encode i < 2 ^ 64

/-- From the fields that fit. -/
theorem of_fits {i : Instr} (h : i.fits = true → encode i < 2 ^ 64) : Statement i := by
  intro hw
  simp only [Instr.wellFormed, Bool.and_eq_true] at hw
  exact h hw.1.1

theorem of_encF {χ : Type} {i : Instr} {op : Nat} {w : FWord χ} {x : Nat} (he : encode i = encF op w x)
    (hop : op < 256) (h : i.fits = true → w.fits = true ∧ x < 65536) : Statement i :=
  of_fits fun hf => by
    have := encF_lt hop (h hf).1 (h hf).2
    rw [he]; omega

theorem of_encT {χ : Type} {i : Instr} {op : Nat} {w : TWord χ} {x : Nat} (he : encode i = encT op w x)
    (hop : op < 256) (h : i.fits = true → w.fits = true ∧ x < 65536) : Statement i :=
  of_fits fun hf => by
    have := encT_lt hop (h hf).1 (h hf).2
    rw [he]; omega

theorem of_encI {χ : Type} {i : Instr} {op : Nat} {w : IWord χ} {x : Nat} (he : encode i = encI op w x)
    (hop : op < 256) (h : i.fits = true → w.fits = true ∧ x < 256) : Statement i :=
  of_fits fun hf => by rw [he]; exact (encI_fields hop (h hf).1 (h hf).2).1

theorem of_encC {i : Instr} {cop cond aux : Nat} {disp : Int} (he : encode i = encC cop cond aux disp)
    (hop : cop < 64) (h : i.fits = true → cond < 64 ∧ aux < 2 ^ 18 ∧ dispFits 32 disp = true) : Statement i :=
  of_fits fun hf => by rw [he]; exact (encC_fields hop (h hf).1 (h hf).2.1 (h hf).2.2).1

theorem of_encP {i : Instr} {op : POp} {a : PArgs} {t : PSlot} (he : encode i = encP op a t)
    (h : i.fits = true → (⟨op, a⟩ : PSlot).fits = true ∧ t.fits = true) : Statement i :=
  of_fits fun hf => by rw [he]; exact (encP_fields (h hf).1 (h hf).2).1

/-- An F word with X16 of arithmetic, of a memory word, of nothing, or a plain number that fits. -/
theorem arith {i : Instr} {op : Nat} {w : FWord XArith} (he : encode i = encF op w w.x.code) (hop : op < 256)
    (hf : i.fits = (w.fits && decide (w.x.opx < 16))) : Statement i :=
  of_encF he hop fun h => by
    rw [hf] at h; simp only [Bool.and_eq_true, decide_eq_true_eq] at h
    exact ⟨h.1, XArith.code_lt h.2⟩

theorem mem {i : Instr} {op : Nat} {w : FWord XMem} (he : encode i = encF op w w.x.code) (hop : op < 256)
    (hf : i.fits = w.fits) : Statement i :=
  of_encF he hop fun h => ⟨by rwa [hf] at h, XMem.code_lt _⟩

theorem unit {i : Instr} {op : Nat} {w : FWord Unit} (he : encode i = encF op w 0) (hop : op < 256)
    (hf : i.fits = w.fits) : Statement i :=
  of_encF he hop fun h => ⟨by rwa [hf] at h, by decide⟩

theorem bar' {i : Instr} {op : Nat} {w : FWord XBar} (he : encode i = encF op w w.x.code) (hop : op < 256)
    (hf : i.fits = w.fits) : Statement i :=
  of_encF he hop fun h => ⟨by rwa [hf] at h, XBar.code_lt _⟩

theorem tb {i : Instr} {op : Nat} {w : FWord XTb} (he : encode i = encF op w w.x.code) (hop : op < 256)
    (hf : i.fits = w.fits) : Statement i :=
  of_encF he hop fun h => ⟨by rwa [hf] at h, XTb.code_lt _⟩

theorem imm {i : Instr} {op : Nat} {w : IWord XImm} (he : encode i = encI op w w.x.code) (hop : op < 256)
    (hf : i.fits = w.fits) : Statement i :=
  of_encI he hop fun h => ⟨by rwa [hf] at h, XImm.code_lt _⟩

theorem pair {i : Instr} {op : POp} {a : PArgs} {t : PSlot} (he : encode i = encP op a t)
    (hf : i.fits = ((⟨.nop, a⟩ : PSlot).fits && t.fits)) : Statement i :=
  of_encP he fun h => by
    rw [hf] at h; simp only [Bool.and_eq_true] at h
    exact ⟨h.1, h.2⟩

theorem event {i : Instr} (he : encode i = 0) : Statement i := fun _ => by rw [he]; decide

theorem nop : Statement (.nop) := fun _ => by decide
theorem mov (w : FWord XArith) : Statement (.mov w) := arith rfl (by decide) rfl
theorem sel (w : FWord XArith) : Statement (.sel w) := arith rfl (by decide) rfl
theorem iadd (w : FWord XArith) : Statement (.iadd w) := arith rfl (by decide) rfl
theorem isub (w : FWord XArith) : Statement (.isub w) := arith rfl (by decide) rfl
theorem imul (w : FWord XArith) : Statement (.imul w) := arith rfl (by decide) rfl
theorem imulh (w : FWord XArith) : Statement (.imulh w) := arith rfl (by decide) rfl
theorem imad (w : FWord XArith) : Statement (.imad w) := arith rfl (by decide) rfl
theorem idiv (w : FWord XArith) : Statement (.idiv w) := arith rfl (by decide) rfl
theorem imin (w : FWord XArith) : Statement (.imin w) := arith rfl (by decide) rfl
theorem imax (w : FWord XArith) : Statement (.imax w) := arith rfl (by decide) rfl
theorem iabs (w : FWord XArith) : Statement (.iabs w) := arith rfl (by decide) rfl
theorem lea (w : FWord XArith) : Statement (.lea w) := arith rfl (by decide) rfl
theorem and (w : FWord XArith) : Statement (.and w) := arith rfl (by decide) rfl
theorem or (w : FWord XArith) : Statement (.or w) := arith rfl (by decide) rfl
theorem xor (w : FWord XArith) : Statement (.xor w) := arith rfl (by decide) rfl
theorem andn (w : FWord XArith) : Statement (.andn w) := arith rfl (by decide) rfl
theorem shl (w : FWord XArith) : Statement (.shl w) := arith rfl (by decide) rfl
theorem shr (w : FWord XArith) : Statement (.shr w) := arith rfl (by decide) rfl
theorem sar (w : FWord XArith) : Statement (.sar w) := arith rfl (by decide) rfl
theorem rot (w : FWord XArith) : Statement (.rot w) := arith rfl (by decide) rfl
theorem popc (w : FWord XArith) : Statement (.popc w) := arith rfl (by decide) rfl
theorem clz (w : FWord XArith) : Statement (.clz w) := arith rfl (by decide) rfl
theorem brev (w : FWord XArith) : Statement (.brev w) := arith rfl (by decide) rfl
theorem bfe (w : FWord XArith) : Statement (.bfe w) := arith rfl (by decide) rfl
theorem bfi (w : FWord XArith) : Statement (.bfi w) := arith rfl (by decide) rfl
theorem icmp (w : FWord XArith) : Statement (.icmp w) := arith rfl (by decide) rfl
theorem fadd (w : FWord XArith) : Statement (.fadd w) := arith rfl (by decide) rfl
theorem fsub (w : FWord XArith) : Statement (.fsub w) := arith rfl (by decide) rfl
theorem fmul (w : FWord XArith) : Statement (.fmul w) := arith rfl (by decide) rfl
theorem ffma (w : FWord XArith) : Statement (.ffma w) := arith rfl (by decide) rfl
theorem fmin (w : FWord XArith) : Statement (.fmin w) := arith rfl (by decide) rfl
theorem fmax (w : FWord XArith) : Statement (.fmax w) := arith rfl (by decide) rfl
theorem fcmp (w : FWord XArith) : Statement (.fcmp w) := arith rfl (by decide) rfl
theorem frnd (w : FWord XArith) : Statement (.frnd w) := arith rfl (by decide) rfl
theorem frcp (w : FWord XArith) : Statement (.frcp w) := arith rfl (by decide) rfl
theorem frsq (w : FWord XArith) : Statement (.frsq w) := arith rfl (by decide) rfl
theorem fsqrt (w : FWord XArith) : Statement (.fsqrt w) := arith rfl (by decide) rfl
theorem fdiv (w : FWord XArith) : Statement (.fdiv w) := arith rfl (by decide) rfl
theorem fexp2 (w : FWord XArith) : Statement (.fexp2 w) := arith rfl (by decide) rfl
theorem flog2 (w : FWord XArith) : Statement (.flog2 w) := arith rfl (by decide) rfl
theorem fsin (w : FWord XArith) : Statement (.fsin w) := arith rfl (by decide) rfl
theorem fcos (w : FWord XArith) : Statement (.fcos w) := arith rfl (by decide) rfl
theorem fclass (w : FWord XArith) : Statement (.fclass w) := arith rfl (by decide) rfl
theorem fdot2 (w : FWord XArith) : Statement (.fdot2 w) := arith rfl (by decide) rfl
theorem cvt (w : FWord XCvt) : Statement (.cvt w) :=
  of_encF rfl (by decide) fun h => by
    simp only [Instr.fits, Bool.and_eq_true, decide_eq_true_eq] at h
    exact ⟨h.1, XCvt.code_lt h.2⟩
theorem cvtq (w : FWord XArith) : Statement (.cvtq w) := arith rfl (by decide) rfl
theorem cvtqd (w : FWord XArith) : Statement (.cvtqd w) := arith rfl (by decide) rfl
theorem pack (w : FWord XArith) : Statement (.pack w) := arith rfl (by decide) rfl
theorem unpack (w : FWord XArith) : Statement (.unpack w) := arith rfl (by decide) rfl
theorem shfl (w : FWord XArith) : Statement (.shfl w) := arith rfl (by decide) rfl
theorem shflx (w : FWord XArith) : Statement (.shflx w) := arith rfl (by decide) rfl
theorem bcst (w : FWord XArith) : Statement (.bcst w) := arith rfl (by decide) rfl
theorem vote (w : FWord XArith) : Statement (.vote w) := arith rfl (by decide) rfl
theorem matchl (w : FWord XArith) : Statement (.matchl w) := arith rfl (by decide) rfl
theorem redl (w : FWord XArith) : Statement (.redl w) := arith rfl (by decide) rfl
theorem scanl (w : FWord XArith) : Statement (.scanl w) := arith rfl (by decide) rfl
theorem firstl (w : FWord XArith) : Statement (.firstl w) := arith rfl (by decide) rfl
theorem mtos (w : FWord XArith) : Statement (.mtos w) := arith rfl (by decide) rfl
theorem stom (w : FWord XArith) : Statement (.stom w) := arith rfl (by decide) rfl
theorem step : Statement (.step) := fun _ => by decide
theorem stepq (w : FWord Bool) : Statement (.stepq w) := of_encF rfl (by decide) fun h => ⟨h, by cases w.x <;> decide⟩
theorem sread (w : FWord Nat) : Statement (.sread w) :=
  of_encF rfl (by decide) fun h => by
    simp only [Instr.fits, Bool.and_eq_true, decide_eq_true_eq] at h
    exact ⟨h.1, by omega⟩
theorem swrite (w : FWord Nat) : Statement (.swrite w) :=
  of_encF rfl (by decide) fun h => by
    simp only [Instr.fits, Bool.and_eq_true, decide_eq_true_eq] at h
    exact ⟨h.1, by omega⟩
theorem xread (w : FWord RReg) : Statement (.xread w) :=
  of_encF rfl (by decide) fun h => by
    simp only [Instr.fits, Bool.and_eq_true] at h
    exact ⟨h.1, Nat.lt_trans (RReg.code_lt h.2) (by decide)⟩
theorem xwrite (w : FWord RReg) : Statement (.xwrite w) :=
  of_encF rfl (by decide) fun h => by
    simp only [Instr.fits, Bool.and_eq_true] at h
    exact ⟨h.1, Nat.lt_trans (RReg.code_lt h.2) (by decide)⟩
theorem sprint (w : FWord Bool) : Statement (.sprint w) :=
  of_encF rfl (by decide) fun h => ⟨h, by cases w.x <;> decide⟩
theorem sprel (w : FWord Unit) : Statement (.sprel w) := unit rfl (by decide) rfl
theorem assertw (w : FWord Unit) : Statement (.assertw w) := unit rfl (by decide) rfl
theorem bkpt (w : FWord Nat) : Statement (.bkpt w) :=
  of_encF rfl (by decide) fun h => by
    simp only [Instr.fits, Bool.and_eq_true, decide_eq_true_eq] at h
    exact ⟨h.1, by omega⟩
theorem yieldw (w : FWord Nat) : Statement (.yieldw w) :=
  of_encF rfl (by decide) fun h => by
    simp only [Instr.fits, Bool.and_eq_true, decide_eq_true_eq] at h
    exact ⟨h.1, by omega⟩
theorem tdset (w : FWord Unit) : Statement (.tdset w) := unit rfl (by decide) rfl
theorem tdget (w : FWord Unit) : Statement (.tdget w) := unit rfl (by decide) rfl
theorem ld (w : FWord XMem) : Statement (.ld w) := mem rfl (by decide) rfl
theorem st (w : FWord XMem) : Statement (.st w) := mem rfl (by decide) rfl
theorem lds (w : FWord XMem) : Statement (.lds w) := mem rfl (by decide) rfl
theorem sts (w : FWord XMem) : Statement (.sts w) := mem rfl (by decide) rfl
theorem ldl (w : FWord XMem) : Statement (.ldl w) := mem rfl (by decide) rfl
theorem stl (w : FWord XMem) : Statement (.stl w) := mem rfl (by decide) rfl
theorem ldu (w : FWord XMem) : Statement (.ldu w) := mem rfl (by decide) rfl
theorem stu (w : FWord XMem) : Statement (.stu w) := mem rfl (by decide) rfl
theorem ldt (w : FWord XMem) : Statement (.ldt w) := mem rfl (by decide) rfl
theorem stt (w : FWord XMem) : Statement (.stt w) := mem rfl (by decide) rfl
theorem pref (w : FWord XMem) : Statement (.pref w) := mem rfl (by decide) rfl
theorem fence (w : FWord XMem) : Statement (.fence w) := mem rfl (by decide) rfl
theorem atom (w : FWord XMem) : Statement (.atom w) := mem rfl (by decide) rfl
theorem atomn (w : FWord XMem) : Statement (.atomn w) := mem rfl (by decide) rfl
theorem atoms (w : FWord XMem) : Statement (.atoms w) := mem rfl (by decide) rfl
theorem atomsn (w : FWord XMem) : Statement (.atomsn w) := mem rfl (by decide) rfl
theorem atomu (w : FWord XMem) : Statement (.atomu w) := mem rfl (by decide) rfl
theorem bar (w : FWord XBar) : Statement (.bar w) := bar' rfl (by decide) rfl
theorem bara (w : FWord XBar) : Statement (.bara w) := bar' rfl (by decide) rfl
theorem barw (w : FWord XBar) : Statement (.barw w) := bar' rfl (by decide) rfl
theorem tbinit (w : FWord XTb) : Statement (.tbinit w) := tb rfl (by decide) rfl
theorem tbarr (w : FWord XTb) : Statement (.tbarr w) := tb rfl (by decide) rfl
theorem tbexp (w : FWord XTb) : Statement (.tbexp w) := tb rfl (by decide) rfl
theorem tbwait (w : FWord XTb) : Statement (.tbwait w) := tb rfl (by decide) rfl
theorem tbtest (w : FWord XTb) : Statement (.tbtest w) := tb rfl (by decide) rfl
theorem cpy (w : FWord XCpy) : Statement (.cpy w) :=
  of_encF rfl (by decide) fun h => by
    simp only [Instr.fits, Bool.and_eq_true, decide_eq_true_eq] at h
    exact ⟨h.1.1, by simp only [XCpy.code]; omega⟩
theorem cpyc (w : FWord Unit) : Statement (.cpyc w) := unit rfl (by decide) rfl
theorem cpyt (w : FWord XCpyt) : Statement (.cpyt w) :=
  of_encF rfl (by decide) fun h => by
    simp only [Instr.fits, Bool.and_eq_true, decide_eq_true_eq] at h
    exact ⟨h.1.1, by have := b2n_le w.x.cv; simp only [XCpyt.code]; omega⟩
theorem stage (w : FWord Unit) : Statement (.stage w) := unit rfl (by decide) rfl
theorem gpool (w : FWord XGpool) : Statement (.gpool w) :=
  of_encF rfl (by decide) fun h => by
    simp only [Instr.fits, Bool.and_eq_true, decide_eq_true_eq] at h
    exact ⟨h.1.1.1, by simp only [XGpool.code]; omega⟩
theorem scata (w : FWord Unit) : Statement (.scata w) := unit rfl (by decide) rfl
theorem fld (w : FWord XMem) : Statement (.fld w) := mem rfl (by decide) rfl
theorem fst (w : FWord XMem) : Statement (.fst w) := mem rfl (by decide) rfl
theorem fput (w : FWord Unit) : Statement (.fput w) := unit rfl (by decide) rfl
theorem fget (w : FWord Unit) : Statement (.fget w) := unit rfl (by decide) rfl
theorem fatom (w : FWord XMem) : Statement (.fatom w) := mem rfl (by decide) rfl
theorem fatomn (w : FWord XMem) : Statement (.fatomn w) := mem rfl (by decide) rfl
theorem palloc (w : FWord Unit) : Statement (.palloc w) := unit rfl (by decide) rfl
theorem pfree (w : FWord Unit) : Statement (.pfree w) := unit rfl (by decide) rfl
theorem paddr (w : FWord Unit) : Statement (.paddr w) := unit rfl (by decide) rfl
theorem ldp (w : FWord XMem) : Statement (.ldp w) := mem rfl (by decide) rfl
theorem stp (w : FWord XMem) : Statement (.stp w) := mem rfl (by decide) rfl
theorem stpr (w : FWord XMem) : Statement (.stpr w) := mem rfl (by decide) rfl
theorem post (w : FWord XMem) : Statement (.post w) := mem rfl (by decide) rfl
theorem precv (w : FWord XMem) : Statement (.precv w) := mem rfl (by decide) rfl
theorem pstat (w : FWord Unit) : Statement (.pstat w) := unit rfl (by decide) rfl
theorem mma (w : TWord XMma) : Statement (.mma w) :=
  of_encT rfl (by decide) fun h => by
    simp only [Instr.fits, Bool.and_eq_true] at h
    exact ⟨h.1, XMma.code_lt h.2⟩
theorem mmaq (w : TWord XMma) : Statement (.mmaq w) :=
  of_encT rfl (by decide) fun h => by
    simp only [Instr.fits, Bool.and_eq_true] at h
    exact ⟨h.1, XMma.code_lt h.2⟩
theorem mmas (w : TWord XMma) : Statement (.mmas w) :=
  of_encT rfl (by decide) fun h => by
    simp only [Instr.fits, Bool.and_eq_true] at h
    exact ⟨h.1, XMma.code_lt h.2⟩
theorem mzero (w : TWord Unit) : Statement (.mzero w) := of_encT rfl (by decide) fun h => ⟨h, by decide⟩
theorem mld (w : TWord Unit) : Statement (.mld w) := of_encT rfl (by decide) fun h => ⟨h, by decide⟩
theorem mst (w : TWord Unit) : Statement (.mst w) := of_encT rfl (by decide) fun h => ⟨h, by decide⟩
theorem mrd (w : TWord Unit) : Statement (.mrd w) := of_encT rfl (by decide) fun h => ⟨h, by decide⟩
theorem wmv (w : FWord Nat) : Statement (.wmv w) :=
  of_encF rfl (by decide) fun h => by
    simp only [Instr.fits, Bool.and_eq_true, decide_eq_true_eq] at h
    exact ⟨h.1, by omega⟩
theorem wload (w : FWord Unit) : Statement (.wload w) := unit rfl (by decide) rfl
theorem movi (w : IWord XImm) : Statement (.movi w) := imm rfl (by decide) rfl
theorem addi (w : IWord XImm) : Statement (.addi w) := imm rfl (by decide) rfl
theorem andi (w : IWord XImm) : Statement (.andi w) := imm rfl (by decide) rfl
theorem ori (w : IWord XImm) : Statement (.ori w) := imm rfl (by decide) rfl
theorem xori (w : IWord XImm) : Statement (.xori w) := imm rfl (by decide) rfl
theorem muli (w : IWord XImm) : Statement (.muli w) := imm rfl (by decide) rfl
theorem cmpi (w : IWord (Ty × Nat)) : Statement (.cmpi w) :=
  of_encI rfl (by decide) fun h => by
    simp only [Instr.fits, Bool.and_eq_true, decide_eq_true_eq] at h
    exact ⟨h.1, by have := w.x.1.code_lt; omega⟩
theorem movhi (w : IWord Ty) : Statement (.movhi w) :=
  of_encI rfl (by decide) fun h => ⟨h, by have := w.x.code_lt; omega⟩
theorem ldc (w : IWord (Ty × Int)) : Statement (.ldc w) :=
  of_encI rfl (by decide) fun h => by
    simp only [Instr.fits, Bool.and_eq_true] at h
    exact ⟨h.1, by have := w.x.1.code_lt; have := sfield4_lt w.x.2; omega⟩
theorem sigchk (imm : Nat) : Statement (.sigchk imm) :=
  of_fits fun h => by
    simp only [Instr.fits, decide_eq_true_eq] at h
    simp only [encode]; omega
theorem bra (c : CCond) (disp : Int) : Statement (.bra c disp) :=
  of_encC rfl (by decide) fun h => by
    simp only [Instr.fits, Bool.and_eq_true] at h
    exact ⟨CCond.code_lt h.1, by decide, h.2⟩
theorem call (c : CCond) (link : Nat) (disp : Int) : Statement (.call c link disp) :=
  of_encC rfl (by decide) fun h => by
    simp only [Instr.fits, Bool.and_eq_true, decide_eq_true_eq] at h
    exact ⟨CCond.code_lt h.1.1, by omega, h.2⟩
theorem ret (c : CCond) (r : Nat) : Statement (.ret c r) :=
  of_encC rfl (by decide) fun h => by
    simp only [Instr.fits, Bool.and_eq_true, decide_eq_true_eq] at h
    exact ⟨CCond.code_lt h.1, by omega, by decide⟩
theorem jmps (c : CCond) (r : Nat) : Statement (.jmps c r) :=
  of_encC rfl (by decide) fun h => by
    simp only [Instr.fits, Bool.and_eq_true, decide_eq_true_eq] at h
    exact ⟨CCond.code_lt h.1, by omega, by decide⟩
theorem loop (r : Nat) (disp : Int) : Statement (.loop r disp) :=
  of_encC rfl (by decide) fun h => by
    simp only [Instr.fits, Bool.and_eq_true, decide_eq_true_eq] at h
    exact ⟨by decide, by omega, h.2⟩
theorem split (sense : Bool) (n : Nat) (els join : Int) : Statement (.split sense n els join) :=
  of_encC rfl (by decide) fun h => by
    simp only [Instr.fits, Bool.and_eq_true, decide_eq_true_eq] at h
    exact ⟨by have := b2n_le sense; omega, sfield18_lt _, h.2⟩
theorem jtab (x len : Nat) (disp : Int) : Statement (.jtab x len disp) :=
  of_encC rfl (by decide) fun h => by
    simp only [Instr.fits, Bool.and_eq_true, decide_eq_true_eq] at h
    exact ⟨by decide, by omega, h.2⟩
theorem exit (c : CCond) : Statement (.exit c) :=
  of_encC rfl (by decide) fun h => ⟨CCond.code_lt h, by decide, by decide⟩
theorem trap (c : CCond) (code : Nat) : Statement (.trap c code) :=
  of_encC rfl (by decide) fun h => by
    simp only [Instr.fits, Bool.and_eq_true, decide_eq_true_eq] at h
    exact ⟨CCond.code_lt h.1, by omega, by decide⟩
theorem rft : Statement (.rft) := fun _ => by decide
theorem contain (id : Nat) (disp : Int) : Statement (.contain id disp) :=
  of_encC rfl (by decide) fun h => by
    simp only [Instr.fits, Bool.and_eq_true, decide_eq_true_eq] at h
    exact ⟨by decide, by omega, h.2⟩
theorem uncontain : Statement (.uncontain) := fun _ => by decide
theorem pairNop (a : PArgs) (t : PSlot) : Statement (.pairNop a t) := pair rfl rfl
theorem pairMov (a : PArgs) (t : PSlot) : Statement (.pairMov a t) := pair rfl rfl
theorem pairIadd (a : PArgs) (t : PSlot) : Statement (.pairIadd a t) := pair rfl rfl
theorem pairIsub (a : PArgs) (t : PSlot) : Statement (.pairIsub a t) := pair rfl rfl
theorem pairImul (a : PArgs) (t : PSlot) : Statement (.pairImul a t) := pair rfl rfl
theorem pairAnd (a : PArgs) (t : PSlot) : Statement (.pairAnd a t) := pair rfl rfl
theorem pairOr (a : PArgs) (t : PSlot) : Statement (.pairOr a t) := pair rfl rfl
theorem pairXor (a : PArgs) (t : PSlot) : Statement (.pairXor a t) := pair rfl rfl
theorem pairAndn (a : PArgs) (t : PSlot) : Statement (.pairAndn a t) := pair rfl rfl
theorem pairShl (a : PArgs) (t : PSlot) : Statement (.pairShl a t) := pair rfl rfl
theorem pairShr (a : PArgs) (t : PSlot) : Statement (.pairShr a t) := pair rfl rfl
theorem pairSar (a : PArgs) (t : PSlot) : Statement (.pairSar a t) := pair rfl rfl
theorem pairImin (a : PArgs) (t : PSlot) : Statement (.pairImin a t) := pair rfl rfl
theorem pairImax (a : PArgs) (t : PSlot) : Statement (.pairImax a t) := pair rfl rfl
theorem pairFadd (a : PArgs) (t : PSlot) : Statement (.pairFadd a t) := pair rfl rfl
theorem pairFsub (a : PArgs) (t : PSlot) : Statement (.pairFsub a t) := pair rfl rfl
theorem pairFmul (a : PArgs) (t : PSlot) : Statement (.pairFmul a t) := pair rfl rfl
theorem pairFmin (a : PArgs) (t : PSlot) : Statement (.pairFmin a t) := pair rfl rfl
theorem pairFmax (a : PArgs) (t : PSlot) : Statement (.pairFmax a t) := pair rfl rfl
theorem barrierReleaseDelivery (launch core id island : Nat) : Statement (.barrierReleaseDelivery launch core id island) :=
  event rfl
theorem trapDelivery (launch core : Nat) : Statement (.trapDelivery launch core) := event rfl
theorem runTimer (g : Nat) : Statement (.runTimer g) := event rfl
theorem stepWatchdog (g : Nat) : Statement (.stepWatchdog g) := event rfl
theorem mmaqRendezvousTimeout (g sp : Nat) : Statement (.mmaqRendezvousTimeout g sp) := event rfl
theorem stepEnter (g : Nat) : Statement (.stepEnter g) := event rfl
theorem haloPushArrival (p : PushIn) : Statement (.haloPushArrival p) := event rfl
theorem cellSetSwap (launch core : Nat) : Statement (.cellSetSwap launch core) := event rfl
theorem longLatencyResultLand (g sp i : Nat) : Statement (.longLatencyResultLand g sp i) := event rfl
theorem translationWalkComplete (core page : Nat) : Statement (.translationWalkComplete core page) := event rfl
theorem storePerformedAtHome (i : Nat) : Statement (.storePerformedAtHome i) := event rfl
theorem containmentUnwind (g : Nat) : Statement (.containmentUnwind g) := event rfl
theorem matrixGrant (island : Nat) : Statement (.matrixGrant island) := event rfl
theorem matrixOpEnd (core unit : Nat) : Statement (.matrixOpEnd core unit) := event rfl
theorem engineCompletion (thread : Nat) : Statement (.engineCompletion thread) := event rfl
theorem engineLineLanded (thread line : Nat) : Statement (.engineLineLanded thread line) := event rfl
theorem sectorLanding (p : Landing) : Statement (.sectorLanding p) := event rfl
theorem fabricRequestAtTarget (r : PeerReq) : Statement (.fabricRequestAtTarget r) := event rfl
theorem fabricResponse (id : Nat) (data : List Byte) (bad : Bool) : Statement (.fabricResponse id data bad) :=
  event rfl
theorem fabricTimeout (id : Nat) : Statement (.fabricTimeout id) := event rfl
theorem fabricRefusal (id : Nat) : Statement (.fabricRefusal id) := event rfl
theorem escapeDiversion (id : Nat) : Statement (.escapeDiversion id) := event rfl
theorem parcelTransitStart (thread : Nat) : Statement (.parcelTransitStart thread) := event rfl
theorem parcelFirstPacket (p : ParcelIn) : Statement (.parcelFirstPacket p) := event rfl
theorem parcelLanded (p : ParcelIn) (data : List Byte) (tags bad : List Nat) : Statement (.parcelLanded p data tags bad) :=
  event rfl
theorem parcelAck (thread : Nat) : Statement (.parcelAck thread) := event rfl
theorem parcelReturn (thread cause : Nat) : Statement (.parcelReturn thread cause) := event rfl
theorem admission (queue : Nat) (cores : List Nat) : Statement (.admission queue cores) := event rfl
theorem teamStart (launch : Nat) : Statement (.teamStart launch) := event rfl
theorem launchCompletion (launch : Nat) : Statement (.launchCompletion launch) := event rfl
theorem preemption (launch core : Nat) : Statement (.preemption launch core) := event rfl
theorem lowestTeamSwapBack (launch core : Nat) : Statement (.lowestTeamSwapBack launch core) := event rfl
theorem pageMigration (page pa : Nat) : Statement (.pageMigration page pa) := event rfl
theorem meltUpdate (melt : Nat) : Statement (.meltUpdate melt) := event rfl
theorem leaseExpiry (island : Nat) : Statement (.leaseExpiry island) := event rfl
theorem fllStep (island : Nat) : Statement (.fllStep island) := event rfl
theorem thermalGateBegin : Statement (.thermalGateBegin) := event rfl
theorem thermalGateEnd : Statement (.thermalGateEnd) := event rfl
theorem linkFailure (l : Link) : Statement (.linkFailure l) := event rfl
theorem dieFence (die : Nat) : Statement (.dieFence die) := event rfl
theorem cxlPortFailure (port : Nat) : Statement (.cxlPortFailure port) := event rfl
theorem dynamicCapacityRelease (base bytes : Nat) : Statement (.dynamicCapacityRelease base bytes) := event rfl
theorem duplicateDeviceNumber (planes : Nat) : Statement (.duplicateDeviceNumber planes) := event rfl
theorem patrolScrub (addr : Nat) (bad : Bool) (cost : Nat) : Statement (.patrolScrub addr bad cost) := event rfl
theorem matrixSelfTest (core unit sub : Nat) (fail : Bool) (cost : Nat) : Statement (.matrixSelfTest core unit sub fail cost) :=
  event rfl
theorem deviceReset (verified : BundleCheck) (version : Nat) : Statement (.deviceReset verified version) := event rfl
theorem readyBitRise (reg bit : Nat) : Statement (.readyBitRise reg bit) := event rfl
theorem hostLinkTraining (mode : LinkMode) : Statement (.hostLinkTraining mode) := event rfl
theorem powerLossWarning : Statement (.powerLossWarning) := event rfl
theorem qtailWrite (queue val : Nat) : Statement (.qtailWrite queue val) := event rfl
theorem qbaseWrite (queue val : Nat) : Statement (.qbaseWrite queue val) := event rfl
theorem qctlWrite (queue val : Nat) : Statement (.qctlWrite queue val) := event rfl
theorem tbaseWrite (val : Nat) : Statement (.tbaseWrite val) := event rfl
theorem arenaCommand (tcmd : Nat) : Statement (.arenaCommand tcmd) := event rfl
theorem exportCommand (tcmd : Nat) : Statement (.exportCommand tcmd) := event rfl
theorem importCommand (tcmd : Nat) : Statement (.importCommand tcmd) := event rfl
theorem fabidWrite (val : Nat) : Statement (.fabidWrite val) := event rfl
theorem ftlimitWrite (val : Nat) : Statement (.ftlimitWrite val) := event rfl
theorem islctlWrite (island val : Nat) : Statement (.islctlWrite island val) := event rfl
theorem checkpointTake : Statement (.checkpointTake) := event rfl
theorem checkpointRestore : Statement .checkpointRestore := event rfl
theorem attestationRequest : Statement (.attestationRequest) := event rfl
theorem attestationComplete (report rsa slh : List Byte) : Statement (.attestationComplete report rsa slh) :=
  event rfl
theorem halt (core : Nat) : Statement (.halt core) := event rfl
theorem resume (core : Nat) : Statement (.resume core) := event rfl
theorem rdreg (core : Nat) : Statement (.rdreg core) := event rfl
theorem wrreg (core : Nat) : Statement (.wrreg core) := event rfl
theorem rdmem (core : Nat) : Statement (.rdmem core) := event rfl
theorem wrmem (core : Nat) : Statement (.wrmem core) := event rfl
theorem oneword (core : Nat) : Statement (.oneword core) := event rfl
theorem endLaunch (core : Nat) : Statement (.endLaunch core) := event rfl
theorem hostBar2Access (a : Bar2) : Statement (.hostBar2Access a) := event rfl
theorem registerWrite (off bytes val : Nat) : Statement (.registerWrite off bytes val) := event rfl
theorem islandCoreCycle (island : Nat) (wallTick : Bool) : Statement (.islandCoreCycle island wallTick) := event rfl
theorem hostWriteCompletedAtMemory (i : Nat) : Statement (.hostWriteCompletedAtMemory i) := event rfl

end Sys2Proof.Laws.WordSize
end

