-- ==== Sys2Proof/Tests/Slice0.lean ====
section
/-!
SUPPORT. Tests: ill-formed terms that each check of WellFormed refuses, words written out bit by bit from the spec's
encodings, one small step for most instructions with its expected value from the spec's tables and worked examples or by
hand from its rules, and for every statement with hypotheses a concrete state and operands that meet them.
-/

namespace Sys2Proof.Tests

open Sys2Proof Sys2Proof.Machine

set_option maxRecDepth 100000
set_option Elab.async false

/-! ### Words and states of the tests -/

def p0 : Pred := ⟨0, false⟩
def ar (ty : Ty) (opx : Nat := 0) (cc : Bool := false) (rm : Rm := .rne) (sat : Bool := false) : XArith :=
  ⟨ty, rm, sat, cc, false, false, false, false, opx⟩
def fw {χ : Type} (x : χ) (d : Dst) (a : Src := .v 0) (b : Src := .v 0) : FWord χ := ⟨p0, 0, d, a, b, x⟩
def iw {χ : Type} (x : χ) (d : Dst) (imm : Nat) : IWord χ := ⟨p0, d, x, imm⟩
def mx (w : Width := .w32) (o : Order := .plain) : XMem := ⟨w, o, .none, .normal⟩

/-- One group of one ordinary launch, at 0x10000, on core 0. -/
def tGroup : Group := newGroup 0 0 0 0 0 loadRecord []
def tLaunch : Launch :=
  { r := loadRecord, queue := 0, rslot := 0, addr := 0, cores := [⟨0, 0, 0⟩], pins := [⟨0x10000, 1, true⟩],
    pages := [(1, ⟨0x10000, true⟩)], started := 1, allots := [(0, 0, 0)] }
def tCtx : Ctx := { launch := 0, core := 0, index := 0, sliceBytes := 524288 }

/-- The state in which its first split issues. -/
def tState (g : Group := tGroup) (c : Ctx := tCtx) (l : Launch := tLaunch) : State :=
  { State.reset with groups := [(0, g)], ctxs := [(0, c)], launches := [(0, l)], nextLaunch := 1 }

/-- The same with registers set. -/
def regs (ws : List (RegId × Word)) : State := tState (tGroup.writeRegs ws)

def after (i : Instr) (s : State) : State := match exec i s with
  | .next t => t
  | _ => { s with free := 0 }
def grp (s : State) : Group := (s.group? 0).getD tGroup
def sOf (i : Instr) (s : State) (n : Nat) : Nat := ((grp (after i s)).readS n).toNat
def vOf (i : Instr) (s : State) (n l : Nat) : Nat := ((grp (after i s)).readV n l).toNat
def mOf (i : Instr) (s : State) (n : Nat) : Nat :=
  ((grp (after i s)).readM ((grp (after i s)).split 0) n).toNat
def spOf (i : Instr) (s : State) : Split := (grp (after i s)).split 0
/-- The registers that the newest outstanding result will write. -/
def lateOf (i : Instr) (s : State) : List (RegId × Word) := ((spOf i s).pend.getLast?.map Pend.writes).getD []
/-- The cause, the lane and the auxiliary of the last trap that a handler's queue took. -/
def trapOf (i : Instr) (s : State) : Option (Nat × Nat × Nat) :=
  ((after i s).ctx? 0 0).bind fun c => c.trapq.getLast?.map fun t => (t.cause, t.lane, t.aux)
/-- The state with a trap handler armed at 0x20000. -/
def armed (g : Group := tGroup) : State := tState g { tCtx with handler := 0x20000 }

/-! ### Ill-formed terms -/

/-- R207, R188: a class that the field does not accept. -/
theorem test_illFormed_class : (Instr.iadd (fw (ar .i32) (.nb 0) (.v 1) (.v 2))).wellFormed = false := by decide
/-- R188: s192 names no register. -/
theorem test_illFormed_scalar : (Instr.mov (fw (ar .i32) (.s 192) (.s 1))).wellFormed = false := by decide
/-- R61: an odd register under a 64-bit type. -/
theorem test_illFormed_odd : (Instr.iadd (fw (ar .i64) (.s 4) (.s 5) (.s 6))).wellFormed = false := by decide
/-- R189: a scalar D under a vector source. -/
theorem test_illFormed_scalarD : (Instr.iadd (fw (ar .i32) (.s 4) (.v 5) (.s 6))).wellFormed = false := by decide
/-- R188: bit 7 of a vector register. -/
theorem test_illFormed_vector : (Instr.mov (fw (ar .i32) (.v 128) (.v 1))).wellFormed = false := by decide
/-- R207: an operand field that the instruction does not use. -/
theorem test_illFormed_unused : (Instr.mov (fw (ar .i32) (.v 1) (.v 1) (.v 2))).wellFormed = false := by decide
/-- R63: MSEL = 0 with MINV = 1. -/
theorem test_illFormed_pred : (Instr.mov ⟨⟨0, true⟩, 0, .v 1, .v 2, .v 0, ar .i32⟩).wellFormed = false := by decide
/-- R202: LA on a word that is not long-latency. -/
theorem test_illFormed_la : (Instr.iadd ⟨p0, 1, .v 1, .v 2, .v 3, ar .i32⟩).wellFormed = false := by decide
/-- R191, R215: a type that the instruction does not take. -/
theorem test_illFormed_type : (Instr.iadd (fw (ar .f32) (.v 1) (.v 2) (.v 3))).wellFormed = false := by decide
/-- R208: SAT where the entry does not name it, and CC on a vector word. -/
theorem test_illFormed_sat : (Instr.imin (fw (ar .i32 (sat := true)) (.v 1) (.v 2) (.v 3))).wellFormed = false := by decide
theorem test_illFormed_cc : (Instr.iadd (fw (ar .i32 (cc := true)) (.v 1) (.v 2) (.v 3))).wellFormed = false := by decide
/-- R215: RM and NA must be 0; R223: conditions 6 and 7 are reserved in ICMP. -/
theorem test_illFormed_rm : (Instr.iadd (fw (ar .i32 (rm := .rz)) (.v 1) (.v 2) (.v 3))).wellFormed = false := by decide
theorem test_illFormed_opx : (Instr.icmp (fw (ar .i32 6) (.m 1) (.v 2) (.v 3))).wellFormed = false := by decide
/-- R208: 15 has four significant bits, too many for f8e5m2. -/
theorem test_illFormed_immediate : (Instr.mov (fw (ar .e5m2x4) (.v 1) (.imm 15))).wellFormed = false := by decide
/-- R231: two elements against four. -/
theorem test_illFormed_cvt :
    (Instr.cvt (fw ⟨.e4m3x4, .rne, false, false, .f16x2, 0⟩ (.v 1) (.v 2))).wellFormed = false := by decide
/-- R115: an observer on a plain word, an order that the word does not take; R192: a reserved width and hint. -/
theorem test_illFormed_observer :
    (Instr.ld (fw ⟨.w32, .plain, ⟨true, false, false, false, false, false, false⟩, .normal⟩ (.v 1) (.s 2) (.v 3))).wellFormed =
      false := by decide
theorem test_illFormed_order : (Instr.ld (fw (mx .w32 .rel) (.v 1) (.s 2) (.v 3))).wellFormed = false := by decide
theorem test_illFormed_width : (Instr.ld (fw (mx .reserved) (.v 1) (.s 2) (.v 3))).wellFormed = false := by decide
theorem test_illFormed_hint :
    (Instr.ld (fw ⟨.w32, .plain, .none, .reserved4⟩ (.v 1) (.s 2) (.v 3))).wellFormed = false := by decide
/-- R263: an atomic code above 16. -/
theorem test_illFormed_atomic : (Instr.atom (fw (mx .w32 .strong) (.v 1) (.v 2) (.imm 17))).wellFormed = false := by decide
/-- R254: BAR takes orders 0 and 4. -/
theorem test_illFormed_bar : (Instr.bar (fw ⟨.core, .acq, .none⟩ (.v 0) (.imm 1) (.imm 2))).wellFormed = false := by decide
/-- R273: TBINIT takes order 0. -/
theorem test_illFormed_tb : (Instr.tbinit (fw ⟨.rel, .none⟩ (.v 0) (.s 1) (.imm 1))).wellFormed = false := by decide
/-- R310: a command block past s191; R323: a reserved direction. -/
theorem test_illFormed_block : (Instr.cpyc (fw () (.s 1) (.s 188))).wellFormed = false := by decide
theorem test_illFormed_cpy : (Instr.cpy (fw ⟨4, 0⟩ (.s 1) (.s 4) (.s 2))).wellFormed = false := by decide
/-- R312, R313: a tile above t7, a pair of formats that MMA does not take. -/
theorem test_illFormed_tile : (Instr.mzero ⟨p0, 0, 8, .v 0, .v 0, ()⟩).wellFormed = false := by decide
theorem test_illFormed_fmt : (Instr.mma ⟨p0, 0, 0, .v 0, .v 16, ⟨0, 1, 0, false⟩⟩).wellFormed = false := by decide
/-- R72: a reserved special register; R295: m0 of XWRITE. -/
theorem test_illFormed_sreg : (Instr.sread (fw 0x06 (.s 1))).wellFormed = false := by decide
theorem test_illFormed_remote : (Instr.xwrite (fw (RReg.m 0) (.v 0) (.s 1))).wellFormed = false := by decide
/-- R197: kind 11 of COND6; R198: s191 as a pair, and an index register above v127 of JTAB. -/
theorem test_illFormed_cond : (Instr.bra (.reserved 0) 1).wellFormed = false := by decide
theorem test_illFormed_pair : (Instr.ret .always 191).wellFormed = false := by decide
theorem test_illFormed_jtab : (Instr.jtab 128 1 0).wellFormed = false := by decide
/-- R194: two D7 of one bank; R193: a reserved S9; R250: SAT on AND; a NOP slot that is not 0. -/
theorem test_illFormed_banks : (Instr.pairIadd ⟨4, .v 1, 0, false⟩ ⟨.iadd, ⟨8, .v 2, 0, false⟩⟩).wellFormed = false := by decide
theorem test_illFormed_s9 : (Instr.pairIadd ⟨4, .reserved 400, 0, false⟩ ⟨.nop, ⟨0, .v 0, 0, false⟩⟩).wellFormed = false := by decide
theorem test_illFormed_slotSat : (Instr.pairAnd ⟨4, .v 1, 0, true⟩ ⟨.nop, ⟨0, .v 0, 0, false⟩⟩).wellFormed = false := by decide
theorem test_illFormed_slotNop : (Instr.pairNop ⟨4, .v 1, 0, false⟩ ⟨.nop, ⟨0, .v 0, 0, false⟩⟩).wellFormed = false := by decide
/-- Values wider than their fields: an immediate, a displacement, IMM32. -/
theorem test_illFormed_wideImm : (Instr.mov (fw (ar .i32) (.s 1) (.imm 128))).wellFormed = false := by decide
theorem test_illFormed_wideDisp : (Instr.bra .always (2 ^ 40)).wellFormed = false := by decide
theorem test_illFormed_wideImm32 : (Instr.movi (iw ⟨.i32, false, false⟩ (.s 1) (2 ^ 32))).wellFormed = false := by decide
/-- And a term that is well formed. -/
theorem test_wellFormed : (Instr.iadd (fw (ar .i32 (cc := true)) (.s 20) (.s 20) (.imm (-1)))).wellFormed = true := by decide

/-! ### Chapter 10: moves and integers -/

/-- R213: an immediate is sign-extended. -/
theorem test_mov : sOf (.mov (fw (ar .i32) (.s 3) (.imm (-1)))) (regs []) 3 = 0xFFFFFFFF := by decide
/-- R214: a scalar SEL takes A where any active bit of the mask is set. -/
theorem test_sel : sOf (.sel (fw (ar .i32 1) (.s 3) (.s 1) (.s 2))) (regs [(.s 1, 7), (.s 2, 9), (.m 1, 0x80)]) 3 = 7 := by decide
theorem test_sel_lane :
    vOf (.sel (fw (ar .i32 9) (.v 3) (.v 1) (.v 2))) (regs [(.v 1 4, 7), (.v 2 4, 9), (.m 1, 0x10)]) 3 4 = 9 := by decide
/-- R65, R215: the sum wraps; Z and C are set, N and V are not. -/
theorem test_iadd_wraps : sOf (.iadd (fw (ar .i32) (.s 3) (.s 1) (.s 2))) (regs [(.s 1, 0xFFFFFFFF), (.s 2, 2)]) 3 = 1 := by decide
theorem test_iadd_flags : (spOf (.iadd (fw (ar .i32 (cc := true)) (.s 3) (.s 1) (.imm 1))) (regs [(.s 1, 0xFFFFFFFF)])).cc =
    ⟨true, false, true, false, false, false⟩ := by decide
/-- R77: SAT clamps. -/
theorem test_isub_sat :
    sOf (.isub (fw (ar .n32 (sat := true)) (.s 3) (.s 1) (.s 2))) (regs [(.s 1, 3), (.s 2, 5)]) 3 = 0 := by decide
theorem test_imul : sOf (.imul (fw (ar .i32) (.s 3) (.s 1) (.s 2))) (regs [(.s 1, 0xFFFFFFFE), (.s 2, 3)]) 3 = 0xFFFFFFFA := by decide
/-- R215: the high half, unsigned and signed. -/
theorem test_imulh :
    sOf (.imulh (fw (ar .n32) (.s 3) (.s 1) (.s 1))) (regs [(.s 1, 0xFFFFFFFF)]) 3 = 0xFFFFFFFE := by decide
theorem test_imulh_signed : sOf (.imulh (fw (ar .i32) (.s 3) (.s 1) (.s 1))) (regs [(.s 1, 0xFFFFFFFF)]) 3 = 0 := by decide
theorem test_imad : sOf (.imad (fw (ar .i32) (.s 3) (.s 1) (.s 2))) (regs [(.s 1, 2), (.s 2, 3), (.s 3, 4)]) 3 = 10 := by decide
/-- R217: −7 ÷ 2 is −3 with remainder −1; division by zero gives all ones. -/
theorem test_idiv : lateOf (.idiv (fw (ar .i32) (.s 3) (.s 1) (.s 2))) (regs [(.s 1, 0xFFFFFFF9), (.s 2, 2)]) =
    [(.s 3, 0xFFFFFFFD)] := by decide
theorem test_idiv_rem : lateOf (.idiv (fw (ar .i32 1) (.s 3) (.s 1) (.s 2))) (regs [(.s 1, 0xFFFFFFF9), (.s 2, 2)]) =
    [(.s 3, 0xFFFFFFFF)] := by decide
theorem test_imin : sOf (.imin (fw (ar .i32) (.s 3) (.s 1) (.imm 1))) (regs [(.s 1, 0xFFFFFFFF)]) 3 = 0xFFFFFFFF := by decide
theorem test_imax : sOf (.imax (fw (ar .n32) (.s 3) (.s 1) (.imm 1))) (regs [(.s 1, 0xFFFFFFFF)]) 3 = 0xFFFFFFFF := by decide
/-- R215: the lowest value stays, or is the highest with SAT. -/
theorem test_iabs : sOf (.iabs (fw (ar .i32) (.s 3) (.s 1))) (regs [(.s 1, 0x80000000)]) 3 = 0x80000000 := by decide
theorem test_iabs_sat :
    sOf (.iabs (fw (ar .i32 (sat := true)) (.s 3) (.s 1))) (regs [(.s 1, 0x80000000)]) 3 = 0x7FFFFFFF := by decide
/-- R218: a 64-bit A and D, B one odd register, sign-extended for i64. -/
theorem test_lea :
    let i := Instr.lea (fw (ar .i64 3) (.s 4) (.s 6) (.s 9))
    let s := regs [(.s 6, 0x10), (.s 7, 1), (.s 9, 0xFFFFFFFC)]
    sOf i s 4 = 0xFFFFFFF0 ∧ sOf i s 5 = 0 := by decide
theorem test_and : sOf (.and (fw (ar .n32) (.s 3) (.s 1) (.imm 12))) (regs [(.s 1, 10)]) 3 = 8 := by decide
theorem test_or : sOf (.or (fw (ar .n32) (.s 3) (.s 1) (.imm 12))) (regs [(.s 1, 10)]) 3 = 14 := by decide
theorem test_xor : sOf (.xor (fw (ar .n32) (.s 3) (.s 1) (.imm (-1)))) (regs [(.s 1, 10)]) 3 = 0xFFFFFFF5 := by decide
theorem test_andn : sOf (.andn (fw (ar .n32) (.s 3) (.s 1) (.imm 12))) (regs [(.s 1, 10)]) 3 = 2 := by decide
/-- R220: amounts of the width; the spec's own SHL with SAT. -/
theorem test_shl : sOf (.shl (fw (ar .i32) (.s 3) (.s 1) (.imm 32))) (regs [(.s 1, 1)]) 3 = 0 := by decide
theorem test_shl_sat :
    sOf (.shl (fw (ar .i32 (sat := true)) (.s 3) (.s 1) (.imm 1))) (regs [(.s 1, 0x40000000)]) 3 = 0x7FFFFFFF := by decide
theorem test_shr : sOf (.shr (fw (ar .i32) (.s 3) (.s 1) (.imm 4))) (regs [(.s 1, 0x80000000)]) 3 = 0x08000000 := by decide
theorem test_sar : sOf (.sar (fw (ar .n32) (.s 3) (.s 1) (.imm 40))) (regs [(.s 1, 0x80000000)]) 3 = 0xFFFFFFFF := by decide
theorem test_rot : sOf (.rot (fw (ar .n32) (.s 3) (.s 1) (.imm 33))) (regs [(.s 1, 0x80000001)]) 3 = 3 := by decide
theorem test_popc : sOf (.popc (fw (ar .n64) (.s 3) (.s 4))) (regs [(.s 4, 0xF0), (.s 5, 1)]) 3 = 5 := by decide
theorem test_clz : sOf (.clz (fw (ar .n32) (.s 3) (.s 1))) (regs [(.s 1, 0x00010000)]) 3 = 15 := by decide
theorem test_brev : sOf (.brev (fw (ar .i8x4) (.s 3) (.s 1))) (regs [(.s 1, 0x01020380)]) 3 = 0x8040C001 := by decide
/-- R222: p in bits 7:0, n in bits 15:8; a field past the top is clipped. -/
theorem test_bfe : sOf (.bfe (fw (ar .i32) (.s 3) (.s 1) (.s 2))) (regs [(.s 1, 0x000000F0), (.s 2, 0x0404)]) 3 = 0xFFFFFFFF := by decide
theorem test_bfi :
    sOf (.bfi (fw (ar .n32) (.s 3) (.s 1) (.s 2))) (regs [(.s 1, 0xFF), (.s 2, 0x081C), (.s 3, 1)]) 3 = 0xF0000001 := by decide
/-- R224: a mask D keeps the bits of inactive lanes; the signedness of TY decides. -/
theorem test_icmp : mOf (.icmp ⟨⟨2, false⟩, 0, .m 1, .s 1, .imm 1, ar .i32 2⟩) (regs [(.s 1, 0xFFFFFFFF), (.m 2, 0xF0), (.m 1, 0x103)]) 1 =
    0x1F3 := by decide
theorem test_icmp_unsigned : sOf (.icmp (fw (ar .n32 2) (.s 3) (.s 1) (.imm 1))) (regs [(.s 1, 0xFFFFFFFF), (.s 3, 5)]) 3 = 0 := by decide

/-! ### Chapter 10: floating point -/

/-- R82: 1 + 2^-24 is a tie to even, and rounds up under RUP. -/
theorem test_fadd : sOf (.fadd (fw (ar .f32) (.s 3) (.s 1) (.s 2))) (regs [(.s 1, 0x3F800000), (.s 2, 0x33800000)]) 3 = 0x3F800000 := by decide
theorem test_fadd_rup :
    sOf (.fadd (fw (ar .f32 (rm := .rup)) (.s 3) (.s 1) (.s 2))) (regs [(.s 1, 0x3F800000), (.s 2, 0x33800000)]) 3 = 0x3F800001 := by decide
/-- R82: an exact zero under RDN is −0. -/
theorem test_fsub_rdn : sOf (.fsub (fw (ar .f32 (rm := .rdn)) (.s 3) (.imm 1) (.imm 1))) (regs []) 3 = 0x80000000 := by decide
/-- R83: overflow with SAT. -/
theorem test_fmul_sat :
    sOf (.fmul (fw (ar .f16x2 (sat := true)) (.s 3) (.s 1) (.imm 2))) (regs [(.s 1, 0x7BFF3C00)]) 3 = 0x7BFF4000 := by decide
theorem test_ffma : sOf (.ffma (fw (ar .f32) (.s 3) (.imm 2) (.imm 3))) (regs [(.s 3, 0x3F800000)]) 3 = 0x40E00000 := by decide
/-- R84, case 3: one NaN yields the other operand, and −0 orders below +0. -/
theorem test_fmin : sOf (.fmin (fw (ar .f32) (.s 3) (.s 1) (.imm 1))) (regs [(.s 1, 0x7FC00001)]) 3 = 0x3F800000 := by decide
theorem test_fmax : sOf (.fmax (fw (ar .f32) (.s 3) (.s 1) (.imm 0))) (regs [(.s 1, 0x80000000)]) 3 = 0 := by decide
/-- R223: NaN is unordered. -/
theorem test_fcmp : sOf (.fcmp (fw (ar .f32 1) (.s 3) (.s 1) (.s 1))) (regs [(.s 1, 0x7FC00000)]) 3 = 0xFFFFFFFF := by decide
/-- R228: 2.5 gives 2.0, and −0.4 gives −0. -/
theorem test_frnd : sOf (.frnd (fw (ar .f32) (.s 3) (.s 1))) (regs [(.s 1, 0x40200000)]) 3 = 0x40000000 := by decide
theorem test_frnd_zero : sOf (.frnd (fw (ar .f32) (.s 3) (.s 1))) (regs [(.s 1, 0xBECCCCCD)]) 3 = 0x80000000 := by decide
/-- R85: special values and exact cases of the functions. -/
theorem test_frcp : lateOf (.frcp (fw (ar .f32) (.s 3) (.s 1))) (regs [(.s 1, 0x80000000)]) = [(.s 3, 0xFF800000)] := by decide
theorem test_frsq : lateOf (.frsq (fw (ar .f32) (.s 3) (.imm 4))) (regs []) = [(.s 3, 0x3F000000)] := by decide +kernel
theorem test_fsqrt : lateOf (.fsqrt (fw (ar .f32) (.s 3) (.imm 9))) (regs []) = [(.s 3, 0x40400000)] := by decide
/-- 1 ÷ 3 = 0x3EAAAAAB to nearest, 0x3EAAAAAA towards zero. -/
theorem test_fdiv : lateOf (.fdiv (fw (ar .f32) (.s 3) (.imm 1) (.imm 3))) (regs []) = [(.s 3, 0x3EAAAAAB)] := by decide
theorem test_fdiv_rz : lateOf (.fdiv (fw (ar .f32 (rm := .rz)) (.s 3) (.imm 1) (.imm 3))) (regs []) = [(.s 3, 0x3EAAAAAA)] := by decide
theorem test_fexp2 : lateOf (.fexp2 (fw (ar .f32) (.s 3) (.imm (-3)))) (regs []) = [(.s 3, 0x3E000000)] := by decide
theorem test_flog2 : lateOf (.flog2 (fw (ar .f32) (.s 3) (.imm 8))) (regs []) = [(.s 3, 0x40400000)] := by decide
/-- sin 1 = 0.84147098…, the f32 nearest to which is 0x3F576AA4; cos 0 = 1. -/
theorem test_fsin : lateOf (.fsin (fw (ar .f32) (.s 3) (.imm 1))) (regs []) = [(.s 3, 0x3F576AA4)] := by decide +kernel
theorem test_fcos : lateOf (.fcos (fw (ar .f32) (.s 3) (.imm 0))) (regs []) = [(.s 3, 0x3F800000)] := by decide
/-- R230: +0 is bit 4, a NaN bit 8. -/
theorem test_fclass : sOf (.fclass (fw (ar .f16x2) (.s 3) (.s 1))) (regs [(.s 1, 0x7E000000)]) 3 = 0x01000010 := by decide
/-- R227: 1·2 + 3·4 + 1 = 15, in f16 elements. -/
theorem test_fdot2 :
    sOf (.fdot2 (fw (ar .f16x2) (.s 3) (.s 1) (.s 2))) (regs [(.s 1, 0x42003C00), (.s 2, 0x44004000), (.s 3, 0x3F800000)]) 3 =
      0x41700000 := by decide

/-! ### Chapter 10: conversions and lanes -/

/-- R231: the spec's own table of results. -/
theorem test_cvt : sOf (.cvt (fw ⟨.i32, .rne, false, false, .f32, 0⟩ (.s 3) (.s 1))) (regs [(.s 1, 0xC0200000)]) 3 = 0xFFFFFFFE := by decide
theorem test_cvt_rdn : sOf (.cvt (fw ⟨.i32, .rdn, false, false, .f32, 0⟩ (.s 3) (.s 1))) (regs [(.s 1, 0xC0200000)]) 3 = 0xFFFFFFFD := by decide
/-- R234, R235, R90: lane 0 of the worked block, and lanes 0 to 3 decoded. -/
theorem test_cvtq :
    vOf (.cvtq (fw (ar .f32 1) (.v 40) (.v 8))) (regs [(.v 8 0, 0x40200000), (.v 8 1, 0xC0A00000), (.v 8 2, 0x3FA00000),
      (.v 8 3, 0x3F400000), (.v 8 4, 0x40C00000), (.v 8 5, 0xBE4CCCCD), (.v 8 6, 0x3FE00000), (.v 8 7, 0x40666666)]) 40 0 =
      0x640722E4 := by decide
theorem test_cvtqd :
    vOf (.cvtqd (fw (ar .f32) (.v 41) (.v 40))) (regs [(.v 40 0, 0x640722E4), (.v 40 4, 0x60)]) 41 1 = 0xC0800000 := by decide
theorem test_pack :
    sOf (.pack (fw (ar .f16x2) (.s 3) (.s 1) (.imm 2))) (regs [(.s 1, 0x3F800000)]) 3 = 0x40003C00 := by decide
theorem test_unpack : sOf (.unpack (fw (ar .i8x4 3) (.s 3) (.s 1))) (regs [(.s 1, 0x80010203)]) 3 = 0xFFFFFF80 := by decide
/-- R236: `.rot` by 1 gives lane 31 the value of lane 0; `.slide` off the edge keeps the lane's own value. -/
theorem test_shfl : vOf (.shfl (fw (ar .n32 2) (.v 5) (.v 4) (.imm 1))) (regs [(.v 4 0, 9)]) 5 31 = 9 := by decide
theorem test_shfl_slide : vOf (.shfl (fw (ar .n32 1) (.v 5) (.v 4) (.imm 1))) (regs [(.v 4 31, 9)]) 5 31 = 9 := by decide
theorem test_shflx : vOf (.shflx (fw (ar .n32) (.v 5) (.v 4) (.v 6))) (regs [(.v 5 2, 33), (.v 6 1, 8)]) 5 2 = 8 := by decide
theorem test_bcst : sOf (.bcst (fw (ar .n32) (.s 3) (.v 4) (.imm 7))) (regs [(.v 4 7, 5)]) 3 = 5 := by decide
theorem test_firstl : sOf (.firstl ⟨⟨1, false⟩, 0, .s 3, .v 4, .v 0, ar .n32⟩) (regs [(.m 1, 0x60), (.v 4 5, 5)]) 3 = 5 := by decide
/-- R239: `.nz.count` counts the lanes whose value is nonzero. -/
theorem test_vote : sOf (.vote (fw (ar .n32 3) (.s 5) (.v 7))) (regs [(.v 7 1, 1), (.v 7 30, 2)]) 5 = 2 := by decide
/-- R240: the worked example's lane 3 (peers 0x4D) and lane 6 (below 0x0D). -/
theorem test_match :
    vOf (.matchl ⟨⟨1, false⟩, 0, .v 20, .v 10, .v 0, ar .n32⟩) (regs [(.m 1, 0xFF), (.v 10 0, 3), (.v 10 1, 7), (.v 10 2, 3),
      (.v 10 3, 3), (.v 10 4, 9), (.v 10 5, 7), (.v 10 6, 3), (.v 10 7, 1)]) 20 3 = 0x4D := by decide
theorem test_match_below :
    vOf (.matchl ⟨⟨1, false⟩, 0, .v 20, .v 10, .v 0, ar .n32 1⟩) (regs [(.m 1, 0xFF), (.v 10 0, 3), (.v 10 1, 7), (.v 10 2, 3),
      (.v 10 3, 3), (.v 10 4, 9), (.v 10 5, 7), (.v 10 6, 3), (.v 10 7, 1)]) 20 6 = 0x0D := by decide
/-- R241, R242: the worked example of tree order and lane order. -/
theorem test_redl :
    sOf (.redl ⟨⟨1, false⟩, 0, .s 30, .v 6, .v 0, ar .f32⟩) (regs [(.m 1, 0xF), (.v 6 0, 0x4B800000), (.v 6 1, 0x3F800000),
      (.v 6 2, 0x3F800000), (.v 6 3, 0xCB800000)]) 30 = 0x3F800000 := by decide
theorem test_scanl :
    vOf (.scanl ⟨⟨1, false⟩, 0, .v 7, .v 6, .v 0, ar .f32⟩) (regs [(.m 1, 0xF), (.v 6 0, 0x4B800000), (.v 6 1, 0x3F800000),
      (.v 6 2, 0x3F800000), (.v 6 3, 0xCB800000)]) 7 3 = 0 := by decide
theorem test_mtos : sOf (.mtos (fw (ar .n32) (.s 3))) (regs []) 3 = 0xFFFFFFFF := by decide
theorem test_stom : mOf (.stom ⟨⟨1, false⟩, 0, .m 2, .s 3, .v 0, ar .n32⟩) (regs [(.m 1, 0xF0), (.m 2, 0x0F), (.s 3, 0xAA)]) 2 = 0xAF := by decide

/-! ### Chapter 10: immediates and pairs -/

theorem test_movi : sOf (.movi (iw ⟨.i64, false, false⟩ (.s 4) 0x80000000)) (regs []) 5 = 0xFFFFFFFF := by decide
theorem test_addi : sOf (.addi (iw ⟨.i32, true, false⟩ (.s 4) 1)) (regs [(.s 4, 0x7FFFFFFF)]) 4 = 0x7FFFFFFF := by decide
theorem test_muli : sOf (.muli (iw ⟨.f32, false, false⟩ (.s 4) 0x3F000000)) (regs [(.s 4, 0x40400000)]) 4 = 0x3FC00000 := by decide
/-- R246: `andi.n64` clears bits 63:32. -/
theorem test_andi : sOf (.andi (iw ⟨.n64, false, false⟩ (.s 4) 0xF)) (regs [(.s 5, 7)]) 5 = 0 := by decide
theorem test_ori : sOf (.ori (iw ⟨.n32, false, false⟩ (.s 4) 0xF0)) (regs [(.s 4, 7)]) 4 = 0xF7 := by decide
theorem test_xori : sOf (.xori (iw ⟨.n32, false, false⟩ (.s 4) 0xFF)) (regs [(.s 4, 7)]) 4 = 0xF8 := by decide
theorem test_cmpi : (spOf (.cmpi (iw (.i32, 2) (.s 4) 1)) (regs [(.s 4, 0xFFFFFFFF)])).cc = ⟨false, false, false, false, false, true⟩ := by decide
/-- R248: a full 64-bit constant takes two words. -/
theorem test_movhi : sOf (.movhi (iw .n64 (.s 8) 0x12345678)) (regs [(.s 8, 0x9ABCDEF0)]) 9 = 0x12345678 := by decide
theorem test_ldc : vOf (.ldc (iw (.i32, -1) (.v 2) 3)) (regs []) 2 5 = 0xFFFFFFFE := by decide
/-- R194: both slots read before either writes. -/
theorem test_pair :
    let i := Instr.pairIadd ⟨4, .v 9, 0, false⟩ ⟨.mov, ⟨9, .v 4, 0, false⟩⟩
    let s := regs [(.v 4 2, 5), (.v 9 2, 7)]
    vOf i s 4 2 = 12 ∧ vOf i s 9 2 = 5 := by decide
theorem test_pair_sub : vOf (.pairIsub ⟨5, .v 6, 0, false⟩ ⟨.nop, ⟨0, .v 0, 0, false⟩⟩) (regs [(.v 5 2, 5), (.v 6 2, 7)]) 5 2 =
    0xFFFFFFFE := by decide

/-! ### Chapter 12: control flow, traps, system -/

/-- R196: the target is the next word plus 8 × the displacement. -/
theorem test_bra : (spOf (.bra .always (-3)) (regs [])).pc = 0xFFF0 := by decide
theorem test_bra_mask : (spOf (.bra (.mask false 1) 2) (regs [(.m 1, 8)])).pc = 0x10008 := by decide
theorem test_call : sOf (.call .always 10 4) (regs [(.s 11, 7)]) 10 = 0x10008 ∧ sOf (.call .always 10 4) (regs [(.s 11, 7)]) 11 = 0 := by decide
/-- R285: bits 2:0 of the address are cleared; 2^57 and above raises cause 0x31. -/
theorem test_ret : (spOf (.ret .always 10) (regs [(.s 10, 0x2000F)])).pc = 0x20008 := by decide
theorem test_jmps_trap : trapOf (.jmps .always 10) (armed (tGroup.writeRegs [(.s 11, 0x02000000)])) = some (0x31, 0, 0x200000000000000) := by decide
theorem test_loop : (spOf (.loop 5 (-1)) (regs [(.s 5, 2)])).pc = 0x10000 ∧ (spOf (.loop 5 (-1)) (regs [(.s 5, 1)])).pc = 0x10008 := by decide
/-- R36: the split keeps the lanes of the first path, a new entry runs the others at the else address. -/
theorem test_split :
    let g := grp (after (.split true 1 3 5) (regs [(.m 1, 0xF)]))
    (g.split 0).mask = 0xF ∧ (g.split 0).pc = 0x10008 ∧ (g.split 1).mask = 0xFFFFFFF0 ∧ (g.split 1).pc = 0x10020
      ∧ (g.split 0).join = 0x10030 := by decide
/-- R290: an index at the table's length raises cause 0x10 with the index. -/
theorem test_jtab_trap : trapOf (.jtab 3 4 1) (armed (tGroup.writeRegs [(.v 3 6, 4)])) = some (0x10, 6, 4) := by decide
/-- R33: a team whose last lane exits has ended. -/
theorem test_exit : ((after (.exit .always) (regs [])).launch? 0).map Launch.ended = some [0] := by decide
theorem test_trap : trapOf (.trap .always 5) (armed) = some (0x90, 0, 5) := by decide
theorem test_bkpt : trapOf (.bkpt (fw 9 (.v 0))) (armed) = some (0x91, 0, 9) := by decide
theorem test_assert : trapOf (.assertw (fw () (.v 0) (.v 4) (.s 2))) (armed (tGroup.writeRegs [(.v 4 0, 1)])) = some (0x20, 1, 0) := by decide
/-- R403: with no handler a trap ends the launch by fault. -/
theorem test_trap_fatal : ((after (.trap .always 5) (regs [])).launch? 0).map Launch.faulted = some true := by decide
/-- R294: RFT outside the handler raises cause 0x31; R299: STEP outside a field launch raises cause 0x01. -/
theorem test_rft : (trapOf .rft (armed)).map Prod.fst = some 0x31 := by decide
theorem test_step : (trapOf .step (armed)).map Prod.fst = some 0x01 := by decide
theorem test_stepq : (trapOf (.stepq (fw false (.s 3))) (armed)).map Prod.fst = some 0x01 := by decide
/-- R296: the region's handler is the target; R297: without a region UNCONTAIN traps. -/
theorem test_contain : (grp (after (.contain 7 2) (regs []))).region.map (fun r => (r.id, r.handler)) = some (7, 0x10018) := by decide
theorem test_uncontain : (trapOf .uncontain (armed)).map Prod.fst = some 0x31 := by decide
theorem test_sread : vOf (.sread (fw 0x00 (.v 3))) (regs []) 3 9 = 9 := by decide
theorem test_swrite : (grp (after (.swrite (fw 0x33 (.v 0) (.s 2))) (regs [(.s 2, 5), (.s 3, 1)]))).tcmp = 0x100000005 := by decide
theorem test_xread : (trapOf (.xread (fw (RReg.s 3) (.s 1))) (armed)).map Prod.fst = some 0x31 := by decide
theorem test_xwrite : (trapOf (.xwrite (fw (RReg.s 3) (.v 0) (.s 1))) (armed)).map Prod.fst = some 0x31 := by decide
/-- R308: a mismatch raises cause 0x60 with the signature; R66: it starts as all ones. -/
theorem test_sigchk : trapOf (.sigchk 1) (armed) = some (0x60, 0, 0xFFFFFFFF) := by decide
/-- R303: a target of 850 is no sprint of an island that stands at FSUST 18. -/
theorem test_sprel : sOf (.sprel (fw () (.s 3))) (regs []) 3 = 1 := by decide
theorem test_yield : ((grp (after (.yieldw (fw 9 (.v 0))) (regs []))).tick).yieldLeft = 9 := by decide
/-- R305, R306: VALID is bit 0 of the descriptor's first word here; what is set is got. -/
theorem test_tdset : ((after (.tdset (fw () (.v 0) (.s 8) (.imm 3))) (regs [(.s 9, 5)])).ctx? 0 0).map (fun c => Map.get c.tds 0 3) =
    some 0x500000000 := by decide
theorem test_tdget : (lateOf (.tdget (fw () (.s 8) (.v 0) (.imm 3))) (tState tGroup { tCtx with tds := [(3, 0x500000000)] })).find? (fun w => w.1 == .s 9) =
    some (.s 9, 5) := by decide

/-! ### Chapter 11: memory and barriers -/

/-- Memory with bytes 0x80, 1, 2, 3 at 0x10100, and its address in s2 and s3. -/
def tMem : State := { regs [(.s 2, 0x10100)] with mem := [(0x10100, 0x80), (0x10101, 1), (0x10102, 2), (0x10103, 3)] }

theorem test_ld : lateOf (.ld (fw (mx) (.s 5) (.s 2) (.imm 0))) tMem = [(.s 5, 0x03020180)] := by decide
/-- R119, R120: a load's read may come after a later store of its lanes to other bytes, and so find a write that came
after that store; after a store to a common byte it stands as it was made. -/
def readLateAfter (x : Int) : List (List (RegId × Word)) :=
  let s := after (.st (fw (mx) (.s 5) (.s 2) (.imm x))) (after (.ld (fw (mx) (.s 5) (.s 2) (.imm 0))) tMem)
  match ((s.writeBy .host 0x10100 [9] false false).readLate 0).group? 0 with
  | some g => (g.split 0).pend.map (·.writes)
  | none => []
theorem test_late_read : readLateAfter 4 = [[(.s 5, 0x03020109)]] ∧ readLateAfter 0 = [[(.s 5, 0x03020180)]] := by decide
/-- R252: i8 is sign-extended. -/
theorem test_ldu : lateOf (.ldu (fw (mx .i8) (.s 5) (.s 2) (.imm 0))) tMem = [(.s 5, 0xFFFFFF80)] := by decide
/-- R251: bits 63:57 of the address. -/
theorem test_ld_trap : trapOf (.ld (fw (mx) (.s 5) (.s 2) (.imm 0))) (armed (tGroup.writeRegs [(.s 3, 0x02000000)])) =
    some (0x31, 0, 0x200000000000000) := by decide
theorem test_st : (after (.st (fw (mx) (.s 5) (.s 2) (.imm 4))) (regs [(.s 2, 0x10100), (.s 5, 0x01020304)])).stores =
    [{ id := 0, group := 0, lanes := 0xFFFFFFFF, addr := 0x10104, data := [4, 3, 2, 1], word := 1 }] := by decide
theorem test_stu : (after (.stu (fw (mx .n16) (.s 5) (.s 2) (.imm 0))) (regs [(.s 2, 0x10100), (.s 5, 0x01020304)])).stores =
    [{ id := 0, group := 0, lanes := 0xFFFFFFFF, addr := 0x10100, data := [4, 3], word := 1 }] := by decide
theorem test_sts : ((after (.sts (fw (mx) (.s 5) (.s 2) (.imm 0))) (regs [(.s 2, 64), (.s 5, 0x0A)])).ctx? 0 0).map Ctx.scr = some [(64, 0x0A)] := by decide
theorem test_lds : lateOf (.lds (fw (mx .n8) (.s 5) (.s 2) (.imm 0))) (tState (tGroup.writeRegs [(.s 2, 64)]) { tCtx with scr := [(64, 0x0A)] }) =
    [(.s 5, 0x0A)] := by decide
/-- R112: an absent line is waited for. -/
theorem test_lds_absent :
    (spOf (.lds (fw (mx .n8) (.s 5) (.s 2) (.imm 0))) (tState (tGroup.writeRegs [(.s 2, 64)]) { tCtx with counts := [(0, 1)] })).wait =
      .lines [(0, 0)] := by decide
/-- R113: past the private bytes. -/
theorem test_ldl_trap : trapOf (.ldl (fw (mx) (.s 5) (.s 2) (.imm 0))) (armed) = some (0x31, 0, 0) := by decide
theorem test_stl : (grp (after (.stl (fw (mx .n8) (.s 5) (.s 2) (.imm 0))) (tState (tGroup.writeRegs [(.s 5, 7)]) tCtx
    { tLaunch with r := { loadRecord with psize := 16, pbase := 0x10000 } }))).privRead 0 0 1 = 7 := by decide
/-- R262, R263: code 0 adds; the old value returns, and memory holds the sum. -/
theorem test_atom :
    let i := Instr.atom (fw (mx .w32 .strong) (.s 6) (.s 2) (.imm 0))
    let s : State := { regs [(.s 2, 0x10100), (.s 6, 1)] with mem := tMem.mem }
    let t := after (.storePerformedAtHome 0) (after i s)
    ((grp t).split 0).pend.map Pend.writes = [[(.s 6, 0x03020180)]] ∧ Memory.read t.mem 0x10100 = 0x81 := by decide
theorem test_atomn :
    Memory.read (after (.storePerformedAtHome 0) (after (.atomn (fw (mx .w32 .strong) (.s 6) (.s 2) (.imm 0)))
      { regs [(.s 2, 0x10100), (.s 6, 1)] with mem := tMem.mem })).mem 0x10100 = 0x81 := by decide
theorem test_atoms : ((grp (after (.storePerformedAtHome 0) (after (.atoms (fw (mx .w32 .strong) (.s 6) (.s 2) (.imm 0)))
    (regs [(.s 2, 64), (.s 6, 1)])))).split 0).pend.map Pend.writes = [[(.s 6, 0)]] := by decide
theorem test_fence : (spOf (.fence (fw (mx .n8 .acq) (.v 0))) (regs [])).pc = 0x10008 := by decide

/-- A launch with eight named barriers. -/
def tBar (ws : List (RegId × Word)) : State := tState (tGroup.writeRegs ws) tCtx { tLaunch with r := { loadRecord with nbar := 8 } }

/-- R267: the arrival before the last counts; R266: an id past NBAR raises cause 0x31. -/
theorem test_bara : ((after (.bara (fw ⟨.core, .plain, .none⟩ (.s 3) (.imm 1) (.imm 2))) (tBar [])).ctx? 0 0).map (fun c => c.bar 1) =
    some { phase := false, arrived := 1, expected := 2 } := by decide
theorem test_bara_completes : ((after (.bara (fw ⟨.core, .plain, .none⟩ (.s 3) (.imm 1) (.imm 1))) (tBar [])).ctx? 0 0).map (fun c => c.bar 1) =
    some { phase := true, arrived := 0, expected := 0 } := by decide
theorem test_barw : (spOf (.barw (fw ⟨.core, .plain, .none⟩ (.v 0) (.imm 1) (.imm 1))) (tBar [])).pc = 0x10008 := by decide
theorem test_tbinit : (Tb.of (scrRead (after (.tbinit (fw ⟨.plain, .none⟩ (.v 0) (.s 1) (.imm 3))) (regs [(.s 1, 32)]))
    ⟨0, 0, tGroup, tGroup, tGroup.split 0, tLaunch, tCtx⟩ (.slice 0 32) 16)) =
    { top := 0, error := false, fail := false, sect := 0, reload := 3, arrv := 3, phase := 0 } := by decide +kernel
/-- R275: the last arrival advances the phase. -/
theorem test_tb_arrive : Tb.arrive 2 { top := 0, error := false, fail := false, sect := 0, reload := 3, arrv := 2, phase := 15 } =
    { top := 0, error := false, fail := false, sect := 0, reload := 3, arrv := 3, phase := 0 } := by decide +kernel

/-! ### One word of every instruction, its fields packed by hand from the tables of R187 to R198 and R203 to R206 -/

theorem test_decode_nop : decodeWord 0x0040000000000000 = .ok .nop := rfl
theorem test_decode_mov : decodeWord 0x00800039140040C0 = .ok (.mov ⟨⟨0, false⟩, 0, .v 3, .nb 2 5, .v 0, ⟨.f32, .rne, false, false, true, true, false, false, 0⟩⟩) := rfl
theorem test_decode_sel : decodeWord 0x00D4003013FB1009 = .ok (.sel ⟨⟨2, true⟩, 0, .v 3, .v 4, .imm (-5), ⟨.n32, .rne, false, false, false, false, false, false, 9⟩⟩) := rfl
theorem test_decode_iadd : decodeWord 0x0100114453FF0100 = .ok (.iadd ⟨⟨0, false⟩, 0, .s 20, .s 20, .imm (-1), ⟨.i32, .rne, false, true, false, false, false, false, 0⟩⟩) := rfl
theorem test_decode_isub : decodeWord 0x01400011FDBF8200 = .ok (.isub ⟨⟨0, false⟩, 0, .v 1, .v 127, .s 191, ⟨.i16x2, .rne, true, false, false, false, false, false, 0⟩⟩) := rfl
theorem test_decode_imul : decodeWord 0x0180002ABC09B000 = .ok (.imul ⟨⟨0, false⟩, 0, .v 2, .nb 5 15, .v 9, ⟨.n8x4, .rne, false, false, false, false, false, false, 0⟩⟩) := rfl
theorem test_decode_imulh : decodeWord 0x01C0104419083000 = .ok (.imulh ⟨⟨0, false⟩, 0, .s 4, .s 6, .s 8, ⟨.n64, .rne, false, false, false, false, false, false, 0⟩⟩) := rfl
theorem test_decode_imad : decodeWord 0x023800200C04A200 = .ok (.imad ⟨⟨7, false⟩, 0, .v 2, .v 3, .v 4, ⟨.i8x4, .rne, true, false, false, false, false, false, 0⟩⟩) := rfl
theorem test_decode_idiv : decodeWord 0x0243D034137F0101 = .ok (.idiv ⟨⟨0, false⟩, 15, .s 3, .s 4, .imm 127, ⟨.i32, .rne, false, true, false, false, false, false, 1⟩⟩) := rfl
theorem test_decode_imin : decodeWord 0x028000200C049000 = .ok (.imin ⟨⟨0, false⟩, 0, .v 2, .v 3, .v 4, ⟨.n16x2, .rne, false, false, false, false, false, false, 0⟩⟩) := rfl
theorem test_decode_imax : decodeWord 0x02C000200C040000 = .ok (.imax ⟨⟨0, false⟩, 0, .v 2, .v 3, .v 4, ⟨.i32, .rne, false, false, false, false, false, false, 0⟩⟩) := rfl
theorem test_decode_iabs : decodeWord 0x030000200C008200 = .ok (.iabs ⟨⟨0, false⟩, 0, .v 2, .v 3, .v 0, ⟨.i16x2, .rne, true, false, false, false, false, false, 0⟩⟩) := rfl
theorem test_decode_lea : decodeWord 0x034010441909200F = .ok (.lea ⟨⟨0, false⟩, 0, .s 4, .s 6, .s 9, ⟨.i64, .rne, false, false, false, false, false, false, 15⟩⟩) := rfl
theorem test_decode_and : decodeWord 0x038000200C041000 = .ok (.and ⟨⟨0, false⟩, 0, .v 2, .v 3, .v 4, ⟨.n32, .rne, false, false, false, false, false, false, 0⟩⟩) := rfl
theorem test_decode_or : decodeWord 0x03C000200F801000 = .ok (.or ⟨⟨0, false⟩, 0, .v 2, .v 3, .imm (-128), ⟨.n32, .rne, false, false, false, false, false, false, 0⟩⟩) := rfl
theorem test_decode_xor : decodeWord 0x040000200C041000 = .ok (.xor ⟨⟨0, false⟩, 0, .v 2, .v 3, .v 4, ⟨.n32, .rne, false, false, false, false, false, false, 0⟩⟩) := rfl
theorem test_decode_andn : decodeWord 0x044000240C04B000 = .ok (.andn ⟨⟨0, false⟩, 0, .v 2, .s 3, .v 4, ⟨.n8x4, .rne, false, false, false, false, false, false, 0⟩⟩) := rfl
theorem test_decode_shl : decodeWord 0x048000200F1F0200 = .ok (.shl ⟨⟨0, false⟩, 0, .v 2, .v 3, .imm 31, ⟨.i32, .rne, true, false, false, false, false, false, 0⟩⟩) := rfl
theorem test_decode_shr : decodeWord 0x04C000200C041000 = .ok (.shr ⟨⟨0, false⟩, 0, .v 2, .v 3, .v 4, ⟨.n32, .rne, false, false, false, false, false, false, 0⟩⟩) := rfl
theorem test_decode_sar : decodeWord 0x050000200C040000 = .ok (.sar ⟨⟨0, false⟩, 0, .v 2, .v 3, .v 4, ⟨.i32, .rne, false, false, false, false, false, false, 0⟩⟩) := rfl
theorem test_decode_rot : decodeWord 0x054010240F081100 = .ok (.rot ⟨⟨0, false⟩, 0, .s 2, .s 3, .imm 8, ⟨.n32, .rne, false, true, false, false, false, false, 0⟩⟩) := rfl
theorem test_decode_popc : decodeWord 0x0580002010003000 = .ok (.popc ⟨⟨0, false⟩, 0, .v 2, .v 4, .v 0, ⟨.n64, .rne, false, false, false, false, false, false, 0⟩⟩) := rfl
theorem test_decode_clz : decodeWord 0x05C000200C001000 = .ok (.clz ⟨⟨0, false⟩, 0, .v 2, .v 3, .v 0, ⟨.n32, .rne, false, false, false, false, false, false, 0⟩⟩) := rfl
theorem test_decode_brev : decodeWord 0x060000200C001000 = .ok (.brev ⟨⟨0, false⟩, 0, .v 2, .v 3, .v 0, ⟨.n32, .rne, false, false, false, false, false, false, 0⟩⟩) := rfl
theorem test_decode_bfe : decodeWord 0x064000200C040000 = .ok (.bfe ⟨⟨0, false⟩, 0, .v 2, .v 3, .v 4, ⟨.i32, .rne, false, false, false, false, false, false, 0⟩⟩) := rfl
theorem test_decode_bfi : decodeWord 0x068000200D041000 = .ok (.bfi ⟨⟨0, false⟩, 0, .v 2, .v 3, .s 4, ⟨.n32, .rne, false, false, false, false, false, false, 0⟩⟩) := rfl
theorem test_decode_icmp : decodeWord 0x06C8302010050002 = .ok (.icmp ⟨⟨1, false⟩, 0, .m 2, .v 4, .v 5, ⟨.i32, .rne, false, false, false, false, false, false, 2⟩⟩) := rfl
theorem test_decode_fadd : decodeWord 0x0800014882004000 = .ok (.fadd ⟨⟨0, false⟩, 0, .v 20, .nb 1 0, .nb 0 0, ⟨.f32, .rne, false, false, false, false, false, false, 0⟩⟩) := rfl
theorem test_decode_fsub : decodeWord 0x084000200C046EB0 = .ok (.fsub ⟨⟨0, false⟩, 0, .v 2, .v 3, .v 4, ⟨.f16x2, .rup, true, false, true, false, true, true, 0⟩⟩) := rfl
theorem test_decode_fmul : decodeWord 0x088000200C047400 = .ok (.fmul ⟨⟨0, false⟩, 0, .v 2, .v 3, .v 4, ⟨.bf16x2, .rz, false, false, false, false, false, false, 0⟩⟩) := rfl
theorem test_decode_ffma : decodeWord 0x08C0003010054000 = .ok (.ffma ⟨⟨0, false⟩, 0, .v 3, .v 4, .v 5, ⟨.f32, .rne, false, false, false, false, false, false, 0⟩⟩) := rfl
theorem test_decode_fmin : decodeWord 0x090000200C044000 = .ok (.fmin ⟨⟨0, false⟩, 0, .v 2, .v 3, .v 4, ⟨.f32, .rne, false, false, false, false, false, false, 0⟩⟩) := rfl
theorem test_decode_fmax : decodeWord 0x0940002010065000 = .ok (.fmax ⟨⟨0, false⟩, 0, .v 2, .v 4, .v 6, ⟨.f64, .rne, false, false, false, false, false, false, 0⟩⟩) := rfl
theorem test_decode_fcmp : decodeWord 0x098030700C044007 = .ok (.fcmp ⟨⟨0, false⟩, 0, .m 7, .v 3, .v 4, ⟨.f32, .rne, false, false, false, false, false, false, 7⟩⟩) := rfl
theorem test_decode_frnd : decodeWord 0x09C000200C004800 = .ok (.frnd ⟨⟨0, false⟩, 0, .v 2, .v 3, .v 0, ⟨.f32, .rdn, false, false, false, false, false, false, 0⟩⟩) := rfl
theorem test_decode_frcp : decodeWord 0x0A0040200C004000 = .ok (.frcp ⟨⟨0, false⟩, 1, .v 2, .v 3, .v 0, ⟨.f32, .rne, false, false, false, false, false, false, 0⟩⟩) := rfl
theorem test_decode_frsq : decodeWord 0x0A40002010005000 = .ok (.frsq ⟨⟨0, false⟩, 0, .v 2, .v 4, .v 0, ⟨.f64, .rne, false, false, false, false, false, false, 0⟩⟩) := rfl
theorem test_decode_fsqrt : decodeWord 0x0A8000200C004C00 = .ok (.fsqrt ⟨⟨0, false⟩, 0, .v 2, .v 3, .v 0, ⟨.f32, .rup, false, false, false, false, false, false, 0⟩⟩) := rfl
theorem test_decode_fdiv : decodeWord 0x0AC200200C044600 = .ok (.fdiv ⟨⟨0, false⟩, 8, .v 2, .v 3, .v 4, ⟨.f32, .rz, true, false, false, false, false, false, 0⟩⟩) := rfl
theorem test_decode_fexp2 : decodeWord 0x0B0000200C004000 = .ok (.fexp2 ⟨⟨0, false⟩, 0, .v 2, .v 3, .v 0, ⟨.f32, .rne, false, false, false, false, false, false, 0⟩⟩) := rfl
theorem test_decode_flog2 : decodeWord 0x0B4000200C004000 = .ok (.flog2 ⟨⟨0, false⟩, 0, .v 2, .v 3, .v 0, ⟨.f32, .rne, false, false, false, false, false, false, 0⟩⟩) := rfl
theorem test_decode_fsin : decodeWord 0x0B8010240C004100 = .ok (.fsin ⟨⟨0, false⟩, 0, .s 2, .s 3, .v 0, ⟨.f32, .rne, false, true, false, false, false, false, 0⟩⟩) := rfl
theorem test_decode_fcos : decodeWord 0x0BC000200C004080 = .ok (.fcos ⟨⟨0, false⟩, 0, .v 2, .v 3, .v 0, ⟨.f32, .rne, false, false, true, false, false, false, 0⟩⟩) := rfl
theorem test_decode_fclass : decodeWord 0x0C00003010005000 = .ok (.fclass ⟨⟨0, false⟩, 0, .v 3, .v 4, .v 0, ⟨.f64, .rne, false, false, false, false, false, false, 0⟩⟩) := rfl
theorem test_decode_fdot2 : decodeWord 0x0C4000200C047A00 = .ok (.fdot2 ⟨⟨0, false⟩, 0, .v 2, .v 3, .v 4, ⟨.bf16x2, .rdn, true, false, false, false, false, false, 0⟩⟩) := rfl
theorem test_decode_cvt : decodeWord 0x0E00002010000850 = .ok (.cvt ⟨⟨0, false⟩, 0, .v 2, .v 4, .v 0, ⟨.i32, .rdn, false, false, .f64, 0⟩⟩) := rfl
theorem test_decode_cvtq : decodeWord 0x0E40028020004001 = .ok (.cvtq ⟨⟨0, false⟩, 0, .v 40, .v 8, .v 0, ⟨.f32, .rne, false, false, false, false, false, false, 1⟩⟩) := rfl
theorem test_decode_cvtqd : decodeWord 0x0E800290A0004008 = .ok (.cvtqd ⟨⟨0, false⟩, 0, .v 41, .v 40, .v 0, ⟨.f32, .rne, false, false, false, false, false, false, 8⟩⟩) := rfl
theorem test_decode_pack : decodeWord 0x0EC000200C04A201 = .ok (.pack ⟨⟨0, false⟩, 0, .v 2, .v 3, .v 4, ⟨.i8x4, .rne, true, false, false, false, false, false, 1⟩⟩) := rfl
theorem test_decode_unpack : decodeWord 0x0F0000200C00C003 = .ok (.unpack ⟨⟨0, false⟩, 0, .v 2, .v 3, .v 0, ⟨.e4m3x4, .rne, false, false, false, false, false, false, 3⟩⟩) := rfl
theorem test_decode_shfl : decodeWord 0x1000005013011005 = .ok (.shfl ⟨⟨0, false⟩, 0, .v 5, .v 4, .imm 1, ⟨.n32, .rne, false, false, false, false, false, false, 5⟩⟩) := rfl
theorem test_decode_shflx : decodeWord 0x1040005010060000 = .ok (.shflx ⟨⟨0, false⟩, 0, .v 5, .v 4, .v 6, ⟨.i32, .rne, false, false, false, false, false, false, 0⟩⟩) := rfl
theorem test_decode_bcst : decodeWord 0x10801030131F1100 = .ok (.bcst ⟨⟨0, false⟩, 0, .s 3, .v 4, .imm 31, ⟨.n32, .rne, false, true, false, false, false, false, 0⟩⟩) := rfl
theorem test_decode_vote : decodeWord 0x10C0301010001009 = .ok (.vote ⟨⟨0, false⟩, 0, .m 1, .v 4, .v 0, ⟨.n32, .rne, false, false, false, false, false, false, 9⟩⟩) := rfl
theorem test_decode_matchl : decodeWord 0x1100014028001002 = .ok (.matchl ⟨⟨0, false⟩, 0, .v 20, .v 10, .v 0, ⟨.n32, .rne, false, false, false, false, false, false, 2⟩⟩) := rfl
theorem test_decode_redl : decodeWord 0x114011E018004002 = .ok (.redl ⟨⟨0, false⟩, 0, .s 30, .v 6, .v 0, ⟨.f32, .rne, false, false, false, false, false, false, 2⟩⟩) := rfl
theorem test_decode_scanl : decodeWord 0x118000701800000D = .ok (.scanl ⟨⟨0, false⟩, 0, .v 7, .v 6, .v 0, ⟨.i32, .rne, false, false, false, false, false, false, 13⟩⟩) := rfl
theorem test_decode_firstl : decodeWord 0x11C0103010004000 = .ok (.firstl ⟨⟨0, false⟩, 0, .s 3, .v 4, .v 0, ⟨.f32, .rne, false, false, false, false, false, false, 0⟩⟩) := rfl
theorem test_decode_mtos : decodeWord 0x1200103000001007 = .ok (.mtos ⟨⟨0, false⟩, 0, .s 3, .v 0, .v 0, ⟨.n32, .rne, false, false, false, false, false, false, 7⟩⟩) := rfl
theorem test_decode_stom : decodeWord 0x1240303FFC000000 = .ok (.stom ⟨⟨0, false⟩, 0, .m 3, .imm (-1), .v 0, ⟨.i32, .rne, false, false, false, false, false, false, 0⟩⟩) := rfl
theorem test_decode_step : decodeWord 0x1400000000000000 = .ok .step := rfl
theorem test_decode_stepq : decodeWord 0x1440300000000100 = .ok (.stepq ⟨⟨0, false⟩, 0, .m 0, .v 0, .v 0, true⟩) := rfl
theorem test_decode_sread : decodeWord 0x1600D04000000030 = .ok (.sread ⟨⟨0, false⟩, 3, .s 4, .v 0, .v 0, 48⟩) := rfl
theorem test_decode_swrite : decodeWord 0x1640000408000033 = .ok (.swrite ⟨⟨0, false⟩, 0, .v 0, .s 2, .v 0, 51⟩) := rfl
theorem test_decode_xread : decodeWord 0x1680928003030005 = .ok (.xread ⟨⟨0, false⟩, 2, .s 40, .v 0, .imm 3, .v 5⟩) := rfl
theorem test_decode_xwrite : decodeWord 0x16C0000404000107 = .ok (.xwrite ⟨⟨0, false⟩, 0, .v 0, .s 1, .v 0, .s 7⟩) := rfl
theorem test_decode_sprint : decodeWord 0x1700103405020100 = .ok (.sprint ⟨⟨0, false⟩, 0, .s 3, .s 1, .s 2, true⟩) := rfl
theorem test_decode_sprel : decodeWord 0x1740300000000000 = .ok (.sprel ⟨⟨0, false⟩, 0, .m 0, .v 0, .v 0, ()⟩) := rfl
theorem test_decode_assertw : decodeWord 0x1780000011020000 = .ok (.assertw ⟨⟨0, false⟩, 0, .v 0, .v 4, .s 2, ()⟩) := rfl
theorem test_decode_bkpt : decodeWord 0x17C000000000ABCD = .ok (.bkpt ⟨⟨0, false⟩, 0, .v 0, .v 0, .v 0, 43981⟩) := rfl
theorem test_decode_yieldw : decodeWord 0x18000000000000C8 = .ok (.yieldw ⟨⟨0, false⟩, 0, .v 0, .v 0, .v 0, 200⟩) := rfl
theorem test_decode_tdset : decodeWord 0x1840000443070000 = .ok (.tdset ⟨⟨0, false⟩, 0, .v 0, .s 16, .imm 7, ()⟩) := rfl
theorem test_decode_tdget : decodeWord 0x1881118001030000 = .ok (.tdget ⟨⟨0, false⟩, 4, .s 24, .v 0, .s 3, ()⟩) := rfl
theorem test_decode_ld : decodeWord 0x2000805420028B80 = .ok (.ld ⟨⟨0, false⟩, 2, .v 5, .s 8, .v 2, ⟨.w32, .acq, ⟨true, true, true, false, false, false, false⟩, .normal⟩⟩) := rfl
theorem test_decode_st : decodeWord 0x204000442002CC79 = .ok (.st ⟨⟨0, false⟩, 0, .v 4, .s 8, .v 2, ⟨.w128, .rel, ⟨false, false, false, true, true, true, true⟩, .stream⟩⟩) := rfl
theorem test_decode_lds : decodeWord 0x2080005023042400 = .ok (.lds ⟨⟨0, false⟩, 0, .v 5, .v 8, .imm 4, ⟨.i8, .strong, ⟨false, false, false, false, false, false, false⟩, .normal⟩⟩) := rfl
theorem test_decode_sts : decodeWord 0x20C0005023FC4000 = .ok (.sts ⟨⟨0, false⟩, 0, .v 5, .v 8, .imm (-4), ⟨.n16, .plain, ⟨false, false, false, false, false, false, false⟩, .normal⟩⟩) := rfl
theorem test_decode_ldl : decodeWord 0x2100300023046000 = .ok (.ldl ⟨⟨0, false⟩, 0, .m 0, .v 8, .imm 4, ⟨.i16, .plain, ⟨false, false, false, false, false, false, false⟩, .normal⟩⟩) := rfl
theorem test_decode_stl : decodeWord 0x214000602304A000 = .ok (.stl ⟨⟨0, false⟩, 0, .v 6, .v 8, .imm 4, ⟨.w64, .plain, ⟨false, false, false, false, false, false, false⟩, .normal⟩⟩) := rfl
theorem test_decode_ldu : decodeWord 0x2180105421098003 = .ok (.ldu ⟨⟨0, false⟩, 0, .s 5, .s 8, .s 9, ⟨.w32, .plain, ⟨false, false, false, false, false, false, false⟩, .bypass⟩⟩) := rfl
theorem test_decode_stu : decodeWord 0x21C0105423008002 = .ok (.stu ⟨⟨0, false⟩, 0, .s 5, .s 8, .imm 0, ⟨.w32, .plain, ⟨false, false, false, false, false, false, false⟩, .keep⟩⟩) := rfl
theorem test_decode_ldt : decodeWord 0x2200005023098000 = .ok (.ldt ⟨⟨0, false⟩, 0, .v 5, .v 8, .imm 9, ⟨.w32, .plain, ⟨false, false, false, false, false, false, false⟩, .normal⟩⟩) := rfl
theorem test_decode_stt : decodeWord 0x2240005421038C08 = .ok (.stt ⟨⟨0, false⟩, 0, .v 5, .s 8, .s 3, ⟨.w32, .rel, ⟨false, false, false, false, false, false, true⟩, .normal⟩⟩) := rfl
theorem test_decode_pref : decodeWord 0x2280000023028002 = .ok (.pref ⟨⟨0, false⟩, 0, .v 0, .v 8, .imm 2, ⟨.w32, .plain, ⟨false, false, false, false, false, false, false⟩, .keep⟩⟩) := rfl
theorem test_decode_fence : decodeWord 0x22C0000000001208 = .ok (.fence ⟨⟨0, false⟩, 0, .v 0, .v 0, .v 0, ⟨.n8, .ar, ⟨true, false, false, false, false, false, true⟩, .normal⟩⟩) := rfl
theorem test_decode_atom : decodeWord 0x2400005023039200 = .ok (.atom ⟨⟨0, false⟩, 0, .v 5, .v 8, .imm 3, ⟨.w32, .ar, ⟨true, false, false, false, false, false, false⟩, .normal⟩⟩) := rfl
theorem test_decode_atomn : decodeWord 0x2440005023008400 = .ok (.atomn ⟨⟨0, false⟩, 0, .v 5, .v 8, .imm 0, ⟨.w32, .strong, ⟨false, false, false, false, false, false, false⟩, .normal⟩⟩) := rfl
theorem test_decode_atoms : decodeWord 0x248000C053008400 = .ok (.atoms ⟨⟨0, false⟩, 0, .v 12, .v 20, .imm 0, ⟨.w32, .strong, ⟨false, false, false, false, false, false, false⟩, .normal⟩⟩) := rfl
theorem test_decode_atomsn : decodeWord 0x24C000C053058E00 = .ok (.atomsn ⟨⟨0, false⟩, 0, .v 12, .v 20, .imm 5, ⟨.w32, .rel, ⟨true, false, false, false, false, false, false⟩, .normal⟩⟩) := rfl
theorem test_decode_atomu : decodeWord 0x2500104423098810 = .ok (.atomu ⟨⟨0, false⟩, 0, .s 4, .s 8, .imm 9, ⟨.w32, .acq, ⟨false, false, false, false, false, true, false⟩, .normal⟩⟩) := rfl
theorem test_decode_bar : decodeWord 0x2800000C07029300 = .ok (.bar ⟨⟨0, false⟩, 0, .v 0, .imm 1, .imm 2, ⟨.die, .ar, ⟨true, true, false, false, false, false, false⟩⟩⟩) := rfl
theorem test_decode_bara : decodeWord 0x2840103411054C20 = .ok (.bara ⟨⟨0, false⟩, 0, .s 3, .s 4, .s 5, ⟨.cluster, .rel, ⟨false, false, false, false, true, false, false⟩⟩⟩) := rfl
theorem test_decode_barw : decodeWord 0x2880000C0503C840 = .ok (.barw ⟨⟨0, false⟩, 0, .v 0, .imm 1, .s 3, ⟨.pkg, .acq, ⟨false, false, false, true, false, false, false⟩⟩⟩) := rfl
theorem test_decode_tbinit : decodeWord 0x28C0000407030000 = .ok (.tbinit ⟨⟨0, false⟩, 0, .v 0, .s 1, .imm 3, ⟨.plain, ⟨false, false, false, false, false, false, false⟩⟩⟩) := rfl
theorem test_decode_tbarr : decodeWord 0x2900102407010E00 = .ok (.tbarr ⟨⟨0, false⟩, 0, .s 2, .s 1, .imm 1, ⟨.rel, ⟨true, false, false, false, false, false, false⟩⟩⟩) := rfl
theorem test_decode_tbexp : decodeWord 0x2940000405020000 = .ok (.tbexp ⟨⟨0, false⟩, 0, .v 0, .s 1, .s 2, ⟨.plain, ⟨false, false, false, false, false, false, false⟩⟩⟩) := rfl
theorem test_decode_tbwait : decodeWord 0x2980000407010900 = .ok (.tbwait ⟨⟨0, false⟩, 0, .v 0, .s 1, .imm 1, ⟨.acq, ⟨false, true, false, false, false, false, false⟩⟩⟩) := rfl
theorem test_decode_tbtest : decodeWord 0x29C03004070F0000 = .ok (.tbtest ⟨⟨0, false⟩, 0, .m 0, .s 1, .imm 15, ⟨.plain, ⟨false, false, false, false, false, false, false⟩⟩⟩) := rfl
theorem test_decode_cpy : decodeWord 0x2C0011E4210C4002 = .ok (.cpy ⟨⟨0, false⟩, 0, .s 30, .s 8, .s 12, ⟨1, 2⟩⟩) := rfl
theorem test_decode_cpyc : decodeWord 0x2C4011E420000000 = .ok (.cpyc ⟨⟨0, false⟩, 0, .s 30, .s 8, .v 0, ()⟩) := rfl
theorem test_decode_cpyt : decodeWord 0x2C8011E42000B200 = .ok (.cpyt ⟨⟨0, false⟩, 0, .s 30, .s 8, .v 0, ⟨true, 6, 1⟩⟩) := rfl
theorem test_decode_stage : decodeWord 0x2CC0103000000000 = .ok (.stage ⟨⟨0, false⟩, 0, .s 3, .v 0, .v 0, ()⟩) := rfl
theorem test_decode_gpool : decodeWord 0x2D0011E44000B803 = .ok (.gpool ⟨⟨0, false⟩, 0, .s 30, .s 16, .v 0, ⟨11, 2, 3⟩⟩) := rfl
theorem test_decode_scata : decodeWord 0x2D4011E440000000 = .ok (.scata ⟨⟨0, false⟩, 0, .s 30, .s 16, .v 0, ()⟩) := rfl
theorem test_decode_fld : decodeWord 0x2E01405420028000 = .ok (.fld ⟨⟨0, false⟩, 5, .v 5, .s 8, .v 2, ⟨.w32, .plain, ⟨false, false, false, false, false, false, false⟩, .normal⟩⟩) := rfl
theorem test_decode_fst : decodeWord 0x2E40005420028C20 = .ok (.fst ⟨⟨0, false⟩, 0, .v 5, .s 8, .v 2, ⟨.w32, .rel, ⟨false, false, false, false, true, false, false⟩, .normal⟩⟩) := rfl
theorem test_decode_fput : decodeWord 0x2E80300420000000 = .ok (.fput ⟨⟨0, false⟩, 0, .m 0, .s 8, .v 0, ()⟩) := rfl
theorem test_decode_fget : decodeWord 0x2EC011E420000000 = .ok (.fget ⟨⟨0, false⟩, 0, .s 30, .s 8, .v 0, ()⟩) := rfl
theorem test_decode_fatom : decodeWord 0x2F00005023008400 = .ok (.fatom ⟨⟨0, false⟩, 0, .v 5, .v 8, .imm 0, ⟨.w32, .strong, ⟨false, false, false, false, false, false, false⟩, .normal⟩⟩) := rfl
theorem test_decode_fatomn : decodeWord 0x2F40005023008400 = .ok (.fatomn ⟨⟨0, false⟩, 0, .v 5, .v 8, .imm 0, ⟨.w32, .strong, ⟨false, false, false, false, false, false, false⟩, .normal⟩⟩) := rfl
theorem test_decode_palloc : decodeWord 0x3000504417020000 = .ok (.palloc ⟨⟨0, false⟩, 1, .s 4, .s 5, .imm 2, ()⟩) := rfl
theorem test_decode_pfree : decodeWord 0x3040000410000000 = .ok (.pfree ⟨⟨0, false⟩, 0, .v 0, .s 4, .v 0, ()⟩) := rfl
theorem test_decode_paddr : decodeWord 0x3080104418000000 = .ok (.paddr ⟨⟨0, false⟩, 0, .s 4, .s 6, .v 0, ()⟩) := rfl
theorem test_decode_ldp : decodeWord 0x30C0005410028000 = .ok (.ldp ⟨⟨0, false⟩, 0, .v 5, .s 4, .v 2, ⟨.w32, .plain, ⟨false, false, false, false, false, false, false⟩, .normal⟩⟩) := rfl
theorem test_decode_stp : decodeWord 0x3100005410020000 = .ok (.stp ⟨⟨0, false⟩, 0, .v 5, .s 4, .v 2, ⟨.n8, .plain, ⟨false, false, false, false, false, false, false⟩, .normal⟩⟩) := rfl
theorem test_decode_stpr : decodeWord 0x3140105413088000 = .ok (.stpr ⟨⟨0, false⟩, 0, .s 5, .s 4, .imm 8, ⟨.w32, .plain, ⟨false, false, false, false, false, false, false⟩, .normal⟩⟩) := rfl
theorem test_decode_post : decodeWord 0x318011E411060C10 = .ok (.post ⟨⟨0, false⟩, 0, .s 30, .s 4, .s 6, ⟨.n8, .rel, ⟨false, false, false, false, false, true, false⟩, .normal⟩⟩) := rfl
theorem test_decode_precv : decodeWord 0x31C0504003070810 = .ok (.precv ⟨⟨0, false⟩, 1, .s 4, .v 0, .imm 7, ⟨.n8, .acq, ⟨false, false, false, false, false, true, false⟩, .normal⟩⟩) := rfl
theorem test_decode_pstat : decodeWord 0x3200104418000000 = .ok (.pstat ⟨⟨0, false⟩, 0, .s 4, .s 6, .v 0, ()⟩) := rfl
theorem test_decode_mma : decodeWord 0x3400002000100000 = .ok (.mma ⟨⟨0, false⟩, 0, 2, .v 0, .v 16, ⟨0, 0, 0, false⟩⟩) := rfl
theorem test_decode_mmaq : decodeWord 0x3440007000102391 = .ok (.mmaq ⟨⟨0, false⟩, 0, 7, .v 0, .v 16, ⟨2, 3, 9, true⟩⟩) := rfl
theorem test_decode_mmas : decodeWord 0x3480001081086601 = .ok (.mmas ⟨⟨0, false⟩, 0, 1, .v 32, .s 8, ⟨6, 6, 0, true⟩⟩) := rfl
theorem test_decode_mzero : decodeWord 0x34C0005000000000 = .ok (.mzero ⟨⟨0, false⟩, 0, 5, .v 0, .v 0, ()⟩) := rfl
theorem test_decode_mld : decodeWord 0x350000640C000000 = .ok (.mld ⟨⟨0, false⟩, 0, 6, .s 3, .v 0, ()⟩) := rfl
theorem test_decode_mst : decodeWord 0x354000340C000000 = .ok (.mst ⟨⟨0, false⟩, 0, 3, .s 3, .v 0, ()⟩) := rfl
theorem test_decode_mrd : decodeWord 0x3580C040233F0000 = .ok (.mrd ⟨⟨0, false⟩, 3, 4, .v 8, .imm 63, ()⟩) := rfl
theorem test_decode_wmv : decodeWord 0x360011E420000001 = .ok (.wmv ⟨⟨0, false⟩, 0, .s 30, .s 8, .v 0, 1⟩) := rfl
theorem test_decode_wload : decodeWord 0x364011E420000000 = .ok (.wload ⟨⟨0, false⟩, 0, .s 30, .s 8, .v 0, ()⟩) := rfl
theorem test_decode_movi : decodeWord 0x8041141012345678 = .ok (.movi ⟨⟨0, false⟩, .s 20, ⟨.n32, false, false⟩, 0x12345678⟩) := rfl
theorem test_decode_addi : decodeWord 0x80980408FFFFFFFF = .ok (.addi ⟨⟨3, false⟩, .v 4, ⟨.i32, true, false⟩, 0xFFFFFFFF⟩) := rfl
theorem test_decode_andi : decodeWord 0x80C104300000000F = .ok (.andi ⟨⟨0, false⟩, .s 4, ⟨.n64, false, false⟩, 0xF⟩) := rfl
theorem test_decode_ori : decodeWord 0x810104140000000F = .ok (.ori ⟨⟨0, false⟩, .s 4, ⟨.n32, false, true⟩, 0xF⟩) := rfl
theorem test_decode_xori : decodeWord 0x814104000000000F = .ok (.xori ⟨⟨0, false⟩, .s 4, ⟨.i32, false, false⟩, 0xF⟩) := rfl
theorem test_decode_muli : decodeWord 0x818104403F000000 = .ok (.muli ⟨⟨0, false⟩, .s 4, ⟨.f32, false, false⟩, 0x3F000000⟩) := rfl
theorem test_decode_cmpi : decodeWord 0x81C1044700000001 = .ok (.cmpi ⟨⟨0, false⟩, .s 4, (.f32, 7), 0x1⟩) := rfl
theorem test_decode_movhi : decodeWord 0x8201083012345678 = .ok (.movhi ⟨⟨0, false⟩, .s 8, .n64, 0x12345678⟩) := rfl
theorem test_decode_ldc : decodeWord 0x8240020F00000003 = .ok (.ldc ⟨⟨0, false⟩, .v 2, (.i32, -1), 0x3⟩) := rfl
theorem test_decode_sigchk : decodeWord 0x82800000DEADBEEF = .ok (.sigchk 0xDEADBEEF) := rfl
theorem test_decode_bra : decodeWord 0xC1600000FFFFFFFD = .ok (.bra (.cc 8) (-3)) := rfl
theorem test_decode_call : decodeWord 0xC200F00000000009 = .ok (.call .always 60 9) := rfl
theorem test_decode_ret : decodeWord 0xC3A4F00000000000 = .ok (.ret (.mask true 1) 60) := rfl
theorem test_decode_jmps : decodeWord 0xC402F80000000000 = .ok (.jmps .always 190) := rfl
theorem test_decode_loop : decodeWord 0xC502FC00FFFFFFFF = .ok (.loop 191 (-1)) := rfl
theorem test_decode_split : decodeWord 0xC6A8000300000005 = .ok (.split true 2 3 5) := rfl
theorem test_decode_jtab : decodeWord 0xC701FFFF00000004 = .ok (.jtab 127 1024 4) := rfl
theorem test_decode_exit : decodeWord 0xC88C000000000000 = .ok (.exit (.mask false 3)) := rfl
theorem test_decode_trap : decodeWord 0xC900FFFF00000000 = .ok (.trap .always 0xFFFF) := rfl
theorem test_decode_rft : decodeWord 0xCA00000000000000 = .ok .rft := rfl
theorem test_decode_contain : decodeWord 0xCB000007FFFFFFFE = .ok (.contain 7 (-2)) := rfl
theorem test_decode_uncontain : decodeWord 0xCC00000000000000 = .ok .uncontain := rfl
theorem test_decode_pairNop : decodeWord 0x400000000E26A080 = .ok (.pairNop ⟨0, .v 0, 0, false⟩ ⟨.xor, ⟨9, .imm 0, 2, false⟩⟩) := rfl
theorem test_decode_pairMov : decodeWord 0x4108812010269E80 = .ok (.pairMov ⟨4, .s 1, 1, false⟩ ⟨.andn, ⟨9, .imm (-1), 2, false⟩⟩) := rfl
theorem test_decode_pairIadd : decodeWord 0x4208825012269C80 = .ok (.pairIadd ⟨4, .s 2, 2, true⟩ ⟨.shl, ⟨9, .imm (-2), 2, false⟩⟩) := rfl
theorem test_decode_pairIsub : decodeWord 0x4308837014269A80 = .ok (.pairIsub ⟨4, .s 3, 3, true⟩ ⟨.shr, ⟨9, .imm (-3), 2, false⟩⟩) := rfl
theorem test_decode_pairImul : decodeWord 0x4408849016269880 = .ok (.pairImul ⟨4, .s 4, 4, true⟩ ⟨.sar, ⟨9, .imm (-4), 2, false⟩⟩) := rfl
theorem test_decode_pairAnd : decodeWord 0x450885A018269680 = .ok (.pairAnd ⟨4, .s 5, 5, false⟩ ⟨.imin, ⟨9, .imm (-5), 2, false⟩⟩) := rfl
theorem test_decode_pairOr : decodeWord 0x460886C01A269480 = .ok (.pairOr ⟨4, .s 6, 6, false⟩ ⟨.imax, ⟨9, .imm (-6), 2, false⟩⟩) := rfl
theorem test_decode_pairXor : decodeWord 0x470887E01C269280 = .ok (.pairXor ⟨4, .s 7, 7, false⟩ ⟨.fadd, ⟨9, .imm (-7), 2, false⟩⟩) := rfl
theorem test_decode_pairAndn : decodeWord 0x480888001E269080 = .ok (.pairAndn ⟨4, .s 8, 0, false⟩ ⟨.fsub, ⟨9, .imm (-8), 2, false⟩⟩) := rfl
theorem test_decode_pairShl : decodeWord 0x4908893020268E80 = .ok (.pairShl ⟨4, .s 9, 1, true⟩ ⟨.fmul, ⟨9, .imm (-9), 2, false⟩⟩) := rfl
theorem test_decode_pairShr : decodeWord 0x4A088A4022268C80 = .ok (.pairShr ⟨4, .s 10, 2, false⟩ ⟨.fmin, ⟨9, .imm (-10), 2, false⟩⟩) := rfl
theorem test_decode_pairSar : decodeWord 0x4B088B6024268A80 = .ok (.pairSar ⟨4, .s 11, 3, false⟩ ⟨.fmax, ⟨9, .imm (-11), 2, false⟩⟩) := rfl
theorem test_decode_pairImin : decodeWord 0x4C088C800E268880 = .ok (.pairImin ⟨4, .s 12, 4, false⟩ ⟨.xor, ⟨9, .imm (-12), 2, false⟩⟩) := rfl
theorem test_decode_pairImax : decodeWord 0x4D088DA002268680 = .ok (.pairImax ⟨4, .s 13, 5, false⟩ ⟨.mov, ⟨9, .imm (-13), 2, false⟩⟩) := rfl
theorem test_decode_pairFadd : decodeWord 0x4E088ED004268480 = .ok (.pairFadd ⟨4, .s 14, 6, true⟩ ⟨.iadd, ⟨9, .imm (-14), 2, false⟩⟩) := rfl
theorem test_decode_pairFsub : decodeWord 0x4F088FF006268280 = .ok (.pairFsub ⟨4, .s 15, 7, true⟩ ⟨.isub, ⟨9, .imm (-15), 2, false⟩⟩) := rfl
theorem test_decode_pairFmul : decodeWord 0x5008901008268080 = .ok (.pairFmul ⟨4, .s 16, 0, true⟩ ⟨.imul, ⟨9, .imm (-16), 2, false⟩⟩) := rfl
theorem test_decode_pairFmin : decodeWord 0x510891200A242280 = .ok (.pairFmin ⟨4, .s 17, 1, false⟩ ⟨.and, ⟨9, .v 17, 2, false⟩⟩) := rfl
theorem test_decode_pairFmax : decodeWord 0x520892400C242480 = .ok (.pairFmax ⟨4, .s 18, 2, false⟩ ⟨.or, ⟨9, .v 18, 2, false⟩⟩) := rfl
/-- R404, R207: an all-zero word; a reserved opcode; a bit set in an unused field; cause 0x01 comes first. -/
theorem test_refuse_zero : decodeWord 0 = .error .cause01 := rfl
theorem test_refuse_reserved : decodeWord 0x3800000000000000 = .error .cause01 := rfl
theorem test_refuse_unused : decodeWord 0x0040000000000001 = .error .cause02 := rfl
theorem test_refuse_both : decodeWord 0x0100114703FF0900 = .error .cause01 := rfl
/-- R193: slot bits 4:0 must be 0. -/
theorem test_refuse_slot : decodeWord 0x4209510020241401 = .error .cause02 := rfl

/-! ### Chapter 13: engines, parcels, matrix words -/

/-- R323: 32 bytes from 0x10100 to offset 64 of the core's own slice, with the barrier at offset 0. -/
def tCopy : State := regs [(.s 1, 0), (.s 4, 0x10100), (.s 6, 64), (.s 3, 32)]
theorem test_cpy : ((after (.cpy (fw ⟨0, 0⟩ (.s 1) (.s 4) (.s 3))) tCopy).threads.map fun t => (t.2.cmd, t.2.bar)) =
    [(.copy (.mem 0x10100) (.scr 0 64) 32, some 0)] := by decide
/-- R310: a length of 0 is out of its limits; its offset in the block is named. -/
theorem test_cpy_trap : (trapOf (.cpy (fw ⟨0, 0⟩ (.s 1) (.s 4) (.s 3))) (armed (tGroup.writeRegs [(.s 4, 0x10100)]))).map Prod.fst = some 0x31 := by decide
/-- R172: at the schedule's end D is all ones. -/
theorem test_stage : sOf (.stage (fw () (.s 3))) (regs []) 3 = 0xFFFFFFFF := by decide
/-- R137: a handle of no live slot. -/
theorem test_pfree : trapOf (.pfree (fw () (.v 0) (.s 4))) (armed (tGroup.writeRegs [(.s 4, 9)])) = some (0x42, 0, 9) := by decide
theorem test_pstat : trapOf (.pstat (fw () (.s 6) (.s 4))) (armed (tGroup.writeRegs [(.s 4, 9)])) = some (0x42, 0, 9) := by decide
/-- R312: a tile that is not allotted to the team raises cause 0x31. -/
theorem test_mzero_trap : (trapOf (.mzero ⟨p0, 0, 2, .v 0, .v 0, ()⟩) (tState tGroup { tCtx with handler := 0x20000 }
    { tLaunch with r := { loadRecord with tiles := 1 } })).map Prod.fst = some 0x31 := by decide
theorem test_mzero : ((after (.mzero ⟨p0, 0, 2, .v 0, .v 0, ()⟩) (tState tGroup { tCtx with tiles := [(2, { elems := [(0, 1)] })] })).ctx? 0 0).map Ctx.tiles =
    some [] := by decide
theorem test_mrd : (lateOf (.mrd ⟨p0, 0, 2, .v 8, .imm 1, ()⟩) (tState tGroup { tCtx with tiles := [(2, { elems := [(67, 5)] })] })).find?
    (fun w => w.1 == .v 9 1) = some (.v 9 1, 5) := by decide
theorem test_mma : ((after (.mma ⟨p0, 0, 2, .v 0, .v 16, ⟨0, 0, 0, false⟩⟩) (regs [])).unitOf 0 0).queue.map MatOp.cycles = [8] := by decide +kernel
/-- R96: the products 2^24, 1, 1 and −2^24 of one chunk sum exactly to 2. -/
theorem test_mma_sum : rne32 (.sum false [.num false 1 24, .num false 1 0, .num false 1 0, .num true 1 24]) = 0x40000000 := by
  decide +kernel

/-! ### Events -/

/-- R119: a pending write reaches memory, lowest byte first. -/
theorem test_storePerformed : Memory.read (after (.storePerformedAtHome 0) { tState with stores := [{ group := 0, lanes := 1, addr := 0x10100, data := [4, 3] }] }).mem 0x10101 = 3 := by decide
/-- R409, R75: cause 0x71 once %run has come to %tcmp. -/
theorem test_runTimer : trapOf (.runTimer 0) (armed { tGroup with tcmp := 5, run := 9 }) = some (0x71, 0, 9) := by decide
theorem test_runTimer_early : exec (.runTimer 0) (armed { tGroup with tcmp := 5, run := 4 }) = .next (armed { tGroup with tcmp := 5, run := 4 }) := rfl
/-- R199: a result lands in its register. -/
theorem test_land : ((grp (after (.longLatencyResultLand 0 0 0) (tState { tGroup with
    splits := [{ st := .run, mask := allLanes, pend := [{ id := 0, writes := [(.s 7, 9)], flags := {}, fto := false, left := 0, waits := [] }] }] }))).readS 7) = 9 := by decide
/-- R143: 25 MHz a step. -/
theorem test_fll : ((after (.fllStep 3) { State.reset with islands := [(3, { target := 900 })] }).island 3).mhz = 875 := by decide
theorem test_melt : (after (.meltUpdate 0xC000) State.reset).refreeze = true ∧ (after (.meltUpdate 0xBFFF) State.reset).refreeze = false := by decide
theorem test_gate : (after .thermalGateBegin State.reset).gate = true := by decide
theorem test_gate_end : exec .thermalGateEnd State.reset = .next State.reset := rfl
/-- R144: refilled by RSUST up to CAP, less the cycle's charges. -/
theorem test_islandCycle :
    ((after (.islandCoreCycle 0 false) { State.reset with islands := [(0, { ctl := 0x0000640064000012, a := 10, charges := 3 })] }).island 0).a = 97 := by
  decide +kernel
/-- R352: DEVID and a mailbox of reset; R349: a written device number. -/
theorem test_deviceReset : (after (.deviceReset ⟨true, true, false⟩ 7) State.reset).regs.devid = 0x5E1F0000 := by rfl
theorem test_ftlimit : (after (.ftlimitWrite 2000) State.reset).regs.ftlimit = 2000 := by decide
/-- R399: the record stands in the handler scratchpad and the handler group starts at HANDLER with every lane. -/
theorem test_trapDelivery :
    let t : TrapRec := { cause := 0x90, lane := 0, pc := 0x10008, tmask := allLanes, aux := 5, msg := 0, group := 0, split := 0 }
    let h : Group := { launch := 0, team := 0, gid := 0, core := 0, slot := handlerSlot, handler := true, splits := [{}] }
    let s := after (.trapDelivery 0 0) { tState tGroup { tCtx with handler := 0x20000, trapq := [t] } with
      groups := [(0, tGroup), (gkey 0 0 0 handlerSlot, h)], cores := [(0, { cyc := 20 })] }
    ((s.ctx? 0 0).map fun c => (c.hWord 0 4, c.hWord 8 8, c.hWord 24 8)) = some (0x90, 0x10008, 5)
      ∧ ((s.group? (gkey 0 0 0 handlerSlot)).map fun g => ((g.split 0).pc, (g.split 0).mask)) = some (0x20000, 0xFFFFFFFF) := by decide +kernel
/-- R342: the host reads what memory holds. -/
theorem test_bar2 : (after (.hostBar2Access (.read 0x10100 2)) { State.reset with mem := [(0x10100, 5), (0x10101, 6)] }).hostRead = [5, 6] := by decide
/-- R103: an address that no part of the map holds. -/
theorem test_bar2_hole : exec (.hostBar2Access (.read 0 1)) { State.reset with regs := { apbase := 0xC0000000000 } } =
    .fault .noMemory := rfl

/-! ### One step -/

/-- A word placed by withFetchWord is the one that the next step runs: movi.n32 s20, 0x12345678. -/
theorem test_step_runs : (match step (State.reset.withFetchWord 64 0x8041141012345678) with
    | .next t => t.groups.map fun g => (g.2.readS 20, (g.2.split 0).pc)
    | _ => []) = [(0x12345678, 0x10008)] := by decide
theorem test_reset_canonical : State.reset.memoryCanonical := rfl

/-! ### Hypotheses that can be met

For every statement with hypotheses, a concrete state and operands that meet those of each clause. -/

def itOf (g : Group := tGroup) (c : Ctx := tCtx) (l : Launch := tLaunch) : Iss := ⟨0, 0, g, g, g.split 0, l, c⟩

def issuesB (g : Group) (l : Launch) : Bool :=
  g.launch == 0 && g.core == 0 && (g.split 0).live && (g.split 0).wait == .none && !g.gone && !l.stopped && (g.split 0).held == none && g.bad.isEmpty

theorem iss_of {g : Group} {c : Ctx} {l : Launch} (h : issuesB g l = true) : (tState g c l).iss = some (itOf g c l) := by
  simp only [issuesB, Bool.and_eq_true, beq_iff_eq, Bool.not_eq_true'] at h
  obtain ⟨⟨⟨⟨⟨⟨⟨h1, h2⟩, h3⟩, h4⟩, h5⟩, h6⟩, h7⟩, -⟩ := h
  simp [State.iss, Group.reads, h7, tState, State.group?, State.launch?, State.ctx?, Map.find?, h1, h2, h3, h4, h5, h6, itOf, ckey, State.reset]

def flowsB (it : Iss) (pc : Dword) : Bool :=
  let g := it.own.modSplit it.j fun sp => { sp with pc := pc }
  (it.own.splits.all fun sp => sp.wrong == none)
  && (!g.standsAtJoin it.j && (List.range g.splits.length).all fun i => !g.atJoin i)

theorem flows_of {it : Iss} {pc : Dword} (h : flowsB it pc = true) : it.flows pc := by
  simp only [flowsB, Bool.and_eq_true, Bool.not_eq_true', List.all_eq_true, List.mem_range, beq_iff_eq] at h
  obtain ⟨hw, h⟩ := h
  refine ⟨h.1, fun i => ⟨?_, ?_⟩⟩
  rotate_left
  · by_cases hi : i < it.own.splits.length
    · simpa [Group.split, List.getD_eq_getElem?_getD, List.getElem?_eq_getElem hi] using hw _ (List.getElem_mem hi)
    · simp [Group.split, List.getD_eq_getElem?_getD, List.getElem?_eq_none (Nat.le_of_not_lt hi)]
  by_cases hi : i < ((it.own.modSplit it.j fun sp => { sp with pc := pc }).splits.length)
  · exact h.2 i hi
  · have : ((it.own.modSplit it.j fun sp => { sp with pc := pc }).split i).live = false := by
      rw [Bool.eq_false_iff]; exact fun hv => hi (Group.live_lt hv)
    simp [Group.atJoin, Group.standsAtJoin, this]

theorem readsBad_of {g : Group} {c : Ctx} {l : Launch} (i : Instr) (h : issuesB g l = true) : (itOf g c l).readsBad i = false := by
  simp only [issuesB, Bool.and_eq_true] at h
  simp [Iss.readsBad, itOf, h.2]

/-- A word issues and its path goes on at the next word, in a state of one group. -/
theorem issues (i : Instr) (g : Group := tGroup) (c : Ctx := tCtx) (l : Launch := tLaunch)
    (h : (issuesB g l && !Instr.groupBad i g && flowsB (itOf g c l) ((g.split 0).pc + 8)) = true) :
    Issues i (tState g c l) (itOf g c l) := by
  simp only [Bool.and_eq_true, Bool.not_eq_true'] at h
  exact ⟨⟨iss_of h.1.1, h.1.2, readsBad_of i h.1.1⟩, flows_of h.2⟩

/-- The same on the way to another address. -/
theorem issuesTo (i : Instr) (pc : Dword) (g : Group := tGroup) (c : Ctx := tCtx) (l : Launch := tLaunch)
    (h : (issuesB g l && !Instr.groupBad i g && flowsB (itOf g c l) pc) = true) :
    IssuesTo i (tState g c l) (itOf g c l) pc := by
  simp only [Bool.and_eq_true, Bool.not_eq_true'] at h
  exact ⟨⟨iss_of h.1.1, h.1.2, readsBad_of i h.1.1⟩, flows_of h.2⟩

theorem issued (i : Instr) (g : Group := tGroup) (c : Ctx := tCtx) (l : Launch := tLaunch)
    (h : (issuesB g l && !Instr.groupBad i g) = true) : Issued i (tState g c l) (itOf g c l) := by
  simp only [Bool.and_eq_true, Bool.not_eq_true'] at h
  exact ⟨iss_of h.1, h.2, readsBad_of i h.1⟩

/-- Words of one state. -/
theorem issuesAll {l : List Instr} (h : (issuesB tGroup tLaunch && flowsB itOf 0x10008 && l.all fun i => !Instr.groupBad i tGroup) = true) :
    ∀ i ∈ l, Issues i tState itOf := by
  simp only [Bool.and_eq_true, List.all_eq_true, Bool.not_eq_true'] at h
  exact fun i hi => ⟨⟨iss_of h.1.1, h.2 i hi, readsBad_of i h.1.1⟩, flows_of h.1.2⟩

/-- A group with registers set, and its state and issue. -/
def gr (ws : List (RegId × Word)) : Group := tGroup.writeRegs ws

def vvv (ty : Ty := .i32) : FWord XArith := fw (ar ty) (.v 3) (.v 1) (.v 2)

theorem test_hyps_IntegerArithmeticWords : ∀ i ∈ [Instr.iadd vvv, .isub vvv, .imul vvv, .imulh vvv, .imin vvv,
    .imax vvv, .iabs vvv, .imad vvv],
    Issues i tState itOf := issuesAll (by rfl)

theorem test_hyps_BitWords : ∀ i ∈ [Instr.and vvv, .or vvv, .xor vvv, .andn vvv, .shl vvv, .shr vvv, .sar vvv,
    .rot vvv, .popc vvv, .clz vvv, .brev vvv, .bfe vvv, .bfi vvv, .lea vvv],
    Issues i tState itOf := issuesAll (by rfl)

theorem test_hyps_MoveWords : ∀ i ∈ [Instr.mov vvv, .sel vvv],
    Issues i tState itOf := issuesAll (by rfl)

theorem test_hyps_CompareWords : ∀ i ∈ [Instr.icmp vvv, .fcmp (vvv .f32)],
    Issues i tState itOf := issuesAll (by rfl)

theorem test_hyps_FloatWords : ∀ i ∈ [Instr.fadd (vvv .f32), .fsub (vvv .f32), .fmul (vvv .f32), .fmin (vvv .f32),
    .fmax (vvv .f32), .frnd (vvv .f32), .fclass (vvv .f32), .ffma (vvv .f32), .fdot2 (vvv .f16x2)],
    Issues i tState itOf := issuesAll (by rfl)

theorem test_hyps_LongLatencyArithmetic : ∀ i ∈ [Instr.idiv vvv, .frcp (vvv .f32), .frsq (vvv .f32),
    .fsqrt (vvv .f32), .fexp2 (vvv .f32), .flog2 (vvv .f32), .fsin (vvv .f32), .fcos (vvv .f32), .fdiv (vvv .f32)],
    Issues i tState itOf := issuesAll (by rfl)

theorem test_hyps_ConversionWords : ∀ i ∈ [Instr.cvt (fw ⟨.i32, .rne, false, false, .f32, 0⟩ (.v 3) (.v 1)),
    .pack (vvv .f16x2), .unpack (vvv .f16x2), .cvtq (vvv .f32), .cvtqd (vvv .f32)],
    Issues i tState itOf := issuesAll (by rfl)

theorem test_hyps_LaneWords : ∀ i ∈ [Instr.shfl vvv, .shflx vvv, .matchl vvv, .scanl vvv],
    Issues i tState itOf := issuesAll (by rfl)

theorem test_hyps_WholeSplitWords : ∀ i ∈ [Instr.bcst vvv, .firstl vvv, .redl vvv, .vote vvv, .mtos vvv, .stom vvv],
    Issues i tState itOf := issuesAll (by rfl)

def isv : IWord XImm := iw ⟨.i32, false, false⟩ (.v 4) 9
theorem test_hyps_ImmediateWords : ∀ i ∈ [Instr.movi isv, .addi isv, .muli isv, .andi isv, .ori isv, .xori isv,
    .cmpi (iw (.i32, 2) (.s 4) 1), .movhi (iw .n64 (.s 4) 1), .ldc (iw (.i32, 1) (.v 4) 1)],
    Issues i tState itOf := issuesAll (by rfl)

def pa4 : PArgs := ⟨4, .v 1, 0, false⟩
def ps9 : PSlot := ⟨.iadd, ⟨9, .v 2, 0, false⟩⟩
theorem test_hyps_PairWords : ∀ i ∈ [Instr.pairNop ⟨0, .v 0, 0, false⟩ ps9, .pairMov pa4 ps9, .pairIadd pa4 ps9,
    .pairIsub pa4 ps9,
    .pairImul pa4 ps9, .pairAnd pa4 ps9, .pairOr pa4 ps9, .pairXor pa4 ps9, .pairAndn pa4 ps9, .pairShl pa4 ps9, .pairShr pa4 ps9,
    .pairSar pa4 ps9, .pairImin pa4 ps9, .pairImax pa4 ps9, .pairFadd pa4 ps9, .pairFsub pa4 ps9, .pairFmul pa4 ps9,
    .pairFmin pa4 ps9, .pairFmax pa4 ps9], Issues i tState itOf := issuesAll (by rfl)

theorem test_hyps_ExecutionMask : itOf.sp.once = none ∧ bits 0x0084003000404000 63 62 = 0 ∧ bits 0x0084003000404000 53 51 = 0
    ∧ bit 0x0084003000404000 50 = true
    ∧ ∃ i, buildWord 0x0084003000404000 = some i ∧ i.bad.one = false := ⟨rfl, rfl, rfl, rfl, _, rfl, rfl⟩

/-! Control flow and traps -/

theorem test_hyps_BranchWords : IssuesTo (.bra .always 2) tState itOf 0x10018 ∧ IssuesTo (.bra (.mask true 1) 2) tState itOf 0x10008
    ∧ IssuesTo (.call .always 60 2) tState itOf 0x10018
    ∧ (IssuesTo (.ret .always 10) (regs [(.s 10, 0xFFFFFFFF), (.s 11, 0x01FFFFFF)]) (itOf (gr [(.s 10, 0xFFFFFFFF), (.s 11, 0x01FFFFFF)])) 0x1FFFFFFFFFFFFF8
      ∧ IssuesTo (.jmps .always 10) (regs [(.s 10, 0xFFFFFFFF), (.s 11, 0x01FFFFFF)]) (itOf (gr [(.s 10, 0xFFFFFFFF), (.s 11, 0x01FFFFFF)])) 0x1FFFFFFFFFFFFF8
      ∧ ((gr [(.s 10, 0xFFFFFFFF), (.s 11, 0x01FFFFFF)]).readS64 10).toNat < 2 ^ 57)
    ∧ (Issued (.ret .always 10) (regs [(.s 11, 0x02000000)]) (itOf (gr [(.s 11, 0x02000000)]))
      ∧ Issued (.jmps .always 10) (regs [(.s 11, 0x02000000)]) (itOf (gr [(.s 11, 0x02000000)]))
      ∧ 2 ^ 57 ≤ ((gr [(.s 11, 0x02000000)]).readS64 10).toNat)
    ∧ IssuesTo (.loop 5 (-1)) (regs [(.s 5, 2)]) (itOf (gr [(.s 5, 2)])) 0x10000
    ∧ IssuesTo (.loop 5 (-1)) (regs [(.s 5, 1)]) (itOf (gr [(.s 5, 1)])) 0x10008 := by
  refine ⟨issuesTo _ _ _ _ _ (by rfl), issuesTo _ _ _ _ _ (by rfl), issuesTo _ _ _ _ _ (by rfl),
    ⟨issuesTo _ _ _ _ _ (by rfl), issuesTo _ _ _ _ _ (by rfl), by decide⟩, ⟨issued _ _ _ _ (by rfl), issued _ _ _ _ (by rfl), by decide⟩,
    issuesTo _ _ _ _ _ (by rfl), issuesTo _ _ _ _ _ (by rfl)⟩

/-- Sixteen records on the serial stack of a split that is busy. -/
def gFull : Group :=
  let g := gr [(.m 1, 0xF)]
  { g.modSplit 0 (fun sp => { sp with children := 2 }) with
    stack := (List.range 16).map fun _ => { owner := 1, join := 0x20000, full := 1, queue := [] } }
theorem test_hyps_DivergenceWords :
    -- no lane for the else path; none for the first path; both, with a full stack; both
    (Issues (.split true 1 3 5) (regs [(.m 1, 0xFFFFFFFF)]) (itOf (gr [(.m 1, 0xFFFFFFFF)])))
    ∧ (IssuesTo (.split true 1 3 5) tState itOf (itOf.target 3) ∧ itOf.sp.mask &&& itOf.g.readM itOf.sp 1 = 0)
    ∧ (Issued (.split true 1 3 5) (tState gFull) (itOf gFull) ∧ gFull.busy 0 = true ∧ gFull.stack.length = 16
      ∧ (itOf gFull).sp.mask &&& gFull.readM (itOf gFull).sp 1 ≠ 0)
    ∧ (Issued (.split true 1 3 5) (regs [(.m 1, 0xF)]) (itOf (gr [(.m 1, 0xF)])) ∧ (gr [(.m 1, 0xF)]).busy 0 = false
      ∧ tGroup.freeEntry = some 1 ∧ (tGroup.split 0).inUse = true)
    -- JTAB past its table; inside it
    ∧ (Issued (.jtab 3 4 1) (regs [(.v 3 6, 4)]) (itOf (gr [(.v 3 6, 4)]))
      ∧ (lanesOf (itOf (gr [(.v 3 6, 4)])).sp.mask).find? (fun l => decide (4 ≤ ((gr [(.v 3 6, 4)]).readV 3 l).toNat)) = some 6)
    ∧ (Issued (.jtab 3 1 4) tState itOf ∧ (∀ l ∈ lanesOf itOf.sp.mask, (itOf.g.readV 3 l).toNat < 1) ∧ itOf.sp.mask ≠ 0
      ∧ (∀ n ≤ 1, ∃ y, (tState.issued itOf (.jtab 3 1 4)).fetchBytes itOf.l ((itOf.target 4).toNat + 4 * n) 4 = .word y)
      ∧ tGroup.busy 0 = false) := by
  refine ⟨issues _ _ _ _ (by rfl), ⟨issuesTo _ _ _ _ _ (by rfl), by decide⟩, ⟨issued _ _ _ _ (by rfl), by decide, by decide, by decide⟩,
    ⟨issued _ _ _ _ (by rfl), by decide, by decide, by decide⟩, ⟨issued _ _ _ _ (by rfl), by decide⟩,
    issued _ _ _ _ (by rfl), by decide, by decide, fun n hn => ?_, by decide⟩
  obtain rfl | rfl : n = 0 ∨ n = 1 := by omega
  · exact ⟨0, by decide⟩
  · exact ⟨0, by decide⟩

/-- A division in two and a serial one; a child whose parent runs, and one whose parent waits at its join. -/
def gDiv : Group := tGroup.divide 0 0x20000 0xF [(0x10100, 0xF0)] false []
def gSer : Group := tGroup.divide 0 0x20000 0xF [(0x10100, 0xF0)] true []
theorem test_hyps_DivergenceWords_complete :
    0 < tGroup.splits.length ∧ (tGroup.split 0).inUse = true ∧ tGroup.freeEntry = some 1
    ∧ (let g1 := gDiv.modSplit 0 fun sp => { sp with pc := 0x20000 }
       g1.atJoin 0 = true ∧ ∀ x ∈ List.range g1.splits.length, x ≠ 0 → g1.atJoin x = false)
    ∧ (gSer.topRec 0).map (·.queue) = some [(0x10100, 0xF0)] ∧ ((gSer.complete 0).topRec 0).map (·.queue) = some []
    ∧ (gDiv.topRec 0 = none ∧ (gDiv.split 0).join ≠ 0 ∧ (gDiv.split 0).paths = [] ∧ gDiv.hasChild 0 = true)
    ∧ ((gDiv.complete 1).topRec 0 = none ∧ ((gDiv.complete 1).split 0).join ≠ 0 ∧ ((gDiv.complete 1).split 0).paths = [] ∧ (gDiv.complete 1).hasChild 0 = false)
    ∧ (gDiv.topRec 1 = none ∧ (gDiv.split 1).join = 0 ∧ (gDiv.split 1).parent = some 0 ∧ (gDiv.split 0).st ≠ .joinWait)
    ∧ (let g := gDiv.complete 0
       g.topRec 1 = none ∧ (g.split 1).join = 0 ∧ (g.split 1).parent = some 0 ∧ (g.split 0).paths = [] ∧ (g.split 0).st = .joinWait
        ∧ ∀ x ∈ List.range g.splits.length, x ≠ 1 → (g.split x).inUse = true → (g.split x).parent ≠ some 0)
    ∧ (tGroup.topRec 0 = none ∧ (tGroup.split 0).join = 0 ∧ (tGroup.split 0).parent = none)
    ∧ (let g := tGroup.modSplit 0 fun sp => { sp with wrong := some 3 }; (tState g).group? 0 = some g ∧ (g.split 0).wrong = some 3) := by
  decide
def noLanes {χ : Type} (x : χ) (a : Src := .v 0) (b : Src := .v 0) (d : Dst := .v 0) : FWord χ := ⟨⟨1, false⟩, 0, d, a, b, x⟩
theorem test_hyps_ExitAndTrapWords :
    (Issues (.exit (.mask true 1)) tState itOf ∧ Issues (.trap (.mask true 1) 5) tState itOf ∧ itOf.holds (.mask true 1) = false)
    ∧ (Issued (.exit .always) tState itOf ∧ Issued (.trap .always 5) tState itOf ∧ itOf.holds .always = true)
    ∧ (Issues (.bkpt (noLanes 5)) tState itOf ∧ itOf.exec (noLanes 5).p = 0)
    ∧ (Issued (.bkpt (fw 5 (.v 0))) tState itOf ∧ itOf.exec p0 ≠ 0)
    ∧ (Issues (.assertw (fw () (.v 0) (.s 4) (.s 2))) (regs [(.s 4, 1)]) (itOf (gr [(.s 4, 1)]))
      ∧ (lanesOf ((itOf (gr [(.s 4, 1)])).exec p0)).find? (fun l => src32 (regs [(.s 4, 1)]) (itOf (gr [(.s 4, 1)])) (.s 4) l == 0) = none)
    ∧ (Issued (.assertw (fw () (.v 0) (.s 4) (.s 2))) tState itOf
      ∧ (lanesOf (itOf.exec p0)).find? (fun l => src32 tState itOf (.s 4) l == 0) = some 0) := by
  refine ⟨⟨issues _ _ _ _ (by rfl), issues _ _ _ _ (by rfl), by decide⟩, ⟨issued _ _ _ _ (by rfl), issued _ _ _ _ (by rfl), by decide⟩,
    ⟨issues _ _ _ _ (by rfl), by decide⟩, ⟨issued _ _ _ _ (by rfl), by decide⟩, ⟨issues _ _ _ _ (by rfl), by decide⟩, issued _ _ _ _ (by rfl), by decide⟩

/-- A trap of the same cycle that stands in a later slot of the queue. -/
theorem test_hyps_TrapIsTaken_order :
    let x : TrapRec := { cause := 0x90, lane := 0, pc := 0x10008, tmask := 1, aux := 0, msg := 0, group := 1, split := 0 }
    let c : Ctx := { tCtx with handler := 0x20000, trapq := [x] }
    c.trapq = x :: [] ∧ x.cyc = ((tState tGroup c).coreOf 0).cyc ∧ ({ x with group := 0 } : TrapRec).place < x.place := by decide
theorem test_hyps_TrapIsTaken : armed.group? 0 = some tGroup ∧ armed.ctx? 0 0 = some { tCtx with handler := 0x20000 }
    ∧ 0 < tGroup.splits.length ∧ tGroup.handler = false ∧ tState.ctx? 0 0 = some tCtx ∧ tCtx.handler = 0
    ∧ tCtx.res ≠ .saved := by
  and_intros <;> decide

/-- A trap of the group in slot 0, delivered to the handler group h, which issues. -/
def tTrap : TrapRec := { cause := 0x90, lane := 0, pc := 0x10008, tmask := allLanes, aux := 5, msg := 0, group := 0, split := 0 }
def hGroup : Group := { tGroup with slot := handlerSlot, handler := true }
def tTrapped : Group := tGroup.modSplit 0 fun sp => { sp with wait := .trapped }
def hState : State :=
  { tState with groups := [(0, tTrapped), (gkey 0 0 0 handlerSlot, hGroup)],
                ctxs := [(0, { tCtx with handler := 0x20000, serving := some tTrap })], cur := gkey 0 0 0 handlerSlot }
def hIt : Iss := ⟨gkey 0 0 0 handlerSlot, 0, hGroup, hGroup, hGroup.split 0, tLaunch, { tCtx with handler := 0x20000, serving := some tTrap }⟩
theorem hIssues {i : Instr} (h : (!Instr.groupBad i hGroup && flowsB hIt 0x10008) = true) : Issues i hState hIt := by
  simp only [Bool.and_eq_true, Bool.not_eq_true'] at h
  exact ⟨⟨by decide, h.1, rfl⟩, flows_of h.2⟩

theorem test_hyps_TrapDeliveryWritesTheRecord : ∀ x ∈ [(0x20000 : Dword), 1],
    let h : Group := { hGroup with splits := [{}] }
    let c : Ctx := { tCtx with handler := x, trapq := [tTrap] }
    let s : State := { tState tGroup c with groups := [(0, tGroup), (gkey 0 0 0 handlerSlot, h)], cores := [(0, { cyc := 20 })] }
    h.exited = 0 ∧ (h.split 0).stall = 0 ∧ tTrap.cyc ≠ (s.coreOf 0).cyc ∧ s.atoms = [] ∧ tTrap.cause ≠ 0 ∧
    s.gate = false ∧ s.ctx? 0 0 = some c ∧ c.res = .active ∧ c.serving = none ∧ c.trapq = [tTrap]
      ∧ s.group? (gkey 0 0 0 handlerSlot) = some h ∧ h.used = []
      ∧ s.stores = [] := by
  intro x hx h c s
  simp only [List.mem_cons, List.not_mem_nil, or_false] at hx
  obtain rfl | rfl := hx <;> and_intros <;> decide

theorem test_hyps_TrapReturns : (Issued .rft tState itOf ∧ tGroup.handler = false)
    ∧ (Issued .rft hState hIt ∧ hGroup.handler = true ∧ hGroup.liveSplits.length = 1)
    ∧ (let g : Group := { hGroup with splits := [tGroup.split 0, tGroup.split 0] }
       Issued .rft (tState g) (itOf g) ∧ g.handler = true ∧ g.liveSplits.length ≠ 1)
    ∧ (hState.ctx? 0 0 = some hIt.c ∧ hIt.c.serving = some tTrap ∧ hState.group? tTrap.group = some tTrapped
      ∧ (tTrapped.split tTrap.split).wait = .trapped ∧ (tTrapped.split tTrap.split).live = true ∧ tTrapped.handler = false
      ∧ tTrapped.gone = false ∧ tTrapped.e = 0 ∧ tTrap.tmask &&& ~~~allLanes = 0
      ∧ ((Iss.mk 0 0 tTrapped tTrapped (tTrapped.split 0) tLaunch tCtx).flows 0x20000)) := by
  refine ⟨⟨issued _ _ _ _ (by rfl), rfl⟩, ⟨(hIssues (i := .rft) (by rfl)).1, rfl, by decide⟩, ⟨issued _ _ _ _ (by rfl), rfl, by decide⟩, by decide,
    by decide, by decide, by decide, by decide, by decide, by decide, by decide, by decide, flows_of (by decide)⟩

/-! System words -/

/-- A group of a field launch. -/
def fGroup : Group := { tGroup with e := 1, cellMask := allLanes }
theorem test_hyps_StepWords : Issued .step (tState fGroup) (itOf fGroup) ∧ Issues (.stepq (fw false (.s 3))) (tState fGroup) (itOf fGroup) :=
  ⟨issued _ _ _ _ (by rfl), issues _ _ _ _ (by rfl)⟩

theorem test_hyps_SpecialRegisterWords : Issues (.sread (fw 0x00 (.v 3))) tState itOf ∧ Issues (.sread (fw 0x30 (.s 4))) tState itOf
    ∧ Issues (.swrite (fw 0x33 (.v 0) (.s 2))) tState itOf ∧ Issues (.swrite (fw 0x40 (.v 0) (.s 2))) tState itOf
    ∧ Issues (.swrite (fw 0x41 (.v 0) (.s 2))) tState itOf ∧ itOf.exec p0 ≠ 0
    ∧ Issues (.swrite (noLanes 0x40 (.s 2))) tState itOf ∧ itOf.exec ⟨1, false⟩ = 0 := by
  refine ⟨issues _ _ _ _ (by rfl), issues _ _ _ _ (by rfl), issues _ _ _ _ (by rfl), issues _ _ _ _ (by rfl), issues _ _ _ _ (by rfl), by decide,
    issues _ _ _ _ (by rfl), by decide⟩

theorem test_hyps_TrappedRegisterWords :
    (Issued (.xread (fw (RReg.s 3) (.s 1))) tState itOf ∧ Issued (.xwrite (fw (RReg.s 3) (.v 0) (.s 1))) tState itOf ∧ tGroup.handler = false)
    ∧ Issues (.xread (fw (RReg.s 3) (.s 1))) hState hIt ∧ Issues (.xwrite (fw (RReg.s 3) (.v 0) (.s 1))) hState hIt
    ∧ hGroup.handler = true ∧ hIt.c.serving = some tTrap ∧ tTrap.group ≠ hIt.key ∧ hState.group? tTrap.group = some tTrapped
    ∧ hIt.exec p0 ≠ 0 := by
  refine ⟨⟨issued _ _ _ _ (by rfl), issued _ _ _ _ (by rfl), rfl⟩, hIssues (by rfl), hIssues (by rfl), rfl, rfl, by decide, by decide, by decide⟩

theorem test_hyps_LeaseWords : Issues (.sprint (fw true (.s 3) (.s 1) (.s 4))) tState itOf ∧ itOf.exec p0 ≠ 0
    ∧ Issues (.sprint (noLanes true (.s 1) (.s 4) (.s 3))) tState itOf ∧ itOf.exec ⟨1, false⟩ = 0
    ∧ Issues (.sprel (fw () (.s 3))) tState itOf := by
  refine ⟨issues _ _ _ _ (by rfl), by decide, issues _ _ _ _ (by rfl), by decide, issues _ _ _ _ (by rfl)⟩

theorem test_hyps_QuietWords : Issues (.yieldw (fw 9 (.v 0))) tState itOf
    ∧ (Issues (.sigchk 0xFFFFFFFF) tState itOf ∧ itOf.sp.sig.toNat = 0xFFFFFFFF)
    ∧ (Issued (.sigchk 0) tState itOf ∧ itOf.sp.sig.toNat ≠ 0)
    ∧ Issues (.pref (fw (mx) (.v 0) (.s 2) (.imm 0))) tState itOf
    ∧ (Issues (.fence (noLanes (mx .n8 .ar))) tState itOf ∧ itOf.exec ⟨1, false⟩ = 0)
    ∧ (∀ o ∈ [Order.ar, .rel], Issues (.fence (fw (mx .n8 o) (.v 0))) tState itOf ∧ fenceMet tState 0 itOf.sp.mask o Obs.none = true)
    ∧ (let g : Group := { tGroup with seen := [(0, allLanes)] }
       let s : State := { tState g with stores := [{ id := 0, group := 0, lanes := allLanes, addr := 0x10100, data := [1] }] }
       let k : Obs := ⟨true, false, false, false, false, false, false⟩
       Issued (.fence (fw ⟨.n8, .rel, k, .normal⟩ (.v 0))) s (itOf g) ∧ (itOf g).exec p0 ≠ 0
        ∧ fenceMet s 0 (itOf g).sp.mask .rel k = false) := by
  refine ⟨issues _ _ _ _ (by rfl), ⟨issues _ _ _ _ (by rfl), by decide⟩, ⟨issued _ _ _ _ (by rfl), by decide⟩, issues _ _ _ _ (by rfl),
    ⟨issues _ _ _ _ (by rfl), by decide⟩, ?_, ⟨⟨by decide, rfl, rfl⟩, by decide, by decide⟩⟩
  simp only [List.mem_cons, List.not_mem_nil, or_false, forall_eq_or_imp, forall_eq]
  exact ⟨⟨issues _ _ _ _ (by rfl), by decide⟩, issues _ _ _ _ (by rfl), by decide⟩

def gRegion : Group :=
  { tGroup with region := some { id := 7, handler := 0x10018, mask := allLanes, bytes := [], writes := [], lines := [], held := [], due := none } }
def gTwo : Group := { tGroup with splits := [tGroup.split 0, tGroup.split 0] }
theorem test_hyps_ContainmentWords :
    (Issued (.contain 7 2) (tState gTwo) (itOf gTwo) ∧ Issued .uncontain (tState gTwo) (itOf gTwo) ∧ gTwo.liveSplits.length ≠ 1)
    ∧ (Issued (.contain 7 2) (tState gRegion) (itOf gRegion) ∧ Issued .uncontain (tState gRegion) (itOf gRegion)
      ∧ gRegion.liveSplits.length = 1 ∧ gRegion.stack = [] ∧ gRegion.region.isSome = true)
    ∧ (Issues (.contain 7 2) tState itOf ∧ Issued .uncontain tState itOf ∧ tGroup.liveSplits.length = 1 ∧ tGroup.stack = []
      ∧ tGroup.region = none) := by
  refine ⟨⟨issued _ _ _ _ (by rfl), issued _ _ _ _ (by rfl), by decide⟩, ⟨issued _ _ _ _ (by rfl), issued _ _ _ _ (by rfl), by decide, rfl, rfl⟩,
    issues _ _ _ _ (by rfl), issued _ _ _ _ (by rfl), by decide, rfl, rfl⟩

theorem test_hyps_DescriptorWords :
    (Issued (.tdset (fw () (.v 0) (.s 8) (.imm 3))) (regs [(.s 8, 0x800)]) (itOf (gr [(.s 8, 0x800)]))
      ∧ ((gr [(.s 8, 0x800)]).tdRegs 8).getLsbD 11 = true)
    ∧ (Issued (.tdset (fw () (.v 0) (.s 8) (.s 2))) (regs [(.s 2, 256)]) (itOf (gr [(.s 2, 256)]))
      ∧ Issued (.tdget (fw () (.s 8) (.v 0) (.s 2))) (regs [(.s 2, 256)]) (itOf (gr [(.s 2, 256)]))
      ∧ ((gr [(.s 2, 256)]).tdRegs 8).getLsbD 11 = false ∧ 255 < (itOf (gr [(.s 2, 256)])).scalar (.s 2))
    ∧ (Issues (.tdset (fw () (.v 0) (.s 8) (.s 2))) (regs [(.s 2, 255)]) (itOf (gr [(.s 2, 255)]))
      ∧ Issues (.tdget (fw () (.s 8) (.v 0) (.s 2))) (regs [(.s 2, 255)]) (itOf (gr [(.s 2, 255)]))
      ∧ (itOf (gr [(.s 2, 255)])).scalar (.s 2) ≤ 255 ∧ (itOf (gr [(.s 2, 255)])).exec p0 ≠ 0) := by
  refine ⟨⟨issued _ _ _ _ (by rfl), by decide⟩, ⟨issued _ _ _ _ (by rfl), issued _ _ _ _ (by rfl), by decide, by decide⟩,
    issues _ _ _ _ (by rfl), issues _ _ _ _ (by rfl), by decide, by decide⟩

/-! Memory words -/

/-- A scalar load or store of 32 bits at the pair s2; the last word of the pinned page, 2^57, a page outside the pins, and
an address in the alias window of a descriptor that R70 refuses. -/
def wS : FWord XMem := fw (mx) (.s 5) (.s 2) (.imm 0)
def gAt (lo hi : Word) : Group := gr [(.s 2, lo), (.s 3, hi)]
def cBad : Ctx := { tCtx with tds := [(0, 0x217)] }

/-- No lane of the word has a problem, and none meets a locked line, poison or a port that is waited for (R398, R420). -/
def clear (i : Instr) (write perLane : Bool) (g : Group) : Prop :=
  let s0 := (tState g).issued (itOf g) i
  let it0 := (itOf g).issued (tState g) i
  let accs := accesses (itOf g) ((itOf g).exec p0) perLane (gAddr (tState g) (itOf g) (.s 2) (.imm 0))
  let s1 := if write then s0 else s0.comeAfterAll 0 (accs.map fun a => (a.lanes, globalPlaces it0 a.addr 4))
  (∀ a ∈ accs, globalProb s0 it0 write true false a.addr 4 = none ∧ s1.lockedAcc it0 a.addr 4 = false
    ∧ s1.accPoison it0 a.addr 4 = none ∧ (∀ x ∈ touched it0 a.addr 4, portsOf s1 it0.l x.1 x.2 = []))
  ∧ aliasPoison s0 it0 4 accs = none

theorem test_hyps_GlobalLoads : (Issues (.ld wS) (tState (gAt 0x1FFFC 0)) (itOf (gAt 0x1FFFC 0)) ∧ clear (.ld wS) false false (gAt 0x1FFFC 0))
    ∧ (Issues (.ldu wS) (tState (gAt 0x1FFFC 0)) (itOf (gAt 0x1FFFC 0)) ∧ clear (.ldu wS) false false (gAt 0x1FFFC 0))
    ∧ (0x1FFFC < 2 ^ 56 ∧ tState.inRegion itOf.key = false ∧ tState.older = [] ∧ (∀ i < 4, itOf.l.pinned (0x1FFFC + i) = true)
      ∧ ∀ st ∈ tState.stores, st.group = itOf.key → False) := by
  refine ⟨⟨issues _ _ _ _ (by rfl), by unfold clear; decide⟩, ⟨issues _ _ _ _ (by rfl), by unfold clear; decide⟩, by decide, by decide,
    rfl, by decide, ?_⟩
  intro st h; cases h

theorem test_hyps_GlobalStores : (Issues (.st wS) (tState (gAt 0x1FFFC 0)) (itOf (gAt 0x1FFFC 0)) ∧ clear (.st wS) true false (gAt 0x1FFFC 0)
      ∧ (tState (gAt 0x1FFFC 0)).inRegion 0 = false ∧ inAlias 0x1FFFC = false)
    ∧ (Issues (.stu wS) (tState (gAt 0x1FFFC 0)) (itOf (gAt 0x1FFFC 0)) ∧ clear (.stu wS) true false (gAt 0x1FFFC 0)) := by
  refine ⟨⟨issues _ _ _ _ (by rfl), by unfold clear; decide, by decide, by decide⟩, issues _ _ _ _ (by rfl), by unfold clear; decide⟩

/-- Each word meets each of the three problems: cause 0x02, cause 0x31, a page outside the pins. -/
def probAt (i : Instr) (write : Bool) (g : Group) (c : Ctx) : List (Option Prob) :=
  (accesses (itOf g c) ((itOf g c).exec p0) false (gAddr (tState g c) (itOf g c) (.s 2) (.imm 0))).map fun a =>
    globalProb ((tState g c).issued (itOf g c) i) ((itOf g c).issued (tState g c) i) write true false a.addr 4
theorem test_hyps_MemoryWordsTrap :
    ∀ x ∈ [(Instr.ld wS, false), (.st wS, true), (.ldu wS, false), (.stu wS, true)],
      (Issued x.1 (tState (gAt 0 0x01000000) cBad) (itOf (gAt 0 0x01000000) cBad) ∧ probAt x.1 x.2 (gAt 0 0x01000000) cBad = [some .c02])
      ∧ (Issued x.1 (tState (gAt 0 0x02000000)) (itOf (gAt 0 0x02000000)) ∧ probAt x.1 x.2 (gAt 0 0x02000000) tCtx = [some .c31])
      ∧ (Issued x.1 (tState (gAt 0x1FFFD 0)) (itOf (gAt 0x1FFFD 0)) ∧ probAt x.1 x.2 (gAt 0x1FFFD 0) tCtx = [some .out]) := by
  simp only [List.mem_cons, List.not_mem_nil, or_false, forall_eq_or_imp, forall_eq]
  refine ⟨⟨⟨issued _ _ _ _ (by rfl), ?_⟩, ⟨issued _ _ _ _ (by rfl), ?_⟩, issued _ _ _ _ (by rfl), ?_⟩,
    ⟨⟨issued _ _ _ _ (by rfl), ?_⟩, ⟨issued _ _ _ _ (by rfl), ?_⟩, issued _ _ _ _ (by rfl), ?_⟩,
    ⟨⟨issued _ _ _ _ (by rfl), ?_⟩, ⟨issued _ _ _ _ (by rfl), ?_⟩, issued _ _ _ _ (by rfl), ?_⟩,
    ⟨issued _ _ _ _ (by rfl), ?_⟩, ⟨issued _ _ _ _ (by rfl), ?_⟩, issued _ _ _ _ (by rfl), ?_⟩ <;> decide

def wA : FWord XMem := fw (mx .w32 .strong) (.s 6) (.s 2) (.imm 0)
/-- The same of the atomics, which know no alias window: a place that is not aligned, a page outside the pins. -/
theorem test_hyps_MemoryWordsTrap_atomics : ∀ i ∈ [Instr.atom wA, .atomn wA, .atomu wA], ∀ x ∈ [((0x1FFFE : Word), Prob.c31), (0x20000, .out)],
    let it := itOf (gAt x.1 0)
    Issued i (tState (gAt x.1 0)) it ∧ ((accesses it (it.exec p0) false fun l => srcVal (tState (gAt x.1 0)) it .n64 (.s 2) l).map fun a =>
      globalProb ((tState (gAt x.1 0)).issued it i) (it.issued (tState (gAt x.1 0)) i) true false true a.addr 4) = [some x.2] := by
  simp only [List.mem_cons, List.not_mem_nil, or_false, forall_eq_or_imp, forall_eq]
  refine ⟨⟨⟨issued _ _ _ _ (by rfl), ?_⟩, issued _ _ _ _ (by rfl), ?_⟩, ⟨⟨issued _ _ _ _ (by rfl), ?_⟩, issued _ _ _ _ (by rfl), ?_⟩,
    ⟨issued _ _ _ _ (by rfl), ?_⟩, issued _ _ _ _ (by rfl), ?_⟩ <;> decide

/-- Private bytes in a page that the launch may read only, and in one outside the pins; poisoned private bytes. -/
def lWr (wr : Bool) (base : Dword := 0x10000) : Launch :=
  { tLaunch with r := { loadRecord with psize := 16, pbase := base.toNat }, pins := [⟨0x10000, 1, wr⟩] }
theorem test_hyps_MemoryWordsTrap_private :
    (let it := itOf tGroup tCtx (lWr true 0x20000)
     Issued (.ldl wS) (tState tGroup tCtx (lWr true 0x20000)) it ∧ Issued (.stl wS) (tState tGroup tCtx (lWr true 0x20000)) it
      ∧ privBad it 4 [⟨0, allLanes, 0⟩] = none
      ∧ (privPages it false 4 [⟨0, allLanes, 0⟩]).map Prod.snd = [some .out] ∧ (privPages it true 4 [⟨0, allLanes, 0⟩]).map Prod.snd = [some .out])
    ∧ (let it := itOf tGroup tCtx (lWr false)
       Issued (.stl wS) (tState tGroup tCtx (lWr false)) it ∧ privBad it 4 [⟨0, allLanes, 0⟩] = none
        ∧ (privPages it true 4 [⟨0, allLanes, 0⟩]).map Prod.snd = [some .c31])
    ∧ (let g : Group := { tGroup with bad := [privBadKey 0 0] }; let it := itOf g tCtx (lWr true)
       Issued (.ldl wS) (tState g tCtx (lWr true)) it ∧ (∀ x ∈ privPages it false 4 [⟨0, allLanes, 0⟩], x.2 = none)
        ∧ [(⟨0, allLanes, 0⟩ : Acc)].find? (fun a => (privBadKeys a.lane a.addr 4).any g.bad.contains) = some ⟨0, allLanes, 0⟩)
    ∧ accesses (itOf tGroup tCtx (lWr true)) (itOf.exec p0) false (addr32 tState itOf (.s 2) (.imm 0)) = [⟨0, allLanes, 0⟩] := by
  refine ⟨⟨issued _ _ _ _ (by rfl), issued _ _ _ _ (by rfl), ?_⟩, ⟨issued _ _ _ _ (by rfl), ?_⟩, ⟨⟨rfl, rfl, by decide⟩, ?_⟩, ?_⟩ <;> decide

/-- Scratchpad atomics off their alignment; a run past s191, a bad descriptor, an index past its extent. -/
theorem test_hyps_MemoryWordsTrap_others :
    (Issued (.atoms wA) (tState (gr [(.s 2, 66)])) (itOf (gr [(.s 2, 66)])) ∧ Issued (.atomsn wA) (tState (gr [(.s 2, 66)])) (itOf (gr [(.s 2, 66)]))
      ∧ (accesses (itOf (gr [(.s 2, 66)])) (itOf.exec p0) false fun l => src32 (tState (gr [(.s 2, 66)])) (itOf (gr [(.s 2, 66)])) (.s 2) l)
          = [⟨0, allLanes, 66⟩])
    ∧ (let c : Ctx := { tCtx with tds := [(1, BitVec.ofNat 256 (0x808 * 2 ^ 204 + 128 + 13)), (2, 0x217), (3, BitVec.ofNat 256 (0x808 * 2 ^ 204 + 15 * 2 ^ 12 + 13))] }
       let w (a : Src) (n : Int) : FWord XMem := fw (mx) (.s 5) a (.imm n)
       Issued (.ldt (w (.s 191) 1)) (tState tGroup c) (itOf tGroup c) ∧ Issued (.stt (w (.s 191) 1)) (tState tGroup c) (itOf tGroup c)
        ∧ tensorRun (.s 191) (Desc.of (Map.get c.tds 0 1)).rank = true
        ∧ Issued (.ldt (w (.s 2) 2)) (tState tGroup c) (itOf tGroup c) ∧ Issued (.stt (w (.s 2) 2)) (tState tGroup c) (itOf tGroup c)
        ∧ tensorRun (.s 2) (Desc.of (Map.get c.tds 0 2)).rank = false ∧ (Desc.of (Map.get c.tds 0 2)).ok = false
        ∧ (let g := gr [(.s 2, 16)]; let d := Desc.of (Map.get c.tds 0 3)
           Issued (.ldt (w (.s 2) 3)) (tState g c) (itOf g c) ∧ Issued (.stt (w (.s 2) 3)) (tState g c) (itOf g c)
            ∧ tensorRun (.s 2) d.rank = false ∧ d.ok = true ∧ tensorWidth d .w32 = true
            ∧ tensorProb (tState g c) (itOf g c) false d [16] = some .c31 ∧ tensorProb (tState g c) (itOf g c) true d [16] = some .c31)) := by
  refine ⟨⟨issued _ _ _ _ (by rfl), issued _ _ _ _ (by rfl), by decide⟩, issued _ _ _ _ (by rfl), issued _ _ _ _ (by rfl), ?_,
    issued _ _ _ _ (by rfl), issued _ _ _ _ (by rfl), ?_, ?_, issued _ _ _ _ (by rfl), issued _ _ _ _ (by rfl), ?_⟩ <;> decide

/-- Poison under a load, and under a store through the alias window of a QX4 tensor at 0x10100. -/
def cAlias : Ctx := { tCtx with tds := [(0, BitVec.ofNat 256 (0x808 * 2 ^ 204 + 0x810 * 2 ^ 152 + 31 * 2 ^ 12 + 0x217))] }
theorem test_hyps_MemoryWordsTrap_poison :
    (∀ i ∈ [Instr.ld wS, .ldu wS],
      let s : State := { tState (gAt 0x10100 0) with bad := [0x808] }; let it := itOf (gAt 0x10100 0)
      let s1 := (s.issued it i).comeAfterAll 0 [(allLanes, globalPlaces (it.issued s i) 0x10100 4)]
      Issued i s it ∧ globalProb (s.issued it i) (it.issued s i) false true false 0x10100 4 = none ∧ s1.lockedAcc it 0x10100 4 = false
       ∧ (∀ x ∈ touched it 0x10100 4, portsOf s1 it.l x.1 x.2 = []) ∧ s1.accPoison (it.issued s i) 0x10100 4 = some 0x10100)
    ∧ ∀ i ∈ [Instr.st wS, .stu wS],
      let s : State := { tState (gAt 0 0x01000000) cAlias with bad := [0x808] }; let it := itOf (gAt 0 0x01000000) cAlias
      Issued i s it ∧ globalProb (s.issued it i) (it.issued s i) true true false (2 ^ 56) 4 = none
       ∧ (aliasPoison (s.issued it i) (it.issued s i) 4 [⟨0, allLanes, 2 ^ 56⟩]).isSome = true := by
  simp only [List.mem_cons, List.not_mem_nil, or_false, forall_eq_or_imp, forall_eq]
  refine ⟨⟨⟨⟨rfl, rfl, by decide⟩, ?_⟩, ⟨rfl, rfl, by decide⟩, ?_⟩, ⟨⟨rfl, rfl, by decide⟩, ?_⟩, ⟨rfl, rfl, by decide⟩, ?_⟩ <;> decide +kernel

/-- Scratchpad at the last place of the slice, an absent line, and a place past the slice; private bytes up to PSIZE. -/
def g32 (a : Word) : Group := gr [(.s 2, a)]
def cAbsent : Ctx := { tCtx with counts := [(4095, 1)] }
def lPriv : Launch := { tLaunch with r := { loadRecord with psize := 16, pbase := 0x10000 } }
theorem test_hyps_ScratchpadAndPrivateWords :
    (let s := tState (g32 0x7FFFC); let it := itOf (g32 0x7FFFC)
     Issues (.lds wS) s it ∧ Issues (.sts wS) s it ∧ s.atoms = [] ∧ accesses it (it.exec p0) false (addr32 s it (.s 2) (.imm 0)) = [⟨0, allLanes, 0x7FFFC⟩]
      ∧ scrAt s it 0x7FFFC 4 = some (.slice 0 0x7FFFC) ∧ absentLines s 0 4 (.slice 0 0x7FFFC) = [] ∧ scrBad s it 4 (.slice 0 0x7FFFC) = false)
    ∧ (let c : Ctx := { tCtx with bad := [0x3FFF] }; let s := tState (g32 0x7FFFC) c; let it := itOf (g32 0x7FFFC) c
       Issued (.lds wS) s it ∧ scrAt s it 0x7FFFC 4 = some (.slice 0 0x7FFFC) ∧ absentLines s 0 4 (.slice 0 0x7FFFC) = []
        ∧ scrBad s it 4 (.slice 0 0x7FFFC) = true)
    ∧ (let s := tState (g32 0x7FFFC) cAbsent; let it := itOf (g32 0x7FFFC) cAbsent
       Issued (.lds wS) s it ∧ Issued (.sts wS) s it ∧ scrAt s it 0x7FFFC 4 = some (.slice 0 0x7FFFC)
        ∧ absentLines s 0 4 (.slice 0 0x7FFFC) = [(0, 4095)])
    ∧ (let s := tState (g32 0x7FFFD); let it := itOf (g32 0x7FFFD)
       Issued (.lds wS) s it ∧ Issued (.sts wS) s it ∧ (scrAt s it 0x7FFFD 4).isNone = true)
    ∧ (let it := itOf (g32 12) tCtx lPriv
       Issues (.ldl wS) (tState (g32 12) tCtx lPriv) it ∧ Issues (.stl wS) (tState (g32 12) tCtx lPriv) it ∧ 12 + 4 ≤ it.l.r.psize
        ∧ (∀ write, ∀ x ∈ privPages it write 4 [⟨0, allLanes, 12⟩], x.2 = none) ∧ it.g.bad = [])
    ∧ (let it := itOf (g32 13) tCtx lPriv
       Issued (.ldl wS) (tState (g32 13) tCtx lPriv) it ∧ Issued (.stl wS) (tState (g32 13) tCtx lPriv) it ∧ it.l.r.psize < 13 + 4)
    ∧ tState.ctx? 0 0 = some tCtx ∧ tCtx.res ≠ .saved ∧ tState.older = [] := by
  refine ⟨⟨issues _ _ _ _ (by rfl), issues _ _ _ _ (by rfl), by decide, by decide, by decide, by decide, by decide⟩,
    ⟨issued _ _ _ _ (by rfl), by decide, by decide, by decide⟩,
    ⟨issued _ _ _ _ (by rfl), issued _ _ _ _ (by rfl), by decide, by decide⟩, ⟨issued _ _ _ _ (by rfl), issued _ _ _ _ (by rfl), by decide⟩,
    ⟨issues _ _ _ _ (by rfl), issues _ _ _ _ (by rfl), by decide, by decide, rfl⟩, ⟨issued _ _ _ _ (by rfl), issued _ _ _ _ (by rfl), by decide⟩, by decide, by decide, rfl⟩

/-- Tensors of 16 f32 elements and of one QX4 block, at 0x10100 with scales at 0x10200. -/
def td32 : BitVec 256 := BitVec.ofNat 256 (0x808 * 2 ^ 204 + 15 * 2 ^ 12 + 13)
def tdQx : BitVec 256 := BitVec.ofNat 256 (0x808 * 2 ^ 204 + 0x810 * 2 ^ 152 + 31 * 2 ^ 12 + 23)
def cTd : Ctx := { tCtx with tds := [(3, td32), (4, tdQx)] }
def wT (n : Int) : FWord XMem := fw (mx) (.s 5) (.s 2) (.imm n)
theorem test_hyps_TensorElementWords : ∀ x ∈ [(3, (15 : Word)), (4, 31)],
    let g := g32 x.2
    let s := tState g cTd
    let it := itOf g cTd
    let d := Desc.of (Map.get it.c.tds 0 (it.scalar (.imm x.1) % 256))
    let c := tensorCoords it (.s 2) d 0
    let s0 := s.issued it (.ldt (wT x.1))
    let it0 := it.issued s (.ldt (wT x.1))
    let s1 := s.issued it (.stt (wT x.1))
    let it1 := it.issued s (.stt (wT x.1))
    (Issues (.ldt (wT x.1)) s it ∧ Issues (.stt (wT x.1)) s it ∧ s.inRegion 0 = false)
    ∧ tensorRun (.s 2) d.rank = false ∧ d.ok = true ∧ tensorWidth d .w32 = true
    ∧ (accesses it (it.exec p0) false fun l => d.elemVa (tensorCoords it (.s 2) d l)) = [⟨0, allLanes, d.elemVa c⟩]
    ∧ tensorProb s0 it0 false d c = none ∧ tensorProb s1 it1 true d c = none
    ∧ elemLocked s0 d c = false
    ∧ (let t := s0.comeAfterAll 0 [(allLanes, elemPlaces it0 d c)]
       elemLocked t d c = false ∧ elemPoison t it0 d c = none ∧ elemPorts t it0 d [(⟨0, allLanes, d.elemVa c⟩, c)] = [])
    ∧ elemLocked s1 d c = false ∧ elemPoison s1 it1 d c = none ∧ elemPorts s1 it1 d [(⟨0, allLanes, d.elemVa c⟩, c)] = [] := by
  simp only [List.mem_cons, List.not_mem_nil, or_false, forall_eq_or_imp, forall_eq]
  refine ⟨⟨⟨issues _ _ _ _ (by rfl), issues _ _ _ _ (by rfl), ?_⟩, ?_⟩, ⟨issues _ _ _ _ (by rfl), issues _ _ _ _ (by rfl), ?_⟩, ?_⟩ <;>
    decide +kernel

/-- The same block with its code poisoned. -/
theorem test_hyps_TensorElementWords_poison : ∀ i ∈ [Instr.ldt (wT 4), .stt (wT 4)],
    let s : State := { tState (g32 31) cTd with bad := [0x808] }
    let it := itOf (g32 31) cTd
    let d := Desc.of tdQx
    let t := (s.issued it i).comeAfterAll 0 [(allLanes, elemPlaces (it.issued s i) d [31, 0, 0, 0])]
    Issued i s it ∧ d.isBlock = true ∧ tensorProb s it true d [31, 0, 0, 0] = none ∧ elemLocked s d [31, 0, 0, 0] = false ∧ tensorCoords it (.s 2) d 0 = [31, 0, 0, 0]
      ∧ (elemPoison (s.issued it i) (it.issued s i) d [31, 0, 0, 0]).isSome = true ∧ (elemPoison t (it.issued s i) d [31, 0, 0, 0]).isSome = true := by
  simp only [List.mem_cons, List.not_mem_nil, or_false, forall_eq_or_imp, forall_eq]
  refine ⟨⟨⟨rfl, rfl, by decide⟩, ?_⟩, ⟨rfl, rfl, by decide⟩, ?_⟩ <;> decide +kernel

theorem test_hyps_AtomicWords :
    (∀ i ∈ [Instr.atom wA, .atomn wA, .atomu wA],
      Issues i (tState (gAt 0x1FFFC 0)) (itOf (gAt 0x1FFFC 0)) ∧ (tState (gAt 0x1FFFC 0)).inRegion 0 = false
      ∧ (let s0 := (tState (gAt 0x1FFFC 0)).issued (itOf (gAt 0x1FFFC 0)) i
         let it0 := (itOf (gAt 0x1FFFC 0)).issued (tState (gAt 0x1FFFC 0)) i
         globalProb s0 it0 true false true 0x1FFFC 4 = none ∧ s0.lockedAcc it0 0x1FFFC 4 = false
         ∧ portsOf s0 it0.l 0x1FFFC 4 = []))
    ∧ (∀ i ∈ [Instr.atoms wA, .atomsn wA], Issues i (tState (g32 0x7FFFC)) (itOf (g32 0x7FFFC)) ∧ itOf.sp.pend = [])
    ∧ (let s := tState (g32 0x7FFFC); let it := itOf (g32 0x7FFFC)
       scrAt s it 0x7FFFC 4 = some (.slice 0 0x7FFFC) ∧ 0x7FFFC % 4 = 0 ∧ absentLines s 0 4 (.slice 0 0x7FFFC) = []
       ∧ inSlices it [(⟨0, allLanes, 0x7FFFC⟩, .slice 0 0x7FFFC)] ≠ [])
    ∧ (∀ i ∈ [Instr.atoms wA, .atomsn wA], Issued i (tState (g32 0x7FFFC) cAbsent) (itOf (g32 0x7FFFC) cAbsent))
    ∧ absentLines (tState (g32 0x7FFFC) cAbsent) 0 4 (.slice 0 0x7FFFC) ≠ []
    ∧ tState.lost (itOf.l.phys 0x1FFFC) = false ∧ tState.lost (itOf.l.phys 0x1FFFC + 4 - 1) = false := by
  simp only [List.mem_cons, List.not_mem_nil, or_false, forall_eq_or_imp, forall_eq]
  refine ⟨⟨⟨issues _ _ _ _ (by rfl), ?_⟩, ⟨issues _ _ _ _ (by rfl), ?_⟩, issues _ _ _ _ (by rfl), ?_⟩,
    ⟨⟨issues _ _ _ _ (by rfl), rfl⟩, issues _ _ _ _ (by rfl), rfl⟩, ?_, ⟨issued _ _ _ _ (by rfl), issued _ _ _ _ (by rfl)⟩, ?_⟩ <;> decide
/-- One atomic in memory, one in scratchpad, that a result of its group waits for; a word of the handler at its
scratchpad. -/
def wAh : FWord XMem := fw (mx .w32 .strong) (.s 6) (.s 2) (.imm 0)
def hAt (a : Word) : Group := hGroup.writeRegs [(.s 2, a)]
def hAtState (a : Word) : State :=
  { hState with groups := [(0, tTrapped), (gkey 0 0 0 handlerSlot, hAt a)] }
def hAtIt (a : Word) : Iss := { hIt with g := hAt a, own := hAt a, sp := (hAt a).split 0 }
theorem test_hyps_AtomicWords_performed :
    (∀ x ∈ [Space.mem, .scr 0 0],
      let a : Atom := { id := 4, group := 0, split := 0, lanes := 1, space := x, addr := 0x10100, bytes := 4, op := 0, arg := 1, expected := 0,
                        outs := [.v 6 0], req := some 4, acq := none, rels := [], pc := 0x10000, word := 0, after := [] }
      let s : State := { tState (tGroup.modSplit 0 fun sp => { sp with pend := [{ id := 3, writes := [], flags := {}, fto := false, left := 0, waits := [4] }] })
                         with atoms := [a] }
      s.older = [] ∧ s.stores = [] ∧ s.atomBad a = false ∧ s.lost a.addr = false ∧ s.lost (a.addr + a.bytes - 1) = false
       ∧ tCtx.res ≠ .saved ∧ s.ctx? 0 0 = some tCtx ∧ s.group? a.group ≠ none)
    ∧ (∀ i ∈ [Instr.atoms wAh, .atomsn wAh], Issues i (hAtState 0x780FFC) (hAtIt 0x780FFC))
    ∧ scrAt (hAtState 0x780FFC) (hAtIt 0x780FFC) 0x780FFC 4 = some (.hnd 0xFFC)
    ∧ inSlices (hAtIt 0x780FFC) [(⟨0, allLanes, 0x780FFC⟩, .hnd 0xFFC)] = [] := by
  simp only [List.mem_cons, List.not_mem_nil, or_false, forall_eq_or_imp, forall_eq]
  refine ⟨⟨by decide, by decide⟩, ⟨⟨⟨by decide, rfl, rfl⟩, flows_of (by rfl)⟩, ⟨by decide, rfl, rfl⟩, flows_of (by rfl)⟩, by decide, by decide⟩

/-! Barriers -/

/-- An id at NBAR, counts of 0 and 4,096, a scope whose core holds no context; the same of a launch that has lost a die.
-/
theorem test_hyps_NamedBarrierWords_refused :
    let lb : Launch := { tLaunch with r := { loadRecord with nbar := 8 } }
    let w (id n : Int) (sc : Scope := .core) : FWord XBar := fw ⟨sc, .plain, .none⟩ (.v 0) (.imm id) (.imm n)
    let words (x : FWord XBar) : List Instr := [.bar x, .bara x, .barw x]
    (∀ i ∈ words (w 8 1), Issued i (tState tGroup tCtx lb) (itOf tGroup tCtx lb)) ∧ lb.nbar ≤ (itOf tGroup tCtx lb).scalar (.imm 8)
    ∧ (∀ i ∈ words (w 7 0) ++ words (w 7 4096), Issued i (tState tGroup tCtx lb) (itOf tGroup tCtx lb))
    ∧ (itOf tGroup tCtx lb).scalar (.imm 0) = 0 ∧ 4095 < (itOf tGroup tCtx lb).scalar (.imm 4096)
    ∧ ∀ d ∈ [false, true],
        let l : Launch := { lb with cores := [⟨5, 0, 0⟩], degraded := d }
        (∀ i ∈ words (w 7 1 .pkg), Issues i (tState tGroup tCtx l) (itOf tGroup tCtx l))
        ∧ (tState tGroup tCtx l).ctx? 0 ((scopeCore (tState tGroup tCtx l) (itOf tGroup tCtx l) .pkg).getD 0) = none := by
  simp only [List.mem_cons, List.not_mem_nil, or_false, forall_eq_or_imp, forall_eq, List.cons_append, List.nil_append]
  refine ⟨⟨issued _ _ _ _ (by rfl), issued _ _ _ _ (by rfl), issued _ _ _ _ (by rfl)⟩, by decide,
    ⟨issued _ _ _ _ (by rfl), issued _ _ _ _ (by rfl), issued _ _ _ _ (by rfl), issued _ _ _ _ (by rfl), issued _ _ _ _ (by rfl),
      issued _ _ _ _ (by rfl)⟩, by decide, by decide, ⟨⟨issues _ _ _ _ (by rfl), issues _ _ _ _ (by rfl), issues _ _ _ _ (by rfl)⟩, by decide⟩,
    ⟨issues _ _ _ _ (by rfl), issues _ _ _ _ (by rfl), issues _ _ _ _ (by rfl)⟩, by decide⟩

def lBar : Launch := { tLaunch with r := { loadRecord with nbar := 8 } }
def wB (n : Int) (sc : Scope := .core) : FWord XBar := fw ⟨sc, .plain, .none⟩ (.v 0) (.imm 7) (.imm n)
/-- The releases that an arrival brings. -/
def relsOf (s : State) (it : Iss) (w : FWord XBar) (i : Instr) : List Rel :=
  ((s.issued it i).released it.key it.sp.mask (relObs w.x.ord w.x.obs) (Order.releases w.x.ord)).2
theorem test_hyps_NamedBarrierWords :
    (∀ i ∈ [Instr.bar (noLanes ⟨.core, .plain, .none⟩), .bara (noLanes ⟨.core, .plain, .none⟩), .barw (noLanes ⟨.core, .plain, .none⟩)],
      Issues i tState itOf ∧ itOf.exec ⟨1, false⟩ = 0) ∧
    -- a launch that has lost a die, with a wide scope; one that has not
    (let l : Launch := { lBar with degraded := true }
     let s := tState tGroup tCtx l; let it := itOf tGroup tCtx l
     Issues (.bar (wB 1 .pkg)) s it ∧ Issues (.bara (wB 1 .pkg)) s it ∧ Issues (.barw (wB 1 .pkg)) s it
      ∧ it.exec p0 ≠ 0 ∧ it.scalar (.imm 7) < it.l.nbar ∧ s.ctx? 0 ((scopeCore s it .pkg).getD 0) = some tCtx ∧ l.degraded = true)
    ∧ (let s := tState tGroup tCtx lBar; let it := itOf tGroup tCtx lBar
       Issued (.bar (wB 1)) s it ∧ Issues (.bara (wB 2)) s it ∧ Issued (.bara (wB 1)) s it ∧ Issues (.barw (wB 1)) s it
        ∧ Issued (.barw (wB 0)) s it ∧ it.exec p0 ≠ 0 ∧ it.scalar (.imm 7) < it.l.nbar ∧ s.ctx? 0 ((scopeCore s it .core).getD 0) = some tCtx
        ∧ ((tCtx.bar 7).arrive (it.scalar (.imm 2)) (relsOf s it (wB 2) (.bara (wB 2)))).2 = false
        ∧ ((tCtx.bar 7).arrive (it.scalar (.imm 1)) (relsOf s it (wB 1) (.bara (wB 1)))).2 = true
        ∧ (tCtx.bar 7).phase = bit (it.scalar (.imm 0)) 0 ∧ lBar.degraded = false) := by
  simp only [List.mem_cons, List.not_mem_nil, or_false, forall_eq_or_imp, forall_eq]
  refine ⟨⟨⟨issues _ _ _ _ (by rfl), ?_⟩, ⟨issues _ _ _ _ (by rfl), ?_⟩, issues _ _ _ _ (by rfl), ?_⟩,
    ⟨issues _ _ _ _ (by rfl), issues _ _ _ _ (by rfl), issues _ _ _ _ (by rfl), ?_⟩,
    issued _ _ _ _ (by rfl), issues _ _ _ _ (by rfl), issued _ _ _ _ (by rfl), issues _ _ _ _ (by rfl), issued _ _ _ _ (by rfl), ?_⟩ <;> decide

/-- A barrier at the last place of the slice: phase 3, one arrival of two missing. -/
def cTb : Ctx := tCtx.write 0x7FFF0 (leBytes 16 (Tb.toNat { top := 0, error := false, fail := false, sect := 0, reload := 2, arrv := 1, phase := 3 })) false
def wTb (n : Int) : FWord XTb := fw ⟨.plain, .none⟩ (.v 0) (.s 2) (.imm n)
theorem test_hyps_TransactionBarrierWords_none : ∀ i ∈ [Instr.tbinit (noLanes ⟨.plain, .none⟩), .tbarr (noLanes ⟨.plain, .none⟩),
    .tbexp (noLanes ⟨.plain, .none⟩), .tbwait (noLanes ⟨.plain, .none⟩), .tbtest (noLanes ⟨.plain, .none⟩)],
    Issues i tState itOf := issuesAll (by rfl)
/-- A place that does not fit, one not aligned, a count and a phase out of range; an absent line; a poisoned barrier. -/
theorem test_hyps_TransactionBarrierWords_refused :
    let words (n : Int) : List Instr := [.tbinit (wTb n), .tbarr (wTb n), .tbexp (wTb n), .tbwait (wTb n), .tbtest (wTb n)]
    (∀ a ∈ [(0x7FFF4 : Word), 8], ∀ i ∈ words 1, Issued i (tState (g32 a)) (itOf (g32 a)))
    ∧ (scrAt (tState (g32 0x7FFF4)) (itOf (g32 0x7FFF4)) 0x7FFF4 16).isNone = true ∧ (itOf (g32 8)).scalar (.s 2) % 16 = 8
    ∧ (∀ n ∈ [(0 : Int), -1], ∀ i ∈ words n, Issued i (tState (g32 0x7FFF0)) (itOf (g32 0x7FFF0)))
    ∧ itOf.scalar (.imm 0) = 0 ∧ 2 ^ 31 - 1 < itOf.scalar (.imm (-1))
    ∧ (∀ i ∈ words 1, Issued i (tState (g32 0x7FFF0) cAbsent) (itOf (g32 0x7FFF0) cAbsent))
    ∧ absentLines (tState (g32 0x7FFF0) cAbsent) 0 16 (.slice 0 0x7FFF0) ≠ []
    ∧ (let c : Ctx := { tCtx with bad := [0x3FFF] }
       (∀ i ∈ words 1, Issued i (tState (g32 0x7FFF0) c) (itOf (g32 0x7FFF0) c))
        ∧ absentLines (tState (g32 0x7FFF0) c) 0 16 (.slice 0 0x7FFF0) = [] ∧ (tState (g32 0x7FFF0) c).atoms = []
        ∧ scrBad (tState (g32 0x7FFF0) c) (itOf (g32 0x7FFF0) c) 16 (.slice 0 0x7FFF0) = true) := by
  simp only [List.mem_cons, List.not_mem_nil, or_false, forall_eq_or_imp, forall_eq]
  refine ⟨⟨⟨?_, ?_, ?_, ?_, ?_⟩, ?_, ?_, ?_, ?_, ?_⟩, by decide, by decide, ⟨⟨?_, ?_, ?_, ?_, ?_⟩, ?_, ?_, ?_, ?_, ?_⟩, by decide, by decide, ⟨?_, ?_, ?_, ?_, ?_⟩,
    by decide, ⟨?_, ?_, ?_, ?_, ?_⟩, by decide⟩ <;> exact issued _ _ _ _ (by rfl)

theorem test_hyps_TransactionBarrierWords :
    let s := tState (g32 0x7FFF0) cTb; let it := itOf (g32 0x7FFF0) cTb
    (Issues (.tbinit (wTb 1)) s it ∧ Issues (.tbarr (wTb 1)) s it ∧ Issues (.tbexp (wTb 1)) s it ∧ Issues (.tbtest (wTb 15)) s it
      ∧ Issues (.tbwait (wTb 2)) s it ∧ Issued (.tbwait (wTb 3)) s it)
    ∧ it.exec p0 ≠ 0 ∧ scrAt s it (it.scalar (.s 2)) 16 = some (.slice 0 0x7FFF0) ∧ it.scalar (.s 2) % 16 = 0
    ∧ absentLines s 0 16 (.slice 0 0x7FFF0) = [] ∧ scrBad s it 16 (.slice 0 0x7FFF0) = false := by
  refine ⟨⟨issues _ _ _ _ (by rfl), issues _ _ _ _ (by rfl), issues _ _ _ _ (by rfl), issues _ _ _ _ (by rfl), issues _ _ _ _ (by rfl),
    issued _ _ _ _ (by rfl)⟩, ?_⟩
  decide +kernel
/-- The phase it stands at, so that both of TBWAIT's clauses have a witness above; a malformed barrier and a good one. -/
theorem test_hyps_TransactionBarrierWords_phase :
    (Tb.of (scrRead (tState (g32 0x7FFF0) cTb) (itOf (g32 0x7FFF0) cTb) (.slice 0 0x7FFF0) 16)).phase = 3
    ∧ Tb.malformed { top := 1, error := false, fail := false, sect := 0, reload := 2, arrv := 1, phase := 3 } = true
    ∧ Tb.malformed { top := 0, error := false, fail := false, sect := 0, reload := 2, arrv := 1, phase := 3 } = false := by
  decide +kernel

/-! Engines -/

theorem test_hyps_EngineThreadStarts : tState.inRegion itOf.key = false := rfl

/-- A copy of 32 bytes from 0x10100 to offset 64, with the barrier of s1 at offset 0; the same with length 0. -/
def gCopy (n : Word) : Group := gr [(.s 4, 0x10100), (.s 6, 64), (.s 3, n)]
def wCpy : FWord XCpy := fw ⟨0, 0⟩ (.s 1) (.s 4) (.s 3)
def cEng : Ctx := { tCtx with tds := [(0, 0x217), (3, td32), (5, BitVec.ofNat 256 (0x808 * 2 ^ 204 + 4 * 2 ^ 92 + 3 * 2 ^ 32 + 15 * 2 ^ 12 + 141)),
  (6, BitVec.ofNat 256 (0x808 * 2 ^ 204 + 2 * 2 ^ 92 + 63 * 2 ^ 32 + 15 * 2 ^ 12 + 145))] }
/-- A command block at s8. -/
def blk (l : List Word) : Group := gr (l.mapIdx fun i x => (.s (8 + i), x))
def wBlk {χ : Type} (x : χ) : FWord χ := fw x (.s 1) (.s 8)
/-- Their barrier is at offset 0. -/
theorem bar_of {s : State} {it : Iss} (h : it.g.readS 1 = 0 ∧ (slicePlace s it false 0).isSome = true ∧ (scrAt s it 0 16).isSome = true) :
    LocalBar s it (.s 1) (some 0) := by
  simp [LocalBar, h.1, h.2]

theorem test_hyps_CopyWords :
    (Issued (.cpy wCpy) (tState (gCopy 32)) (itOf (gCopy 32)) ∧ LocalBar (tState (gCopy 32)) (itOf (gCopy 32)) (.s 1) (some 0)
      ∧ copyCheck (tState (gCopy 32)) (itOf (gCopy 32)) false true ((itOf (gCopy 32)).block64 (.s 4) 0) ((itOf (gCopy 32)).block64 (.s 4) 2)
          ((itOf (gCopy 32)).scalar (.s 3)) = .ok (.mem 0x10100, .scr 0 64))
    ∧ (Issued (.cpy wCpy) (tState (gCopy 0)) (itOf (gCopy 0))
      ∧ copyCheck (tState (gCopy 0)) (itOf (gCopy 0)) false true ((itOf (gCopy 0)).block64 (.s 4) 0) ((itOf (gCopy 0)).block64 (.s 4) 2)
          ((itOf (gCopy 0)).scalar (.s 3)) = .error 4)
    ∧ (∀ n ∈ [(0 : Word), 3], Issued (.cpyt (wBlk ⟨false, 0, 0⟩)) (tState (blk [0, 0, 64, n]) cEng) (itOf (blk [0, 0, 64, n]) cEng))
    ∧ (Desc.of (Map.get cEng.tds 0 0)).ok = false ∧ (Desc.of (Map.get cEng.tds 0 3)).ok = true
    ∧ (let it := itOf (blk [0, 0, 64, 3]) cEng; let s := tState (blk [0, 0, 64, 3]) cEng; let d := Desc.of td32
       LocalBar s it (.s 1) (some 0) ∧ it.block (.s 8) 3 = 3 ∧ cvtAllowed d ⟨false, 0, 0⟩ = true
        ∧ placeBad s it true 16 64 = false ∧ pastSlice s it 64 (tileSize d ⟨false, 0, 0⟩) = false)
    ∧ (let g := blk [64, 8, 0x10100, 0, 0x10200, 0, 0, 0]; let it := itOf g; let s := tState g
       Issued (.cpyc (wBlk ())) s it ∧ LocalBar s it (.s 1) (some 0) ∧ placeBad s it true 1 64 = false ∧ deviceBad it.l 0x10100 = false
        ∧ deviceBad it.l 0x10200 = false ∧ pastSlice s it 64 8 = false ∧ rangeBad s it.l 0x10100 8 LocKind.device = false
        ∧ s.inSlotStates 0x10200 8 = false) := by
  refine ⟨⟨issued _ _ _ _ (by rfl), bar_of (by decide), by rfl⟩, ⟨issued _ _ _ _ (by rfl), by rfl⟩, ?_, by decide, by decide,
    ⟨bar_of (by decide), by decide⟩, issued _ _ _ _ (by rfl), bar_of (by decide), by decide⟩
  simp only [List.mem_cons, List.not_mem_nil, or_false, forall_eq_or_imp, forall_eq]
  exact ⟨issued _ _ _ _ (by rfl), issued _ _ _ _ (by rfl)⟩

/-- A schedule of one entry at 0x10200: 32 bytes from 0x10100 to offset 64, barrier at 0; and one that holds nothing. -/
def lStage : Launch := { tLaunch with r := { loadRecord with sched := 0x10200, nsched := 1 } }
def sStage (m : List Host.Cell) : State := { tState tGroup tCtx lStage with mem := m }
def wStage : FWord Unit := fw () (.s 5)
def stageAt (m : List Host.Cell) : Option (EngCmd × Nat) :=
  stageEntry ((sStage m).issued (itOf tGroup tCtx lStage) (.stage wStage)) ((itOf tGroup tCtx lStage).issued (sStage m) (.stage wStage))
    (leNat ((sStage m).physBytes ((itOf tGroup tCtx lStage).l.phys (lStage.r.sched + 32 * 0)) 32))
theorem test_hyps_StageWord :
    Issues (.stage wStage) tState itOf ∧ itOf.l.r.nsched ≤ itOf.c.stage
    ∧ (∀ m, Issued (.stage wStage) (sStage m) (itOf tGroup tCtx lStage)) ∧ tCtx.stage < lStage.r.nsched
    ∧ stageAt [(0x10210, 32), (0x10214, 64), (0x10219, 1), (0x1021A, 1)] = some (.copy (.mem 0x10100) (.scr 0 64) 32, 0)
    ∧ stageAt [] = none :=
  ⟨issues _ _ _ _ (by rfl), by decide, fun _ => ⟨rfl, rfl, rfl⟩, by decide, by decide +kernel, by decide +kernel⟩

/-- One decoder of port 0 that claims the first 256 MiB of the CXL window; the page of the schedule lies there, and the
port is not ready. -/
def cxlOne : Map Byte := [(Config.hdmAt + 27, 0x10), (Config.hdmAt + 33, 4)]
def oneReg (x : Nat) : Nat := leNat ((List.range 4).map fun i => Map.get [(11, (0x10 : Byte)), (17, 4)] 0 (x + i))
theorem cxlReg_one (h x : Nat) : cxlReg [(h + 27, 0x10), (h + 33, 4)] 0 (h + 16 + 32 * 0 + x) = oneReg x := by
  unfold cxlReg oneReg
  congr 1
  apply List.map_congr_left
  intro i hi
  have e (n : Nat) : (65536 * 0 + (h + 16 + 32 * 0 + x) + i = h + (16 + n)) = (x + i = n) := by
    apply propext; omega
  have e1 := e 11
  have e2 := e 17
  simp only [Map.get, Map.find?, show h + 27 = h + (16 + 11) from rfl, show h + 33 = h + (16 + 17) from rfl, e1, e2]
theorem hdm_one {o : Nat} (ho : o < 2 ^ 28) : hdmClaims cxlOne 0 o = true := by
  unfold hdmClaims cxlOne
  generalize Config.hdmAt = h
  refine List.any_eq_true.2 ⟨0, by decide, ?_⟩
  simp only [cxlReg_one, show oneReg 0 = 0 by decide, show oneReg 4 = 0 by decide, show oneReg 8 = 0x10000000 by decide,
    show oneReg 12 = 0 by decide, show oneReg 16 = 0x400 by decide, show oneReg 20 = 0 by decide]
  have hn : o < 268435456 := by omega
  simp [bits, bit, ho, hn]
theorem cxlPort_one {s : State} (hs : s.regs.cxl = cxlOne) {pa : Nat} (h : pa - 0x100000000000 < 2 ^ 28) : s.cxlPort pa = some 0 := by
  simp [State.cxlPort, hs, hdm_one h, List.range, List.range.loop]
def lCxl : Launch := { lStage with pages := [(1, ⟨0x100000000000, true⟩)] }
theorem test_hyps_StageWord_ports :
    let s : State := { tState tGroup tCtx lCxl with regs := { cxl := cxlOne } }
    Issued (.stage wStage) s (itOf tGroup tCtx lCxl) ∧ tCtx.stage < lCxl.r.nsched ∧ portsOf s lCxl 0x10200 32 ≠ [] := by
  refine ⟨⟨rfl, rfl, rfl⟩, by decide, ?_⟩
  have h : (kindOf (lCxl.phys 0x10200) == .cxl) = true := by decide
  have hc : ({ tState tGroup tCtx lCxl with regs := { cxl := cxlOne } } : State).cxlPort (lCxl.phys 0x10200) = some 0 :=
    cxlPort_one rfl (by decide)
  intro e
  have hm : (0 : Nat) ∈ portsOf { tState tGroup tCtx lCxl with regs := { cxl := cxlOne } } lCxl 0x10200 32 :=
    List.mem_eraseDups.2 (List.mem_filterMap.2 ⟨lCxl.phys 0x10200, List.mem_cons_self, by simp only [h, hc, if_true]; exact if_neg (by decide)⟩)
  rw [e] at hm
  cases hm

theorem test_hyps_GatherAndScatterWords :
    (let g := blk [0, 0, 0, 1, 64, 64, 5, 0]; let s := tState g cEng; let it := itOf g cEng; let d := Desc.of (Map.get it.c.tds 0 5)
     Issued (.gpool (wBlk ⟨6, 0, 0⟩)) s it ∧ LocalBar s it (.s 1) (some 0)
      ∧ Issued (.scata (wBlk ())) (tState (blk [64, 0, 1, 64, 5, 0]) cEng) (itOf (blk [64, 0, 1, 64, 5, 0]) cEng) ∧ d.ok = true ∧ gatherFmt d = true ∧ scatterFmt d = true
      ∧ pooledBytes d ⟨6, 0, 0⟩ = 64 ∧ placeBad s it false 16 64 = false ∧ placeBad s it false 4 0 = false ∧ pastSlice s it 64 64 = false
      ∧ packedRow d.halfBytes (d.extent 0) = 64)
    ∧ (let g := blk [0, 0, 0, 1, 64, 64, 0, 0]
       Issued (.gpool (wBlk ⟨6, 0, 0⟩)) (tState g cEng) (itOf g cEng) ∧ Issued (.scata (wBlk ())) (tState g cEng) (itOf g cEng)
        ∧ (Desc.of (Map.get cEng.tds 0 0)).ok = false) := by
  refine ⟨⟨issued _ _ _ _ (by rfl), bar_of (by decide), issued _ _ _ _ (by rfl), ?_⟩, issued _ _ _ _ (by rfl), issued _ _ _ _ (by rfl), ?_⟩ <;> decide +kernel

def lSetup : Launch := { tLaunch with r := { loadRecord with kind := 2 } }
def gHeld : Group := { blk [0x10100, 0, 0, 128] with region := some ⟨1, 0x20000, allLanes, [], [], [], [], none⟩ }
theorem test_hyps_WeightDieWords :
    (let g := blk [0, 64, 1024, 16, 0, 1, 32, 1]; let s := tState g; let it := itOf g
     Issued (.wmv (wBlk 0)) s it ∧ LocalBar s it (.s 1) (some 0) ∧ placeBad s it false 16 0 = false ∧ placeBad s it false 16 1024 = false
      ∧ pastSlice s it 0 64 = false ∧ pastSlice s it 1024 4 = false ∧ 4096 * 0 + 1 * 32 / 2 + 1 * 32 / 32 ≤ 2 ^ 30)
    ∧ (let g := blk [0x10100, 0, 0, 128]; let s := tState g tCtx lSetup; let it := itOf g tCtx lSetup
       Issued (.wload (wBlk ())) s it ∧ LocalBar s it (.s 1) (some 0) ∧ s.inRegion it.key = false ∧ it.l.r.kind = 2
        ∧ deviceBad it.l 0x10100 = false ∧ 0x10100 % 128 = 0 ∧ rangeBad s it.l 0x10100 128 LocKind.device = false)
    ∧ (Issued (.wload (wBlk ())) tState itOf ∧ itOf.l.r.kind ≠ 2)
    ∧ (Issued (.wload (wBlk ())) (tState gHeld tCtx lSetup) (itOf gHeld tCtx lSetup) ∧ (tState gHeld tCtx lSetup).inRegion 0 = true) := by
  refine ⟨⟨issued _ _ _ _ (by rfl), bar_of (by decide), ?_⟩, ⟨issued _ _ _ _ (by rfl), bar_of (by decide), ?_⟩, ⟨issued _ _ _ _ (by rfl), ?_⟩, issued _ _ _ _ (by rfl), ?_⟩ <;>
    decide

/-! The fabric -/

/-- The pinned page is peer memory of device 5, through import 0. -/
def lPeer : Launch := { tLaunch with pages := [(1, ⟨0x1000000000000, true⟩)] }
def sPeer (g : Group) : State := { tState g tCtx lPeer with imports := [(0, BitVec.ofNat 64 (2 ^ 63 + 5 * 2 ^ 53))] }
def iPeer (g : Group) : Iss := itOf g tCtx lPeer
theorem peerIssues {i : Instr} (g : Group) (h : (!Instr.groupBad i g && flowsB (iPeer g) ((g.split 0).pc + 8)) = true)
    (h0 : (sPeer g).iss = some (iPeer g)) (hb : g.bad = [] := by rfl) : Issues i (sPeer g) (iPeer g) := by
  simp only [Bool.and_eq_true, Bool.not_eq_true'] at h
  exact ⟨⟨h0, h.1, by simp [Iss.readsBad, iPeer, itOf, hb]⟩, flows_of h.2⟩
/-- A group in an open region. -/
def gOpen : Group := { gRegion.writeRegs [(.s 2, 0x1FFFC)] with cellMask := 0 }
/-- Lane 0's access has no problem, at the last word of the page. -/
def gPeer : Group := gAt 0x1FFFC 0
def peerFree (i : Instr) (write : Bool) : Option Prob :=
  peerProb ((sPeer gPeer).issued (iPeer gPeer) i) ((iPeer gPeer).issued (sPeer gPeer) i) write 0x1FFFC 4
theorem test_hyps_FabricWords :
    (Issues (.fld wS) (sPeer gPeer) (iPeer gPeer) ∧ Issues (.fst wS) (sPeer gPeer) (iPeer gPeer) ∧ Issues (.fatom wA) (sPeer gPeer) (iPeer gPeer)
      ∧ Issues (.fatomn wA) (sPeer gPeer) (iPeer gPeer))
    ∧ (peerFree (.fld wS) false = none ∧ peerFree (.fst wS) true = none ∧ peerFree (.fatom wA) true = none ∧ peerFree (.fatomn wA) true = none)
    ∧ (let it := iPeer gPeer
       accesses it (it.exec p0) false (gAddr (sPeer gPeer) it (.s 2) (.imm 0)) = [⟨0, allLanes, 0x1FFFC⟩]
        ∧ accesses it (it.exec p0) false (fun l => srcVal (sPeer gPeer) it .n64 (.s 2) l) = [⟨0, allLanes, 0x1FFFC⟩])
    ∧ (sPeer gPeer).inRegion 0 = false ∧ (sPeer gPeer).group? 0 = some gPeer
    ∧ (sPeer gPeer).importAt ((iPeer gPeer).l.phys 0x1FFFC) = some (5, 0, 0xFFFC)
    ∧ (let g := blk [0x10100, 0, 64, 32, 0x10200, 0]
       Issued (.fput (wBlk ())) (sPeer g) (iPeer g) ∧ LocalBar (sPeer g) (iPeer g) (.s 1) (some 0) ∧ remoteBad (sPeer g) (iPeer g) 0x10100 = false
        ∧ remoteBad (sPeer g) (iPeer g) 0x10200 = false ∧ placeBad (sPeer g) (iPeer g) false 1 64 = false
        ∧ pastSlice (sPeer g) (iPeer g) 64 32 = false)
    ∧ Issued (.fget (wBlk ())) (sPeer (blk [0x10100, 0, 64, 32])) (iPeer (blk [0x10100, 0, 64, 32]))
    ∧ ((∀ i ∈ [Instr.fst wS, .fatom wA, .fatomn wA, .fput (wBlk ())], Issued i (sPeer gOpen) (iPeer gOpen)) ∧ (sPeer gOpen).inRegion 0 = true
      ∧ LocalBar (sPeer gOpen) (iPeer gOpen) (.s 1) (some 0)) := by
  refine ⟨⟨peerIssues _ (by rfl) (by decide), peerIssues _ (by rfl) (by decide), peerIssues _ (by rfl) (by decide), peerIssues _ (by rfl) (by decide)⟩,
    by decide, by decide, by decide, by decide, by decide, ⟨⟨by decide, rfl, rfl⟩, bar_of (by decide), by decide⟩, ⟨by decide, rfl, rfl⟩, ?_, by decide, bar_of (by decide)⟩
  simp only [List.mem_cons, List.not_mem_nil, or_false, forall_eq_or_imp, forall_eq]
  exact ⟨⟨by decide, rfl, rfl⟩, ⟨by decide, rfl, rfl⟩, ⟨by decide, rfl, rfl⟩, by decide, rfl, rfl⟩

/-- Values out of their limits: a place not aligned in the block of each engine word. -/
theorem test_hyps_EngineWords_refused :
    (∀ i ∈ [Instr.cpyc (wBlk ()), .gpool (wBlk ⟨6, 0, 0⟩), .scata (wBlk ()), .wmv (wBlk 0), .fput (wBlk ()), .fget (wBlk ())],
      Issued i (tState (blk [1, 0, 1, 0, 1, 0, 5, 0]) cEng) (itOf (blk [1, 0, 1, 0, 1, 0, 5, 0]) cEng))
    ∧ (∀ i ∈ [Instr.fput (wBlk ()), .fget (wBlk ())], Issued i (tState (blk [0x10000, 0])) (itOf (blk [0x10000, 0])))
    ∧ Issued (.wload (wBlk ())) (tState (blk [1, 0]) tCtx lSetup) (itOf (blk [1, 0]) tCtx lSetup)
    ∧ 1 % 128 ≠ 0
    ∧ placeBad (tState (blk [1, 0])) (itOf (blk [1, 0])) false 16 1 = true ∧ placeBad (tState (blk [1, 0])) (itOf (blk [1, 0])) false 4 1 = true
    ∧ remoteBad (tState (blk [1, 0])) (itOf (blk [1, 0])) 0x10000 = true ∧ deviceBad lPeer 0x10000 = true := by
  simp only [List.mem_cons, List.not_mem_nil, or_false, forall_eq_or_imp, forall_eq]
  refine ⟨⟨?_, ?_, ?_, ?_, ?_, ?_⟩, ⟨?_, ?_⟩, ?_, by decide, by decide, by decide, by decide, by decide⟩ <;> exact issued _ _ _ _ (by rfl)

/-! Parcels -/

/-- Arena 0: two slots of 128 bytes at 0x10000, states at 0x10000; slot 0 holds a parcel of one line. Arena 1 is inbox
7. -/
def sParcel (g : Group) (slots : Map Slot) (boxes : Map (List Nat)) : State :=
  { tState g with arenas := [(0, BitVec.ofNat 128 (2 ^ 87 + 7 * 2 ^ 82 + 2 * 2 ^ 50 + 2 ^ 5 + 1)),
                             (1, BitVec.ofNat 128 (2 ^ 87 + 7 * 2 ^ 82 + 2 * 2 ^ 50 + 2 ^ 49 + 7 * 2 ^ 46 + 2 ^ 5 + 1))],
                  slots := slots, inboxes := boxes }
def slotFull : Slot := { st := 1, len := 1 }
def gHandle : Group := gr [(.s 4, 1)]
def sLive : State := sParcel gHandle [(0, slotFull)] [(7, [9])]
theorem parcelIssues {i : Instr} {g : Group} (m : Map Slot) (b : Map (List Nat))
    (h : (!Instr.groupBad i g && flowsB (itOf g) ((g.split 0).pc + 8)) = true)
    (h0 : (sParcel g m b).iss = some (itOf g)) (hb : g.bad = [] := by rfl) : Issues i (sParcel g m b) (itOf g) := by
  simp only [Bool.and_eq_true, Bool.not_eq_true'] at h
  exact ⟨⟨h0, h.1, by simp [Iss.readsBad, itOf, hb]⟩, flows_of h.2⟩
def wHandle : FWord Unit := fw () (.s 6) (.s 4)
def wPar (n : Int := 124) : FWord XMem := fw mx (.s 6) (.s 4) (.imm n)
/-- A slot in transit is locked; an access not aligned, one past the parcel, a tag past it. -/
theorem test_hyps_ParcelWords_refused :
    (let s := sParcel gHandle [(0, { slotFull with st := 2 })] []
     (∀ i ∈ [Instr.pfree (fw () (.v 0) (.s 4)), .paddr wHandle, .ldp wPar, .stp wPar, .stpr wPar], Issued i s (itOf gHandle))
      ∧ s.liveHandle (Handle.of ((itOf gHandle).pair (.s 4))) = true ∧ (s.slot 0 0).locked = true)
    ∧ (∀ n ∈ [(126 : Int), 128], ∀ i ∈ [Instr.ldp (wPar n), .stp (wPar n), .stpr (wPar n)], Issued i sLive (itOf gHandle))
    ∧ accesses (itOf gHandle) (itOf.exec p0) false (fun l => (sLive.arena 0).slotVa 0 + src32 sLive (itOf gHandle) (.imm 126) l) = [⟨0, allLanes, 0x1007E⟩]
    ∧ accesses (itOf gHandle) (itOf.exec p0) false (fun l => (sLive.arena 0).slotVa 0 + src32 sLive (itOf gHandle) (.imm 128) l) = [⟨0, allLanes, 0x10080⟩]
    ∧ 0x1007E % 4 ≠ 0 ∧ 0x10080 % 4 = 0 ∧ slotFull.len * 128 < 0x10080 - (sLive.arena 0).slotVa 0 + 4
    ∧ (let g := gHandle.writeRegs [(.s 6, 128)]; let s := sParcel g [(0, slotFull)] []
       Issued (.stpr wPar) s (itOf g) ∧ slotFull.len * 128 ≤ dataVal (itOf g) (.s 6) 1 0) := by
  simp only [List.mem_cons, List.not_mem_nil, or_false, forall_eq_or_imp, forall_eq]
  refine ⟨⟨⟨?_, ?_, ?_, ?_, ?_⟩, by decide, by decide⟩, ⟨⟨?_, ?_, ?_⟩, ?_, ?_, ?_⟩, by decide, by decide, by decide, by decide, by decide, ?_, by decide⟩ <;>
    exact ⟨by decide, rfl, rfl⟩
theorem test_hyps_ParcelWords :
    -- a dead handle, a live one
    (Issued (.pfree (fw () (.v 0) (.s 4))) tState itOf ∧ Issued (.paddr wHandle) tState itOf ∧ Issued (.pstat wHandle) tState itOf
      ∧ tState.liveHandle (Handle.of (itOf.pair (.s 4))) = false)
    ∧ (Issues (.pfree (fw () (.v 0) (.s 4))) sLive (itOf gHandle) ∧ Issues (.paddr wHandle) sLive (itOf gHandle)
      ∧ Issues (.pstat wHandle) sLive (itOf gHandle) ∧ Issues (.ldp wPar) sLive (itOf gHandle) ∧ Issues (.stp wPar) sLive (itOf gHandle)
      ∧ Issues (.stpr wPar) sLive (itOf gHandle) ∧ Issues (.post (fw mx (.v 0) (.s 4) (.imm 0))) sLive (itOf gHandle))
    ∧ (let h := Handle.of ((itOf gHandle).pair (.s 4))
       sLive.liveHandle h = true ∧ (itOf gHandle).l.pinned ((sLive.arena 0).sstate + 8 * h.index) = true ∧ slotFull.locked = false
        ∧ sLive.slot 0 0 = slotFull ∧ sLive.inRegion 0 = false)
    -- the last word of the parcel
    ∧ (let it := itOf gHandle; let e := sLive.arena 0
       accesses it (it.exec p0) false (fun l => e.slotVa 0 + src32 sLive it (.imm 124) l) = [⟨0, allLanes, 0x1007C⟩]
        ∧ (0x1007C - e.slotVa 0) + 4 ≤ 128 * slotFull.len ∧ inAlias 0x1007C = false ∧ portsOf sLive it.l 0x1007C 4 = [] ∧ dataVal it (.s 6) 1 0 < 128
        ∧ ∀ i ∈ [Instr.ldp wPar, .stp wPar, .stpr wPar], transProb (sLive.issued it i) it.l true 0x1007C 4 = none
          ∧ (sLive.issued it i).lockedAcc (it.issued sLive i) 0x1007C 4 = false
          ∧ (sLive.issued it i).accPoison (it.issued sLive i) 0x1007C 4 = none)
    -- a free slot, none
    ∧ (let w : FWord Unit := fw () (.s 6) (.imm 0) (.imm 1)
       Issues (.palloc w) sLive (itOf gHandle) ∧ (sLive.arena 0).valid = true ∧ (sLive.arena 0).inbox = false ∧ 128 ≤ 2 ^ (sLive.arena 0).slog
        ∧ (itOf gHandle).l.pinned (sLive.arena 0).sstate = true ∧ sLive.freeSlot 0 = some 1
        ∧ (∀ p ∈ pagesOf ((sLive.arena 0).slotVa 1) 128, (itOf gHandle).l.pinned p = true)
        ∧ Issues (.palloc w) (sParcel gHandle [(0, slotFull), (1, slotFull)] []) (itOf gHandle)
        ∧ (sParcel gHandle [(0, slotFull), (1, slotFull)] []).freeSlot 0 = none)
    -- an inbox with a handle, an empty one
    ∧ (let w : FWord XMem := fw (mx .w32 .acq) (.s 6) (.v 0) (.imm 7)
       Issued (.precv (fw (mx .w32 .acq) (.s 6) (.v 0) (.imm 8))) sLive (itOf gHandle) ∧ 7 < (itOf gHandle).scalar (.imm 8)
        ∧ Issues (.precv w) sLive (itOf gHandle) ∧ (itOf gHandle).scalar (.imm 7) ≤ 7 ∧ (sLive.inboxArena 7).isSome = true
        ∧ Map.get sLive.inboxes [] 7 = [9] ∧ Issues (.precv w) (sParcel gHandle [] []) (itOf gHandle)
        ∧ Map.get (sParcel gHandle [] []).inboxes [] 7 = [] ∧ ((sParcel gHandle [] []).inboxArena 7).isSome = true) := by
  have hl : sLive.iss = some (itOf gHandle) := by decide
  refine ⟨⟨issued _ _ _ _ (by rfl), issued _ _ _ _ (by rfl), issued _ _ _ _ (by rfl), by decide⟩,
    ⟨parcelIssues _ _ (by rfl) hl, parcelIssues _ _ (by rfl) hl, parcelIssues _ _ (by rfl) hl, parcelIssues _ _ (by rfl) hl,
      parcelIssues _ _ (by rfl) hl, parcelIssues _ _ (by rfl) hl, parcelIssues _ _ (by rfl) hl⟩, by decide, by decide,
    ⟨parcelIssues _ _ (by rfl) hl, by decide, by decide, by decide, by decide, by decide, by decide, parcelIssues _ _ (by rfl) (by decide), by decide⟩,
    ⟨⟨hl, rfl, rfl⟩, by decide, parcelIssues _ _ (by rfl) hl, by decide, by decide, by decide, parcelIssues _ _ (by rfl) (by decide), by decide⟩⟩

/-! Matrix words -/

def wMma : TWord XMma := ⟨p0, 0, 2, .v 0, .v 16, ⟨0, 0, 0, false⟩⟩
/-- Groups in the four partitions of a quarter; with `ready` the other three wait at their MMAQ. -/
def sQuarter (ready : Bool) : State :=
  { tState with groups := (0, tGroup) :: [4, 8, 12].map fun k =>
      (k, { tGroup with slot := k, splits := [{ tGroup.split 0 with wait := if ready then .mmaq k wMma [] [] [] [] else .none }] }) }
def meOf (s : State) : Waiter × State :=
  let i := Instr.mmaq wMma
  (((itOf).issued s i).waiter (s.issued itOf i).nextId wMma,
    ({ s.issued itOf i with nextId := (s.issued itOf i).nextId + 1 } : State).modSplit 0 0 fun sp => { sp with mmaqWait := 0 })
theorem test_hyps_MatrixWords :
    ((Issues (.mma wMma) tState itOf ∧ Issued (.mmaq wMma) tState itOf) ∧ itOf.tileOk 2 = true ∧ (tState.unitOf 0 0).fenced = []
      ∧ tState.quarterHeld 0 0 0 = false)
    ∧ (∀ b, Issued (.mmaq wMma) (sQuarter b) itOf ∧ (sQuarter b).quarterHeld 0 0 0 = true)
    ∧ ((meOf (sQuarter false)).2.mmaqSet (itOf.issued (sQuarter false) (.mmaq wMma)) (meOf (sQuarter false)).1).isNone = true
    ∧ ((meOf (sQuarter true)).2.mmaqSet (itOf.issued (sQuarter true) (.mmaq wMma)) (meOf (sQuarter true)).1).map
        (fun ws => ws.map fun x => (x.key, x.w.x.afmt, x.w.x.bfmt)) = some [(0, 0, 0), (4, 0, 0), (8, 0, 0), (12, 0, 0)]
    ∧ (let g := blk [1024, 0, 6, 0]; let s := tState g cEng; let it := itOf g cEng
       Issued (.mmas ⟨p0, 0, 2, .v 0, .s 8, ⟨0, 0, 0, false⟩⟩) s it ∧ mmasDesc (Desc.of (Map.get it.c.tds 0 6)) 0 = true
        ∧ placeBad s it true 16 1024 = false ∧ placeBad s it false 16 0 = false ∧ pastSlice s it 0 16 = false
        ∧ pastSlice s it 1024 (63 * (16 * 2) + 32) = false)
    ∧ (let g := gr [(.s 8, 0x7C000)]; let s := tState g; let it := itOf g
       let w : TWord Unit := ⟨p0, 0, 2, .s 8, .v 0, ()⟩
       Issues (.mzero ⟨p0, 0, 2, .v 0, .v 0, ()⟩) s it ∧ Issues (.mld w) s it ∧ Issues (.mst w) s it ∧ Issues (.mrd ⟨p0, 0, 2, .v 8, .imm 63, ()⟩) s it
        ∧ scrAt s it (it.scalar (.s 8)) 16384 = some (.slice 0 0x7C000) ∧ it.scalar (.s 8) % 128 = 0
        ∧ absentLines s 0 16384 (.slice 0 0x7C000) = [] ∧ scrBad s it 16384 (.slice 0 0x7C000) = false ∧ it.scalar (.imm 63) < 64) := by
  refine ⟨⟨⟨issues _ _ _ _ (by rfl), issued _ _ _ _ (by rfl)⟩, by decide⟩, fun b => ?_, by decide +kernel, by decide +kernel,
    ⟨issued _ _ _ _ (by rfl), by decide⟩,
    issues _ _ _ _ (by rfl), issues _ _ _ _ (by rfl), issues _ _ _ _ (by rfl), issues _ _ _ _ (by rfl), by decide +kernel⟩
  cases b <;> exact ⟨⟨by decide, rfl, rfl⟩, by decide⟩
/-- Tiles that are not allotted, of a group in slot 1 with its launch's mask; places that are none; a poisoned and an
absent image; a row from 64 on; fenced sub-arrays; a set of two formats; a descriptor that MMAS does not take. -/
theorem test_hyps_MatrixWords_refused :
    let w : TWord Unit := ⟨p0, 0, 2, .s 8, .v 0, ()⟩
    let wm : TWord XMma := ⟨p0, 0, 2, .v 0, .s 8, ⟨0, 0, 0, false⟩⟩
    (let l : Launch := { tLaunch with r := { loadRecord with tiles := 0 } }
     (∀ i ∈ [Instr.mma wMma, .mmaq wMma, .mmas wm, .mzero w, .mld w, .mst w, .mrd w], Issued i (tState tGroup tCtx l) (itOf tGroup tCtx l))
      ∧ (itOf tGroup tCtx l).tileOk 2 = false)
    ∧ (∀ a ∈ [(0x7C080 : Word), 8], ∀ i ∈ [Instr.mld w, .mst w], Issued i (tState (gr [(.s 8, a)])) (itOf (gr [(.s 8, a)])))
    ∧ (scrAt (tState (gr [(.s 8, 0x7C080)])) (itOf (gr [(.s 8, 0x7C080)])) 0x7C080 16384).isNone = true
    ∧ (∀ c ∈ [cAbsent, { tCtx with bad := [0x3FFF] }], ∀ i ∈ [Instr.mld w, .mst w],
        Issued i (tState (gr [(.s 8, 0x7C000)]) c) (itOf (gr [(.s 8, 0x7C000)]) c))
    ∧ absentLines (tState (gr [(.s 8, 0x7C000)]) cAbsent) 0 16384 (.slice 0 0x7C000) ≠ []
    ∧ scrBad (tState tGroup { tCtx with bad := [0x3FFF] }) itOf 16384 (.slice 0 0x7C000) = true
    ∧ (Issued (.mrd ⟨p0, 0, 2, .v 8, .imm 64, ()⟩) tState itOf ∧ 64 ≤ itOf.scalar (.imm 64))
    ∧ (let s : State := { tState (blk [1024, 0, 6, 0]) cEng with units := [(0, { fenced := [1, 2] })] }; let it := itOf (blk [1024, 0, 6, 0]) cEng
       Issued (.mma wMma) s it ∧ Issued (.mmas wm) s it ∧ mmasDesc (Desc.of (Map.get it.c.tds 0 6)) 0 = true ∧ 2 ≤ (s.unitOf 0 0).fenced.length)
    ∧ (Issued (.mmas wm) tState itOf ∧ mmasDesc (Desc.of (Map.get tCtx.tds 0 0)) 0 = false)
    ∧ (∀ fenced ∈ [[], [1]], let s : State := { sQuarter true with units := [(0, { fenced := fenced })] }
       Issued (.mmaq wMma) s itOf ∧ s.quarterHeld 0 0 0 = true ∧ (((meOf s).2.mmaqSet (itOf.issued s (.mmaq wMma)) (meOf s).1).map fun ws => ws.all fun x => x.w.x.afmt == 0 && x.w.x.bfmt == 0) = some true)
    ∧ (let s : State := { sQuarter true with groups := (0, tGroup) :: [4, 8, 12].map fun k =>
         (k, { tGroup with slot := k, splits := [{ tGroup.split 0 with wait := .mmaq k { wMma with x := ⟨1, 0, 0, false⟩ } [] [] [] [] }] }) }
       Issued (.mmaq wMma) s itOf ∧ s.quarterHeld 0 0 0 = true ∧ (((meOf s).2.mmaqSet (itOf.issued s (.mmaq wMma)) (meOf s).1).map fun ws => ws.all fun x => x.w.x.afmt == 0 && x.w.x.bfmt == 0) = some false) := by
  simp only [List.mem_cons, List.not_mem_nil, or_false, forall_eq_or_imp, forall_eq]
  refine ⟨⟨⟨?_, ?_, ?_, ?_, ?_, ?_, ?_⟩, by decide⟩, ⟨⟨?_, ?_⟩, ?_, ?_⟩, by decide, ⟨⟨?_, ?_⟩, ?_, ?_⟩, by decide, by decide, ⟨?_, by decide⟩,
    ⟨⟨by decide, rfl, rfl⟩, ⟨by decide, rfl, rfl⟩, by decide⟩, ⟨?_, by decide⟩, ⟨⟨⟨by decide, rfl, rfl⟩, by decide +kernel⟩, ⟨by decide, rfl, rfl⟩, by decide +kernel⟩,
    ⟨by decide, rfl, rfl⟩, by decide +kernel⟩ <;> exact issued _ _ _ _ (by rfl)

/-! Events -/

def waits (w : Wait) : Group := tGroup.modSplit 0 fun sp => { sp with wait := w }
theorem test_hyps_TimerAndReleaseEvents :
    (let g : Group := { tGroup with tcmp := 9, run := 9 }
     (tState g).gate = false ∧ (tState g).group? 0 = some g ∧ (tState g).running g = true ∧ (tState g).nextSplit 0 = some 0 ∧ g.armed = true ∧ g.tcmp ≠ 0 ∧ g.tcmp ≤ g.run)
    ∧ (let g : Group := { waits .step with stepWait := 2 ^ 24 }
       (tState g).group? 0 = some g ∧ (tState g).running g = true ∧ (tState g).launch? 0 = some tLaunch ∧ (tState g).ctx? 0 0 = some tCtx
        ∧ g.liveSplits.find? (fun j => (g.split j).wait == .step) = some 0 ∧ 2 ^ 24 ≤ g.stepWait)
    ∧ (let g : Group := (waits (.mmaq 0 wMma [] [] [] [])).modSplit 0 fun sp => { sp with mmaqWait := 2 ^ 24 }
       (tState g).group? 0 = some g ∧ (tState g).running g = true ∧ (g.split 0).live = true ∧ (g.split 0).wait = .mmaq 0 wMma [] [] [] []
        ∧ 2 ^ 24 ≤ (g.split 0).mmaqWait)
    ∧ (let g := waits (.bar 0 7 false false true none)
       ((tState g).groups.flatMap fun (x : Nat × Group) => if x.2.launch = 0 ∧ islandOf x.2.core = 8 then
          (x.2.liveSplits.filter fun j => match (x.2.split j).wait with | .bar c i _ _ true _ => (x.2.split j).stall == 0 && c == 0 && i == 7 | _ => false).map fun j => (x.1, j)
        else []) ≠ []) := by
  decide

/-- A field launch of one patch, whose group has published its step; a push; two sets, the first of which has executed
its STEP. -/
def fStep : Group := { fGroup with published := 1, cellMask := 1, origin := [0, 0, 0], splits := [{ tGroup.split 0 with wait := .step }] }
def lField : Launch := { tLaunch with r := { loadRecord with kind := 1, e := 1, ext := [1, 1, 1], patch := [1, 1, 1], face := [0, 0, 0, 0, 0, 0] } }
def sSets : State := { tState fStep { tCtx with sets := 2 } with groups := [(0, fStep), (64, { fStep with set := 1, published := 0 })] }
theorem test_hyps_CellEvents :
    ((tState fStep tCtx lField).group? 0 = some fStep ∧ (tState fStep tCtx lField).running fStep = true ∧ fStep.published = fStep.step + 1
      ∧ fStep.liveSplits ≠ [] ∧ (∀ j ∈ fStep.liveSplits, (fStep.split j).wait = .step) ∧ tCtx.sets = 1
      ∧ mayEnter (tState fStep tCtx lField) fStep tCtx lField.r = true)
    ∧ (∀ dev ∈ [0, 5],
       let l : Launch := { tLaunch with cores := [⟨0, dev, 0⟩] }
       let s : State := { tState tGroup tCtx l with pushes := [⟨0, 0, 0, 0, false, [(3, 9)]⟩], regs := { fabEn := true, rdy := [0, 1, 0, 0] } }
       s.pushes[0]? = some ⟨0, 0, 0, 0, false, [(3, 9)]⟩ ∧ s.launch? 0 = some l ∧ s.noPlane = false
        ∧ ((l.cores.getD 0 ⟨0, 0, 0⟩).dev = s.regs.devno ↔ dev = 0))
    ∧ (let s : State := { tState with regs := { fabEn := true } }; s.regs.fabEn = true ∧ s.launch? 0 = some tLaunch ∧ s.ctx? 0 0 = some tCtx)
    ∧ (sSets.ctx? 0 0 = some { tCtx with sets := 2 } ∧ nextSet (sSets.coreGroups 0 0) 0 2 = some 1
      ∧ (∀ g ∈ (sSets.coreGroups 0 0).filter (fun g => g.set == 0 && !g.gone), g.published = g.step + 1)
      ∧ setPublished (sSets.coreGroups 0 0) 1 < setPublished (sSets.coreGroups 0 0) 0)
    ∧ (tCtx.spilling = none ∧ tCtx.res = .active ∧ (tState tGroup { tCtx with spilling := some 1 }).ctx? 0 0 = some { tCtx with spilling := some 1 }) := by
  decide

/-- A table that maps the page at 0x10000 to 0x20000 by one leaf of level 4: the five tables at 0x40000 on. -/
def sTable : State := { State.reset with
  regs := { tbase := 0x40000 },
  mem := 
    ([(0x40000, 0x50000), (0x50000, 0x60000), (0x60000, 0x70000), (0x70000, 0x80000)].flatMap fun (x : Nat × Nat) =>
      [(x.1 + 2, BitVec.ofNat 8 (x.2 / 65536)), (x.1 + 7, (0x80 : Byte))])
    ++ [(0x8000A, (2 : Byte)), (0x8000F, 0xE0)] }
theorem test_hyps_MemoryEvents :
    (let g : Group := { tGroup with splits := [{ tGroup.split 0 with pend := [{ id := 3, writes := [(.v 127 31, 9)], flags := {}, fto := false, left := 0, waits := [] }] }] }
     (tState g).group? 0 = some g ∧ (g.split 0).pend[0]? = some { id := 3, writes := [(.v 127 31, 9)], flags := {}, fto := false, left := 0, waits := [] }
      ∧ (tState g).underWay (g.split 0) { id := 3, writes := [(.v 127 31, 9)], flags := {}, fto := false, left := 0, waits := [] } = false)
    ∧ tState.underWay (tGroup.split 0) { id := 3, writes := [], flags := {}, fto := false, left := 0, waits := [], lat := some 0 } = false
    ∧ (0, tCtx) ∈ tState.ctxs ∧ tCtx.res = .active ∧ Map.find? tLaunch.pages 1 = some ⟨0x10000, true⟩
    ∧ (sTable.walk 65536 = some ⟨0x80008, 0x20000, 65536, true⟩ ∧ sTable.walkPorts 1 = [] ∧ ((List.range (65536 / 65536)).any fun i => (sTable.keptPage (65536 * 1 / 65536 * 65536 / 65536 + i)).isSome) = false ∧ 0x30000 % 65536 = 0
      ∧ (kindOf 0x30000).plain = true ∧ (kindOf (0x30000 + 65535)).plain = true ∧ 0x20000 + 65536 ≤ 0x30000 ∧ Memory.wf sTable.mem = true
      ∧ sTable.holdsArena 65536 65536 = false)
    ∧ (let st : Store := { id := 5, group := 0, lanes := 1, addr := 0x10100, data := [4, 3], after := [4] }
       let s : State := { tState with stores := [st] }
       s.stores[0]? = some st ∧ (∀ x ∈ s.stores, x.id ∉ st.after) ∧ (∀ r ∈ st.rels, r.mask.h = false)
        ∧ ({ s with stores := [] } : State).goesBehind st.group st.lanes st.id st.word .mem st.addr st.data.length = []
        ∧ s.lost 0x10100 = false ∧ s.lost (0x10100 + 1) = false)
    ∧ (let a : Atom := { id := 4, group := 0, split := 0, lanes := 1, space := .mem, addr := 0x10100, bytes := 4, op := 0, arg := 1, expected := 0,
                         outs := [], req := none, acq := none, rels := [], pc := 0x10000, word := 0, after := [3] }
       let s : State := { tState with atoms := [a] }
       s.atoms[0]? = some a ∧ ∀ x ∈ s.atoms, x.id ∉ a.after)
    ∧ 0x10100 < weightsAt ∧ 0 < ({ tState with hostWrites := [{ addr := 0x10100, data := [1] }] } : State).hostWrites.length ∧ kindOf 0x10100 = .hbm := by
  decide +kernel

theorem test_hyps_RegionUnwinds :
    let r : Region := ⟨7, 0x20000, allLanes, [], [], [], [], some 2⟩
    let g : Group := { tGroup with region := some r }
    (tState g).gate = false ∧ (tState g).group? 0 = some g ∧ (tState g).running g = true ∧ g.region = some r ∧ g.unwindReady r = true
      ∧ g.splits ≠ [] ∧ g.e = 0 ∧ r.mask &&& ~~~g.exited ≠ 0 := by
  decide

def tThread : Thread := { launch := 0, core := 0, group := 0, cmd := .copy (.mem 0x10100) (.scr 0 0x7FF80) 128, bar := some 0 }
def tOp : MatOp := { launch := 0, parts := [⟨0, 2, false, [], [], []⟩], b := [], bScale := [], afmt := 0, bfmt := 0, cycles := 8 }
theorem test_hyps_EngineAndMatrixEvents :
    (let s : State := { tState with threads := [(5, tThread)] }
     Map.find? s.threads 5 = some tThread ∧ s.threadMoves 5 tThread = true ∧ 0 < tThread.units s ∧ 0 ∉ tThread.done ∧ tThread.asked ≤ tThread.answered)
    ∧ (let s : State := { tState with threads := [(5, { tThread with done := [0], cmd := .fget 0x10100 0 0 32 })] }
       let th : Thread := { tThread with done := [0], cmd := .fget 0x10100 0 0 32 }
       s.threadMoves 5 th = true ∧ (bulkLines 0x10100 32).length ≤ th.done.length ∧ th.asked ≤ th.answered)
    ∧ (∀ cmd ∈ [EngCmd.fput 0x10100 0 0 32 0, .scata 0 0 0 0 1 0], let th : Thread := { tThread with done := [0], cmd := cmd }
       ({ tState with threads := [(5, th)] } : State).threadMoves 5 th = true ∧ ceilDiv 32 4096 ≤ th.done.length ∧ 1 ≤ th.done.length ∧ th.asked ≤ th.answered)
    ∧ (let s : State := { tState with units := [(639, { queue := [tOp] })] }
       159 ∈ coresOf 39 ∧ (s.unitOf 159 3).busy = none ∧ s.nextOp 159 3 = some 0 ∧ (s.unitOf 159 3).queue[0]? = some tOp
        ∧ (s.unitOf 159 3).fenced = [] ∧ (s.island (islandOf 159)).slew.on = false)
    ∧ (let s : State := { tState with units := [(0, { busy := some (tOp, 0) })] }
       (s.unitOf 0 0).busy = some (tOp, 0) ∧ tOp.thread = none)
    ∧ (tOp.parts = [⟨0, 2, false, [], [], []⟩] ∧ tState.ctx? tOp.launch 0 = some tCtx)
    ∧ (let s : State := { tState with units := [(639, { failed := [7] })] }
       (s.unitOf 159 3).busy = none ∧ 7 ∉ (s.unitOf 159 3).fenced ∧ 7 ∈ (s.unitOf 159 3).failed) := by
  decide +kernel

/-- A page exported for writing as export 1, and a slice as export 2; a request of this device under way. -/
def sExport : State := { tState with
  regs := { fabEn := true }
  exports := [(1, BitVec.ofNat 128 (2 ^ 87 + 16 + 1)), (2, BitVec.ofNat 128 (16 + 4 + 1))], exportPages := [(1, ⟨0x10000, true⟩)] }
def tReq : FabReq := { group := 0, split := 0, pend := 3, regs := [.s 4], bytes := 2, signed := true, returns := true, writes := false, acq := none, strong := true, lanes := 1,
                       issued := 0xFFFFFFFFFFFFFFFF, limit := 1000, die := 0, pc := 0, pa := 0 }
theorem test_hyps_FabricEvents :
    (sExport.gate = false ∧ sExport.taking = false ∧ sExport.regs.fabEn = true ∧ sExport.exportAt 1 0xFFFC 4 true = some (.mem 0x1FFFC)
      ∧ sExport.exportAt 1 0xFFFD 4 true = none ∧ sExport.exportAt 2 0x7FFF0 16 true = some (.scr 0 0 0x7FFF0)
      ∧ sExport.exportWaits 1 0xFFFC 4 = false ∧ sExport.exportWaits 1 0xFFFD 4 = false
      ∧ sExport.exportAt 2 0x80000 4 true = none ∧ sExport.exportWaits 2 0x80000 4 = false)
    -- a bulk read of which the first line is accepted
    ∧ sExport.exportAt 1 0xFFF0 32 false = none ∧ (exportLines 0xFFF0 32).map (fun x => (sExport.exportAt 1 x.2.1 x.2.2 false).isSome) = [true, false]
    ∧ (let s : State := { sExport with fabReqs := [(4, tReq)], dies := [(0, { wall := 999 })] }
       Map.find? s.fabReqs 4 = some tReq ∧ tReq.sent = true ∧ tReq.timedOut = false ∧ tReq.returns = true ∧ tReq.escaped = false
        ∧ ([(1 : Byte), 0x80]).length = tReq.bytes ∧ tReq.limit ≤ ((s.die tReq.die).wall - tReq.issued).toNat
        ∧ ¬tReq.limit ≤ (((({ s with dies := [(0, { wall := 998 })] } : State).die tReq.die).wall - tReq.issued).toNat))
    ∧ (let s : State := { sExport with fabReqs := [(4, { tReq with timedOut := true }), (5, { tReq with returns := false })] }
       (Map.find? s.fabReqs 4).map FabReq.timedOut = some true ∧ (Map.find? s.fabReqs 5).map FabReq.returns = some false)
    ∧ (let th : Thread := { tThread with cmd := .fget 0x10100 0 64 32, asked := 1 }
       let s : State := { sExport with threads := [(5, th)] }
       Map.find? s.fabReqs 5 = none ∧ Map.find? s.threads 5 = some th ∧ th.answered < th.asked ∧ th.held = false
        ∧ landedLines th 0x10100 32 0 32 = [0] ∧ s.onePacket th 0x10100 32 (landedLines th 0x10100 32 0 32) = true)
    ∧ (let s : State := { sExport with hostReqs := [(6, 2)] }
       Map.find? s.fabReqs 6 = none ∧ Map.find? s.threads 6 = none ∧ Map.find? s.hostReqs 6 = some 2)
    -- 32 bytes at the end of the exported page, with the barrier in the exported slice; a packet of which one part is refused
    ∧ (let parts := [(1, 0xFFE0, 32)]
       let r := sExport.landLines (List.replicate 32 7) [] (packetLines 0 parts)
       r.2.2 ≠ [] ∧ r.2.2.length = (packetLines 0 parts).length ∧ (parts.map fun (p : Nat × Nat × Nat) => p.2.2).sum = 32 ∧ (∀ p ∈ parts, sExport.exportWaits p.1 p.2.1 p.2.2 = false)
        ∧ sExport.exportAt 1 0xFFE0 32 true = some (.mem 0x1FFE0)
        ∧ (r.1.send [.response 3 9 [] false]).exportAt 2 0x7FFF0 16 true = some (.scr 0 0 0x7FFF0))
    ∧ (let parts := [(1, 0xFFF0, 16), (2, 0x80000, 16)]
       (parts.map fun (p : Nat × Nat × Nat) => p.2.2).sum = 32 ∧ (∀ p ∈ parts, sExport.exportWaits p.1 p.2.1 p.2.2 = false)
        ∧ (sExport.landLines (List.replicate 32 7) [] (packetLines 0 parts)).2.2.length = 1 ∧ (packetLines 0 parts).length = 2) := by
  decide +kernel

/-- Slot 0 in transit to inbox 7 of this device or of device 5, by thread 5; with a receiving slot in arena 1. -/
def postThread (dev : Nat) (recv : Option (Nat × Nat)) (done : List Nat) : Thread :=
  { launch := 0, core := 0, group := 0, cmd := .post 0 0 dev 7 recv, bar := none, done := done }
def sTransit (dev st : Nat) (recv : Option (Nat × Nat)) (done : List Nat := []) (land : Nat := 0) : State :=
  { sParcel gHandle (if land = 0 then [(0, { slotFull with st := st })] else [(0, { slotFull with st := st }), (2 ^ 32, { slotFull with st := land })]) []
    with threads := [(5, postThread dev recv done)], regs := { fabEn := true, rdy := [0, 1, 0, 0] } }
/-- A peer's parcel of one line, number 9 of device 5, lands in slot 0 of arena 1. -/
def sLanding : State := { sParcel gHandle [(2 ^ 32, { slotFull with st := 4 })] [] with landings := [(5, 9, 1, 0)], regs := { fabEn := true } }
theorem test_hyps_ParcelEvents_peer : sLanding.gate = false ∧ sLanding.taking = false ∧ sLanding.regs.fabEn = true
    ∧ sLanding.landings.find? (fun l => l.1 == 5 && l.2.1 == 9) = some (5, 9, 1, 0)
    ∧ sLanding.inboxArena 7 = some (1, sLanding.arena 1) ∧ (List.replicate 128 (0 : Byte)).length = 128 * (sLanding.slot 1 0).len
    ∧ sLanding.slotLost 1 0 = false ∧ (∀ l ∈ sLanding.landings, ¬(l.1 = 5 ∧ l.2.1 = 8))
    ∧ (sLanding.landingSlot 7 1).toOption = some (1, 1) ∧ (match sLanding.landingSlot 6 1 with | .error c => c | _ => 0) = 3 := by
  decide +kernel
theorem test_hyps_ParcelEvents :
    (∀ dev ∈ [0, 5], let s := sTransit dev 2 none
       s.transit 5 = some (postThread dev none [], ⟨0, 0, dev, 7, none⟩) ∧ s.gate = false ∧ (s.slot 0 0).st = 2 ∧ s.slotLost 0 0 = false ∧ s.noPlane = false)
    ∧ (let s := sTransit 0 3 none
       s.transit 5 = some (postThread 0 none [], ⟨0, 0, 0, 7, none⟩) ∧ (s.slot 0 0).st = 3 ∧ (s.landingSlot 7 1).toOption = some (1, 0))
    ∧ (∀ tags ∈ [([] : List Nat), [0x4000]], let s : State := { sTransit 0 3 (some (1, 0)) [] 4 with tags := tags, mem := [(0x10000, 0x80)] }
       s.transit 5 = some (postThread 0 (some (1, 0)) [], ⟨0, 0, 0, 7, some (1, 0)⟩) ∧ (s.slot 1 0).st = 4 ∧ s.slotLost 1 0 = false ∧ s.slotLost 0 0 = false
        ∧ (tagsOk 1 (s.slotContents 0 0).1 (s.slotContents 0 0).2.1 (s.slotContents 0 0).2.2 = tags.isEmpty))
    ∧ (let s := sTransit 0 3 none [1]; s.transit 5 = some (postThread 0 none [1], ⟨0, 0, 0, 7, none⟩) ∧ (s.slot 0 0).st = 3)
    ∧ (let s := sTransit 5 3 none; s.transit 5 = some (postThread 5 none [], ⟨0, 0, 5, 7, none⟩) ∧ (s.slot 0 0).st = 3 ∧ 5 ≠ s.regs.devno)
    ∧ ((sTransit 0 3 none).landings = [] ∧ (sTransit 0 3 none).regs.fabEn = true
      ∧ (match (sTransit 0 3 none).landingSlot 6 1 with | .error c => c | _ => 0) = 3) := by
  decide +kernel

/-- A launch record by its bytes that are not 0. -/
def recBytes (l : List (Nat × Byte)) : List Byte := (List.range 256).map fun i => Map.get l 0 i
def tQueue (l : List (Nat × Byte)) : Queue := { en := true, log := 4, tail := 1, copied := some (recBytes l) }
/-- One team of one group on one core; its only pin is the 28 pages from 0x10000, and its save area of 27 pages starts
at 0x20000. -/
def recGood : List (Nat × Byte) := [(0, 0x80), (5, 1), (6, 0x11), (8, 1), (50, 1), (58, 2), (76, 27), (248, 1)]
/-- Tables at 0x40000 that map the first 2 MiB to 0x200000, the pin list at 0x10000, ready HBM and a ready island. -/
def sAdmit (l : List (Nat × Byte)) : State := { State.reset with
  queues := [(63, tQueue l)]
  regs := { tbase := 0x40000, rdy := [3, 0, 256, 0] }
  mem := [(0x40002, 5), (0x40007, 0x80), (0x50002, 6), (0x50007, 0x80), (0x60002, 7), (0x60007, 0x80), (0x70002, 0x20), (0x70007, 0xE0),
          (0x210000, 1), (0x210004, 28), (0x21000A, 1)] }
/-- Whether the head of queue 63 meets every check of ADMISSION, and whether it can be placed on core 0. -/
def headOk (s : State) : Bool := match (s.queueOf 63).headRecord with
  | none => false
  | some r => s.headReady r && !s.outranked 63 r.prio && (s.check r).reason.isNone
def placed (s : State) : Bool := match (s.queueOf 63).headRecord with
  | none => false
  | some r => match s.listFor (s.check r) r [0] with | some cs => s.placeableAll r cs | none => false
/-- The same with no ready island. -/
def sWaits : State := { sAdmit recGood with regs := { tbase := 0x40000, rdy := [3, 0, 0, 0] } }
theorem test_admission : headOk (sAdmit recGood) = true ∧ placed (sAdmit recGood) = true ∧ headOk sWaits = true ∧ placed sWaits = false := by
  decide +kernel
theorem test_hyps_Admission_refused : (sAdmit []).gate = false ∧ (sAdmit []).taking = false
    ∧ ∃ r, ((sAdmit []).queueOf 63).headRecord = some r ∧ (sAdmit []).headReady r = true ∧ (sAdmit []).outranked 63 r.prio = false
      ∧ ((sAdmit []).check r).reason = some 2 :=
  ⟨rfl, rfl, Record.of (recBytes []), by decide +kernel⟩
theorem headOk_spec {s : State} (h : headOk s = true) : ∃ r, (s.queueOf 63).headRecord = some r ∧ s.headReady r = true
    ∧ s.outranked 63 r.prio = false ∧ (s.check r).reason = none := by
  unfold headOk at h
  split at h
  · cases h
  · rename_i r hr
    simp only [Bool.and_eq_true, Bool.not_eq_true', Option.isNone_iff_eq_none] at h
    exact ⟨r, hr, h.1.1, h.1.2, h.2⟩
theorem test_hyps_Admission :
    (∃ r cs, ((sAdmit recGood).queueOf 63).headRecord = some r ∧ (sAdmit recGood).headReady r = true
      ∧ (sAdmit recGood).outranked 63 r.prio = false ∧ ((sAdmit recGood).check r).reason = none
      ∧ (sAdmit recGood).listFor ((sAdmit recGood).check r) r [0] = some cs
      ∧ (sAdmit recGood).placeableAll r cs = true)
    ∧ ∃ r, (sWaits.queueOf 63).headRecord = some r ∧ sWaits.headReady r = true ∧ sWaits.outranked 63 r.prio = false
      ∧ (sWaits.check r).reason = none
      ∧ ∀ cs, sWaits.listFor (sWaits.check r) r [0] = some cs → sWaits.placeableAll r cs = false := by
  obtain ⟨h1, h2, h3, h4⟩ := test_admission
  obtain ⟨r, hr, a, b, c⟩ := headOk_spec h1
  obtain ⟨r', hr', a', b', c'⟩ := headOk_spec h3
  simp only [placed, hr, hr'] at h2 h4
  refine ⟨?_, r', hr', a', b', c', fun cs hc => by simpa [hc] using h4⟩
  split at h2
  · rename_i cs hc
    exact ⟨r, cs, hr, a, b, c, hc, h2⟩
  · cases h2

/-- A launch of class 3 that holds core 0 whole, and one of class 0 that was switched out there. -/
def lLow : Launch := { tLaunch with r := { loadRecord with prio := 3 } }
def cOut : Ctx := { tCtx with launch := 1, res := .saved, sliceBytes := 128 }
def gOut : Group := { tGroup with launch := 1, slot := 4 }
def sTwo (both : Bool) : State := { State.reset with
  groups := (if both then [(0, tGroup)] else []) ++ [(2 ^ 20, gOut)]
  ctxs := (if both then [(0, tCtx)] else []) ++ [(ckey 1 0, cOut)]
  launches := [(0, lLow), (1, { tLaunch with allots := [] })], regs := { rdy := [3, 0, 256, 0] } }
theorem test_hyps_SchedulerEvents :
    (let l : Launch := { tLaunch with started := 0, allots := [] }
     let s : State := { tState tGroup tCtx l with groups := [] }
     s.launch? 0 = some l ∧ l.stopped = false ∧ l.started < l.teams ∧ l.r.kind ≠ 1 ∧ s.nextCluster 0 l = some [(⟨0, 0, 0⟩, [0])])
    ∧ (let l : Launch := { lField with started := 0 }
       l.started < l.teams ∧ l.r.kind = 1 ∧ (∀ e ∈ l.cores, (tState tGroup tCtx l).ownEntry e = false ∨ (tState tGroup tCtx l).activeOn 0 e.core = true))
    ∧ (let l : Launch := { tLaunch with ended := [0] }
       (tState tGroup tCtx l).launch? 0 = some l ∧ l.ended.length = l.teams ∧ (∀ x ∈ (tState tGroup tCtx l).threads, x.2.launch ≠ 0)
        ∧ (tState tGroup tCtx l).peerOpen 0 = false)
    ∧ (let l : Launch := { tLaunch with ended := [0], addr := 0x10200, r := { loadRecord with compl := 0x10400 } }
       let s := tState tGroup tCtx l
       s.stores = [] ∧ s.atoms = [] ∧ s.lost (l.addr + 252) = false ∧ s.lost (l.addr + 255) = false ∧ l.r.compl ≠ 0 ∧ s.lost (l.phys l.r.compl) = false
        ∧ s.lost (l.phys l.r.compl + 15) = false ∧ l.addr + 256 ≤ l.phys l.r.compl)
    ∧ (let s := sTwo true
       s.launch? 0 = some lLow ∧ s.ctx? 0 0 = some tCtx ∧ tCtx.res = .active ∧ s.guarded tCtx = false ∧ s.victim 0 0 lLow = true ∧ s.claimed 0 3 = true
        ∧ ∀ x ∈ s.together lLow 0, s.shadowFree x = true)
    ∧ (let s := tState tGroup { tCtx with res := .shadow }
       s.ctx? 0 0 = some { tCtx with res := .shadow } ∧ s.resultsLanded 0 0 = true)
    ∧ (let s := sTwo false; let l : Launch := { tLaunch with allots := [] }
       s.launch? 1 = some l ∧ s.ctx? 1 0 = some cOut ∧ cOut.res = .saved ∧ (∀ x ∈ s.together l 0, s.fitsBack 1 x = true ∧ s.shadowFree x = true))
    ∧ (let s := sTwo false; let l : Launch := { tLaunch with allots := [] }
       s.ctx? 1 0 = some cOut ∧ s.holdsLowest 1 0 l = true ∧ (∀ x ∈ s.together l 0, s.shadowFree x = true)
        ∧ ∀ x ∈ s.together l 0, ((s.together l 0).foldl (fun s x => s.makeRoom 1 x 64) s).fitsBack 1 x = true) := by
  decide +kernel

/-- A spill: one written line of the slice, one queued trap; and a last piece that nothing lies over. -/
def cSpill : Ctx := { tCtx with sliceBytes := 128, scr := [(33, 7)], stage := 3, trapq := [tTrap] }
def lSpill : Launch := { tLaunch with r := { loadRecord with scratch := 1 } }
theorem test_hyps_Spill :
    (let g : Group := { tGroup with priv := [(privKey 3 5, 9)] }
     g ∈ (tState g cSpill lSpill).coreGroups 0 0 ∧ Map.get g.priv 0 (privKey 3 5) ≠ 0) ∧
    (tState tGroup cSpill lSpill).launch? 0 = some lSpill ∧ (tState tGroup cSpill lSpill).ctx? 0 0 = some cSpill
    ∧ 1 < cSpill.sliceBytes / 32 ∧ 32 * 1 + 1 < 128 * lSpill.r.scratch ∧ cSpill.trapq[0]? = some tTrap
    ∧ (let s := tState tGroup cSpill lSpill
       ∃ ps p a, s.bankPieces lSpill cSpill = ps ++ p :: [] ∧ s.lost (lSpill.phys p.va) = false
        ∧ s.lost (lSpill.phys p.va + p.bytes.length - 1) = false ∧ lSpill.phys p.va ≤ a ∧ a < lSpill.phys p.va + p.bytes.length) := by
  refine ⟨by decide, by decide, by decide, by decide, by decide, by decide, ?_⟩
  intro s
  refine ⟨s.privPieces lSpill cSpill ++ s.setPieces lSpill cSpill 0 ++ (List.range (cSpill.sliceBytes / 32)).map (State.slicePiece lSpill.r cSpill)
    ++ ((List.range 32).map (fun i => ⟨lSpill.r.saveAt 0 + (lSpill.r.sliceAt 0 + 128) + 128 * i, cSpill.barBytes i, false⟩)
      ++ (List.range 32).map (fun i => ⟨lSpill.r.saveAt 0 + (lSpill.r.sliceAt 0 + 128) + 4096 + 128 * i, cSpill.stageBytes i, false⟩)
      ++ (List.range 255).map (fun i => ⟨lSpill.r.saveAt 0 + (lSpill.r.sliceAt 0 + 128) + 8192 + 64 * i,
        s.queueBytes cSpill (lSpill.r.sliceAt 0 + 128 + 8192 + 64 * i) i, false⟩)),
    ⟨lSpill.r.saveAt 0 + (lSpill.r.sliceAt 0 + 128) + 8192 + 64 * 255,
      s.queueBytes cSpill (lSpill.r.sliceAt 0 + 128 + 8192 + 64 * 255) 255, false⟩,
    lSpill.phys (lSpill.r.saveAt 0 + (lSpill.r.sliceAt 0 + 128) + 8192 + 64 * 255), ?_, by decide, ?_, Nat.le_refl _, ?_⟩
  · simp [State.bankPieces, State.statePieces, State.handlerPieces, List.range_succ (n := 255), cSpill, tCtx]
  · simp only [State.queueBytes, cSpill]; decide
  · simp [State.queueBytes, cSpill]

theorem test_hyps_IslandEvents :
    State.reset.gate = false ∧ (State.reset.die (39 / 10)).fenced = false ∧ State.reset.cycleOpen 39 = false ∧ State.reset.grantedNow = false
    ∧ ({ State.reset with gate := true } : State).gate = true
    ∧ (let s : State := { State.reset with islands := [(39, { target := 1275, mhz := 1250 })] }
       (s.island 39).mhz ≠ (s.island 39).target ∧ (s.island 39).mhz + 25 ≤ (s.island 39).target)
    ∧ (let g := waits .step
       let s : State := { tState g with islands := [(8, { lease := 5, holder := some (0, 0), ending := some 1 })] }
       (s.island 8).ending = some 1 ∧ (s.island 8).holder = some (0, 0) ∧ ((s.modIsland 8 Island.endLease).modGroup 0 fun g => { g with due := some 1 }).nextSplit 0 = none)
    ∧ (let s : State := { tState with islands := [(8, { lease := 5, holder := some (0, 0), ending := some 1 })] }
       let s1 := (s.modIsland 8 Island.endLease).modGroup 0 fun g => { g with due := some 1 }
       (s.island 8).ending = some 1 ∧ (s.island 8).holder = some (0, 0) ∧ s1.nextSplit 0 = some 0 ∧ (s1.group? 0).map s1.running = some true ∧ tGroup.timerDue = false
        ∧ ∀ sp ∈ tGroup.splits, sp.wait ≠ .trapped)
    ∧ ((State.reset.island 8).ending = none ∧ ({ State.reset with gate := true, islands := [(8, { ending := some 1 })] } : State).gate = true
      ∧ (({ State.reset with gate := true, islands := [(8, { ending := some 1 })] } : State).island 8).ending = some 1)
    ∧ (let s : State := { State.reset with gate := true, melt := 0xEFFF, dies := [(0, { wall := 100000 })] }
       s.gate = true ∧ s.melt < 0xF000 ∧ 100000 ≤ ((s.die 0).wall - s.coolFrom).toNat)
    ∧ (({ State.reset with gate := true, melt := 0xF000 } : State).melt ≥ 0xF000 ∧ ((State.reset.die 0).wall - State.reset.coolFrom).toNat < 100000)
    ∧ State.reset.refreeze = false
    ∧ ({ State.reset with refreeze := true } : State).refreeze = true := by
  decide

def tSaved : Saved :=
  { mem := [(5, 1)], tags := [], bad := [], groups := [], ctxs := [], launches := [], threads := [], queues := [], arenas := [],
    exports := [], exportPages := [], imports := [], slots := [], inboxes := [], islands := [], units := [], tbase := 2048, dies := 15 }
theorem test_hyps_FailureEvents :
    (State.reset.die 3).fenced = false ∧ 3 ∉ State.reset.cxlDown ∧ State.reset.launches = [] ∧ State.reset.memoryCanonical
    ∧ (let s : State := tState tGroup tCtx { tLaunch with pages := [(1, ⟨0x100000000000, true⟩)] }
       s.extentPinned 65535 1 = true ∧ s.extentPinned 65536 1 = false)
    ∧ (let s : State := { State.reset with regs := { fabEn := true } }; s.regs.fabEn = true ∧ 2 ^ 31 % 2 ^ 32 ≠ 0)
    ∧ State.reset.mayRise 3 7 = true ∧ State.reset.readyBit 3 7 = false ∧ State.reset.taking = false
    ∧ (let s : State := { tState with threads := [(5, tThread)] }; s.taking = false ∧ s.drained = false)
    ∧ (let s : State := { State.reset with saved := some tSaved, dies := [(3, { fenced := true })] }
       s.fresh = true ∧ ∃ d < 4, bit tSaved.dies d = true ∧ (s.die d).fenced = true)
    ∧ (State.reset.saved = none ∧ State.reset.fresh = true ∧ tSaved.softError = false)
    ∧ (let x : Saved := { tSaved with softError := true }
       let s : State := { State.reset with saved := some x }
       s.saved = some x ∧ (∀ d < 4, bit x.dies d = true → (s.die d).fenced = false) ∧ x.softError = true)
    ∧ (let s : State := { tState with regs := { ckctl := 2 ^ 31 + 1 } }; s.taking = true ∧ s.gate = false ∧ s.drained = true)
    ∧ (let s : State := { State.reset with saved := some tSaved }
       s.fresh = true ∧ s.taking = false ∧ s.saved = some tSaved ∧ (∀ d < 4, bit tSaved.dies d = true → (s.die d).fenced = false)
        ∧ Memory.wf tSaved.mem = true ∧ kindOf 5 = .hbm ∧ bit tSaved.dies (homeDie 5) = true) := by
  refine ⟨by decide, by decide, by decide, rfl, ?_⟩
  decide +kernel

theorem test_hyps_HostRegisterEvents :
    (let s : State := { State.reset with queues := [(63, { en := true, log := 4, head := 2 ^ 32 - 1, tail := 2 ^ 32 - 1 })] }
     let x := s.queueOf 63
     (2 ^ x.log < (16 % 2 ^ 32 + 2 ^ 32 - x.head) % 2 ^ 32 ∧ (15 % 2 ^ 32 + 2 ^ 32 - x.head) % 2 ^ 32 ≤ 2 ^ x.log)
      ∧ x.en = true ∧ bits (2 ^ 31 + 5) 4 0 ≠ x.log ∧ bits (2 ^ 31 + 4) 4 0 = x.log ∧ ¬(bits (2 ^ 31 + 4) 4 0 < 4))
    ∧ ((State.reset.queueOf 63).en = false ∧ (State.reset.queueOf 63).tail = (State.reset.queueOf 63).head ∧ 256 % 256 = 0
      ∧ bit (2 ^ 31 + 16) 31 = true ∧ ¬(16 < bits (2 ^ 31 + 16) 4 0))
    -- a table command by its number: none is under way; this one is; another is
    ∧ ((State.reset.walkPorts 0 = [] ∧ (ArenaEntry.of (BitVec.ofNat 128 (2 ^ 87 + 16 * 2 ^ 82 + 2 ^ 50 + 2 ^ 5 + 1))).valid = true))
    ∧ (∀ t ∈ [0, 1, 2], bit (2 ^ 31 + t) 31 = true ∧ bits (2 ^ 31 + t) 1 0 = t ∧ bit State.reset.regs.tcmd 31 = false)
    ∧ (let s : State := { State.reset with regs := { tcmd := 2 ^ 31 + 1 } }
       bit s.regs.tcmd 31 = true ∧ s.regs.tcmd = 2 ^ 31 + 1 ∧ ∀ t ∈ [2 ^ 31, 2 ^ 31 + 65537, 2 ^ 31 + 2], bit t 31 = true ∧ s.regs.tcmd ≠ t)
    ∧ (State.reset.arenaStat (2 ^ 31) (ArenaEntry.of (16 * 2 ^ 82)) = 0 ∧ State.reset.exportStat (2 ^ 31 + 1) 0 = 0 ∧ State.reset.importStat (2 ^ 31 + 2) 0 = 0)
    ∧ (bit (2 ^ 31 + 3) 31 = true ∧ bits (2 ^ 31 + 3) 1 0 = 3)
    ∧ (let s : State := { State.reset with regs := { attStart := true, attNonce := List.replicate 32 7 } }
       s.regs.attStart = true ∧ s.regs.attNonce.length = 32 ∧ 40 ≤ 40)
    ∧ State.reset.regs.attStart = false ∧ (State.reset.island 39).holder = none
    -- BAR2: the last byte of the aperture in HBM, in an imported page and at a hole
    ∧ (let s := State.reset
       s.portsAt [2 ^ 36 - 1] = [] ∧ (kindOf (s.regs.apbase / 2 ^ 36 * 2 ^ 36 + (2 ^ 36 - 1))).plain = true ∧ s.hostBad (2 ^ 36 - 1) = false
        ∧ s.lost (2 ^ 36 - 1) = false ∧ s.lockedPa (2 ^ 36 - 1) = false)
    ∧ (let s : State := { sPeer gPeer with regs := { apbase := 0x1000000000000, fabEn := true, rdy := [0, 1, 0, 0] } }
       s.portsAt [0x1000000000004, 0x1000000000007] = [] ∧ kindOf (s.regs.apbase / 2 ^ 36 * 2 ^ 36 + 4) = .peer ∧ kindOf 0x1000000000007 = .peer
        ∧ s.noPlane = false ∧ s.importAt 0x1000000000004 = some (5, 0, 4))
    ∧ (let s : State := { State.reset with regs := { apbase := 0xC0000000000 } }
       s.portsAt [0xC0000000000] = [] ∧ kindOf (s.regs.apbase / 2 ^ 36 * 2 ^ 36) = .reserved)
    ∧ ({ sTable with arenas := [(0, BitVec.ofNat 128 (2 ^ 87 + 16 * 2 ^ 82 + 2 ^ 50 + 2 ^ 5 + 1))], slots := [(0, { slotFull with st := 2 })] } : State).lockedPa
        0x20000 = true := by
  decide +kernel

/-- A translation table in CXL memory behind a port that is not ready: an arena command waits for its walk. -/
theorem test_hyps_HostRegisterEvents_ports :
    let s : State := { State.reset with regs := { cxl := cxlOne, tbase := 0x100000000000 } }
    bits (2 ^ 31) 1 0 = 0 ∧ bit s.regs.tcmd 31 = false ∧ s.walkPorts 0 ≠ [] := by
  refine ⟨rfl, rfl, fun e => ?_⟩
  have hm : (0 : Nat) ∈ ({ State.reset with regs := { cxl := cxlOne, tbase := 0x100000000000 } } : State).walkPorts 0 := by
    unfold State.walkPorts State.portsAt
    rw [if_neg (by decide)]
    have hw : ∀ (s : State) (va t : Nat), t + 8 * (va / 2 ^ levelShift 0 % levelEntries 0) ∈ walkReads s va 5 0 t := by
      intro s va t; unfold walkReads; dsimp only; split <;> exact List.mem_cons_self
    refine List.mem_eraseDups.2 (List.mem_filterMap.2 ⟨0x100000000000, hw _ (65536 * 0) 0x100000000000, ?_⟩)
    rw [if_pos (by decide), cxlPort_one rfl (by decide)]
    exact if_neg (by decide)
  rw [e] at hm
  cases hm

/-- Command `op` with number 1 in core 0's mailbox, its arguments; the launch has armed the monitor and stands at a trap
or HALT. -/
def sMon (op arg0 stand : Nat) : State :=
  { hState with
    groups := [(0, tTrapped), (gkey 0 0 0 handlerSlot, hGroup)]
    ctxs := [(0, { tCtx with handler := 1, serving := if stand = 1 then some tTrap else none })]
    launches := [(0, { tLaunch with halted := stand == 2 })]
    cores := [(0, { mailbox := [(0, BitVec.ofNat 8 op), (2, 1)] ++ (if arg0 = 0 then [] else
      ((leBytes 8 arg0).mapIdx fun i b => (8 + i, b)).filter fun (x : Nat × Byte) => x.2 != 0) })] }
theorem test_hyps_MonitorCommands :
    (∀ op ∈ [1, 2, 3, 4, 5, 6, 7, 8], ∀ st ∈ [0, 1, 2], (sMon op 0 st).gate = false ∧ ((sMon op 0 st).monitorOf 0).isSome = true
       ∧ ((sMon op 0 st).launch? 0).map Launch.oneword = some none ∧ (sMon op 0 st).mailPending 0 = true ∧ (sMon op 0 st).mail 0 0 2 = op)
    -- s191 of the group in slot 0; an aligned word of the pinned page
    ∧ (∀ op ∈ [3, 4], let s := sMon op (2 ^ 14 + 191 * 64) 1
       ((s.monitorOf 0).bind fun c => (s.regArg c (2 ^ 14 + 191 * 64)).map fun x => (x.1, x.2.2)) = some (0, RReg.s 191, 0)
        ∧ s.mail 0 8 8 = 2 ^ 14 + 191 * 64)
    ∧ (let s := sMon 5 0x1FFF8 2
       s.mail 0 8 8 = 0x1FFF8 ∧ s.memArgBad tLaunch false 0x1FFF8 = false ∧ s.memArgBad tLaunch true 0x1FFF8 = false
        ∧ s.physBad (tLaunch.phys 0x1FFF8) 8 = false ∧ portsOf s tLaunch 0x1FFF8 8 = []
        ∧ (let t : State := { s with bad := [0xFFF] }
           (t.comeAfter (gkey 0 0 0 handlerSlot) allLanes .mem (tLaunch.phys 0x1FFF8) 8).physBad (tLaunch.phys 0x1FFF8) 8 = true)
        ∧ s.stores = [] ∧ s.atoms = [] ∧ s.hist = [] ∧ s.inRegion (gkey 0 0 0 handlerSlot) = false
        ∧ s.lost (tLaunch.phys 0x1FFF8) = false ∧ s.lost (tLaunch.phys 0x1FFF8 + 7) = false)
    -- m0; a slot that holds no group; addresses that are not aligned; a mask of RESUME past 32 bits and one within
    ∧ (let c : Ctx := { tCtx with handler := 1, serving := some tTrap }
       ((sMon 3 5 1).regArg c 5).isNone = true ∧ ((sMon 4 (3 * 2 ^ 14) 1).regArg c (3 * 2 ^ 14)).map (fun x => x.2.2.1) = some (.m 0))
    ∧ (sMon 5 0x1FFFC 1).memArgBad tLaunch false 0x1FFFC = true ∧ (sMon 5 0x1FFFC 1).memArgBad tLaunch true 0x1FFFC = true
    ∧ (∀ b ∈ [19, 20], let s : State := { sMon 2 0x10008 1 with cores := [(0, { mailbox := [(0, 2), (2, 1), (8, 8), (10, 1), (b, 1)] })] }
       s.mailPending 0 = true ∧ s.mail 0 0 2 = 2 ∧ s.mail 0 8 8 = 0x10008 ∧ s.mail 0 16 8 = 256 ^ (b - 16)) := by
  decide +kernel

/-- The host's write of a command word: one under way, none, one that the monitor does not know. -/
theorem test_hyps_HostRegisterEvents_mailbox :
    ((sMon 5 0 1).mailPending 0 = true ∧ ((sMon 5 0 1).monitorOf 0).isSome = true ∧ 1 ≤ (sMon 5 0 1).mail 0 0 2 ∧ (sMon 5 0 1).mail 0 0 2 ≤ 8)
    ∧ (let s : State := { sMon 5 0 1 with cores := [] }
       s.mailPending 0 = false ∧ (s.monitorOf 0).isSome = true ∧ bits (2 ^ 16 + 9) 15 0 = 9 ∧ bits (2 ^ 16 + 9) 31 16 ≠ s.mail 0 34 2)
    ∧ State.reset.monitorOf 0 = none := by
  decide +kernel

/-! Encoding and step -/

theorem test_hyps_NopWord : Issues .nop tState itOf ∧ itOf.sp.held = none ∧ bits 0x0040000000000001 63 62 = 0 ∧ bits 0x0040000000000001 61 54 = 1 :=
  ⟨issues _ _ _ _ (by rfl), by decide⟩

theorem test_hyps_EncodeThenDecode : (Instr.halt 0).isEvent = true ∧ Instr.nop.isEvent = false ∧ Instr.nop.wellFormed = true
    ∧ decodeWord 0x0040000000000000 = .ok .nop := ⟨rfl, rfl, rfl, rfl⟩

/-- A word at the PC: a good one, one of no row, a reserved type, one that only a field launch may run. -/
def sWord (w : Nat) : State := { tState with mem := Memory.writeAll [] 0x10000 (wordBytes w) }
theorem test_hyps_RefusedWordsTrap :
    (∀ w ∈ [0x0040000000000000, 0, 0x0040000000000001], (sWord w).iss = some itOf ∧ itOf.fetch (sWord w) = .word w)
    ∧ decodeWord 0x0040000000000000 = .ok .nop ∧ decodeWord 0 = .error .cause01 ∧ decodeWord 0x0040000000000001 = .error .cause02
    ∧ (∃ i, buildWord 0x0040000000000001 = some i) ∧ buildWord 0 = none ∧ (Instr.step).isEvent = false ∧ Instr.groupBad .step tGroup = true
    ∧ tState.iss = some itOf
    ∧ (let g : Group := { tGroup with bad := [RegId.key (.s 4)] }
       (tState g).iss = some (itOf g) ∧ Instr.groupBad (.mov (fw (ar .i32) (.s 5) (.s 4))) g = false
        ∧ (itOf g).readsBad (.mov (fw (ar .i32) (.s 5) (.s 4))) = true) := by
  refine ⟨by decide, rfl, rfl, rfl, ⟨_, rfl⟩, rfl, rfl, rfl, by decide, by decide⟩

def sNext (t : Turn) : State := { sWord 0x0040000000000000 with agenda := [t] }
theorem test_hyps_StepRunsTheDecodedInstruction :
    (let s := (sNext (.issue 0 0)).wake
     s.nextTurn.2 = .issue 0 0 ∧ s.nextTurn.1.ready 0 0 = true ∧ s.nextTurn.1.mayTake (s.nextTurn.1.rivals 0) (0, 0) = true
      ∧ (s.nextTurn.1.enter 0 0).iss = some itOf ∧ itOf.fetch (s.nextTurn.1.enter 0 0) = .word 0x0040000000000000)
    ∧ (sNext (.reads [(7, [3])])).wake.nextTurn.2 = .reads [(7, [3])]
    ∧ (sNext (.event .thermalGateBegin)).wake.nextTurn.2 = .event .thermalGateBegin ∧ Instr.thermalGateBegin.isEvent = true := by
  decide +kernel

theorem test_hyps_MemoryCanonicalStep : State.reset.memoryCanonical
    ∧ ∃ t, step (State.reset.withFetchWord 64 0x8041141012345678) = .next t ∧ Memory.wf t.mem = true := by
  refine ⟨rfl, ?_⟩
  have h : (match step (State.reset.withFetchWord 64 0x8041141012345678) with | .next t => Memory.wf t.mem | _ => false) = true := by decide +kernel
  split at h
  · exact ⟨_, by assumption, h⟩
  · cases h

end Sys2Proof.Tests
end

/-!
PROOFS. Failures and maintenance of the part (O51) and what reset leaves (O60): bits of the ready registers, what leaves
the dies alone, a die that is fenced with those that it cuts off, and checkpoints.
-/

namespace Sys2Proof.Machine

open Sys2Proof

/-! ### Bits of a number -/

theorem bit_eq_testBit (x i : Nat) : bit x i = x.testBit i := by
  rw [Nat.testBit_eq_decide_div_mod_eq]; rfl

/-- Setting a clear bit carries into no other bit. -/
theorem bit_add_two_pow {x i : Nat} (h : bit x i = false) (j : Nat) :
    bit (x + 2 ^ i) j = if j = i then true else bit x j := by
  simp only [bit_eq_testBit] at h ⊢
  rw [Nat.add_comm]
  rcases Nat.lt_trichotomy j i with hj | rfl | hj
  · rw [Nat.testBit_two_pow_add_gt hj, if_neg (Nat.ne_of_lt hj)]
  · rw [Nat.testBit_two_pow_add_eq, h]; simp
  · obtain ⟨m, rfl⟩ : ∃ m, j = i + 1 + m := ⟨j - (i + 1), by omega⟩
    have above : (2 ^ i + x) / 2 ^ (i + 1) = x / 2 ^ (i + 1) := by
      have hx : x / 2 ^ i % 2 = 0 := by simpa [Nat.testBit_eq_decide_div_mod_eq] using h
      rw [Nat.pow_succ, ← Nat.div_div_eq_div_mul, ← Nat.div_div_eq_div_mul, Nat.add_div_left _ (Nat.two_pow_pos i)]
      omega
    rw [if_neg (Nat.ne_of_gt hj), Nat.add_comm (i + 1) m, ← Nat.testBit_div_two_pow, above, Nat.testBit_div_two_pow]

theorem two_pow_le_of_bit {x i : Nat} (h : bit x i = true) : 2 ^ i ≤ x :=
  Nat.ge_two_pow_of_testBit (bit_eq_testBit x i ▸ h)

/-- Clearing a set bit borrows from no other bit. -/
theorem bit_sub_two_pow {x i : Nat} (h : bit x i = true) (j : Nat) :
    bit (x - 2 ^ i) j = if j = i then false else bit x j := by
  have hx : x - 2 ^ i + 2 ^ i = x := Nat.sub_add_cancel (two_pow_le_of_bit h)
  have clear : bit (x - 2 ^ i) i = false := by
    rw [← hx, bit_eq_testBit, Nat.add_comm, Nat.testBit_two_pow_add_eq, ← bit_eq_testBit] at h
    simpa using h
  by_cases hj : j = i
  · rw [if_pos hj, hj, clear]
  · have := bit_add_two_pow clear j
    rw [hx, if_neg hj] at this
    rw [if_neg hj, this]

theorem setBit_true {x i : Nat} (h : bit x i = false) : setBit x i true = x + 2 ^ i := by simp [setBit, h]

theorem bit_setBit (x i : Nat) (on : Bool) (j : Nat) : bit (setBit x i on) j = if j = i then on else bit x j := by
  unfold setBit
  split
  case isTrue h => split <;> simp_all
  case isFalse h =>
    cases on with
    | true => exact bit_add_two_pow (by simpa using h) j
    | false => exact bit_sub_two_pow (by simpa using h) j

/-! ### A field that every turn of a fold leaves -/

/-- A fold leaves a part of the state that its every turn leaves. -/
theorem State.foldl_field {α β : Type} (π : State → β) {f : State → α → State} (hf : ∀ s x, π (f s x) = π s)
    (l : List α) (s : State) : π (l.foldl f s) = π s :=
  State.foldl_keeps (P := fun s t => π t = π s) (fun _ => rfl) (fun h h' => h'.trans h) hf l s

/-! ### Ready bits (R352) -/

/-- A change of ready bits changes nothing else. -/
def State.readyPart (s t : State) : Prop := t = { s with regs := { s.regs with rdy := t.regs.rdy } }

theorem State.readyPart_refl (s : State) : s.readyPart s := rfl

theorem State.readyPart_trans {s t u : State} (h : s.readyPart t) (h' : t.readyPart u) : s.readyPart u := by
  unfold State.readyPart at *; rw [h', h]

theorem State.setReady_part (s : State) (reg i : Nat) (on : Bool) : s.readyPart (s.setReady reg i on) := rfl

theorem State.readyBit_setReady (s : State) (reg i : Nat) (on : Bool) (r j : Nat) :
    (s.setReady reg i on).readyBit r j =
      if r = reg ∧ reg < s.regs.rdy.length ∧ j = i then on else s.readyBit r j := by
  simp only [State.readyBit, State.setReady, modifyAt_getD]
  by_cases hr : r = reg ∧ reg < s.regs.rdy.length
  · rw [if_pos hr, bit_setBit]; simp [hr]
  · rw [if_neg hr, if_neg fun h => hr ⟨h.1, h.2.1⟩]

/-- A register that the list does not hold reads as 0. -/
theorem State.readyBit_of_le {s : State} {r : Nat} (h : s.regs.rdy.length ≤ r) (j : Nat) : s.readyBit r j = false := by
  simp [State.readyBit, List.getD, List.getElem?_eq_none h, bit]

theorem State.readyBit_clear (s : State) (reg i r j : Nat) :
    (s.setReady reg i false).readyBit r j = (s.readyBit r j && !decide (r = reg ∧ j = i)) := by
  rw [State.readyBit_setReady]
  by_cases h : r = reg ∧ j = i
  · obtain ⟨rfl, rfl⟩ := h
    by_cases hl : r < s.regs.rdy.length
    · simp [hl]
    · simp [State.readyBit_of_le (Nat.le_of_not_lt hl)]
  · rw [if_neg fun hh => h ⟨hh.1, hh.2.2⟩]; simp [h]

theorem modifyAt_congr {α : Type} {l : List α} {i : Nat} {f g : α → α} {d : α} (h : f (l.getD i d) = g (l.getD i d)) :
    modifyAt l i f = modifyAt l i g := by
  induction l generalizing i with
  | nil => rfl
  | cons a l ih =>
    cases i with
    | zero => simpa [modifyAt] using h
    | succ i => simpa [modifyAt] using ih h

/-- The register of a bit that rises takes its power of two. -/
theorem State.setReady_rises {s : State} {reg i : Nat} (h : s.readyBit reg i = false) :
    (s.setReady reg i true).regs.rdy = modifyAt s.regs.rdy reg fun x => x + 2 ^ i :=
  modifyAt_congr (setBit_true h)

/-- The ready bits of some planes fall (R349). -/
def State.planesDown (planes : Nat) (s : State) (ps : List Nat) : State :=
  ps.foldl (fun s p => if bit planes p then s.setReady 1 p false else s) s

theorem State.planesDown_part (planes : Nat) (ps : List Nat) (s : State) : s.readyPart (s.planesDown planes ps) := by
  refine State.foldl_keeps State.readyPart_refl State.readyPart_trans (fun s p => ?_) ps s
  split
  · exact s.setReady_part ..
  · exact s.readyPart_refl

theorem State.readyBit_planesDown (planes : Nat) (ps : List Nat) (s : State) (p : Nat) :
    (s.planesDown planes ps).readyBit 1 p = (s.readyBit 1 p && !(decide (p ∈ ps) && bit planes p)) := by
  induction ps generalizing s with
  | nil => simp [State.planesDown]
  | cons q ps ih =>
    rw [State.planesDown, List.foldl_cons, ← State.planesDown, ih]
    by_cases hq : bit planes q = true
    · rw [if_pos hq, State.readyBit_clear]
      by_cases hp : p = q
      · subst hp; simp [hq]
      · simp [hp]
    · rw [if_neg hq]
      by_cases hp : p = q
      · subst hp; simp [hq]
      · simp [hp]


/-! ### What leaves the dies alone

Weight dies' bytes, %wall and the fence of a die: only the events that name a die change them. -/

theorem State.memoryPart_dies {s t : State} (h : s.memoryPart t) : t.dies = s.dies := by
  unfold State.memoryPart at h; rw [h]

@[simp] theorem State.writeAs_dies (s : State) (w : Stamp) (pa : Nat) (bs : List Byte) (tag poisoned : Bool) :
    (s.writeAs w pa bs tag poisoned).dies = s.dies := State.memoryPart_dies (s.writeAs_part ..)

@[simp] theorem State.imageStore_dies (s : State) (n core off : Nat) (bs : List Byte) :
    (s.imageStore n core off bs).dies = s.dies := State.memoryPart_dies (s.imageStore_part ..)

@[simp] theorem State.imageBad_dies (s : State) (n core off len : Nat) : (s.imageBad n core off len).dies = s.dies :=
  State.memoryPart_dies (s.imageBad_part ..)

@[simp] theorem State.imageQueue_dies (s : State) (n core : Nat) : (s.imageQueue n core).dies = s.dies :=
  State.memoryPart_dies (s.imageQueue_part ..)

@[simp] theorem State.hostDone_dies (s : State) (ids : List Nat) : (s.hostDone ids).dies = s.dies := rfl

@[simp] theorem State.drainIf_dies (s : State) (f : Store → Bool) : (s.drainIf f).dies = s.dies :=
  State.memoryPart_dies (t := { s.drainIf f with stores := s.stores }) (s.drainIf_part f)

@[simp] theorem State.drainIds_dies (s : State) (ids : List Nat) : (s.drainIds ids).dies = s.dies := s.drainIf_dies _

@[simp] theorem State.drain_dies (s : State) (k : Nat) : (s.drain k).dies = s.dies := s.drainIf_dies _

@[simp] theorem State.drainAt_dies (s : State) (k : Nat) (lanes : Mask) (pa n : Nat) :
    (s.drainAt k lanes pa n).dies = s.dies := by
  unfold State.drainAt
  split
  · rfl
  · exact s.drainIf_dies _

@[simp] theorem State.slicePut_dies (s : State) (w : Stamp) (launch core off : Nat) (bs : List Byte) :
    (s.slicePut w launch core off bs).dies = s.dies := by
  simp [State.slicePut, State.record]

@[simp] theorem State.sliceBy_dies (s : State) (a : Agent) (launch core off : Nat) (bs : List Byte) :
    (s.sliceBy a launch core off bs).dies = s.dies := State.slicePut_dies ..

@[simp] theorem State.rmwWrite_dies (s : State) (w : Stamp) (sp : Space) (a : Nat) (bs : List Byte) :
    (s.rmwWrite w sp a bs).dies = s.dies := by
  cases sp <;> simp [State.rmwWrite]

@[simp] theorem State.see_dies (s : State) (k : Nat) (lanes : Mask) (ids : List Nat) :
    (s.see k lanes ids).dies = s.dies := by
  unfold State.see
  split <;> rfl

@[simp] theorem State.acquire_dies (s : State) (k : Nat) (lanes : Mask) (n : Obs) (rels : List Rel) :
    (s.acquire k lanes n rels).dies = s.dies := by
  unfold State.acquire
  split
  · rfl
  · exact s.see_dies ..

@[simp] theorem State.didRead_dies (s : State) (k : Nat) (lanes : Mask) (acq : Option Obs) (strong : Bool)
    (srcs : List (Nat × Nat)) (rels : List Rel) : (s.didRead k lanes acq strong srcs rels).dies = s.dies := by
  cases acq with
  | some n => simp [State.didRead, State.acquired]
  | none => simp only [State.didRead]; split <;> rfl

@[simp] theorem State.deliver_dies (s : State) (k j req : Nat) (outs : List RegId) (n x : Nat) :
    (s.deliver k j req outs n x).dies = s.dies := rfl

@[simp] theorem State.performAtom_dies (s : State) (a : Atom) : (s.performAtom a).dies = s.dies := by
  cases hs : a.space <;> cases hr : a.req <;> simp [State.performAtom, hs, hr, apply_ite State.dies]

@[simp] theorem State.drainAtoms_dies (s : State) (f : Atom → Bool) : (s.drainAtoms f).dies = s.dies :=
  State.foldl_field State.dies State.performAtom_dies _ _

/-! Publication and pushes (R46, R48, R51, R55). -/

@[simp] theorem State.pushStep_dies (s : State) (g : Group) (l : Launch) (b step : Nat) (final : Bool) :
    (s.pushStep g l b step final).dies = s.dies := by
  refine State.foldl_field State.dies (fun s d => ?_) _ s
  dsimp only
  split
  · rfl
  · unfold State.sendAway; split <;> rfl

@[simp] theorem State.publish_dies (s : State) (k : Nat) : (s.publish k).dies = s.dies := by
  unfold State.publish
  split
  · rfl
  · split
    · simp only [State.pushStep_dies]; split <;> rfl
    · rfl

@[simp] theorem State.haloBytes_dies (s : State) (launch core : Nat) (r : Record) (vals : List (Nat × Word)) :
    (s.haloBytes launch core r vals).dies = s.dies := by
  unfold State.haloBytes
  split
  · rfl
  · dsimp only
    split
    · rfl
    · exact State.foldl_field State.dies (fun s v => s.sliceBy_dies ..) vals s

@[simp] theorem State.publishStep_dies (s : State) (k : Nat) : (s.publishStep k).dies = s.dies := by
  simp only [State.publishStep]
  split
  · simp
  · split
    · split <;> simp
    · simp

@[simp] theorem State.finalPush_dies (s : State) (k : Nat) : (s.finalPush k).dies = s.dies := by
  unfold State.finalPush
  split
  · rfl
  · split
    · exact s.pushStep_dies ..
    · rfl

/-! Groups that end, and traps (R33, R291, R397, R403). -/

@[simp] theorem State.exitCells_dies (s : State) (k : Nat) (ls : Mask) : (s.exitCells k ls).dies = s.dies := rfl

@[simp] theorem State.dropHeld_dies (s : State) (ts : List Nat) : (s.dropHeld ts).dies = s.dies := rfl

@[simp] theorem State.dropGroup_dies (s : State) (k : Nat) : (s.dropGroup k).dies = s.dies := by
  unfold State.dropGroup
  split
  · rfl
  · next g _ =>
    have lease : ∀ c : Bool, (if c then s.modIsland (islandOf g.core) Island.endLease else s).dies = s.dies := by
      intro c; cases c <;> rfl
    cases g.region <;> dsimp only <;> split <;> simp [lease]

@[simp] theorem State.dropGroups_dies (s : State) (ks : List Nat) : (s.dropGroups ks).dies = s.dies :=
  State.foldl_field State.dies State.dropGroup_dies ks s

@[simp] theorem State.endByFault_dies (s : State) (launch : Nat) : (s.endByFault launch).dies = s.dies := by
  simp [State.endByFault]

@[simp] theorem State.vector_dies (s : State) (v : Nat) : (s.vector v).dies = s.dies := rfl

@[simp] theorem State.mailEvent_dies (s : State) (core ev rstat wher d0 d1 d2 : Nat) :
    (s.mailEvent core ev rstat wher d0 d1 d2).dies = s.dies := by
  simp [State.mailEvent, State.mailWrite]

@[simp] theorem State.raise_dies (s : State) (k j : Nat) (t : Trap) : (s.raise k j t).dies = s.dies := by
  unfold State.raise
  split
  · rfl
  · split
    · rfl
    · split
      · simp
      · dsimp only
        split <;> simp

@[simp] theorem State.raiseWrong_dies (s : State) (k j : Nat) : (s.raiseWrong k j).dies = s.dies := by
  unfold State.raiseWrong
  split
  · rfl
  · split <;> simp

@[simp] theorem State.teamCheck_dies (s : State) (launch team : Nat) : (s.teamCheck launch team).dies = s.dies := by
  unfold State.teamCheck
  split <;> rfl

@[simp] theorem State.mmaqCheck_dies (s : State) (launch core : Nat) : (s.mmaqCheck launch core).dies = s.dies := by
  refine State.foldl_field State.dies (fun s h => ?_) _ s
  split
  · rfl
  · exact s.raise_dies ..

@[simp] theorem State.after_dies (s : State) (k : Nat) : (s.after k).dies = s.dies := by
  have wrong (js : List Nat) : (js.foldl (fun s j => s.raiseWrong k j) s).dies = s.dies :=
    State.foldl_field State.dies (fun s j => s.raiseWrong_dies k j) js s
  simp only [State.after]
  split
  · exact wrong _
  · split
    · exact wrong _
    · split
      · simp [wrong]
      · split <;> simp [wrong]

@[simp] theorem State.resume_dies (s : State) (k j : Nat) : (s.resume k j).dies = s.dies := by
  simp [State.resume]

/-! ### The loss of a die (R439, R440) -/

@[simp] theorem State.degrade_dies (s : State) (n : Nat) : (s.degrade n).dies = s.dies := by
  simp only [State.degrade, State.modLaunch_dies]
  exact State.foldl_field State.dies (fun s h => by simp) _ s

@[simp] theorem State.fieldLost_dies (s : State) (d n : Nat) (l : Launch) : (s.fieldLost d n l).dies = s.dies := by
  simp only [State.fieldLost]
  exact State.foldl_field State.dies (fun s p => State.modCtx_dies ..) _ s

@[simp] theorem State.launchLost_dies (s : State) (d n : Nat) (l : Launch) : (s.launchLost d n l).dies = s.dies := by
  simp only [State.launchLost, State.degrade_dies, State.modLaunch_dies]
  split <;> simp


/-! ### A die that is fenced, and those that it cuts off (R438, R439) -/

@[simp] theorem State.startTake_dies (s : State) (r : Bool) : (s.startTake r).dies = s.dies := by
  unfold State.startTake; split <;> rfl

@[simp] theorem State.startTake_msix (s : State) (r : Bool) : (s.startTake r).msix = s.msix := by
  unfold State.startTake; split <;> rfl

@[simp] theorem State.startTake_mem (s : State) (r : Bool) : (s.startTake r).mem = s.mem := by
  unfold State.startTake; split <;> rfl

/-- A take that starts sets GO and keeps RESTORE at what it is given (R447). -/
theorem startTake_bits (r : Bool) (c : Nat) :
    let x := 2 ^ 31 + b2n r * 2 ^ 30 + bits c 11 8 * 256 + 1
    bit x 31 = true ∧ bit x 30 = r := by
  have hb : bits c 11 8 < 16 := Nat.mod_lt _ (by decide)
  cases r <;> simp only [bit, b2n, beq_iff_eq, beq_eq_false_iff_ne] <;> constructor <;> simp <;> omega

theorem State.startTake_of_taking {s : State} (h : s.taking = true) (r : Bool) : s.startTake r = s := by
  simp [State.startTake, h]

theorem State.taking_startTake (s : State) (r : Bool) : (s.startTake r).taking = true := by
  unfold State.startTake
  split
  · assumption
  · exact (startTake_bits r _).1

/-- A take that starts changes CKCTL and nothing else. -/
theorem State.startTake_part (s : State) (r : Bool) :
    s.startTake r = { s with regs := { s.regs with ckctl := (s.startTake r).regs.ckctl } } := by
  unfold State.startTake; split <;> rfl

theorem State.restoreBit_startTake {s : State} (h : s.taking = false) (r : Bool) : (s.startTake r).restoreBit = r := by
  simp only [State.startTake, h, Bool.false_eq_true, if_false]
  exact (startTake_bits r _).2

/-- The ready bits of a die fall (R439). -/
def State.dieNotReady (s : State) (d : Nat) : State :=
  (dieBits d).foldl (fun s (b : Nat × Nat) => s.setReady b.1 b.2 false) s

theorem State.dieNotReady_part (s : State) (d : Nat) : s.readyPart (s.dieNotReady d) :=
  State.foldl_keeps State.readyPart_refl State.readyPart_trans (fun s _ => s.setReady_part ..) _ s

/-- Whether a launch has a core of this device on the die (R440). -/
def State.ownsOn (s : State) (d : Nat) (l : Launch) : Bool :=
  l.cores.any fun e => e.dev == s.regs.devno && dieOf e.core == d

/-- Every launch with a core on the die meets its loss (R440). -/
def State.launchesLost (s : State) (d : Nat) : State :=
  s.launches.foldl (fun t (x : Nat × Launch) => if s.ownsOn d x.2 then t.launchLost d x.1 x.2 else t) s

/-- The leases of the die's islands end (R155). -/
def State.leasesEnded (s : State) (d : Nat) : State :=
  (List.range 10).foldl (fun s i => s.modIsland (10 * d + i) Island.endLease) s

/-- What a die holds is lost with it, and regions with a version line there unwind, of the launches that have a core
there in s0 (R440). -/
def State.contentsLost (s : State) (d : Nat) (s0 : State) : State :=
  { s with
    mem := s.mem.filter fun (c : Host.Cell) => !(kindOf c.1 == LocKind.hbm && homeDie c.1 == d)
    tags := s.tags.filter fun w => homeDie (4 * w) != d
    units := s.units.filter fun (x : Nat × MatUnit) => dieOf (x.1 / 4) != d
    threads := s.threads.filter fun (x : Nat × Thread) => !x.2.stopsOn d
    hostWrites := s.hostWrites.filter fun w => homeDie w.addr != d
    groups := s.groups.map fun (x : Nat × Group) =>
      (x.1, if (match s0.launch? x.2.launch with | some l => s0.ownsOn d l | none => false) then x.2.versionLost d
            else x.2) }

/-- A fence (R439, R440): ready bits, launches and leases; then what the die holds; then the mark, the take and the
vector. -/
theorem State.fenceDie_stages (s : State) (d : Nat) :
    ∃ r, s.fenceDie d =
      (((((((s.dieNotReady d).launchesLost d).leasesEnded d).contentsLost d (s.dieNotReady d)).modDie d fun x =>
        { x with fenced := true }).startTake r).vector 66) :=
  ⟨_, rfl⟩

theorem State.dieNotReady_dies (s : State) (d : Nat) : (s.dieNotReady d).dies = s.dies := by rw [s.dieNotReady_part d]

theorem State.launchesLost_dies (s : State) (d : Nat) : (s.launchesLost d).dies = s.dies := by
  refine State.foldl_field State.dies (fun t x => ?_) _ s
  split
  · exact t.launchLost_dies ..
  · rfl

theorem State.leasesEnded_dies (s : State) (d : Nat) : (s.leasesEnded d).dies = s.dies :=
  State.foldl_field State.dies (fun t _ => t.modIsland_dies ..) _ s

/-- With no launch there is none to lose a die. -/
theorem State.launchesLost_of_nil {s : State} (h : s.launches = []) (d : Nat) : s.launchesLost d = s := by
  rw [State.launchesLost, h]; rfl

theorem State.leasesEnded_msix (s : State) (d : Nat) : (s.leasesEnded d).msix = s.msix :=
  State.foldl_field State.msix (fun t _ => t.modIsland_msix ..) _ s

theorem State.leasesEnded_mem (s : State) (d : Nat) : (s.leasesEnded d).mem = s.mem :=
  State.foldl_field State.mem (fun t _ => t.modIsland_mem ..) _ s

/-- A fence marks its die and leaves the other dies as they are. -/
theorem State.die_fenceDie (s : State) (d x : Nat) :
    (s.fenceDie d).die x = if x = d then { s.die d with fenced := true } else s.die x := by
  obtain ⟨r, hr⟩ := s.fenceDie_stages d
  simp only [hr, State.die, State.vector_dies, State.startTake_dies, State.modDie, State.contentsLost,
    State.leasesEnded_dies, State.launchesLost_dies, State.dieNotReady_dies, Map.get_put]

/-- The dies that are fenced stay so. -/
theorem State.fenced_fenceDie (s : State) (d x : Nat) :
    ((s.fenceDie d).die x).fenced = (decide (x = d) || (s.die x).fenced) := by
  rw [State.die_fenceDie]
  split <;> simp_all

theorem State.fenced_foldl_fenceDie (ds : List Nat) (s : State) (x : Nat) :
    ((ds.foldl State.fenceDie s).die x).fenced = (decide (x ∈ ds) || (s.die x).fenced) := by
  induction ds generalizing s with
  | nil => simp
  | cons d ds ih =>
    rw [List.foldl_cons, ih, State.fenced_fenceDie]
    by_cases h : x = d <;> simp [h]

/-- The dies that a fence may still cut off: die 0 is the lower of every pair (R438). -/
def State.standing (s : State) : List Nat := [1, 2, 3].filter fun d => !(s.die d).fenced

theorem State.length_standing_le (s : State) : s.standing.length ≤ 3 := List.length_filter_le ..

/-- What is cut off still stands. -/
theorem State.mem_standing_of_mem_cutOff {s : State} {d : Nat} (h : d ∈ s.cutOff) : d ∈ s.standing := by
  simp only [State.cutOff, List.mem_filter, List.mem_range, Bool.and_eq_true, List.any_eq_true] at h
  obtain ⟨hd, stands, a, ha, -⟩ := h
  have : d = 1 ∨ d = 2 ∨ d = 3 := by omega
  exact List.mem_filter.mpr ⟨by simpa only [List.mem_cons, List.not_mem_nil, or_false] using this, stands⟩

/-- After a round what was cut off stands no more. -/
theorem State.standing_round (s : State) :
    (s.cutOff.foldl State.fenceDie s).standing = s.standing.filter fun d => !decide (d ∈ s.cutOff) := by
  simp only [State.standing, State.fenced_foldl_fenceDie, List.filter_filter, Bool.not_or]

/-- A round that cuts off any die leaves fewer that stand. -/
theorem State.length_standing_round {s : State} (h : s.cutOff ≠ []) :
    (s.cutOff.foldl State.fenceDie s).standing.length < s.standing.length := by
  obtain ⟨d, hd⟩ := List.exists_mem_of_ne_nil _ h
  rw [State.standing_round, List.length_filter_lt_length_iff_exists]
  exact ⟨d, State.mem_standing_of_mem_cutOff hd, by simp only [hd, decide_true, Bool.not_true, Bool.false_eq_true,
    not_false_eq_true]⟩

theorem State.fenceCut_of_cutOff_nil {s : State} (h : s.cutOff = []) (n : Nat) : State.fenceCut n s = s := by
  induction n with
  | zero => rfl
  | succ n ih => rw [State.fenceCut, h]; exact ih

/-- As many rounds as dies stand leave none that is cut off. -/
theorem State.cutOff_fenceCut {n : Nat} {s : State} (h : s.standing.length ≤ n) : (State.fenceCut n s).cutOff = [] := by
  induction n generalizing s with
  | zero =>
    refine Decidable.byContradiction fun (hne : s.cutOff ≠ []) => ?_
    have := State.length_standing_round hne
    omega
  | succ n ih =>
    by_cases hc : s.cutOff = []
    · rwa [State.fenceCut_of_cutOff_nil hc]
    · exact ih (by have := State.length_standing_round hc; omega)

/-! ### What a filter by address leaves of memory -/

theorem Map.find?_filter_key {α : Type} (m : Map α) (f : Nat → Bool) (k : Nat) :
    Map.find? (m.filter fun p => f p.1) k = if f k then Map.find? m k else none := by
  induction m with
  | nil => simp
  | cons p m ih =>
    rw [List.filter_cons, Map.find?_cons]
    by_cases hk : k = p.1
    · by_cases hp : f p.1 = true <;> simp [hk ▸ ih, Map.find?_cons, hk, hp]
    · by_cases hp : f p.1 = true <;> simp [ih, Map.find?_cons, hk, hp]

theorem Memory.read_filter (m : List Host.Cell) (f : Nat → Bool) (a : Nat) :
    Memory.read (m.filter fun c => f c.1) a = if f a then Memory.read m a else memDefault := by
  rw [Memory.read, Map.get, Map.find?_filter_key]
  split <;> rfl

/-- The first fence where nothing runs: one vector, and HBM homed on the die reads as memory that nothing has written. -/
theorem State.fenceDie_idle {s : State} (h : s.launches = []) (d : Nat) :
    (s.fenceDie d).msix = s.msix ++ [66]
    ∧ ∀ a, Memory.read (s.fenceDie d).mem a =
        if kindOf a = .hbm ∧ homeDie a = d then memDefault else Memory.read s.mem a := by
  have none : (s.dieNotReady d).launches = [] := by rw [s.dieNotReady_part d]; exact h
  have msix : (s.dieNotReady d).msix = s.msix := by rw [s.dieNotReady_part d]
  have mem : (s.dieNotReady d).mem = s.mem := by rw [s.dieNotReady_part d]
  obtain ⟨r, hr⟩ := s.fenceDie_stages d
  rw [hr, State.launchesLost_of_nil none]
  refine ⟨?_, fun a => ?_⟩
  · simp [State.vector, State.contentsLost, State.leasesEnded_msix, msix]
  · simp only [State.vector, State.startTake_mem, State.modDie_mem, State.contentsLost, State.leasesEnded_mem, mem]
    rw [Memory.read_filter s.mem fun x => !(kindOf x == LocKind.hbm && homeDie x == d)]
    by_cases hk : kindOf a = .hbm <;> by_cases hd : homeDie a = d <;> simp [hk, hd]

theorem State.taking_fenceDie (s : State) (d : Nat) : (s.fenceDie d).taking = true := by
  obtain ⟨r, hr⟩ := s.fenceDie_stages d
  rw [hr]
  exact State.taking_startTake _ r

/-! ### Checkpoints (R447 to R449) -/

/-- Whether all has come to rest does not depend on CKCTL. -/
theorem State.drained_startTake (s : State) (r : Bool) : (s.startTake r).drained = s.drained := by
  rw [State.startTake_part]; rfl

theorem mem_wanted {id : Nat} {before : List Nat} {l : List (Nat × List Nat)} (h : (id, before) ∈ l) {need : List Nat}
    (hn : id ∈ need) : id ∈ wanted need l := by
  induction l generalizing need with
  | nil => simp at h
  | cons p l ih =>
    obtain ⟨q, b⟩ := p
    simp only [wanted]
    rcases List.mem_cons.mp h with h | h
    · obtain ⟨rfl, rfl⟩ := Prod.mk.inj h
      simp [hn]
    · split
      · exact List.mem_cons_of_mem _ (ih h (List.mem_append_left _ hn))
      · exact ih h hn

/-- Where every pending store is performed, none is left. -/
theorem State.drainAll_stores (s : State) : (s.drainIf fun _ => true).stores = [] := by
  have part (l : List Store) (t : State) : (l.foldl State.performOne t).stores = t.stores :=
    State.foldl_field State.stores (fun s st => by rw [s.performOne_part st]) l t
  have all : s.stores.filter (fun _ => true) = s.stores := List.filter_eq_self.mpr fun _ _ => rfl
  simp only [State.drainIf, part, all, List.filter_eq_nil_iff]
  intro st hst
  have go : st.id ∈ wanted (s.stores.map (·.id)) (s.stores.reverse.map Store.needs) :=
    mem_wanted (before := (Store.needs st).2) (List.mem_map.mpr ⟨st, List.mem_reverse.mpr hst, rfl⟩)
      (List.mem_map_of_mem hst)
  simp only [List.contains_eq_mem, go, decide_true, Bool.not_true, Bool.false_eq_true, not_false_eq_true]

/-- Steps 3 and 4 of a take: the pending writes are performed and the resident contexts spilled (R448). -/
def State.atRest (s : State) : State :=
  let s := s.drainIf fun _ => true
  (s.ctxs.filter fun (x : Nat × Ctx) => x.2.res != .saved).foldl (fun s (x : Nat × Ctx) => s.spill x.2.launch x.2.core) s

/-- A take at rest has changed memory, its marks and order, the writes on their way and the counter of free values. -/
def State.restPart (s t : State) : Prop := s.memoryPart { t with stores := s.stores, free := s.free }

theorem State.memoryPart_stores {s t : State} (h : s.memoryPart t) : t.stores = s.stores := by
  unfold State.memoryPart at h; rw [h]

/-- What a take reads of the machine is what the machine was (R448). -/
theorem State.restPart_spec {s t : State} (h : s.restPart t) :
    t.regs = s.regs ∧ t.ctxs = s.ctxs ∧ t.launches = s.launches ∧ t.slots = s.slots := by
  unfold State.restPart State.memoryPart at h
  cases s; cases t
  simp_all

theorem State.restPart_trans {s t u : State} (h : s.restPart t) (h' : t.restPart u) : s.restPart u := by
  unfold State.restPart State.memoryPart at *
  cases s; cases t; cases u
  simp_all

theorem State.restPart_drainIf (s : State) (f : Store → Bool) : s.restPart (s.drainIf f) := by
  have h := s.drainIf_part f
  unfold State.restPart State.memoryPart at *
  generalize s.drainIf f = t at h
  cases s; cases t
  simp_all

theorem State.restPart_spill (s : State) (n core : Nat) : s.restPart (s.spill n core) := by
  have h := s.spill_part n core
  unfold State.restPart State.memoryPart at *
  generalize s.spill n core = t at h
  cases s; cases t
  simp_all

theorem State.spill_stores (s : State) (n core : Nat) : (s.spill n core).stores = s.stores :=
  State.memoryPart_stores (t := { s.spill n core with free := s.free }) (s.spill_part n core)

theorem State.atRest_part (s : State) : s.restPart s.atRest :=
  State.restPart_trans (s.restPart_drainIf _) (State.foldl_keeps (P := State.restPart) (fun _ => rfl) State.restPart_trans
    (fun s (x : Nat × Ctx) => s.restPart_spill x.2.launch x.2.core) _ _)

theorem State.atRest_stores (s : State) : s.atRest.stores = [] :=
  (State.foldl_field State.stores (fun s (x : Nat × Ctx) => s.spill_stores x.2.launch x.2.core) _ _).trans s.drainAll_stores

theorem State.diesUp_lt (s : State) : s.diesUp < 16 := by
  have le (d : Nat) : (if (s.die d).fenced then 0 else 2 ^ d) ≤ 2 ^ d := by split <;> simp
  have := le 0; have := le 1; have := le 2; have := le 3
  simp only [State.diesUp, List.range, List.range.loop, List.map_cons, List.map_nil, List.sum_cons, List.sum_nil]
  omega

/-- A take that ends clears GO (R448). -/
theorem bit_takeDone (r : Bool) {dies : Nat} (h : dies < 16) : bit (b2n r * 2 ^ 30 + 256 * dies) 31 = false := by
  have : b2n r ≤ 1 := by cases r <;> decide
  rw [bit, Nat.div_eq_of_lt (by omega)]
  rfl

theorem State.taking_take (s : State) : s.take.taking = false := bit_takeDone _ (State.diesUp_lt _)

/-- What the region holds after a take (R448), and what the take leaves of the machine. -/
theorem State.take_spec (s : State) :
    ∃ x, s.take.saved = some x ∧ x.groups = s.take.groups ∧ x.ctxs = s.ctxs ∧ x.launches = s.launches
      ∧ x.slots = s.slots ∧ x.tbase = s.regs.tbase
      ∧ s.take.regs.ckcount = (s.regs.ckcount + 1) % 2 ^ 64 ∧ s.take.stores = [] ∧ s.take.hostWrites = [] := by
  obtain ⟨regs, ctxs, launches, slots⟩ := State.restPart_spec s.atRest_part
  exact ⟨_, rfl, rfl, ctxs, launches, slots, congrArg Regs.tbase regs,
    congrArg (fun r : Regs => (r.ckcount + 1) % 2 ^ 64) regs, s.atRest_stores, rfl⟩

/-! What a restore brings back. -/

/-- A rising list holds no key below its bound. -/
theorem Map.find?_of_lt {α : Type} {m : Map α} {lo k : Nat} (h : Map.sortedFrom lo m = true) (hk : k < lo) :
    Map.find? m k = none := by
  induction m generalizing lo with
  | nil => rfl
  | cons p m ih =>
    obtain ⟨x, b⟩ := p
    simp only [Map.sortedFrom, Bool.and_eq_true, decide_eq_true_eq] at h
    rw [Map.find?_cons, if_neg (by omega)]
    exact ih h.2 (by omega)

/-- Cells of a rising list that are written over memory: a listed address reads as the list says, another as before. -/
theorem Memory.read_foldl_write {l : List Host.Cell} {lo : Nat} (h : Map.sortedFrom lo l = true) (m : List Host.Cell)
    (a : Nat) : Memory.read (l.foldl (fun m (c : Host.Cell) => Memory.write m c.1 c.2) m) a =
      (Map.find? l a).getD (Memory.read m a) := by
  induction l generalizing lo m with
  | nil => rfl
  | cons c l ih =>
    obtain ⟨x, b⟩ := c
    simp only [Map.sortedFrom, Bool.and_eq_true, decide_eq_true_eq] at h
    rw [List.foldl_cons, ih h.2, Map.find?_cons, Memory.read_write]
    by_cases hx : a = x
    · rw [hx, Map.find?_of_lt h.2 (Nat.lt_succ_self x)]; simp
    · rw [if_neg hx, if_neg hx]

/-- A restore gives HBM of the dies that were saved what the region holds (R449). -/
theorem State.read_restored (s : State) {x : Saved} (h : Memory.wf x.mem = true) {a : Nat} (hk : kindOf a = .hbm)
    (hd : bit x.dies (homeDie a) = true) : Memory.read (s.restored x).mem a = Memory.read x.mem a := by
  have sorted : Map.sortedFrom 0 x.mem = true := by
    simp only [Memory.wf, Map.wf, Bool.and_eq_true] at h
    exact h.1
  refine (Memory.read_foldl_write sorted _ a).trans ?_
  rw [Memory.read_filter s.mem fun pa => !(kindOf pa == LocKind.hbm && bit x.dies (homeDie pa))]
  simp [hk, hd, Memory.read, Map.get]

/-- A restore leaves the fenced sub-arrays of the matrix units as the self-tests found them (R431, R449). -/
theorem State.fenced_restored (s : State) (x : Saved) (core u : Nat) :
    ((s.restored x).unitOf core u).fenced = (s.unitOf core u).fenced := by
  refine List.foldlRecOn x.units _
    (motive := fun (m : Map MatUnit) => (Map.get m {} (ukey core u)).fenced = (s.unitOf core u).fenced) rfl
    fun m ih p _ => ?_
  rw [Map.get_put]
  split
  · rename_i hp; rw [← ih, hp]
  · exact ih

theorem State.res_restored (s : State) (x : Saved) : ∀ p ∈ (s.restored x).ctxs, p.2.res = .saved := by
  intro p hp
  obtain ⟨q, -, rfl⟩ := List.mem_map.mp hp
  rfl


/-! ### The events of failures and maintenance -/

/-- An event whose condition holds has its effect. -/
theorem occurs_event {ok : Bool} (h : ok = true) (t s : State) : occurs (event ok t) s = .next t := by
  simp [occurs, event, h]

/-- DIE_FENCE of a die that stands (R438, R439). -/
theorem exec_dieFence_standing {s : State} {d : Nat} (hd : d < 4) (h : (s.die d).fenced = false) :
    exec (.dieFence d) s = .next (State.fenceCut 3 (s.fenceDie d)) := by
  rw [exec_dieFence]
  exact occurs_event (by simp [hd, h]) ..

theorem State.fenceCut_three (s : State) : (State.fenceCut 3 s).cutOff = [] := State.cutOff_fenceCut s.length_standing_le

/-- LINK_FAILURE of a link that the package has (R436 to R438). -/
theorem exec_linkFailure_die {s : State} {a b : Nat} (ha : a < b) (hb : b < 4) :
    exec (.linkFailure (.die a b)) s = .next (State.fenceCut 3
      ({ s with failedLinks := if s.failedLinks.contains (Link.die a b) then s.failedLinks
                               else s.failedLinks ++ [Link.die a b] }.vector 66)) := by
  rw [exec_linkFailure]
  exact occurs_event (by simp [ha, hb]) ..

/-- DUPLICATE_DEVICE_NUMBER where the ports are on and some plane refuses (R349). -/
theorem exec_duplicateDeviceNumber_on {s : State} {planes : Nat} (on : s.regs.fabEn = true)
    (refused : planes % 2 ^ 32 ≠ 0) :
    exec (.duplicateDeviceNumber planes) s = .next
      (let s1 := s.planesDown planes (List.range 32)
       { s1 with regs := { s1.regs with
          fabDup := true, fabRefused := Nat.lor s.regs.fabRefused (planes % 2 ^ 32) } }.vector 66) := by
  rw [exec_duplicateDeviceNumber]
  exact occurs_event (by simpa [on] using refused) ..

/-- READY_BIT_RISE of a bit that may rise and is down (R342, R352). -/
theorem exec_readyBitRise_down {s : State} {reg i : Nat} (may : s.mayRise reg i = true) (down : s.readyBit reg i = false) :
    ∃ s' : State, s'.regs = s.regs ∧ s'.msix = s.msix
      ∧ exec (.readyBitRise reg i) s = .next ((s'.setReady reg i true).vector 64) := by
  refine ⟨if reg = 0 ∧ 28 ≤ i then { s with cxlDown := s.cxlDown.filter (· ≠ i - 28) } else s, ?_, ?_, ?_⟩
  · split <;> rfl
  · split <;> rfl
  · rw [exec_readyBitRise]
    exact occurs_event (by simp [may, down]) ..

theorem exec_powerLossWarning_eq (s : State) : exec .powerLossWarning s = .next (s.startTake s.restoreBit) := by
  rw [exec_powerLossWarning]
  exact occurs_event rfl ..

theorem exec_checkpointTake_eq (s : State) : exec .checkpointTake s = .next
    (if (s.startTake false).drained && !(s.startTake false).gate then (s.startTake false).take else s.startTake false) := by
  rw [exec_checkpointTake]
  exact occurs_event rfl ..

/-- What a restore that is refused leaves (R449): CKCTL names the reason n. -/
def State.restoreRefused (s : State) (n : Nat) : State :=
  { s with regs := { s.regs with ckctl := 2 ^ 30 + bits s.regs.ckctl 11 8 * 256 + n } }

section
variable {s : State} (run : s.gate = false) (fresh : s.fresh = true) (idle : s.taking = false)
include run fresh idle

/-- CHECKPOINT_RESTORE where it is legal, with an empty region (R449). -/
theorem exec_checkpointRestore_none (h : s.saved = none) : exec .checkpointRestore s = .next (s.restoreRefused 2) := by
  rw [exec_checkpointRestore]
  refine (occurs_event (by simp [run, fresh, idle]) _ s).trans ?_
  split
  · rfl
  · next y hy => simp [h] at hy

/-- CHECKPOINT_RESTORE where it is legal, by what the region holds (R449). -/
theorem exec_checkpointRestore_some {x : Saved} (h : s.saved = some x) : exec .checkpointRestore s = .next
    (if (List.range 4).any fun d => bit x.dies d && (s.die d).fenced then s.restoreRefused 3
     else if x.softError then s.restoreRefused 4 else s.restored x) := by
  rw [exec_checkpointRestore]
  refine (occurs_event (by simp [run, fresh, idle]) _ s).trans ?_
  split
  · next hn => simp [h] at hn
  · next y hy =>
    obtain rfl : x = y := Option.some.inj (h.symm.trans hy)
    rfl

end

/-- A region that names a fenced die. -/
theorem any_saved_fenced {s : State} {x : Saved} :
    ((List.range 4).any fun d => bit x.dies d && (s.die d).fenced) = true
      ↔ ∃ d < 4, bit x.dies d = true ∧ (s.die d).fenced = true := by
  simp only [List.any_eq_true, List.mem_range, Bool.and_eq_true]

end Sys2Proof.Machine

namespace Sys2Proof.Proofs

open Sys2Proof Sys2Proof.Machine

/-- Settles O51, event by event: links, dies, ports, extents, planes and ready bits by the event's own equation; that no
die is left cut off by the count of dies that stand; a take by the frame of its writes and spills; a restore by the order
of the saved cells. -/
theorem failureEvents : Obligations.FailureEvents := by
  unfold Obligations.FailureEvents
  refine ⟨?link, ?dieLink, ?dieFence, ?port, ?extent, ?planes, ?ready, ?training, ?reset, ?powerLoss, ?take, ?takeStarts,
    ?restore⟩
  case link =>
    intro s d hd
    constructor <;> (rw [exec_linkFailure]; exact occurs_event (by simp [hd]) ..)
  case dieLink => exact fun s a b ha hb => ⟨exec_linkFailure_die ha hb, State.fenceCut_three _, fun _ _ => rfl⟩
  case dieFence =>
    intro s d hd stands
    refine ⟨exec_dieFence_standing hd stands, State.fenceCut_three _, ?_, s.taking_fenceDie d, fun idle _ => ?_⟩
    · simp [State.fenced_fenceDie]
    · obtain ⟨msix, mem⟩ := State.fenceDie_idle idle d
      exact ⟨msix, fun a hk ha => by simp [mem, hk, ha], fun a ha => by rw [mem, if_neg ha]⟩
  case port =>
    intro s p hp up
    rw [exec_cxlPortFailure]
    exact occurs_event (by simp [hp, up]) ..
  case extent =>
    intro s base n hn
    constructor <;> intro pinned <;> rw [exec_dynamicCapacityRelease] <;>
      exact (occurs_event (by simp [hn]) ..).trans (by simp [pinned])
  case planes =>
    intro s planes on refused
    have part := s.planesDown_part planes (List.range 32)
    refine ⟨_, exec_duplicateDeviceNumber_on on refused, ?_, rfl, ?_, rfl, fun p hp => ?_⟩
    · simp only [State.vector]; rw [part]
    · simp only [State.vector]; rw [part]; exact on
    · exact (s.readyBit_planesDown planes (List.range 32) p).trans (by simp [hp])
  case ready =>
    intro s reg i may down
    obtain ⟨s', regs, msix, next⟩ := exec_readyBitRise_down may down
    have same (r j : Nat) : s'.readyBit r j = s.readyBit r j := by simp only [State.readyBit, regs]
    refine ⟨_, next, ?_, congrArg (· ++ [64]) msix, fun r j other => ?_⟩
    · exact (State.setReady_rises ((same reg i).trans down)).trans (by rw [regs])
    · refine (s'.readyBit_setReady reg i true r j).trans ?_
      rw [if_neg fun h => other (by rw [h.1, h.2.2]), same]
  case training => exact fun s m => rfl
  case reset =>
    exact fun s version b =>
      ⟨_, rfl, rfl, rfl, rfl, rfl, rfl, rfl, rfl, rfl, rfl, rfl, rfl, rfl, rfl, rfl, rfl, rfl, rfl, fun _ => rfl⟩
  case powerLoss =>
    refine fun s => ⟨fun taking => ?_, fun idle => ?_⟩
    · rw [exec_powerLossWarning_eq, State.startTake_of_taking taking]
    · exact ⟨_, exec_powerLossWarning_eq s, s.taking_startTake _, State.restoreBit_startTake idle _, s.startTake_part _⟩
  case take =>
    intro s taking run drained
    obtain ⟨x, saved, groups, ctxs, launches, slots, tbase, count, stores, hostWrites⟩ := s.take_spec
    refine ⟨s.take, x, ?_, saved, s.taking_take, count, groups, ctxs, launches, slots, tbase, stores, hostWrites⟩
    rw [exec_checkpointTake_eq, State.startTake_of_taking taking]
    simp [drained, run]
  case takeStarts =>
    intro s idle busy
    refine ⟨s.startTake false, ?_, s.taking_startTake _, s.startTake_part _⟩
    rw [exec_checkpointTake_eq, State.drained_startTake, busy]
    rfl
  case restore =>
    refine fun s run fresh idle => ⟨exec_checkpointRestore_none run fresh idle, fun x hx => ?_⟩
    rw [exec_checkpointRestore_some run fresh idle hx]
    refine ⟨fun lost => by rw [if_pos (any_saved_fenced.mpr lost)]; rfl, fun stand => ?_⟩
    have stands : ¬((List.range 4).any fun d => bit x.dies d && (s.die d).fenced) = true := fun h => by
      obtain ⟨d, hd, up, lost⟩ := any_saved_fenced.mp h
      simp [stand d hd up] at lost
    rw [if_neg stands]
    refine ⟨fun soft => by rw [if_pos soft]; rfl, fun sound => ⟨s.restored x, ?_, rfl, rfl, rfl, rfl, rfl, rfl, hx,
      s.res_restored x, s.fenced_restored x, fun wf a hk hd => s.read_restored wf hk hd⟩⟩
    rw [if_neg (by simp [sound])]

/-- Settles O60: every sparse part of the state after reset lists nothing, so it reads as the part's default, and each
register has the value of its Reset column. -/
theorem resetValues : Obligations.ResetValues := by
  unfold Obligations.ResetValues
  refine ⟨State.reset_canonical, fun _ => rfl, fun _ => rfl, fun _ _ => rfl, fun _ => rfl, fun _ => ?_,
    fun _ => ⟨rfl, rfl⟩, fun _ => rfl, fun _ => ?_, rfl, rfl, rfl, rfl, rfl, rfl, rfl, rfl, rfl, rfl, rfl, fun _ => ?_, rfl, rfl⟩
  · exact ⟨rfl, rfl, rfl, rfl, rfl, rfl⟩
  · exact ⟨rfl, rfl, rfl, rfl, rfl, rfl, rfl⟩
  · exact (by decide : (ArenaEntry.of 0).valid = false)

end Sys2Proof.Proofs

/-!
PROOFS. Words that leave, trap and step (O15, O19): what a word's effect finds of its split, and that an effect which goes
on, makes of the machine something, or traps is what the word does.
-/

namespace Sys2Proof.Machine

open Sys2Proof

/-! ### What a word's effect finds -/

/-- Issue leaves what a C word's condition tests (R281, R283). -/
@[simp] theorem Iss.seen_holds (it b : Iss) (i : Instr) (f : Bool) (c : CCond) : (it.seen b i f).holds c = it.holds c := by
  cases c <;> simp [Iss.holds]

@[simp] theorem Iss.seen_pair (it b : Iss) (i : Instr) (f : Bool) (o : Src) : (it.seen b i f).pair o = it.pair o := by
  cases o <;> rfl

section
variable {i : Instr} {s : State} {it : Iss} {eff : State → Iss → Eff} (hb : Instr.atBarrier i = false)
  (hc : Instr.crossLane i = false) (hx : exec i s = issueAs i true s eff)
include hb hc

/-- A word that is neither a barrier's nor a cross-lane word is found by its effect with its charge and nothing else. -/
theorem Iss.issued_eq_seen (h : s.iss = some it) : it.issued s i = it.seen it i true := by
  rw [Iss.issued, Iss.issuedAs_eq h hb, Iss.seenBy_of_plain hc]

include hx

/-- A word whose effect changes nothing completes. -/
theorem computes_of_stays {pc : Dword} (next : Option Dword) (h : IssuesTo i s it pc) (hpc : next.getD (it.sp.pc + 8) = pc)
    (he : eff (s.begun it i true) (it.seen it i true) = .ok (s.begun it i true) next) :
    ComputesTo i s it pc (fun _ => none) {} :=
  computes_of_go h hb hpc hx ((congrArg (eff _) (Iss.issued_eq_seen hb hc h.1.1)).trans he)

/-- A word whose effect makes of the machine s1 becomes it. -/
theorem becomes_of_effect {s1 : State} (next : Option Dword) (h : Issued i s it)
    (he : eff (s.issued it i) (it.seen it i true) = .ok s1 next) : Becomes i s it s1 (next.getD (it.sp.pc + 8)) :=
  becomes_of_ok h hx ((congrArg (eff _) (Iss.issued_eq_seen hb hc h.1)).trans he)

/-- A word whose effect is a trap raises it. -/
theorem raises_of_effect {t : Trap} (h : Issued i s it) (he : eff (s.begun it i true) (it.seen it i true) = .trap t) :
    Raises i s it t := by
  obtain ⟨hi, hg, hr⟩ := h
  have he' : eff (s.issuedAs it i true) (it.issuedAs s i true) = .trap t := by
    rw [State.issuedAs_eq hb, ← Iss.issued, Iss.issued_eq_seen hb hc hi, he]
  simp only [Raises, hx, issueAs, hi, hg, hr, he', Bool.false_eq_true, if_false]
  rfl

end

/-! ### EXIT, TRAP, BKPT and ASSERT as words that issue (R291 to R293) -/

/-- The effects of EXIT, TRAP and BKPT. -/
def exitEff (c : CCond) (s : State) (it : Iss) : Eff :=
  if it.holds c then .ok (s.leaveLanes it.key it.sp.mask) none else .ok s none

def trapEff (c : CCond) (code : Nat) (s : State) (it : Iss) : Eff :=
  if it.holds c then .trap { it.trapWord 0x90 it.sp.mask code with pc := it.nextPc } else .ok s none

def bkptEff (w : FWord Nat) (s : State) (it : Iss) : Eff :=
  if it.exec w.p = 0 then .ok s none else .trap { it.trapWord 0x91 (it.exec w.p) w.x with pc := it.nextPc }

/-- The effect of ASSERT, by the lowest lane whose assertion fails. -/
def assertEff (w : FWord Unit) (s : State) (it : Iss) : Eff :=
  match (lanesOf (it.exec w.p)).find? fun l => src32 s it w.a l == 0 with
  | none => .ok s none
  | some l => .trap { cause := 0x20, lane := l, tmask := it.exec w.p, aux := 0, msg := it.pair w.b, pc := it.nextPc }

theorem exec_exit_issue (c : CCond) (s : State) : exec (.exit c) s = issueAs (.exit c) true s (exitEff c) := rfl

theorem exec_trap_issue (c : CCond) (code : Nat) (s : State) :
    exec (.trap c code) s = issueAs (.trap c code) true s (trapEff c code) := rfl

theorem exec_bkpt_issue (w : FWord Nat) (s : State) : exec (.bkpt w) s = issueAs (.bkpt w) true s (bkptEff w) := rfl

theorem exec_assertw_issue (w : FWord Unit) (s : State) :
    exec (.assertw w) s = issueAs (.assertw w) true s (assertEff w) := rfl

end Sys2Proof.Machine

namespace Sys2Proof.Proofs

open Sys2Proof Sys2Proof.Machine

/-- Settles O15, word by word: each word's effect is one of two, by its condition, and its condition reads before issue as
its effect finds it. -/
theorem exitAndTrapWords : Obligations.ExitAndTrapWords := by
  unfold Obligations.ExitAndTrapWords
  refine ⟨?exit, ?trap, ?bkpt, ?assert⟩
  case exit =>
    refine fun c s it => ⟨fun hc h => ?_, fun hc h => ?_⟩
    · exact computes_of_stays rfl rfl (exec_exit_issue c s) none h rfl (by simp [exitEff, hc])
    · exact becomes_of_effect rfl rfl (exec_exit_issue c s) none h (by simp [exitEff, hc])
  case trap =>
    refine fun c code s it => ⟨fun hc h => ?_, fun hc h => ?_⟩
    · exact computes_of_stays rfl rfl (exec_trap_issue c code s) none h rfl (by simp [trapEff, hc])
    · exact raises_of_effect rfl rfl (exec_trap_issue c code s) h (by simp [trapEff, hc, Iss.trapWord, Iss.nextPc])
  case bkpt =>
    refine fun w s it => ⟨fun hm h => ?_, fun hm h => ?_⟩
    · exact computes_of_stays rfl rfl (exec_bkpt_issue w s) none h rfl (by simp [bkptEff, hm])
    · exact raises_of_effect rfl rfl (exec_bkpt_issue w s) h (by simp [bkptEff, Iss.trapWord, Iss.nextPc]; exact hm)
  case assert =>
    refine fun w s it => ⟨fun hn h => ?_, fun l hl h => ?_⟩
    · exact computes_of_stays rfl rfl (exec_assertw_issue w s) none h rfl (by simp [assertEff, src32_begun, hn])
    · exact raises_of_effect rfl rfl (exec_assertw_issue w s) h (by simp [assertEff, src32_begun, hl, Iss.nextPc])

end Sys2Proof.Proofs

/-!
PROOFS. STEP and STEPQ (O19): what publication leaves of a group, of a context and of memory.
-/

namespace Sys2Proof.Machine

open Sys2Proof

/-! ### Bytes written into a slice (R111, R119) -/

theorem State.memoryPart_ctxs {s t : State} (h : s.memoryPart t) : t.ctxs = s.ctxs := by
  unfold State.memoryPart at h; rw [h]

@[simp] theorem State.imageStore_groups (s : State) (n core off : Nat) (bs : List Byte) :
    (s.imageStore n core off bs).groups = s.groups := State.memoryPart_groups (s.imageStore_part ..)

@[simp] theorem State.imageBad_groups (s : State) (n core off len : Nat) :
    (s.imageBad n core off len).groups = s.groups := State.memoryPart_groups (s.imageBad_part ..)

@[simp] theorem State.imageBad_mem (s : State) (n core off len : Nat) : (s.imageBad n core off len).mem = s.mem := by
  unfold State.imageBad
  split
  · rfl
  · split
    · rfl
    · refine State.foldl_field State.mem (fun s i => ?_) _ s
      rfl

/-- A write into a slice before the saved image of a context that is away takes it (R119). -/
def State.slicePlaced (s : State) (w : Stamp) (n core off : Nat) (bs : List Byte) : State :=
  let s' := (s.record w (.scr n core) off bs).modCtx n core fun c =>
    c.write off (s.bytesAfter w (.scr n core) off bs) w.bad
  s'.modCtx n core fun c => { c with bad := s'.cleared (.scr n core) w.word c.bad off bs.length }

theorem State.slicePut_eq (s : State) (w : Stamp) (n core off : Nat) (bs : List Byte) : s.slicePut w n core off bs =
    ((s.slicePlaced w n core off bs).imageStore n core off (s.bytesAfter w (.scr n core) off bs)).imageBad n core off
      bs.length := rfl

@[simp] theorem State.slicePut_groups (s : State) (w : Stamp) (n core off : Nat) (bs : List Byte) :
    (s.slicePut w n core off bs).groups = s.groups := by
  simp [State.slicePut_eq, State.slicePlaced, State.record]

/-- Of its context a write into a slice changes the slice and its poison. -/
def Ctx.slicePart (c c' : Ctx) : Prop := c' = { c with scr := c'.scr, bad := c'.bad }

theorem Ctx.slicePart_refl (c : Ctx) : c.slicePart c := rfl

theorem Ctx.slicePart_trans {c c' c'' : Ctx} (h : c.slicePart c') (h' : c'.slicePart c'') : c.slicePart c'' := by
  unfold Ctx.slicePart at *; rw [h', h]

theorem Ctx.slicePart_res {c c' : Ctx} (h : c.slicePart c') : c'.res = c.res := by rw [h]

section
variable {s : State} {n core : Nat} {c : Ctx} (h : s.ctx? n core = some c)
include h

theorem State.ctx?_slicePlaced (w : Stamp) (off : Nat) (bs : List Byte) :
    ∃ c', (s.slicePlaced w n core off bs).ctx? n core = some c' ∧ c.slicePart c' := by
  have hs : (s.record w (.scr n core) off bs).ctx? n core = some c := h
  simp only [State.slicePlaced, State.ctx?_modCtx, if_true, hs, Option.map_some]
  exact ⟨_, rfl, rfl⟩

theorem State.ctx?_slicePut (w : Stamp) (off : Nat) (bs : List Byte) :
    ∃ c', (s.slicePut w n core off bs).ctx? n core = some c' ∧ c.slicePart c' := by
  simp only [State.slicePut_eq, State.ctx?, State.memoryPart_ctxs (State.imageBad_part ..),
    State.memoryPart_ctxs (State.imageStore_part ..)]
  exact State.ctx?_slicePlaced h w off bs

/-- The saved image of a context that is not away takes no bytes (R180). -/
theorem State.imageStore_of_here (hr : c.res ≠ .saved) (off : Nat) (bs : List Byte) : s.imageStore n core off bs = s := by
  have : s.away? n core = none := by
    unfold State.away?
    rw [h]
    cases s.launch? n <;> simp [hr]
  simp only [State.imageStore, this]

theorem State.slicePut_mem (hr : c.res ≠ .saved) (w : Stamp) (off : Nat) (bs : List Byte) :
    (s.slicePut w n core off bs).mem = s.mem := by
  obtain ⟨c', hc, part⟩ := State.ctx?_slicePlaced h w off bs
  rw [State.slicePut_eq, State.imageBad_mem, State.imageStore_of_here hc (by rwa [Ctx.slicePart_res part])]
  rfl

end

/-- What is left of a context and of memory where its slice takes bytes: of the context all but the slice and its poison,
and memory unless the context is away. -/
def Ctx.keptIn (c : Ctx) (s t : State) (n core : Nat) : Prop :=
  ∃ c', t.ctx? n core = some c' ∧ c.slicePart c' ∧ (c.res ≠ .saved → t.mem = s.mem)

theorem Ctx.keptIn_sliceBy {t : State} {s : State} {n core : Nat} {c : Ctx} (h : c.keptIn s t n core) (a : Agent) (off : Nat)
    (bs : List Byte) : c.keptIn s (t.sliceBy a n core off bs) n core := by
  obtain ⟨c', hc, part, mem⟩ := h
  have hc' : ({ t with nextWrite := t.nextWrite + 1 } : State).ctx? n core = some c' := hc
  obtain ⟨c'', here, part'⟩ := State.ctx?_slicePut hc' { id := t.nextWrite, maker := a } off bs
  refine ⟨c'', here, Ctx.slicePart_trans part part', fun hr => (State.slicePut_mem hc' ?_ _ off bs).trans (mem hr)⟩
  rwa [Ctx.slicePart_res part]

/-- Values of the halo store that take their places in the slice of a context (R55, R180). -/
theorem State.haloBytes_kept {s : State} {n core : Nat} {c : Ctx} (h : s.ctx? n core = some c) (r : Record)
    (vals : List (Nat × Word)) : c.keptIn s (s.haloBytes n core r vals) n core := by
  have refl : c.keptIn s s n core := ⟨c, h, c.slicePart_refl, fun _ => rfl⟩
  simp only [State.haloBytes, h]
  split
  · exact refl
  · exact List.foldlRecOn vals _ (motive := fun t => c.keptIn s t n core) refl fun t ht v _ => Ctx.keptIn_sliceBy ht ..

@[simp] theorem State.sliceBy_groups (s : State) (a : Agent) (n core off : Nat) (bs : List Byte) :
    (s.sliceBy a n core off bs).groups = s.groups := State.slicePut_groups ..

@[simp] theorem State.haloBytes_groups (s : State) (n core : Nat) (r : Record) (vals : List (Nat × Word)) :
    (s.haloBytes n core r vals).groups = s.groups := by
  unfold State.haloBytes
  split
  · rfl
  · dsimp only
    split
    · rfl
    · exact State.foldl_field State.groups (fun s v => s.sliceBy_groups ..) vals s

/-! ### Publication (R46, R51, R55) -/

/-- What a change of a context leaves of it, it leaves of every context. -/
theorem State.ctxField_modCtx {β : Type} (π : Ctx → β) {f : Ctx → Ctx} (hf : ∀ c, π (f c) = π c) (s : State)
    (n core n' core' : Nat) : ((s.modCtx n core f).ctx? n' core').map π = (s.ctx? n' core').map π := by
  rw [State.ctx?_modCtx]
  split
  · rename_i same
    have : s.ctx? n' core' = s.ctx? n core := by simp only [State.ctx?, same]
    rw [this, Option.map_map]
    exact congrArg (Option.map · _) (funext hf)
  · rfl

/-- A push that is sent changes the pushes on their way and the lines that they fill. -/
@[simp] theorem State.sendAway_groups (s : State) (p : Push) (dev : Nat) : (s.sendAway p dev).groups = s.groups := by
  unfold State.sendAway; split <;> rfl

@[simp] theorem State.sendAway_mem (s : State) (p : Push) (dev : Nat) : (s.sendAway p dev).mem = s.mem := by
  unfold State.sendAway; split <;> rfl

@[simp] theorem State.ctx?_sendAway (s : State) (p : Push) (dev n core : Nat) :
    (s.sendAway p dev).ctx? n core = s.ctx? n core := by
  unfold State.sendAway; split <;> rfl

@[simp] theorem State.pushStep_groups (s : State) (g : Group) (l : Launch) (b step : Nat) (final : Bool) :
    (s.pushStep g l b step final).groups = s.groups := by
  refine State.foldl_field State.groups (fun s d => ?_) _ s
  dsimp only
  split
  · rfl
  · exact s.sendAway_groups ..

@[simp] theorem State.pushStep_mem (s : State) (g : Group) (l : Launch) (b step : Nat) (final : Bool) :
    (s.pushStep g l b step final).mem = s.mem := by
  refine State.foldl_field State.mem (fun s d => ?_) _ s
  dsimp only
  split
  · rfl
  · exact s.sendAway_mem ..

/-- Of a context pushes change the counts of absent lines alone. -/
theorem State.ctxRes_pushStep (s : State) (g : Group) (l : Launch) (b step : Nat) (final : Bool) (n core : Nat) :
    ((s.pushStep g l b step final).ctx? n core).map Ctx.res = (s.ctx? n core).map Ctx.res := by
  refine State.foldl_field (fun t => (t.ctx? n core).map Ctx.res) (fun s d => ?_) _ s
  dsimp only
  split
  · exact State.ctxField_modCtx (f := fun c => c.pend _ _) Ctx.res (fun _ => rfl) ..
  · rw [s.ctx?_sendAway]

/-- Publication gives the group its frozen copies and leaves memory and where contexts lie alone (R46). -/
theorem State.publish_spec {s : State} {k : Nat} {g : Group} (hg : s.group? k = some g) :
    (∃ g', (s.publish k).group? k = some g' ∧ (g' = g ∨ g' = g.freeze)) ∧ (s.publish k).mem = s.mem
    ∧ ∀ n core, ((s.publish k).ctx? n core).map Ctx.res = (s.ctx? n core).map Ctx.res := by
  unfold State.publish
  rw [hg]
  dsimp only
  split
  · rename_i l c hl hc
    have here : (s.setGroup k g.freeze).group? k = some g.freeze := by simp
    refine ⟨⟨g.freeze, ?_, .inr rfl⟩, ?_, fun n core => ?_⟩
    · simp only [State.group?, State.pushStep_groups]
      split <;> exact here
    · rw [State.pushStep_mem]; split <;> rfl
    · rw [State.ctxRes_pushStep]
      split
      · exact State.ctxField_modCtx (f := fun c => { c with halo := haloPut c.halo _ }) Ctx.res (fun _ => rfl) ..
      · rfl
  · exact ⟨⟨g, hg, .inl rfl⟩, rfl, fun _ _ => rfl⟩

/-- The publication of a step (R46, R55): of its group nothing but what is published changes, and memory does not while
the group's context is not away. -/
theorem State.publishStep_spec {s : State} {k : Nat} {g : Group} {c : Ctx} (hg : s.group? k = some g)
    (hc : s.ctx? g.launch g.core = some c) (hr : c.res ≠ .saved) :
    (∃ g', (s.publishStep k).group? k = some g' ∧ (g' = g ∨ g' = g.freeze)) ∧ (s.publishStep k).mem = s.mem := by
  obtain ⟨⟨g', hg', frozen⟩, mem, res⟩ := State.publish_spec hg
  have place : g'.launch = g.launch ∧ g'.core = g.core := by rcases frozen with rfl | rfl <;> exact ⟨rfl, rfl⟩
  simp only [State.publishStep, hg']
  split
  · rename_i l c' hl hc'
    have hr' : c'.res ≠ .saved := by
      have := res g.launch g.core
      rw [← place.1, ← place.2, hc', place.1, place.2, hc] at this
      rwa [Option.some.inj this]
    split
    · obtain ⟨_, _, _, same⟩ := State.haloBytes_kept hc' l.r (g'.ownVals l.r c'.index (g'.published - 1))
      refine ⟨⟨g', ?_, frozen⟩, (same hr').trans mem⟩
      rw [State.group?, State.haloBytes_groups]
      exact hg'
    · exact ⟨⟨g', hg', frozen⟩, mem⟩
  · exact ⟨⟨g', hg', frozen⟩, mem⟩

/-- What a group's new state brings about where no merge went wrong and it has not exited: its publication, once its
splits have met at STEP (R46). -/
theorem State.after_of_standing {s : State} {k : Nat} {g : Group} (hg : s.group? k = some g)
    (hm : ∀ i, (g.split i).wrong = none) (hh : g.handler = false) (hn : g.gone = false) (hu : g.used ≠ []) :
    s.after k = if g.e != 0 && g.atRendezvous then s.publishStep k else s := by
  have none : (((s.group? k).map fun g => g.liveSplits.filter fun j => (g.split j).wrong.isSome).getD []) = [] := by
    simp [hg, hm]
  unfold State.after
  simp only [none, List.foldl_nil]
  simp only [hg, hh, hn, Bool.or_self, Bool.false_eq_true, if_false, List.isEmpty_iff, hu]

/-! ### STEP and STEPQ as words that issue (R299, R300) -/

def stepEff (s : State) (it : Iss) : Eff := .park (s.modGroup it.key fun g => { g with stepWait := 0 }) .step

def stepqEff (w : FWord Bool) (s : State) (it : Iss) : Eff :=
  if it.exec w.p = 0 then .ok s none
  else .ok (s.writeNow it (scalarWrites w.d (stepqCount s it.g it.c it.l.r))
    (FlagUpd.test (stepqCount s it.g it.c it.l.r == 0))) none

theorem exec_step_issue (s : State) : exec .step s = issueAs .step true s stepEff := rfl

theorem exec_stepq_issue (w : FWord Bool) (s : State) :
    exec (.stepq w) s = issueAs (.stepq w) true s (stepqEff w) := rfl

@[simp] theorem Group.reads_handler (g : Group) (sp : Split) : (g.reads sp).handler = g.handler := by
  unfold Group.reads; split <;> rfl

/-- The issuing group once its split is parked at STEP, before it publishes. -/
def Iss.atStep (it : Iss) : Group :=
  ({ it.begunOwn .step true with stepWait := 0 } : Group).modSplit it.j fun sp => { sp with wait := .step, once := none }

/-- STEP parks its split, and what follows when all have met is in the same step (R46, R299). -/
theorem exec_step_parks {s : State} {it : Iss} (h : Issued .step s it) :
    ∃ t : State, exec .step s = .next (t.after it.key) ∧ t.group? it.key = some it.atStep ∧ t.ctxs = s.ctxs
      ∧ t.mem = s.mem := by
  obtain ⟨hi, hgb, hrb⟩ := h
  obtain ⟨-, -, hg, -⟩ := State.iss_spec hi
  have eff : stepEff (s.issuedAs it .step true) (it.issuedAs s .step true) =
      .park ((s.begun it .step true).modGroup it.key fun g => { g with stepWait := 0 }) .step := by
    rw [← Iss.issued, Iss.issued_eq_seen rfl rfl hi]; rfl
  refine ⟨((s.begun it .step true).modGroup it.key fun g => { g with stepWait := 0 }).modSplit it.key it.j
    fun sp => { sp with wait := .step, once := none }, ?_, ?_, ?_, ?_⟩
  · simp only [exec_step_issue, issueAs, hi, hgb, hrb, eff, Bool.false_eq_true, if_false]
    rfl
  · simp only [State.group?_modSplit, State.group?_modGroup, if_true, State.group?_begun hg, Option.map_some]
    rfl
  · simp only [State.modSplit_ctxs, State.modGroup_ctxs]; rw [State.begun_eq]
  · simp only [State.modSplit_mem, State.modGroup_mem]; rw [State.begun_eq]

theorem Iss.split_atStep {s : State} {it : Iss} (h : s.iss = some it) :
    it.atStep.split it.j = { it.begunSplit .step true it.sp with wait := .step, once := none } := by
  obtain ⟨-, -, -, hs, -, -, hv, -⟩ := State.iss_spec h
  have hj : it.j < it.own.splits.length := Group.live_lt (hs ▸ hv)
  rw [Iss.atStep, Group.split_modSplit, if_pos ⟨rfl, by simpa [Iss.begunOwn, Iss.begunOf] using hj⟩]
  exact congrArg (fun sp : Split => { sp with wait := Wait.step, once := none }) (Iss.begunOwn_split h .step true)

theorem Iss.live_atStep {s : State} {it : Iss} (h : s.iss = some it) : it.j ∈ it.atStep.used := by
  obtain ⟨-, -, -, hs, -, -, hv, -⟩ := State.iss_spec h
  have live : (it.atStep.split it.j).live = true := by
    rw [Iss.split_atStep h]
    unfold Iss.begunSplit
    split <;> exact hv
  simp only [Group.used, List.mem_filter, List.mem_range]
  refine ⟨Group.live_lt live, ?_⟩
  simp only [Split.live, Bool.or_eq_true, beq_iff_eq] at live
  rcases live with run | serial <;> simp [Split.inUse, *]

theorem Iss.wrong_atStep {s : State} {it : Iss} (h : s.iss = some it) (x : Nat) :
    (it.atStep.split x).wrong = (it.own.split x).wrong := by
  by_cases hx : x = it.j
  · obtain ⟨-, -, -, hs, -⟩ := State.iss_spec h
    rw [hx, Iss.split_atStep h, ← hs]
    unfold Iss.begunSplit
    split <;> rfl
  · rw [Iss.atStep, Group.split_modSplit, if_neg fun hh => hx hh.1]
    exact congrArg Split.wrong (Iss.begunOwn_split_ne it .step true hx)

theorem Iss.readReg_atStep (it : Iss) (r : RegId) : it.atStep.readReg r = it.own.readReg r := by cases r <;> rfl

theorem Iss.step_atStep (it : Iss) : it.atStep.step = it.own.step := rfl

@[simp] theorem Group.step_freeze (g : Group) : g.freeze.step = g.step := rfl

@[simp] theorem Group.split_freeze (g : Group) (j : Nat) : g.freeze.split j = g.split j := rfl

@[simp] theorem Group.readReg_freeze (g : Group) (r : RegId) : g.freeze.readReg r = g.readReg r := by cases r <;> rfl

/-- The machine after STEP (R46): the parked group, with its copies frozen where all its splits have met. -/
theorem exec_step_spec {s : State} {it : Iss} (h : Issued .step s it) (here : it.c.res ≠ .saved)
    (sound : ∀ x, (it.own.split x).wrong = none) :
    ∃ t g', exec .step s = .next t ∧ t.group? it.key = some g' ∧ (g' = it.atStep ∨ g' = it.atStep.freeze)
      ∧ t.mem = s.mem := by
  obtain ⟨-, -, -, -, -, hc, -, -, gone, -⟩ := State.iss_spec h.1
  have notHandler : it.own.handler = false := by
    have := h.2.1
    rw [State.iss_reads h.1] at this
    simp [Instr.groupBad, Instr.nbSources] at this
    exact this.2
  obtain ⟨t, next, parked, ctxs, mem⟩ := exec_step_parks h
  rw [State.after_of_standing parked (fun x => (Iss.wrong_atStep h.1 x).trans (sound x)) notHandler gone
    (List.ne_nil_of_mem (Iss.live_atStep h.1))] at next
  split at next
  · have hc' : t.ctx? it.atStep.launch it.atStep.core = some it.c := by rw [State.ctx?, ctxs]; exact hc
    obtain ⟨⟨g', hg', frozen⟩, same⟩ := State.publishStep_spec parked hc' here
    exact ⟨_, g', next, hg', frozen, same.trans mem⟩
  · exact ⟨t, it.atStep, next, parked, .inl rfl, mem⟩

/-- The writes of STEPQ: its count, in a scalar D. -/
theorem written_scalarWrites (d : Dst) (x : Nat) (r : RegId) :
    written (scalarWrites d x) r = match (motive := Dst → Option Word) d with
      | .s n => oneTakes (.s n) (BitVec.ofNat 32 x) r
      | _ => none := by
  cases d with
  | s n => exact written_singleton ..
  | v n => rfl
  | nb n => rfl
  | m n => rfl

theorem scalarWrites_real (d : Dst) (x : Nat) : ∀ w ∈ scalarWrites d x, w.1.real := by
  cases d with
  | s n => simp [scalarWrites, RegId.real]
  | v n => simp [scalarWrites]
  | nb n => simp [scalarWrites]
  | m n => simp [scalarWrites]

end Sys2Proof.Machine

namespace Sys2Proof.Proofs

open Sys2Proof Sys2Proof.Machine

/-- Settles O19: STEP parks its split, and the publication that may follow changes of its group what is published alone;
STEPQ's effect writes its count, where a lane is active. -/
theorem stepWords : Obligations.StepWords := by
  unfold Obligations.StepWords
  refine ⟨?step, ?stepq⟩
  case step =>
    intro s it h here sound
    obtain ⟨t, g', next, hg', frozen, mem⟩ := exec_step_spec h here sound
    have wait : (it.atStep.split it.j).wait = .step := congrArg Split.wait (Iss.split_atStep h.1)
    have pc : (it.atStep.split it.j).pc = it.sp.pc := by
      rw [Iss.split_atStep h.1, Iss.begunSplit]
      split <;> rfl
    refine ⟨t, g', next, hg', ?_⟩
    rcases frozen with rfl | rfl
    · exact ⟨wait, pc, it.step_atStep, it.readReg_atStep, mem⟩
    · refine ⟨?_, ?_, ?_, fun r => (Group.readReg_freeze ..).trans (it.readReg_atStep r), mem⟩
      · rw [Group.split_freeze, wait]
      · rw [Group.split_freeze, pc]
      · rw [Group.step_freeze, it.step_atStep]
  case stepq =>
    intro w s it h
    dsimp only
    by_cases hm : it.exec w.p = 0
    · simp only [hm, if_true]
      refine (computes_of_stays rfl rfl (exec_stepq_issue w s) none h rfl ?_).congr fun r _ => by split <;> rfl
      rw [stepqEff, Iss.seen_exec, if_pos hm]
    · simp only [hm, if_false]
      refine computes_of_effect h rfl (exec_stepq_issue w s) ?_ (scalarWrites_real w.d _) fun r _ =>
        written_scalarWrites ..
      rw [stepqEff, Iss.seenBy_of_plain rfl, Iss.seen_exec, if_neg hm, State.issued, State.issuedAs_eq rfl,
        Iss.issued_eq_seen rfl rfl h.1.1]

end Sys2Proof.Proofs

/-!
PROOFS. The step and its words (O57, O58): what the issue of any word comes to, and what the fetch makes of any 64 bits.
-/

namespace Sys2Proof.Machine
open Sys2Proof

/-! ### What the issue of any word comes to (R397) -/

/-- The words that fold into the signature (R66): all but SIGCHK and the SWRITE that sets it. -/
def Instr.foldsChain : Instr → Bool
  | .sigchk _ => false
  | .swrite w => w.x != 0x41
  | _ => true

/-- The state after the issue of the word i whose effect comes to e. -/
def State.wordEnd (s : State) (it : Iss) (i : Instr) (e : Eff) : State :=
  if Instr.groupBad i it.g then s.raise it.key it.j (it.trapBits 0x01 (encode i))
  else
    let e := if it.readsBad i then .poison (Config.freeDword s.free).toNat else e
    (s.leftBy (s.issuedAs it i (Instr.foldsChain i)) it (encode i) e).apply it (encode i) e

/-- An outcome that is an end of the word i. -/
def WordEnds (s : State) (it : Iss) (i : Instr) (o : Host.Outcome State Fault Refusal) : Prop :=
  ∃ e, o = .next (s.wordEnd it i e)

theorem wordEnds_branches (s : State) (it : Iss) (i : Instr) (e : Eff) : WordEnds s it i
    (if Instr.groupBad i it.g then .next (s.raise it.key it.j (it.trapBits 0x01 (encode i)))
    else
      let e := if it.readsBad i then .poison (Config.freeDword s.free).toNat else e
      .next ((s.leftBy (s.issuedAs it i (Instr.foldsChain i)) it (encode i) e).apply it (encode i) e)) := by
  refine ⟨e, ?_⟩
  unfold State.wordEnd
  split <;> rfl

/-- Every word is issued as `issueAs` says, whatever its effect: `whnf` lays the branches of the issue bare, which the word
does not choose. -/
theorem wordEnds_exec {s : State} {it : Iss} (hi : s.iss = some it) {i : Instr} (h : i.isEvent = false) :
    WordEnds s it i (exec i s) := by
  cases i <;> cases h <;> (conv => (arg 4; whnf)) <;> rw [hi]
  all_goals exact wordEnds_branches ..

theorem wordEnd_of_groupBad {i : Instr} {it : Iss} (h : Instr.groupBad i it.g = true) (s : State) (e : Eff) :
    s.wordEnd it i e = s.raise it.key it.j (it.trapBits 0x01 (encode i)) := if_pos h

/-- A word that reads a poisoned register has issued and consumes the poison (R420). -/
theorem wordEnd_of_readsBad {i : Instr} {it : Iss} (h : Instr.groupBad i it.g = false) (hr : it.readsBad i = true)
    (s : State) (e : Eff) : s.wordEnd it i e =
      (s.issuedAs it i (Instr.foldsChain i)).consume it.key it.sp.pc (Config.freeDword s.free).toNat := by
  simp only [State.wordEnd, h, hr, Bool.false_eq_true, if_false, if_true]
  rfl

/-- A word completes where no split issues, and does nothing. -/
theorem exec_word_of_none {s : State} (hi : s.iss = none) {i : Instr} (h : i.isEvent = false) : exec i s = .next s := by
  cases i <;> cases h <;> (conv => (lhs; whnf)) <;> rw [hi]

theorem exec_word_next {i : Instr} (h : i.isEvent = false) (s : State) : ∃ t, exec i s = .next t := by
  cases hi : s.iss with
  | none => exact ⟨s, exec_word_of_none hi h⟩
  | some it =>
    obtain ⟨e, he⟩ := wordEnds_exec hi h
    exact ⟨_, he⟩

/-- Every event but HOST_BAR2_ACCESS completes (log 33). -/
theorem exec_event_next {i : Instr} (h : i.isEvent = true) (hb : ∀ a, i ≠ .hostBar2Access a) (s : State) :
    ∃ t, exec i s = .next t := by
  cases i <;> cases h
  case hostBar2Access a => exact absurd rfl (hb a)
  all_goals exact ⟨_, rfl⟩

/-! ### What the fetch makes of a word (R207, R405) -/

theorem State.fetched_of_iss {s : State} {it : Iss} (hi : s.iss = some it) : s.fetched = some
    (match Fetch.instr (it.fetch s), fetchEff it (it.fetch s) with
      | some i, _ => .inl i
      | none, some e => .inr (s.apply it 0 e)
      | none, none => .inr s) := by
  rw [State.fetched, hi]; rfl

section
variable {s : State} {it : Iss} {w : Nat} (hi : s.iss = some it) (hf : it.fetch s = .word w)
include hi hf

/-- An accepted word is the instruction that issues. -/
theorem State.fetched_of_accepted {i : Instr} (h : decodeWord w = .ok i) : s.fetched = some (.inl i) := by
  rw [State.fetched_of_iss hi, hf]
  simp only [Fetch.instr, h]
  rfl

/-- A refused word raises 0x01 where a rule of that cause is broken, in whichever group it stands, else 0x02. -/
theorem State.fetched_of_refused {e : Refused} (h : decodeWord w = .error e) {one : Bool}
    (ho : (e == .cause01 || (match buildWord w with | some i => Instr.groupBad i it.g | none => true)) = one) :
    s.fetched = some (.inr (s.raise it.key it.j (it.trapBits (if one then 0x01 else 0x02) w))) := by
  rw [State.fetched_of_iss hi, hf, ← ho]
  simp only [Fetch.instr, fetchEff, h]
  rfl

end

theorem decodeWord_of_build_none {w : Nat} (h : buildWord w = none) : decodeWord w = .error .cause01 := by
  rw [decodeWord, h]

/-- F opcode 0x00 is reserved (R203). -/
theorem buildWord_of_F_zero {w : Nat} (h : bits w 63 62 = 0) (ho : bits w 61 54 = 0) : buildWord w = none := by
  simp only [buildWord, h, ho]
  rfl

/-! ### A step -/

theorem State.enter_cur (s : State) (k j : Nat) : (s.enter k j).cur = k := by
  unfold State.enter; split <;> rfl

theorem State.enter_curSplit (s : State) (k j : Nat) : (s.enter k j).curSplit = j := by
  unfold State.enter; split <;> rfl

/-- A ready split that its partition takes runs the instruction that it fetches. -/
theorem issueStep_of_fetched {s : State} {k j : Nat} {i : Instr} (hr : s.ready k j = true)
    (ht : s.mayTake (s.rivals k) (k, j) = true) (hf : (s.enter k j).fetched = some (.inl i)) :
    issueStep k j s = exec i (s.enter k j) := by
  simp only [issueStep, hr, ht, hf, Bool.and_self, if_true]

theorem step_of_nextTurn {s s1 : State} {t : Turn} (h : s.wake.nextTurn = (s1, t)) : step s = turnStep t s1 := by
  rw [step, h]

theorem turnStep_event {i : Instr} (h : i.isEvent = true) (s : State) : turnStep (.event i) s = exec i s := if_pos h

theorem turnStep_own {t : Turn} (hi : ∀ k j, t ≠ .issue k j) (he : ∀ i, t ≠ .event i) (s : State) :
    turnStep t s = .next (s.ownTurn t) := by
  cases t
  case issue k j => exact absurd rfl (hi k j)
  case event i => exact absurd rfl (he i)
  all_goals rfl

/-- The bytes of a word, lowest address first (R6). -/
theorem wordBytes_getD (w : Nat) {i : Nat} (h : i < 8) : (wordBytes w).getD i 0 = BitVec.ofNat 8 (w / 256 ^ i) := by
  simp [wordBytes, List.getD_eq_getElem?_getD, h]

/-- The word that is placed stands at the program's address. -/
theorem read_withFetchWord (s : State) (w : Nat) {i : Nat} (h : i < 8) :
    Memory.read (s.withFetchWord 64 w).mem (2 ^ 37 * s.loadDie + 0x10000 + i) =
      BitVec.ofNat 8 (w % 2 ^ 64 / 256 ^ i) := by
  have hmem : (s.withFetchWord 64 w).mem =
      Memory.writeAll s.mem (2 ^ 37 * s.loadDie + 0x10000) (wordBytes (w % 2 ^ 64)) := rfl
  have hlen : (wordBytes (w % 2 ^ 64)).length = 8 := by simp [wordBytes]
  rw [hmem, Memory.read_writeAll, if_pos (by omega), Nat.add_sub_cancel_left, wordBytes_getD _ h]

end Sys2Proof.Machine

namespace Sys2Proof.Proofs

open Sys2Proof Sys2Proof.Machine

/-- Settles O57: the fetch by the decoder's answers, and the two ends of a word that a poisoned register or its group gives
it, which are the same for every word. -/
theorem refusedWordsTrap : Obligations.RefusedWordsTrap := by
  unfold Obligations.RefusedWordsTrap
  refine ⟨fun s it w hi hf => ⟨?accepted, ?one, ?two⟩, fun w => decodeWord_of_build_none,
    fun w h ho => decodeWord_of_build_none (buildWord_of_F_zero h ho), ?poison, ?group⟩
  case accepted => exact fun i h => State.fetched_of_accepted hi hf h
  case one => exact fun h => State.fetched_of_refused hi hf h (one := true) rfl
  case two => exact fun h i hb => State.fetched_of_refused hi hf h (by rw [hb]; rfl)
  case poison =>
    intro i s it hi hw hg hr
    obtain ⟨e, he⟩ := wordEnds_exec hi hw
    exact ⟨_, he.trans (congrArg _ (wordEnd_of_readsBad hg hr s e))⟩
  case group =>
    intro i s it hi hw hg
    obtain ⟨e, he⟩ := wordEnds_exec hi hw
    exact ⟨he.trans (congrArg _ (wordEnd_of_groupBad hg s e)), fun m hm => by rw [hm]; rfl⟩

/-- Settles O58: the step by its turn, completion by whether the instruction is a word or an event. -/
theorem stepRunsTheDecodedInstruction : Obligations.StepRunsTheDecodedInstruction := by
  unfold Obligations.StepRunsTheDecodedInstruction
  refine ⟨?issue, ?event, ?own, ?completes, fun s w => ⟨rfl, fun i => read_withFetchWord s w⟩⟩
  case issue =>
    intro s s1 k j w i it hn hr ht hi hf hd
    rw [step_of_nextTurn hn]
    exact ⟨issueStep_of_fetched hr ht (State.fetched_of_accepted hi hf hd), s1.enter_cur k j, s1.enter_curSplit k j⟩
  case event => exact fun s s1 i hn h => (step_of_nextTurn hn).trans (turnStep_event h s1)
  case own => exact fun s s1 t hn hi he => (step_of_nextTurn hn).trans (turnStep_own hi he s1)
  case completes =>
    intro i s hb
    cases h : i.isEvent with
    | false => exact exec_word_next h s
    | true => exact exec_event_next h hb s

end Sys2Proof.Proofs

/-!
PROOFS. Divergence (O14): what a division makes of the split table, and how paths complete and merge.
-/

namespace Sys2Proof.Machine

open Sys2Proof

/-! ### Entries of the split table -/

/-- An entry that is in use is an entry of the table. -/
theorem Group.inUse_lt {g : Group} {j : Nat} (h : (g.split j).inUse = true) : j < g.splits.length := by
  refine Nat.lt_of_not_le fun hj => ?_
  have hn : g.splits[j]? = none := List.getElem?_eq_none hj
  simp [Group.split, List.getD, hn, Split.inUse] at h

theorem Group.split_modSplit_same {g : Group} {j : Nat} (h : j < g.splits.length) (f : Split → Split) :
    (g.modSplit j f).split j = f (g.split j) := by rw [Group.split_modSplit, if_pos ⟨rfl, h⟩]

theorem Group.split_modSplit_ne (g : Group) {i j : Nat} (h : j ≠ i) (f : Split → Split) :
    (g.modSplit i f).split j = g.split j := by rw [Group.split_modSplit, if_neg fun hh => h hh.1]

/-- What one update leaves of every entry. -/
theorem Group.splitField_modSplit {β : Type} (π : Split → β) {g : Group} {i : Nat} {f : Split → Split}
    (hf : π (f (g.split i)) = π (g.split i)) (j : Nat) : π ((g.modSplit i f).split j) = π (g.split j) := by
  rw [Group.split_modSplit]
  split
  case isTrue h => rw [h.1]; exact hf
  case isFalse => rfl

theorem Group.modSplit_id {g : Group} {j : Nat} {f : Split → Split} (h : f (g.split j) = g.split j) :
    g.modSplit j f = g := by
  have hl : modifyAt g.splits j f = modifyAt g.splits j id := modifyAt_congr h
  have hid : ∀ (l : List Split) (i : Nat), modifyAt l i id = l := by
    intro l
    induction l with
    | nil => exact fun _ => rfl
    | cons a l ih => intro i; cases i <;> simp [modifyAt, ih]
  simp only [Group.modSplit, hl, hid]

theorem Group.freeEntry_modSplit {g : Group} {i : Nat} {f : Split → Split}
    (hf : (f (g.split i)).inUse = (g.split i).inUse) : (g.modSplit i f).freeEntry = g.freeEntry := by
  simp only [Group.freeEntry, Group.modSplit_length, Group.splitField_modSplit Split.inUse hf]

theorem Group.free_of_freeEntry {g : Group} {k : Nat} (h : g.freeEntry = some k) :
    k < g.splits.length ∧ (g.split k).inUse = false := by
  refine ⟨List.mem_range.mp (List.mem_of_find?_eq_some h), ?_⟩
  simpa using List.find?_some h

theorem Group.hasChild_iff {g : Group} {p : Nat} :
    g.hasChild p = true ↔ ∃ x, (g.split x).inUse = true ∧ (g.split x).parent = some p := by
  simp only [Group.hasChild, List.any_eq_true, Bool.and_eq_true, beq_iff_eq]
  constructor
  · rintro ⟨sp, hm, h⟩
    obtain ⟨x, hx, rfl⟩ := List.mem_iff_getElem.mp hm
    exact ⟨x, by simpa [Group.split, List.getD, hx] using h⟩
  · rintro ⟨x, h⟩
    refine ⟨g.split x, ?_, h⟩
    have hx := Group.inUse_lt h.1
    simp [Group.split, List.getD, hx]

theorem Group.hasChild_modSplit {g : Group} {i : Nat} {f : Split → Split}
    (hu : (f (g.split i)).inUse = (g.split i).inUse) (hp : (f (g.split i)).parent = (g.split i).parent) (p : Nat) :
    (g.modSplit i f).hasChild p = g.hasChild p := by
  rw [Bool.eq_iff_iff, Group.hasChild_iff, Group.hasChild_iff]
  simp only [Group.splitField_modSplit Split.inUse hu, Group.splitField_modSplit Split.parent hp]

/-! ### The serial stack -/

theorem Group.topRec_owner {g : Group} {j : Nat} {r : SerialRec} (h : g.topRec j = some r) :
    r ∈ g.stack ∧ r.owner = j :=
  ⟨List.mem_reverse.mp (List.mem_of_find?_eq_some h), by simpa using List.find?_some h⟩

/-- The record that is put for the top one of P's is P's top record. -/
theorem find?_setTop {l : List SerialRec} {j : Nat} {r' : SerialRec} (h : ∃ r ∈ l, r.owner = j) (ho : r'.owner = j) :
    (setTop j (some r') l).reverse.find? (fun r => r.owner == j) = some r' := by
  induction l with
  | nil => simp at h
  | cons x l ih =>
    by_cases hl : ∃ r ∈ l, r.owner = j
    · have hany : (l.any fun y => y.owner == j) = true := by simpa using hl
      simp [setTop, hany, ih hl]
    · have hany : (l.any fun y => y.owner == j) = false := by simpa using hl
      have hx : x.owner = j := by simpa [hl] using h
      have hnone : l.reverse.find? (fun r => r.owner == j) = none := by simpa using hl
      simp [setTop, hany, hx, hnone, ho]

theorem length_setTop_none {l : List SerialRec} {j : Nat} (h : ∃ r ∈ l, r.owner = j) :
    (setTop j none l).length + 1 = l.length := by
  induction l with
  | nil => simp at h
  | cons x l ih =>
    by_cases hl : ∃ r ∈ l, r.owner = j
    · have hany : (l.any fun y => y.owner == j) = true := by simpa using hl
      simp [setTop, hany, ih hl]
    · have hany : (l.any fun y => y.owner == j) = false := by simpa using hl
      have hx : x.owner = j := by simpa [hl] using h
      simp [setTop, hany, hx]

/-! ### Divisions (R35, R287) -/

theorem Group.fill_of_no_path {g : Group} {p : Nat} (h : (g.split p).paths = []) (n : Nat) : Group.fill n g p = g := by
  cases n <;> simp [Group.fill, h]

theorem Group.fill_of_path {g : Group} {p k : Nat} {x : Dword × Mask} {rest : List (Dword × Mask)}
    (h : (g.split p).paths = x :: rest) (hk : g.freeEntry = some k) (n : Nat) :
    Group.fill (n + 1) g p = Group.fill n (g.takePath p k) p := by
  simp only [Group.fill, h, hk]

@[simp] theorem or_self_and_not (m : Mask) : (0 ||| m) &&& ~~~m = 0 := by
  ext i; simp

/-- A live split gives its next path to another entry (R36, R290). -/
theorem Group.takePath_other {g : Group} {p k : Nat} {pc : Dword} {ls : Mask} {rest : List (Dword × Mask)}
    (hp : (g.split p).paths = (pc, ls) :: rest) (hl : (g.split p).live = true) (hk : k < g.splits.length) (hne : k ≠ p) :
    let sp := g.split p
    let g' := g.takePath p k
    g'.split p = { sp.start ls with paths := rest, children := Nat.lor (sp.start ls).children (2 ^ k) }
    ∧ g'.split k = { st := .run, pc := pc, mask := ls &&& ~~~g.exited, cc := sp.pathCc, sig := sp.pathSig,
                     parent := some p, stall := sp.stall }
    ∧ (∀ i, i ≠ p → i ≠ k → g'.split i = g.split i) ∧ ∀ r, g'.readReg r = g.readReg r := by
  have hpl := Group.live_lt hl
  simp only [Group.takePath, hp, hne, if_false]
  refine ⟨?_, ?_, fun i hi hik => ?_, fun r => ?_⟩
  · rw [Group.split_modSplit_ne _ (Ne.symm hne)]
    refine (Group.split_modSplit_same hpl _).trans ?_
    simp only [hl, if_true]
  · exact Group.split_modSplit_same (by simpa using hk) _
  · rw [Group.split_modSplit_ne _ hik]
    exact Group.split_modSplit_ne _ hi _
  · cases r <;> rfl

/-- The issuing split of a division in two, before the second path has its entry. -/
def Split.divided (sp : Split) (seen : Map Mask) (join pc : Dword) (first ls : Mask) (snapshot : List Nat) : Split :=
  { sp with mask := first, join := join, full := sp.mask, formed := 0, paths := [(pc, ls)], pending := 0 ||| ls,
            pathCc := sp.cc, pathSig := sp.sig, st := .serial, snapshot := snapshot, before := seen }

/-- A division in two that is not serial, before its one path has its entry. -/
def Group.dividing (g : Group) (j : Nat) (join pc : Dword) (first ls : Mask) (snapshot : List Nat) : Group :=
  g.modSplit j fun sp => sp.divided g.seen join pc first ls snapshot

theorem Group.divide_parallel (g : Group) (j : Nat) (join pc : Dword) (first ls : Mask) (snapshot : List Nat) :
    g.divide j join first [(pc, ls)] false snapshot =
      if ((Group.fill 4 (g.dividing j join pc first ls snapshot) j).split j).paths.isEmpty then
        (Group.fill 4 (g.dividing j join pc first ls snapshot) j).modSplit j fun sp => { sp with snapshot := [] }
      else Group.fill 4 (g.dividing j join pc first ls snapshot) j := rfl

/-- The two entries of a division in two with a Free entry, and what it leaves alone (R35, R287). -/
theorem Group.divide_in_two {g : Group} {j k : Nat} (hu : (g.split j).inUse = true) (hk : g.freeEntry = some k)
    (join pc : Dword) (first ls : Mask) (snapshot : List Nat) :
    let sp := g.split j
    let d := (sp.divided g.seen join pc first ls snapshot).start ls
    let g' := g.divide j join first [(pc, ls)] false snapshot
    g'.split j = { d with paths := [], children := Nat.lor d.children (2 ^ k), snapshot := [] }
    ∧ g'.split k = { st := .run, pc := pc, mask := ls &&& ~~~g.exited, cc := sp.cc, sig := sp.sig, parent := some j,
                     stall := sp.stall }
    ∧ (∀ i, i ≠ j → i ≠ k → g'.split i = g.split i) ∧ ∀ r, g'.readReg r = g.readReg r := by
  have hj := Group.inUse_lt hu
  obtain ⟨hkl, hkf⟩ := Group.free_of_freeEntry hk
  have hne : k ≠ j := fun h => by rw [h, hu] at hkf; cases hkf
  have h1 : (g.dividing j join pc first ls snapshot).split j = (g.split j).divided g.seen join pc first ls snapshot :=
    Group.split_modSplit_same hj _
  have hp : ((g.dividing j join pc first ls snapshot).split j).paths = (pc, ls) :: [] := by rw [h1]; rfl
  have hk1 : (g.dividing j join pc first ls snapshot).freeEntry = some k :=
    (Group.freeEntry_modSplit (by rw [hu]; rfl)).trans hk
  obtain ⟨tj, tk, ti, tr⟩ := Group.takePath_other hp (by rw [h1]; rfl) (by simpa [Group.dividing] using hkl) hne
  have hfill : Group.fill 4 (g.dividing j join pc first ls snapshot) j =
      (g.dividing j join pc first ls snapshot).takePath j k :=
    (Group.fill_of_path hp hk1 3).trans (Group.fill_of_no_path (by rw [tj]) 3)
  rw [h1] at tj tk
  have hlen : j < ((g.dividing j join pc first ls snapshot).takePath j k).splits.length :=
    Group.inUse_lt (by rw [tj]; unfold Split.start; dsimp only; split <;> rfl)
  dsimp only
  rw [Group.divide_parallel, hfill, if_pos (by rw [tj]; rfl)]
  refine ⟨?_, ?_, fun i hij hik => ?_, fun r => ?_⟩
  · rw [Group.split_modSplit_same hlen, tj]
  · rw [Group.split_modSplit_ne _ hne, tk]; rfl
  · rw [Group.split_modSplit_ne _ hij, ti i hij hik]
    exact Group.split_modSplit_ne _ hij _
  · rw [Group.readReg_modSplit, tr]
    exact Group.readReg_modSplit ..

/-- The state of a path that runs in its own entry: with none pending it is Run (R36). -/
theorem Split.start_divided (sp : Split) (seen : Map Mask) (join pc : Dword) (first ls : Mask) (snapshot : List Nat) :
    (sp.divided seen join pc first ls snapshot).start ls =
      { sp.divided seen join pc first ls snapshot with pending := 0, st := .run, snapshot := [] } := by
  simp only [Split.start, Split.divided, or_self_and_not, if_true]

/-! ### Serial divisions (R35, R287) -/

/-- A serial division puts a record on the stack and runs the first path. -/
theorem Group.divide_serial_split {g : Group} {j : Nat} (hj : j < g.splits.length) (join : Dword) (first : Mask)
    (rest : List (Dword × Mask)) (snapshot : List Nat) : (g.divide j join first rest true snapshot).split j =
      { g.split j with
        mask := first, pending := (g.split j).pending ||| rest.foldl (fun m x => m ||| x.2) (0 : Mask), st := .serial,
        snapshot := keepIndices (g.split j).mask (g.split j).snapshot snapshot } :=
  Group.split_modSplit_same hj _

theorem Group.divide_serial_split_ne (g : Group) {i j : Nat} (h : i ≠ j) (join : Dword) (first : Mask)
    (rest : List (Dword × Mask)) (snapshot : List Nat) :
    (g.divide j join first rest true snapshot).split i = g.split i := Group.split_modSplit_ne g h _

theorem Group.divide_serial_topRec (g : Group) (j : Nat) (join : Dword) (first : Mask) (rest : List (Dword × Mask))
    (snapshot : List Nat) :
    (g.divide j join first rest true snapshot).topRec j = some ⟨j, join, (g.split j).mask, rest, g.seen, 0⟩ := by
  simp [Group.topRec, Group.divide]

theorem Group.divide_serial_readReg (g : Group) (j : Nat) (join : Dword) (first : Mask) (rest : List (Dword × Mask))
    (snapshot : List Nat) (r : RegId) : (g.divide j join first rest true snapshot).readReg r = g.readReg r := by
  cases r <;> rfl

/-! ### Merges (R36, R288) -/

/-- An entry once its paths have merged. -/
def Split.merged (g : Group) (sp : Split) : Split :=
  { sp with st := .run, mask := sp.formed &&& ~~~g.exited, sig := foldMerge sp.sig, pc := sp.join, join := 0,
            children := 0, full := 0, formed := 0, wrong := g.mismatch sp.formed sp.full, snapshot := [], before := [],
            stall := 2 }

theorem Group.merge_split {g : Group} {j : Nat} (hj : j < g.splits.length) :
    (g.merge j).split j = (g.split j).merged g := Group.split_modSplit_same hj _

theorem Group.merge_split_ne (g : Group) {i j : Nat} (h : i ≠ j) : (g.merge j).split i = g.split i :=
  Group.split_modSplit_ne _ h _

@[simp] theorem Group.merge_readReg (g : Group) (j : Nat) (r : RegId) : (g.merge j).readReg r = g.readReg r := by
  cases r <;> rfl

/-! ### What the end of a path leads to, case by case (R36, R288) -/

/-- An entry has the lanes of a path that has completed: of its own, and of a child's. -/
def Split.done (sp : Split) : Split := { sp with formed := sp.formed ||| sp.mask }
def Split.gain (m : Mask) (sp : Split) : Split := { sp with formed := sp.formed ||| m }

section
variable {g : Group} {j : Nat}

/-- The next path of a serial record starts. -/
theorem Group.complete_of_queue {r : SerialRec} (h : g.topRec j = some r) {pc : Dword} {ls : Mask}
    {rest : List (Dword × Mask)} (hq : r.queue = (pc, ls) :: rest) : g.complete j =
      { g.modSplit j (fun sp => { sp.start ls with pc := pc, mask := ls &&& ~~~g.exited }) with
        stack := setTop j (some { r with queue := rest, formed := r.formed ||| (g.split j).mask }) g.stack } := by
  simp only [Group.complete, h, hq]

/-- A serial record with no path left is popped. -/
theorem Group.complete_of_pop {r : SerialRec} (h : g.topRec j = some r) (hq : r.queue = []) : g.complete j =
    { (g.joinSeen r.before r.full).modSplit j (fun sp =>
        { sp with mask := (r.formed ||| (g.split j).mask) &&& ~~~g.exited, sig := foldMerge sp.sig, pc := r.join,
                  wrong := g.mismatch (r.formed ||| (g.split j).mask) r.full, stall := 2 }) with
      stack := setTop j none g.stack } := by
  simp only [Group.complete, h, hq]

/-- An entry at its own join waits for its children, or merges. -/
theorem Group.complete_of_join (h : g.topRec j = none) (hj : (g.split j).join ≠ 0) (hp : (g.split j).paths = []) :
    g.complete j = if g.hasChild j then
        (g.modSplit j Split.done).modSplit j fun sp => { sp with st := .joinWait, pc := sp.join }
      else (g.modSplit j Split.done).merge j := by
  have hf (n : Nat) : Group.fill n (g.modSplit j Split.done) j =
      g.modSplit j Split.done :=
    Group.fill_of_no_path ((Group.splitField_modSplit Split.paths rfl j).trans hp) n
  have hpaths : ((g.modSplit j Split.done).split j).paths = [] :=
    (Group.splitField_modSplit Split.paths rfl j).trans hp
  have hc : (g.modSplit j Split.done).hasChild j = g.hasChild j :=
    Group.hasChild_modSplit rfl rfl j
  rw [← hc]
  unfold Split.done at hf hpaths ⊢
  simp only [Group.complete, h, bne_iff_ne, ne_eq, hj, not_false_eq_true, if_true, hf, hpaths, not_true_eq_false,
    if_false]

/-- A child that has completed is Free, and its parent has its lanes (R36). -/
def Group.childDone (g : Group) (p j : Nat) : Group :=
  (g.modSplit p (Split.gain (g.split j).mask)).modSplit j fun _ => {}

theorem Group.childDone_split_child (hj : j < g.splits.length) (p : Nat) : (g.childDone p j).split j = {} :=
  Group.split_modSplit_same (by simpa using hj) _

theorem Group.childDone_split_parent {p : Nat} (hp : p < g.splits.length) (hpj : p ≠ j) :
    (g.childDone p j).split p = (g.split p).gain (g.split j).mask :=
  (Group.split_modSplit_ne _ hpj _).trans (Group.split_modSplit_same hp _)

theorem Group.childDone_split_ne {p x : Nat} (hx : x ≠ j) (hxp : x ≠ p) : (g.childDone p j).split x = g.split x :=
  (Group.split_modSplit_ne _ hx _).trans (Group.split_modSplit_ne _ hxp _)

@[simp] theorem Group.childDone_readReg (p : Nat) (r : RegId) : (g.childDone p j).readReg r = g.readReg r := by
  simp [Group.childDone]

theorem Group.childDone_splitField {β : Type} (π : Split → β) (hπ : ∀ sp m, π (Split.gain m sp) = π sp) {p x : Nat}
    (hx : x ≠ j) : π ((g.childDone p j).split x) = π (g.split x) := by
  rw [Group.childDone, Group.split_modSplit_ne _ hx]
  exact Group.splitField_modSplit π (hπ _ _) x

/-- Once the last child has completed its parent has none. -/
theorem Group.childDone_hasChild (hj : j < g.splits.length) {p : Nat}
    (h : ∀ x, x ≠ j → (g.split x).inUse = true → (g.split x).parent ≠ some p) : (g.childDone p j).hasChild p = false := by
  rw [Bool.eq_false_iff, ne_eq, Group.hasChild_iff]
  rintro ⟨x, hu, hp⟩
  by_cases hx : x = j
  · rw [hx, Group.childDone_split_child hj] at hu; cases hu
  · rw [Group.childDone_splitField Split.inUse (fun _ _ => rfl) hx] at hu
    rw [Group.childDone_splitField Split.parent (fun _ _ => rfl) hx] at hp
    exact h x hx hu hp

theorem Group.complete_of_child (h : g.topRec j = none) (hj : (g.split j).join = 0) {p : Nat}
    (hp : (g.split j).parent = some p) (hpaths : (g.split p).paths = []) : g.complete j =
      if ((g.childDone p j).split p).st == .joinWait && !(g.childDone p j).hasChild p then (g.childDone p j).merge p
      else g.childDone p j := by
  have hdone : ((g.childDone p j).split p).paths = [] := by
    rw [Group.childDone, Group.split_modSplit]
    split
    · rfl
    · exact (Group.splitField_modSplit Split.paths rfl p).trans hpaths
  unfold Group.childDone Split.gain at *
  simp only [Group.complete, h, hj, hp, bne_self_eq_false, Bool.false_eq_true, if_false, hdone]

/-- The last path of all leaves its entry Free. -/
theorem Group.complete_of_root (h : g.topRec j = none) (hj : (g.split j).join = 0) (hp : (g.split j).parent = none) :
    g.complete j = g.modSplit j fun _ => {} := by
  simp only [Group.complete, h, hj, hp, bne_self_eq_false, Bool.false_eq_true, if_false]

/-- With no path left to start, the end of a path changes no entry but its own and its parent's, and no register. -/
theorem Group.complete_frame (hown : (g.split j).paths = [])
    (hparent : ∀ p, (g.split j).parent = some p → (g.split p).paths = []) :
    (∀ x, x ≠ j → (g.split j).parent ≠ some x → (g.complete j).split x = g.split x)
    ∧ ∀ q, (g.complete j).readReg q = g.readReg q := by
  cases ht : g.topRec j with
  | some r =>
    cases hq : r.queue with
    | nil =>
      rw [Group.complete_of_pop ht hq]
      exact ⟨fun x hx _ => Group.split_modSplit_ne _ hx _, fun q => by cases q <;> rfl⟩
    | cons y rest =>
      rw [Group.complete_of_queue ht hq]
      exact ⟨fun x hx _ => Group.split_modSplit_ne _ hx _, fun q => by cases q <;> rfl⟩
  | none =>
    by_cases hjoin : (g.split j).join = 0
    · cases hp : (g.split j).parent with
      | none =>
        rw [Group.complete_of_root ht hjoin hp]
        exact ⟨fun x hx _ => Group.split_modSplit_ne _ hx _, fun q => Group.readReg_modSplit ..⟩
      | some p =>
        have hx {x : Nat} (h : some p ≠ some x) : x ≠ p := fun hxp => h (by rw [hxp])
        rw [Group.complete_of_child ht hjoin hp (hparent p hp)]
        split
        · exact ⟨fun x hxj hxp => (Group.merge_split_ne _ (hx hxp)).trans (Group.childDone_split_ne hxj (hx hxp)),
            fun q => by simp⟩
        · exact ⟨fun x hxj hxp => Group.childDone_split_ne hxj (hx hxp), fun q => by simp⟩
    · rw [Group.complete_of_join ht hjoin hown]
      split
      · exact ⟨fun x hx _ => (Group.split_modSplit_ne _ hx _).trans (Group.split_modSplit_ne _ hx _), fun q => by simp⟩
      · exact ⟨fun x hx _ => (Group.merge_split_ne _ hx).trans (Group.split_modSplit_ne _ hx _), fun q => by simp⟩

/-- A path that has come to its join completes, and what follows from that follows (R288). -/
theorem Group.moveTo_of_atJoin (hj : j < g.splits.length) (pc : Dword)
    (hat : (g.modSplit j fun sp => { sp with pc := pc }).atJoin j = true)
    (hother : ∀ x, x ≠ j → (g.modSplit j fun sp => { sp with pc := pc }).atJoin x = false) :
    g.moveTo j pc = Group.settle 1023 ((g.modSplit j fun sp => { sp with pc := pc }).complete j) := by
  unfold Group.moveTo
  generalize hg : (g.modSplit j fun sp => { sp with pc := pc }) = g1 at *
  have hj1 : j < g1.splits.length := by rw [← hg, Group.modSplit_length]; exact hj
  have hpend : (g1.split j).pend = [] := by
    simp only [Group.atJoin, Bool.and_eq_true, List.isEmpty_iff] at hat
    exact hat.1.1.2
  have hid : (g1.modSplit j fun sp => { sp with pend := sp.pend.map fun p => { p with left := 0 } }) = g1 :=
    Group.modSplit_id (by rw [hpend]; exact congrArg (fun ps => { g1.split j with pend := ps }) hpend.symm)
  have hfind : (List.range g1.splits.length).find? g1.atJoin = some j := by
    rw [List.find?_range_eq_some]
    exact ⟨hat, List.mem_range.mpr hj1, fun x hx => by simp [hother x (Nat.ne_of_lt hx)]⟩
  simp only [hid, ite_self]
  exact (by rw [Group.settle, hfind] : Group.settle (1023 + 1) g1 = _)

end

/-! ### SPLIT and JTAB as words that issue (R289, R290) -/

theorem Iss.begunSplit_same (it : Iss) (i : Instr) (f : Bool) (sp : Split) :
    (it.begunSplit i f sp).st = sp.st ∧ (it.begunSplit i f sp).children = sp.children
    ∧ (it.begunSplit i f sp).pending = sp.pending := by
  unfold Iss.begunSplit; split <;> exact ⟨rfl, rfl, rfl⟩

@[simp] theorem Iss.seen_busy (it b : Iss) (i : Instr) (f : Bool) (j : Nat) :
    (it.seen b i f).g.busy j = it.g.busy j := by
  have hc := Group.splitField_modSplit Split.children (g := { it.g with lat := b.latsOf i it.g }) (i := b.j)
    (b.begunSplit_same i f _).2.1 j
  have hp := Group.splitField_modSplit Split.pending (g := { it.g with lat := b.latsOf i it.g }) (i := b.j)
    (b.begunSplit_same i f _).2.2 j
  simp only [Group.busy, Iss.seen, Iss.begunOf, hc, hp]
  rfl

@[simp] theorem Iss.seen_freeEntry (it b : Iss) (i : Instr) (f : Bool) :
    (it.seen b i f).g.freeEntry = it.g.freeEntry :=
  Group.freeEntry_modSplit (g := { it.g with lat := b.latsOf i it.g })
    (by rw [Split.inUse, (b.begunSplit_same i f _).1]; rfl)

@[simp] theorem Iss.seen_stack (it b : Iss) (i : Instr) (f : Bool) : (it.seen b i f).g.stack = it.g.stack := rfl

@[simp] theorem Iss.seen_target (it b : Iss) (i : Instr) (f : Bool) (d : Int) :
    (it.seen b i f).target d = it.target d := by rw [Iss.target, Iss.seen_pc]; rfl

/-- The effect of SPLIT. -/
def splitEff (sense : Bool) (n : Nat) (els join : Int) (s : State) (it : Iss) : Eff :=
  let m := it.sp.mask
  let sel := if sense then it.g.readM it.sp n else ~~~it.g.readM it.sp n
  let tm := m &&& sel
  let em := m &&& ~~~sel
  if em = 0 then .ok s none
  else if tm = 0 then .ok s (some (it.target els))
  else
    let serial := it.g.busy it.j || it.g.freeEntry.isNone
    if serial && it.g.stack.length == 16 then .trap (it.trapWord 0x61 m 1)
    else
      .ok (s.modGroup it.key fun g =>
        (g.fold it.j foldSplit).divide it.j (it.target join) tm [(it.target els, em)] serial []) none

theorem exec_split_issue (sense : Bool) (n : Nat) (els join : Int) (s : State) :
    exec (.split sense n els join) s = issueAs (.split sense n els join) true s (splitEff sense n els join) := rfl

theorem splitEff_seen (sense : Bool) (n : Nat) (els join : Int) (s : State) (it : Iss) (i : Instr) (f : Bool) :
    splitEff sense n els join s (it.seen it i f) = splitEff sense n els join s it := by
  simp only [splitEff, Iss.seen_mask, Iss.seen_readM, Iss.seen_target, Iss.seen_busy, Iss.seen_freeEntry, Iss.seen_stack,
    Iss.seen_j, Iss.seen_key, Iss.trapWord, Iss.seen_pc]

/-- What JTAB makes of its group, once its paths are known: the index signature and the time (R66, R282). -/
def jtabFold (it : Iss) (paths : List (Dword × Mask)) (g : Group) : Group :=
  (g.fold it.j fun c => foldJtab c paths.length).modSplit it.j fun sp => { sp with stall := 8 + paths.length }

/-- The effect of JTAB once its paths and its join are known. -/
def jtabTake (it : Iss) (idx : Nat → Nat) (join : Dword) (paths : List (Dword × Mask)) (s : State) : Eff :=
  match paths with
  | [] => .ok s none
  | [(pc, _)] => .ok (s.modGroup it.key (jtabFold it paths)) (some pc)
  | (pc, ls) :: rest =>
    if it.g.busy it.j && it.g.stack.length == 16 then .trap (it.trapWord 0x61 it.sp.mask 1)
    else .ok (s.modGroup it.key fun g =>
      (jtabFold it paths g).divide it.j join ls rest (it.g.busy it.j) (lanes.map idx)) (some pc)

/-- The effect of JTAB. -/
def jtabEff (x len : Nat) (disp : Int) (s : State) (it : Iss) : Eff :=
  let m := it.sp.mask
  let tb := it.target disp
  let idx (l : Nat) := (it.g.readV x l).toNat
  match (lanesOf m).find? fun l => decide (len ≤ idx l) with
  | some l => .trap { it.trapWord 0x10 m (idx l) with lane := l }
  | none =>
    let used := ((List.range len).filter fun n => (lanesOf m).any fun l => idx l == n) ++ [len]
    match used.findSome? fun n => jtabBad s it (tb.toNat + 4 * n) (jtabRead s it tb n) with
    | some e => e
    | none => jtabTake it idx (jtabAddr tb (jtabRead s it tb len))
        (jtabPaths idx len (fun n => jtabAddr tb (jtabRead s it tb n)) m) s

theorem exec_jtab_issue (x len : Nat) (disp : Int) (s : State) :
    exec (.jtab x len disp) s = issueAs (.jtab x len disp) true s (jtabEff x len disp) := rfl

theorem gather_ne_nil (ps : List (Dword × Mask)) (a : Dword) (m : Mask) : gather ps a m ≠ [] := by
  cases ps with
  | nil => exact List.cons_ne_nil _ _
  | cons x ps => unfold gather; split <;> exact List.cons_ne_nil _ _

theorem maskOf_getLsbD (f : Nat → Bool) {l : Nat} (h : l < 32) : (maskOf f).getLsbD l = f l := by
  rw [maskOf, BitVec.getLsbD_setWidth, BitVec.getLsbD_ofBoolListLE]
  simp [h, lanes]

theorem exists_mem_lanesOf {m : Mask} (h : m ≠ 0) : ∃ l, l ∈ lanesOf m := by
  refine Classical.byContradiction fun hn => h (BitVec.eq_of_getLsbD_eq fun l hl => ?_)
  have hb : m.getLsbD l ≠ true := fun hb => hn ⟨l, mem_lanesOf.mpr ⟨hl, hb⟩⟩
  exact (Bool.eq_false_iff.mpr hb).trans BitVec.getLsbD_zero.symm

/-- A lane whose index is in the table is in a path. -/
theorem jtabPaths_ne_nil {idx : Nat → Nat} {addr : Nat → Dword} {m : Mask} {l : Nat} (hl : l ∈ lanesOf m) :
    ∀ {len : Nat}, idx l < len → jtabPaths idx len addr m ≠ []
  | 0, h => absurd h (Nat.not_lt_zero _)
  | n + 1, h => by
    rw [jtabPaths, List.range_succ, List.foldl_append, ← jtabPaths]
    simp only [List.foldl_cons, List.foldl_nil]
    by_cases hn : idx l = n
    · have hls : m &&& maskOf (fun l => idx l == n) ≠ 0 := fun h0 => by
        obtain ⟨hl32, hm⟩ := mem_lanesOf.mp hl
        have hb : (m &&& maskOf fun l => idx l == n).getLsbD l = false := by rw [h0]; exact BitVec.getLsbD_zero
        rw [BitVec.getLsbD_and, hm, maskOf_getLsbD _ hl32, hn] at hb
        simp at hb
      rw [if_neg hls]
      exact gather_ne_nil _ _ _
    · split
      · exact jtabPaths_ne_nil hl (by omega)
      · exact gather_ne_nil _ _ _

section
variable {x len : Nat} {disp : Int} {s : State} {it : Iss}

/-- An index past the table raises cause 0x10 (R290, R401). -/
theorem jtabEff_past {l : Nat}
    (h : (lanesOf it.sp.mask).find? (fun l => decide (len ≤ (it.g.readV x l).toNat)) = some l) :
    jtabEff x len disp s it = .trap { it.trapWord 0x10 it.sp.mask (it.g.readV x l).toNat with lane := l } := by
  simp only [jtabEff, h]

/-- With every index in the table and every word there read, the paths are taken. -/
theorem jtabEff_take (hin : ∀ l ∈ lanesOf it.sp.mask, (it.g.readV x l).toNat < len)
    (hread : ∀ n ≤ len, (n = len ∨ ∃ l ∈ lanesOf it.sp.mask, (it.g.readV x l).toNat = n) →
      ∃ y, jtabRead s it (it.target disp) n = .word y) :
    jtabEff x len disp s it = jtabTake it (fun l => (it.g.readV x l).toNat)
      (jtabAddr (it.target disp) (jtabRead s it (it.target disp) len))
      (jtabPaths (fun l => (it.g.readV x l).toNat) len
        (fun n => jtabAddr (it.target disp) (jtabRead s it (it.target disp) n)) it.sp.mask) s := by
  have hpast : (lanesOf it.sp.mask).find? (fun l => decide (len ≤ (it.g.readV x l).toNat)) = none := by
    simpa using hin
  have hbad : (((List.range len).filter fun n => (lanesOf it.sp.mask).any fun l => (it.g.readV x l).toNat == n) ++
      [len]).findSome? (fun n => jtabBad s it ((it.target disp).toNat + 4 * n) (jtabRead s it (it.target disp) n)) =
      none := by
    rw [List.findSome?_eq_none_iff]
    intro n hn
    obtain ⟨y, hy⟩ := hread n
      (by simp only [List.mem_append, List.mem_filter, List.mem_range, List.mem_singleton] at hn; omega)
      (by
        simp only [List.mem_append, List.mem_filter, List.any_eq_true, beq_iff_eq, List.mem_singleton] at hn
        exact hn.symm.imp_right And.right)
    rw [hy]; rfl
  simp only [jtabEff, hpast, hbad]

end

/-! ### The words by their cases -/

/-- The address that a table's word stands for, as it was fetched (R290). -/
theorem jtabAddr_eq (tb : Dword) (f : Fetch) :
    jtabAddr tb f = (match f with | .word y => tb + 8 * BitVec.ofInt 64 (sext 32 y) | _ => 0) := by cases f <;> rfl

/-- JTAB goes on undivided, divides, or finds the serial stack full (R287, R290). -/
theorem jtab_takes {x len : Nat} {disp : Int} {s : State} {it : Iss} (h : Issued (.jtab x len disp) s it)
    {join : Dword} {idx : Nat → Nat} {paths : List (Dword × Mask)}
    (he : jtabEff x len disp (s.issued it (.jtab x len disp)) (it.seen it (.jtab x len disp) true) =
      jtabTake (it.seen it (.jtab x len disp) true) idx join paths (s.issued it (.jtab x len disp))) (hp : paths ≠ []) :
    ∃ pc ls rest, paths = (pc, ls) :: rest
      ∧ if rest ≠ [] ∧ it.g.busy it.j = true ∧ it.g.stack.length = 16 then
          Raises (.jtab x len disp) s it
            { cause := 0x61, lane := lowest it.sp.mask, tmask := it.sp.mask, aux := 1, pc := it.sp.pc }
        else Becomes (.jtab x len disp) s it ((s.issued it (.jtab x len disp)).modGroup it.key fun g =>
          if rest = [] then jtabFold it paths g
          else (jtabFold it paths g).divide it.j join ls rest (it.g.busy it.j) (lanes.map idx)) pc := by
  match paths, hp, he with
  | [(pc, ls)], _, he =>
    refine ⟨pc, ls, [], rfl, ?_⟩
    rw [if_neg (fun h => h.1 rfl)]
    exact becomes_of_effect rfl rfl (exec_jtab_issue ..) (some pc) h he
  | (pc, ls) :: y :: rest, _, he =>
    refine ⟨pc, ls, y :: rest, rfl, ?_⟩
    simp only [jtabTake, Iss.seen_busy, Iss.seen_j, Iss.seen_stack, Iss.seen_mask, Iss.seen_key] at he
    by_cases hfull : it.g.busy it.j = true ∧ it.g.stack.length = 16
    · rw [if_pos ⟨List.cons_ne_nil _ _, hfull⟩]
      refine raises_of_effect rfl rfl (exec_jtab_issue ..) h ?_
      rw [← State.issuedAs_eq rfl, ← State.issued, he, if_pos (by simp [hfull])]
      simp [Iss.trapWord]
    · rw [if_neg (fun hh => hfull hh.2)]
      refine becomes_of_effect rfl rfl (exec_jtab_issue ..) (some pc) h ?_
      rw [he, if_neg (by simpa using hfull)]
      rfl

end Sys2Proof.Machine

namespace Sys2Proof.Proofs

open Sys2Proof Sys2Proof.Machine

/-- Settles O14: the words by the cases of their effects, divisions and completions by the entries that each changes. -/
theorem divergenceWords : Obligations.DivergenceWords := by
  unfold Obligations.DivergenceWords
  refine ⟨⟨?split, ?jtab⟩, ?parallel, ?serial, ?complete, ?wrong⟩
  case split =>
    intro sense n els join s it
    dsimp only
    refine ⟨fun hem h => ?_, fun hem htm h => ?_, fun hem htm hs hfull h => ?_, fun hem htm hroom h => ?_⟩
    · refine computes_of_stays rfl rfl (exec_split_issue ..) none h rfl ?_
      rw [splitEff_seen, splitEff, if_pos hem]
    · refine computes_of_stays rfl rfl (exec_split_issue ..) (some (it.target els)) h rfl ?_
      rw [splitEff_seen, splitEff]
      exact (if_neg hem).trans (if_pos htm)
    · refine raises_of_effect rfl rfl (exec_split_issue ..) h ?_
      rw [splitEff_seen, splitEff]
      exact (if_neg hem).trans ((if_neg htm).trans (if_pos (by simp only [hs, hfull]; rfl)))
    · refine becomes_of_effect rfl rfl (exec_split_issue ..) none h ?_
      rw [splitEff_seen, splitEff]
      exact (if_neg hem).trans ((if_neg htm).trans (if_neg (by simpa using hroom)))
  case jtab =>
    intro x len disp s it h
    dsimp only
    refine ⟨fun l hl => ?_, fun hin hmask hread => ?_⟩
    · refine raises_of_effect rfl rfl (exec_jtab_issue ..) h ?_
      rw [jtabEff_past (l := l) (by rw [Iss.seen_mask]; exact hl)]
      simp [Iss.trapWord]
    · obtain ⟨l, hl⟩ := exists_mem_lanesOf hmask
      have take := jtabEff_take (x := x) (disp := disp) (s := s.issued it (.jtab x len disp))
        (it := it.seen it (.jtab x len disp) true) (len := len) (by rw [Iss.seen_mask]; exact hin)
        (by rw [Iss.seen_mask, Iss.seen_target]; exact hread)
      simp only [Iss.seen_mask, Iss.seen_target, jtabAddr_eq] at take
      obtain ⟨pc, ls, rest, hp, ht⟩ := jtab_takes h take (jtabPaths_ne_nil hl (hin l hl))
      refine ⟨pc, ls, rest, hp, ?_⟩
      have hp' := hp
      simp only [Iss.seen_readV, jtabRead, Iss.seen_l] at hp' ht ⊢
      exact ht
  case parallel =>
    intro g j k join pc first ls snapshot hu hk
    obtain ⟨hj, hk', hother, hreg⟩ := Group.divide_in_two hu hk join pc first ls snapshot
    rw [Split.start_divided] at hj
    have hchild : bit (Nat.lor (g.split j).children (2 ^ k)) k = true := by
      rw [bit_eq_testBit]
      exact (Nat.testBit_or ..).trans (by rw [Nat.testBit_two_pow_self, Bool.or_true])
    dsimp only
    refine ⟨by rw [hj]; rfl, by rw [hj]; rfl, by rw [hj]; rfl, by rw [hj], by rw [hj], by rw [hj],
      by rw [hj]; exact hchild, by rw [hj]; rfl, ?_, hk', hother, hreg⟩
    rw [Group.busy, hj, Bool.or_eq_true, bne_iff_ne]
    refine .inl fun h0 => ?_
    rw [show Nat.lor (g.split j).children (2 ^ k) = 0 from h0] at hchild
    simp [bit_eq_testBit] at hchild
  case serial =>
    intro g j join first rest snapshot hj
    have hsp := Group.divide_serial_split hj join first rest snapshot
    have htop := Group.divide_serial_topRec g j join first rest snapshot
    dsimp only
    rw [htop, hsp]
    refine ⟨rfl, rfl, rfl, rfl, rfl, fun hl => ?_, ?_, fun i hi => Group.divide_serial_split_ne g hi ..,
      Group.divide_serial_readReg g j join first rest snapshot⟩
    · rw [Group.busy, hsp, Bool.or_eq_true, bne_iff_ne (a := (_ : Mask))]
      exact .inr fun h0 => hl (BitVec.or_eq_zero_iff.mp h0).2
    · simp only [Group.joinOf, htop]
  case complete =>
    intro g j hj
    dsimp only
    refine ⟨fun pc hat hother => Group.moveTo_of_atJoin hj pc hat hother, ?queue, ?pop, ?ownJoin, ?child, ?root, ?frame⟩
    case queue =>
      intro r pc ls rest ht hq
      obtain ⟨hmem, hown⟩ := Group.topRec_owner ht
      rw [Group.complete_of_queue ht hq]
      have hsp := Group.split_modSplit_same hj fun sp => { sp.start ls with pc := pc, mask := ls &&& ~~~g.exited }
      refine ⟨congrArg Split.pc hsp, congrArg Split.mask hsp, congrArg Split.pending hsp, ?_⟩
      exact find?_setTop ⟨r, hmem, hown⟩ hown
    case pop =>
      intro r ht hq
      rw [Group.complete_of_pop ht hq]
      have hsp := Group.split_modSplit_same (g := g.joinSeen r.before r.full) hj fun sp =>
        { sp with mask := (r.formed ||| (g.split j).mask) &&& ~~~g.exited, sig := foldMerge sp.sig, pc := r.join,
                  wrong := g.mismatch (r.formed ||| (g.split j).mask) r.full, stall := 2 }
      exact ⟨congrArg Split.mask hsp, congrArg Split.pc hsp, congrArg Split.sig hsp, congrArg Split.wrong hsp,
        length_setTop_none ⟨r, Group.topRec_owner ht⟩⟩
    case ownJoin =>
      intro ht hjoin hp
      have hdone : (g.modSplit j Split.done).split j = (g.split j).done := Group.split_modSplit_same hj _
      have hlen : j < (g.modSplit j Split.done).splits.length := by simpa using hj
      rw [Group.complete_of_join ht hjoin hp]
      refine ⟨fun hc => ?_, fun hc => ?_⟩
      · rw [if_pos hc, Group.split_modSplit_same hlen, hdone]; rfl
      · have hm := Group.merge_split hlen
        rw [hdone] at hm
        rw [hc, if_neg Bool.false_ne_true, hm]
        exact ⟨rfl, rfl, rfl, rfl, rfl, rfl, rfl⟩
    case child =>
      intro ht hjoin p hp hpj hpl hpaths
      have hchild := Group.childDone_split_child hj p
      have hparent := Group.childDone_split_parent hpl hpj
      have hlen : p < (g.childDone p j).splits.length := by simpa [Group.childDone] using hpl
      rw [Group.complete_of_child ht hjoin hp hpaths, hparent]
      refine ⟨?_, fun hst => ?_, fun hst hlast => ?_⟩
      · split
        · rw [Group.merge_split_ne _ (Ne.symm hpj), hchild]; rfl
        · rw [hchild]; rfl
      · rw [if_neg (by simpa [Split.gain] using fun h => absurd h hst), hparent]; rfl
      · have hm := Group.merge_split hlen
        rw [hparent] at hm
        rw [if_pos (by simpa [Split.gain, hst] using Group.childDone_hasChild hj hlast), hm]
        exact ⟨rfl, rfl, rfl, rfl, rfl, rfl, rfl⟩
    case root =>
      intro ht hjoin hp
      rw [Group.complete_of_root ht hjoin hp, Group.split_modSplit_same hj]; rfl
    case frame =>
      intro hp hpp
      exact Group.complete_frame hp hpp
  case wrong =>
    intro s k j l g hg hw
    simp only [State.raiseWrong, hg, Option.map_some, hw]

end Sys2Proof.Proofs

/-!
PROOFS. Events of cells (O43): a group's next step, pushes into halo stores, and the swap of a core's sets.
-/

namespace Sys2Proof.Machine

open Sys2Proof

/-! ### The next copy of the exported registers (R42, R46) -/

/-- What the cells carry into their next copy. -/
def Group.carryWrites (g : Group) : List (RegId × Word) :=
  (lanesOf g.cellMask).flatMap fun l => (List.range g.e).map fun j => (.v (112 + j) l, g.readV (112 + j) l)

theorem Group.carry_eq (g : Group) : g.carry = ({ g with step := g.step + 1 } : Group).writeRegs g.carryWrites := by
  simp only [Group.carry, Group.writeRegs, Group.carryWrites, List.foldl_flatMap, List.foldl_map]

theorem Group.carryWrites_real (g : Group) : ∀ w ∈ g.carryWrites, w.1.real := by
  intro w hw
  simp only [Group.carryWrites, List.mem_flatMap, List.mem_map, mem_lanesOf] at hw
  obtain ⟨l, ⟨hl, -⟩, j, -, rfl⟩ := hw
  exact hl

/-- Every exported register of a cell is carried, with the value that it has. -/
theorem Group.written_carryWrites {g : Group} {n ln : Nat} (hn : 112 ≤ n) (he : n < 112 + g.e) (hl : ln < 32)
    (hc : g.cellMask.getLsbD ln = true) : written g.carryWrites (.v n ln) = some (g.readV n ln) := by
  refine written_eq_some ?_ fun w hw hwr => ?_
  · simp only [Group.carryWrites, List.mem_flatMap, List.mem_map, mem_lanesOf, List.mem_range]
    exact ⟨ln, ⟨hl, hc⟩, n - 112, by omega, by rw [Nat.add_sub_cancel' hn]⟩
  · simp only [Group.carryWrites, List.mem_flatMap, List.mem_map] at hw
    obtain ⟨l, -, j, -, rfl⟩ := hw
    cases hwr
    rfl

/-- In the next step the other copy is the one that was current (R42). -/
theorem Group.readOther_nextStep {g : Group} {n : Nat} (hn : 112 ≤ n) (he : n < 112 + g.e) (ln : Nat) :
    ({ g with step := g.step + 1 } : Group).readOther n ln = g.readV n ln := by
  have hp : ((g.step + 1) % 2 == 1) = !(g.step % 2 == 1) := by
    rcases Nat.mod_two_eq_zero_or_one g.step with h | h <;> simp [Nat.add_mod, h]
  simp only [Group.readOther, Group.readV, Group.inVx, hn, he, hp, decide_true, Bool.true_and]
  cases g.step % 2 == 1 <;> rfl

section
variable {g : Group} {n ln : Nat} (hn : 112 ≤ n) (he : n < 112 + g.e) (hl : ln < 32)
include hn he hl

theorem Group.readV_carry (hc : g.cellMask.getLsbD ln = true) : g.carry.readV n ln = g.readV n ln := by
  have h := Group.readReg_writeRegs { g with step := g.step + 1 } g.carryWrites_real (r := .v n ln) hl
  rw [Group.written_carryWrites hn he hl hc, ← Group.carry_eq] at h
  exact h

theorem Group.readOther_carry : g.carry.readOther n ln = g.readV n ln := by
  rw [Group.carry_eq]
  exact (Group.readOther_writeRegs g.carryWrites_real hn hl { g with step := g.step + 1 } he).trans
    (Group.readOther_nextStep hn he ln)

end

/-- Writes of vector registers leave the scalar and the mask registers alone. -/
theorem Group.writeRegs_vector {ws : List (RegId × Word)} (h : ∀ w ∈ ws, ∃ n l, w.1 = .v n l) :
    ∀ g : Group, (g.writeRegs ws).s = g.s ∧ (g.writeRegs ws).m = g.m := by
  induction ws with
  | nil => exact fun _ => ⟨rfl, rfl⟩
  | cons w ws ih =>
    intro g
    obtain ⟨n, l, hr⟩ := h w (List.mem_cons_self ..)
    obtain ⟨hs, hm⟩ := ih (fun w' hw' => h w' (List.mem_cons_of_mem _ hw')) (g.writeReg w.1 w.2)
    have one : (g.writeReg w.1 w.2).s = g.s ∧ (g.writeReg w.1 w.2).m = g.m := by
      rw [hr, Group.writeReg]; split <;> exact ⟨rfl, rfl⟩
    exact ⟨hs.trans one.1, hm.trans one.2⟩

/-- Of a group the carry changes its vector registers alone, and counts the step. -/
theorem Group.carry_part (g : Group) :
    g.carry = { g with step := g.step + 1, v := g.carry.v, vx := g.carry.vx, bad := g.carry.bad } := by
  have vector : ∀ w ∈ g.carryWrites, ∃ n l, w.1 = .v n l := by
    intro w hw
    simp only [Group.carryWrites, List.mem_flatMap, List.mem_map] at hw
    obtain ⟨l, -, j, -, rfl⟩ := hw
    exact ⟨_, _, rfl⟩
  have part := Group.writeRegs_eq g.carryWrites { g with step := g.step + 1 }
  obtain ⟨hs, hm⟩ := Group.writeRegs_vector vector { g with step := g.step + 1 }
  rw [hs, hm, ← Group.carry_eq] at part
  exact part

/-! ### The splits past their STEP (R46) -/

/-- A split that waited at STEP, at the word after it. -/
def Split.passStep (sp : Split) : Split := { sp with wait := .none, pc := sp.pc + 8 }

/-- One split goes on. -/
def Group.passStep (g : Group) (j : Nat) : Group :=
  if (g.split j).wait = .step then g.modSplit j Split.passStep else g

theorem Group.stepOn_eq (g : Group) : g.stepOn = g.liveSplits.foldl Group.passStep g := rfl

/-- Splits go on once each: one that has no longer waits at STEP. -/
theorem Group.split_passSteps (js : List Nat) (j : Nat) : ∀ g : Group, (js.foldl Group.passStep g).split j =
    if j ∈ js ∧ (g.split j).wait = .step then (g.split j).passStep else g.split j := by
  induction js with
  | nil => exact fun g => by simp
  | cons x js ih =>
    intro g
    have hx : (g.passStep x).split j = if j = x ∧ (g.split j).wait = .step then (g.split j).passStep else g.split j := by
      by_cases hj : j = x
      · subst hj
        by_cases hw : (g.split j).wait = .step
        · have hlt : j < g.splits.length := Nat.lt_of_not_le fun hle => by
            have hn : g.splits[j]? = none := List.getElem?_eq_none hle
            simp [Group.split, List.getD, hn] at hw
          simp [Group.passStep, hw, Group.split_modSplit_same hlt]
        · simp [Group.passStep, hw]
      · have keep : (g.passStep x).split j = g.split j := by
          unfold Group.passStep
          split
          · exact Group.split_modSplit_ne _ hj _
          · rfl
        rw [keep, if_neg fun h => hj h.1]
    rw [List.foldl_cons, ih, hx]
    by_cases hj : j = x
    · by_cases hw : (g.split j).wait = .step
      · simp [hj ▸ hw, hj, Split.passStep]
      · simp [hw]
    · simp [hj]

/-- Of a group splits that go on change the split table alone. -/
theorem Group.passSteps_part (js : List Nat) : ∀ g : Group,
    js.foldl Group.passStep g = { g with splits := (js.foldl Group.passStep g).splits } := by
  induction js with
  | nil => exact fun _ => rfl
  | cons x js ih =>
    intro g
    rw [List.foldl_cons, ih]
    unfold Group.passStep
    split <;> rfl

/-! ### The next step of a group (R46) -/

/-- A group in its next step. -/
def Group.nextStep (g : Group) : Group := ({ g.carry with stepWait := 0 } : Group).stepOn

theorem Group.splits_carry (g : Group) : g.carry.splits = g.splits := (congrArg Group.splits g.carry_part).trans rfl

theorem Group.nextStep_part (g : Group) : g.nextStep = { g.carry with stepWait := 0, splits := g.nextStep.splits } :=
  Group.passSteps_part _ { g.carry with stepWait := 0 }

theorem Group.nextStep_fields (g : Group) : g.nextStep.step = g.step + 1 ∧ g.nextStep.pub = g.pub ∧ g.nextStep.s = g.s
    ∧ g.nextStep.m = g.m := by
  rw [g.nextStep_part, g.carry_part]
  exact ⟨rfl, rfl, rfl, rfl⟩

theorem Group.split_nextStep {g : Group} {j : Nat} (hj : j ∈ g.liveSplits) (hw : (g.split j).wait = .step) :
    g.nextStep.split j = (g.split j).passStep := by
  have live : ({ g.carry with stepWait := 0 } : Group).liveSplits = g.liveSplits := by
    simp only [Group.liveSplits, Group.split, g.splits_carry]
  have split : ({ g.carry with stepWait := 0 } : Group).split j = g.split j := by
    simp only [Group.split, g.splits_carry]
  rw [Group.nextStep, Group.stepOn_eq, live, Group.split_passSteps, split, if_pos ⟨hj, hw⟩]

theorem Group.reads_nextStep (g : Group) (n ln : Nat) :
    g.nextStep.readV n ln = g.carry.readV n ln ∧ g.nextStep.readOther n ln = g.carry.readOther n ln := by
  rw [g.nextStep_part]
  exact ⟨rfl, rfl⟩

/-- An update of a group that is there by its value. -/
theorem State.modGroup_eq_const {s : State} {k : Nat} {g : Group} (h : s.group? k = some g) (f : Group → Group) :
    s.modGroup k f = s.modGroup k fun _ => f g := by
  have hf : Map.find? s.groups k = some g := h
  simp only [State.modGroup, Map.adjust, hf]

/-- STEP_ENTER where its condition holds. -/
theorem exec_stepEnter_of {s : State} {k : Nat} {g : Group} {l : Launch} {c : Ctx} (hg : s.group? k = some g)
    (hl : s.launch? g.launch = some l) (hc : s.ctx? g.launch g.core = some c)
    (ok : (!s.gate && s.running g && (g.published == g.step + 1 && !g.liveSplits.isEmpty
      && g.liveSplits.all fun j => (g.split j).wait == .step) && (c.sets == 1 || setsLet s g) && mayEnter s g c l.r) = true) :
    exec (.stepEnter k) s = .next ((s.modGroup k fun _ => g.nextStep).settle k) := by
  rw [exec_stepEnter, execStepEnter, happensStepEnter, hg]
  simp only [hl, hc]
  rw [occurs_event ok, State.modGroup_eq_const hg]
  rfl

/-! ### Pushes (R51, R55) -/

/-- A halo store holds for a key that no value names what it held. -/
theorem get_haloPut_ne (vals : List (Nat × Word)) {x : Nat} (h : ∀ v ∈ vals, v.1 ≠ x) :
    ∀ m : Map Word, Map.get (haloPut m vals) 0 x = Map.get m 0 x := by
  induction vals with
  | nil => exact fun _ => rfl
  | cons v vals ih =>
    intro m
    refine (ih (fun w hw => h w (List.mem_cons_of_mem _ hw)) _).trans ?_
    rw [Map.get_put, if_neg (Ne.symm (h v (List.mem_cons_self ..)))]

/-- A halo store holds for its key the one value that names it. -/
theorem get_haloPut_mem {v : Nat × Word} (vals : List (Nat × Word)) (h : ∀ w ∈ vals, w.1 = v.1 → w = v) :
    ∀ m : Map Word, v ∈ vals ∨ Map.get m 0 v.1 = v.2 → Map.get (haloPut m vals) 0 v.1 = v.2 := by
  induction vals with
  | nil => exact fun m hm => hm.resolve_left (List.not_mem_nil)
  | cons w vals ih =>
    intro m hm
    refine ih (fun w hw => h w (List.mem_cons_of_mem _ hw)) _ ?_
    rw [Map.get_put]
    by_cases hw : v.1 = w.1
    · exact .inr (by rw [if_pos hw, h w (List.mem_cons_self ..) hw.symm])
    · rw [if_neg hw]
      refine hm.imp_left fun hv => (List.mem_cons.mp hv).resolve_left fun he => hw (by rw [he])

/-- The halo store and the tokens of a context that a push reaches, wherever its slice lies (R51, R55). -/
theorem State.receivePush_ctx {s : State} {n core : Nat} {c : Ctx} (h : s.ctx? n core = some c) (r : Record)
    (src step : Nat) (final : Bool) (vals : List (Nat × Word)) (sent : Bool) :
    ∃ c', (s.receivePush n core r src step final vals sent).ctx? n core = some c'
      ∧ c'.halo = (c.receive src step final vals).halo ∧ c'.arrived = (c.receive src step final vals).arrived := by
  have got : (s.modCtx n core fun c => c.receive src step final vals).ctx? n core =
      some (c.receive src step final vals) := by simp [h]
  have bytes {t : State} {c' : Ctx} (ht : t.ctx? n core = some c') :
      ∃ c'', (t.haloBytes n core r vals).ctx? n core = some c'' ∧ c''.halo = c'.halo ∧ c''.arrived = c'.arrived := by
    obtain ⟨c'', hc, part, -⟩ := State.haloBytes_kept ht r vals
    exact ⟨c'', hc, by rw [part], by rw [part]⟩
  unfold State.receivePush
  dsimp only
  cases final with
  | true => exact ⟨_, got, rfl, rfl⟩
  | false =>
    cases sent with
    | false => exact bytes got
    | true => exact bytes (c' := (c.receive src step false vals).pend _ _) (by simp [h]; rfl)

/-! ### The swap of a core's sets (R53) -/

/-- CELL_SET_SWAP where a set has gone out: it is spilled. -/
theorem exec_cellSetSwap_spills {s : State} {n core i : Nat} {c : Ctx} (hg : s.gate = false)
    (hc : s.ctx? n core = some c) (hs : c.spilling = some i) : exec (.cellSetSwap n core) s =
      .next ((s.spillSet n core i).modCtx n core fun c => { c with spilling := none }) := by
  rw [exec_cellSetSwap, execCellSetSwap, happensCellSetSwap, hc]
  simp only [hs]
  exact occurs_event (by rw [hg]; rfl) _ _

/-- CELL_SET_SWAP where the next set is behind: the banks change over, and it runs. -/
theorem exec_cellSetSwap_swaps {s : State} {n core i : Nat} {c : Ctx} (hc : s.ctx? n core = some c)
    (hs : c.spilling = none) (hi : nextSet (s.coreGroups n core) c.set c.sets = some i)
    (ok : let own := (s.coreGroups n core).filter fun g => g.set == c.set && !g.gone
      (!s.gate && c.res == .active && (own.all fun g => g.published == g.step + 1) && (own.isEmpty
        || (if c.set < i then decide (setPublished (s.coreGroups n core) i < setPublished (s.coreGroups n core) c.set)
            else decide (setPublished (s.coreGroups n core) i ≤ setPublished (s.coreGroups n core) c.set)))) = true) :
    exec (.cellSetSwap n core) s =
      .next ((s.swapBank core).modCtx n core fun c => { c with set := i, spilling := some c.set }) := by
  rw [exec_cellSetSwap, execCellSetSwap, happensCellSetSwap, hc]
  simp only [hs, hi]
  exact occurs_event ok _ _

/-- The spill of a set changes memory, its marks and order, the host writes on their way and the counter of free values. -/
theorem State.spillSet_part (s : State) (n core set : Nat) :
    s.memoryPart { s.spillSet n core set with free := s.free } := by
  unfold State.spillSet
  split
  · exact State.memoryPart_trans (s.putPieces_part _ _) (by rw [s.putPieces_part]; rfl)
  · rfl

theorem State.spillSet_ctx? (s : State) (n core set n' core' : Nat) :
    (s.spillSet n core set).ctx? n' core' = s.ctx? n' core' := by
  have h : (s.spillSet n core set).ctxs = s.ctxs :=
    State.memoryPart_ctxs (t := { s.spillSet n core set with free := s.free }) (s.spillSet_part n core set)
  rw [State.ctx?, State.ctx?, h]

/-- A spilled set leaves the bytes outside its pieces alone. -/
theorem State.read_spillSet_ne {s : State} {n core set a : Nat} {l : Launch} {c : Ctx} (hl : s.launch? n = some l)
    (hc : s.ctx? n core = some c)
    (h : ∀ p ∈ s.setPieces l c set, ¬(l.phys p.va ≤ a ∧ a < l.phys p.va + p.bytes.length)) :
    Memory.read (s.spillSet n core set).mem a = Memory.read s.mem a := by
  simp only [State.spillSet, hl, hc]
  exact State.read_putPieces_ne _ h s

end Sys2Proof.Machine

namespace Sys2Proof.Proofs

open Sys2Proof Sys2Proof.Machine

/-- Settles O43, event by event: the condition of each holds, and its effect is read field by field. -/
theorem cellEvents : Obligations.CellEvents := by
  unfold Obligations.CellEvents
  refine ⟨?enter, ?push, ?peer, fun s n core src step r final sent vals c h =>
    State.receivePush_ctx h r src step final vals sent, ?receive, ?swap⟩
  case enter =>
    intro s k g l c hgate hg hrun hl hc hpub hlive hwait hsets hmay
    obtain ⟨hstep, hpubs, hs, hm⟩ := g.nextStep_fields
    refine ⟨exec_stepEnter_of hg hl hc ?_, hstep, hpubs, hs, hm, fun j hj => Group.split_nextStep hj (hwait j hj),
      fun n ln hn he hln hcell => ?_⟩
    · have hall : (g.liveSplits.all fun j => (g.split j).wait == .step) = true := by simpa using hwait
      have hset : (c.sets == 1 || setsLet s g) = true := by simpa using hsets
      simp [hgate, hrun, hpub, hlive, hall, hset, hmay]
    · obtain ⟨hv, ho⟩ := g.reads_nextStep n ln
      exact ⟨hv.trans (Group.readV_carry hn he hln hcell), ho.trans (Group.readOther_carry hn he hln)⟩
  case push =>
    intro s i p l hgate hp hl
    refine ⟨fun he => ?_, fun he hplane => ?_⟩
    · rw [exec_haloPushArrival, execHaloPushArrival, happensHaloPushArrival]
      simp only [hp, hl, he, if_true]
      exact occurs_event (by rw [hgate]; rfl) _ _
    · rw [exec_haloPushArrival, execHaloPushArrival, happensHaloPushArrival]
      simp only [hp, hl, he, if_false]
      exact occurs_event (by rw [hgate, hplane]; rfl) _ _
  case peer =>
    intro s n core src step final vals c l hgate hfab hl hc
    rw [exec_haloPushArrival, execHaloPushArrival, happensHaloPushArrival]
    simp only [hl]
    exact occurs_event (by rw [hgate, hc, hfab]; rfl) _ _
  case receive =>
    intro c src step final vals
    refine ⟨List.mem_append_right _ (List.mem_singleton.mpr rfl), fun hf => by rw [hf]; rfl, fun x hx => ?_,
      fun hf v hv hone => ?_⟩
    · cases final with
      | true => rfl
      | false => exact get_haloPut_ne vals hx c.halo
    · rw [hf]
      exact get_haloPut_mem vals hone c.halo (.inl hv)
  case swap =>
    intro s n core c hgate hc
    refine ⟨fun i hs hres hi hdone hbehind => ⟨exec_cellSetSwap_swaps hc hs hi ?_, ?_⟩, fun i hs => ?_⟩
    · have all : (((s.coreGroups n core).filter fun g => g.set == c.set && !g.gone).all fun g =>
          g.published == g.step + 1) = true := List.all_eq_true.mpr fun g hg => beq_iff_eq.mpr (hdone g hg)
      have behind : ((((s.coreGroups n core).filter fun g => g.set == c.set && !g.gone).isEmpty
          || (if c.set < i then decide (setPublished (s.coreGroups n core) i < setPublished (s.coreGroups n core) c.set)
            else decide (setPublished (s.coreGroups n core) i ≤ setPublished (s.coreGroups n core) c.set)))) = true := by
        rcases hbehind with hown | ⟨hlt, hp⟩ | ⟨hle, hp⟩
        · rw [hown]; rfl
        · rw [if_pos hlt, decide_eq_true hp, Bool.or_true]
        · rw [if_neg (Nat.not_lt.mpr hle), decide_eq_true hp, Bool.or_true]
      dsimp only
      rw [all, behind, hgate, hres]
      rfl
    · simp [State.swapBank]
    · refine ⟨_, { c with spilling := none }, exec_cellSetSwap_spills hgate hc hs, ?_, rfl, rfl, ?_, fun l hl a ha => ?_⟩
      · simp [State.spillSet_ctx?, hc]
      · exact congrArg (fun t : State => { t with
          ctxs := ((s.spillSet n core i).modCtx n core fun c => { c with spilling := none }).ctxs,
          free := (s.spillSet n core i).free }) (s.spillSet_part n core i)
      · exact State.read_spillSet_ne hl hc ha

end Sys2Proof.Proofs

/-!
PROOFS. A completion whose barrier lies in the launch's own save area (O49, refuted).
-/

namespace Sys2Proof.Machine

open Sys2Proof

/-- A launch that has ended, with its completion barrier where its save area takes the first queued trap record (R182). -/
def lOver : Launch :=
  { r := { loadRecord with compl := 1728640 }, queue := 0, rslot := 0, addr := 0x10200, cores := [⟨0, 0, 0⟩],
    pins := [⟨1703936, 1, true⟩], pages := [(26, ⟨1703936, true⟩)], started := 1, ended := [0], allots := [(0, 0, 0)] }

/-- The trap of its group 4 that is queued (R292). -/
def trapOver : TrapRec :=
  { cause := 0x90, lane := 0, pc := 0x10008, tmask := allLanes, aux := 5, msg := 0, group := 4, split := 0 }

/-- Its context lies in the save area. -/
def cOver : Ctx := { launch := 0, core := 0, index := 0, sliceBytes := 128, res := .saved, trapq := [trapOver] }

/-- Two of its groups stand. -/
def sOver : State :=
  { State.reset with
    groups := [(0, newGroup 0 0 0 0 0 loadRecord []), (4, newGroup 0 0 0 0 4 loadRecord [])]
    ctxs := [(0, cOver)], launches := [(0, lOver)], nextLaunch := 1 }

/-- The state that an outcome gives. -/
def stateOf : Host.Outcome State Fault Refusal → Option State
  | .next t => some t
  | _ => none

/-- The queued trap record is written where the barrier lies. -/
theorem lOver_phys : lOver.phys lOver.r.compl = 1728640 ∧ lOver.phys (lOver.r.stateVa cOver + 8192) = 1728640 := by
  decide

/-- The first bytes of the barrier after the completion: the cause of the trap. -/
theorem compl_bytes_sOver : (stateOf (exec (.launchCompletion 0) sOver)).map (fun t => t.physBytes 1728640 1) =
    some [0x90] := by
  decide +kernel

/-- What the arrival alone leaves there, of what the barrier held. -/
theorem arrive_bytes_sOver :
    (leBytes 16 (Tb.arrive 1 (Tb.of (leNat (sOver.physBytes 1728640 16)))).toNat).take 1 = [0] := by
  decide +kernel

end Sys2Proof.Machine

namespace Sys2Proof.Proofs

open Sys2Proof Sys2Proof.Machine

/-- Refutes O49 in its third clause: LAUNCH_COMPLETION drops the groups of a launch before it arrives at the launch's
barrier, and the drop of one group writes the queued trap records of the others into the saved image of a context that is
away (R180). Where the barrier lies there, the arrival counts on the record and not on what the barrier held. -/
theorem not_schedulerEvents : ¬ Obligations.SchedulerEvents := by
  unfold Obligations.SchedulerEvents
  rintro ⟨-, -, completion, -⟩
  obtain ⟨t, ht, -, -, -, after⟩ := completion sOver 0 lOver rfl rfl (.inr rfl) (by decide) (by decide)
  obtain ⟨-, -, barrier, -⟩ := after rfl rfl (by decide) (by decide)
  have arrived : t.physBytes 1728640 16 =
      leBytes 16 (Tb.arrive 1 (Tb.of (leNat (sOver.physBytes 1728640 16)))).toNat := by
    have bytes := barrier (by decide) (by decide) (by decide) (.inl (by decide))
    rwa [lOver_phys.1] at bytes
  have record : (t.physBytes 1728640 16).take 1 = [0x90] := by
    have cause := compl_bytes_sOver
    rw [ht] at cause
    exact Option.some.inj cause
  rw [arrived, arrive_bytes_sOver] at record
  exact absurd record (by decide)

end Sys2Proof.Proofs

/-!
PROOFS. Words of floating point (O5) and of conversion (O7, refuted).
-/

namespace Sys2Proof.Machine

open Sys2Proof

/-! ### Words that are computed element by element (R13, R87) -/

section
variable {i : Instr} {w : FWord XArith} (hb : Instr.atBarrier i = false) (hc : Instr.crossLane i = false)
include hb hc

/-- Two sources: the operands read the same before the word has begun and after. -/
theorem elementWord_of_arith2 {f : Nat → Nat → Nat} {u : Nat → Nat → Nat → FlagUpd}
    (hx : ∀ s, exec i s = arith2 i w f u s) : ElementWord i w f u :=
  valueWord_of_arith hb hc hx (fun _ _ _ => rfl) (fun _ _ _ _ => rfl)
    (fun s it b j g l => by rw [srcA_begun, srcB_begun]) fun s it b j g l x => by rw [srcA_begun, srcB_begun]

/-- One source, into a destination of `regs` registers. -/
theorem elementWord1_of_arith {regs : Nat} {f : Nat → Nat} {u : Nat → FlagUpd}
    (hx : ∀ s, exec i s = arith i w false regs (fun s it l => map1 w.x.ty f (srcA w s it l)) (fun _ _ _ r => u r) s) :
    ElementWord1 i w regs f fun _ r => u r :=
  valueWord_of_arith hb hc hx (fun _ _ _ => rfl) (fun _ _ _ _ => rfl)
    (fun s it b j g l => by rw [srcA_begun]) fun _ _ _ _ _ _ _ => rfl

end

/-! ### A CVTQ whose D is a scalar, which no word that decodes has (R234) -/

/-- CVTQ of a QX4 block of type 1 from v8 into s4. -/
def cvtqScalar : FWord XArith :=
  ⟨⟨0, false⟩, 0, .s 4, .v 8, .v 0, ⟨.f32, .rne, false, false, false, false, false, false, 1⟩⟩

/-- One group that has just started, with every register 0. -/
def gStart : Group := newGroup 0 0 0 0 0 loadRecord []
def lStart : Launch :=
  { r := loadRecord, queue := 0, rslot := 0, addr := 0x10200, cores := [⟨0, 0, 0⟩], pins := [], pages := [], started := 1 }
def cStart : Ctx := { launch := 0, core := 0, index := 0, sliceBytes := 128 }
def sStart : State :=
  { State.reset with groups := [(0, gStart)], ctxs := [(0, cStart)], launches := [(0, lStart)], nextLaunch := 1 }
def iStart : Iss := ⟨0, 0, gStart, gStart, gStart.split 0, lStart, cStart⟩

theorem iss_sStart : sStart.iss = some iStart := rfl

/-- No path of the group is at its end, and none has merged wrongly: its entries but the first are not in use. -/
theorem flows_iStart : iStart.flows (iStart.sp.pc + 8) := by
  refine ⟨by decide, fun i => ?_⟩
  match i with
  | 0 | 1 | 2 | 3 => exact ⟨by decide, by decide⟩
  | i + 4 => exact ⟨rfl, rfl⟩

theorem issues_cvtqScalar : Issues (.cvtq cvtqScalar) sStart iStart := ⟨⟨iss_sStart, rfl, rfl⟩, flows_iStart⟩

/-- The decoder has no such word: D of CVTQ is a vector register (R188, R234). -/
theorem cvtqScalar_illFormed : (Instr.cvtq cvtqScalar).wellFormed = false := by decide

/-- What the model leaves in s4: the scale byte of the block, which is lane 4's output word. -/
theorem cvtq_scalar_writes : ((stateOf (exec (.cvtq cvtqScalar) sStart)).bind fun t =>
    (t.group? 0).map fun g => g.readReg (.s 4)) = some 64 := by
  decide +kernel

end Sys2Proof.Machine

namespace Sys2Proof.Proofs

open Sys2Proof Sys2Proof.Machine

/-- Settles O5: every float word has the arithmetic shape, and its operands and its own D read before issue as its effect
finds them. -/
theorem floatWords : Obligations.FloatWords := by
  unfold Obligations.FloatWords
  intro w
  refine ⟨?fadd, ?fsub, ?fmul, ?fmin, ?fmax, ?frnd, ?fclass, ?ffma, ?fdot2⟩
  case fadd => exact elementWord_of_arith2 rfl rfl (exec_fadd w)
  case fsub => exact elementWord_of_arith2 rfl rfl (exec_fsub w)
  case fmul => exact elementWord_of_arith2 rfl rfl (exec_fmul w)
  case fmin => exact elementWord_of_arith2 rfl rfl (exec_fmin w)
  case fmax => exact elementWord_of_arith2 rfl rfl (exec_fmax w)
  case frnd => exact elementWord1_of_arith rfl rfl (exec_frnd w)
  case fclass => exact elementWord1_of_arith rfl rfl (exec_fclass w)
  case ffma =>
    refine valueWord_of_arith rfl rfl (fun s => by rw [exec_ffma, execFfma]) (fun _ _ _ => rfl) (fun _ _ _ _ => rfl)
      (fun s it b j g l => ?_) fun _ _ _ _ _ _ _ => rfl
    simp only [srcA_begun, srcB_begun, dstVal_seen]
  case fdot2 =>
    refine valueWord_of_arith rfl rfl (fun s => by rw [exec_fdot2, execFdot2]) (fun _ _ _ => rfl) (fun _ _ _ _ => rfl)
      (fun s it b j g l => ?_) fun _ _ _ _ _ _ _ => rfl
    simp only [srcA_begun, srcB_begun, dstVal_seen]

/-- Refutes O7 in its clause of CVTQ, for a scalar D, which the decoder refuses but the statement does not exclude: it says
that no register changes, and the model writes the output word of each active lane to that one register, the scale byte
last. -/
theorem not_conversionWords : ¬ Obligations.ConversionWords := by
  unfold Obligations.ConversionWords
  rintro ⟨-, words⟩
  obtain ⟨-, -, cvtq, -⟩ := words cvtqScalar
  obtain ⟨t, g', next, ⟨group, -⟩, -, -, ⟨registers, -⟩, -⟩ := cvtq sStart iStart issues_cvtqScalar
  have written : g'.readReg (.s 4) = 64 := by
    have value := cvtq_scalar_writes
    rw [next] at value
    simpa [stateOf, show t.group? 0 = some g' from group] using value
  have kept : g'.readReg (.s 4) = 0 := registers (.s 4) trivial
  rw [kept] at written
  exact absurd written (by decide)

end Sys2Proof.Proofs

/-!
PROOFS. Parcels in transit (O48): what ends a POST's thread leaves of its slot, what lands in a slot, and each event
where its condition holds.
-/

namespace Sys2Proof.Machine

open Sys2Proof

/-! ### Slots -/

@[simp] theorem State.slot_modSlot_same (s : State) (a i : Nat) (f : Slot → Slot) :
    (s.modSlot a i f).slot a i = f (s.slot a i) := Map.get_put_same ..

theorem State.memoryPart_slots {s t : State} (h : s.memoryPart t) : t.slots = s.slots := by
  unfold State.memoryPart at h; rw [h]

theorem State.slot_congr {s t : State} (h : t.slots = s.slots) (a i : Nat) : t.slot a i = s.slot a i := by
  simp only [State.slot, h]

@[simp] theorem State.drainIf_slots (s : State) (f : Store → Bool) : (s.drainIf f).slots = s.slots :=
  State.memoryPart_slots (t := { s.drainIf f with stores := s.stores }) (s.drainIf_part f)

@[simp] theorem State.completeHost_slots (s : State) (ids : List Nat) : (s.completeHost ids).slots = s.slots :=
  s.drainIf_slots _

/-! ### The end of a POST's thread (R136, R138) -/

@[simp] theorem State.slicePut_slots (s : State) (w : Stamp) (launch core off : Nat) (bs : List Byte) :
    (s.slicePut w launch core off bs).slots = s.slots := by
  rw [State.slicePut_eq, State.memoryPart_slots (State.imageBad_part ..), State.memoryPart_slots (State.imageStore_part ..)]
  rfl

@[simp] theorem State.tbCount_slots (s : State) (sp : Space) (off : Nat) (old new : Tb) (rels : List Rel) :
    (s.tbCount sp off old new rels).slots = s.slots := by
  unfold State.tbCount
  split <;> rfl

@[simp] theorem State.threadBar_slots (s : State) (th : Thread) (f : Tb → Tb) (rels : List Rel) :
    (s.threadBar th f rels).slots = s.slots := by
  unfold State.threadBar
  split
  · simp [State.tbUpdate]
  · rfl

@[simp] theorem State.threadJoin_slots (s : State) (th : Thread) : (s.threadJoin th).slots = s.slots := by
  simp [State.threadJoin]

@[simp] theorem State.slot_endPost (s : State) (t : Nat) (th : Thread) (a i : Nat) :
    (s.endPost t th).slot a i = s.slot a i := State.slot_congr (s.threadJoin_slots th) a i

@[simp] theorem State.threads_endPost (s : State) (t : Nat) (th : Thread) : Map.find? (s.endPost t th).threads t = none := by
  simp [State.endPost, Map.find?_del]

/-! ### The contents that land (R136, R139) -/

theorem State.fillSlot_part (s : State) (a i : Nat) (data : List Byte) (tags bad : List Nat) :
    s.memoryPart (s.fillSlot a i data tags bad) :=
  State.memoryPart_trans
    (State.foldl_keeps State.memoryPart_refl State.memoryPart_trans (fun s _ => s.writeBy_part ..) _ s) rfl

/-- The receiving slot once the contents are in it, before its handle is queued. -/
def State.filledSlot (s : State) (a i : Nat) (data : List Byte) (tags bad : List Nat) : State :=
  (s.fillSlot a i data tags bad).modSlot a i fun x => { x with st := 5 }

theorem State.filledSlot_part (s : State) (a i : Nat) (data : List Byte) (tags bad : List Nat) :
    (s.filledSlot a i data tags bad).regs = s.regs ∧ (s.filledSlot a i data tags bad).inboxes = s.inboxes := by
  have part := s.fillSlot_part a i data tags bad
  unfold State.memoryPart at part
  rw [State.filledSlot, part]
  exact ⟨rfl, rfl⟩

theorem State.slot_filledSlot (s : State) (a i : Nat) (data : List Byte) (tags bad : List Nat) :
    (s.filledSlot a i data tags bad).slot a i = { s.slot a i with st := 5 } := by
  rw [State.filledSlot, State.slot_modSlot_same, State.slot_congr (State.memoryPart_slots (s.fillSlot_part ..))]

/-- The handle of the slot is what it was: the landing leaves GEN. -/
theorem State.handleOf_filledSlot (s : State) (a i : Nat) (data : List Byte) (tags bad : List Nat) :
    (s.filledSlot a i data tags bad).handleOf a i = s.handleOf a i := by
  simp only [State.handleOf, State.slot_filledSlot, (s.filledSlot_part a i data tags bad).1]

section
variable (s : State) (a i inbox : Nat) (data : List Byte) (tags bad carried : List Nat) (m : Obs)

/-- An arrival fills the slot, then queues its handle with what its pop acquires. -/
theorem State.arrive_eq :
    let t := s.filledSlot a i data tags bad
    let fill := (List.range (t.nextWrite - s.nextWrite)).map fun k => s.nextWrite + k
    s.arrive a i inbox data tags bad carried m = { t with
      inboxes := Map.put t.inboxes [] inbox (Map.get t.inboxes [] inbox ++ [t.handleOf a i])
      handleRels := Map.ins t.handleRels (t.handleOf a i) { maker := .fabric, mask := m, writes := carried ++ fill } } := rfl

theorem State.slot_arrive :
    (s.arrive a i inbox data tags bad carried m).slot a i = { s.slot a i with st := 5 } := s.slot_filledSlot ..

theorem State.inboxes_arrive : Map.get (s.arrive a i inbox data tags bad carried m).inboxes [] inbox =
    Map.get s.inboxes [] inbox ++ [s.handleOf a i] := by
  simp only [State.arrive_eq, Map.get_put_same, State.handleOf_filledSlot, State.filledSlot_part]

theorem State.handleRels_arrive :
    ∃ r, Map.find? (s.arrive a i inbox data tags bad carried m).handleRels (s.handleOf a i) = some r ∧ r.mask = m
      ∧ ∀ w ∈ carried, w ∈ r.writes := by
  simp only [State.arrive_eq, State.handleOf_filledSlot, Map.find?_ins_same]
  exact ⟨_, rfl, rfl, fun w hw => List.mem_append_left _ hw⟩

end

theorem tagsOk_iff {len : Nat} {data : List Byte} {tags bad : List Nat} : tagsOk len data tags bad = true ↔
    ∀ w ∈ tags, (∃ i < 4, 4 * w + i ∈ bad) ∨ leNat ((data.drop (4 * w)).take 4) < 128 * len := by
  simp [tagsOk, List.all_eq_true]

/-! ### The events of a parcel of this device -/

section
variable {s : State} {t : Nat} {th : Thread} {x : Transit} (gate : s.gate = false) (post : s.transit t = some (th, x))
include gate post

/-- A sealed parcel whose release has completed is read and leaves (R136, step 4; R139): over the fabric where it goes to a
peer. -/
theorem exec_parcelTransitStart_sealed (held : th.held = false) (st : (s.slot x.arena x.slot).st = 2)
    (here : s.slotLost x.arena x.slot = false) (way : x.dev = s.regs.devno ∨ s.noPlane = false) :
    exec (.parcelTransitStart t) s = .next
      (let sent := s.modSlot x.arena x.slot fun y => { y with st := 3 }
       let c := s.slotContents x.arena x.slot
       if x.dev == s.regs.devno then sent
       else sent.send [.parcel x.dev t x.inbox (s.slot x.arena x.slot).len c.1 c.2.1 c.2.2]) := by
  rw [exec_parcelTransitStart, execParcelTransitStart, happensParcelTransitStart, post]
  exact occurs_event (by simpa [gate, held, st, here] using way) ..

/-- The first packet of a parcel to an inbox of this device takes its slot there (R136, step 5). -/
theorem exec_parcelFirstPacket_own {a i : Nat} (st : (s.slot x.arena x.slot).st = 3) (own : x.dev = s.regs.devno)
    (recv : x.recv = none) (lands : s.landingSlot x.inbox (s.slot x.arena x.slot).len = .ok (a, i)) :
    exec (.parcelFirstPacket (.own t)) s = .next
      ((s.takeSlot a i (s.slot x.arena x.slot).len).setRecv t x (some (a, i))) := by
  simp only [exec_parcelFirstPacket, execParcelFirstPacket, happensParcelFirstPacket, post, lands]
  exact occurs_event (by simp [gate, st, own, recv]) ..

/-- The contents of a parcel of this device are in its receiving slot: it arrives where its tags hold, else returns
(R136, steps 6 and 9; R427). -/
theorem exec_parcelLanded_own {a i : Nat} (recv : x.recv = some (a, i)) (st : (s.slot a i).st = 4) (done : th.done = [])
    (here : s.slotLost a i = false) (there : s.slotLost x.arena x.slot = false) :
    exec (.parcelLanded (.own t) [] [] []) s = .next
      (let c := s.slotContents x.arena x.slot
       let r := (Map.find? s.handleRels (s.handleOf x.arena x.slot)).getD ⟨.fabric, Obs.all, []⟩
       if tagsOk (s.slot x.arena x.slot).len c.1 c.2.1 c.2.2 then
         (s.arrive a i x.inbox c.1 c.2.1 c.2.2 r.writes r.mask).modThread t fun th => { th with done := [1] }
       else s.returnParcel t th x 4) := by
  simp only [exec_parcelLanded, execParcelLanded, happensParcelLanded, post, recv, here, there, Bool.or_self,
    Bool.false_eq_true, if_false]
  rw [occurs_event (by simp [gate, st, done])]
  refine congrArg Host.Outcome.next ?_
  cases tagsOk _ _ _ _ <;> rfl

/-- An acknowledgement frees the sender's slot and ends the POST (R136, step 7; R138). -/
theorem exec_parcelAck_sent (st : (s.slot x.arena x.slot).st = 3) (landed : x.dev ≠ s.regs.devno ∨ th.done = [1]) :
    exec (.parcelAck t) s = .next
      (((s.dropRel (s.handleOf x.arena x.slot)).modSlot x.arena x.slot Slot.release).endPost t th) := by
  rw [exec_parcelAck, execParcelAck, happensParcelAck, post]
  exact occurs_event (by simpa [gate, st] using landed) ..

/-- A peer returns a parcel for any cause (R136, step 8; R140, R428). -/
theorem exec_parcelReturn_peer {cause : Nat} (done : th.done = []) (st : (s.slot x.arena x.slot).st = 3)
    (peer : x.dev ≠ s.regs.devno) (low : 1 ≤ cause) (high : cause ≤ 5) :
    exec (.parcelReturn t cause) s = .next (s.returnParcel t th x cause) := by
  have may : s.mayReturn x cause = true := by simp [State.mayReturn, peer, st, low, high]
  rw [exec_parcelReturn, execParcelReturn, happensParcelReturn, post]
  exact occurs_event (by simp [gate, done, may]) ..

end

/-- A parcel that has no slot at its inbox returns into its own, and its POST ends (R136, step 8). -/
theorem State.returnParcel_unreceived (s : State) (t : Nat) (th : Thread) {x : Transit} (recv : x.recv = none) (cause : Nat) :
    s.returnParcel t th x cause = ((s.dropRel (s.handleOf x.arena x.slot)).modSlot x.arena x.slot fun y =>
      { y with st := 6, cause := cause }).endPost t th := by
  rw [State.returnParcel, recv]

/-! ### The events of a peer's parcel -/

/-- The first packet of a peer's parcel takes a slot of its inbox, or the parcel returns at once (R136, step 5; R140). -/
theorem exec_parcelFirstPacket_peer {s : State} {dev id : Nat} (len inbox : Nat) (gate : s.gate = false)
    (taking : s.taking = false) (on : s.regs.fabEn = true) (first : ∀ l ∈ s.landings, ¬(l.1 = dev ∧ l.2.1 = id)) :
    exec (.parcelFirstPacket (.peer dev id len inbox)) s = .next
      (match s.landingSlot inbox len with
       | .error c => s.send [.parcelReturn dev id c]
       | .ok (a, i) => { s.takeSlot a i len with landings := s.landings ++ [(dev, id, a, i)] }) := by
  rw [exec_parcelFirstPacket, execParcelFirstPacket, happensParcelFirstPacket]
  exact occurs_event (by simpa [gate, taking, on] using fun a b c d h e e' => first (a, b, c, d) h ⟨e, e'⟩) ..

/-- A peer's parcel that has come whole arrives and is acknowledged where its tags hold, else returns (R136, steps 6 and
9; R427). -/
theorem exec_parcelLanded_peer {s : State} {dev id a i inbox : Nat} {e : ArenaEntry} {data : List Byte}
    (tags bad : List Nat) (gate : s.gate = false) (on : s.regs.fabEn = true)
    (landing : s.landings.find? (fun l => l.1 == dev && l.2.1 == id) = some (dev, id, a, i))
    (box : s.inboxArena inbox = some (a, e)) (whole : data.length = 128 * (s.slot a i).len)
    (here : s.slotLost a i = false) :
    exec (.parcelLanded (.peer dev id (s.slot a i).len inbox) data tags bad) s = .next
      (let s' := { s with landings := s.landings.filter (· ≠ (dev, id, a, i)) }
       if tagsOk (s.slot a i).len data tags bad then
         (s'.arrive a i inbox data tags bad s.fabricCarried Obs.all).send [.parcelAck dev id]
       else (s'.modSlot a i Slot.release).send [.parcelReturn dev id 4]) := by
  simp only [exec_parcelLanded, execParcelLanded, happensParcelLanded, landing, here, Bool.false_eq_true, if_false]
  rw [occurs_event (by simp [gate, on, whole, box])]
  refine congrArg Host.Outcome.next ?_
  cases tagsOk _ _ _ _ <;> rfl

end Sys2Proof.Machine

namespace Sys2Proof.Proofs

open Sys2Proof Sys2Proof.Machine

/-- Settles O48, event by event: the condition of each is among the premises, and what follows of slots, inboxes and
threads is read off the state that it makes. -/
theorem parcelEvents : Obligations.ParcelEvents := by
  unfold Obligations.ParcelEvents
  refine ⟨?own, ?firstPacket, ?landed, ?arrive, ?tags⟩
  case own =>
    intro s t th x gate post st len c sent
    refine ⟨fun held sealed here => ⟨fun own => ?_, fun peer plane => ?_⟩, fun a i sending own recv lands => ?_,
      fun a i recv landing done here there => ⟨fun ok => ?_, fun bad => ?_⟩, fun sending landed => ?_,
      fun cause done sending peer recv low high => ?_⟩
    · rw [exec_parcelTransitStart_sealed gate post held sealed here (.inl own)]
      simp only [own, beq_self_eq_true, if_true]; rfl
    · rw [exec_parcelTransitStart_sealed gate post held sealed here (.inr plane)]
      simp only [beq_eq_false_iff_ne.mpr peer, Bool.false_eq_true, if_false]; rfl
    · exact exec_parcelFirstPacket_own gate post sending own recv lands
    · exact (exec_parcelLanded_own gate post recv landing done here there).trans (congrArg _ (if_pos ok))
    · exact (exec_parcelLanded_own gate post recv landing done here there).trans (congrArg _ (if_neg (by rw [bad]; decide)))
    · refine ⟨_, exec_parcelAck_sent gate post sending landed, ?_, State.threads_endPost ..⟩
      rw [State.slot_endPost, State.slot_modSlot_same]; rfl
    · refine ⟨_, (exec_parcelReturn_peer gate post done sending peer low high).trans
        (congrArg _ (State.returnParcel_unreceived s t th recv cause)), ?_, State.threads_endPost ..⟩
      rw [State.slot_endPost, State.slot_modSlot_same]; rfl
  case firstPacket =>
    intro s dev id len inbox gate taking on first
    refine ⟨fun c refused => ?_, fun a i lands => ?_⟩
    · rw [exec_parcelFirstPacket_peer len inbox gate taking on first, refused]
    · rw [exec_parcelFirstPacket_peer len inbox gate taking on first, lands]; rfl
  case landed =>
    intro s dev id a i inbox e data tags bad gate on landing box whole here
    exact exec_parcelLanded_peer tags bad gate on landing box whole here
  case arrive =>
    intro s a i inbox data tags bad carried m
    exact ⟨s.slot_arrive .., s.inboxes_arrive .., s.handleRels_arrive ..⟩
  case tags => exact fun a tags bad data => tagsOk_iff

end Sys2Proof.Proofs

/-!
PROOFS. The parcel words (O40): what a parcel word finds of its handle, what of the machine a word may change beside its
own group, the stores that a word issues, and the completions that they have in common.
-/

namespace Sys2Proof.Machine

open Sys2Proof

/-! ### What a parcel word finds -/

section
variable (s : State) (it b : Iss) (i : Instr) (f : Bool)

@[simp] theorem State.begun_slots : (s.begun it i f).slots = s.slots := by rw [State.begun_eq]
@[simp] theorem State.begun_arenas : (s.begun it i f).arenas = s.arenas := by rw [State.begun_eq]
@[simp] theorem State.begun_inboxes : (s.begun it i f).inboxes = s.inboxes := by rw [State.begun_eq]
@[simp] theorem State.begun_regs : (s.begun it i f).regs = s.regs := by rw [State.begun_eq]
@[simp] theorem State.begun_ctxs : (s.begun it i f).ctxs = s.ctxs := by rw [State.begun_eq]
@[simp] theorem State.begun_stores : (s.begun it i f).stores = s.stores := by rw [State.begun_eq]
@[simp] theorem State.begun_atoms : (s.begun it i f).atoms = s.atoms := by rw [State.begun_eq]
@[simp] theorem State.begun_mem : (s.begun it i f).mem = s.mem := by rw [State.begun_eq]
@[simp] theorem State.begun_tags : (s.begun it i f).tags = s.tags := by rw [State.begun_eq]
@[simp] theorem State.begun_nextId : (s.begun it i f).nextId = s.nextId := by rw [State.begun_eq]

@[simp] theorem State.begun_slot (a x : Nat) : (s.begun it i f).slot a x = s.slot a x := by
  simp only [State.slot, State.begun_slots]

@[simp] theorem State.begun_arena (a : Nat) : (s.begun it i f).arena a = s.arena a := by
  simp only [State.arena, State.begun_arenas]

@[simp] theorem State.begun_liveHandle (h : Handle) : (s.begun it i f).liveHandle h = s.liveHandle h := by
  simp [State.liveHandle]

@[simp] theorem State.begun_freeSlot (a : Nat) : (s.begun it i f).freeSlot a = s.freeSlot a := by
  simp [State.freeSlot]

@[simp] theorem State.begun_inboxArena (n : Nat) : (s.begun it i f).inboxArena n = s.inboxArena n := by
  simp [State.inboxArena, State.validArenas]

@[simp] theorem State.begun_inRegion (k : Nat) : (s.begun it i f).inRegion k = s.inRegion k := by
  simp only [State.inRegion, State.group?_begun_map]
  split
  · rw [Option.bind_map]; rfl
  · rfl

@[simp] theorem scrAt_begun (a n : Nat) : scrAt (s.begun b i f) (it.seen b i f) a n = scrAt s it a n := by
  simp only [scrAt, State.ctx?, State.begun_ctxs]; rfl

@[simp] theorem slicePlace_begun (window : Bool) (a : Nat) :
    slicePlace (s.begun b i f) (it.seen b i f) window a = slicePlace s it window a := by simp [slicePlace]

@[simp] theorem Iss.seen_scalar (o : Src) : (it.seen b i f).scalar o = it.scalar o := by cases o <;> rfl

@[simp] theorem Iss.seen_trapWord (cause : Nat) (m : Mask) (aux : Nat) :
    (it.seen b i f).trapWord cause m aux = it.trapWord cause m aux := by simp [Iss.trapWord]

@[simp] theorem Iss.seen_trapOpen (cause : Nat) (m : Mask) :
    (it.seen b i f).trapOpen s cause m = it.trapOpen s cause m := by simp [Iss.trapOpen]

@[simp] theorem dataVal_seen (d : Dst) (regs l : Nat) : dataVal (it.seen b i f) d regs l = dataVal it d regs l := by
  cases d <;> rfl

@[simp] theorem accesses_seen (m : Mask) (perLane : Bool) (addr : Nat → Nat) :
    accesses (it.seen b i f) m perLane addr = accesses it m perLane addr := by simp [accesses]

/-- The accesses of a word through its handle are those that the state before its issue shows. -/
theorem parcelAccs_begun (m : Mask) (w : FWord XMem) (base : Nat) :
    parcelAccs (s.begun b i f) (it.seen b i f) m w base =
      accesses it m (w.d.isVec || w.b.isVec) fun l => base + src32 s it w.b l := by
  simp only [parcelAccs, accesses_seen, src32_begun]

end

/-- The local barrier that an engine word names is found in the state before its issue (R310). -/
theorem localBar_begun {s : State} {it : Iss} {d : Dst} {bar : Option Nat} (h : LocalBar s it d bar) (b : Iss) (i : Instr)
    (f : Bool) (m : Mask) (k : Option Nat → Eff) : localBar (s.begun b i f) (it.seen b i f) m d k = k bar := by
  cases d with
  | s n =>
    obtain ⟨rfl, aligned, place, room⟩ := h
    have good : (placeBad (s.begun b i f) (it.seen b i f) false 16 (it.g.readS n).toNat
        || pastSlice (s.begun b i f) (it.seen b i f) (it.g.readS n).toNat 16) = false := by
      simpa [placeBad, pastSlice, aligned] using ⟨place, room⟩
    simp only [localBar, Iss.seen_readS, good, Bool.false_eq_true, if_false]
  | v n => rw [show bar = none from h]; rfl
  | nb n => rw [show bar = none from h]; rfl
  | m n => rw [show bar = none from h]; rfl

/-! ### Words that read a handle (R134, R137) -/

/-- A word of a handle: nothing where its mask is empty, else the checks of its handle, and `k` where they pass. -/
def handleEff (p : Pred) (a : Src) (unlocked : Bool) (k : State → Iss → Handle → ArenaEntry → Slot → Eff) (s : State)
    (it : Iss) : Eff :=
  if it.exec p = 0 then .ok s none else withHandle s it (it.exec p) a unlocked (k s it)

/-- The handle h that a word reads at A is live, its arena is e, its slot sl, and the slot's state word is pinned. -/
structure Iss.opens (it : Iss) (s : State) (a : Src) (h : Handle) (e : ArenaEntry) (sl : Slot) : Prop where
  handle : Handle.of (it.pair a) = h
  arena : s.arena h.arena = e
  slot : s.slot h.arena h.index = sl
  live : s.liveHandle h = true
  pinned : it.l.pinned (e.sstate + 8 * h.index) = true

section
variable {i : Instr} {s : State} {it : Iss} {p : Pred} {a : Src} {h : Handle} {e : ArenaEntry} {sl : Slot} {unlocked : Bool}

theorem withHandle_open (o : it.opens s a h e sl) (free : unlocked = true → sl.locked = false) (m : Mask)
    (k : Handle → ArenaEntry → Slot → Eff) :
    withHandle (s.begun it i true) (it.seen it i true) m a unlocked k = k h e sl := by
  obtain ⟨rfl, rfl, rfl, live, pinned⟩ := o
  have free' : (unlocked && (s.slot (Handle.of (it.pair a)).arena (Handle.of (it.pair a)).index).locked) = false := by
    cases unlocked
    · rfl
    · simpa using free rfl
  simp [withHandle, live, free', pinned]

variable {k : State → Iss → Handle → ArenaEntry → Slot → Eff} (hm : it.exec p ≠ 0)
include hm

theorem handleEff_open (o : it.opens s a h e sl) (free : unlocked = true → sl.locked = false) :
    handleEff p a unlocked k (s.begun it i true) (it.seen it i true) = k (s.begun it i true) (it.seen it i true) h e sl := by
  rw [handleEff, Iss.seen_exec, if_neg hm, withHandle_open o free]

variable (hb : Instr.atBarrier i = false) (hc : Instr.crossLane i = false) (issued : Issued i s it)
include hb hc issued

/-- A handle that is not live raises cause 0x42 (R134). -/
theorem raises_deadHandle (hx : exec i s = issueAs i true s (handleEff p a unlocked k))
    (dead : s.liveHandle (Handle.of (it.pair a)) = false) :
    Raises i s it (it.trapWord 0x42 (it.exec p) (it.pair a)) :=
  raises_of_effect hb hc hx issued (by rw [handleEff, Iss.seen_exec, if_neg hm]; simp [withHandle, dead])

/-- A locked slot raises cause 0x40 (R137). -/
theorem raises_lockedSlot (hx : exec i s = issueAs i true s (handleEff p a true k))
    (live : s.liveHandle (Handle.of (it.pair a)) = true)
    (locked : (s.slot (Handle.of (it.pair a)).arena (Handle.of (it.pair a)).index).locked = true) :
    Raises i s it (it.trapWord 0x40 (it.exec p) (it.pair a)) :=
  raises_of_effect hb hc hx issued (by rw [handleEff, Iss.seen_exec, if_neg hm]; simp [withHandle, live, locked])

end

/-! ### Accesses through a handle (R335, R338) -/

/-- What LDP, STP and STPR check once their handle is good, in the order of the model. -/
def accessEff (i : Instr) (w : FWord XMem) (write ref : Bool) (k : State → Iss → Mask → List Acc → Eff) (s : State)
    (it : Iss) (h : Handle) (e : ArenaEntry) (sl : Slot) : Eff :=
  let m := it.exec w.p
  let n := widthBytes w.x.w
  let base := e.slotVa h.index
  let accs := parcelAccs s it m w base
  let beyond (a : Acc) : Bool := decide (sl.len * 128 < a.addr - base + n)
    || (ref && decide (sl.len * 128 ≤ dataVal it w.d 1 a.lane))
  match accs.find? fun a => a.addr % n != 0 with
  | some a => .trap { it.trapWord 0x31 m a.addr with lane := a.lane }
  | none =>
    match accs.find? beyond with
    | some a => .trap { it.trapWord 0x41 m (it.pair w.a) with lane := a.lane }
    | none =>
      match probEff it m (encode i) (accs.map fun a => (a, transProb s it.l write a.addr n)) with
      | some eff => eff
      | none => k s it m accs

theorem parcelEff_eq (i : Instr) (w : FWord XMem) (write ref : Bool) (k : State → Iss → Mask → List Acc → Eff) :
    parcelEff i w write ref k = handleEff w.p w.a true (accessEff i w write ref k) := rfl

/-- A word that makes accesses through a handle, and what it does once they have passed their checks. -/
def AccessWord (i : Instr) (w : FWord XMem) (write ref : Bool) (k : State → Iss → Mask → List Acc → Eff) : Prop :=
  Instr.atBarrier i = false ∧ Instr.crossLane i = false
  ∧ ∀ s, exec i s = issueAs i true s (handleEff w.p w.a true (accessEff i w write ref k))

/-- LDP once its accesses have passed their checks: what they come after is performed, then they are made. -/
def ldpRead (w : FWord XMem) (s : State) (it : Iss) (m : Mask) (accs : List Acc) : Eff :=
  let n := widthBytes w.x.w
  let s := s.comeAfterAll it.key (accs.map fun a => (a.lanes, globalPlaces it a.addr n))
  let got (a : Acc) : Got := s.vGot it a (Order.strongly w.x.ord) n
  loadEnd s it (.ldp w) m accs n w.la w.x got fun accs =>
    loadWrites w.d (Width.regs w.x.w) m (w.d.isVec || w.b.isVec) (accs.map fun a => (a.lane, widthExtend w.x.w (got a).nat))

theorem accessWord_ldp (w : FWord XMem) : AccessWord (.ldp w) w false false (ldpRead w) :=
  ⟨rfl, rfl, fun s => by rw [exec_ldp, execLdp, issue, ldpEff, parcelEff_eq]; rfl⟩

theorem accessWord_stp (w : FWord XMem) : AccessWord (.stp w) w true false fun s it _ accs =>
    .ok (s.parcelStores it w false accs) none :=
  ⟨rfl, rfl, fun s => by rw [exec_stp, execStp, parcelAccess, issue, parcelEff_eq]⟩

theorem accessWord_stpr (w : FWord XMem) : AccessWord (.stpr w) w true true fun s it _ accs =>
    .ok (s.parcelStores it w true accs) none :=
  ⟨rfl, rfl, fun s => by rw [exec_stpr, execStpr, parcelAccess, issue, parcelEff_eq]⟩

/-- No trap and no end of a team where nothing refuses an access. -/
theorem probEff_none {it : Iss} {m : Mask} {w : Nat} {ps : List (Acc × Option Prob)} (h : ∀ x ∈ ps, x.2 = none) :
    probEff it m w ps = none := by
  have first (p : Prob) : ps.find? (fun x => x.2 == some p) = none :=
    List.find?_eq_none.mpr fun x hx => by rw [h x hx]; exact Bool.false_ne_true
  simp only [probEff, first]

section
variable {i : Instr} {w : FWord XMem} {write ref : Bool} {k : State → Iss → Mask → List Acc → Eff} {s : State} {it : Iss}
  {h : Handle} {e : ArenaEntry} {sl : Slot} {accs : List Acc}
  (ha : accs = accesses it (it.exec w.p) (w.d.isVec || w.b.isVec) fun l => e.slotVa h.index + src32 s it w.b l)
include ha

/-- The first access that is not aligned raises cause 0x31 with its address (R338). -/
theorem accessEff_misaligned {a : Acc} (first : accs.find? (fun a => a.addr % widthBytes w.x.w != 0) = some a) :
    accessEff i w write ref k (s.begun it i true) (it.seen it i true) h e sl =
      .trap { it.trapWord 0x31 (it.exec w.p) a.addr with lane := a.lane } := by
  subst ha
  simp only [accessEff, Iss.seen_exec, parcelAccs_begun, first, Iss.seen_trapWord]

variable (aligned : ∀ a ∈ accs, a.addr % widthBytes w.x.w = 0)
include aligned

omit ha in
theorem find_misaligned_none : accs.find? (fun a => a.addr % widthBytes w.x.w != 0) = none :=
  List.find?_eq_none.mpr fun a h => by simp [aligned a h]

/-- The first access past the parcel, or for STPR the first whose reference is, raises cause 0x41 (R338). -/
theorem accessEff_past {a : Acc} (first : accs.find? (fun b =>
      decide (sl.len * 128 < b.addr - e.slotVa h.index + widthBytes w.x.w)
        || (ref && decide (sl.len * 128 ≤ dataVal it w.d 1 b.lane))) = some a) :
    accessEff i w write ref k (s.begun it i true) (it.seen it i true) h e sl =
      .trap { it.trapWord 0x41 (it.exec w.p) (it.pair w.a) with lane := a.lane } := by
  have none := find_misaligned_none aligned
  subst ha
  simp only [accessEff, Iss.seen_exec, parcelAccs_begun, none, dataVal_seen, first, Iss.seen_trapWord, Iss.seen_pair]

/-- Accesses that are aligned, lie inside the parcel and meet no fault are made. -/
theorem accessEff_fits (inside : ∀ a ∈ accs, a.addr - e.slotVa h.index + widthBytes w.x.w ≤ 128 * sl.len)
    (refs : ref = true → ∀ a ∈ accs, dataVal it w.d 1 a.lane < 128 * sl.len)
    (clear : ∀ a ∈ accs, transProb (s.begun it i true) it.l write a.addr (widthBytes w.x.w) = none) :
    accessEff i w write ref k (s.begun it i true) (it.seen it i true) h e sl =
      k (s.begun it i true) (it.seen it i true) (it.exec w.p) accs := by
  have none := find_misaligned_none aligned
  have within : accs.find? (fun b => decide (sl.len * 128 < b.addr - e.slotVa h.index + widthBytes w.x.w)
      || (ref && decide (sl.len * 128 ≤ dataVal it w.d 1 b.lane))) = Option.none := by
    refine List.find?_eq_none.mpr fun a hm => ?_
    have := inside a hm
    cases ref
    · simp; omega
    · have := refs rfl a hm
      simp; omega
  have clean : probEff (it.seen it i true) (it.exec w.p) (encode i) (accs.map fun a =>
      (a, transProb (s.begun it i true) it.l write a.addr (widthBytes w.x.w))) = Option.none :=
    probEff_none (by simpa using clear)
  subst ha
  simp only [accessEff, Iss.seen_exec, parcelAccs_begun, none, dataVal_seen, within, Iss.seen_l, clean]

end

/-! ### What a word may change beside its own registers -/

/-- No group, island or core is other than it was. -/
def State.sameUnits (s t : State) : Prop := t.groups = s.groups ∧ t.islands = s.islands ∧ t.cores = s.cores

theorem State.sameUnits_trans {s t u : State} (h : s.sameUnits t) (h' : t.sameUnits u) : s.sameUnits u :=
  ⟨h'.1.trans h.1, h'.2.1.trans h.2.1, h'.2.2.trans h.2.2⟩

theorem State.sameUnits_inRegion {s t : State} (h : s.sameUnits t) (k : Nat) : t.inRegion k = s.inRegion k := by
  simp only [State.inRegion, State.group?, h.1]

/-- Pending writes that are performed change memory and what stands with it. -/
theorem State.restPart_units {s t : State} (h : s.restPart t) :
    s.sameUnits t ∧ t.nextId = s.nextId ∧ t.atoms = s.atoms ∧ t.arenas = s.arenas ∧ t.handleRels = s.handleRels := by
  unfold State.restPart State.memoryPart at h
  cases s; cases t
  simp_all [State.sameUnits]

theorem State.restPart_of_memoryPart {s t : State} (h : s.memoryPart t) : s.restPart t := by
  unfold State.restPart State.memoryPart at *
  cases s; cases t
  simp_all

theorem State.restPart_drainSlot (s : State) (l : Launch) (a x : Nat) : s.restPart (s.drainSlot l a x) :=
  s.restPart_drainIf _

theorem State.restPart_completeHost (s : State) (ids : List Nat) : s.restPart (s.completeHost ids) :=
  State.restPart_trans (s.restPart_drainIf _) (State.restPart_of_memoryPart (State.hostDone_part ..))

/-- Of a group no more has changed than what its lanes have seen (R119, R121). -/
def Group.seesMore (g g' : Group) : Prop := g' = { g with seen := g'.seen, strongReads := g'.strongReads }

theorem Group.seesMore_refl (g : Group) : g.seesMore g := rfl

theorem Group.seesMore_trans {g g' g'' : Group} (h : g.seesMore g') (h' : g'.seesMore g'') : g.seesMore g'' := by
  unfold Group.seesMore at *; rw [h', h]

/-- Islands, cores and the count of names stand, and of group k no more has changed than what its lanes have seen. -/
def State.onlySees (k : Nat) (s t : State) : Prop :=
  t.islands = s.islands ∧ t.cores = s.cores ∧ t.nextId = s.nextId
  ∧ ∀ g, s.group? k = some g → ∃ g', t.group? k = some g' ∧ g.seesMore g'

theorem State.onlySees_refl (k : Nat) (s : State) : s.onlySees k s := ⟨rfl, rfl, rfl, fun g h => ⟨g, h, g.seesMore_refl⟩⟩

theorem State.onlySees_trans {k : Nat} {s t u : State} (h : s.onlySees k t) (h' : t.onlySees k u) : s.onlySees k u := by
  obtain ⟨hi, hc, hn, hg⟩ := h
  obtain ⟨hi', hc', hn', hg'⟩ := h'
  refine ⟨hi'.trans hi, hc'.trans hc, hn'.trans hn, fun g e => ?_⟩
  obtain ⟨g1, e1, more1⟩ := hg g e
  obtain ⟨g2, e2, more2⟩ := hg' g1 e1
  exact ⟨g2, e2, Group.seesMore_trans more1 more2⟩

theorem State.onlySees_of_units {s t : State} (k : Nat) (h : s.sameUnits t) (hn : t.nextId = s.nextId) : s.onlySees k t :=
  ⟨h.2.1, h.2.2, hn, fun g e => ⟨g, by rw [State.group?, h.1]; exact e, g.seesMore_refl⟩⟩

theorem State.onlySees_modGroup {f : Group → Group} (hf : ∀ g : Group, g.seesMore (f g)) (s : State) (k : Nat) :
    s.onlySees k (s.modGroup k f) :=
  ⟨rfl, rfl, rfl, fun g e => ⟨f g, by rw [State.group?_modGroup, if_pos rfl, e]; rfl, hf g⟩⟩

theorem State.onlySees_see (s : State) (k : Nat) (lanes : Mask) (ids : List Nat) : s.onlySees k (s.see k lanes ids) := by
  unfold State.see
  split
  · exact s.onlySees_refl k
  · exact State.onlySees_modGroup (f := fun g => g.see lanes ids) (fun _ => rfl) s k

theorem State.onlySees_acquire (s : State) (k : Nat) (lanes : Mask) (n : Obs) (rels : List Rel) :
    s.onlySees k (s.acquire k lanes n rels) := by
  unfold State.acquire
  split
  · exact s.onlySees_refl k
  · exact s.onlySees_see ..

theorem State.onlySees_acquired (s : State) (k : Nat) (lanes : Mask) (n : Obs) (rels : List Rel) :
    s.onlySees k (s.acquired k lanes n rels) :=
  State.onlySees_trans (State.onlySees_modGroup (f := fun g => g.unite lanes) (fun _ => rfl) s k)
    (State.onlySees_acquire ..)

theorem State.onlySees_didRead (s : State) (k : Nat) (lanes : Mask) (acq : Option Obs) (strong : Bool)
    (srcs : List (Nat × Nat)) (rels : List Rel) : s.onlySees k (s.didRead k lanes acq strong srcs rels) := by
  refine State.onlySees_trans (State.onlySees_modGroup (f := fun g => (g.note lanes srcs).share lanes false)
    (fun _ => rfl) s k) ?_
  cases acq with
  | some n => exact State.onlySees_acquired ..
  | none =>
    simp only [State.didRead]
    split
    · exact State.onlySees_modGroup (f := fun g => { g with
        strongReads := (g.strongReads ++ rels.map fun r => (lanes, r)).eraseDups }) (fun _ => rfl) _ k
    · exact State.onlySees_refl k _

theorem State.onlySees_noteReads (s : State) (it : Iss) (x : XMem) (rs : List (Acc × Got)) :
    s.onlySees it.key (s.noteReads it x rs) :=
  State.foldl_keeps (State.onlySees_refl it.key) State.onlySees_trans (fun s _ => s.onlySees_didRead ..) rs s

/-- A handle that is popped is an acquire of its POST's release (R139). -/
theorem State.onlySees_popped (s : State) (it : Iss) (m : Obs) (h : Nat) : s.onlySees it.key (s.popped it m h) := by
  unfold State.popped
  split
  · exact State.onlySees_trans (State.onlySees_of_units it.key ⟨rfl, rfl, rfl⟩ rfl) (State.onlySees_acquired ..)
  · exact s.onlySees_refl it.key

/-- What an access comes after, where its group has no atomic pending, is stores alone (R119). -/
theorem State.restPart_comeAfter (s : State) {k : Nat} (h : ∀ x ∈ s.atoms, x.group ≠ k) (lanes : Mask) (sp : Space)
    (a n : Nat) : s.restPart (s.comeAfter k lanes sp a n) := by
  have drainAt (s : State) (pa n : Nat) : s.restPart (s.drainAt k lanes pa n) := by
    unfold State.drainAt
    split
    · exact State.restPart_of_memoryPart s.memoryPart_refl
    · exact s.restPart_drainIf _
  have none : s.atomsAt k lanes sp a n = [] := by
    unfold State.atomsAt
    split
    · rfl
    · exact List.filter_eq_nil_iff.mpr fun x hx => by simp [h x hx]
  simp only [State.comeAfter, none, List.map_nil, List.isEmpty_nil, if_true]
  split
  · split
    · exact drainAt ..
    · exact drainAt ..
  · exact State.restPart_of_memoryPart s.memoryPart_refl

/-- Where group k has no atomic pending, t has performed pending stores of s and no more. -/
def State.performedFor (k : Nat) (s t : State) : Prop := (∀ x ∈ s.atoms, x.group ≠ k) → s.restPart t

theorem State.performedFor_refl (k : Nat) (s : State) : s.performedFor k s := fun _ =>
  State.restPart_of_memoryPart s.memoryPart_refl

theorem State.performedFor_trans {k : Nat} {s t u : State} (h : s.performedFor k t) (h' : t.performedFor k u) :
    s.performedFor k u := fun none => by
  have part := h none
  obtain ⟨-, -, atoms, -⟩ := State.restPart_units part
  exact State.restPart_trans part (h' (by rwa [atoms]))

theorem State.performedFor_comeAfterAll (s : State) (k : Nat) (xs : List (Mask × List (Space × Nat × Nat))) :
    s.performedFor k (s.comeAfterAll k xs) := by
  refine State.foldl_keeps (State.performedFor_refl k) State.performedFor_trans (fun s x => ?_) xs s
  refine State.foldl_keeps (State.performedFor_refl k) State.performedFor_trans (fun s p h => ?_) x.2 s
  exact s.restPart_comeAfter h ..

/-! ### Completions -/

theorem State.group?_writeLater (s : State) (it : Iss) (la : Nat) (ws : List (RegId × Word)) (u : FlagUpd) (k : Nat) :
    (s.writeLater it la ws u).group? k = if k = it.key then (s.group? it.key).map (·.modSplit it.j fun sp =>
      { sp with pend := sp.pend ++ [{ id := s.nextId, writes := ws, flags := u, fto := false, left := la, waits := [],
                                      lat := it.sp.lat }] }) else s.group? k := State.group?_modSplit ..

section
variable {i : Instr} {s s1 : State} {it : Iss} {eff : State → Iss → Eff} (hb : Instr.atBarrier i = false)
  (hc : Instr.crossLane i = false) (hx : exec i s = issueAs i true s eff) (h : Issues i s it)
include hb hc hx h

/-- A word that has made of the machine s1 and of its own group no more than what its lanes have seen, then entered what
`late` holds, completes. -/
theorem does_of_sight {s2 : State} {g : Group} {f : Split → Split} {late : List Pend}
    (islands : s1.islands = (s.begun it i true).islands) (cores : s1.cores = (s.begun it i true).cores)
    (sight : (it.begunOwn i true).seesMore g)
    (own : s2.group? it.key = some (g.modSplit it.j f)) (others : ∀ k, k ≠ it.key → s2.group? k = s1.group? k)
    (hf : ∀ sp, f sp = { sp with pend := sp.pend ++ late })
    (rest : s2 = { s1 with groups := s2.groups, nextId := s2.nextId })
    (he : eff (s.begun it i true) (it.seen it i true) = .ok s2 none) :
    Does i s it s1 { it.own with seen := g.seen, strongReads := g.strongReads } (it.sp.pc + 8) (fun _ => none) {} late := by
  have island (n : Nat) : s2.island n = (s.begun it i true).island n := by rw [rest]; simp only [State.island, islands]
  have core (c : Nat) : s2.coreOf c = (s.begun it i true).coreOf c := by rw [rest]; simp only [State.coreOf, cores]
  refine does_of_touched (ws := []) (f := f) (next := none) h hb rfl hx ?effect rfl rfl ?group others (fun n => by rw [rest]; rfl)
    (fun c => by rw [rest]; rfl) ⟨fun n => ?_, fun c => ?_⟩ (by rw [rest]) (by simp)
    fun sp => by simp [hf, Flags.upd]
  case effect => rw [State.issuedAs_eq hb, ← Iss.issued, Iss.issued_eq_seen hb hc h.1.1, he]
  case group => rw [own, sight]; rfl
  · rw [island, State.island_begun]
  · rw [core, State.coreOf_begun]

/-- A word that leaves every group, island and core alone. -/
theorem leaves_of_units (units : (s.begun it i true).sameUnits s1)
    (he : eff (s.begun it i true) (it.seen it i true) = .ok s1 none) : Leaves i s it s1 it.own := by
  obtain ⟨groups, islands, cores⟩ := units
  have own : s1.group? it.key = some (it.begunOwn i true) := by
    rw [State.group?, groups]; exact State.group?_begun (State.iss_spec h.1.1).2.2.1 i true
  refine does_of_sight hb hc hx h (g := it.begunOwn i true) (f := fun sp => { sp with pend := sp.pend ++ [] }) islands cores
    (Group.seesMore_refl _) ?_ (fun _ _ => rfl) (fun _ => rfl) rfl he
  rw [own, Group.modSplit_id (by simp)]

/-- A word that changes of its own group what its lanes have seen. -/
theorem leavesIn_of_sees (sees : (s.begun it i true).onlySees it.key s1)
    (he : eff (s.begun it i true) (it.seen it i true) = .ok s1 none) : LeavesIn i s it s1 := by
  obtain ⟨islands, cores, -, group⟩ := sees
  obtain ⟨g, own, sight⟩ := group _ (State.group?_begun (State.iss_spec h.1.1).2.2.1 i true)
  unfold LeavesIn Iss.seeing
  rw [own]
  refine does_of_sight hb hc hx h (f := fun sp => { sp with pend := sp.pend ++ [] }) islands cores sight ?_
    (fun _ _ => rfl) (fun _ => rfl) rfl he
  rw [own, Group.modSplit_id (by simp)]

/-- The same of a word that enters a result. -/
theorem entersIn_of_sees {la : Nat} {ws : List (RegId × Word)} {u : FlagUpd}
    (sees : (s.begun it i true).onlySees it.key s1)
    (he : eff (s.begun it i true) (it.seen it i true) = .ok (s1.writeLater (it.seen it i true) la ws u) none) :
    EntersIn i s it s1 (lateResult s la ws u) := by
  obtain ⟨islands, cores, names, group⟩ := sees
  obtain ⟨g, own, sight⟩ := group _ (State.group?_begun (State.iss_spec h.1.1).2.2.1 i true)
  have lat : (it.seen it i true).sp.lat = it.latency i := by
    rw [← Iss.issuedAs_lat h.1.1 hb, ← Iss.issued, Iss.issued_eq_seen hb hc h.1.1]
  unfold EntersIn Iss.seeing
  rw [own]
  refine does_of_sight hb hc hx h
    (f := fun sp => { sp with pend := sp.pend ++ [it.due i (lateResult s la ws u)] }) islands cores sight ?_
    (fun k hk => ?_) (fun _ => rfl) rfl he
  · rw [State.group?_writeLater, if_pos (Iss.seen_key ..).symm, Iss.seen_key, own, names, State.begun_nextId, lat]; rfl
  · rw [State.group?_writeLater, Iss.seen_key, if_neg hk]

/-- A word that enters a result and does nothing else. -/
theorem enters_of_effect {la : Nat} {ws : List (RegId × Word)} {u : FlagUpd}
    (he : eff (s.begun it i true) (it.seen it i true) =
      .ok ((s.begun it i true).writeLater (it.seen it i true) la ws u) none) : Enters i s it la ws u :=
  enters_of_writeLater (it' := it.seen it i true) h hb hx rfl rfl (by rw [← Iss.issuedAs_lat h.1.1 hb, ← Iss.issued, Iss.issued_eq_seen hb hc h.1.1])
    ((congrArg (eff _) (Iss.issued_eq_seen hb hc h.1.1)).trans he)

end

/-! ### Loads that meet nothing (R119, R352, R420) -/

/-- An access to translated addresses of n bytes that meets no port that is not ready, no locked line and no poison. -/
def Acc.meetsNothing (a : Acc) (s : State) (it : Iss) (n : Nat) : Prop :=
  inAlias a.addr = false ∧ portsOf s it.l a.addr n = [] ∧ s.lockedAcc it a.addr n = false ∧ s.accPoison it a.addr n = none

/-- Where no access meets anything the load enters what its reads give. -/
theorem loadEnd_meetsNothing {s : State} {it : Iss} {accs : List Acc} {n : Nat}
    (clear : ∀ a ∈ accs, a.meetsNothing s it n) (i : Instr) (m : Mask) (la : Nat) (x : XMem) (got : Acc → Got)
    (write : List Acc → List (RegId × Word)) : loadEnd s it i m accs n la x got write =
      .ok (((s.noteReads it x (accs.map fun a => (a, got a))).mayBeLate it i x.ord
        (accs.flatMap fun a => globalPlaces it a.addr n)).writeLater it la (write accs) {}) none := by
  have ports : (accs.flatMap fun a => (touched it a.addr n).flatMap fun (x : Nat × Nat) => portsOf s it.l x.1 x.2) = [] :=
    List.flatMap_eq_nil_iff.mpr fun a ha => by
      obtain ⟨plain, noPort, -⟩ := clear a ha
      simp [touched, plain, noPort]
  have locked : (accs.filter fun a => s.lockedAcc it a.addr n) = [] :=
    List.filter_eq_nil_iff.mpr fun a ha => by simp [(clear a ha).2.2.1]
  have free : (accs.filter fun a => !s.lockedAcc it a.addr n) = accs :=
    List.filter_eq_self.mpr fun a ha => by simp [(clear a ha).2.2.1]
  have sound : (accs.findSome? fun a => s.accPoison it a.addr n) = none :=
    List.findSome?_eq_none_iff.mpr fun a ha => (clear a ha).2.2.2
  simp [loadEnd, ports, locked, free, sound]

/-! ### Stores that issue (R119) -/

/-- What a store that has issued will write, and for whom. -/
def Store.shape (st : Store) : Nat × Mask × Nat × List Byte × Bool := (st.group, st.lanes, st.addr, st.data, st.tag)

/-- A store of group k issues: the group stands outside a region and has no atomic pending. -/
def State.mayPut (s : State) (k : Nat) : Prop :=
  (∃ g, s.group? k = some g) ∧ s.inRegion k = false ∧ ∀ x ∈ s.atoms, x.group ≠ k

/-- Stores of the shapes xs of group k have issued, and memory is as it was. -/
def State.putsOnly (k : Nat) (xs : List (Nat × Mask × Nat × List Byte × Bool)) (s t : State) : Prop :=
  s.onlySees k t ∧ t.atoms = s.atoms ∧ t.mem = s.mem ∧ t.tags = s.tags
  ∧ t.stores.map Store.shape = s.stores.map Store.shape ++ xs

theorem State.onlySees_inRegion {k : Nat} {s t : State} (h : s.onlySees k t) {g : Group} (hg : s.group? k = some g) :
    t.inRegion k = s.inRegion k := by
  obtain ⟨-, -, -, group⟩ := h
  obtain ⟨g', hg', more⟩ := group g hg
  simp only [State.inRegion, hg, hg', Option.bind_some]
  rw [more]

theorem State.mayPut_of_putsOnly {k : Nat} {xs : List (Nat × Mask × Nat × List Byte × Bool)} {s t : State}
    (h : s.mayPut k) (hp : State.putsOnly k xs s t) : t.mayPut k := by
  obtain ⟨⟨g, hg⟩, outside, none⟩ := h
  obtain ⟨sees, atoms, -⟩ := hp
  obtain ⟨-, -, -, group⟩ := id sees
  obtain ⟨g', hg', -⟩ := group g hg
  exact ⟨⟨g', hg'⟩, (State.onlySees_inRegion sees hg).trans outside, by rwa [atoms]⟩

theorem State.putsOnly_nil (k : Nat) (s : State) : State.putsOnly k [] s s :=
  ⟨s.onlySees_refl k, rfl, rfl, rfl, (List.append_nil _).symm⟩

theorem State.putsOnly_append {k : Nat} {xs ys : List (Nat × Mask × Nat × List Byte × Bool)} {s t u : State}
    (h : State.putsOnly k xs s t) (h' : State.putsOnly k ys t u) : State.putsOnly k (xs ++ ys) s u := by
  obtain ⟨sees, atoms, mem, tags, stores⟩ := h
  obtain ⟨sees', atoms', mem', tags', stores'⟩ := h'
  exact ⟨State.onlySees_trans sees sees', atoms'.trans atoms, mem'.trans mem, tags'.trans tags,
    by rw [stores', stores, List.append_assoc]⟩

/-- A fold whose every turn issues stores issues all of them, in order. -/
theorem State.putsOnly_foldl {α : Type} {k : Nat} {f : State → α → State}
    {x : α → List (Nat × Mask × Nat × List Byte × Bool)}
    (hf : ∀ s a, s.mayPut k → State.putsOnly k (x a) s (f s a)) (l : List α) :
    ∀ s : State, s.mayPut k → State.putsOnly k (l.flatMap x) s (l.foldl f s) := by
  induction l with
  | nil => exact fun s _ => s.putsOnly_nil k
  | cons a l ih =>
    intro s h
    have first := hf s a h
    exact State.putsOnly_append first (ih _ (State.mayPut_of_putsOnly h first))

theorem State.onlySees_wrote (s : State) (k : Nat) (lanes : Mask) (id : Nat) : s.onlySees k (s.wrote k lanes id) := by
  unfold State.wrote
  refine State.onlySees_modGroup (fun g => ?_) s k
  rfl

/-- One write of a store issues. -/
theorem State.putsOnly_put {s : State} {k : Nat} (h : s.mayPut k) (lanes : Mask) (pa : Nat) (bs : List Byte)
    (tag bad : Bool) (rels : List Rel) :
    State.putsOnly k [(k, lanes, pa, bs, tag)] s (s.put k lanes pa bs tag bad rels) := by
  obtain ⟨⟨g, hg⟩, outside, none⟩ := h
  have idle : s.atomsAt k lanes .mem pa bs.length = [] := by
    simp only [State.atomsAt, hg]
    exact List.filter_eq_nil_iff.mpr fun x hx => by simp [none x hx]
  have here : (s.endLate k lanes .mem pa bs.length).group? k = some g := hg
  simp only [State.put, outside, idle, here, Bool.false_eq_true, if_false, List.map_nil, List.isEmpty_nil, if_true]
  refine ⟨State.onlySees_trans (State.onlySees_of_units k ⟨rfl, rfl, rfl⟩ rfl) (State.onlySees_wrote ..), rfl, rfl, rfl, ?_⟩
  simp [State.wrote, State.endLate, Store.shape]

theorem State.putsOnly_vWrite {s : State} {it : Iss} (h : s.mayPut it.key) (lanes : Mask) (va : Nat) (bs : List Byte)
    (tag bad : Bool) (rels : List Rel) : State.putsOnly it.key ((atomicParts va bs.length).map fun p =>
      (it.key, lanes, it.l.phys (va + p.1), (bs.drop p.1).take p.2, tag)) s (s.vWrite it lanes va bs tag bad rels) := by
  rw [List.map_eq_flatMap]
  exact State.putsOnly_foldl (fun s p h => State.putsOnly_put h ..) (atomicParts va bs.length) s h

@[simp] theorem length_leBytes (n x : Nat) : (leBytes n x).length = n := by
  induction n generalizing x with
  | zero => rfl
  | succ n ih => simp [leBytes, ih]

/-- The group of an issuing split may store. -/
theorem State.mayPut_begun {s : State} {it : Iss} (iss : s.iss = some it) (outside : s.inRegion it.key = false)
    (none : ∀ x ∈ s.atoms, x.group ≠ it.key) (i : Instr) : (s.begun it i true).mayPut it.key :=
  ⟨⟨_, State.group?_begun (State.iss_spec iss).2.2.1 i true⟩, by rwa [State.begun_inRegion], by rwa [State.begun_atoms]⟩

/-- The bytes that an access of a store of the split writes. -/
def Iss.stored (it : Iss) (w : FWord XMem) (a : Acc) : List Byte :=
  leBytes (widthBytes w.x.w) (dataVal it w.d (Width.regs w.x.w) a.lane)

@[simp] theorem Iss.length_stored (it : Iss) (w : FWord XMem) (a : Acc) : (it.stored w a).length = widthBytes w.x.w :=
  length_leBytes ..

/-- The stores of STP and STPR outside a region: one of each part of each access. -/
def State.issueStores (s : State) (it : Iss) (w : FWord XMem) (tag : Bool) (bytes : Acc → List Byte) (accs : List Acc) :
    State :=
  accs.foldl (fun s a => s.vWrite it a.lanes a.addr (bytes a) tag (it.dataBad w.d (Width.regs w.x.w) a.lane)
    (s.accRels it w.x a.lanes)) s

theorem State.putsOnly_issueStores {s : State} (it : Iss) (may : s.mayPut it.key) (w : FWord XMem) (tag : Bool)
    (bytes : Acc → List Byte) (accs : List Acc) :
    State.putsOnly it.key (accs.flatMap fun a => (atomicParts a.addr (bytes a).length).map fun p =>
      (it.key, a.lanes, it.l.phys (a.addr + p.1), ((bytes a).drop p.1).take p.2, tag)) s
      (s.issueStores it w tag bytes accs) :=
  State.putsOnly_foldl (fun s a may => State.putsOnly_vWrite may a.lanes a.addr (bytes a) tag
    (it.dataBad w.d (Width.regs w.x.w) a.lane) (s.accRels it w.x a.lanes)) accs s may

/-! ### The thread of a POST (R136, R138) -/

/-- A POST's thread needs no line and no packet as it starts. -/
theorem State.forkThread_post {s : State} {t : Nat} {th : Thread} (h : Map.find? s.threads t = some th) {a i d n : Nat}
    {r : Option (Nat × Nat)} (cmd : th.cmd = .post a i d n r) :
    s.forkThread t = s.modThread t fun th => { th with held := false } := by
  have lines (s : State) : th.dstLines s = [] := by
    have image : th.image s = noImage := by
      unfold Thread.image
      split
      · rfl
      · rw [cmd]
    simp [Thread.dstLines, image, noImage]
  have started : (s.modThread t fun th => { th with held := false }).startThread t =
      s.modThread t fun th => { th with held := false } := by
    simp only [State.startThread, State.modThread, Map.find?_adjust_same, h, Option.map_some, cmd]
    split <;> rfl
  simp only [State.forkThread, h, lines, State.countLines, List.foldl_nil, cmd, started]

theorem State.units_startEngine_post {s : State} (it : Iss) (outside : s.inRegion it.key = false) (a i d n : Nat)
    (r : Option (Nat × Nat)) (bar : Option Nat) : s.sameUnits (s.startEngine it (.post a i d n r) bar) := by
  simp only [State.startEngine, outside, Bool.false_eq_true, if_false]
  rw [State.forkThread_post (Map.find?_ins_same ..) rfl]
  refine State.sameUnits_trans (State.restPart_units (State.restPart_drainIf ..)).1
    (State.sameUnits_trans (State.restPart_units (State.restPart_completeHost ..)).1 ⟨rfl, rfl, rfl⟩)

/-! ### The words, one by one -/

/-- What a scalar parcel word does where a lane is active. -/
def onActive (p : Pred) (k : State → Iss → Mask → Eff) (s : State) (it : Iss) : Eff :=
  if it.exec p = 0 then .ok s none else k s it (it.exec p)

theorem parcelWord_eq (i : Instr) (p : Pred) (k : State → Iss → Mask → Eff) (s : State) :
    parcelWord i p k s = issueAs i true s (onActive p k) := rfl

theorem onActive_seen {it : Iss} {p : Pred} (hm : it.exec p ≠ 0) (k : State → Iss → Mask → Eff) (s : State) (b : Iss)
    (i : Instr) (f : Bool) : onActive p k s (it.seen b i f) = k s (it.seen b i f) (it.exec p) := by
  rw [onActive, Iss.seen_exec, if_neg hm]

/-- The writes of a 64-bit result to a scalar D: its pair. -/
theorem written_pairWrites (d : Dst) (x : Nat) (r : RegId) :
    written (pairWrites d x) r = match (motive := Dst → Option Word) d with
      | .s n => if r = .s (n + 1) then some (BitVec.ofNat 32 (x / 2 ^ 32))
          else if r = .s n then some (BitVec.ofNat 32 x) else none
      | _ => none := by
  cases d <;> rfl

theorem pairWrites_real (d : Dst) (x : Nat) : ∀ w ∈ pairWrites d x, w.1.real := by
  cases d with
  | s n => simp [pairWrites, RegId.real]
  | v n => simp [pairWrites]
  | nb n => simp [pairWrites]
  | m n => simp [pairWrites]

theorem State.issued_eq_begun {i : Instr} (hb : Instr.atBarrier i = false) (s : State) (it : Iss) :
    s.issued it i = s.begun it i true := State.issuedAs_eq hb s it true

/-! A slot whose pending writes are performed stands as it did (R139, R141). -/

section
variable (s : State) (l : Launch) (a x : Nat)

@[simp] theorem State.drainSlot_regs : (s.drainSlot l a x).regs = s.regs :=
  (State.restPart_spec (s.restPart_drainSlot l a x)).1

@[simp] theorem State.drainSlot_slot (b y : Nat) : (s.drainSlot l a x).slot b y = s.slot b y := by
  simp only [State.slot, State.restPart_spec (s.restPart_drainSlot l a x)]

@[simp] theorem State.drainSlot_freeSlot (b : Nat) : (s.drainSlot l a x).freeSlot b = s.freeSlot b := by
  obtain ⟨-, -, -, arenas, -⟩ := State.restPart_units (s.restPart_drainSlot l a x)
  simp only [State.freeSlot, State.arena, State.drainSlot_slot, arenas]

theorem State.sees_allocSlot (k len : Nat) : s.onlySees k ((s.drainSlot l a x).allocSlot l a x len) := by
  have zero (s : State) (va : Nat) : s.restPart (s.zeroLines l va len) := State.restPart_of_memoryPart
    (State.foldl_keeps State.memoryPart_refl State.memoryPart_trans (fun s _ => s.writePhys_part ..) _ s)
  obtain ⟨units, names, -⟩ := State.restPart_units (State.restPart_trans (s.restPart_drainSlot l a x)
    (zero (s.drainSlot l a x) (((s.drainSlot l a x).arena a).slotVa x)))
  exact State.onlySees_of_units k units names

end

/-- PALLOC's arena is one to allocate from, and its slots hold the length (R336). -/
def State.mayAlloc (s : State) (l : Launch) (a len : Nat) : Prop :=
  a < 128 ∧ (s.arena a).valid = true ∧ (s.arena a).inbox = false ∧ len ≠ 0 ∧ len ≤ 2 ^ 19
  ∧ 128 * len ≤ 2 ^ (s.arena a).slog ∧ l.pinned (s.arena a).sstate = true

/-! The effects of PFREE, PADDR and PSTAT once their handle is good. -/

def pfreeEff (s : State) (it : Iss) (h : Handle) (_ : ArenaEntry) (_ : Slot) : Eff :=
  if s.inRegion it.key then .ok (s.startEngine it (.heldFree h.toNat) none) none
  else .ok ((s.drainSlot it.l h.arena h.index).modSlot h.arena h.index Slot.release) none

def paddrEff (d : Dst) (s : State) (it : Iss) (h : Handle) (e : ArenaEntry) (_ : Slot) : Eff :=
  .ok (s.writeNow it (pairWrites d (e.slotVa h.index)) {}) none

def pstatEff (d : Dst) (la : Nat) (s : State) (it : Iss) (_ : Handle) (_ : ArenaEntry) (sl : Slot) : Eff :=
  .ok (s.writeLater it la (pairWrites d sl.word) {}) none

theorem exec_pfree_handle (w : FWord Unit) (s : State) :
    exec (.pfree w) s = issueAs (.pfree w) true s (handleEff w.p w.a true pfreeEff) := by
  rw [exec_pfree, execPfree, parcelWord_eq]; rfl

theorem exec_paddr_handle (w : FWord Unit) (s : State) :
    exec (.paddr w) s = issueAs (.paddr w) true s (handleEff w.p w.a true (paddrEff w.d)) := by
  rw [exec_paddr, execPaddr, parcelWord_eq]; rfl

theorem exec_pstat_handle (w : FWord Unit) (s : State) :
    exec (.pstat w) s = issueAs (.pstat w) true s (handleEff w.p w.a false (pstatEff w.d w.la)) := by
  rw [exec_pstat, execPstat, parcelWord_eq]; rfl

section
variable {s : State} {it : Iss}

/-! PALLOC, PFREE, PADDR and PSTAT (R336, R337). -/

section
variable {w : FWord Unit} (hm : it.exec w.p ≠ 0)
include hm

section
variable {a len : Nat} (ha : it.scalar w.a = a) (hlen : it.scalar w.b = len) (h : Issues (.palloc w) s it)
  (outside : s.inRegion it.key = false) (good : s.mayAlloc it.l a len)
include ha hlen h outside good

theorem palloc_enters_none (none : s.freeSlot a = none) :
    Enters (.palloc w) s it w.la (pairWrites w.d 0) (FlagUpd.test false) := by
  obtain ⟨low, valid, own, least, most, fits, pin⟩ := good
  refine enters_of_effect rfl rfl ((exec_palloc w s).trans (parcelWord_eq ..)) h ?_
  rw [onActive_seen hm]
  simpa [ha, hlen, ArenaEntry.slotBytes, Nat.not_le.mpr low, valid, own, least, Nat.not_lt.mpr fits, pin, outside, none]
    using most

theorem palloc_enters_handle {k : Nat} (free : s.freeSlot a = some k)
    (pinned : ∀ p ∈ pagesOf ((s.arena a).slotVa k) (128 * len), it.l.pinned p = true) :
    EntersIn (.palloc w) s it (((s.begun it (.palloc w) true).drainSlot it.l a k).allocSlot it.l a k len)
      (lateResult s w.la (pairWrites w.d (Handle.toNat ⟨s.regs.devno, a, k, (s.slot a k).gen⟩)) (FlagUpd.test true)) := by
  obtain ⟨low, valid, own, least, most, fits, pin⟩ := good
  have pages : (pagesOf ((s.arena a).slotVa k) (128 * len)).find? (fun p => !it.l.pinned p) = none :=
    List.find?_eq_none.mpr fun p hp => by simp [pinned p hp]
  refine entersIn_of_sees rfl rfl ((exec_palloc w s).trans (parcelWord_eq ..)) h (State.sees_allocSlot ..) ?_
  rw [onActive_seen hm]
  simpa [ha, hlen, ArenaEntry.slotBytes, Nat.not_le.mpr low, valid, own, least, Nat.not_lt.mpr fits, pin, outside, free,
    pages, allocResult] using most

end

/-! PFREE, PADDR and PSTAT through a live handle. -/

section
variable {h : Handle} {e : ArenaEntry} {sl : Slot} (o : it.opens s w.a h e sl)
include o

theorem pfree_leaves (issues : Issues (.pfree w) s it) (free : sl.locked = false) (outside : s.inRegion it.key = false) :
    Leaves (.pfree w) s it
      (((s.begun it (.pfree w) true).drainSlot it.l h.arena h.index).modSlot h.arena h.index Slot.release) it.own := by
  refine leaves_of_units rfl rfl (exec_pfree_handle w s) issues
    (State.sameUnits_trans (State.restPart_units (State.restPart_drainSlot ..)).1 ⟨rfl, rfl, rfl⟩) ?_
  rw [handleEff_open hm o fun _ => free]
  simp [pfreeEff, outside]

theorem paddr_computes (issues : Issues (.paddr w) s it) (free : sl.locked = false) :
    Computes (.paddr w) s it (written (pairWrites w.d (e.slotVa h.index))) {} := by
  refine computes_of_effect issues rfl (exec_paddr_handle w s) ?_ (pairWrites_real _ _) fun _ _ => rfl
  rw [Iss.seenBy_of_plain rfl, handleEff_open hm o fun _ => free]
  rfl

theorem pstat_enters (issues : Issues (.pstat w) s it) : Enters (.pstat w) s it w.la (pairWrites w.d sl.word) {} := by
  refine enters_of_effect rfl rfl (exec_pstat_handle w s) issues ?_
  rw [handleEff_open hm o fun e => Bool.noConfusion e]
  rfl

end
end

/-! LDP, STP and STPR (R338). `it0` is the split as its word's effect finds it. -/

section
variable {w : FWord XMem} (hm : it.exec w.p ≠ 0) {h : Handle} {e : ArenaEntry} {sl : Slot} (o : it.opens s w.a h e sl)
  (free : sl.locked = false)
include hm o free

section
variable {accs : List Acc}
  (ha : accs = accesses it (it.exec w.p) (w.d.isVec || w.b.isVec) fun l => e.slotVa h.index + src32 s it w.b l)
include ha

section
variable {i : Instr} {write ref : Bool} {k : State → Iss → Mask → List Acc → Eff} (word : AccessWord i w write ref k)
include word

theorem raises_misaligned (issued : Issued i s it) {a : Acc}
    (first : accs.find? (fun a => a.addr % widthBytes w.x.w != 0) = some a) :
    Raises i s it { it.trapWord 0x31 (it.exec w.p) a.addr with lane := a.lane } := by
  obtain ⟨hb, hc, hx⟩ := word
  refine raises_of_effect hb hc (hx s) issued ?_
  rw [handleEff_open hm o fun _ => free, accessEff_misaligned ha first]

theorem raises_past (issued : Issued i s it) (aligned : ∀ a ∈ accs, a.addr % widthBytes w.x.w = 0) {a : Acc}
    (first : accs.find? (fun b => decide (sl.len * 128 < b.addr - e.slotVa h.index + widthBytes w.x.w)
      || (ref && decide (sl.len * 128 ≤ dataVal it w.d 1 b.lane))) = some a) :
    Raises i s it { it.trapWord 0x41 (it.exec w.p) (it.pair w.a) with lane := a.lane } := by
  obtain ⟨hb, hc, hx⟩ := word
  refine raises_of_effect hb hc (hx s) issued ?_
  rw [handleEff_open hm o fun _ => free, accessEff_past ha aligned first]

/-- Where every access is in order the word does what it does. -/
theorem handleEff_fits (fits : ∀ a ∈ accs, a.addr % widthBytes w.x.w = 0
      ∧ a.addr - e.slotVa h.index + widthBytes w.x.w ≤ 128 * sl.len
      ∧ transProb (s.issued it i) it.l write a.addr (widthBytes w.x.w) = none)
    (refs : ref = true → ∀ a ∈ accs, dataVal it w.d 1 a.lane < 128 * sl.len) :
    handleEff w.p w.a true (accessEff i w write ref k) (s.begun it i true) (it.seen it i true) =
      k (s.begun it i true) (it.seen it i true) (it.exec w.p) accs := by
  rw [State.issued_eq_begun word.1] at fits
  rw [handleEff_open hm o fun _ => free, accessEff_fits ha (fun a h => (fits a h).1) (fun a h => (fits a h).2.1) refs
    fun a h => (fits a h).2.2]

end

/-- STP and STPR issue their stores, and change nothing else but what their lanes have seen. -/
theorem stores_leaveIn {i : Instr} {ref tag : Bool} (word : AccessWord i w true ref fun s it _ accs =>
      .ok (s.parcelStores it w tag accs) none) (issues : Issues i s it) (outside : s.inRegion it.key = false)
    (none : ∀ x ∈ s.atoms, x.group ≠ it.key) (fits : ∀ a ∈ accs, a.addr % widthBytes w.x.w = 0
      ∧ a.addr - e.slotVa h.index + widthBytes w.x.w ≤ 128 * sl.len
      ∧ transProb (s.issued it i) it.l true a.addr (widthBytes w.x.w) = Option.none)
    (refs : ref = true → ∀ a ∈ accs, dataVal it w.d 1 a.lane < 128 * sl.len) {it0 : Iss} (found : it0 = it.seen it i true) :
    let s1 := (s.issued it i).issueStores it0 w tag (it.stored w) accs
    LeavesIn i s it s1 ∧ s1.mem = s.mem ∧ s1.tags = s.tags
    ∧ s1.stores.map Store.shape = s.stores.map Store.shape ++ accs.flatMap fun a =>
        (atomicParts a.addr (widthBytes w.x.w)).map fun p => (it.key, a.lanes, it.l.phys (a.addr + p.1),
          ((it.stored w a).drop p.1).take p.2, tag) := by
  have effect := handleEff_fits hm o free ha word fits refs
  obtain ⟨hb, hc, hx⟩ := word
  subst found
  rw [State.issued_eq_begun hb]
  have may : (s.begun it i true).mayPut it.key := State.mayPut_begun issues.1.1 outside none i
  obtain ⟨sees, -, mem, tags, stores⟩ := State.putsOnly_issueStores (it.seen it i true) may w tag (it.stored w) accs
  refine ⟨leavesIn_of_sees hb hc (hx s) issues sees (effect.trans ?_), by simpa using mem, by simpa using tags,
    by simpa using stores⟩
  simp only [State.parcelStores, Iss.seen_key, State.begun_inRegion, outside, Bool.false_eq_true, if_false, dataVal_seen]
  rfl

/-- LDP enters what its reads give. -/
theorem ldp_entersIn (issues : Issues (.ldp w) s it) (none : ∀ x ∈ s.atoms, x.group ≠ it.key)
    (fits : ∀ a ∈ accs, a.addr % widthBytes w.x.w = 0 ∧ a.addr - e.slotVa h.index + widthBytes w.x.w ≤ 128 * sl.len
      ∧ transProb (s.issued it (.ldp w)) it.l false a.addr (widthBytes w.x.w) = Option.none)
    {it0 : Iss} (found : it0 = it.seen it (.ldp w) true) {s1 : State}
    (after : s1 = (s.begun it (.ldp w) true).comeAfterAll it.key (accs.map fun a =>
      (a.lanes, globalPlaces it0 a.addr (widthBytes w.x.w))))
    (clear : ∀ a ∈ accs, a.meetsNothing s1 it0 (widthBytes w.x.w)) :
    EntersIn (.ldp w) s it ((s1.noteReads it0 w.x (accs.map fun a =>
        (a, s1.vGot it0 a (Order.strongly w.x.ord) (widthBytes w.x.w)))).mayBeLate it0 (.ldp w) w.x.ord
          (accs.flatMap fun a => globalPlaces it0 a.addr (widthBytes w.x.w)))
      (lateResult s w.la (loadWrites w.d (Width.regs w.x.w) (it.exec w.p) (w.d.isVec || w.b.isVec) (accs.map fun a =>
        (a.lane, widthExtend w.x.w (s1.vGot it0 a (Order.strongly w.x.ord) (widthBytes w.x.w)).nat))) {}) := by
  have effect := handleEff_fits hm o free ha (accessWord_ldp w) fits fun e => Bool.noConfusion e
  obtain ⟨units, names, -⟩ := State.restPart_units
    ((s.begun it (.ldp w) true).performedFor_comeAfterAll it.key (accs.map fun a =>
      (a.lanes, globalPlaces it0 a.addr (widthBytes w.x.w))) (by rwa [State.begun_atoms]))
  subst found
  rw [← after] at units names
  refine entersIn_of_sees rfl rfl ((accessWord_ldp w).2.2 s) issues (State.onlySees_trans
    (State.onlySees_of_units it.key units names) (State.onlySees_trans (State.onlySees_noteReads ..)
      (State.onlySees_of_units it.key ⟨rfl, rfl, rfl⟩ rfl))) (effect.trans ?_)
  simp only [ldpRead, Iss.seen_key, ← after]
  exact loadEnd_meetsNothing clear ..

end
end

/-! POST (R339) and PRECV (R340). -/

/-- An engine word that a region forbids: nothing where its mask is empty (R296, R310). -/
def engineEff (p : Pred) (k : State → Iss → Eff) (s : State) (it : Iss) : Eff :=
  if it.exec p = 0 then .ok s none
  else if !false && s.inRegion it.key then .trap (it.trapOpen s 0x31 (it.exec p))
  else k s it

/-- What POST does once its handle is good. -/
def postEff (w : FWord XMem) (bar : Option Nat) (s : State) (it : Iss) (h : Handle) (_ : ArenaEntry) (_ : Slot) : Eff :=
  let b := it.scalar w.b
  if bits b 15 9 != 0 || bits b 31 19 != 0 then .trap (it.trapOpen s 0x31 (it.exec w.p))
  else
    let rel := s.postRel it w.x.obs
    let s := { s.drainIds rel.writes with handleRels := Map.ins s.handleRels h.toNat rel }
    let s := s.startEngine it (.post h.arena h.index (bits b 8 0) (bits b 18 16) none) bar
    .ok ((s.drainSlot it.l h.arena h.index).modSlot h.arena h.index fun x => { x with st := 2, cause := 0 }) none

theorem exec_post_engine (w : FWord XMem) (s : State) : exec (.post w) s = issueAs (.post w) true s
    (engineEff w.p fun s it => localBar s it (it.exec w.p) w.d fun bar =>
      withHandle s it (it.exec w.p) w.a true (postEff w bar s it)) := by
  rw [exec_post, execPost, engineWord, issue]; rfl

/-- The state in which a POST is the release of its handle (R139), and that in which it has started its thread too, to
the peer and the inbox that b names (R136, R138). -/
def State.postReleased (s : State) (it : Iss) (w : FWord XMem) (h : Handle) : State :=
  let rel := s.postRel it w.x.obs
  { s.drainIds rel.writes with handleRels := Map.ins s.handleRels h.toNat rel }

def State.posted (s : State) (it : Iss) (w : FWord XMem) (h : Handle) (b : Nat)
    (bar : Option Nat) : State :=
  (s.postReleased it w h).startEngine it (.post h.arena h.index (bits b 8 0) (bits b 18 16) none) bar

theorem State.units_postReleased (s : State) (it : Iss) (w : FWord XMem) (h : Handle) : s.sameUnits (s.postReleased it w h) :=
  State.sameUnits_trans (State.restPart_units (s.restPart_drainIf _)).1 ⟨rfl, rfl, rfl⟩

theorem State.units_posted {s : State} {it : Iss} (outside : s.inRegion it.key = false) (w : FWord XMem) (h : Handle)
    (b : Nat) (bar : Option Nat) : s.sameUnits (s.posted it w h b bar) :=
  have carried := s.units_postReleased it w h
  State.sameUnits_trans carried
    (State.units_startEngine_post it ((State.sameUnits_inRegion carried it.key).trans outside) ..)

section
variable {w : FWord XMem} (hm : it.exec w.p ≠ 0)
include hm

/-- POST seals its slot and starts its transit. -/
theorem post_leaves {h : Handle} {e : ArenaEntry} {sl : Slot} (o : it.opens s w.a h e sl) (free : sl.locked = false)
    (issues : Issues (.post w) s it) (outside : s.inRegion it.key = false) {bar : Option Nat} (bound : LocalBar s it w.d bar)
    (low : bits (it.scalar w.b) 15 9 = 0) (high : bits (it.scalar w.b) 31 19 = 0) {it0 : Iss}
    (found : it0 = it.seen it (.post w) true) :
    Leaves (.post w) s it ((((s.begun it (.post w) true).posted it0 w h (it.scalar w.b) bar).drainSlot it.l h.arena h.index).modSlot
      h.arena h.index fun y => { y with st := 2, cause := 0 }) it.own := by
  subst found
  have units := State.units_posted (it := it.seen it (.post w) true) (s := s.begun it (.post w) true)
    (by simpa using outside) w h (it.scalar w.b) bar
  refine leaves_of_units rfl rfl (exec_post_engine w s) issues (State.sameUnits_trans units
    (State.sameUnits_trans (State.restPart_units (State.restPart_drainSlot ..)).1 ⟨rfl, rfl, rfl⟩)) ?_
  simp only [engineEff, Iss.seen_exec, if_neg hm, Bool.not_false, Bool.true_and, Iss.seen_key, State.begun_inRegion, outside,
    Bool.false_eq_true, if_false, localBar_begun bound, withHandle_open o fun _ => free]
  simp [postEff, low, high, State.posted, State.postReleased]

theorem precv_raises (issued : Issued (.precv w) s it) (past : 7 < it.scalar w.b) :
    Raises (.precv w) s it (it.trapOpen (s.begun it (.precv w) true) 0x31 (it.exec w.p)) := by
  refine raises_of_effect rfl rfl ((exec_precv w s).trans (parcelWord_eq ..)) issued ?_
  rw [onActive_seen hm]
  simp [past]

variable (issues : Issues (.precv w) s it) (box : it.scalar w.b ≤ 7)
include issues box

/-- PRECV of an inbox that holds a handle pops the oldest. -/
theorem precv_entersIn_handle {h : Nat} {rest : List Nat} (is : (s.inboxArena (it.scalar w.b)).isSome = true)
    (queue : Map.get s.inboxes [] (it.scalar w.b) = h :: rest) {it0 : Iss} (found : it0 = it.seen it (.precv w) true) :
    EntersIn (.precv w) s it
      (({ s.begun it (.precv w) true with
          inboxes := Map.put (s.begun it (.precv w) true).inboxes [] (it.scalar w.b) rest } : State).popped it0 w.x.obs h)
      (lateResult s w.la (pairWrites w.d h) (FlagUpd.test true)) := by
  subst found
  refine entersIn_of_sees rfl rfl ((exec_precv w s).trans (parcelWord_eq ..)) issues (State.onlySees_trans
    (State.onlySees_of_units it.key ⟨rfl, rfl, rfl⟩ rfl) (State.onlySees_popped ..)) ?_
  rw [onActive_seen hm]
  simp [Nat.not_lt.mpr box, is, queue]

/-- PRECV of an inbox that is empty, or that no arena is, enters 0. -/
theorem precv_enters_none (empty : (s.inboxArena (it.scalar w.b)).isSome = false
      ∨ Map.get s.inboxes [] (it.scalar w.b) = []) :
    Enters (.precv w) s it w.la (pairWrites w.d 0) (FlagUpd.test false) := by
  have queue : (if (s.inboxArena (it.scalar w.b)).isSome then Map.get s.inboxes [] (it.scalar w.b) else []) = [] := by
    rcases empty with e | e
    · rw [if_neg (by rw [e]; exact Bool.false_ne_true)]
    · rw [e, ite_self]
  refine enters_of_effect rfl rfl ((exec_precv w s).trans (parcelWord_eq ..)) issues ?_
  rw [onActive_seen hm]
  simp [Nat.not_lt.mpr box, queue]

end
end

end Sys2Proof.Machine

namespace Sys2Proof.Proofs

open Sys2Proof Sys2Proof.Machine

/-- Settles O40: the checks of a handle and of the accesses through it are those of the model in its order, and each word
that passes them completes by what it leaves alone. -/
theorem parcelWords : Obligations.ParcelWords := by
  unfold Obligations.ParcelWords
  refine ⟨?handle, ?palloc, ?access, ?precv⟩
  case handle =>
    intro w s it hm x h e sl dead
    refine ⟨fun gone => ⟨fun i => ?_, fun i => ?_, fun i => ?_, fun v hp ha => ?_⟩,
      fun live locked => ⟨fun i => ?_, fun i => ?_, fun v hp ha => ?_⟩, fun live pin => ?_⟩
    · exact raises_deadHandle hm rfl rfl i (exec_pfree_handle w s) gone
    · exact raises_deadHandle hm rfl rfl i (exec_paddr_handle w s) gone
    · exact raises_deadHandle hm rfl rfl i (exec_pstat_handle w s) gone
    · have raises {i : Instr} {write ref : Bool} {k : State → Iss → Mask → List Acc → Eff} (word : AccessWord i v write ref k)
          (issued : Issued i s it) : Raises i s it dead := by
        obtain ⟨hb, hc, hx⟩ := word
        have := raises_deadHandle (by rwa [hp]) hb hc issued (hx s) (by rw [ha]; exact gone)
        rwa [hp, ha] at this
      exact ⟨raises (accessWord_ldp v), raises (accessWord_stp v), raises (accessWord_stpr v)⟩
    · exact raises_lockedSlot hm rfl rfl i (exec_pfree_handle w s) live locked
    · exact raises_lockedSlot hm rfl rfl i (exec_paddr_handle w s) live locked
    · have raises {i : Instr} {write ref : Bool} {k : State → Iss → Mask → List Acc → Eff} (word : AccessWord i v write ref k)
          (issued : Issued i s it) : Raises i s it (it.trapWord 0x40 (it.exec w.p) x) := by
        obtain ⟨hb, hc, hx⟩ := word
        have := raises_lockedSlot (by rwa [hp]) hb hc issued (hx s) (by rw [ha]; exact live) (by rw [ha]; exact locked)
        rwa [hp, ha] at this
      exact ⟨raises (accessWord_ldp v), raises (accessWord_stp v), raises (accessWord_stpr v)⟩
    · have o : it.opens s w.a h e sl := ⟨rfl, rfl, rfl, live, pin⟩
      refine ⟨fun issues free outside => pfree_leaves hm o issues free outside, fun issues free => ?_,
        fun issues => pstat_enters hm o issues⟩
      exact (paddr_computes hm o issues free).congr fun r _ => written_pairWrites ..
  case palloc =>
    intro w s it hm outside a len e issues low valid own least most fits pin
    have good : s.mayAlloc it.l a len := ⟨low, valid, own, least, most, fits, pin⟩
    exact ⟨fun none => palloc_enters_none hm rfl rfl issues outside good none,
      fun k free pages => palloc_enters_handle hm rfl rfl issues outside good free pages⟩
  case access =>
    intro w s it hm outside x h e sl n m vec accs fits bytes shape stores live free pin
    have o : it.opens s w.a h e sl := ⟨rfl, rfl, rfl, live, pin⟩
    refine ⟨fun a first => ?misaligned, fun a aligned => ?past, fun issues inOrder none => ?ldp,
      fun issues inOrder none => ?stp, fun issues inOrder refs none => ?stpr, fun issues bar bound => ?post⟩
    case misaligned =>
      intro t
      have raises {i : Instr} {write ref : Bool} {k : State → Iss → Mask → List Acc → Eff} (word : AccessWord i w write ref k)
          (issued : Issued i s it) : Raises i s it t := raises_misaligned hm o free rfl word issued first
      simp only [List.forall_mem_cons]
      exact ⟨raises (accessWord_ldp w), raises (accessWord_stp w), raises (accessWord_stpr w), by simp⟩
    case past =>
      intro t past
      refine ⟨fun first => ?_, fun first issued => ?_⟩
      · have raises {i : Instr} {write : Bool} {k : State → Iss → Mask → List Acc → Eff} (word : AccessWord i w write false k)
            (issued : Issued i s it) : Raises i s it t :=
          raises_past hm o free rfl word issued aligned (by simpa only [Bool.false_and, Bool.or_false] using first)
        simp only [List.forall_mem_cons]
        exact ⟨raises (accessWord_ldp w), raises (accessWord_stp w), by simp⟩
      · exact raises_past hm o free rfl (accessWord_stpr w) issued aligned (by simpa only [Bool.true_and] using first)
    case ldp =>
      intro it0 s1 got clear
      exact ldp_entersIn hm o free rfl issues none inOrder (Iss.issued_eq_seen rfl rfl issues.1.1) rfl clear
    case stp =>
      exact stores_leaveIn hm o free rfl (accessWord_stp w) issues outside none inOrder (fun e => Bool.noConfusion e)
        (Iss.issued_eq_seen rfl rfl issues.1.1)
    case stpr =>
      exact stores_leaveIn hm o free rfl (accessWord_stpr w) issues outside none inOrder (fun _ => refs)
        (Iss.issued_eq_seen rfl rfl issues.1.1)
    case post =>
      intro b low high
      exact post_leaves hm o free issues outside bound low high (Iss.issued_eq_seen rfl rfl issues.1.1)
  case precv =>
    intro w s it hm n
    refine ⟨fun issued past => precv_raises hm issued past, fun issues box => ⟨fun h rest is queue => ?_, fun empty => ?_⟩⟩
    · exact precv_entersIn_handle hm issues box is queue (Iss.issued_eq_seen rfl rfl issues.1.1)
    · exact precv_enters_none hm issues box empty

end Sys2Proof.Proofs
